-- ==== Sys2Proof/Word.lean ====
section
/-! DEFINITION. Sys2Proof/Word.lean: the word types of R5 and R83 (byte, half, word, dword) and sets of lanes. -/

namespace Sys2Proof

/-- 8 bits (R5). -/
abbrev Byte := BitVec 8
/-- 16 bits (R5). -/
abbrev Half := BitVec 16
/-- 32 bits (R5): an instruction word, a lane's value of a vector register, a uniform register. -/
abbrev Word := BitVec 32
/-- 64 bits (R5): a uniform pair (R65), a device virtual address (R94). -/
abbrev DWord := BitVec 64
/-- A set of lanes, lane L in bit L, as ballots (R230) and frame owners (R82) hold it. -/
abbrev LaneSet := BitVec 64

/-- Lane L is in the set. -/
def LaneSet.has (m : LaneSet) (l : Nat) : Bool := m.getLsbD l

/-- The set of one lane. -/
def LaneSet.one (l : Nat) : LaneSet := BitVec.ofNat 64 (2 ^ l)

/-- The lanes below `w` in the set, ascending. -/
def LaneSet.list (m : LaneSet) (w : Nat) : List Nat := (List.range w).filter (fun l => m.getLsbD l)

/-- The set of the lanes below `w` that satisfy `p`. -/
def LaneSet.ofPred (w : Nat) (p : Nat → Bool) : LaneSet :=
  (List.range w).foldl (fun m l => if p l then m ||| LaneSet.one l else m) 0

/-- Whether the set is empty. -/
def LaneSet.isEmpty (m : LaneSet) : Bool := m == 0

/-- Whether `m` is contained in `n`. -/
def LaneSet.subset (m n : LaneSet) : Bool := (m &&& ~~~n) == 0

end Sys2Proof
end

