-- ==== Sys2Proof/Config.lean ====
section
/-! DEFINITION. Sys2Proof/Config.lean: what the device fixes for every run (the counts of R9 to R12, the identification fields of R19)
and the free values: constants with no body for what the spec leaves open, so that no proof can see them. -/

namespace Sys2Proof

/-- Cores of the device (R10). -/
def Config.cores : Nat := 192
/-- Cores per die (R9). -/
def Config.coresPerDie : Nat := 96
/-- Clusters of the device (R10). -/
def Config.clusters : Nat := 24
/-- Cores per cluster (R10). -/
def Config.coresPerCluster : Nat := 8
/-- Partitions per core (R11). -/
def Config.partitions : Nat := 8
/-- Group slots per partition (R11). -/
def Config.slotsPerPartition : Nat := 8
/-- Granules of 64 B in Bobbin (R11). -/
def Config.granules : Nat := 16384
/-- Tag quads of a core (R68). -/
def Config.quads : Nat := 4096
/-- Tiles of a core's tile file (R11). -/
def Config.tiles : Nat := 128
/-- Accumulators of a core (R11). -/
def Config.accumulators : Nat := 32
/-- Blocks of 64 B in the uniform register file of a core (R68). -/
def Config.urfBlocks : Nat := 1024
/-- Bytes of a core's scratchpad (R11). -/
def Config.scratchBytes : Nat := 524288
/-- Outstanding memory requests of a core (R99). -/
def Config.requests : Nat := 2048
/-- Copy commands in flight per core (R108). -/
def Config.copies : Nat := 64
/-- Array forms the matrix array queue holds (R299). -/
def Config.arrayQueue : Nat := 16
/-- Watch entries of a core (R116). -/
def Config.watches : Nat := 64
/-- Operand log entries of a group (R336). -/
def Config.logEntries : Nat := 16
/-- Tag table entries of a core (R105). -/
def Config.tagEntries : Nat := 512
/-- Functions: the physical function 0 and the virtual functions 1 to 16 (R16). -/
def Config.functions : Nat := 17
/-- Command queues of a function (R148). -/
def Config.queues : Nat := 8
/-- Filet ports (R9). -/
def Config.ports : Nat := 18
/-- DEVID.PART (R19). -/
def Config.part : Nat := 0x0F40

/-- FREE VALUE (log 2): a scratch byte of a range that was taken and not yet written (R102 leaves it undefined), by the number of the
taking and the byte's offset in the core's scratchpad. -/
opaque Config.scratchByte : Nat → Nat → Byte
/-- FREE VALUE (log 7): which of the admissible results of R254 a transcendental operation returns, by operation and operand. -/
opaque Config.transcendental : Nat → Word → Nat
/-- FREE VALUE (log 9): the word of a lane that no owner of a refilled register holds, by a count (R81 leaves it open). -/
opaque Config.lostWord : Nat → Word
/-- FREE VALUE (log 14): a sign that R92 leaves open, by the run and the place in it. -/
opaque Config.hadSign : List Word → Nat → Bool
/-- FREE VALUE (log 9): the bytes of a spilled record granule to which R68 gives no contents, by a count and position. -/
opaque Config.recordByte : Nat → Nat → Byte
/-- FREE VALUE (log 10): the address translation of the host under SVA (R371), by function and host page; none is a refusal. -/
opaque Config.hostTranslate : Nat → Nat → Option Nat
/-- FREE VALUE (log 23): the device of the pod in whose memory a 64 KiB page of host space lies, if it lies in one (R408). -/
opaque Config.hostOwner : Nat → Option Nat
/-- FREE VALUE (log 17): the index of a Pricking node in the table that holds it (R140), by function and node address: no rule says how
the device finds the first node of a table. -/
opaque Config.nodeIndex : Nat → DWord → Nat
/-- FREE VALUE (log 13): the voltage fused for a class, in millivolts (R156). -/
opaque Config.classMillivolts : Nat → Half

end Sys2Proof
end

