-- ==== Sys2Proof/Syntax.lean ====
section
/-! DEFINITION. Sys2Proof/Syntax.lean: the instructions and events of the Folran 4. One constructor for each row of
spec/opcode_table.json: the instruction words of R209 (majors 0x00 to 0x33) with the operand fields of their formats (R202), and the
steps that no word encodes (spec/95_what_each_step_holds.md), whose operands say what the step is taken for. -/

namespace Sys2Proof

/-- The guard of a short-format word (R51, R196): predicate G and sense S. -/
structure Guard where
  pred : BitVec 4
  sense : Bool
  deriving DecidableEq, Repr

/-- What every short-format word carries beside its payload (R196): the chain bit C and the guard, absent when E = 0. -/
structure Head where
  chain : Bool
  guard : Option Guard
  deriving DecidableEq, Repr

/-- The unguarded, unchained head. -/
def Head.plain : Head := ⟨false, none⟩

/-- The static pipe classes of R12 and R209. -/
inductive Pipe where
  | V | S | M | X | T | C
  deriving DecidableEq, Repr

/-- The special registers of R245. -/
inductive SReg where
  | ix | iy | iz | tix | lane | ox | oy | oz | ex | ey | ez | sx | sy | sz | tn | gix | gcnt | sb | ss | team | grid
  | core | die | dev | ptime | cyc | fmode | fflags
  deriving DecidableEq, Repr

/-- The special register codes of R245; every code not listed is unassigned. -/
def SReg.ofCode (i : BitVec 12) : Option SReg :=
  match i.toNat with
  | 0x000 => some .ix | 0x001 => some .iy | 0x002 => some .iz | 0x003 => some .tix | 0x004 => some .lane
  | 0x008 => some .ox | 0x009 => some .oy | 0x00A => some .oz
  | 0x00C => some .ex | 0x00D => some .ey | 0x00E => some .ez
  | 0x010 => some .sx | 0x011 => some .sy | 0x012 => some .sz
  | 0x014 => some .tn | 0x015 => some .gix | 0x016 => some .gcnt
  | 0x018 => some .sb | 0x019 => some .ss
  | 0x01C => some .team | 0x01D => some .grid
  | 0x020 => some .core | 0x021 => some .die | 0x022 => some .dev
  | 0x030 => some .ptime | 0x031 => some .cyc
  | 0x038 => some .fmode | 0x039 => some .fflags
  | _ => none

/-- Whether the register is 64 bits wide (R245). -/
def SReg.wide : SReg → Bool
  | .ptime | .cyc => true
  | _ => false

/-- Whether sr.wrs may write the register (R245). -/
def SReg.writable : SReg → Bool
  | .fmode | .fflags => true
  | _ => false

/-- The instructions and events: one constructor per row of the opcode table. Short-format words carry their head `h`, long-format
words their chain bit `c`. Operand fields hold the field as the word does. -/
inductive Instr where
  /-- ILLEGAL_PACKET (R199): A path's chain that would issue is not legal and raises illegal-packet for the path. -/
  | illegalPacket (addr : DWord) (slot : Nat) (kind : Nat)
  /-- BREAKPOINT_STOP (R171): A chain whose first word matches an enabled breakpoint stops its partition before it issues. -/
  | breakpointStop
  /-- SF_DRAIN (R122): The head of a group's store FIFO enters the core memory point, taking its place in co and its queues. -/
  | sfDrain (core : Nat) (slot : Nat)
  /-- PROPAGATE (R122): An entry leaves a propagation queue and reaches the point of that scope. -/
  | propagate (core : Nat) (idx : Nat)
  /-- LOAD_PRESENT (R123): A load presents, forwarding from the store FIFO or recording the writes in the core memory point. -/
  | loadPresent (core : Nat) (slot : Nat) (op : Nat) (elem : Nat)
  /-- LOAD_BIND (R123): A load unit binds to the co-latest write it may see, writing its destination and lowering ld when complete. -/
  | loadBind (core : Nat) (slot : Nat) (op : Nat) (elem : Nat)
  /-- ATOMIC_PERFORM (R126): An atomic at the head of its store FIFO reads, computes and writes in one step. -/
  | atomicPerform (core : Nat) (slot : Nat)
  /-- TILE_STORE_ROW_ENTER (R297): A row of a tile store read out by the tile unit enters the store FIFO: `slot` has the
  group's slot and the operation. -/
  | tileStoreRowEnter (core : Nat) (slot : Nat × Nat)
  /-- COPY_TAKE (R131): The copy engine takes a drained copy command, reserving a buffer slot and reading gather indices. -/
  | copyTake (core : Nat)
  /-- COPY_COMPLETE (R109): A copy's last write enters its destination's core memory point, lowering cp or committing its slot; `n` names a
  step of the copy before that (log 27). -/
  | copyComplete (core : Nat) (idx : Nat) (n : Nat)
  /-- MATRIX_OP_COMPLETE (R300): The matrix array ends an operation, writes the result whole, unbinds it and lowers tl. -/
  | matrixOpComplete (core : Nat)
  /-- BARRIER_ARRIVAL (R54): A group's arrival is counted once its release has completed; the phase completes when enough groups have arrived.
  Beside the barrier, `bar` has a grid, a device and a phase when that device tells the root of its arrivals (log 15). -/
  | barrierArrival (core : Nat) (slot : Nat) (bar : Nat × Option (Word × Nat × Half))
  /-- REGROUP (R62): When every live lane of the team waits at the regroup, its threads are sorted by key and moved among groups. -/
  | regroup (grid : Word) (team : Nat)
  /-- GRANULE_GRANT (R73): Granules are granted to the oldest group that waits for rows. -/
  | granuleGrant (core : Nat)
  /-- TAG_QUAD_GRANT (R360): Tag quads are granted to a call or handler entry that waits for them. -/
  | tagQuadGrant (core : Nat)
  /-- ESCAPE_SPILL (R79): The escape spill engine spills victims' granules to serve the oldest request for granules: `core` has the core and the slots
  of its groups that are ready (R45). -/
  | escapeSpill (core : Nat × BitVec 64)
  /-- REFILL_COMPLETE (R81): A spilled register is read back and returns to code 2: `reg` has the register, and the word whose operand it is with its
  lanes (R363). -/
  | refillComplete (core : Nat) (slot : Nat) (frame : Nat) (reg : Nat × BitVec 64 × BitVec 64)
  /-- WTA_WAKE (R115): A write to a watched word becomes visible at the scope and the waiting lanes re-read it. -/
  | wtaWake (core : Nat) (slot : Nat) (lane : Nat)
  /-- WTA_POLL (R116): A lane waiting without a watch entry is re-read after 1,024 clocks. -/
  | wtaPoll (core : Nat) (slot : Nat) (lane : Nat)
  /-- WTA_TIMEOUT (R115): A waiting lane's timeout passes and it resumes with the word's value read then. -/
  | wtaTimeout (core : Nat) (slot : Nat) (lane : Nat)
  /-- TIME_WAIT_EXPIRY (R320): %ptime reaches a lane's tm target and the lane becomes runnable. -/
  | timeWaitExpiry (core : Nat) (slot : Nat) (lane : Nat)
  /-- TRIAL_DELAY_END (R169): The d clocks of a trial delay pass and the group is again ready. -/
  | trialDelayEnd (core : Nat) (slot : Nat)
  /-- DEFERRED_FAULT_RAISE (R338): A deferred fault detected on a logged access is raised for a lane at its next chain boundary. -/
  | deferredFaultRaise (core : Nat) (slot : Nat) (lane : Nat)
  /-- TRAP_HANDLER_ENTRY (R342): Faulted lanes enter a handler frame with the trap record in v0 to v7. -/
  | trapHandlerEntry (core : Nat) (slot : Nat)
  /-- ACCESS_VIOLATION (R381): A request forbidden by an access table is discarded, its master frozen and a record written. -/
  | accessViolation (master : Nat) (pa : Nat) (kind : BitVec 3) (grid : Word)
  /-- SCRUB_READ (R378): The daily scrub reads a location, correcting or recording any error found. -/
  | scrubRead (pa : Nat)
  /-- WATCHDOG_EXPIRY (R356): A stalled team's timer reaches TLIM, writing a record and cancelling the grid. -/
  | watchdogExpiry (grid : Word) (team : Nat)
  /-- LAUNCH_ACCEPT (R135): The front end reads a launch record whole, checks it and accepts it with a grid number or refuses it. -/
  | launchAccept
  /-- TEAM_DISPATCH (R37): The cut engine places the next team of a grid on cores with enough free resources. -/
  | teamDispatch (die : Nat) (grid : Word)
  /-- ALLOTMENT_GRANT (R40): The dispatcher serves an allotment request, or the die ends its dispatch when none is left. -/
  | allotmentGrant (die : Nat) (grid : Word)
  /-- ALLOTMENT_ARRIVAL (R41): An allotment arrives at a die and joins its remainder. -/
  | allotmentArrival (die : Nat) (grid : Word) (lo : Nat) (len : Nat)
  /-- GRID_COMPLETE (R139): A finished grid performs its completion release, event and NODE signal. -/
  | gridComplete (grid : Word)
  /-- CLASS_REQUEST_ARRIVAL (R161): A class request reaches a die's dispatcher and sets the class of later teams of the grid. Beside the
  die, a grid and a class when the request comes from another device through the root (log 15). -/
  | classRequestArrival (die : Nat × Option (Word × Nat))
  /-- NODE_SIGNAL (R142): The front end takes a signal to a Pricking node, counting predecessors or loop returns. -/
  | nodeSignal
  /-- WAIT_TIME_EXPIRY (R142): %ptime reaches a WAIT-TIME node's time and its set A is released. -/
  | waitTimeExpiry (idx : Nat)
  /-- PREFETCH_COPY_COMPLETE (R147): A PREFETCH copy completes, sets RES[0], and releases set A after the last one. -/
  | prefetchCopyComplete (idx : Nat) (copy : Nat)
  /-- POD_LAUNCH_KEY (R153): The root receives a pod launch, keys it with its start and broadcasts it. -/
  | podLaunchKey (issuer : Nat) (seq : Nat) (fn : Nat) (queue : Nat) (rec : List Byte)
  /-- POD_LAUNCH_RECEIVE (R153): A device receives a broadcast pod launch and holds it in key order. -/
  | podLaunchReceive (start : DWord) (issuer : Nat) (seq : Nat) (fn : Nat) (queue : Nat) (rec : List Byte)
  /-- POD_LAUNCH_RELEASE (R153): A device's %ptime reaches the start of its lowest held pod launch and it is released. -/
  | podLaunchRelease
  /-- POD_PART_REPORT (R154): A device finishes its part of a pod grid, fences at pod and reports to the root. Beside the grid, the
  device when the report is another's (log 15). -/
  | podPartReport (grid : Word × Option Nat)
  /-- POD_COMPLETION (R154): The root has every report and passes completion to the issuing device. -/
  | podCompletion (grid : Word)
  /-- CANCEL_REQUEST (R402): A cancellation reaches the root or dispatcher, which fixes its cause and broadcasts CANCEL. -/
  | cancelRequest (grid : Word) (cause : BitVec 8)
  /-- CANCEL_RECEIVE (R403): A taking-part device receives CANCEL, ends dispatch and stops its resident groups. -/
  | cancelReceive (grid : Word) (cause : BitVec 8)
  /-- CANCEL_REPORT (R403): A device whose cancelled teams have all finished fences at pod and reports its record count.
  Beside the grid, the device and its count when the report is another's (log 15). -/
  | cancelReport (grid : Word × Option (Nat × Nat))
  /-- CANCEL_SUMMARY (R404): The issuer writes the summary record of a cancelled grid and performs its release and event. -/
  | cancelSummary (grid : Word)
  /-- SLICE_BOUNDARY (R150): A 100 us dispatch slice begins and the next queue by weighted round robin takes it. -/
  | sliceBoundary
  /-- BUDGET_PERIOD (R150): A 1 ms period boundary resets every QCHARGE and reschedules descheduled queues. -/
  | budgetPeriod
  /-- QUEUE_DESCHEDULE (R150): A queue's charge reaches its budget and none of its teams is placed until the period ends. -/
  | queueDeschedule (fn : Nat) (q : Nat) (charge : Word)
  /-- EVICTION (R390): A unit at a blocking point is drained, fenced and written to its context block, then its resources are freed. -/
  | eviction (grid : Word) (team : Nat) (blk : DWord)
  /-- WAKE_CHECK (R393): The dispatcher re-reads the watched words of evicted units and sets WAKE. -/
  | wakeCheck (idx : Nat)
  /-- RESTORE (R394): A wakeable unit is placed on cores and its state written back. -/
  | restore (idx : Nat) (core : Nat)
  /-- POWER_PERIOD (R160): Each 1 ms period updates DRAWW and moves CAP by the thresholds. -/
  | powerPeriod (draw : BitVec 16)
  /-- POOL_MOVE_COMPLETE (R159): A cluster's pool move finishes and TRANS clears. -/
  | poolMoveComplete (cluster : Nat)
  /-- BYTE_BUDGET_INTERVAL (R162): Each 1 us interval grants every cluster a new byte budget. -/
  | byteBudgetInterval (grants : List (BitVec 24))
  /-- CLUSTER_IDLE (R163): A cluster on which no group has issued for 256 clocks becomes idle. -/
  | clusterIdle (cluster : Nat)
  /-- SLEW_ADMISSION_WINDOW (R163): Each 100 ns window admits up to three waiting idle clusters cyclically. -/
  | slewAdmissionWindow
  /-- THERMAL_TRIP (R411): The fused thermal trip stops every cluster clock and sets THERM. -/
  | thermalTrip
  /-- SYNC_MESSAGE (R405): An IEEE 1588 sync message updates OFFS and gains or loses lock. -/
  | syncMessage (offs : Int)
  /-- SYNC_TIMEOUT (R405): No sync message for 8 ms makes the device lose lock. -/
  | syncTimeout
  /-- POD_FORMATION (R152): A pod is formed, device numbers are set and the members' %ptime is advanced to the root's. -/
  | podFormation (dev : Nat) (members : BitVec 128) (rootTime : DWord)
  /-- FLIT_REPLAY (R408): A flit that fails its check is replayed from the sender's replay buffer. -/
  | flitReplay (port : Nat)
  /-- PORT_DOWN (R408): A Filet port fails retraining and its routes move to other ports. -/
  | portDown (port : Nat) (lost : List Nat)
  /-- BRIDGE_REPLAY_FAIL (R408): A failed die bridge replay is fatal: every grid is cancelled and a fatal error is reported. -/
  | bridgeReplayFail
  /-- FIRMWARE_BOOT (R412): At reset, boot ROM verifies the firmware image and runs it or enters recovery. -/
  | firmwareBoot (err : BitVec 8) (version : Word)
  /-- FUNCTION_READY (R413): A function's firmware core starts and its memory is allotted, the ranges given (first and last byte), setting READY and its register defaults. -/
  | functionReady (fn : Nat × List (Nat × Nat))
  /-- FIRMWARE_CORE_FAIL (R413): A firmware core fails, sets FAIL and cancels its function's grids. -/
  | firmwareCoreFail (fn : Nat)
  /-- CTXSET (R149): Command that sets the context's level-0 table and address mode after earlier grids complete. -/
  | ctxset (fn : Nat) (q : Nat)
  /-- LAUNCH (R149): Command that passes a launch record to the front end. -/
  | launch (fn : Nat) (q : Nat)
  /-- TRIGGER (R149): Command that sends one signal to a Pricking node. -/
  | trigger (fn : Nat) (q : Nat)
  /-- CANCEL (R149): Command that requests cancellation of a grid. -/
  | cancel (fn : Nat) (q : Nat)
  /-- WAITEV (R149): Command that holds the queue until a word reaches a value. -/
  | waitev (fn : Nat) (q : Nat)
  /-- WAITEV_SATISFIED (R149): A WAITEV word, read with acquire at sys, reaches its value and the queue goes on. -/
  | waitevSatisfied (fn : Nat) (q : Nat)
  /-- SIGNAL (R149): Command that arranges a store with release at sys after earlier grids complete. -/
  | signal (fn : Nat) (q : Nat)
  /-- SIGNAL_STORE (R149): Once earlier grids complete and their writes reach sys, the SIGNAL value is stored. -/
  | signalStore (fn : Nat) (q : Nat)
  /-- TVTSET (R149): Command that sets the context's trap vector table address. -/
  | tvtset (fn : Nat) (q : Nat)
  /-- CINV (R149): Command that invalidates the context's translations. -/
  | cinv (fn : Nat) (q : Nat)
  /-- QTAIL_WRITE (R148): The host advances QTAIL and the queue's firmware core takes entries up to it. -/
  | qtailWrite (fn : Nat) (q : Nat) (v : Word)
  /-- QCLR_CLEAR_FAULT (R148): Writing QCLR[0] clears QSTAT[2]. -/
  | qclrClearFault (fn : Nat) (q : Nat)
  /-- QCLR_RESTART (R400): Writing QCLR[1] clears QSTAT[3] and restarts a halted queue at QHEAD. -/
  | qclrRestart (fn : Nat) (q : Nat)
  /-- CENSCTL_CLEAR_DIFF (R166): Writing CENSCTL.DIFF clears DIFF and CENSDIFF. -/
  | censctlClearDiff (fn : Nat)
  /-- CENSCTL_CHK (R167): Writing CENSCTL.CHK compares the census and reference buffers. -/
  | censctlChk (fn : Nat)
  /-- TRIALCTL_WRITE (R168): Writing TRIALCTL sets the trial and clears DLYCNT when EN is 1. -/
  | trialctlWrite (fn : Nat) (v : DWord)
  /-- DSTOP_STOP (R171): Writing DSTOP.STOP stops a partition. -/
  | dstopStop (core : Nat) (parts : BitVec 8)
  /-- DSTOP_RESUME (R171): Writing DSTOP.RES resumes a partition and applies held completions. -/
  | dstopResume (core : Nat) (parts : BitVec 8)
  /-- DUMPA_WRITE (R172): Writing DUMPA starts a dump of the stopped partitions. -/
  | dumpaWrite (core : Nat) (v : DWord)
  /-- DUMP_COMPLETE (R172): The last dump record reaches the dev point and BUSY falls. -/
  | dumpComplete (core : Nat)
  /-- MERRCNT_WRITE (R379): Writing MERRCNT sets both error counts to 0. -/
  | merrcntWrite (fn : Nat)
  /-- ACCCTL_WRITE (R382): Writing a frozen master's ID releases it, cancelling grids that have held requests. -/
  | accctlWrite (id : BitVec 8)
  /-- FWCMD_RUN (R412): FWCMD 1 verifies a staged image and runs it without writing flash. -/
  | fwcmdRun (len : Word) (err : BitVec 8) (version : Word)
  /-- FWCMD_FLASH (R412): FWCMD 2 verifies a staged image, writes it to flash and runs it. -/
  | fwcmdFlash (len : Word) (err : BitVec 8) (version : Word)
  /-- REGISTER_WRITE (R6): A write to a register with no behaviour of its own updates its non-reserved, in-range fields. -/
  | registerWrite (fn : Nat) (off : Nat) (v : DWord)
  /-- ILLEGAL_WORD (R210): A word of a reserved major, or with an unassigned F, modifier or nonzero reserved field, raises illegal-word precisely when its chain would issue. -/
  | illegalWord (addr : DWord) (w : Word)
  /-- FETCH_FAULT (R214): Fetching a path's chain meets a translation, permission, absent-address or uncorrectable fault, raised precisely for every lane of the path. -/
  | fetchFault (code : BitVec 8) (addr : DWord) (detail : Word)
  /-- TRANSLATION_COMPLETE (R336): A unit of a logged access passes or fails translation and permission; the log entry is released or its faulted lanes are marked. -/
  | translationComplete (core : Nat) (slot : Nat) (entry : Nat) (lanes : BitVec 64)
  /-- HOST_WRITE (R121): A host agent writes device or host memory at the sys point, taking its place in co there. -/
  | hostWrite (addr : Nat) (bytes : List Byte)
  /-- LAUNCH_START_RELEASE (R406): The local %ptime reaches the START of an accepted die or device launch and the launch is dealt out. -/
  | launchStartRelease (grid : Word)
  /-- RESERVED_COMMAND_ENTRY (R400): The queue takes an entry that holds a reserved op or cannot be read, and halts with a fault ring record. -/
  | reservedCommandEntry (fn : Nat) (q : Nat)
  /-- PORT_RETRAINING (R408): A Filet port enters training and, when retraining succeeds, returns to up with its routes. -/
  | portRetraining (port : Nat) (up : Bool) (peer : BitVec 8) (pport : BitVec 8)
  /-- NOP (R217): Does nothing; this is also the packet padding word. -/
  | nop (h : Head)
  /-- CTL_EXIT (R217): Waits until the group's four counters are zero, unwinds any called frames and exits the active lanes. -/
  | ctlExit (h : Head)
  /-- CTL_JR (R217): Indirect jump of each active lane to the address held in a uniform pair. -/
  | ctlJr (h : Head) (a : BitVec 5)
  /-- CTL_PC (R217): Writes the address of the executing word into a uniform pair. -/
  | ctlPc (h : Head) (d : BitVec 5)
  /-- WAIT (R218): Stalls the path until each outstanding-operation counter is at or below its limit; with all limits 0 it is the exception fence. -/
  | wait (h : Head) (l : BitVec 4) (t : BitVec 4) (p : BitVec 4) (k : BitVec 4)
  /-- BR_LANE (R219): Branches each active lane to the target. -/
  | brLane (h : Head) (o : BitVec 17)
  /-- BR_ALL (R219): Branches the whole path when every lane of the path is active. -/
  | brAll (h : Head) (o : BitVec 17)
  /-- BR_ANY (R219): Branches the whole path when any lane of the path is active. -/
  | brAny (h : Head) (o : BitVec 17)
  /-- JMP (R220): Unconditional jump of the path by a 24-bit word offset. -/
  | jmp (c : Bool) (o : BitVec 24)
  /-- CALL (R222): Creates a new frame with the given demand and calls the address held in a uniform pair. -/
  | call (h : Head) (a : BitVec 5) (v : BitVec 5) (n : BitVec 4) (x : BitVec 3)
  /-- CALLP (R222): Unguarded call, with a new frame, to a target given as a PC-relative offset. -/
  | callp (c : Bool) (v : BitVec 5) (n : BitVec 4) (x : BitVec 3) (o : BitVec 12)
  /-- RET_POP (R225): Returns the active lanes from their frame and delivers NB registers to the caller. -/
  | retPop (h : Head) (i : BitVec 6)
  /-- RET_UNWIND (R225): Unwinds k frames, with k taken from the field, delivering NB registers. -/
  | retUnwind (h : Head) (d : BitVec 5) (i : BitVec 6)
  /-- RET_UNWINDR (R225): Unwinds k frames, with k taken from a uniform register, delivering NB registers. -/
  | retUnwindr (h : Head) (a : BitVec 5) (i : BitVec 6)
  /-- BAR_TEAM (R227): Arrives and waits at the team barrier. -/
  | barTeam (h : Head)
  /-- BAR_TWIN (R227): Arrives and waits at the twin barrier. -/
  | barTwin (h : Head)
  /-- BAR_NWAIT (R227): Arrives at named barrier n with a group count and waits for the phase. -/
  | barNwait (h : Head) (a : BitVec 5) (n : BitVec 4)
  /-- BAR_NARRIVE (R227): Arrives at named barrier n with a group count, without waiting. -/
  | barNarrive (h : Head) (a : BitVec 5) (n : BitVec 4)
  /-- BAR_GRID (R227): Arrives and waits at the grid barrier. -/
  | barGrid (h : Head)
  /-- VOTE_BALLOT (R230): Writes, per frame, a ballot of a predicate over the frame's active lanes into a uniform pair. -/
  | voteBallot (h : Head) (d : BitVec 5) (a : BitVec 5)
  /-- VOTE_ANY (R230): Sets a predicate in every active lane to the OR of a predicate over the active lanes. -/
  | voteAny (h : Head) (d : BitVec 5) (a : BitVec 5)
  /-- VOTE_ALL (R230): Sets a predicate in every active lane to the AND of a predicate over the active lanes. -/
  | voteAll (h : Head) (d : BitVec 5) (a : BitVec 5)
  /-- VOTE_POPC (R230): Writes, per frame, the count of the frame's active lanes whose predicate is set. -/
  | votePopc (h : Head) (d : BitVec 5) (a : BitVec 5)
  /-- VOTE_FIRST (R230): Writes, per frame, the lowest active lane whose predicate is set. -/
  | voteFirst (h : Head) (d : BitVec 5) (a : BitVec 5)
  /-- VOTE_PEERS (R230): Gives each active lane the count of active lanes that hold the same value. -/
  | votePeers (h : Head) (d : BitVec 5) (a : BitVec 5)
  /-- VOTE_RANK (R230): Gives each active lane the count of lower active lanes that hold the same value. -/
  | voteRank (h : Head) (d : BitVec 5) (a : BitVec 5)
  /-- VOTE_ACT (R230): Writes, per frame, the mask of the frame's active lanes into a uniform pair. -/
  | voteAct (h : Head) (d : BitVec 5)
  /-- GRP_SORT (R232): Lanes wait at the regroup of the team on a key register and a count of moved registers. -/
  | grpSort (h : Head) (d : BitVec 5) (i : BitVec 6)
  /-- VI_ADD (R236): Vector integer add, wrapping. -/
  | viAdd (h : Head) (d : BitVec 5) (a : BitVec 5) (b : BitVec 5)
  /-- VI_SUB (R236): Vector integer subtract, wrapping. -/
  | viSub (h : Head) (d : BitVec 5) (a : BitVec 5) (b : BitVec 5)
  /-- VI_MUL (R236): Vector integer multiply, low 32 bits. -/
  | viMul (h : Head) (d : BitVec 5) (a : BitVec 5) (b : BitVec 5)
  /-- VI_MULHS (R236): Vector signed multiply, high 32 bits. -/
  | viMulhs (h : Head) (d : BitVec 5) (a : BitVec 5) (b : BitVec 5)
  /-- VI_MULHU (R236): Vector unsigned multiply, high 32 bits. -/
  | viMulhu (h : Head) (d : BitVec 5) (a : BitVec 5) (b : BitVec 5)
  /-- VI_AND (R236): Vector bitwise AND. -/
  | viAnd (h : Head) (d : BitVec 5) (a : BitVec 5) (b : BitVec 5)
  /-- VI_OR (R236): Vector bitwise OR. -/
  | viOr (h : Head) (d : BitVec 5) (a : BitVec 5) (b : BitVec 5)
  /-- VI_XOR (R236): Vector bitwise XOR. -/
  | viXor (h : Head) (d : BitVec 5) (a : BitVec 5) (b : BitVec 5)
  /-- VI_SHL (R236): Vector shift left. -/
  | viShl (h : Head) (d : BitVec 5) (a : BitVec 5) (b : BitVec 5)
  /-- VI_SHR (R236): Vector logical shift right. -/
  | viShr (h : Head) (d : BitVec 5) (a : BitVec 5) (b : BitVec 5)
  /-- VI_SRA (R236): Vector arithmetic shift right. -/
  | viSra (h : Head) (d : BitVec 5) (a : BitVec 5) (b : BitVec 5)
  /-- VI_MIN (R236): Vector signed minimum. -/
  | viMin (h : Head) (d : BitVec 5) (a : BitVec 5) (b : BitVec 5)
  /-- VI_MAX (R236): Vector signed maximum. -/
  | viMax (h : Head) (d : BitVec 5) (a : BitVec 5) (b : BitVec 5)
  /-- VI_MINU (R236): Vector unsigned minimum. -/
  | viMinu (h : Head) (d : BitVec 5) (a : BitVec 5) (b : BitVec 5)
  /-- VI_MAXU (R236): Vector unsigned maximum. -/
  | viMaxu (h : Head) (d : BitVec 5) (a : BitVec 5) (b : BitVec 5)
  /-- VI_ANDN (R236): Vector a AND NOT b. -/
  | viAndn (h : Head) (d : BitVec 5) (a : BitVec 5) (b : BitVec 5)
  /-- SI_ADD (R236): Uniform integer add. -/
  | siAdd (h : Head) (d : BitVec 5) (a : BitVec 5) (b : BitVec 5)
  /-- SI_SUB (R236): Uniform integer subtract. -/
  | siSub (h : Head) (d : BitVec 5) (a : BitVec 5) (b : BitVec 5)
  /-- SI_MUL (R236): Uniform multiply, low 32 bits. -/
  | siMul (h : Head) (d : BitVec 5) (a : BitVec 5) (b : BitVec 5)
  /-- SI_MULHS (R236): Uniform signed multiply, high 32 bits. -/
  | siMulhs (h : Head) (d : BitVec 5) (a : BitVec 5) (b : BitVec 5)
  /-- SI_MULHU (R236): Uniform unsigned multiply, high 32 bits. -/
  | siMulhu (h : Head) (d : BitVec 5) (a : BitVec 5) (b : BitVec 5)
  /-- SI_AND (R236): Uniform bitwise AND. -/
  | siAnd (h : Head) (d : BitVec 5) (a : BitVec 5) (b : BitVec 5)
  /-- SI_OR (R236): Uniform bitwise OR. -/
  | siOr (h : Head) (d : BitVec 5) (a : BitVec 5) (b : BitVec 5)
  /-- SI_XOR (R236): Uniform bitwise XOR. -/
  | siXor (h : Head) (d : BitVec 5) (a : BitVec 5) (b : BitVec 5)
  /-- SI_SHL (R236): Uniform shift left. -/
  | siShl (h : Head) (d : BitVec 5) (a : BitVec 5) (b : BitVec 5)
  /-- SI_SHR (R236): Uniform logical shift right. -/
  | siShr (h : Head) (d : BitVec 5) (a : BitVec 5) (b : BitVec 5)
  /-- SI_SRA (R236): Uniform arithmetic shift right. -/
  | siSra (h : Head) (d : BitVec 5) (a : BitVec 5) (b : BitVec 5)
  /-- SI_MIN (R236): Uniform signed minimum. -/
  | siMin (h : Head) (d : BitVec 5) (a : BitVec 5) (b : BitVec 5)
  /-- SI_MAX (R236): Uniform signed maximum. -/
  | siMax (h : Head) (d : BitVec 5) (a : BitVec 5) (b : BitVec 5)
  /-- SI_MINU (R236): Uniform unsigned minimum. -/
  | siMinu (h : Head) (d : BitVec 5) (a : BitVec 5) (b : BitVec 5)
  /-- SI_MAXU (R236): Uniform unsigned maximum. -/
  | siMaxu (h : Head) (d : BitVec 5) (a : BitVec 5) (b : BitVec 5)
  /-- SI_ANDN (R236): Uniform a AND NOT b. -/
  | siAndn (h : Head) (d : BitVec 5) (a : BitVec 5) (b : BitVec 5)
  /-- VII_ADD (R237): Vector add of a signed 6-bit immediate. -/
  | viiAdd (h : Head) (d : BitVec 5) (a : BitVec 5) (i : BitVec 6)
  /-- VII_MUL (R237): Vector multiply by a signed 6-bit immediate. -/
  | viiMul (h : Head) (d : BitVec 5) (a : BitVec 5) (i : BitVec 6)
  /-- VII_AND (R237): Vector AND with a signed 6-bit immediate. -/
  | viiAnd (h : Head) (d : BitVec 5) (a : BitVec 5) (i : BitVec 6)
  /-- VII_OR (R237): Vector OR with a signed 6-bit immediate. -/
  | viiOr (h : Head) (d : BitVec 5) (a : BitVec 5) (i : BitVec 6)
  /-- VII_XOR (R237): Vector XOR with a signed 6-bit immediate. -/
  | viiXor (h : Head) (d : BitVec 5) (a : BitVec 5) (i : BitVec 6)
  /-- VII_SHL (R237): Vector shift left by an immediate amount. -/
  | viiShl (h : Head) (d : BitVec 5) (a : BitVec 5) (i : BitVec 5)
  /-- VII_SHR (R237): Vector logical shift right by an immediate amount. -/
  | viiShr (h : Head) (d : BitVec 5) (a : BitVec 5) (i : BitVec 5)
  /-- VII_SRA (R237): Vector arithmetic shift right by an immediate amount. -/
  | viiSra (h : Head) (d : BitVec 5) (a : BitVec 5) (i : BitVec 5)
  /-- SII_ADD (R237): Uniform add of a signed 6-bit immediate. -/
  | siiAdd (h : Head) (d : BitVec 5) (a : BitVec 5) (i : BitVec 6)
  /-- SII_MUL (R237): Uniform multiply by a signed 6-bit immediate. -/
  | siiMul (h : Head) (d : BitVec 5) (a : BitVec 5) (i : BitVec 6)
  /-- SII_AND (R237): Uniform AND with a signed 6-bit immediate. -/
  | siiAnd (h : Head) (d : BitVec 5) (a : BitVec 5) (i : BitVec 6)
  /-- SII_OR (R237): Uniform OR with a signed 6-bit immediate. -/
  | siiOr (h : Head) (d : BitVec 5) (a : BitVec 5) (i : BitVec 6)
  /-- SII_XOR (R237): Uniform XOR with a signed 6-bit immediate. -/
  | siiXor (h : Head) (d : BitVec 5) (a : BitVec 5) (i : BitVec 6)
  /-- SII_SHL (R237): Uniform shift left by an immediate amount. -/
  | siiShl (h : Head) (d : BitVec 5) (a : BitVec 5) (i : BitVec 5)
  /-- SII_SHR (R237): Uniform logical shift right by an immediate amount. -/
  | siiShr (h : Head) (d : BitVec 5) (a : BitVec 5) (i : BitVec 5)
  /-- SII_SRA (R237): Uniform arithmetic shift right by an immediate amount. -/
  | siiSra (h : Head) (d : BitVec 5) (a : BitVec 5) (i : BitVec 5)
  /-- VM_NEG (R239): Vector integer negate, wrapping. -/
  | vmNeg (h : Head) (d : BitVec 5) (a : BitVec 5)
  /-- VM_ABS (R239): Vector integer absolute value, wrapping. -/
  | vmAbs (h : Head) (d : BitVec 5) (a : BitVec 5)
  /-- VM_ADDS (R239): Vector signed saturating add. -/
  | vmAdds (h : Head) (d : BitVec 5) (a : BitVec 5) (b : BitVec 5)
  /-- VM_ADDU (R239): Vector unsigned saturating add. -/
  | vmAddu (h : Head) (d : BitVec 5) (a : BitVec 5) (b : BitVec 5)
  /-- VM_SUBS (R239): Vector signed saturating subtract. -/
  | vmSubs (h : Head) (d : BitVec 5) (a : BitVec 5) (b : BitVec 5)
  /-- VM_SUBU (R239): Vector unsigned saturating subtract. -/
  | vmSubu (h : Head) (d : BitVec 5) (a : BitVec 5) (b : BitVec 5)
  /-- VM_MOV (R239): Vector move, copying the tag. -/
  | vmMov (h : Head) (d : BitVec 5) (a : BitVec 5)
  /-- VM_CLZ (R239): Count of leading zero bits. -/
  | vmClz (h : Head) (d : BitVec 5) (a : BitVec 5)
  /-- VM_POPC (R239): Count of one bits. -/
  | vmPopc (h : Head) (d : BitVec 5) (a : BitVec 5)
  /-- VM_BREV (R239): Bit reverse. -/
  | vmBrev (h : Head) (d : BitVec 5) (a : BitVec 5)
  /-- VM_SEXT8 (R239): Sign-extends the low byte. -/
  | vmSext8 (h : Head) (d : BitVec 5) (a : BitVec 5)
  /-- VM_SEXT16 (R239): Sign-extends the low half. -/
  | vmSext16 (h : Head) (d : BitVec 5) (a : BitVec 5)
  /-- VM_SATI8 (R239): Saturates to the i8 range. -/
  | vmSati8 (h : Head) (d : BitVec 5) (a : BitVec 5)
  /-- VM_SATI16 (R239): Saturates to the i16 range. -/
  | vmSati16 (h : Head) (d : BitVec 5) (a : BitVec 5)
  /-- VM_SATN8 (R239): Saturates to the n8 range. -/
  | vmSatn8 (h : Head) (d : BitVec 5) (a : BitVec 5)
  /-- VM_SATN16 (R239): Saturates to the n16 range. -/
  | vmSatn16 (h : Head) (d : BitVec 5) (a : BitVec 5)
  /-- VC_EQ (R240): Vector compare equal into a predicate. -/
  | vcEq (h : Head) (d : BitVec 5) (a : BitVec 5) (b : BitVec 5)
  /-- VC_NE (R240): Vector compare not equal into a predicate. -/
  | vcNe (h : Head) (d : BitVec 5) (a : BitVec 5) (b : BitVec 5)
  /-- VC_LT (R240): Vector signed less-than compare. -/
  | vcLt (h : Head) (d : BitVec 5) (a : BitVec 5) (b : BitVec 5)
  /-- VC_LE (R240): Vector signed less-or-equal compare. -/
  | vcLe (h : Head) (d : BitVec 5) (a : BitVec 5) (b : BitVec 5)
  /-- VC_LTU (R240): Vector unsigned less-than compare. -/
  | vcLtu (h : Head) (d : BitVec 5) (a : BitVec 5) (b : BitVec 5)
  /-- VC_LEU (R240): Vector unsigned less-or-equal compare. -/
  | vcLeu (h : Head) (d : BitVec 5) (a : BitVec 5) (b : BitVec 5)
  /-- SC_EQ (R240): Uniform compare equal into a predicate. -/
  | scEq (h : Head) (d : BitVec 5) (a : BitVec 5) (b : BitVec 5)
  /-- SC_NE (R240): Uniform compare not equal into a predicate. -/
  | scNe (h : Head) (d : BitVec 5) (a : BitVec 5) (b : BitVec 5)
  /-- SC_LT (R240): Uniform signed less-than into a predicate. -/
  | scLt (h : Head) (d : BitVec 5) (a : BitVec 5) (b : BitVec 5)
  /-- SC_LE (R240): Uniform signed less-or-equal into a predicate. -/
  | scLe (h : Head) (d : BitVec 5) (a : BitVec 5) (b : BitVec 5)
  /-- SC_LTU (R240): Uniform unsigned less-than into a predicate. -/
  | scLtu (h : Head) (d : BitVec 5) (a : BitVec 5) (b : BitVec 5)
  /-- SC_LEU (R240): Uniform unsigned less-or-equal into a predicate. -/
  | scLeu (h : Head) (d : BitVec 5) (a : BitVec 5) (b : BitVec 5)
  /-- SC_BLEN (R240): Writes the bit length of a uniform register. -/
  | scBlen (h : Head) (d : BitVec 5) (a : BitVec 5)
  /-- SC_SEQ (R240): Uniform compare equal, with 1 or 0 written to a uniform register. -/
  | scSeq (h : Head) (d : BitVec 5) (a : BitVec 5) (b : BitVec 5)
  /-- SC_SNE (R240): Uniform compare not equal, with 1 or 0 written to a uniform register. -/
  | scSne (h : Head) (d : BitVec 5) (a : BitVec 5) (b : BitVec 5)
  /-- SC_SLT (R240): Uniform signed less-than, with 1 or 0 written to a uniform register. -/
  | scSlt (h : Head) (d : BitVec 5) (a : BitVec 5) (b : BitVec 5)
  /-- SC_SLE (R240): Uniform signed less-or-equal, with 1 or 0 written to a uniform register. -/
  | scSle (h : Head) (d : BitVec 5) (a : BitVec 5) (b : BitVec 5)
  /-- SC_SLTU (R240): Uniform unsigned less-than, with 1 or 0 written to a uniform register. -/
  | scSltu (h : Head) (d : BitVec 5) (a : BitVec 5) (b : BitVec 5)
  /-- SC_SLEU (R240): Uniform unsigned less-or-equal, with 1 or 0 written to a uniform register. -/
  | scSleu (h : Head) (d : BitVec 5) (a : BitVec 5) (b : BitVec 5)
  /-- VP_SEL (R241): Per-lane select of vA or the old vD by a predicate. -/
  | vpSel (h : Head) (d : BitVec 5) (a : BitVec 5) (b : BitVec 5)
  /-- VP_AND (R241): Predicate AND. -/
  | vpAnd (h : Head) (d : BitVec 5) (a : BitVec 5) (b : BitVec 5)
  /-- VP_OR (R241): Predicate OR. -/
  | vpOr (h : Head) (d : BitVec 5) (a : BitVec 5) (b : BitVec 5)
  /-- VP_XOR (R241): Predicate XOR. -/
  | vpXor (h : Head) (d : BitVec 5) (a : BitVec 5) (b : BitVec 5)
  /-- VP_ANDN (R241): Predicate a AND NOT b. -/
  | vpAndn (h : Head) (d : BitVec 5) (a : BitVec 5) (b : BitVec 5)
  /-- VP_NOT (R241): Predicate NOT. -/
  | vpNot (h : Head) (d : BitVec 5) (a : BitVec 5)
  /-- VP_GET (R241): Moves a predicate into a vector register as 0 or 1. -/
  | vpGet (h : Head) (d : BitVec 5) (a : BitVec 5)
  /-- VP_SET (R241): Sets a predicate where a vector register is nonzero. -/
  | vpSet (h : Head) (d : BitVec 5) (a : BitVec 5)
  /-- VP_MVU (R241): Moves a uniform register into a vector register. -/
  | vpMvu (h : Head) (d : BitVec 5) (a : BitVec 5)
  /-- VX_IDX (R242): Lane exchange from a lane that a vector register gives. -/
  | vxIdx (h : Head) (d : BitVec 5) (a : BitVec 5) (b : BitVec 5)
  /-- VX_UP (R242): Lane exchange from the lane a uniform count below. -/
  | vxUp (h : Head) (d : BitVec 5) (a : BitVec 5) (b : BitVec 5)
  /-- VX_DOWN (R242): Lane exchange from the lane a uniform count above. -/
  | vxDown (h : Head) (d : BitVec 5) (a : BitVec 5) (b : BitVec 5)
  /-- VX_XOR (R242): Lane exchange from the lane given by XOR with a uniform value. -/
  | vxXor (h : Head) (d : BitVec 5) (a : BitVec 5) (b : BitVec 5)
  /-- VX_BCAST (R242): Broadcast from the lane that a uniform register names. -/
  | vxBcast (h : Head) (d : BitVec 5) (a : BitVec 5) (b : BitVec 5)
  /-- SLI_LO (R243): Loads a zero-extended 16-bit immediate into a uniform register. -/
  | sliLo (c : Bool) (d : BitVec 5) (i : BitVec 16)
  /-- SLI_HI (R243): Sets the high half of a uniform register, keeping its low half. -/
  | sliHi (c : Bool) (d : BitVec 5) (i : BitVec 16)
  /-- SLI_SX (R243): Loads a sign-extended 16-bit immediate into a uniform register. -/
  | sliSx (c : Bool) (d : BitVec 5) (i : BitVec 16)
  /-- SLI_VSX (R243): Sets a vector register to U of a sign-extended 16-bit immediate. -/
  | sliVsx (c : Bool) (d : BitVec 5) (i : BitVec 16)
  /-- SR_RDV (R244): Reads a 32-bit special register into a vector register, shaped by R25. -/
  | srRdv (h : Head) (d : BitVec 5) (i : BitVec 12)
  /-- SR_RDS (R244): Reads a special register into a uniform register, once per frame. -/
  | srRds (h : Head) (d : BitVec 5) (i : BitVec 12)
  /-- SR_WRS (R244): Writes %fmode or %fflags from a uniform register. -/
  | srWrs (h : Head) (d : BitVec 5) (i : BitVec 12)
  /-- SR_RDP (R244): Reads a special register into a uniform pair. -/
  | srRdp (h : Head) (d : BitVec 5) (i : BitVec 12)
  /-- AD_ADD (R246): 64-bit add of two pairs. -/
  | adAdd (h : Head) (d : BitVec 5) (a : BitVec 5) (b : BitVec 5)
  /-- AD_SUB (R246): 64-bit subtract of two pairs. -/
  | adSub (h : Head) (d : BitVec 5) (a : BitVec 5) (b : BitVec 5)
  /-- AD_ADDX (R246): Adds a sign-extended uniform register to a pair. -/
  | adAddx (h : Head) (d : BitVec 5) (a : BitVec 5) (b : BitVec 5)
  /-- AD_ADDZ (R246): Adds a zero-extended uniform register to a pair. -/
  | adAddz (h : Head) (d : BitVec 5) (a : BitVec 5) (b : BitVec 5)
  /-- AD_SHL (R246): 64-bit shift left of a pair. -/
  | adShl (h : Head) (d : BitVec 5) (a : BitVec 5) (b : BitVec 5)
  /-- AD_SHR (R246): 64-bit logical shift right of a pair. -/
  | adShr (h : Head) (d : BitVec 5) (a : BitVec 5) (b : BitVec 5)
  /-- AD_MULW (R246): Widening unsigned 32 by 32 multiply into a pair. -/
  | adMulw (h : Head) (d : BitVec 5) (a : BitVec 5) (b : BitVec 5)
  /-- AD_MOV (R246): Pair move. -/
  | adMov (h : Head) (d : BitVec 5) (a : BitVec 5)
  /-- AD_AND (R246): 64-bit AND of two pairs. -/
  | adAnd (h : Head) (d : BitVec 5) (a : BitVec 5) (b : BitVec 5)
  /-- AD_MUL (R246): 64-bit multiply of two pairs, wrapping. -/
  | adMul (h : Head) (d : BitVec 5) (a : BitVec 5) (b : BitVec 5)
  /-- AD_EQ (R246): 64-bit equality compare into a predicate. -/
  | adEq (h : Head) (d : BitVec 5) (a : BitVec 5) (b : BitVec 5)
  /-- AD_LTU (R246): 64-bit unsigned less-than into a predicate. -/
  | adLtu (h : Head) (d : BitVec 5) (a : BitVec 5) (b : BitVec 5)
  /-- AD_LT (R246): 64-bit signed less-than into a predicate. -/
  | adLt (h : Head) (d : BitVec 5) (a : BitVec 5) (b : BitVec 5)
  /-- SHP_SQ (R247): Squeezes a G register back to U or A where its lanes allow. -/
  | shpSq (h : Head) (d : BitVec 5)
  /-- SHP_EXP (R247): Expands a U or A register to G, taking granules. -/
  | shpExp (h : Head) (d : BitVec 5)
  /-- SHP_SHAPE (R247): Reads the shape code of a vector register. -/
  | shpShape (h : Head) (d : BitVec 5) (a : BitVec 5)
  /-- SHP_RDX (R247): Indirect read of a vector register by a uniform index. -/
  | shpRdx (h : Head) (d : BitVec 5) (a : BitVec 5)
  /-- SHP_WRX (R247): Indirect write of a vector register by a uniform index. -/
  | shpWrx (h : Head) (d : BitVec 5) (a : BitVec 5)
  /-- VF32_ADD (R252): f32 add. -/
  | vf32Add (h : Head) (d : BitVec 5) (a : BitVec 5) (b : BitVec 5)
  /-- VF32_SUB (R252): f32 subtract. -/
  | vf32Sub (h : Head) (d : BitVec 5) (a : BitVec 5) (b : BitVec 5)
  /-- VF32_MUL (R252): f32 multiply. -/
  | vf32Mul (h : Head) (d : BitVec 5) (a : BitVec 5) (b : BitVec 5)
  /-- VF32_FMA (R252): f32 fused multiply-add into vD. -/
  | vf32Fma (h : Head) (d : BitVec 5) (a : BitVec 5) (b : BitVec 5)
  /-- VF32_FMS (R252): f32 fused multiply-subtract from vD. -/
  | vf32Fms (h : Head) (d : BitVec 5) (a : BitVec 5) (b : BitVec 5)
  /-- VF32_MIN (R252): f32 IEEE minimum. -/
  | vf32Min (h : Head) (d : BitVec 5) (a : BitVec 5) (b : BitVec 5)
  /-- VF32_MAX (R252): f32 IEEE maximum. -/
  | vf32Max (h : Head) (d : BitVec 5) (a : BitVec 5) (b : BitVec 5)
  /-- VF32_ABS (R252): f32 absolute value. -/
  | vf32Abs (h : Head) (d : BitVec 5) (a : BitVec 5)
  /-- VF32_NEG (R252): f32 negate. -/
  | vf32Neg (h : Head) (d : BitVec 5) (a : BitVec 5)
  /-- VF32_CPSGN (R252): f32 copy-sign. -/
  | vf32Cpsgn (h : Head) (d : BitVec 5) (a : BitVec 5) (b : BitVec 5)
  /-- VF32_RINT (R252): Rounds f32 to an integral value under rmode. -/
  | vf32Rint (h : Head) (d : BitVec 5) (a : BitVec 5)
  /-- VF16_ADD (R253): Packed f16 add. -/
  | vf16Add (h : Head) (d : BitVec 5) (a : BitVec 5) (b : BitVec 5)
  /-- VF16_SUB (R253): Packed f16 subtract. -/
  | vf16Sub (h : Head) (d : BitVec 5) (a : BitVec 5) (b : BitVec 5)
  /-- VF16_MUL (R253): Packed f16 multiply. -/
  | vf16Mul (h : Head) (d : BitVec 5) (a : BitVec 5) (b : BitVec 5)
  /-- VF16_FMA (R253): Packed f16 fused multiply-add. -/
  | vf16Fma (h : Head) (d : BitVec 5) (a : BitVec 5) (b : BitVec 5)
  /-- VF16_MIN (R253): Packed f16 minimum. -/
  | vf16Min (h : Head) (d : BitVec 5) (a : BitVec 5) (b : BitVec 5)
  /-- VF16_MAX (R253): Packed f16 maximum. -/
  | vf16Max (h : Head) (d : BitVec 5) (a : BitVec 5) (b : BitVec 5)
  /-- VF16_NEG (R253): Packed f16 negate. -/
  | vf16Neg (h : Head) (d : BitVec 5) (a : BitVec 5)
  /-- VF16_ABS (R253): Packed f16 absolute value. -/
  | vf16Abs (h : Head) (d : BitVec 5) (a : BitVec 5)
  /-- VF16_BADD (R253): Packed bf16 add. -/
  | vf16Badd (h : Head) (d : BitVec 5) (a : BitVec 5) (b : BitVec 5)
  /-- VF16_BSUB (R253): Packed bf16 subtract. -/
  | vf16Bsub (h : Head) (d : BitVec 5) (a : BitVec 5) (b : BitVec 5)
  /-- VF16_BMUL (R253): Packed bf16 multiply. -/
  | vf16Bmul (h : Head) (d : BitVec 5) (a : BitVec 5) (b : BitVec 5)
  /-- VF16_BFMA (R253): Packed bf16 fused multiply-add. -/
  | vf16Bfma (h : Head) (d : BitVec 5) (a : BitVec 5) (b : BitVec 5)
  /-- VF16_BMIN (R253): Packed bf16 minimum. -/
  | vf16Bmin (h : Head) (d : BitVec 5) (a : BitVec 5) (b : BitVec 5)
  /-- VF16_BMAX (R253): Packed bf16 maximum. -/
  | vf16Bmax (h : Head) (d : BitVec 5) (a : BitVec 5) (b : BitVec 5)
  /-- VF16_BNEG (R253): Packed bf16 negate. -/
  | vf16Bneg (h : Head) (d : BitVec 5) (a : BitVec 5)
  /-- VF16_BABS (R253): Packed bf16 absolute value. -/
  | vf16Babs (h : Head) (d : BitVec 5) (a : BitVec 5)
  /-- VFX_DIV (R254): Correctly rounded f32 division. -/
  | vfxDiv (h : Head) (d : BitVec 5) (a : BitVec 5) (b : BitVec 5)
  /-- VFX_SQRT (R254): Correctly rounded f32 square root. -/
  | vfxSqrt (h : Head) (d : BitVec 5) (a : BitVec 5)
  /-- VFX_RCP (R254): f32 reciprocal within 1 ulp. -/
  | vfxRcp (h : Head) (d : BitVec 5) (a : BitVec 5)
  /-- VFX_RSQ (R254): f32 reciprocal square root within 1 ulp. -/
  | vfxRsq (h : Head) (d : BitVec 5) (a : BitVec 5)
  /-- VFX_EXP2 (R254): f32 base-2 exponential within 2 ulp. -/
  | vfxExp2 (h : Head) (d : BitVec 5) (a : BitVec 5)
  /-- VFX_LOG2 (R254): f32 base-2 logarithm within 2 ulp. -/
  | vfxLog2 (h : Head) (d : BitVec 5) (a : BitVec 5)
  /-- VFX_SINPI (R254): f32 sin(pi a) within 2 ulp. -/
  | vfxSinpi (h : Head) (d : BitVec 5) (a : BitVec 5)
  /-- VFX_COSPI (R254): f32 cos(pi a) within 2 ulp. -/
  | vfxCospi (h : Head) (d : BitVec 5) (a : BitVec 5)
  /-- VCV_F32I (R256): Converts i32 to f32. -/
  | vcvF32i (h : Head) (d : BitVec 5) (a : BitVec 5)
  /-- VCV_F32N (R256): Converts n32 to f32. -/
  | vcvF32n (h : Head) (d : BitVec 5) (a : BitVec 5)
  /-- VCV_I32F (R256): Converts f32 to i32, saturating. -/
  | vcvI32f (h : Head) (d : BitVec 5) (a : BitVec 5)
  /-- VCV_N32F (R256): Converts f32 to n32, saturating. -/
  | vcvN32f (h : Head) (d : BitVec 5) (a : BitVec 5)
  /-- VCV_PKH (R256): Packs two f32 values as f16. -/
  | vcvPkh (h : Head) (d : BitVec 5) (a : BitVec 5) (b : BitVec 5)
  /-- VCV_PKB (R256): Packs two f32 values as bf16. -/
  | vcvPkb (h : Head) (d : BitVec 5) (a : BitVec 5) (b : BitVec 5)
  /-- VCV_UHL (R256): Widens the low f16 half to f32. -/
  | vcvUhl (h : Head) (d : BitVec 5) (a : BitVec 5)
  /-- VCV_UHH (R256): Widens the high f16 half to f32. -/
  | vcvUhh (h : Head) (d : BitVec 5) (a : BitVec 5)
  /-- VCV_UBL (R256): Widens the low bf16 half to f32. -/
  | vcvUbl (h : Head) (d : BitVec 5) (a : BitVec 5)
  /-- VCV_UBH (R256): Widens the high bf16 half to f32. -/
  | vcvUbh (h : Head) (d : BitVec 5) (a : BitVec 5)
  /-- VCV_IE4 (R256): Converts f32 to e4m3 into byte k of vD. -/
  | vcvIe4 (h : Head) (d : BitVec 5) (a : BitVec 5) (b : BitVec 5)
  /-- VCV_IE5 (R256): Converts f32 to e5m2 into byte k of vD. -/
  | vcvIe5 (h : Head) (d : BitVec 5) (a : BitVec 5) (b : BitVec 5)
  /-- VCV_XE4 (R256): Widens byte k of vA, read as e4m3, to f32. -/
  | vcvXe4 (h : Head) (d : BitVec 5) (a : BitVec 5) (b : BitVec 5)
  /-- VCV_XE5 (R256): Widens byte k of vA, read as e5m2, to f32. -/
  | vcvXe5 (h : Head) (d : BitVec 5) (a : BitVec 5) (b : BitVec 5)
  /-- VFC_EQ (R257): Quiet f32 equality compare. -/
  | vfcEq (h : Head) (d : BitVec 5) (a : BitVec 5) (b : BitVec 5)
  /-- VFC_NE (R257): Quiet f32 inequality compare. -/
  | vfcNe (h : Head) (d : BitVec 5) (a : BitVec 5) (b : BitVec 5)
  /-- VFC_LT (R257): Signalling f32 less-than compare. -/
  | vfcLt (h : Head) (d : BitVec 5) (a : BitVec 5) (b : BitVec 5)
  /-- VFC_LE (R257): Signalling f32 less-or-equal compare. -/
  | vfcLe (h : Head) (d : BitVec 5) (a : BitVec 5) (b : BitVec 5)
  /-- VFC_UN (R257): Unordered test of two f32 values. -/
  | vfcUn (h : Head) (d : BitVec 5) (a : BitVec 5) (b : BitVec 5)
  /-- VFC_CLASS (R257): Writes the one-hot class mask of an f32 value. -/
  | vfcClass (h : Head) (d : BitVec 5) (a : BitVec 5)
  /-- VQ_Q16 (R259): Quantises blocks of 16 lanes to e2m1 q-words. -/
  | vqQ16 (h : Head) (d : BitVec 5) (a : BitVec 5) (b : BitVec 5)
  /-- VQ_Q32 (R259): Quantises blocks of 32 lanes to e2m1 q-words. -/
  | vqQ32 (h : Head) (d : BitVec 5) (a : BitVec 5) (b : BitVec 5)
  /-- VQ_PK4 (R260): Packs eight e2m1 codes into a word. -/
  | vqPk4 (h : Head) (d : BitVec 5) (a : BitVec 5)
  /-- VQ_DQ4 (R261): Decodes an e2m1 q-word to f32. -/
  | vqDq4 (h : Head) (d : BitVec 5) (a : BitVec 5) (b : BitVec 5)
  /-- VQ_QE16 (R259): Quantises blocks of 16 lanes to e4m3 q-words. -/
  | vqQe16 (h : Head) (d : BitVec 5) (a : BitVec 5) (b : BitVec 5)
  /-- VQ_QE32 (R259): Quantises blocks of 32 lanes to e4m3 q-words. -/
  | vqQe32 (h : Head) (d : BitVec 5) (a : BitVec 5) (b : BitVec 5)
  /-- VQ_PK8 (R260): Packs four e4m3 codes into a word. -/
  | vqPk8 (h : Head) (d : BitVec 5) (a : BitVec 5)
  /-- VQ_DQ8 (R261): Decodes an e4m3 q-word to f32. -/
  | vqDq8 (h : Head) (d : BitVec 5) (a : BitVec 5) (b : BitVec 5)
  /-- LD (R269): Vector load through a uniform base pair and a vector offset. -/
  | ld (h : Head) (d : BitVec 5) (a : BitVec 4) (o : BitVec 5) (z : BitVec 2) (q : BitVec 2)
  /-- LD_IMM (R269): Vector load through a uniform base pair and an immediate count. -/
  | ldImm (h : Head) (d : BitVec 5) (a : BitVec 4) (i : BitVec 5) (z : BitVec 2) (q : BitVec 2)
  /-- ST (R270): Vector store through a uniform base pair and a vector offset. -/
  | st (h : Head) (d : BitVec 5) (a : BitVec 4) (o : BitVec 5) (z : BitVec 2) (q : BitVec 2)
  /-- ST_IMM (R270): Vector store through a uniform base pair and an immediate count. -/
  | stImm (h : Head) (d : BitVec 5) (a : BitVec 4) (i : BitVec 5) (z : BitVec 2) (q : BitVec 2)
  /-- LDU (R271): Uniform load, once per frame, with a uniform register offset. -/
  | ldu (h : Head) (d : BitVec 5) (a : BitVec 4) (o : BitVec 5) (z : BitVec 2) (q : BitVec 2)
  /-- LDU_IMM (R271): Uniform load, once per frame, with an immediate count. -/
  | lduImm (h : Head) (d : BitVec 5) (a : BitVec 4) (i : BitVec 5) (z : BitVec 2) (q : BitVec 2)
  /-- STU (R271): Uniform store, once per frame, with a uniform register offset. -/
  | stu (h : Head) (d : BitVec 5) (a : BitVec 4) (o : BitVec 5) (z : BitVec 2) (q : BitVec 2)
  /-- STU_IMM (R271): Uniform store, once per frame, with an immediate count. -/
  | stuImm (h : Head) (d : BitVec 5) (a : BitVec 4) (i : BitVec 5) (z : BitVec 2) (q : BitVec 2)
  /-- ATM_ADD (R275): Atomic add, integer or float, returning the old value. -/
  | atmAdd (c : Bool) (d : BitVec 5) (a : BitVec 5) (y : BitVec 3) (q : BitVec 4)
  /-- ATM_MIN (R275): Atomic minimum, returning the old value. -/
  | atmMin (c : Bool) (d : BitVec 5) (a : BitVec 5) (y : BitVec 3) (q : BitVec 4)
  /-- ATM_MAX (R275): Atomic maximum, returning the old value. -/
  | atmMax (c : Bool) (d : BitVec 5) (a : BitVec 5) (y : BitVec 3) (q : BitVec 4)
  /-- ATM_AND (R275): Atomic AND, returning the old value. -/
  | atmAnd (c : Bool) (d : BitVec 5) (a : BitVec 5) (y : BitVec 3) (q : BitVec 4)
  /-- ATM_OR (R275): Atomic OR, returning the old value. -/
  | atmOr (c : Bool) (d : BitVec 5) (a : BitVec 5) (y : BitVec 3) (q : BitVec 4)
  /-- ATM_XOR (R275): Atomic XOR, returning the old value. -/
  | atmXor (c : Bool) (d : BitVec 5) (a : BitVec 5) (y : BitVec 3) (q : BitVec 4)
  /-- ATM_EXCH (R275): Atomic exchange. -/
  | atmExch (c : Bool) (d : BitVec 5) (a : BitVec 5) (y : BitVec 3) (q : BitVec 4)
  /-- ATM_CAS (R275): Atomic compare-and-swap. -/
  | atmCas (c : Bool) (d : BitVec 5) (a : BitVec 5) (y : BitVec 3) (q : BitVec 4)
  /-- FENCE_REL (R276): Release fence at the named scope. -/
  | fenceRel (h : Head) (k : BitVec 3)
  /-- FENCE_ACQ (R276): Acquire fence at the named scope. -/
  | fenceAcq (h : Head) (k : BitVec 3)
  /-- FENCE_FULL (R276): Full fence at the named scope. -/
  | fenceFull (h : Head) (k : BitVec 3)
  /-- FENCE_OPR_REL (R276): Release part of the operand-ready fence. -/
  | fenceOprRel (h : Head)
  /-- FENCE_OPR_ACQ (R276): Acquire part of the operand-ready fence. -/
  | fenceOprAcq (h : Head)
  /-- LDS (R278): Scratch load at core scope. -/
  | lds (h : Head) (d : BitVec 5) (a : BitVec 5) (f : BitVec 3) (i : BitVec 6)
  /-- STS (R278): Scratch store at core scope. -/
  | sts (h : Head) (d : BitVec 5) (a : BitVec 5) (f : BitVec 3) (i : BitVec 6)
  /-- STAG_LOOK (R279): Looks up the software cache tag table for each lane's address. -/
  | stagLook (h : Head) (d : BitVec 5) (a : BitVec 5)
  /-- STAG_SET (R279): Writes a valid tag table entry. -/
  | stagSet (h : Head) (d : BitVec 5) (a : BitVec 5) (b : BitVec 5)
  /-- STAG_INV (R279): Invalidates one tag table entry. -/
  | stagInv (h : Head) (d : BitVec 5)
  /-- STAG_CLR (R279): Invalidates every tag table entry of the grid on the core. -/
  | stagClr (h : Head)
  /-- CB_RES (R282): Reserves the next free slot of a circular buffer, stalling while none is free. -/
  | cbRes (h : Head) (d : BitVec 5) (n : BitVec 4)
  /-- CB_COM (R282): Enters a release whose drain commits a reserved slot. -/
  | cbCom (h : Head) (a : BitVec 5) (n : BitVec 4)
  /-- CB_WAIT (R282): Claims the next filled slot, stalling while none is filled. -/
  | cbWait (h : Head) (d : BitVec 5) (n : BitVec 4)
  /-- CB_POP (R282): Enters a release whose drain frees the claimed slot at RI. -/
  | cbPop (h : Head) (n : BitVec 4)
  /-- CB_SA (R282): Computes the scratch address of a slot. -/
  | cbSa (h : Head) (d : BitVec 5) (a : BitVec 5) (n : BitVec 4)
  /-- CP_G2S (R285): Issues a copy command from global memory to scratch. -/
  | cpG2s (h : Head) (d : BitVec 5) (a : BitVec 5) (b : BitVec 5)
  /-- CP_S2G (R285): Issues a copy command from scratch to global memory. -/
  | cpS2g (h : Head) (d : BitVec 5) (a : BitVec 5) (b : BitVec 5)
  /-- CP_S2S (R285): Issues a copy command from scratch to scratch, on the own core or the twin partner. -/
  | cpS2s (h : Head) (d : BitVec 5) (a : BitVec 5) (b : BitVec 5)
  /-- CP_GAT (R285): Issues a gather copy command into scratch. -/
  | cpGat (h : Head) (d : BitVec 5) (a : BitVec 5) (b : BitVec 5)
  /-- CP_T2H (R285): Issues a copy command from the second tier to HBM5. -/
  | cpT2h (h : Head) (d : BitVec 5) (a : BitVec 5) (b : BitVec 5)
  /-- WTA (R287): Each active lane waits on an address until the word differs from a compare value or the timeout passes. -/
  | wta (h : Head) (d : BitVec 5) (a : BitVec 5) (b : BitVec 5) (r : BitVec 1) (z : BitVec 1) (w : BitVec 2)
  /-- TCFG_SET (R295): Loads a 128-byte configuration record from memory into a tile. -/
  | tcfgSet (h : Head) (d : BitVec 5) (a : BitVec 5)
  /-- TCFG_ROWS (R295): Sets the MA byte of a configuration tile. -/
  | tcfgRows (h : Head) (d : BitVec 5) (a : BitVec 5)
  /-- TCFG_COLS (R295): Sets the NB byte of a configuration tile. -/
  | tcfgCols (h : Head) (d : BitVec 5) (a : BitVec 5)
  /-- TCFG_KEXT (R295): Sets the KX byte of a configuration tile. -/
  | tcfgKext (h : Head) (d : BitVec 5) (a : BitVec 5)
  /-- TCFG_STG (R295): Sets the BSTG field of a configuration tile. -/
  | tcfgStg (h : Head) (d : BitVec 5) (a : BitVec 5)
  /-- TCFG_FL (R295): Sets the FL byte of a configuration tile. -/
  | tcfgFl (h : Head) (d : BitVec 5) (a : BitVec 5)
  /-- TLD (R297): Tile load with a row pitch from a uniform register. -/
  | tld (h : Head) (d : BitVec 5) (a : BitVec 4) (o : BitVec 5) (z : BitVec 2) (q : BitVec 2)
  /-- TLD_IMM (R297): Tile load with an immediate transfer count. -/
  | tldImm (h : Head) (d : BitVec 5) (a : BitVec 4) (i : BitVec 5) (z : BitVec 2) (q : BitVec 2)
  /-- TST (R297): Tile store with a row pitch from a uniform register. -/
  | tst (h : Head) (d : BitVec 5) (a : BitVec 4) (o : BitVec 5) (z : BitVec 2) (q : BitVec 2)
  /-- TST_IMM (R297): Tile store with an immediate transfer count. -/
  | tstImm (h : Head) (d : BitVec 5) (a : BitVec 4) (i : BitVec 5) (z : BitVec 2) (q : BitVec 2)
  /-- MMA_ACC (R302): Queues a matrix multiply that accumulates onto an accumulator. -/
  | mmaAcc (h : Head) (d : BitVec 5) (a : BitVec 5) (b : BitVec 5) (k : BitVec 3)
  /-- MMA_SET (R302): Queues a matrix multiply that starts each written element from zero. -/
  | mmaSet (h : Head) (d : BitVec 5) (a : BitVec 5) (b : BitVec 5) (k : BitVec 3)
  /-- MX_HAD (R306): Queues a block Hadamard transform of accumulator rows. -/
  | mxHad (h : Head) (d : BitVec 5) (a : BitVec 5) (b : BitVec 5)
  /-- MX_PERM (R307): Queues a permutation of accumulator columns by a table. -/
  | mxPerm (h : Head) (d : BitVec 5) (a : BitVec 5) (b : BitVec 5)
  /-- ACC_ZERO (R309): Zeroes an accumulator. -/
  | accZero (h : Head) (d : BitVec 5)
  /-- ACC_RD (R309): Reads accumulator words into a vector register by index. -/
  | accRd (h : Head) (d : BitVec 5) (a : BitVec 5) (b : BitVec 5)
  /-- ACC_WR (R309): Writes accumulator words from a vector register by index. -/
  | accWr (h : Head) (d : BitVec 5) (a : BitVec 5) (b : BitVec 5)
  /-- ACC_WID (R310): Queues a widening of a tile section into an accumulator. -/
  | accWid (h : Head) (d : BitVec 5) (a : BitVec 5) (b : BitVec 5)
  /-- ACC_NAR (R310): Queues a narrowing of an accumulator section into a tile. -/
  | accNar (h : Head) (d : BitVec 5) (a : BitVec 5) (b : BitVec 5)
  /-- ACC_Q2 (R311): Queues a quantisation of an accumulator to e2m1 with headers. -/
  | accQ2 (h : Head) (d : BitVec 5) (a : BitVec 5) (b : BitVec 5)
  /-- ACC_QE (R311): Queues a quantisation of an accumulator to e4m3 with headers. -/
  | accQe (h : Head) (d : BitVec 5) (a : BitVec 5) (b : BitVec 5)
  /-- LNCH_REC (R316): Enters a release whose drain passes a launch record to the front end. -/
  | lnchRec (h : Head) (d : BitVec 5) (a : BitVec 5)
  /-- LNCH_TRIG (R316): Enters a release whose drain signals a Pricking node. -/
  | lnchTrig (h : Head) (a : BitVec 5)
  /-- LNCH_CNCL (R316): Enters a release whose drain requests cancellation of a grid. -/
  | lnchCncl (h : Head) (a : BitVec 5)
  /-- PWR_REQ (R318): Sends an operating class request for the issuing grid. -/
  | pwrReq (h : Head) (d : BitVec 5)
  /-- PWR_CLS (R318): Reads the class at which the team was placed. -/
  | pwrCls (h : Head) (d : BitVec 5)
  /-- PWR_POOL (R318): Reads the pool of the core's cluster. -/
  | pwrPool (h : Head) (d : BitVec 5)
  /-- TM_WTILL (R320): Lanes wait until %ptime reaches an absolute time. -/
  | tmWtill (h : Head) (a : BitVec 5)
  /-- TM_WREL (R320): Lanes wait for a relative number of nanoseconds. -/
  | tmWrel (h : Head) (a : BitVec 5)
  /-- TM_RD (R320): Reads %ptime once the group's counters are all zero. -/
  | tmRd (h : Head) (d : BitVec 5)
  /-- DBG_BRK (R321): Stops the issuing partition, with cause 3. -/
  | dbgBrk (h : Head)
  /-- DBG_PROG (R321): Adds a uniform increment to progress counter PROGn. -/
  | dbgProg (h : Head) (d : BitVec 5) (n : BitVec 4)
  /-- SYS_RDID (R323): Reads DEVID, DEVCAP, MEMCAP or PWRST by selector. -/
  | sysRdid (h : Head) (d : BitVec 5) (a : BitVec 5)
  /-- SYS_TRET (R344): Leaves a handler frame, reissuing the logged access when RS is set. -/
  | sysTret (h : Head)
  /-- SYS_CINV (R323): Invalidates the context's translations on the device, with fences at dev. -/
  | sysCinv (h : Head)
  /-- SYS_TVT (R323): Sets the context's trap vector table address. -/
  | sysTvt (h : Head) (a : BitVec 5)
  deriving DecidableEq, Repr

/-- The name each row of the opcode table has for the constructor. -/
def Instr.mnemonic : Instr → String
  | .illegalPacket .. => "ILLEGAL_PACKET"
  | .breakpointStop .. => "BREAKPOINT_STOP"
  | .sfDrain .. => "SF_DRAIN"
  | .propagate .. => "PROPAGATE"
  | .loadPresent .. => "LOAD_PRESENT"
  | .loadBind .. => "LOAD_BIND"
  | .atomicPerform .. => "ATOMIC_PERFORM"
  | .tileStoreRowEnter .. => "TILE_STORE_ROW_ENTER"
  | .copyTake .. => "COPY_TAKE"
  | .copyComplete .. => "COPY_COMPLETE"
  | .matrixOpComplete .. => "MATRIX_OP_COMPLETE"
  | .barrierArrival .. => "BARRIER_ARRIVAL"
  | .regroup .. => "REGROUP"
  | .granuleGrant .. => "GRANULE_GRANT"
  | .tagQuadGrant .. => "TAG_QUAD_GRANT"
  | .escapeSpill .. => "ESCAPE_SPILL"
  | .refillComplete .. => "REFILL_COMPLETE"
  | .wtaWake .. => "WTA_WAKE"
  | .wtaPoll .. => "WTA_POLL"
  | .wtaTimeout .. => "WTA_TIMEOUT"
  | .timeWaitExpiry .. => "TIME_WAIT_EXPIRY"
  | .trialDelayEnd .. => "TRIAL_DELAY_END"
  | .deferredFaultRaise .. => "DEFERRED_FAULT_RAISE"
  | .trapHandlerEntry .. => "TRAP_HANDLER_ENTRY"
  | .accessViolation .. => "ACCESS_VIOLATION"
  | .scrubRead .. => "SCRUB_READ"
  | .watchdogExpiry .. => "WATCHDOG_EXPIRY"
  | .launchAccept .. => "LAUNCH_ACCEPT"
  | .teamDispatch .. => "TEAM_DISPATCH"
  | .allotmentGrant .. => "ALLOTMENT_GRANT"
  | .allotmentArrival .. => "ALLOTMENT_ARRIVAL"
  | .gridComplete .. => "GRID_COMPLETE"
  | .classRequestArrival .. => "CLASS_REQUEST_ARRIVAL"
  | .nodeSignal .. => "NODE_SIGNAL"
  | .waitTimeExpiry .. => "WAIT_TIME_EXPIRY"
  | .prefetchCopyComplete .. => "PREFETCH_COPY_COMPLETE"
  | .podLaunchKey .. => "POD_LAUNCH_KEY"
  | .podLaunchReceive .. => "POD_LAUNCH_RECEIVE"
  | .podLaunchRelease .. => "POD_LAUNCH_RELEASE"
  | .podPartReport .. => "POD_PART_REPORT"
  | .podCompletion .. => "POD_COMPLETION"
  | .cancelRequest .. => "CANCEL_REQUEST"
  | .cancelReceive .. => "CANCEL_RECEIVE"
  | .cancelReport .. => "CANCEL_REPORT"
  | .cancelSummary .. => "CANCEL_SUMMARY"
  | .sliceBoundary .. => "SLICE_BOUNDARY"
  | .budgetPeriod .. => "BUDGET_PERIOD"
  | .queueDeschedule .. => "QUEUE_DESCHEDULE"
  | .eviction .. => "EVICTION"
  | .wakeCheck .. => "WAKE_CHECK"
  | .restore .. => "RESTORE"
  | .powerPeriod .. => "POWER_PERIOD"
  | .poolMoveComplete .. => "POOL_MOVE_COMPLETE"
  | .byteBudgetInterval .. => "BYTE_BUDGET_INTERVAL"
  | .clusterIdle .. => "CLUSTER_IDLE"
  | .slewAdmissionWindow .. => "SLEW_ADMISSION_WINDOW"
  | .thermalTrip .. => "THERMAL_TRIP"
  | .syncMessage .. => "SYNC_MESSAGE"
  | .syncTimeout .. => "SYNC_TIMEOUT"
  | .podFormation .. => "POD_FORMATION"
  | .flitReplay .. => "FLIT_REPLAY"
  | .portDown .. => "PORT_DOWN"
  | .bridgeReplayFail .. => "BRIDGE_REPLAY_FAIL"
  | .firmwareBoot .. => "FIRMWARE_BOOT"
  | .functionReady .. => "FUNCTION_READY"
  | .firmwareCoreFail .. => "FIRMWARE_CORE_FAIL"
  | .ctxset .. => "CTXSET"
  | .launch .. => "LAUNCH"
  | .trigger .. => "TRIGGER"
  | .cancel .. => "CANCEL"
  | .waitev .. => "WAITEV"
  | .waitevSatisfied .. => "WAITEV_SATISFIED"
  | .signal .. => "SIGNAL"
  | .signalStore .. => "SIGNAL_STORE"
  | .tvtset .. => "TVTSET"
  | .cinv .. => "CINV"
  | .qtailWrite .. => "QTAIL_WRITE"
  | .qclrClearFault .. => "QCLR_CLEAR_FAULT"
  | .qclrRestart .. => "QCLR_RESTART"
  | .censctlClearDiff .. => "CENSCTL_CLEAR_DIFF"
  | .censctlChk .. => "CENSCTL_CHK"
  | .trialctlWrite .. => "TRIALCTL_WRITE"
  | .dstopStop .. => "DSTOP_STOP"
  | .dstopResume .. => "DSTOP_RESUME"
  | .dumpaWrite .. => "DUMPA_WRITE"
  | .dumpComplete .. => "DUMP_COMPLETE"
  | .merrcntWrite .. => "MERRCNT_WRITE"
  | .accctlWrite .. => "ACCCTL_WRITE"
  | .fwcmdRun .. => "FWCMD_RUN"
  | .fwcmdFlash .. => "FWCMD_FLASH"
  | .registerWrite .. => "REGISTER_WRITE"
  | .illegalWord .. => "ILLEGAL_WORD"
  | .fetchFault .. => "FETCH_FAULT"
  | .translationComplete .. => "TRANSLATION_COMPLETE"
  | .hostWrite .. => "HOST_WRITE"
  | .launchStartRelease .. => "LAUNCH_START_RELEASE"
  | .reservedCommandEntry .. => "RESERVED_COMMAND_ENTRY"
  | .portRetraining .. => "PORT_RETRAINING"
  | .nop .. => "NOP"
  | .ctlExit .. => "CTL_EXIT"
  | .ctlJr .. => "CTL_JR"
  | .ctlPc .. => "CTL_PC"
  | .wait .. => "WAIT"
  | .brLane .. => "BR_LANE"
  | .brAll .. => "BR_ALL"
  | .brAny .. => "BR_ANY"
  | .jmp .. => "JMP"
  | .call .. => "CALL"
  | .callp .. => "CALLP"
  | .retPop .. => "RET_POP"
  | .retUnwind .. => "RET_UNWIND"
  | .retUnwindr .. => "RET_UNWINDR"
  | .barTeam .. => "BAR_TEAM"
  | .barTwin .. => "BAR_TWIN"
  | .barNwait .. => "BAR_NWAIT"
  | .barNarrive .. => "BAR_NARRIVE"
  | .barGrid .. => "BAR_GRID"
  | .voteBallot .. => "VOTE_BALLOT"
  | .voteAny .. => "VOTE_ANY"
  | .voteAll .. => "VOTE_ALL"
  | .votePopc .. => "VOTE_POPC"
  | .voteFirst .. => "VOTE_FIRST"
  | .votePeers .. => "VOTE_PEERS"
  | .voteRank .. => "VOTE_RANK"
  | .voteAct .. => "VOTE_ACT"
  | .grpSort .. => "GRP_SORT"
  | .viAdd .. => "VI_ADD"
  | .viSub .. => "VI_SUB"
  | .viMul .. => "VI_MUL"
  | .viMulhs .. => "VI_MULHS"
  | .viMulhu .. => "VI_MULHU"
  | .viAnd .. => "VI_AND"
  | .viOr .. => "VI_OR"
  | .viXor .. => "VI_XOR"
  | .viShl .. => "VI_SHL"
  | .viShr .. => "VI_SHR"
  | .viSra .. => "VI_SRA"
  | .viMin .. => "VI_MIN"
  | .viMax .. => "VI_MAX"
  | .viMinu .. => "VI_MINU"
  | .viMaxu .. => "VI_MAXU"
  | .viAndn .. => "VI_ANDN"
  | .siAdd .. => "SI_ADD"
  | .siSub .. => "SI_SUB"
  | .siMul .. => "SI_MUL"
  | .siMulhs .. => "SI_MULHS"
  | .siMulhu .. => "SI_MULHU"
  | .siAnd .. => "SI_AND"
  | .siOr .. => "SI_OR"
  | .siXor .. => "SI_XOR"
  | .siShl .. => "SI_SHL"
  | .siShr .. => "SI_SHR"
  | .siSra .. => "SI_SRA"
  | .siMin .. => "SI_MIN"
  | .siMax .. => "SI_MAX"
  | .siMinu .. => "SI_MINU"
  | .siMaxu .. => "SI_MAXU"
  | .siAndn .. => "SI_ANDN"
  | .viiAdd .. => "VII_ADD"
  | .viiMul .. => "VII_MUL"
  | .viiAnd .. => "VII_AND"
  | .viiOr .. => "VII_OR"
  | .viiXor .. => "VII_XOR"
  | .viiShl .. => "VII_SHL"
  | .viiShr .. => "VII_SHR"
  | .viiSra .. => "VII_SRA"
  | .siiAdd .. => "SII_ADD"
  | .siiMul .. => "SII_MUL"
  | .siiAnd .. => "SII_AND"
  | .siiOr .. => "SII_OR"
  | .siiXor .. => "SII_XOR"
  | .siiShl .. => "SII_SHL"
  | .siiShr .. => "SII_SHR"
  | .siiSra .. => "SII_SRA"
  | .vmNeg .. => "VM_NEG"
  | .vmAbs .. => "VM_ABS"
  | .vmAdds .. => "VM_ADDS"
  | .vmAddu .. => "VM_ADDU"
  | .vmSubs .. => "VM_SUBS"
  | .vmSubu .. => "VM_SUBU"
  | .vmMov .. => "VM_MOV"
  | .vmClz .. => "VM_CLZ"
  | .vmPopc .. => "VM_POPC"
  | .vmBrev .. => "VM_BREV"
  | .vmSext8 .. => "VM_SEXT8"
  | .vmSext16 .. => "VM_SEXT16"
  | .vmSati8 .. => "VM_SATI8"
  | .vmSati16 .. => "VM_SATI16"
  | .vmSatn8 .. => "VM_SATN8"
  | .vmSatn16 .. => "VM_SATN16"
  | .vcEq .. => "VC_EQ"
  | .vcNe .. => "VC_NE"
  | .vcLt .. => "VC_LT"
  | .vcLe .. => "VC_LE"
  | .vcLtu .. => "VC_LTU"
  | .vcLeu .. => "VC_LEU"
  | .scEq .. => "SC_EQ"
  | .scNe .. => "SC_NE"
  | .scLt .. => "SC_LT"
  | .scLe .. => "SC_LE"
  | .scLtu .. => "SC_LTU"
  | .scLeu .. => "SC_LEU"
  | .scBlen .. => "SC_BLEN"
  | .scSeq .. => "SC_SEQ"
  | .scSne .. => "SC_SNE"
  | .scSlt .. => "SC_SLT"
  | .scSle .. => "SC_SLE"
  | .scSltu .. => "SC_SLTU"
  | .scSleu .. => "SC_SLEU"
  | .vpSel .. => "VP_SEL"
  | .vpAnd .. => "VP_AND"
  | .vpOr .. => "VP_OR"
  | .vpXor .. => "VP_XOR"
  | .vpAndn .. => "VP_ANDN"
  | .vpNot .. => "VP_NOT"
  | .vpGet .. => "VP_GET"
  | .vpSet .. => "VP_SET"
  | .vpMvu .. => "VP_MVU"
  | .vxIdx .. => "VX_IDX"
  | .vxUp .. => "VX_UP"
  | .vxDown .. => "VX_DOWN"
  | .vxXor .. => "VX_XOR"
  | .vxBcast .. => "VX_BCAST"
  | .sliLo .. => "SLI_LO"
  | .sliHi .. => "SLI_HI"
  | .sliSx .. => "SLI_SX"
  | .sliVsx .. => "SLI_VSX"
  | .srRdv .. => "SR_RDV"
  | .srRds .. => "SR_RDS"
  | .srWrs .. => "SR_WRS"
  | .srRdp .. => "SR_RDP"
  | .adAdd .. => "AD_ADD"
  | .adSub .. => "AD_SUB"
  | .adAddx .. => "AD_ADDX"
  | .adAddz .. => "AD_ADDZ"
  | .adShl .. => "AD_SHL"
  | .adShr .. => "AD_SHR"
  | .adMulw .. => "AD_MULW"
  | .adMov .. => "AD_MOV"
  | .adAnd .. => "AD_AND"
  | .adMul .. => "AD_MUL"
  | .adEq .. => "AD_EQ"
  | .adLtu .. => "AD_LTU"
  | .adLt .. => "AD_LT"
  | .shpSq .. => "SHP_SQ"
  | .shpExp .. => "SHP_EXP"
  | .shpShape .. => "SHP_SHAPE"
  | .shpRdx .. => "SHP_RDX"
  | .shpWrx .. => "SHP_WRX"
  | .vf32Add .. => "VF32_ADD"
  | .vf32Sub .. => "VF32_SUB"
  | .vf32Mul .. => "VF32_MUL"
  | .vf32Fma .. => "VF32_FMA"
  | .vf32Fms .. => "VF32_FMS"
  | .vf32Min .. => "VF32_MIN"
  | .vf32Max .. => "VF32_MAX"
  | .vf32Abs .. => "VF32_ABS"
  | .vf32Neg .. => "VF32_NEG"
  | .vf32Cpsgn .. => "VF32_CPSGN"
  | .vf32Rint .. => "VF32_RINT"
  | .vf16Add .. => "VF16_ADD"
  | .vf16Sub .. => "VF16_SUB"
  | .vf16Mul .. => "VF16_MUL"
  | .vf16Fma .. => "VF16_FMA"
  | .vf16Min .. => "VF16_MIN"
  | .vf16Max .. => "VF16_MAX"
  | .vf16Neg .. => "VF16_NEG"
  | .vf16Abs .. => "VF16_ABS"
  | .vf16Badd .. => "VF16_BADD"
  | .vf16Bsub .. => "VF16_BSUB"
  | .vf16Bmul .. => "VF16_BMUL"
  | .vf16Bfma .. => "VF16_BFMA"
  | .vf16Bmin .. => "VF16_BMIN"
  | .vf16Bmax .. => "VF16_BMAX"
  | .vf16Bneg .. => "VF16_BNEG"
  | .vf16Babs .. => "VF16_BABS"
  | .vfxDiv .. => "VFX_DIV"
  | .vfxSqrt .. => "VFX_SQRT"
  | .vfxRcp .. => "VFX_RCP"
  | .vfxRsq .. => "VFX_RSQ"
  | .vfxExp2 .. => "VFX_EXP2"
  | .vfxLog2 .. => "VFX_LOG2"
  | .vfxSinpi .. => "VFX_SINPI"
  | .vfxCospi .. => "VFX_COSPI"
  | .vcvF32i .. => "VCV_F32I"
  | .vcvF32n .. => "VCV_F32N"
  | .vcvI32f .. => "VCV_I32F"
  | .vcvN32f .. => "VCV_N32F"
  | .vcvPkh .. => "VCV_PKH"
  | .vcvPkb .. => "VCV_PKB"
  | .vcvUhl .. => "VCV_UHL"
  | .vcvUhh .. => "VCV_UHH"
  | .vcvUbl .. => "VCV_UBL"
  | .vcvUbh .. => "VCV_UBH"
  | .vcvIe4 .. => "VCV_IE4"
  | .vcvIe5 .. => "VCV_IE5"
  | .vcvXe4 .. => "VCV_XE4"
  | .vcvXe5 .. => "VCV_XE5"
  | .vfcEq .. => "VFC_EQ"
  | .vfcNe .. => "VFC_NE"
  | .vfcLt .. => "VFC_LT"
  | .vfcLe .. => "VFC_LE"
  | .vfcUn .. => "VFC_UN"
  | .vfcClass .. => "VFC_CLASS"
  | .vqQ16 .. => "VQ_Q16"
  | .vqQ32 .. => "VQ_Q32"
  | .vqPk4 .. => "VQ_PK4"
  | .vqDq4 .. => "VQ_DQ4"
  | .vqQe16 .. => "VQ_QE16"
  | .vqQe32 .. => "VQ_QE32"
  | .vqPk8 .. => "VQ_PK8"
  | .vqDq8 .. => "VQ_DQ8"
  | .ld .. => "LD"
  | .ldImm .. => "LD_IMM"
  | .st .. => "ST"
  | .stImm .. => "ST_IMM"
  | .ldu .. => "LDU"
  | .lduImm .. => "LDU_IMM"
  | .stu .. => "STU"
  | .stuImm .. => "STU_IMM"
  | .atmAdd .. => "ATM_ADD"
  | .atmMin .. => "ATM_MIN"
  | .atmMax .. => "ATM_MAX"
  | .atmAnd .. => "ATM_AND"
  | .atmOr .. => "ATM_OR"
  | .atmXor .. => "ATM_XOR"
  | .atmExch .. => "ATM_EXCH"
  | .atmCas .. => "ATM_CAS"
  | .fenceRel .. => "FENCE_REL"
  | .fenceAcq .. => "FENCE_ACQ"
  | .fenceFull .. => "FENCE_FULL"
  | .fenceOprRel .. => "FENCE_OPR_REL"
  | .fenceOprAcq .. => "FENCE_OPR_ACQ"
  | .lds .. => "LDS"
  | .sts .. => "STS"
  | .stagLook .. => "STAG_LOOK"
  | .stagSet .. => "STAG_SET"
  | .stagInv .. => "STAG_INV"
  | .stagClr .. => "STAG_CLR"
  | .cbRes .. => "CB_RES"
  | .cbCom .. => "CB_COM"
  | .cbWait .. => "CB_WAIT"
  | .cbPop .. => "CB_POP"
  | .cbSa .. => "CB_SA"
  | .cpG2s .. => "CP_G2S"
  | .cpS2g .. => "CP_S2G"
  | .cpS2s .. => "CP_S2S"
  | .cpGat .. => "CP_GAT"
  | .cpT2h .. => "CP_T2H"
  | .wta .. => "WTA"
  | .tcfgSet .. => "TCFG_SET"
  | .tcfgRows .. => "TCFG_ROWS"
  | .tcfgCols .. => "TCFG_COLS"
  | .tcfgKext .. => "TCFG_KEXT"
  | .tcfgStg .. => "TCFG_STG"
  | .tcfgFl .. => "TCFG_FL"
  | .tld .. => "TLD"
  | .tldImm .. => "TLD_IMM"
  | .tst .. => "TST"
  | .tstImm .. => "TST_IMM"
  | .mmaAcc .. => "MMA_ACC"
  | .mmaSet .. => "MMA_SET"
  | .mxHad .. => "MX_HAD"
  | .mxPerm .. => "MX_PERM"
  | .accZero .. => "ACC_ZERO"
  | .accRd .. => "ACC_RD"
  | .accWr .. => "ACC_WR"
  | .accWid .. => "ACC_WID"
  | .accNar .. => "ACC_NAR"
  | .accQ2 .. => "ACC_Q2"
  | .accQe .. => "ACC_QE"
  | .lnchRec .. => "LNCH_REC"
  | .lnchTrig .. => "LNCH_TRIG"
  | .lnchCncl .. => "LNCH_CNCL"
  | .pwrReq .. => "PWR_REQ"
  | .pwrCls .. => "PWR_CLS"
  | .pwrPool .. => "PWR_POOL"
  | .tmWtill .. => "TM_WTILL"
  | .tmWrel .. => "TM_WREL"
  | .tmRd .. => "TM_RD"
  | .dbgBrk .. => "DBG_BRK"
  | .dbgProg .. => "DBG_PROG"
  | .sysRdid .. => "SYS_RDID"
  | .sysTret .. => "SYS_TRET"
  | .sysCinv .. => "SYS_CINV"
  | .sysTvt .. => "SYS_TVT"

/-- The head of a short-format word; long-format words are unguarded (R197); an event has none. -/
def Instr.head : Instr → Head
  | .nop h => h
  | .ctlExit h => h
  | .ctlJr h _ => h
  | .ctlPc h _ => h
  | .wait h _ _ _ _ => h
  | .brLane h _ => h
  | .brAll h _ => h
  | .brAny h _ => h
  | .jmp c _ => ⟨c, none⟩
  | .call h _ _ _ _ => h
  | .callp c _ _ _ _ => ⟨c, none⟩
  | .retPop h _ => h
  | .retUnwind h _ _ => h
  | .retUnwindr h _ _ => h
  | .barTeam h => h
  | .barTwin h => h
  | .barNwait h _ _ => h
  | .barNarrive h _ _ => h
  | .barGrid h => h
  | .voteBallot h _ _ => h
  | .voteAny h _ _ => h
  | .voteAll h _ _ => h
  | .votePopc h _ _ => h
  | .voteFirst h _ _ => h
  | .votePeers h _ _ => h
  | .voteRank h _ _ => h
  | .voteAct h _ => h
  | .grpSort h _ _ => h
  | .viAdd h _ _ _ => h
  | .viSub h _ _ _ => h
  | .viMul h _ _ _ => h
  | .viMulhs h _ _ _ => h
  | .viMulhu h _ _ _ => h
  | .viAnd h _ _ _ => h
  | .viOr h _ _ _ => h
  | .viXor h _ _ _ => h
  | .viShl h _ _ _ => h
  | .viShr h _ _ _ => h
  | .viSra h _ _ _ => h
  | .viMin h _ _ _ => h
  | .viMax h _ _ _ => h
  | .viMinu h _ _ _ => h
  | .viMaxu h _ _ _ => h
  | .viAndn h _ _ _ => h
  | .siAdd h _ _ _ => h
  | .siSub h _ _ _ => h
  | .siMul h _ _ _ => h
  | .siMulhs h _ _ _ => h
  | .siMulhu h _ _ _ => h
  | .siAnd h _ _ _ => h
  | .siOr h _ _ _ => h
  | .siXor h _ _ _ => h
  | .siShl h _ _ _ => h
  | .siShr h _ _ _ => h
  | .siSra h _ _ _ => h
  | .siMin h _ _ _ => h
  | .siMax h _ _ _ => h
  | .siMinu h _ _ _ => h
  | .siMaxu h _ _ _ => h
  | .siAndn h _ _ _ => h
  | .viiAdd h _ _ _ => h
  | .viiMul h _ _ _ => h
  | .viiAnd h _ _ _ => h
  | .viiOr h _ _ _ => h
  | .viiXor h _ _ _ => h
  | .viiShl h _ _ _ => h
  | .viiShr h _ _ _ => h
  | .viiSra h _ _ _ => h
  | .siiAdd h _ _ _ => h
  | .siiMul h _ _ _ => h
  | .siiAnd h _ _ _ => h
  | .siiOr h _ _ _ => h
  | .siiXor h _ _ _ => h
  | .siiShl h _ _ _ => h
  | .siiShr h _ _ _ => h
  | .siiSra h _ _ _ => h
  | .vmNeg h _ _ => h
  | .vmAbs h _ _ => h
  | .vmAdds h _ _ _ => h
  | .vmAddu h _ _ _ => h
  | .vmSubs h _ _ _ => h
  | .vmSubu h _ _ _ => h
  | .vmMov h _ _ => h
  | .vmClz h _ _ => h
  | .vmPopc h _ _ => h
  | .vmBrev h _ _ => h
  | .vmSext8 h _ _ => h
  | .vmSext16 h _ _ => h
  | .vmSati8 h _ _ => h
  | .vmSati16 h _ _ => h
  | .vmSatn8 h _ _ => h
  | .vmSatn16 h _ _ => h
  | .vcEq h _ _ _ => h
  | .vcNe h _ _ _ => h
  | .vcLt h _ _ _ => h
  | .vcLe h _ _ _ => h
  | .vcLtu h _ _ _ => h
  | .vcLeu h _ _ _ => h
  | .scEq h _ _ _ => h
  | .scNe h _ _ _ => h
  | .scLt h _ _ _ => h
  | .scLe h _ _ _ => h
  | .scLtu h _ _ _ => h
  | .scLeu h _ _ _ => h
  | .scBlen h _ _ => h
  | .scSeq h _ _ _ => h
  | .scSne h _ _ _ => h
  | .scSlt h _ _ _ => h
  | .scSle h _ _ _ => h
  | .scSltu h _ _ _ => h
  | .scSleu h _ _ _ => h
  | .vpSel h _ _ _ => h
  | .vpAnd h _ _ _ => h
  | .vpOr h _ _ _ => h
  | .vpXor h _ _ _ => h
  | .vpAndn h _ _ _ => h
  | .vpNot h _ _ => h
  | .vpGet h _ _ => h
  | .vpSet h _ _ => h
  | .vpMvu h _ _ => h
  | .vxIdx h _ _ _ => h
  | .vxUp h _ _ _ => h
  | .vxDown h _ _ _ => h
  | .vxXor h _ _ _ => h
  | .vxBcast h _ _ _ => h
  | .sliLo c _ _ => ⟨c, none⟩
  | .sliHi c _ _ => ⟨c, none⟩
  | .sliSx c _ _ => ⟨c, none⟩
  | .sliVsx c _ _ => ⟨c, none⟩
  | .srRdv h _ _ => h
  | .srRds h _ _ => h
  | .srWrs h _ _ => h
  | .srRdp h _ _ => h
  | .adAdd h _ _ _ => h
  | .adSub h _ _ _ => h
  | .adAddx h _ _ _ => h
  | .adAddz h _ _ _ => h
  | .adShl h _ _ _ => h
  | .adShr h _ _ _ => h
  | .adMulw h _ _ _ => h
  | .adMov h _ _ => h
  | .adAnd h _ _ _ => h
  | .adMul h _ _ _ => h
  | .adEq h _ _ _ => h
  | .adLtu h _ _ _ => h
  | .adLt h _ _ _ => h
  | .shpSq h _ => h
  | .shpExp h _ => h
  | .shpShape h _ _ => h
  | .shpRdx h _ _ => h
  | .shpWrx h _ _ => h
  | .vf32Add h _ _ _ => h
  | .vf32Sub h _ _ _ => h
  | .vf32Mul h _ _ _ => h
  | .vf32Fma h _ _ _ => h
  | .vf32Fms h _ _ _ => h
  | .vf32Min h _ _ _ => h
  | .vf32Max h _ _ _ => h
  | .vf32Abs h _ _ => h
  | .vf32Neg h _ _ => h
  | .vf32Cpsgn h _ _ _ => h
  | .vf32Rint h _ _ => h
  | .vf16Add h _ _ _ => h
  | .vf16Sub h _ _ _ => h
  | .vf16Mul h _ _ _ => h
  | .vf16Fma h _ _ _ => h
  | .vf16Min h _ _ _ => h
  | .vf16Max h _ _ _ => h
  | .vf16Neg h _ _ => h
  | .vf16Abs h _ _ => h
  | .vf16Badd h _ _ _ => h
  | .vf16Bsub h _ _ _ => h
  | .vf16Bmul h _ _ _ => h
  | .vf16Bfma h _ _ _ => h
  | .vf16Bmin h _ _ _ => h
  | .vf16Bmax h _ _ _ => h
  | .vf16Bneg h _ _ => h
  | .vf16Babs h _ _ => h
  | .vfxDiv h _ _ _ => h
  | .vfxSqrt h _ _ => h
  | .vfxRcp h _ _ => h
  | .vfxRsq h _ _ => h
  | .vfxExp2 h _ _ => h
  | .vfxLog2 h _ _ => h
  | .vfxSinpi h _ _ => h
  | .vfxCospi h _ _ => h
  | .vcvF32i h _ _ => h
  | .vcvF32n h _ _ => h
  | .vcvI32f h _ _ => h
  | .vcvN32f h _ _ => h
  | .vcvPkh h _ _ _ => h
  | .vcvPkb h _ _ _ => h
  | .vcvUhl h _ _ => h
  | .vcvUhh h _ _ => h
  | .vcvUbl h _ _ => h
  | .vcvUbh h _ _ => h
  | .vcvIe4 h _ _ _ => h
  | .vcvIe5 h _ _ _ => h
  | .vcvXe4 h _ _ _ => h
  | .vcvXe5 h _ _ _ => h
  | .vfcEq h _ _ _ => h
  | .vfcNe h _ _ _ => h
  | .vfcLt h _ _ _ => h
  | .vfcLe h _ _ _ => h
  | .vfcUn h _ _ _ => h
  | .vfcClass h _ _ => h
  | .vqQ16 h _ _ _ => h
  | .vqQ32 h _ _ _ => h
  | .vqPk4 h _ _ => h
  | .vqDq4 h _ _ _ => h
  | .vqQe16 h _ _ _ => h
  | .vqQe32 h _ _ _ => h
  | .vqPk8 h _ _ => h
  | .vqDq8 h _ _ _ => h
  | .ld h _ _ _ _ _ => h
  | .ldImm h _ _ _ _ _ => h
  | .st h _ _ _ _ _ => h
  | .stImm h _ _ _ _ _ => h
  | .ldu h _ _ _ _ _ => h
  | .lduImm h _ _ _ _ _ => h
  | .stu h _ _ _ _ _ => h
  | .stuImm h _ _ _ _ _ => h
  | .atmAdd c _ _ _ _ => ⟨c, none⟩
  | .atmMin c _ _ _ _ => ⟨c, none⟩
  | .atmMax c _ _ _ _ => ⟨c, none⟩
  | .atmAnd c _ _ _ _ => ⟨c, none⟩
  | .atmOr c _ _ _ _ => ⟨c, none⟩
  | .atmXor c _ _ _ _ => ⟨c, none⟩
  | .atmExch c _ _ _ _ => ⟨c, none⟩
  | .atmCas c _ _ _ _ => ⟨c, none⟩
  | .fenceRel h _ => h
  | .fenceAcq h _ => h
  | .fenceFull h _ => h
  | .fenceOprRel h => h
  | .fenceOprAcq h => h
  | .lds h _ _ _ _ => h
  | .sts h _ _ _ _ => h
  | .stagLook h _ _ => h
  | .stagSet h _ _ _ => h
  | .stagInv h _ => h
  | .stagClr h => h
  | .cbRes h _ _ => h
  | .cbCom h _ _ => h
  | .cbWait h _ _ => h
  | .cbPop h _ => h
  | .cbSa h _ _ _ => h
  | .cpG2s h _ _ _ => h
  | .cpS2g h _ _ _ => h
  | .cpS2s h _ _ _ => h
  | .cpGat h _ _ _ => h
  | .cpT2h h _ _ _ => h
  | .wta h _ _ _ _ _ _ => h
  | .tcfgSet h _ _ => h
  | .tcfgRows h _ _ => h
  | .tcfgCols h _ _ => h
  | .tcfgKext h _ _ => h
  | .tcfgStg h _ _ => h
  | .tcfgFl h _ _ => h
  | .tld h _ _ _ _ _ => h
  | .tldImm h _ _ _ _ _ => h
  | .tst h _ _ _ _ _ => h
  | .tstImm h _ _ _ _ _ => h
  | .mmaAcc h _ _ _ _ => h
  | .mmaSet h _ _ _ _ => h
  | .mxHad h _ _ _ => h
  | .mxPerm h _ _ _ => h
  | .accZero h _ => h
  | .accRd h _ _ _ => h
  | .accWr h _ _ _ => h
  | .accWid h _ _ _ => h
  | .accNar h _ _ _ => h
  | .accQ2 h _ _ _ => h
  | .accQe h _ _ _ => h
  | .lnchRec h _ _ => h
  | .lnchTrig h _ => h
  | .lnchCncl h _ => h
  | .pwrReq h _ => h
  | .pwrCls h _ => h
  | .pwrPool h _ => h
  | .tmWtill h _ => h
  | .tmWrel h _ => h
  | .tmRd h _ => h
  | .dbgBrk h => h
  | .dbgProg h _ _ => h
  | .sysRdid h _ _ => h
  | .sysTret h => h
  | .sysCinv h => h
  | .sysTvt h _ => h
  | _ => Head.plain

/-- The static pipe class of a word (R209); events have none. -/
def Instr.pipe : Instr → Option Pipe
  | .nop .. => some .C
  | .ctlExit .. => some .C
  | .ctlJr .. => some .C
  | .ctlPc .. => some .C
  | .wait .. => some .C
  | .brLane .. => some .C
  | .brAll .. => some .C
  | .brAny .. => some .C
  | .jmp .. => some .C
  | .call .. => some .C
  | .callp .. => some .C
  | .retPop .. => some .C
  | .retUnwind .. => some .C
  | .retUnwindr .. => some .C
  | .barTeam .. => some .C
  | .barTwin .. => some .C
  | .barNwait .. => some .C
  | .barNarrive .. => some .C
  | .barGrid .. => some .C
  | .voteBallot .. => some .C
  | .voteAny .. => some .C
  | .voteAll .. => some .C
  | .votePopc .. => some .C
  | .voteFirst .. => some .C
  | .votePeers .. => some .C
  | .voteRank .. => some .C
  | .voteAct .. => some .C
  | .grpSort .. => some .C
  | .viAdd .. => some .V
  | .viSub .. => some .V
  | .viMul .. => some .V
  | .viMulhs .. => some .V
  | .viMulhu .. => some .V
  | .viAnd .. => some .V
  | .viOr .. => some .V
  | .viXor .. => some .V
  | .viShl .. => some .V
  | .viShr .. => some .V
  | .viSra .. => some .V
  | .viMin .. => some .V
  | .viMax .. => some .V
  | .viMinu .. => some .V
  | .viMaxu .. => some .V
  | .viAndn .. => some .V
  | .siAdd .. => some .S
  | .siSub .. => some .S
  | .siMul .. => some .S
  | .siMulhs .. => some .S
  | .siMulhu .. => some .S
  | .siAnd .. => some .S
  | .siOr .. => some .S
  | .siXor .. => some .S
  | .siShl .. => some .S
  | .siShr .. => some .S
  | .siSra .. => some .S
  | .siMin .. => some .S
  | .siMax .. => some .S
  | .siMinu .. => some .S
  | .siMaxu .. => some .S
  | .siAndn .. => some .S
  | .viiAdd .. => some .V
  | .viiMul .. => some .V
  | .viiAnd .. => some .V
  | .viiOr .. => some .V
  | .viiXor .. => some .V
  | .viiShl .. => some .V
  | .viiShr .. => some .V
  | .viiSra .. => some .V
  | .siiAdd .. => some .S
  | .siiMul .. => some .S
  | .siiAnd .. => some .S
  | .siiOr .. => some .S
  | .siiXor .. => some .S
  | .siiShl .. => some .S
  | .siiShr .. => some .S
  | .siiSra .. => some .S
  | .vmNeg .. => some .V
  | .vmAbs .. => some .V
  | .vmAdds .. => some .V
  | .vmAddu .. => some .V
  | .vmSubs .. => some .V
  | .vmSubu .. => some .V
  | .vmMov .. => some .V
  | .vmClz .. => some .V
  | .vmPopc .. => some .V
  | .vmBrev .. => some .V
  | .vmSext8 .. => some .V
  | .vmSext16 .. => some .V
  | .vmSati8 .. => some .V
  | .vmSati16 .. => some .V
  | .vmSatn8 .. => some .V
  | .vmSatn16 .. => some .V
  | .vcEq .. => some .V
  | .vcNe .. => some .V
  | .vcLt .. => some .V
  | .vcLe .. => some .V
  | .vcLtu .. => some .V
  | .vcLeu .. => some .V
  | .scEq .. => some .S
  | .scNe .. => some .S
  | .scLt .. => some .S
  | .scLe .. => some .S
  | .scLtu .. => some .S
  | .scLeu .. => some .S
  | .scBlen .. => some .S
  | .scSeq .. => some .S
  | .scSne .. => some .S
  | .scSlt .. => some .S
  | .scSle .. => some .S
  | .scSltu .. => some .S
  | .scSleu .. => some .S
  | .vpSel .. => some .V
  | .vpAnd .. => some .V
  | .vpOr .. => some .V
  | .vpXor .. => some .V
  | .vpAndn .. => some .V
  | .vpNot .. => some .V
  | .vpGet .. => some .V
  | .vpSet .. => some .V
  | .vpMvu .. => some .V
  | .vxIdx .. => some .X
  | .vxUp .. => some .X
  | .vxDown .. => some .X
  | .vxXor .. => some .X
  | .vxBcast .. => some .X
  | .sliLo .. => some .S
  | .sliHi .. => some .S
  | .sliSx .. => some .S
  | .sliVsx .. => some .S
  | .srRdv .. => some .S
  | .srRds .. => some .S
  | .srWrs .. => some .S
  | .srRdp .. => some .S
  | .adAdd .. => some .S
  | .adSub .. => some .S
  | .adAddx .. => some .S
  | .adAddz .. => some .S
  | .adShl .. => some .S
  | .adShr .. => some .S
  | .adMulw .. => some .S
  | .adMov .. => some .S
  | .adAnd .. => some .S
  | .adMul .. => some .S
  | .adEq .. => some .S
  | .adLtu .. => some .S
  | .adLt .. => some .S
  | .shpSq .. => some .V
  | .shpExp .. => some .V
  | .shpShape .. => some .V
  | .shpRdx .. => some .V
  | .shpWrx .. => some .V
  | .vf32Add .. => some .V
  | .vf32Sub .. => some .V
  | .vf32Mul .. => some .V
  | .vf32Fma .. => some .V
  | .vf32Fms .. => some .V
  | .vf32Min .. => some .V
  | .vf32Max .. => some .V
  | .vf32Abs .. => some .V
  | .vf32Neg .. => some .V
  | .vf32Cpsgn .. => some .V
  | .vf32Rint .. => some .V
  | .vf16Add .. => some .V
  | .vf16Sub .. => some .V
  | .vf16Mul .. => some .V
  | .vf16Fma .. => some .V
  | .vf16Min .. => some .V
  | .vf16Max .. => some .V
  | .vf16Neg .. => some .V
  | .vf16Abs .. => some .V
  | .vf16Badd .. => some .V
  | .vf16Bsub .. => some .V
  | .vf16Bmul .. => some .V
  | .vf16Bfma .. => some .V
  | .vf16Bmin .. => some .V
  | .vf16Bmax .. => some .V
  | .vf16Bneg .. => some .V
  | .vf16Babs .. => some .V
  | .vfxDiv .. => some .X
  | .vfxSqrt .. => some .X
  | .vfxRcp .. => some .X
  | .vfxRsq .. => some .X
  | .vfxExp2 .. => some .X
  | .vfxLog2 .. => some .X
  | .vfxSinpi .. => some .X
  | .vfxCospi .. => some .X
  | .vcvF32i .. => some .X
  | .vcvF32n .. => some .X
  | .vcvI32f .. => some .X
  | .vcvN32f .. => some .X
  | .vcvPkh .. => some .X
  | .vcvPkb .. => some .X
  | .vcvUhl .. => some .X
  | .vcvUhh .. => some .X
  | .vcvUbl .. => some .X
  | .vcvUbh .. => some .X
  | .vcvIe4 .. => some .X
  | .vcvIe5 .. => some .X
  | .vcvXe4 .. => some .X
  | .vcvXe5 .. => some .X
  | .vfcEq .. => some .V
  | .vfcNe .. => some .V
  | .vfcLt .. => some .V
  | .vfcLe .. => some .V
  | .vfcUn .. => some .V
  | .vfcClass .. => some .V
  | .vqQ16 .. => some .X
  | .vqQ32 .. => some .X
  | .vqPk4 .. => some .X
  | .vqDq4 .. => some .X
  | .vqQe16 .. => some .X
  | .vqQe32 .. => some .X
  | .vqPk8 .. => some .X
  | .vqDq8 .. => some .X
  | .ld .. => some .M
  | .ldImm .. => some .M
  | .st .. => some .M
  | .stImm .. => some .M
  | .ldu .. => some .M
  | .lduImm .. => some .M
  | .stu .. => some .M
  | .stuImm .. => some .M
  | .atmAdd .. => some .M
  | .atmMin .. => some .M
  | .atmMax .. => some .M
  | .atmAnd .. => some .M
  | .atmOr .. => some .M
  | .atmXor .. => some .M
  | .atmExch .. => some .M
  | .atmCas .. => some .M
  | .fenceRel .. => some .M
  | .fenceAcq .. => some .M
  | .fenceFull .. => some .M
  | .fenceOprRel .. => some .M
  | .fenceOprAcq .. => some .M
  | .lds .. => some .M
  | .sts .. => some .M
  | .stagLook .. => some .M
  | .stagSet .. => some .M
  | .stagInv .. => some .M
  | .stagClr .. => some .M
  | .cbRes .. => some .M
  | .cbCom .. => some .M
  | .cbWait .. => some .M
  | .cbPop .. => some .M
  | .cbSa .. => some .M
  | .cpG2s .. => some .M
  | .cpS2g .. => some .M
  | .cpS2s .. => some .M
  | .cpGat .. => some .M
  | .cpT2h .. => some .M
  | .wta .. => some .M
  | .tcfgSet .. => some .T
  | .tcfgRows .. => some .T
  | .tcfgCols .. => some .T
  | .tcfgKext .. => some .T
  | .tcfgStg .. => some .T
  | .tcfgFl .. => some .T
  | .tld .. => some .T
  | .tldImm .. => some .T
  | .tst .. => some .T
  | .tstImm .. => some .T
  | .mmaAcc .. => some .T
  | .mmaSet .. => some .T
  | .mxHad .. => some .T
  | .mxPerm .. => some .T
  | .accZero .. => some .T
  | .accRd .. => some .T
  | .accWr .. => some .T
  | .accWid .. => some .T
  | .accNar .. => some .T
  | .accQ2 .. => some .T
  | .accQe .. => some .T
  | .lnchRec .. => some .C
  | .lnchTrig .. => some .C
  | .lnchCncl .. => some .C
  | .pwrReq .. => some .C
  | .pwrCls .. => some .C
  | .pwrPool .. => some .C
  | .tmWtill .. => some .C
  | .tmWrel .. => some .C
  | .tmRd .. => some .C
  | .dbgBrk .. => some .C
  | .dbgProg .. => some .C
  | .sysRdid .. => some .C
  | .sysTret .. => some .C
  | .sysCinv .. => some .C
  | .sysTvt .. => some .C
  | _ => none

/-- Whether the constructor is an instruction word (it has an encoding), and not an event. -/
def Instr.isWord (i : Instr) : Bool := i.pipe.isSome

end Sys2Proof
end

