-- ==== Sys2Proof/WellFormed.lean ====
section
/-! DEFINITION. Sys2Proof/WellFormed.lean: which instructions the spec lets a word hold: the register fields each word names (R204,
R358), and the values that raise illegal-word (R197, R202, R204, R210, R417). -/

namespace Sys2Proof

/-- The register classes of R204; a pair is of class `s`. -/
inductive RegClass where
  | v | s | p | t | a
  deriving DecidableEq, Repr

/-- A register field a word names: its class, its first register and how many follow, whether it must be even (a uniform pair), and
whether the word writes it. -/
structure Use where
  cls : RegClass
  reg : Nat
  count : Nat
  even : Bool
  write : Bool
  deriving DecidableEq, Repr

/-- A vector source block. -/
def Use.v (r : BitVec 5) (n : Nat) : Use := ⟨.v, r.toNat, n, false, false⟩
/-- A vector destination block. -/
def Use.vw (r : BitVec 5) (n : Nat) : Use := ⟨.v, r.toNat, n, false, true⟩
/-- A uniform source block. -/
def Use.s (r : BitVec 5) (n : Nat) : Use := ⟨.s, r.toNat, n, false, false⟩
/-- A uniform destination. -/
def Use.sw (r : BitVec 5) (n : Nat) : Use := ⟨.s, r.toNat, n, false, true⟩
/-- A uniform pair read. -/
def Use.pair (r : BitVec 5) : Use := ⟨.s, r.toNat, 2, true, false⟩
/-- A uniform pair written. -/
def Use.pairw (r : BitVec 5) : Use := ⟨.s, r.toNat, 2, true, true⟩
/-- The base pair s2j:s(2j+1) of MEM and MEMI (R203). -/
def Use.pairj (j : BitVec 4) : Use := ⟨.s, 2 * j.toNat, 2, true, false⟩
/-- A predicate read. -/
def Use.p (r : BitVec 5) : Use := ⟨.p, r.toNat, 1, false, false⟩
/-- A predicate written. -/
def Use.pw (r : BitVec 5) : Use := ⟨.p, r.toNat, 1, false, true⟩
/-- A tile read. -/
def Use.t (r : BitVec 5) : Use := ⟨.t, r.toNat, 1, false, false⟩
/-- A tile written. -/
def Use.tw (r : BitVec 5) : Use := ⟨.t, r.toNat, 1, false, true⟩
/-- The configuration tile of mma (R301). -/
def Use.t3 (k : BitVec 3) : Use := ⟨.t, k.toNat, 1, false, false⟩
/-- An accumulator read. -/
def Use.acc (r : BitVec 5) : Use := ⟨.a, r.toNat, 1, false, false⟩
/-- An accumulator written. -/
def Use.accw (r : BitVec 5) : Use := ⟨.a, r.toNat, 1, false, true⟩

/-- Registers of a 64-bit access, else one (R268). -/
def blk64 (z : BitVec 2) : Nat := if z = 3 then 2 else 1
/-- Registers of a wta word (R286). -/
def blk64w (z : BitVec 1) : Nat := if z = 1 then 2 else 1
/-- The data of ldu: a uniform register, an even pair for b64 (R267). -/
def Use.dataw (d : BitVec 5) (z : BitVec 2) : Use := if z = 3 then .pairw d else .sw d 1
/-- The data of stu. -/
def Use.data (d : BitVec 5) (z : BitVec 2) : Use := if z = 3 then .pair d else .s d 1
/-- The registers of one atomic operand by TY (R273). -/
def atmRegs (y : BitVec 3) : Nat :=
  match y.toNat with
  | 2 | 3 => 2 | 6 => 4 | 7 => 8 | _ => 1
/-- The scratch codes of an atomic's SC (R274). -/
def atmScratch (q : BitVec 4) : Bool := q = 6 || q = 14
/-- The registers of lds and sts by F (R277). -/
def ldsRegs (f : BitVec 3) : Nat :=
  match f.toNat with
  | 3 => 2 | 4 => 4 | _ => 1

/-- The register fields of a word, in the order D, A, B (R202, R204, R358). -/
def Instr.uses : Instr → List Use
  | .ctlJr _ a | .call _ a _ _ _ | .lnchTrig _ a | .tmWtill _ a | .sysTvt _ a => [.pair a]
  | .ctlPc _ d | .voteAct _ d | .srRdp _ d _ | .tmRd _ d => [.pairw d]
  | .retUnwindr _ a _ | .barNwait _ a _ | .barNarrive _ a _ | .cbCom _ a _ | .lnchCncl _ a | .tmWrel _ a => [.s a 1]
  | .voteBallot _ d a => [.pairw d, .p a]
  | .voteAny _ d a | .voteAll _ d a | .vpNot _ d a => [.pw d, .p a]
  | .votePopc _ d a | .voteFirst _ d a => [.sw d 1, .p a]
  | .votePeers _ d a | .voteRank _ d a | .viiAdd _ d a _ | .viiMul _ d a _ | .viiAnd _ d a _ | .viiOr _ d a _
  | .viiXor _ d a _ | .viiShl _ d a _ | .viiShr _ d a _ | .viiSra _ d a _ | .vmNeg _ d a | .vmAbs _ d a | .vmMov _ d a
  | .vmClz _ d a | .vmPopc _ d a | .vmBrev _ d a | .vmSext8 _ d a | .vmSext16 _ d a | .vmSati8 _ d a | .vmSati16 _ d a
  | .vmSatn8 _ d a | .vmSatn16 _ d a | .vf32Abs _ d a | .vf32Neg _ d a | .vf32Rint _ d a | .vf16Neg _ d a | .vf16Abs _ d a
  | .vf16Bneg _ d a | .vf16Babs _ d a | .vfxSqrt _ d a | .vfxRcp _ d a | .vfxRsq _ d a | .vfxExp2 _ d a | .vfxLog2 _ d a
  | .vfxSinpi _ d a | .vfxCospi _ d a | .vcvF32i _ d a | .vcvF32n _ d a | .vcvI32f _ d a | .vcvN32f _ d a | .vcvUhl _ d a
  | .vcvUhh _ d a | .vcvUbl _ d a | .vcvUbh _ d a | .vfcClass _ d a | .vqPk4 _ d a | .vqPk8 _ d a => [.vw d 1, .v a 1]
  | .grpSort _ d _ => [.v d 1]
  | .viAdd _ d a b | .viSub _ d a b | .viMul _ d a b | .viMulhs _ d a b | .viMulhu _ d a b | .viAnd _ d a b | .viOr _ d a b
  | .viXor _ d a b | .viShl _ d a b | .viShr _ d a b | .viSra _ d a b | .viMin _ d a b | .viMax _ d a b | .viMinu _ d a b
  | .viMaxu _ d a b | .viAndn _ d a b | .vmAdds _ d a b | .vmAddu _ d a b | .vmSubs _ d a b | .vmSubu _ d a b | .vxIdx _ d a b
  | .vf32Add _ d a b | .vf32Sub _ d a b | .vf32Mul _ d a b | .vf32Min _ d a b | .vf32Max _ d a b | .vf32Cpsgn _ d a b
  | .vf16Add _ d a b | .vf16Sub _ d a b | .vf16Mul _ d a b | .vf16Min _ d a b | .vf16Max _ d a b | .vf16Badd _ d a b
  | .vf16Bsub _ d a b | .vf16Bmul _ d a b | .vf16Bmin _ d a b | .vf16Bmax _ d a b | .vfxDiv _ d a b | .vcvPkh _ d a b
  | .vcvPkb _ d a b => [.vw d 1, .v a 1, .v b 1]
  | .siAdd _ d a b | .siSub _ d a b | .siMul _ d a b | .siMulhs _ d a b | .siMulhu _ d a b | .siAnd _ d a b | .siOr _ d a b
  | .siXor _ d a b | .siShl _ d a b | .siShr _ d a b | .siSra _ d a b | .siMin _ d a b | .siMax _ d a b | .siMinu _ d a b
  | .siMaxu _ d a b | .siAndn _ d a b | .scSeq _ d a b | .scSne _ d a b | .scSlt _ d a b | .scSle _ d a b | .scSltu _ d a b
  | .scSleu _ d a b => [.sw d 1, .s a 1, .s b 1]
  | .siiAdd _ d a _ | .siiMul _ d a _ | .siiAnd _ d a _ | .siiOr _ d a _ | .siiXor _ d a _ | .siiShl _ d a _ | .siiShr _ d a _
  | .siiSra _ d a _ | .scBlen _ d a | .cbSa _ d a _ => [.sw d 1, .s a 1]
  | .vcEq _ d a b | .vcNe _ d a b | .vcLt _ d a b | .vcLe _ d a b | .vcLtu _ d a b | .vcLeu _ d a b | .vfcEq _ d a b
  | .vfcNe _ d a b | .vfcLt _ d a b | .vfcLe _ d a b | .vfcUn _ d a b => [.pw d, .v a 1, .v b 1]
  | .scEq _ d a b | .scNe _ d a b | .scLt _ d a b | .scLe _ d a b | .scLtu _ d a b | .scLeu _ d a b => [.pw d, .s a 1, .s b 1]
  | .vpSel _ d a b => [.vw d 1, .v a 1, .p b, .v d 1]
  | .vpAnd _ d a b | .vpOr _ d a b | .vpXor _ d a b | .vpAndn _ d a b => [.pw d, .p a, .p b]
  | .vpGet _ d a => [.vw d 1, .p a]
  | .vpSet _ d a => [.pw d, .v a 1]
  | .vpMvu _ d a | .shpRdx _ d a => [.vw d 1, .s a 1]
  | .vxUp _ d a b | .vxDown _ d a b | .vxXor _ d a b | .vxBcast _ d a b | .vcvXe4 _ d a b | .vcvXe5 _ d a b | .vqQ16 _ d a b
  | .vqQ32 _ d a b | .vqDq4 _ d a b | .vqQe16 _ d a b | .vqQe32 _ d a b | .vqDq8 _ d a b => [.vw d 1, .v a 1, .s b 1]
  | .sliLo _ d _ | .sliSx _ d _ | .srRds _ d _ | .cbRes _ d _ | .cbWait _ d _ | .pwrCls _ d | .pwrPool _ d => [.sw d 1]
  | .sliHi _ d _ => [.sw d 1, .s d 1]
  | .sliVsx _ d _ | .srRdv _ d _ | .shpSq _ d | .shpExp _ d => [.vw d 1]
  | .srWrs _ d _ | .stagInv _ d | .pwrReq _ d | .dbgProg _ d _ => [.s d 1]
  | .adAdd _ d a b | .adSub _ d a b | .adAnd _ d a b | .adMul _ d a b => [.pairw d, .pair a, .pair b]
  | .adAddx _ d a b | .adAddz _ d a b | .adShl _ d a b | .adShr _ d a b => [.pairw d, .pair a, .s b 1]
  | .adMulw _ d a b => [.pairw d, .s a 1, .s b 1]
  | .adMov _ d a => [.pairw d, .pair a]
  | .adEq _ d a b | .adLtu _ d a b | .adLt _ d a b => [.pw d, .pair a, .pair b]
  | .shpShape _ d a => [.sw d 1, .v a 1]
  | .shpWrx _ d a => [.s d 1, .v a 1]
  | .vf32Fma _ d a b | .vf32Fms _ d a b | .vf16Fma _ d a b | .vf16Bfma _ d a b => [.vw d 1, .v a 1, .v b 1, .v d 1]
  | .vcvIe4 _ d a b | .vcvIe5 _ d a b => [.vw d 1, .v a 1, .s b 1, .v d 1]
  | .ld _ d a o z _ => [.vw d (blk64 z), .pairj a, .v o 1]
  | .ldImm _ d a _ z _ => [.vw d (blk64 z), .pairj a]
  | .st _ d a o z _ => [.v d (blk64 z), .pairj a, .v o 1]
  | .stImm _ d a _ z _ => [.v d (blk64 z), .pairj a]
  | .ldu _ d a o z _ => [Use.dataw d z, .pairj a, .s o 1]
  | .lduImm _ d a _ z _ => [Use.dataw d z, .pairj a]
  | .stu _ d a o z _ => [Use.data d z, .pairj a, .s o 1]
  | .stuImm _ d a _ z _ => [Use.data d z, .pairj a]
  | .atmAdd _ d a y q | .atmMin _ d a y q | .atmMax _ d a y q | .atmAnd _ d a y q | .atmOr _ d a y q | .atmXor _ d a y q
  | .atmExch _ d a y q => [.vw d (atmRegs y), .v a (if atmScratch q then 1 else 2), .v d (atmRegs y)]
  | .atmCas _ d a y q => [.vw d (atmRegs y), .v a (if atmScratch q then 1 else 2), .v d (2 * atmRegs y)]
  | .lds _ d a f _ => [.vw d (ldsRegs f), .v a 1]
  | .sts _ d a f _ => [.v d (ldsRegs f), .v a 1]
  | .stagLook _ d a => [.vw d 1, .v a 2]
  | .stagSet _ d a b => [.s d 1, .pair a, .s b 1]
  | .cpG2s _ d a b | .cpS2g _ d a b | .cpS2s _ d a b | .cpT2h _ d a b => [.pair d, .pair a, .s b 1]
  | .cpGat _ d a b => [.pair d, .pair a, .s b 4]
  | .wta _ d a b _ z w => [.vw d (blk64w z), .v a (if w = 0 then 1 else 2), .v b (blk64w z + 1)]
  | .tcfgSet _ d a => [.tw d, .pair a]
  | .tcfgRows _ d a | .tcfgCols _ d a | .tcfgKext _ d a | .tcfgStg _ d a | .tcfgFl _ d a => [.tw d, .s a 1]
  | .tld _ d a o _ _ => [.tw d, .pairj a, .s o 1]
  | .tldImm _ d a _ _ _ => [.tw d, .pairj a]
  | .tst _ d a o _ _ => [.t d, .pairj a, .s o 1]
  | .tstImm _ d a _ _ _ => [.t d, .pairj a]
  | .mmaAcc _ d a b k | .mmaSet _ d a b k => [.accw d, .t a, .t b, .t3 k]
  | .mxHad _ d a b => [.accw d, .acc a, .s b 1]
  | .mxPerm _ d a b => [.accw d, .acc a, .t b]
  | .accZero _ d => [.accw d]
  | .accRd _ d a b => [.vw d 1, .acc a, .v b 1]
  | .accWr _ d a b => [.accw d, .v a 1, .v b 1]
  | .accWid _ d a b => [.accw d, .t a, .s b 1]
  | .accNar _ d a b => [.tw d, .acc a, .s b 1]
  | .accQ2 _ d a b | .accQe _ d a b => [.tw d, .acc a, .tw b]
  | .lnchRec _ d a => [.sw d 1, .pair a]
  | .sysRdid _ d a => [.pairw d, .s a 1]
  | _ => []

/-- Why a word is no instruction (R210, R417). -/
inductive Reject where
  | short (bytes : Nat)
  | reservedMajor (op : Nat)
  | guardOnLong
  | strayX
  | unassignedF (major : String) (f : Nat)
  | unnamedField (major : String)
  | oddPair (reg : Nat)
  | badPredicate (reg : Nat)
  | badTile (reg : Nat)
  | badAccumulator (reg : Nat)
  | blockOverflow (reg count : Nat)
  | badModifier (major : String) (code : Nat)
  | badImmediate (major : String) (value : Nat)
  | specialRegister (code : Nat)
  deriving DecidableEq, Repr

/-- The legal values of a register field (R204), and blocks that would pass v31 or s31 (R417). -/
def Use.reject (u : Use) : Option Reject :=
  if u.even && u.reg % 2 == 1 then some (.oddPair u.reg)
  else match u.cls with
    | .v | .s => if u.reg + u.count ≤ 32 then none else some (.blockOverflow u.reg u.count)
    | .p => if u.reg < 16 then none else some (.badPredicate u.reg)
    | .t => if u.reg < 8 then none else some (.badTile u.reg)
    | .a => if u.reg < 4 then none else some (.badAccumulator u.reg)

/-- The pairs of F and TY that R273 marks. -/
def atmAssigned (f : Nat) (y : Nat) : Bool :=
  if f = 0 then decide (y ≤ 5)
  else if f ≤ 2 then decide (y ≤ 3)
  else if f ≤ 6 then y == 1 || y == 3
  else y == 1 || y == 3 || y == 6 || y == 7

/-- The check of an atomic's modifiers (R273, R274). -/
def atmReject (f : Nat) (y : BitVec 3) (q : BitVec 4) : Option Reject :=
  if !atmAssigned f y.toNat then some (.badModifier "atm" y.toNat)
  else if q = 7 || q = 15 then some (.badModifier "atm" q.toNat)
  else none

/-- The check of a tile transfer's part and space (R296). -/
def tileReject (major : String) (z q : BitVec 2) : Option Reject :=
  if z = 3 then some (.badModifier major z.toNat)
  else if q.toNat ≥ 2 then some (.badModifier major q.toNat)
  else none

/-- The check of a count NB (R417). -/
def nbReject (i : BitVec 6) : Option Reject := if i.toNat ≤ 32 then none else some (.badImmediate "ret" i.toNat)

/-- The values of modifier and immediate fields that R417 names, form by form. -/
def Instr.modifierReject : Instr → Option Reject
  | .retPop _ i => nbReject i
  | .retUnwind _ _ i => nbReject i
  | .retUnwindr _ _ i => nbReject i
  | .srRdv _ _ i =>
    match SReg.ofCode i with
    | none => some (.specialRegister i.toNat)
    | some r => if r.wide then some (.specialRegister i.toNat) else none
  | .srRds _ _ i | .srRdp _ _ i => if (SReg.ofCode i).isSome then none else some (.specialRegister i.toNat)
  | .srWrs _ _ i =>
    match SReg.ofCode i with
    | none => some (.specialRegister i.toNat)
    | some r => if r.writable then none else some (.specialRegister i.toNat)
  | .fenceRel _ k | .fenceAcq _ k | .fenceFull _ k => if k = 7 then some (.badModifier "fence" 7) else none
  | .lds _ _ _ f _ => if f.toNat ≤ 4 then none else some (.unassignedF "lds" f.toNat)
  | .sts _ _ _ f _ => if f.toNat ≤ 4 then none else some (.unassignedF "sts" f.toNat)
  | .atmAdd _ _ _ y q => atmReject 0 y q
  | .atmMin _ _ _ y q => atmReject 1 y q
  | .atmMax _ _ _ y q => atmReject 2 y q
  | .atmAnd _ _ _ y q => atmReject 3 y q
  | .atmOr _ _ _ y q => atmReject 4 y q
  | .atmXor _ _ _ y q => atmReject 5 y q
  | .atmExch _ _ _ y q => atmReject 6 y q
  | .atmCas _ _ _ y q => atmReject 7 y q
  | .tld _ _ _ _ z q | .tldImm _ _ _ _ z q => tileReject "tld" z q
  | .tst _ _ _ _ z q | .tstImm _ _ _ _ z q => tileReject "tst" z q
  | _ => none

/-- The first reason for which the fields of an instruction word make it illegal, if any. -/
def Instr.reject (i : Instr) : Option Reject :=
  match i.uses.findSome? Use.reject with
  | some r => some r
  | none => i.modifierReject

/-- Well-formed instruction words: those a word may hold without raising illegal-word by a field (R210). -/
def Instr.WellFormed (i : Instr) : Prop := i.isWord = true ∧ i.reject = none

/-- The check of well-formedness. -/
def Instr.wellFormed (i : Instr) : Bool := i.isWord && i.reject.isNone

end Sys2Proof
end

