-- ==== Sys2Proof/Decode.lean ====
section
/-! DEFINITION. Sys2Proof/Decode.lean: from the bits of a word to an instruction or a named rejection (R196, R197, R202 to R206, R209,
R210, R416, R417), the words of a list of bytes (R5, R198), and after them the encoder, written from the same encoding tables. -/

namespace Sys2Proof

/-- The fields of an instruction word (R196). -/
structure RawWord where
  c : BitVec 1
  e : BitVec 1
  g : BitVec 4
  s : BitVec 1
  op : BitVec 6
  pay : BitVec 19
  deriving DecidableEq, Repr

/-- The fields of a word (R196). -/
def RawWord.ofWord (w : Word) : RawWord :=
  ⟨w.extractLsb' 31 1, w.extractLsb' 30 1, w.extractLsb' 26 4, w.extractLsb' 25 1, w.extractLsb' 19 6, w.extractLsb' 0 19⟩

/-- The word of the fields (R196). -/
def RawWord.toWord (r : RawWord) : Word := r.c ++ r.e ++ r.g ++ r.s ++ r.op ++ r.pay

/-- The payload of format RRR (R202). -/
structure Rrr where
  d : BitVec 5
  a : BitVec 5
  b : BitVec 5
  f : BitVec 4
  deriving DecidableEq, Repr

/-- The fields of the payload. -/
def Rrr.ofPay (p : BitVec 19) : Rrr :=
  ⟨p.extractLsb' 14 5, p.extractLsb' 9 5, p.extractLsb' 4 5, p.extractLsb' 0 4⟩
/-- The payload of the fields. -/
def Rrr.toPay (p : Rrr) : BitVec 19 := p.d ++ p.a ++ p.b ++ p.f

/-- The payload of format RRI (R202). -/
structure Rri where
  d : BitVec 5
  a : BitVec 5
  f : BitVec 3
  i : BitVec 6
  deriving DecidableEq, Repr

/-- The fields of the payload. -/
def Rri.ofPay (p : BitVec 19) : Rri :=
  ⟨p.extractLsb' 14 5, p.extractLsb' 9 5, p.extractLsb' 6 3, p.extractLsb' 0 6⟩
/-- The payload of the fields. -/
def Rri.toPay (p : Rri) : BitVec 19 := p.d ++ p.a ++ p.f ++ p.i

/-- The payload of format RI (R202). -/
structure Ri where
  d : BitVec 5
  f : BitVec 2
  i : BitVec 12
  deriving DecidableEq, Repr

/-- The fields of the payload. -/
def Ri.ofPay (p : BitVec 19) : Ri :=
  ⟨p.extractLsb' 14 5, p.extractLsb' 12 2, p.extractLsb' 0 12⟩
/-- The payload of the fields. -/
def Ri.toPay (p : Ri) : BitVec 19 := p.d ++ p.f ++ p.i

/-- The payload of format MEM and MEMI (k is the bit 0 of the pair field, R203) (R202). -/
structure Mem where
  d : BitVec 5
  j : BitVec 4
  k : BitVec 1
  o : BitVec 5
  z : BitVec 2
  q : BitVec 2
  deriving DecidableEq, Repr

/-- The fields of the payload. -/
def Mem.ofPay (p : BitVec 19) : Mem :=
  ⟨p.extractLsb' 14 5, p.extractLsb' 10 4, p.extractLsb' 9 1, p.extractLsb' 4 5, p.extractLsb' 2 2, p.extractLsb' 0 2⟩
/-- The payload of the fields. -/
def Mem.toPay (p : Mem) : BitVec 19 := p.d ++ p.j ++ p.k ++ p.o ++ p.z ++ p.q

/-- The payload of format BR (R202). -/
structure Br where
  f : BitVec 2
  o : BitVec 17
  deriving DecidableEq, Repr

/-- The fields of the payload. -/
def Br.ofPay (p : BitVec 19) : Br :=
  ⟨p.extractLsb' 17 2, p.extractLsb' 0 17⟩
/-- The payload of the fields. -/
def Br.toPay (p : Br) : BitVec 19 := p.f ++ p.o

/-- The payload of format WAIT (R202). -/
structure Wait where
  l : BitVec 4
  t : BitVec 4
  p : BitVec 4
  k : BitVec 4
  r : BitVec 3
  deriving DecidableEq, Repr

/-- The fields of the payload. -/
def Wait.ofPay (p : BitVec 19) : Wait :=
  ⟨p.extractLsb' 15 4, p.extractLsb' 11 4, p.extractLsb' 7 4, p.extractLsb' 3 4, p.extractLsb' 0 3⟩
/-- The payload of the fields. -/
def Wait.toPay (p : Wait) : BitVec 19 := p.l ++ p.t ++ p.p ++ p.k ++ p.r

/-- The payload of format CALLR (R202). -/
structure CallR where
  a : BitVec 5
  v : BitVec 5
  n : BitVec 4
  x : BitVec 3
  r : BitVec 2
  deriving DecidableEq, Repr

/-- The fields of the payload. -/
def CallR.ofPay (p : BitVec 19) : CallR :=
  ⟨p.extractLsb' 14 5, p.extractLsb' 9 5, p.extractLsb' 5 4, p.extractLsb' 2 3, p.extractLsb' 0 2⟩
/-- The payload of the fields. -/
def CallR.toPay (p : CallR) : BitVec 19 := p.a ++ p.v ++ p.n ++ p.x ++ p.r

/-- The payload of format LI (R202). -/
structure Li where
  d : BitVec 5
  f : BitVec 3
  i : BitVec 16
  deriving DecidableEq, Repr

/-- The fields of the payload. -/
def Li.ofPay (p : BitVec 24) : Li :=
  ⟨p.extractLsb' 19 5, p.extractLsb' 16 3, p.extractLsb' 0 16⟩
/-- The payload of the fields. -/
def Li.toPay (p : Li) : BitVec 24 := p.d ++ p.f ++ p.i

/-- The payload of format JMP (R202). -/
structure Jmp where
  o : BitVec 24
  deriving DecidableEq, Repr

/-- The fields of the payload. -/
def Jmp.ofPay (p : BitVec 24) : Jmp :=
  ⟨p.extractLsb' 0 24⟩
/-- The payload of the fields. -/
def Jmp.toPay (p : Jmp) : BitVec 24 := p.o

/-- The payload of format CALLP (R202). -/
structure CallP where
  v : BitVec 5
  n : BitVec 4
  x : BitVec 3
  o : BitVec 12
  deriving DecidableEq, Repr

/-- The fields of the payload. -/
def CallP.ofPay (p : BitVec 24) : CallP :=
  ⟨p.extractLsb' 19 5, p.extractLsb' 15 4, p.extractLsb' 12 3, p.extractLsb' 0 12⟩
/-- The payload of the fields. -/
def CallP.toPay (p : CallP) : BitVec 24 := p.v ++ p.n ++ p.x ++ p.o

/-- The payload of format AT (R202). -/
structure At where
  d : BitVec 5
  a : BitVec 5
  f : BitVec 3
  y : BitVec 3
  q : BitVec 4
  r : BitVec 4
  deriving DecidableEq, Repr

/-- The fields of the payload. -/
def At.ofPay (p : BitVec 24) : At :=
  ⟨p.extractLsb' 19 5, p.extractLsb' 14 5, p.extractLsb' 11 3, p.extractLsb' 8 3, p.extractLsb' 4 4, p.extractLsb' 0 4⟩
/-- The payload of the fields. -/
def At.toPay (p : At) : BitVec 24 := p.d ++ p.a ++ p.f ++ p.y ++ p.q ++ p.r

/-- The long-format majors (R209). -/
def longMajor (op : BitVec 6) : Bool := op = 0x03 || op = 0x05 || op = 0x12 || op = 0x21

/-- The head of a short-format word (R197): X must be 0 when E = 0. -/
def RawWord.head (r : RawWord) : Except Reject Head :=
  if r.e = 1 then .ok ⟨r.c = 1, some ⟨r.g, r.s = 1⟩⟩
  else if r.g = 0 && r.s = 0 then .ok ⟨r.c = 1, none⟩
  else .error .strayX

/-- The long payload L (R197): X above the 19 low bits. -/
def RawWord.long (r : RawWord) : BitVec 24 := r.g ++ r.s ++ r.pay

/-- An instruction whose unnamed and reserved fields must be 0 (R202, R215, R234, R250, R265, R290, R314). -/
def named (zero : Bool) (major : String) (i : Instr) : Except Reject Instr :=
  if zero then .ok i else .error (.unnamedField major)

/-- The words of major ctl (R217, R417). -/
def decCtl (h : Head) (p : Rrr) : Except Reject Instr :=
  match p.f.toNat with
  | 0 => named (p.d = 0 && p.a = 0 && p.b = 0) "ctl" (.nop h)
  | 1 => named (p.d = 0 && p.a = 0 && p.b = 0) "ctl" (.ctlExit h)
  | 2 => named (p.d = 0 && p.b = 0) "ctl" (.ctlJr h p.a)
  | 3 => named (p.a = 0 && p.b = 0) "ctl" (.ctlPc h p.d)
  | f => .error (.unassignedF "ctl" f)

/-- The words of major wait (R218, R417). -/
def decWait (h : Head) (p : Wait) : Except Reject Instr :=
  named (p.r = 0) "wait" (.wait h p.l p.t p.p p.k)

/-- The words of major br (R219, R417). -/
def decBr (h : Head) (p : Br) : Except Reject Instr :=
  match p.f.toNat with
  | 0 => .ok (.brLane h p.o)
  | 1 => .ok (.brAll h p.o)
  | 2 => .ok (.brAny h p.o)
  | f => .error (.unassignedF "br" f)

/-- The words of major jmp (R220, R417). -/
def decJmp (c : Bool) (p : Jmp) : Except Reject Instr :=
  .ok (.jmp c p.o)

/-- The words of major call (R222, R417). -/
def decCall (h : Head) (p : CallR) : Except Reject Instr :=
  named (p.r = 0) "call" (.call h p.a p.v p.n p.x)

/-- The words of major callp (R222, R417). -/
def decCallp (c : Bool) (p : CallP) : Except Reject Instr :=
  .ok (.callp c p.v p.n p.x p.o)

/-- The words of major ret (R225, R417). -/
def decRet (h : Head) (p : Rri) : Except Reject Instr :=
  match p.f.toNat with
  | 0 => named (p.d = 0 && p.a = 0) "ret" (.retPop h p.i)
  | 1 => named (p.a = 0) "ret" (.retUnwind h p.d p.i)
  | 2 => named (p.d = 0) "ret" (.retUnwindr h p.a p.i)
  | f => .error (.unassignedF "ret" f)

/-- The words of major bar (R227, R417). -/
def decBar (h : Head) (p : Rri) : Except Reject Instr :=
  match p.f.toNat with
  | 0 => named (p.d = 0 && p.a = 0 && p.i = 0) "bar" (.barTeam h)
  | 1 => named (p.d = 0 && p.a = 0 && p.i = 0) "bar" (.barTwin h)
  | 2 => named (p.d = 0 && (p.i.extractLsb' 4 2) = 0) "bar" (.barNwait h p.a (p.i.extractLsb' 0 4))
  | 3 => named (p.d = 0 && (p.i.extractLsb' 4 2) = 0) "bar" (.barNarrive h p.a (p.i.extractLsb' 0 4))
  | 4 => named (p.d = 0 && p.a = 0 && p.i = 0) "bar" (.barGrid h)
  | f => .error (.unassignedF "bar" f)

/-- The words of major vote (R230, R417). -/
def decVote (h : Head) (p : Rrr) : Except Reject Instr :=
  match p.f.toNat with
  | 0 => named (p.b = 0) "vote" (.voteBallot h p.d p.a)
  | 1 => named (p.b = 0) "vote" (.voteAny h p.d p.a)
  | 2 => named (p.b = 0) "vote" (.voteAll h p.d p.a)
  | 3 => named (p.b = 0) "vote" (.votePopc h p.d p.a)
  | 4 => named (p.b = 0) "vote" (.voteFirst h p.d p.a)
  | 5 => named (p.b = 0) "vote" (.votePeers h p.d p.a)
  | 6 => named (p.b = 0) "vote" (.voteRank h p.d p.a)
  | 7 => named (p.a = 0 && p.b = 0) "vote" (.voteAct h p.d)
  | f => .error (.unassignedF "vote" f)

/-- The words of major grp (R232, R417). -/
def decGrp (h : Head) (p : Rri) : Except Reject Instr :=
  match p.f.toNat with
  | 0 => named (p.a = 0) "grp" (.grpSort h p.d p.i)
  | f => .error (.unassignedF "grp" f)

/-- The words of major vi (R236, R417). -/
def decVi (h : Head) (p : Rrr) : Except Reject Instr :=
  match p.f.toNat with
  | 0 => .ok (.viAdd h p.d p.a p.b)
  | 1 => .ok (.viSub h p.d p.a p.b)
  | 2 => .ok (.viMul h p.d p.a p.b)
  | 3 => .ok (.viMulhs h p.d p.a p.b)
  | 4 => .ok (.viMulhu h p.d p.a p.b)
  | 5 => .ok (.viAnd h p.d p.a p.b)
  | 6 => .ok (.viOr h p.d p.a p.b)
  | 7 => .ok (.viXor h p.d p.a p.b)
  | 8 => .ok (.viShl h p.d p.a p.b)
  | 9 => .ok (.viShr h p.d p.a p.b)
  | 10 => .ok (.viSra h p.d p.a p.b)
  | 11 => .ok (.viMin h p.d p.a p.b)
  | 12 => .ok (.viMax h p.d p.a p.b)
  | 13 => .ok (.viMinu h p.d p.a p.b)
  | 14 => .ok (.viMaxu h p.d p.a p.b)
  | 15 => .ok (.viAndn h p.d p.a p.b)
  | f => .error (.unassignedF "vi" f)

/-- The words of major vii (R237, R417). -/
def decVii (h : Head) (p : Rri) : Except Reject Instr :=
  match p.f.toNat with
  | 0 => .ok (.viiAdd h p.d p.a p.i)
  | 1 => .ok (.viiMul h p.d p.a p.i)
  | 2 => .ok (.viiAnd h p.d p.a p.i)
  | 3 => .ok (.viiOr h p.d p.a p.i)
  | 4 => .ok (.viiXor h p.d p.a p.i)
  | 5 => named ((p.i.extractLsb' 5 1) = 0) "vii" (.viiShl h p.d p.a (p.i.extractLsb' 0 5))
  | 6 => named ((p.i.extractLsb' 5 1) = 0) "vii" (.viiShr h p.d p.a (p.i.extractLsb' 0 5))
  | 7 => named ((p.i.extractLsb' 5 1) = 0) "vii" (.viiSra h p.d p.a (p.i.extractLsb' 0 5))
  | f => .error (.unassignedF "vii" f)

/-- The words of major vm (R239, R417). -/
def decVm (h : Head) (p : Rrr) : Except Reject Instr :=
  match p.f.toNat with
  | 0 => named (p.b = 0) "vm" (.vmNeg h p.d p.a)
  | 1 => named (p.b = 0) "vm" (.vmAbs h p.d p.a)
  | 2 => .ok (.vmAdds h p.d p.a p.b)
  | 3 => .ok (.vmAddu h p.d p.a p.b)
  | 4 => .ok (.vmSubs h p.d p.a p.b)
  | 5 => .ok (.vmSubu h p.d p.a p.b)
  | 6 => named (p.b = 0) "vm" (.vmMov h p.d p.a)
  | 7 => named (p.b = 0) "vm" (.vmClz h p.d p.a)
  | 8 => named (p.b = 0) "vm" (.vmPopc h p.d p.a)
  | 9 => named (p.b = 0) "vm" (.vmBrev h p.d p.a)
  | 10 => named (p.b = 0) "vm" (.vmSext8 h p.d p.a)
  | 11 => named (p.b = 0) "vm" (.vmSext16 h p.d p.a)
  | 12 => named (p.b = 0) "vm" (.vmSati8 h p.d p.a)
  | 13 => named (p.b = 0) "vm" (.vmSati16 h p.d p.a)
  | 14 => named (p.b = 0) "vm" (.vmSatn8 h p.d p.a)
  | 15 => named (p.b = 0) "vm" (.vmSatn16 h p.d p.a)
  | f => .error (.unassignedF "vm" f)

/-- The words of major vc (R240, R417). -/
def decVc (h : Head) (p : Rrr) : Except Reject Instr :=
  match p.f.toNat with
  | 0 => .ok (.vcEq h p.d p.a p.b)
  | 1 => .ok (.vcNe h p.d p.a p.b)
  | 2 => .ok (.vcLt h p.d p.a p.b)
  | 3 => .ok (.vcLe h p.d p.a p.b)
  | 4 => .ok (.vcLtu h p.d p.a p.b)
  | 5 => .ok (.vcLeu h p.d p.a p.b)
  | f => .error (.unassignedF "vc" f)

/-- The words of major vp (R241, R417). -/
def decVp (h : Head) (p : Rrr) : Except Reject Instr :=
  match p.f.toNat with
  | 0 => .ok (.vpSel h p.d p.a p.b)
  | 1 => .ok (.vpAnd h p.d p.a p.b)
  | 2 => .ok (.vpOr h p.d p.a p.b)
  | 3 => .ok (.vpXor h p.d p.a p.b)
  | 4 => .ok (.vpAndn h p.d p.a p.b)
  | 5 => named (p.b = 0) "vp" (.vpNot h p.d p.a)
  | 6 => named (p.b = 0) "vp" (.vpGet h p.d p.a)
  | 7 => named (p.b = 0) "vp" (.vpSet h p.d p.a)
  | 8 => named (p.b = 0) "vp" (.vpMvu h p.d p.a)
  | f => .error (.unassignedF "vp" f)

/-- The words of major vx (R242, R417). -/
def decVx (h : Head) (p : Rrr) : Except Reject Instr :=
  match p.f.toNat with
  | 0 => .ok (.vxIdx h p.d p.a p.b)
  | 1 => .ok (.vxUp h p.d p.a p.b)
  | 2 => .ok (.vxDown h p.d p.a p.b)
  | 3 => .ok (.vxXor h p.d p.a p.b)
  | 4 => .ok (.vxBcast h p.d p.a p.b)
  | f => .error (.unassignedF "vx" f)

/-- The words of major si (R236, R417). -/
def decSi (h : Head) (p : Rrr) : Except Reject Instr :=
  match p.f.toNat with
  | 0 => .ok (.siAdd h p.d p.a p.b)
  | 1 => .ok (.siSub h p.d p.a p.b)
  | 2 => .ok (.siMul h p.d p.a p.b)
  | 3 => .ok (.siMulhs h p.d p.a p.b)
  | 4 => .ok (.siMulhu h p.d p.a p.b)
  | 5 => .ok (.siAnd h p.d p.a p.b)
  | 6 => .ok (.siOr h p.d p.a p.b)
  | 7 => .ok (.siXor h p.d p.a p.b)
  | 8 => .ok (.siShl h p.d p.a p.b)
  | 9 => .ok (.siShr h p.d p.a p.b)
  | 10 => .ok (.siSra h p.d p.a p.b)
  | 11 => .ok (.siMin h p.d p.a p.b)
  | 12 => .ok (.siMax h p.d p.a p.b)
  | 13 => .ok (.siMinu h p.d p.a p.b)
  | 14 => .ok (.siMaxu h p.d p.a p.b)
  | 15 => .ok (.siAndn h p.d p.a p.b)
  | f => .error (.unassignedF "si" f)

/-- The words of major sii (R237, R417). -/
def decSii (h : Head) (p : Rri) : Except Reject Instr :=
  match p.f.toNat with
  | 0 => .ok (.siiAdd h p.d p.a p.i)
  | 1 => .ok (.siiMul h p.d p.a p.i)
  | 2 => .ok (.siiAnd h p.d p.a p.i)
  | 3 => .ok (.siiOr h p.d p.a p.i)
  | 4 => .ok (.siiXor h p.d p.a p.i)
  | 5 => named ((p.i.extractLsb' 5 1) = 0) "sii" (.siiShl h p.d p.a (p.i.extractLsb' 0 5))
  | 6 => named ((p.i.extractLsb' 5 1) = 0) "sii" (.siiShr h p.d p.a (p.i.extractLsb' 0 5))
  | 7 => named ((p.i.extractLsb' 5 1) = 0) "sii" (.siiSra h p.d p.a (p.i.extractLsb' 0 5))
  | f => .error (.unassignedF "sii" f)

/-- The words of major sli (R243, R417). -/
def decSli (c : Bool) (p : Li) : Except Reject Instr :=
  match p.f.toNat with
  | 0 => .ok (.sliLo c p.d p.i)
  | 1 => .ok (.sliHi c p.d p.i)
  | 2 => .ok (.sliSx c p.d p.i)
  | 3 => .ok (.sliVsx c p.d p.i)
  | f => .error (.unassignedF "sli" f)

/-- The words of major sc (R240, R417). -/
def decSc (h : Head) (p : Rrr) : Except Reject Instr :=
  match p.f.toNat with
  | 0 => .ok (.scEq h p.d p.a p.b)
  | 1 => .ok (.scNe h p.d p.a p.b)
  | 2 => .ok (.scLt h p.d p.a p.b)
  | 3 => .ok (.scLe h p.d p.a p.b)
  | 4 => .ok (.scLtu h p.d p.a p.b)
  | 5 => .ok (.scLeu h p.d p.a p.b)
  | 6 => named (p.b = 0) "sc" (.scBlen h p.d p.a)
  | 8 => .ok (.scSeq h p.d p.a p.b)
  | 9 => .ok (.scSne h p.d p.a p.b)
  | 10 => .ok (.scSlt h p.d p.a p.b)
  | 11 => .ok (.scSle h p.d p.a p.b)
  | 12 => .ok (.scSltu h p.d p.a p.b)
  | 13 => .ok (.scSleu h p.d p.a p.b)
  | f => .error (.unassignedF "sc" f)

/-- The words of major sr (R244, R417). -/
def decSr (h : Head) (p : Ri) : Except Reject Instr :=
  match p.f.toNat with
  | 0 => .ok (.srRdv h p.d p.i)
  | 1 => .ok (.srRds h p.d p.i)
  | 2 => .ok (.srWrs h p.d p.i)
  | 3 => .ok (.srRdp h p.d p.i)
  | f => .error (.unassignedF "sr" f)

/-- The words of major ad (R246, R417). -/
def decAd (h : Head) (p : Rrr) : Except Reject Instr :=
  match p.f.toNat with
  | 0 => .ok (.adAdd h p.d p.a p.b)
  | 1 => .ok (.adSub h p.d p.a p.b)
  | 2 => .ok (.adAddx h p.d p.a p.b)
  | 3 => .ok (.adAddz h p.d p.a p.b)
  | 4 => .ok (.adShl h p.d p.a p.b)
  | 5 => .ok (.adShr h p.d p.a p.b)
  | 6 => .ok (.adMulw h p.d p.a p.b)
  | 7 => named (p.b = 0) "ad" (.adMov h p.d p.a)
  | 8 => .ok (.adAnd h p.d p.a p.b)
  | 9 => .ok (.adMul h p.d p.a p.b)
  | 10 => .ok (.adEq h p.d p.a p.b)
  | 11 => .ok (.adLtu h p.d p.a p.b)
  | 12 => .ok (.adLt h p.d p.a p.b)
  | f => .error (.unassignedF "ad" f)

/-- The words of major vf32 (R252, R417). -/
noncomputable def decVf32 (h : Head) (p : Rrr) : Except Reject Instr :=
  match p.f.toNat with
  | 0 => .ok (.vf32Add h p.d p.a p.b)
  | 1 => .ok (.vf32Sub h p.d p.a p.b)
  | 2 => .ok (.vf32Mul h p.d p.a p.b)
  | 3 => .ok (.vf32Fma h p.d p.a p.b)
  | 4 => .ok (.vf32Fms h p.d p.a p.b)
  | 5 => .ok (.vf32Min h p.d p.a p.b)
  | 6 => .ok (.vf32Max h p.d p.a p.b)
  | 7 => named (p.b = 0) "vf32" (.vf32Abs h p.d p.a)
  | 8 => named (p.b = 0) "vf32" (.vf32Neg h p.d p.a)
  | 9 => .ok (.vf32Cpsgn h p.d p.a p.b)
  | 10 => named (p.b = 0) "vf32" (.vf32Rint h p.d p.a)
  | f => .error (.unassignedF "vf32" f)

/-- The words of major vf16 (R253, R417). -/
noncomputable def decVf16 (h : Head) (p : Rrr) : Except Reject Instr :=
  match p.f.toNat with
  | 0 => .ok (.vf16Add h p.d p.a p.b)
  | 1 => .ok (.vf16Sub h p.d p.a p.b)
  | 2 => .ok (.vf16Mul h p.d p.a p.b)
  | 3 => .ok (.vf16Fma h p.d p.a p.b)
  | 4 => .ok (.vf16Min h p.d p.a p.b)
  | 5 => .ok (.vf16Max h p.d p.a p.b)
  | 6 => named (p.b = 0) "vf16" (.vf16Neg h p.d p.a)
  | 7 => named (p.b = 0) "vf16" (.vf16Abs h p.d p.a)
  | 8 => .ok (.vf16Badd h p.d p.a p.b)
  | 9 => .ok (.vf16Bsub h p.d p.a p.b)
  | 10 => .ok (.vf16Bmul h p.d p.a p.b)
  | 11 => .ok (.vf16Bfma h p.d p.a p.b)
  | 12 => .ok (.vf16Bmin h p.d p.a p.b)
  | 13 => .ok (.vf16Bmax h p.d p.a p.b)
  | 14 => named (p.b = 0) "vf16" (.vf16Bneg h p.d p.a)
  | 15 => named (p.b = 0) "vf16" (.vf16Babs h p.d p.a)
  | f => .error (.unassignedF "vf16" f)

/-- The words of major vfx (R254, R417). -/
noncomputable def decVfx (h : Head) (p : Rrr) : Except Reject Instr :=
  match p.f.toNat with
  | 0 => .ok (.vfxDiv h p.d p.a p.b)
  | 1 => named (p.b = 0) "vfx" (.vfxSqrt h p.d p.a)
  | 2 => named (p.b = 0) "vfx" (.vfxRcp h p.d p.a)
  | 3 => named (p.b = 0) "vfx" (.vfxRsq h p.d p.a)
  | 4 => named (p.b = 0) "vfx" (.vfxExp2 h p.d p.a)
  | 5 => named (p.b = 0) "vfx" (.vfxLog2 h p.d p.a)
  | 6 => named (p.b = 0) "vfx" (.vfxSinpi h p.d p.a)
  | 7 => named (p.b = 0) "vfx" (.vfxCospi h p.d p.a)
  | f => .error (.unassignedF "vfx" f)

/-- The words of major vcv (R256, R417). -/
noncomputable def decVcv (h : Head) (p : Rrr) : Except Reject Instr :=
  match p.f.toNat with
  | 0 => named (p.b = 0) "vcv" (.vcvF32i h p.d p.a)
  | 1 => named (p.b = 0) "vcv" (.vcvF32n h p.d p.a)
  | 2 => named (p.b = 0) "vcv" (.vcvI32f h p.d p.a)
  | 3 => named (p.b = 0) "vcv" (.vcvN32f h p.d p.a)
  | 4 => .ok (.vcvPkh h p.d p.a p.b)
  | 5 => .ok (.vcvPkb h p.d p.a p.b)
  | 6 => named (p.b = 0) "vcv" (.vcvUhl h p.d p.a)
  | 7 => named (p.b = 0) "vcv" (.vcvUhh h p.d p.a)
  | 8 => named (p.b = 0) "vcv" (.vcvUbl h p.d p.a)
  | 9 => named (p.b = 0) "vcv" (.vcvUbh h p.d p.a)
  | 10 => .ok (.vcvIe4 h p.d p.a p.b)
  | 11 => .ok (.vcvIe5 h p.d p.a p.b)
  | 12 => .ok (.vcvXe4 h p.d p.a p.b)
  | 13 => .ok (.vcvXe5 h p.d p.a p.b)
  | f => .error (.unassignedF "vcv" f)

/-- The words of major vfc (R257, R417). -/
noncomputable def decVfc (h : Head) (p : Rrr) : Except Reject Instr :=
  match p.f.toNat with
  | 0 => .ok (.vfcEq h p.d p.a p.b)
  | 1 => .ok (.vfcNe h p.d p.a p.b)
  | 2 => .ok (.vfcLt h p.d p.a p.b)
  | 3 => .ok (.vfcLe h p.d p.a p.b)
  | 4 => .ok (.vfcUn h p.d p.a p.b)
  | 5 => named (p.b = 0) "vfc" (.vfcClass h p.d p.a)
  | f => .error (.unassignedF "vfc" f)

/-- The words of major vq (R259, R417). -/
noncomputable def decVq (h : Head) (p : Rrr) : Except Reject Instr :=
  match p.f.toNat with
  | 0 => .ok (.vqQ16 h p.d p.a p.b)
  | 1 => .ok (.vqQ32 h p.d p.a p.b)
  | 2 => named (p.b = 0) "vq" (.vqPk4 h p.d p.a)
  | 3 => .ok (.vqDq4 h p.d p.a p.b)
  | 4 => .ok (.vqQe16 h p.d p.a p.b)
  | 5 => .ok (.vqQe32 h p.d p.a p.b)
  | 6 => named (p.b = 0) "vq" (.vqPk8 h p.d p.a)
  | 7 => .ok (.vqDq8 h p.d p.a p.b)
  | f => .error (.unassignedF "vq" f)

/-- The words of major shp (R247, R417). -/
noncomputable def decShp (h : Head) (p : Rrr) : Except Reject Instr :=
  match p.f.toNat with
  | 0 => named (p.a = 0 && p.b = 0) "shp" (.shpSq h p.d)
  | 1 => named (p.a = 0 && p.b = 0) "shp" (.shpExp h p.d)
  | 2 => named (p.b = 0) "shp" (.shpShape h p.d p.a)
  | 3 => named (p.b = 0) "shp" (.shpRdx h p.d p.a)
  | 4 => named (p.b = 0) "shp" (.shpWrx h p.d p.a)
  | f => .error (.unassignedF "shp" f)

/-- The words of major ld (R269, R417). -/
noncomputable def decLd (h : Head) (p : Mem) : Except Reject Instr :=
  if p.k = 0 then .ok (.ld h p.d p.j p.o p.z p.q)
  else .ok (.ldImm h p.d p.j p.o p.z p.q)

/-- The words of major st (R270, R417). -/
noncomputable def decSt (h : Head) (p : Mem) : Except Reject Instr :=
  if p.k = 0 then .ok (.st h p.d p.j p.o p.z p.q)
  else .ok (.stImm h p.d p.j p.o p.z p.q)

/-- The words of major ldu (R271, R417). -/
noncomputable def decLdu (h : Head) (p : Mem) : Except Reject Instr :=
  if p.k = 0 then .ok (.ldu h p.d p.j p.o p.z p.q)
  else .ok (.lduImm h p.d p.j p.o p.z p.q)

/-- The words of major stu (R271, R417). -/
noncomputable def decStu (h : Head) (p : Mem) : Except Reject Instr :=
  if p.k = 0 then .ok (.stu h p.d p.j p.o p.z p.q)
  else .ok (.stuImm h p.d p.j p.o p.z p.q)

/-- The words of major atm (R275, R417). -/
noncomputable def decAtm (c : Bool) (p : At) : Except Reject Instr :=
  match p.f.toNat with
  | 0 => named (p.r = 0) "atm" (.atmAdd c p.d p.a p.y p.q)
  | 1 => named (p.r = 0) "atm" (.atmMin c p.d p.a p.y p.q)
  | 2 => named (p.r = 0) "atm" (.atmMax c p.d p.a p.y p.q)
  | 3 => named (p.r = 0) "atm" (.atmAnd c p.d p.a p.y p.q)
  | 4 => named (p.r = 0) "atm" (.atmOr c p.d p.a p.y p.q)
  | 5 => named (p.r = 0) "atm" (.atmXor c p.d p.a p.y p.q)
  | 6 => named (p.r = 0) "atm" (.atmExch c p.d p.a p.y p.q)
  | 7 => named (p.r = 0) "atm" (.atmCas c p.d p.a p.y p.q)
  | f => .error (.unassignedF "atm" f)

/-- The words of major fence (R276, R417). -/
noncomputable def decFence (h : Head) (p : Ri) : Except Reject Instr :=
  match p.f.toNat with
  | 0 => named (p.d = 0 && (p.i.extractLsb' 3 9) = 0) "fence" (.fenceRel h (p.i.extractLsb' 0 3))
  | 1 => named (p.d = 0 && (p.i.extractLsb' 3 9) = 0) "fence" (.fenceAcq h (p.i.extractLsb' 0 3))
  | 2 => named (p.d = 0 && (p.i.extractLsb' 3 9) = 0) "fence" (.fenceFull h (p.i.extractLsb' 0 3))
  | 3 =>
    if p.d = 0 then
      if p.i = 0 then .ok (.fenceOprRel h)
      else if p.i = 1 then .ok (.fenceOprAcq h)
      else .error (.badModifier "fence" p.i.toNat)
    else .error (.unnamedField "fence")
  | f => .error (.unassignedF "fence" f)

/-- The words of major lds (R278, R417). -/
noncomputable def decLds (h : Head) (p : Rri) : Except Reject Instr :=
  .ok (.lds h p.d p.a p.f p.i)

/-- The words of major sts (R278, R417). -/
noncomputable def decSts (h : Head) (p : Rri) : Except Reject Instr :=
  .ok (.sts h p.d p.a p.f p.i)

/-- The words of major stag (R279, R417). -/
noncomputable def decStag (h : Head) (p : Rrr) : Except Reject Instr :=
  match p.f.toNat with
  | 0 => named (p.b = 0) "stag" (.stagLook h p.d p.a)
  | 1 => .ok (.stagSet h p.d p.a p.b)
  | 2 => named (p.a = 0 && p.b = 0) "stag" (.stagInv h p.d)
  | 3 => named (p.d = 0 && p.a = 0 && p.b = 0) "stag" (.stagClr h)
  | f => .error (.unassignedF "stag" f)

/-- The words of major cb (R282, R417). -/
noncomputable def decCb (h : Head) (p : Rri) : Except Reject Instr :=
  match p.f.toNat with
  | 0 => named (p.a = 0 && (p.i.extractLsb' 4 2) = 0) "cb" (.cbRes h p.d (p.i.extractLsb' 0 4))
  | 1 => named (p.d = 0 && (p.i.extractLsb' 4 2) = 0) "cb" (.cbCom h p.a (p.i.extractLsb' 0 4))
  | 2 => named (p.a = 0 && (p.i.extractLsb' 4 2) = 0) "cb" (.cbWait h p.d (p.i.extractLsb' 0 4))
  | 3 => named (p.d = 0 && p.a = 0 && (p.i.extractLsb' 4 2) = 0) "cb" (.cbPop h (p.i.extractLsb' 0 4))
  | 4 => named ((p.i.extractLsb' 4 2) = 0) "cb" (.cbSa h p.d p.a (p.i.extractLsb' 0 4))
  | f => .error (.unassignedF "cb" f)

/-- The words of major cp (R285, R417). -/
noncomputable def decCp (h : Head) (p : Rrr) : Except Reject Instr :=
  match p.f.toNat with
  | 0 => .ok (.cpG2s h p.d p.a p.b)
  | 1 => .ok (.cpS2g h p.d p.a p.b)
  | 2 => .ok (.cpS2s h p.d p.a p.b)
  | 3 => .ok (.cpGat h p.d p.a p.b)
  | 4 => .ok (.cpT2h h p.d p.a p.b)
  | f => .error (.unassignedF "cp" f)

/-- The words of major wta (R287, R417). -/
noncomputable def decWta (h : Head) (p : Rrr) : Except Reject Instr :=
  .ok (.wta h p.d p.a p.b (p.f.extractLsb' 3 1) (p.f.extractLsb' 2 1) (p.f.extractLsb' 0 2))

/-- The words of major tcfg (R295, R417). -/
noncomputable def decTcfg (h : Head) (p : Rrr) : Except Reject Instr :=
  match p.f.toNat with
  | 0 => named (p.b = 0) "tcfg" (.tcfgSet h p.d p.a)
  | 1 => named (p.b = 0) "tcfg" (.tcfgRows h p.d p.a)
  | 2 => named (p.b = 0) "tcfg" (.tcfgCols h p.d p.a)
  | 3 => named (p.b = 0) "tcfg" (.tcfgKext h p.d p.a)
  | 4 => named (p.b = 0) "tcfg" (.tcfgStg h p.d p.a)
  | 5 => named (p.b = 0) "tcfg" (.tcfgFl h p.d p.a)
  | f => .error (.unassignedF "tcfg" f)

/-- The words of major tld (R297, R417). -/
noncomputable def decTld (h : Head) (p : Mem) : Except Reject Instr :=
  if p.k = 0 then .ok (.tld h p.d p.j p.o p.z p.q)
  else .ok (.tldImm h p.d p.j p.o p.z p.q)

/-- The words of major tst (R297, R417). -/
noncomputable def decTst (h : Head) (p : Mem) : Except Reject Instr :=
  if p.k = 0 then .ok (.tst h p.d p.j p.o p.z p.q)
  else .ok (.tstImm h p.d p.j p.o p.z p.q)

/-- The words of major mma (R302, R417). -/
noncomputable def decMma (h : Head) (p : Rrr) : Except Reject Instr :=
  if p.f.extractLsb' 3 1 = 0 then .ok (.mmaAcc h p.d p.a p.b (p.f.extractLsb' 0 3))
  else .ok (.mmaSet h p.d p.a p.b (p.f.extractLsb' 0 3))

/-- The words of major mx (R306, R417). -/
noncomputable def decMx (h : Head) (p : Rrr) : Except Reject Instr :=
  match p.f.toNat with
  | 0 => .ok (.mxHad h p.d p.a p.b)
  | 1 => .ok (.mxPerm h p.d p.a p.b)
  | f => .error (.unassignedF "mx" f)

/-- The words of major acc (R309, R417). -/
noncomputable def decAcc (h : Head) (p : Rrr) : Except Reject Instr :=
  match p.f.toNat with
  | 0 => named (p.a = 0 && p.b = 0) "acc" (.accZero h p.d)
  | 1 => .ok (.accRd h p.d p.a p.b)
  | 2 => .ok (.accWr h p.d p.a p.b)
  | 3 => .ok (.accWid h p.d p.a p.b)
  | 4 => .ok (.accNar h p.d p.a p.b)
  | 5 => .ok (.accQ2 h p.d p.a p.b)
  | 6 => .ok (.accQe h p.d p.a p.b)
  | f => .error (.unassignedF "acc" f)

/-- The words of major lnch (R316, R417). -/
noncomputable def decLnch (h : Head) (p : Rrr) : Except Reject Instr :=
  match p.f.toNat with
  | 0 => named (p.b = 0) "lnch" (.lnchRec h p.d p.a)
  | 1 => named (p.d = 0 && p.b = 0) "lnch" (.lnchTrig h p.a)
  | 2 => named (p.d = 0 && p.b = 0) "lnch" (.lnchCncl h p.a)
  | f => .error (.unassignedF "lnch" f)

/-- The words of major pwr (R318, R417). -/
noncomputable def decPwr (h : Head) (p : Ri) : Except Reject Instr :=
  match p.f.toNat with
  | 0 => named (p.i = 0) "pwr" (.pwrReq h p.d)
  | 1 => named (p.i = 0) "pwr" (.pwrCls h p.d)
  | 2 => named (p.i = 0) "pwr" (.pwrPool h p.d)
  | f => .error (.unassignedF "pwr" f)

/-- The words of major tm (R320, R417). -/
noncomputable def decTm (h : Head) (p : Rrr) : Except Reject Instr :=
  match p.f.toNat with
  | 0 => named (p.d = 0 && p.b = 0) "tm" (.tmWtill h p.a)
  | 1 => named (p.d = 0 && p.b = 0) "tm" (.tmWrel h p.a)
  | 2 => named (p.a = 0 && p.b = 0) "tm" (.tmRd h p.d)
  | f => .error (.unassignedF "tm" f)

/-- The words of major dbg (R321, R417). -/
noncomputable def decDbg (h : Head) (p : Ri) : Except Reject Instr :=
  match p.f.toNat with
  | 0 => named (p.d = 0 && p.i = 0) "dbg" (.dbgBrk h)
  | 1 => named ((p.i.extractLsb' 4 8) = 0) "dbg" (.dbgProg h p.d (p.i.extractLsb' 0 4))
  | f => .error (.unassignedF "dbg" f)

/-- The words of major sys (R323, R417). -/
noncomputable def decSys (h : Head) (p : Rrr) : Except Reject Instr :=
  match p.f.toNat with
  | 0 => named (p.b = 0) "sys" (.sysRdid h p.d p.a)
  | 1 => named (p.d = 0 && p.a = 0 && p.b = 0) "sys" (.sysTret h)
  | 2 => named (p.d = 0 && p.a = 0 && p.b = 0) "sys" (.sysCinv h)
  | 3 => named (p.d = 0 && p.b = 0) "sys" (.sysTvt h p.a)
  | f => .error (.unassignedF "sys" f)

/-- The instruction the fields of a word spell, before the checks of register classes and modifiers. -/
noncomputable def RawWord.candidate (r : RawWord) : Except Reject Instr :=
  if longMajor r.op then
    if r.e = 1 then .error .guardOnLong
    else match r.op.toNat with
      | 0x03 => decJmp (r.c = 1) (Jmp.ofPay r.long)
      | 0x05 => decCallp (r.c = 1) (CallP.ofPay r.long)
      | 0x12 => decSli (r.c = 1) (Li.ofPay r.long)
      | 0x21 => decAtm (r.c = 1) (At.ofPay r.long)
      | n => .error (.reservedMajor n)
  else match r.head with
    | .error x => .error x
    | .ok h =>
      match r.op.toNat with
      | 0x00 => decCtl h (Rrr.ofPay r.pay)
      | 0x01 => decWait h (Wait.ofPay r.pay)
      | 0x02 => decBr h (Br.ofPay r.pay)
      | 0x04 => decCall h (CallR.ofPay r.pay)
      | 0x06 => decRet h (Rri.ofPay r.pay)
      | 0x07 => decBar h (Rri.ofPay r.pay)
      | 0x08 => decVote h (Rrr.ofPay r.pay)
      | 0x09 => decGrp h (Rri.ofPay r.pay)
      | 0x0a => decVi h (Rrr.ofPay r.pay)
      | 0x0b => decVii h (Rri.ofPay r.pay)
      | 0x0c => decVm h (Rrr.ofPay r.pay)
      | 0x0d => decVc h (Rrr.ofPay r.pay)
      | 0x0e => decVp h (Rrr.ofPay r.pay)
      | 0x0f => decVx h (Rrr.ofPay r.pay)
      | 0x10 => decSi h (Rrr.ofPay r.pay)
      | 0x11 => decSii h (Rri.ofPay r.pay)
      | 0x13 => decSc h (Rrr.ofPay r.pay)
      | 0x14 => decSr h (Ri.ofPay r.pay)
      | 0x15 => decAd h (Rrr.ofPay r.pay)
      | 0x16 => decVf32 h (Rrr.ofPay r.pay)
      | 0x17 => decVf16 h (Rrr.ofPay r.pay)
      | 0x18 => decVfx h (Rrr.ofPay r.pay)
      | 0x19 => decVcv h (Rrr.ofPay r.pay)
      | 0x1a => decVfc h (Rrr.ofPay r.pay)
      | 0x1b => decVq h (Rrr.ofPay r.pay)
      | 0x1c => decShp h (Rrr.ofPay r.pay)
      | 0x1d => decLd h (Mem.ofPay r.pay)
      | 0x1e => decSt h (Mem.ofPay r.pay)
      | 0x1f => decLdu h (Mem.ofPay r.pay)
      | 0x20 => decStu h (Mem.ofPay r.pay)
      | 0x22 => decFence h (Ri.ofPay r.pay)
      | 0x23 => decLds h (Rri.ofPay r.pay)
      | 0x24 => decSts h (Rri.ofPay r.pay)
      | 0x25 => decStag h (Rrr.ofPay r.pay)
      | 0x26 => decCb h (Rri.ofPay r.pay)
      | 0x27 => decCp h (Rrr.ofPay r.pay)
      | 0x28 => decWta h (Rrr.ofPay r.pay)
      | 0x29 => decTcfg h (Rrr.ofPay r.pay)
      | 0x2a => decTld h (Mem.ofPay r.pay)
      | 0x2b => decTst h (Mem.ofPay r.pay)
      | 0x2c => decMma h (Rrr.ofPay r.pay)
      | 0x2d => decMx h (Rrr.ofPay r.pay)
      | 0x2e => decAcc h (Rrr.ofPay r.pay)
      | 0x2f => decLnch h (Rrr.ofPay r.pay)
      | 0x30 => decPwr h (Ri.ofPay r.pay)
      | 0x31 => decTm h (Rrr.ofPay r.pay)
      | 0x32 => decDbg h (Ri.ofPay r.pay)
      | 0x33 => decSys h (Rrr.ofPay r.pay)
      | n => .error (.reservedMajor n)

/-- The instruction of a word, or why it is none: exactly the words that raise illegal-word by R210 are rejected, but for the cases
that R417 leaves to execution (mma with BST, vq at W = 16). A reserved major is rejected first (R416). -/
noncomputable def decode (w : Word) : Except Reject Instr :=
  match (RawWord.ofWord w).candidate with
  | .error x => .error x
  | .ok i =>
    match i.reject with
    | some x => .error x
    | none => .ok i

/-- A word of four bytes, the lowest address first (R5). -/
def wordOfBytes (b0 b1 b2 b3 : Byte) : Word := b3 ++ b2 ++ b1 ++ b0

/-- The bytes of a word, the lowest address first (R5). -/
def bytesOfWord (w : Word) : List Byte :=
  [w.extractLsb' 0 8, w.extractLsb' 8 8, w.extractLsb' 16 8, w.extractLsb' 24 8]

/-- The instruction at the head of a list of bytes, with the bytes after it. -/
noncomputable def decodeBytes : List Byte → Except Reject (Instr × List Byte)
  | b0 :: b1 :: b2 :: b3 :: rest =>
    match decode (wordOfBytes b0 b1 b2 b3) with
    | .ok i => .ok (i, rest)
    | .error x => .error x
  | bs => .error (.short bs.length)

/-- The static class of a word for the chain rules (R416, R419): that of its major, whatever its other fields; none for a reserved
major. -/
def wordClass (w : Word) : Option Pipe :=
  match (RawWord.ofWord w).op.toNat with
  | 0x00 | 0x01 | 0x02 | 0x03 | 0x04 | 0x05 | 0x06 | 0x07 | 0x08 | 0x09 | 0x2f | 0x30 | 0x31 | 0x32 | 0x33 => some .C
  | 0x0a | 0x0b | 0x0c | 0x0d | 0x0e | 0x16 | 0x17 | 0x1a | 0x1c => some .V
  | 0x0f | 0x18 | 0x19 | 0x1b => some .X
  | 0x10 | 0x11 | 0x12 | 0x13 | 0x14 | 0x15 => some .S
  | 0x1d | 0x1e | 0x1f | 0x20 | 0x21 | 0x22 | 0x23 | 0x24 | 0x25 | 0x26 | 0x27 | 0x28 => some .M
  | 0x29 | 0x2a | 0x2b | 0x2c | 0x2d | 0x2e => some .T
  | _ => none

/-- The chain bit of a word (R196). -/
def wordChain (w : Word) : Bool := w.getLsbD 31

/-- The guard a word carries (R196, R418): none for a long-format word or a word with E = 0. -/
def wordGuard (w : Word) : Option Guard :=
  let r := RawWord.ofWord w
  if longMajor r.op then none
  else if r.e = 1 then some ⟨r.g, r.s = 1⟩ else none

/-- The bytes of an instruction given as the opcode table numbers its bits: bit 0 the lowest bit of the lowest byte. -/
def tableBytes (nbits w : Nat) : List Byte :=
  (List.range (Nat.max 4 (nbits / 8))).map (fun i => if i < nbits / 8 then BitVec.ofNat 8 (w >>> (8 * i)) else 0)

/-- What the decoder reads from an instruction whose bits are `w`, numbered as the opcode table numbers them. -/
noncomputable def decodeTableWord (nbits w : Nat) : Option Instr :=
  match decodeBytes (tableBytes nbits w) with
  | .ok (i, _) => some i
  | .error _ => none

/-! ## The encoder -/

/-- One bit. -/
def bit1 (b : Bool) : BitVec 1 := if b then 1 else 0

/-- A short-format word (R197). -/
def shortWord (h : Head) (op : BitVec 6) (pay : BitVec 19) : Word :=
  match h.guard with
  | none => RawWord.toWord ⟨bit1 h.chain, 0, 0, 0, op, pay⟩
  | some g => RawWord.toWord ⟨bit1 h.chain, 1, g.pred, bit1 g.sense, op, pay⟩

/-- A long-format word (R197): the top five bits of L are X. -/
def longWord (c : Bool) (op : BitVec 6) (l : BitVec 24) : Word :=
  RawWord.toWord ⟨bit1 c, 0, l.extractLsb' 20 4, l.extractLsb' 19 1, op, l.extractLsb' 0 19⟩

/-- The word of an instruction (R202, R209, and the field map of each major); an event has none. -/
def encode : Instr → Option Word
  | .nop h => some (shortWord h 0x00 (Rrr.toPay ⟨0#5, 0#5, 0#5, 0#4⟩))
  | .ctlExit h => some (shortWord h 0x00 (Rrr.toPay ⟨0#5, 0#5, 0#5, 1#4⟩))
  | .ctlJr h a => some (shortWord h 0x00 (Rrr.toPay ⟨0#5, a, 0#5, 2#4⟩))
  | .ctlPc h d => some (shortWord h 0x00 (Rrr.toPay ⟨d, 0#5, 0#5, 3#4⟩))
  | .wait h l t p k => some (shortWord h 0x01 (Wait.toPay ⟨l, t, p, k, 0#3⟩))
  | .brLane h o => some (shortWord h 0x02 (Br.toPay ⟨0#2, o⟩))
  | .brAll h o => some (shortWord h 0x02 (Br.toPay ⟨1#2, o⟩))
  | .brAny h o => some (shortWord h 0x02 (Br.toPay ⟨2#2, o⟩))
  | .jmp c o => some (longWord c 0x03 (Jmp.toPay ⟨o⟩))
  | .call h a v n x => some (shortWord h 0x04 (CallR.toPay ⟨a, v, n, x, 0#2⟩))
  | .callp c v n x o => some (longWord c 0x05 (CallP.toPay ⟨v, n, x, o⟩))
  | .retPop h i => some (shortWord h 0x06 (Rri.toPay ⟨0#5, 0#5, 0#3, i⟩))
  | .retUnwind h d i => some (shortWord h 0x06 (Rri.toPay ⟨d, 0#5, 1#3, i⟩))
  | .retUnwindr h a i => some (shortWord h 0x06 (Rri.toPay ⟨0#5, a, 2#3, i⟩))
  | .barTeam h => some (shortWord h 0x07 (Rri.toPay ⟨0#5, 0#5, 0#3, 0#6⟩))
  | .barTwin h => some (shortWord h 0x07 (Rri.toPay ⟨0#5, 0#5, 1#3, 0#6⟩))
  | .barNwait h a n => some (shortWord h 0x07 (Rri.toPay ⟨0#5, a, 2#3, (0#2 ++ n)⟩))
  | .barNarrive h a n => some (shortWord h 0x07 (Rri.toPay ⟨0#5, a, 3#3, (0#2 ++ n)⟩))
  | .barGrid h => some (shortWord h 0x07 (Rri.toPay ⟨0#5, 0#5, 4#3, 0#6⟩))
  | .voteBallot h d a => some (shortWord h 0x08 (Rrr.toPay ⟨d, a, 0#5, 0#4⟩))
  | .voteAny h d a => some (shortWord h 0x08 (Rrr.toPay ⟨d, a, 0#5, 1#4⟩))
  | .voteAll h d a => some (shortWord h 0x08 (Rrr.toPay ⟨d, a, 0#5, 2#4⟩))
  | .votePopc h d a => some (shortWord h 0x08 (Rrr.toPay ⟨d, a, 0#5, 3#4⟩))
  | .voteFirst h d a => some (shortWord h 0x08 (Rrr.toPay ⟨d, a, 0#5, 4#4⟩))
  | .votePeers h d a => some (shortWord h 0x08 (Rrr.toPay ⟨d, a, 0#5, 5#4⟩))
  | .voteRank h d a => some (shortWord h 0x08 (Rrr.toPay ⟨d, a, 0#5, 6#4⟩))
  | .voteAct h d => some (shortWord h 0x08 (Rrr.toPay ⟨d, 0#5, 0#5, 7#4⟩))
  | .grpSort h d i => some (shortWord h 0x09 (Rri.toPay ⟨d, 0#5, 0#3, i⟩))
  | .viAdd h d a b => some (shortWord h 0x0a (Rrr.toPay ⟨d, a, b, 0#4⟩))
  | .viSub h d a b => some (shortWord h 0x0a (Rrr.toPay ⟨d, a, b, 1#4⟩))
  | .viMul h d a b => some (shortWord h 0x0a (Rrr.toPay ⟨d, a, b, 2#4⟩))
  | .viMulhs h d a b => some (shortWord h 0x0a (Rrr.toPay ⟨d, a, b, 3#4⟩))
  | .viMulhu h d a b => some (shortWord h 0x0a (Rrr.toPay ⟨d, a, b, 4#4⟩))
  | .viAnd h d a b => some (shortWord h 0x0a (Rrr.toPay ⟨d, a, b, 5#4⟩))
  | .viOr h d a b => some (shortWord h 0x0a (Rrr.toPay ⟨d, a, b, 6#4⟩))
  | .viXor h d a b => some (shortWord h 0x0a (Rrr.toPay ⟨d, a, b, 7#4⟩))
  | .viShl h d a b => some (shortWord h 0x0a (Rrr.toPay ⟨d, a, b, 8#4⟩))
  | .viShr h d a b => some (shortWord h 0x0a (Rrr.toPay ⟨d, a, b, 9#4⟩))
  | .viSra h d a b => some (shortWord h 0x0a (Rrr.toPay ⟨d, a, b, 10#4⟩))
  | .viMin h d a b => some (shortWord h 0x0a (Rrr.toPay ⟨d, a, b, 11#4⟩))
  | .viMax h d a b => some (shortWord h 0x0a (Rrr.toPay ⟨d, a, b, 12#4⟩))
  | .viMinu h d a b => some (shortWord h 0x0a (Rrr.toPay ⟨d, a, b, 13#4⟩))
  | .viMaxu h d a b => some (shortWord h 0x0a (Rrr.toPay ⟨d, a, b, 14#4⟩))
  | .viAndn h d a b => some (shortWord h 0x0a (Rrr.toPay ⟨d, a, b, 15#4⟩))
  | .siAdd h d a b => some (shortWord h 0x10 (Rrr.toPay ⟨d, a, b, 0#4⟩))
  | .siSub h d a b => some (shortWord h 0x10 (Rrr.toPay ⟨d, a, b, 1#4⟩))
  | .siMul h d a b => some (shortWord h 0x10 (Rrr.toPay ⟨d, a, b, 2#4⟩))
  | .siMulhs h d a b => some (shortWord h 0x10 (Rrr.toPay ⟨d, a, b, 3#4⟩))
  | .siMulhu h d a b => some (shortWord h 0x10 (Rrr.toPay ⟨d, a, b, 4#4⟩))
  | .siAnd h d a b => some (shortWord h 0x10 (Rrr.toPay ⟨d, a, b, 5#4⟩))
  | .siOr h d a b => some (shortWord h 0x10 (Rrr.toPay ⟨d, a, b, 6#4⟩))
  | .siXor h d a b => some (shortWord h 0x10 (Rrr.toPay ⟨d, a, b, 7#4⟩))
  | .siShl h d a b => some (shortWord h 0x10 (Rrr.toPay ⟨d, a, b, 8#4⟩))
  | .siShr h d a b => some (shortWord h 0x10 (Rrr.toPay ⟨d, a, b, 9#4⟩))
  | .siSra h d a b => some (shortWord h 0x10 (Rrr.toPay ⟨d, a, b, 10#4⟩))
  | .siMin h d a b => some (shortWord h 0x10 (Rrr.toPay ⟨d, a, b, 11#4⟩))
  | .siMax h d a b => some (shortWord h 0x10 (Rrr.toPay ⟨d, a, b, 12#4⟩))
  | .siMinu h d a b => some (shortWord h 0x10 (Rrr.toPay ⟨d, a, b, 13#4⟩))
  | .siMaxu h d a b => some (shortWord h 0x10 (Rrr.toPay ⟨d, a, b, 14#4⟩))
  | .siAndn h d a b => some (shortWord h 0x10 (Rrr.toPay ⟨d, a, b, 15#4⟩))
  | .viiAdd h d a i => some (shortWord h 0x0b (Rri.toPay ⟨d, a, 0#3, i⟩))
  | .viiMul h d a i => some (shortWord h 0x0b (Rri.toPay ⟨d, a, 1#3, i⟩))
  | .viiAnd h d a i => some (shortWord h 0x0b (Rri.toPay ⟨d, a, 2#3, i⟩))
  | .viiOr h d a i => some (shortWord h 0x0b (Rri.toPay ⟨d, a, 3#3, i⟩))
  | .viiXor h d a i => some (shortWord h 0x0b (Rri.toPay ⟨d, a, 4#3, i⟩))
  | .viiShl h d a i => some (shortWord h 0x0b (Rri.toPay ⟨d, a, 5#3, (0#1 ++ i)⟩))
  | .viiShr h d a i => some (shortWord h 0x0b (Rri.toPay ⟨d, a, 6#3, (0#1 ++ i)⟩))
  | .viiSra h d a i => some (shortWord h 0x0b (Rri.toPay ⟨d, a, 7#3, (0#1 ++ i)⟩))
  | .siiAdd h d a i => some (shortWord h 0x11 (Rri.toPay ⟨d, a, 0#3, i⟩))
  | .siiMul h d a i => some (shortWord h 0x11 (Rri.toPay ⟨d, a, 1#3, i⟩))
  | .siiAnd h d a i => some (shortWord h 0x11 (Rri.toPay ⟨d, a, 2#3, i⟩))
  | .siiOr h d a i => some (shortWord h 0x11 (Rri.toPay ⟨d, a, 3#3, i⟩))
  | .siiXor h d a i => some (shortWord h 0x11 (Rri.toPay ⟨d, a, 4#3, i⟩))
  | .siiShl h d a i => some (shortWord h 0x11 (Rri.toPay ⟨d, a, 5#3, (0#1 ++ i)⟩))
  | .siiShr h d a i => some (shortWord h 0x11 (Rri.toPay ⟨d, a, 6#3, (0#1 ++ i)⟩))
  | .siiSra h d a i => some (shortWord h 0x11 (Rri.toPay ⟨d, a, 7#3, (0#1 ++ i)⟩))
  | .vmNeg h d a => some (shortWord h 0x0c (Rrr.toPay ⟨d, a, 0#5, 0#4⟩))
  | .vmAbs h d a => some (shortWord h 0x0c (Rrr.toPay ⟨d, a, 0#5, 1#4⟩))
  | .vmAdds h d a b => some (shortWord h 0x0c (Rrr.toPay ⟨d, a, b, 2#4⟩))
  | .vmAddu h d a b => some (shortWord h 0x0c (Rrr.toPay ⟨d, a, b, 3#4⟩))
  | .vmSubs h d a b => some (shortWord h 0x0c (Rrr.toPay ⟨d, a, b, 4#4⟩))
  | .vmSubu h d a b => some (shortWord h 0x0c (Rrr.toPay ⟨d, a, b, 5#4⟩))
  | .vmMov h d a => some (shortWord h 0x0c (Rrr.toPay ⟨d, a, 0#5, 6#4⟩))
  | .vmClz h d a => some (shortWord h 0x0c (Rrr.toPay ⟨d, a, 0#5, 7#4⟩))
  | .vmPopc h d a => some (shortWord h 0x0c (Rrr.toPay ⟨d, a, 0#5, 8#4⟩))
  | .vmBrev h d a => some (shortWord h 0x0c (Rrr.toPay ⟨d, a, 0#5, 9#4⟩))
  | .vmSext8 h d a => some (shortWord h 0x0c (Rrr.toPay ⟨d, a, 0#5, 10#4⟩))
  | .vmSext16 h d a => some (shortWord h 0x0c (Rrr.toPay ⟨d, a, 0#5, 11#4⟩))
  | .vmSati8 h d a => some (shortWord h 0x0c (Rrr.toPay ⟨d, a, 0#5, 12#4⟩))
  | .vmSati16 h d a => some (shortWord h 0x0c (Rrr.toPay ⟨d, a, 0#5, 13#4⟩))
  | .vmSatn8 h d a => some (shortWord h 0x0c (Rrr.toPay ⟨d, a, 0#5, 14#4⟩))
  | .vmSatn16 h d a => some (shortWord h 0x0c (Rrr.toPay ⟨d, a, 0#5, 15#4⟩))
  | .vcEq h d a b => some (shortWord h 0x0d (Rrr.toPay ⟨d, a, b, 0#4⟩))
  | .vcNe h d a b => some (shortWord h 0x0d (Rrr.toPay ⟨d, a, b, 1#4⟩))
  | .vcLt h d a b => some (shortWord h 0x0d (Rrr.toPay ⟨d, a, b, 2#4⟩))
  | .vcLe h d a b => some (shortWord h 0x0d (Rrr.toPay ⟨d, a, b, 3#4⟩))
  | .vcLtu h d a b => some (shortWord h 0x0d (Rrr.toPay ⟨d, a, b, 4#4⟩))
  | .vcLeu h d a b => some (shortWord h 0x0d (Rrr.toPay ⟨d, a, b, 5#4⟩))
  | .scEq h d a b => some (shortWord h 0x13 (Rrr.toPay ⟨d, a, b, 0#4⟩))
  | .scNe h d a b => some (shortWord h 0x13 (Rrr.toPay ⟨d, a, b, 1#4⟩))
  | .scLt h d a b => some (shortWord h 0x13 (Rrr.toPay ⟨d, a, b, 2#4⟩))
  | .scLe h d a b => some (shortWord h 0x13 (Rrr.toPay ⟨d, a, b, 3#4⟩))
  | .scLtu h d a b => some (shortWord h 0x13 (Rrr.toPay ⟨d, a, b, 4#4⟩))
  | .scLeu h d a b => some (shortWord h 0x13 (Rrr.toPay ⟨d, a, b, 5#4⟩))
  | .scBlen h d a => some (shortWord h 0x13 (Rrr.toPay ⟨d, a, 0#5, 6#4⟩))
  | .scSeq h d a b => some (shortWord h 0x13 (Rrr.toPay ⟨d, a, b, 8#4⟩))
  | .scSne h d a b => some (shortWord h 0x13 (Rrr.toPay ⟨d, a, b, 9#4⟩))
  | .scSlt h d a b => some (shortWord h 0x13 (Rrr.toPay ⟨d, a, b, 10#4⟩))
  | .scSle h d a b => some (shortWord h 0x13 (Rrr.toPay ⟨d, a, b, 11#4⟩))
  | .scSltu h d a b => some (shortWord h 0x13 (Rrr.toPay ⟨d, a, b, 12#4⟩))
  | .scSleu h d a b => some (shortWord h 0x13 (Rrr.toPay ⟨d, a, b, 13#4⟩))
  | .vpSel h d a b => some (shortWord h 0x0e (Rrr.toPay ⟨d, a, b, 0#4⟩))
  | .vpAnd h d a b => some (shortWord h 0x0e (Rrr.toPay ⟨d, a, b, 1#4⟩))
  | .vpOr h d a b => some (shortWord h 0x0e (Rrr.toPay ⟨d, a, b, 2#4⟩))
  | .vpXor h d a b => some (shortWord h 0x0e (Rrr.toPay ⟨d, a, b, 3#4⟩))
  | .vpAndn h d a b => some (shortWord h 0x0e (Rrr.toPay ⟨d, a, b, 4#4⟩))
  | .vpNot h d a => some (shortWord h 0x0e (Rrr.toPay ⟨d, a, 0#5, 5#4⟩))
  | .vpGet h d a => some (shortWord h 0x0e (Rrr.toPay ⟨d, a, 0#5, 6#4⟩))
  | .vpSet h d a => some (shortWord h 0x0e (Rrr.toPay ⟨d, a, 0#5, 7#4⟩))
  | .vpMvu h d a => some (shortWord h 0x0e (Rrr.toPay ⟨d, a, 0#5, 8#4⟩))
  | .vxIdx h d a b => some (shortWord h 0x0f (Rrr.toPay ⟨d, a, b, 0#4⟩))
  | .vxUp h d a b => some (shortWord h 0x0f (Rrr.toPay ⟨d, a, b, 1#4⟩))
  | .vxDown h d a b => some (shortWord h 0x0f (Rrr.toPay ⟨d, a, b, 2#4⟩))
  | .vxXor h d a b => some (shortWord h 0x0f (Rrr.toPay ⟨d, a, b, 3#4⟩))
  | .vxBcast h d a b => some (shortWord h 0x0f (Rrr.toPay ⟨d, a, b, 4#4⟩))
  | .sliLo c d i => some (longWord c 0x12 (Li.toPay ⟨d, 0#3, i⟩))
  | .sliHi c d i => some (longWord c 0x12 (Li.toPay ⟨d, 1#3, i⟩))
  | .sliSx c d i => some (longWord c 0x12 (Li.toPay ⟨d, 2#3, i⟩))
  | .sliVsx c d i => some (longWord c 0x12 (Li.toPay ⟨d, 3#3, i⟩))
  | .srRdv h d i => some (shortWord h 0x14 (Ri.toPay ⟨d, 0#2, i⟩))
  | .srRds h d i => some (shortWord h 0x14 (Ri.toPay ⟨d, 1#2, i⟩))
  | .srWrs h d i => some (shortWord h 0x14 (Ri.toPay ⟨d, 2#2, i⟩))
  | .srRdp h d i => some (shortWord h 0x14 (Ri.toPay ⟨d, 3#2, i⟩))
  | .adAdd h d a b => some (shortWord h 0x15 (Rrr.toPay ⟨d, a, b, 0#4⟩))
  | .adSub h d a b => some (shortWord h 0x15 (Rrr.toPay ⟨d, a, b, 1#4⟩))
  | .adAddx h d a b => some (shortWord h 0x15 (Rrr.toPay ⟨d, a, b, 2#4⟩))
  | .adAddz h d a b => some (shortWord h 0x15 (Rrr.toPay ⟨d, a, b, 3#4⟩))
  | .adShl h d a b => some (shortWord h 0x15 (Rrr.toPay ⟨d, a, b, 4#4⟩))
  | .adShr h d a b => some (shortWord h 0x15 (Rrr.toPay ⟨d, a, b, 5#4⟩))
  | .adMulw h d a b => some (shortWord h 0x15 (Rrr.toPay ⟨d, a, b, 6#4⟩))
  | .adMov h d a => some (shortWord h 0x15 (Rrr.toPay ⟨d, a, 0#5, 7#4⟩))
  | .adAnd h d a b => some (shortWord h 0x15 (Rrr.toPay ⟨d, a, b, 8#4⟩))
  | .adMul h d a b => some (shortWord h 0x15 (Rrr.toPay ⟨d, a, b, 9#4⟩))
  | .adEq h d a b => some (shortWord h 0x15 (Rrr.toPay ⟨d, a, b, 10#4⟩))
  | .adLtu h d a b => some (shortWord h 0x15 (Rrr.toPay ⟨d, a, b, 11#4⟩))
  | .adLt h d a b => some (shortWord h 0x15 (Rrr.toPay ⟨d, a, b, 12#4⟩))
  | .shpSq h d => some (shortWord h 0x1c (Rrr.toPay ⟨d, 0#5, 0#5, 0#4⟩))
  | .shpExp h d => some (shortWord h 0x1c (Rrr.toPay ⟨d, 0#5, 0#5, 1#4⟩))
  | .shpShape h d a => some (shortWord h 0x1c (Rrr.toPay ⟨d, a, 0#5, 2#4⟩))
  | .shpRdx h d a => some (shortWord h 0x1c (Rrr.toPay ⟨d, a, 0#5, 3#4⟩))
  | .shpWrx h d a => some (shortWord h 0x1c (Rrr.toPay ⟨d, a, 0#5, 4#4⟩))
  | .vf32Add h d a b => some (shortWord h 0x16 (Rrr.toPay ⟨d, a, b, 0#4⟩))
  | .vf32Sub h d a b => some (shortWord h 0x16 (Rrr.toPay ⟨d, a, b, 1#4⟩))
  | .vf32Mul h d a b => some (shortWord h 0x16 (Rrr.toPay ⟨d, a, b, 2#4⟩))
  | .vf32Fma h d a b => some (shortWord h 0x16 (Rrr.toPay ⟨d, a, b, 3#4⟩))
  | .vf32Fms h d a b => some (shortWord h 0x16 (Rrr.toPay ⟨d, a, b, 4#4⟩))
  | .vf32Min h d a b => some (shortWord h 0x16 (Rrr.toPay ⟨d, a, b, 5#4⟩))
  | .vf32Max h d a b => some (shortWord h 0x16 (Rrr.toPay ⟨d, a, b, 6#4⟩))
  | .vf32Abs h d a => some (shortWord h 0x16 (Rrr.toPay ⟨d, a, 0#5, 7#4⟩))
  | .vf32Neg h d a => some (shortWord h 0x16 (Rrr.toPay ⟨d, a, 0#5, 8#4⟩))
  | .vf32Cpsgn h d a b => some (shortWord h 0x16 (Rrr.toPay ⟨d, a, b, 9#4⟩))
  | .vf32Rint h d a => some (shortWord h 0x16 (Rrr.toPay ⟨d, a, 0#5, 10#4⟩))
  | .vf16Add h d a b => some (shortWord h 0x17 (Rrr.toPay ⟨d, a, b, 0#4⟩))
  | .vf16Sub h d a b => some (shortWord h 0x17 (Rrr.toPay ⟨d, a, b, 1#4⟩))
  | .vf16Mul h d a b => some (shortWord h 0x17 (Rrr.toPay ⟨d, a, b, 2#4⟩))
  | .vf16Fma h d a b => some (shortWord h 0x17 (Rrr.toPay ⟨d, a, b, 3#4⟩))
  | .vf16Min h d a b => some (shortWord h 0x17 (Rrr.toPay ⟨d, a, b, 4#4⟩))
  | .vf16Max h d a b => some (shortWord h 0x17 (Rrr.toPay ⟨d, a, b, 5#4⟩))
  | .vf16Neg h d a => some (shortWord h 0x17 (Rrr.toPay ⟨d, a, 0#5, 6#4⟩))
  | .vf16Abs h d a => some (shortWord h 0x17 (Rrr.toPay ⟨d, a, 0#5, 7#4⟩))
  | .vf16Badd h d a b => some (shortWord h 0x17 (Rrr.toPay ⟨d, a, b, 8#4⟩))
  | .vf16Bsub h d a b => some (shortWord h 0x17 (Rrr.toPay ⟨d, a, b, 9#4⟩))
  | .vf16Bmul h d a b => some (shortWord h 0x17 (Rrr.toPay ⟨d, a, b, 10#4⟩))
  | .vf16Bfma h d a b => some (shortWord h 0x17 (Rrr.toPay ⟨d, a, b, 11#4⟩))
  | .vf16Bmin h d a b => some (shortWord h 0x17 (Rrr.toPay ⟨d, a, b, 12#4⟩))
  | .vf16Bmax h d a b => some (shortWord h 0x17 (Rrr.toPay ⟨d, a, b, 13#4⟩))
  | .vf16Bneg h d a => some (shortWord h 0x17 (Rrr.toPay ⟨d, a, 0#5, 14#4⟩))
  | .vf16Babs h d a => some (shortWord h 0x17 (Rrr.toPay ⟨d, a, 0#5, 15#4⟩))
  | .vfxDiv h d a b => some (shortWord h 0x18 (Rrr.toPay ⟨d, a, b, 0#4⟩))
  | .vfxSqrt h d a => some (shortWord h 0x18 (Rrr.toPay ⟨d, a, 0#5, 1#4⟩))
  | .vfxRcp h d a => some (shortWord h 0x18 (Rrr.toPay ⟨d, a, 0#5, 2#4⟩))
  | .vfxRsq h d a => some (shortWord h 0x18 (Rrr.toPay ⟨d, a, 0#5, 3#4⟩))
  | .vfxExp2 h d a => some (shortWord h 0x18 (Rrr.toPay ⟨d, a, 0#5, 4#4⟩))
  | .vfxLog2 h d a => some (shortWord h 0x18 (Rrr.toPay ⟨d, a, 0#5, 5#4⟩))
  | .vfxSinpi h d a => some (shortWord h 0x18 (Rrr.toPay ⟨d, a, 0#5, 6#4⟩))
  | .vfxCospi h d a => some (shortWord h 0x18 (Rrr.toPay ⟨d, a, 0#5, 7#4⟩))
  | .vcvF32i h d a => some (shortWord h 0x19 (Rrr.toPay ⟨d, a, 0#5, 0#4⟩))
  | .vcvF32n h d a => some (shortWord h 0x19 (Rrr.toPay ⟨d, a, 0#5, 1#4⟩))
  | .vcvI32f h d a => some (shortWord h 0x19 (Rrr.toPay ⟨d, a, 0#5, 2#4⟩))
  | .vcvN32f h d a => some (shortWord h 0x19 (Rrr.toPay ⟨d, a, 0#5, 3#4⟩))
  | .vcvPkh h d a b => some (shortWord h 0x19 (Rrr.toPay ⟨d, a, b, 4#4⟩))
  | .vcvPkb h d a b => some (shortWord h 0x19 (Rrr.toPay ⟨d, a, b, 5#4⟩))
  | .vcvUhl h d a => some (shortWord h 0x19 (Rrr.toPay ⟨d, a, 0#5, 6#4⟩))
  | .vcvUhh h d a => some (shortWord h 0x19 (Rrr.toPay ⟨d, a, 0#5, 7#4⟩))
  | .vcvUbl h d a => some (shortWord h 0x19 (Rrr.toPay ⟨d, a, 0#5, 8#4⟩))
  | .vcvUbh h d a => some (shortWord h 0x19 (Rrr.toPay ⟨d, a, 0#5, 9#4⟩))
  | .vcvIe4 h d a b => some (shortWord h 0x19 (Rrr.toPay ⟨d, a, b, 10#4⟩))
  | .vcvIe5 h d a b => some (shortWord h 0x19 (Rrr.toPay ⟨d, a, b, 11#4⟩))
  | .vcvXe4 h d a b => some (shortWord h 0x19 (Rrr.toPay ⟨d, a, b, 12#4⟩))
  | .vcvXe5 h d a b => some (shortWord h 0x19 (Rrr.toPay ⟨d, a, b, 13#4⟩))
  | .vfcEq h d a b => some (shortWord h 0x1a (Rrr.toPay ⟨d, a, b, 0#4⟩))
  | .vfcNe h d a b => some (shortWord h 0x1a (Rrr.toPay ⟨d, a, b, 1#4⟩))
  | .vfcLt h d a b => some (shortWord h 0x1a (Rrr.toPay ⟨d, a, b, 2#4⟩))
  | .vfcLe h d a b => some (shortWord h 0x1a (Rrr.toPay ⟨d, a, b, 3#4⟩))
  | .vfcUn h d a b => some (shortWord h 0x1a (Rrr.toPay ⟨d, a, b, 4#4⟩))
  | .vfcClass h d a => some (shortWord h 0x1a (Rrr.toPay ⟨d, a, 0#5, 5#4⟩))
  | .vqQ16 h d a b => some (shortWord h 0x1b (Rrr.toPay ⟨d, a, b, 0#4⟩))
  | .vqQ32 h d a b => some (shortWord h 0x1b (Rrr.toPay ⟨d, a, b, 1#4⟩))
  | .vqPk4 h d a => some (shortWord h 0x1b (Rrr.toPay ⟨d, a, 0#5, 2#4⟩))
  | .vqDq4 h d a b => some (shortWord h 0x1b (Rrr.toPay ⟨d, a, b, 3#4⟩))
  | .vqQe16 h d a b => some (shortWord h 0x1b (Rrr.toPay ⟨d, a, b, 4#4⟩))
  | .vqQe32 h d a b => some (shortWord h 0x1b (Rrr.toPay ⟨d, a, b, 5#4⟩))
  | .vqPk8 h d a => some (shortWord h 0x1b (Rrr.toPay ⟨d, a, 0#5, 6#4⟩))
  | .vqDq8 h d a b => some (shortWord h 0x1b (Rrr.toPay ⟨d, a, b, 7#4⟩))
  | .ld h d a o z q => some (shortWord h 0x1d (Mem.toPay ⟨d, a, 0#1, o, z, q⟩))
  | .ldImm h d a i z q => some (shortWord h 0x1d (Mem.toPay ⟨d, a, 1#1, i, z, q⟩))
  | .st h d a o z q => some (shortWord h 0x1e (Mem.toPay ⟨d, a, 0#1, o, z, q⟩))
  | .stImm h d a i z q => some (shortWord h 0x1e (Mem.toPay ⟨d, a, 1#1, i, z, q⟩))
  | .ldu h d a o z q => some (shortWord h 0x1f (Mem.toPay ⟨d, a, 0#1, o, z, q⟩))
  | .lduImm h d a i z q => some (shortWord h 0x1f (Mem.toPay ⟨d, a, 1#1, i, z, q⟩))
  | .stu h d a o z q => some (shortWord h 0x20 (Mem.toPay ⟨d, a, 0#1, o, z, q⟩))
  | .stuImm h d a i z q => some (shortWord h 0x20 (Mem.toPay ⟨d, a, 1#1, i, z, q⟩))
  | .atmAdd c d a y q => some (longWord c 0x21 (At.toPay ⟨d, a, 0#3, y, q, 0#4⟩))
  | .atmMin c d a y q => some (longWord c 0x21 (At.toPay ⟨d, a, 1#3, y, q, 0#4⟩))
  | .atmMax c d a y q => some (longWord c 0x21 (At.toPay ⟨d, a, 2#3, y, q, 0#4⟩))
  | .atmAnd c d a y q => some (longWord c 0x21 (At.toPay ⟨d, a, 3#3, y, q, 0#4⟩))
  | .atmOr c d a y q => some (longWord c 0x21 (At.toPay ⟨d, a, 4#3, y, q, 0#4⟩))
  | .atmXor c d a y q => some (longWord c 0x21 (At.toPay ⟨d, a, 5#3, y, q, 0#4⟩))
  | .atmExch c d a y q => some (longWord c 0x21 (At.toPay ⟨d, a, 6#3, y, q, 0#4⟩))
  | .atmCas c d a y q => some (longWord c 0x21 (At.toPay ⟨d, a, 7#3, y, q, 0#4⟩))
  | .fenceRel h k => some (shortWord h 0x22 (Ri.toPay ⟨0#5, 0#2, (0#9 ++ k)⟩))
  | .fenceAcq h k => some (shortWord h 0x22 (Ri.toPay ⟨0#5, 1#2, (0#9 ++ k)⟩))
  | .fenceFull h k => some (shortWord h 0x22 (Ri.toPay ⟨0#5, 2#2, (0#9 ++ k)⟩))
  | .fenceOprRel h => some (shortWord h 0x22 (Ri.toPay ⟨0#5, 3#2, 0#12⟩))
  | .fenceOprAcq h => some (shortWord h 0x22 (Ri.toPay ⟨0#5, 3#2, 1#12⟩))
  | .lds h d a f i => some (shortWord h 0x23 (Rri.toPay ⟨d, a, f, i⟩))
  | .sts h d a f i => some (shortWord h 0x24 (Rri.toPay ⟨d, a, f, i⟩))
  | .stagLook h d a => some (shortWord h 0x25 (Rrr.toPay ⟨d, a, 0#5, 0#4⟩))
  | .stagSet h d a b => some (shortWord h 0x25 (Rrr.toPay ⟨d, a, b, 1#4⟩))
  | .stagInv h d => some (shortWord h 0x25 (Rrr.toPay ⟨d, 0#5, 0#5, 2#4⟩))
  | .stagClr h => some (shortWord h 0x25 (Rrr.toPay ⟨0#5, 0#5, 0#5, 3#4⟩))
  | .cbRes h d n => some (shortWord h 0x26 (Rri.toPay ⟨d, 0#5, 0#3, (0#2 ++ n)⟩))
  | .cbCom h a n => some (shortWord h 0x26 (Rri.toPay ⟨0#5, a, 1#3, (0#2 ++ n)⟩))
  | .cbWait h d n => some (shortWord h 0x26 (Rri.toPay ⟨d, 0#5, 2#3, (0#2 ++ n)⟩))
  | .cbPop h n => some (shortWord h 0x26 (Rri.toPay ⟨0#5, 0#5, 3#3, (0#2 ++ n)⟩))
  | .cbSa h d a n => some (shortWord h 0x26 (Rri.toPay ⟨d, a, 4#3, (0#2 ++ n)⟩))
  | .cpG2s h d a b => some (shortWord h 0x27 (Rrr.toPay ⟨d, a, b, 0#4⟩))
  | .cpS2g h d a b => some (shortWord h 0x27 (Rrr.toPay ⟨d, a, b, 1#4⟩))
  | .cpS2s h d a b => some (shortWord h 0x27 (Rrr.toPay ⟨d, a, b, 2#4⟩))
  | .cpGat h d a b => some (shortWord h 0x27 (Rrr.toPay ⟨d, a, b, 3#4⟩))
  | .cpT2h h d a b => some (shortWord h 0x27 (Rrr.toPay ⟨d, a, b, 4#4⟩))
  | .wta h d a b r z w => some (shortWord h 0x28 (Rrr.toPay ⟨d, a, b, (r ++ z ++ w)⟩))
  | .tcfgSet h d a => some (shortWord h 0x29 (Rrr.toPay ⟨d, a, 0#5, 0#4⟩))
  | .tcfgRows h d a => some (shortWord h 0x29 (Rrr.toPay ⟨d, a, 0#5, 1#4⟩))
  | .tcfgCols h d a => some (shortWord h 0x29 (Rrr.toPay ⟨d, a, 0#5, 2#4⟩))
  | .tcfgKext h d a => some (shortWord h 0x29 (Rrr.toPay ⟨d, a, 0#5, 3#4⟩))
  | .tcfgStg h d a => some (shortWord h 0x29 (Rrr.toPay ⟨d, a, 0#5, 4#4⟩))
  | .tcfgFl h d a => some (shortWord h 0x29 (Rrr.toPay ⟨d, a, 0#5, 5#4⟩))
  | .tld h d a o z q => some (shortWord h 0x2a (Mem.toPay ⟨d, a, 0#1, o, z, q⟩))
  | .tldImm h d a i z q => some (shortWord h 0x2a (Mem.toPay ⟨d, a, 1#1, i, z, q⟩))
  | .tst h d a o z q => some (shortWord h 0x2b (Mem.toPay ⟨d, a, 0#1, o, z, q⟩))
  | .tstImm h d a i z q => some (shortWord h 0x2b (Mem.toPay ⟨d, a, 1#1, i, z, q⟩))
  | .mmaAcc h d a b k => some (shortWord h 0x2c (Rrr.toPay ⟨d, a, b, (0#1 ++ k)⟩))
  | .mmaSet h d a b k => some (shortWord h 0x2c (Rrr.toPay ⟨d, a, b, (1#1 ++ k)⟩))
  | .mxHad h d a b => some (shortWord h 0x2d (Rrr.toPay ⟨d, a, b, 0#4⟩))
  | .mxPerm h d a b => some (shortWord h 0x2d (Rrr.toPay ⟨d, a, b, 1#4⟩))
  | .accZero h d => some (shortWord h 0x2e (Rrr.toPay ⟨d, 0#5, 0#5, 0#4⟩))
  | .accRd h d a b => some (shortWord h 0x2e (Rrr.toPay ⟨d, a, b, 1#4⟩))
  | .accWr h d a b => some (shortWord h 0x2e (Rrr.toPay ⟨d, a, b, 2#4⟩))
  | .accWid h d a b => some (shortWord h 0x2e (Rrr.toPay ⟨d, a, b, 3#4⟩))
  | .accNar h d a b => some (shortWord h 0x2e (Rrr.toPay ⟨d, a, b, 4#4⟩))
  | .accQ2 h d a b => some (shortWord h 0x2e (Rrr.toPay ⟨d, a, b, 5#4⟩))
  | .accQe h d a b => some (shortWord h 0x2e (Rrr.toPay ⟨d, a, b, 6#4⟩))
  | .lnchRec h d a => some (shortWord h 0x2f (Rrr.toPay ⟨d, a, 0#5, 0#4⟩))
  | .lnchTrig h a => some (shortWord h 0x2f (Rrr.toPay ⟨0#5, a, 0#5, 1#4⟩))
  | .lnchCncl h a => some (shortWord h 0x2f (Rrr.toPay ⟨0#5, a, 0#5, 2#4⟩))
  | .pwrReq h d => some (shortWord h 0x30 (Ri.toPay ⟨d, 0#2, 0#12⟩))
  | .pwrCls h d => some (shortWord h 0x30 (Ri.toPay ⟨d, 1#2, 0#12⟩))
  | .pwrPool h d => some (shortWord h 0x30 (Ri.toPay ⟨d, 2#2, 0#12⟩))
  | .tmWtill h a => some (shortWord h 0x31 (Rrr.toPay ⟨0#5, a, 0#5, 0#4⟩))
  | .tmWrel h a => some (shortWord h 0x31 (Rrr.toPay ⟨0#5, a, 0#5, 1#4⟩))
  | .tmRd h d => some (shortWord h 0x31 (Rrr.toPay ⟨d, 0#5, 0#5, 2#4⟩))
  | .dbgBrk h => some (shortWord h 0x32 (Ri.toPay ⟨0#5, 0#2, 0#12⟩))
  | .dbgProg h d n => some (shortWord h 0x32 (Ri.toPay ⟨d, 1#2, (0#8 ++ n)⟩))
  | .sysRdid h d a => some (shortWord h 0x33 (Rrr.toPay ⟨d, a, 0#5, 0#4⟩))
  | .sysTret h => some (shortWord h 0x33 (Rrr.toPay ⟨0#5, 0#5, 0#5, 1#4⟩))
  | .sysCinv h => some (shortWord h 0x33 (Rrr.toPay ⟨0#5, 0#5, 0#5, 2#4⟩))
  | .sysTvt h a => some (shortWord h 0x33 (Rrr.toPay ⟨0#5, a, 0#5, 3#4⟩))
  | _ => none

end Sys2Proof
end

