-- ==== Sys2Proof/Machine/Flags.lean ====
section
/-! DEFINITION. Sys2Proof/Machine/Flags.lean: the number formats, their rounding, and every flag of %fflags that a result sets
(R83 to R92, R252 to R262). Codes are natural numbers; values are exact (integers times powers of two, or quotients). -/

namespace Sys2Proof.Machine

/-! ## Flags (R86) -/

/-- The bits of %fflags, NV in bit 0 to NX in bit 4. -/
abbrev FFlags := BitVec 5
/-- Invalid operation. -/
def FFlags.nv : FFlags := 1
/-- Division of a finite nonzero value by zero. -/
def FFlags.dz : FFlags := 2
/-- Overflow. -/
def FFlags.of : FFlags := 4
/-- Tiny and inexact. -/
def FFlags.uf : FFlags := 8
/-- Inexact. -/
def FFlags.nx : FFlags := 16

/-- A flag when a condition holds. -/
def FFlags.when (b : Bool) (f : FFlags) : FFlags := if b then f else 0

/-- The rounding modes of %fmode.RM (R86). -/
inductive RMode where
  | rne | rz | ru | rd
  deriving DecidableEq, Repr

/-- RM of %fmode. -/
def RMode.ofFmode (m : Half) : RMode :=
  match (m.extractLsb' 0 2).toNat with
  | 0 => .rne | 1 => .rz | 2 => .ru | _ => .rd

/-! ## Values and formats (R83) -/

/-- An exact value of a floating-point code: ±m · 2^e, an infinity, or a NaN. -/
inductive FVal where
  | nan (signalling : Bool)
  | inf (neg : Bool)
  | fin (neg : Bool) (m : Nat) (e : Int)
  deriving DecidableEq, Repr

/-- A format: exponent bits, mantissa bits, bias, and which code space the special values take. -/
structure Fmt where
  E : Nat
  M : Nat
  B : Nat
  ieee : Bool
  quiet : Bool
  deriving DecidableEq, Repr

/-- f32. -/
def Fmt.f32 : Fmt := ⟨8, 23, 127, true, false⟩
/-- f16. -/
def Fmt.f16 : Fmt := ⟨5, 10, 15, true, false⟩
/-- bf16. -/
def Fmt.bf16 : Fmt := ⟨8, 7, 127, true, false⟩
/-- e4m3: no infinity, one NaN magnitude. -/
def Fmt.e4m3 : Fmt := ⟨4, 3, 7, false, true⟩
/-- e5m2. -/
def Fmt.e5m2 : Fmt := ⟨5, 2, 15, true, true⟩

/-- Bits below the sign. -/
def Fmt.magBits (f : Fmt) : Nat := f.E + f.M
/-- The code of the largest finite magnitude. -/
def Fmt.maxCode (f : Fmt) : Nat := if f.ieee then (2 ^ f.E - 1) * 2 ^ f.M - 1 else 2 ^ (f.E + f.M) - 2
/-- The magnitude code of infinity. -/
def Fmt.infCode (f : Fmt) : Nat := (2 ^ f.E - 1) * 2 ^ f.M
/-- The canonical NaN (R88). -/
def Fmt.nanCode (f : Fmt) : Nat := if f.ieee then (2 ^ f.E - 1) * 2 ^ f.M + 2 ^ (f.M - 1) else 2 ^ (f.E + f.M) - 1
/-- The code of a sign and a magnitude. -/
def Fmt.sign (f : Fmt) (neg : Bool) (mag : Nat) : Nat := if neg then 2 ^ f.magBits + mag else mag

/-- The value of a code (R83, R88). -/
def Fmt.dec (f : Fmt) (code : Nat) : FVal :=
  let neg := code / 2 ^ f.magBits % 2 == 1
  let x := code / 2 ^ f.M % 2 ^ f.E
  let m := code % 2 ^ f.M
  if f.ieee && x == 2 ^ f.E - 1 then
    if m == 0 then .inf neg else .nan (!f.quiet && m < 2 ^ (f.M - 1))
  else if !f.ieee && code % 2 ^ f.magBits == 2 ^ f.magBits - 1 then .nan false
  else if x == 0 then .fin neg m (1 - (f.B : Int) - f.M)
  else .fin neg (m + 2 ^ f.M) ((x : Int) - f.B - f.M)

/-- A NaN. -/
def FVal.isNan : FVal → Bool
  | .nan _ => true
  | _ => false
/-- A signalling NaN. -/
def FVal.isSig : FVal → Bool
  | .nan b => b
  | _ => false
/-- The sign. -/
def FVal.neg? : FVal → Bool
  | .nan _ => false
  | .inf n => n
  | .fin n _ _ => n
/-- A zero. -/
def FVal.isZero : FVal → Bool
  | .fin _ m _ => m == 0
  | _ => false
/-- The value with its sign inverted. -/
def FVal.negate : FVal → FVal
  | .nan b => .nan b
  | .inf n => .inf !n
  | .fin n m e => .fin (!n) m e

/-! ## Rounding (R87, R89) -/

/-- Whether a discarded remainder rounds the magnitude up: `rem` against `half`, and a sticky bit below it. -/
def roundUp (rm : RMode) (neg odd : Bool) (rem half : Nat) (sticky : Bool) : Bool :=
  match rm with
  | .rne => if rem == half then sticky || odd else decide (rem > half)
  | .rz => false
  | .ru => !neg && (rem != 0 || sticky)
  | .rd => neg && (rem != 0 || sticky)

/-- `num / 2^k` rounded to an integer, and whether it is inexact. -/
def shiftRound (rm : RMode) (neg : Bool) (num k : Nat) (sticky : Bool) : Nat × Bool :=
  if k = 0 then
    (if !sticky then num else if roundUp rm neg (num % 2 == 1) 0 1 sticky then num + 1 else num, sticky)
  else
    let q := num / 2 ^ k
    let r := num % 2 ^ k
    (if roundUp rm neg (q % 2 == 1) r (2 ^ (k - 1)) sticky then q + 1 else q, r != 0 || sticky)

/-- A rounded magnitude: its code with no bound on the exponent field, whether inexact, and whether tiny after rounding with an
unbounded exponent. -/
structure Rounded where
  code : Nat
  inexact : Bool
  tiny : Bool
  deriving DecidableEq, Repr

/-- The magnitude `num · 2^e` (and a bit more when sticky), num ≠ 0, rounded to the precision of the format. -/
def Fmt.roundMag (f : Fmt) (rm : RMode) (neg : Bool) (num : Nat) (e : Int) (sticky : Bool) : Rounded :=
  let top : Int := (num.log2 : Int) + e
  let emin : Int := 1 - (f.B : Int)
  let q := max top emin - f.M
  let at_ (q : Int) : Nat × Bool :=
    if e ≥ q ∧ !sticky then (num * 2 ^ (e - q).toNat, false)
    else if e ≥ q then shiftRound rm neg (num * 2 ^ ((e - q).toNat + 2)) 2 sticky
    else shiftRound rm neg num (q - e).toNat sticky
  let (m, ix) := at_ q
  let field := (q + f.M + f.B).toNat
  let code := field * 2 ^ f.M + m - 2 ^ f.M
  let (mu, _) := at_ (top - f.M)
  let tiny := decide (top < emin) && (mu < 2 ^ (f.M + 1) || decide (top + 1 < emin))
  ⟨code, ix, tiny⟩

/-- The flags and code of a rounded magnitude: overflow gives an infinity or the largest finite magnitude by the mode (R87), or always
the latter when narrowing (R89). -/
def Fmt.pack (f : Fmt) (rm : RMode) (neg sat : Bool) (r : Rounded) : Nat × FFlags :=
  if r.code > f.maxCode then
    let toMax := sat || !f.ieee || (match rm with | .rne => false | .rz => true | .ru => neg | .rd => !neg)
    (f.sign neg (if toMax then f.maxCode else f.infCode), FFlags.of ||| FFlags.nx)
  else
    (f.sign neg r.code, FFlags.when r.inexact FFlags.nx ||| FFlags.when (r.tiny && r.inexact) FFlags.uf)

/-- An exact value rounded once (rnd of R213); `sat` for the narrowing of R89. -/
def Fmt.rnd (f : Fmt) (rm : RMode) (sat : Bool) : FVal → Nat × FFlags
  | .nan sig => (f.nanCode, FFlags.when sig FFlags.nv)
  | .inf n =>
    if sat || !f.ieee then (f.sign n f.maxCode, FFlags.of ||| FFlags.nx) else (f.sign n f.infCode, 0)
  | .fin n m e => if m = 0 then (f.sign n 0, 0) else f.pack rm n sat (f.roundMag rm n m e false)

/-- A quotient of naturals (num ≠ 0, den ≠ 0) times 2^e, rounded once. -/
def Fmt.rndQuot (f : Fmt) (rm : RMode) (sat neg : Bool) (num den : Nat) (e : Int) : Nat × FFlags :=
  let s := f.M + 4 + den.log2
  let q := num * 2 ^ s / den
  let r := num * 2 ^ s % den
  f.pack rm neg sat (f.roundMag rm neg q (e - s) (r != 0))

/-! ## Exact sums and products -/

/-- An integer times a power of two. -/
structure Dy where
  n : Int
  e : Int
  deriving DecidableEq, Repr

/-- The dyadic of a finite value. -/
def FVal.dy : FVal → Dy
  | .fin n m e => ⟨if n then -(m : Int) else m, e⟩
  | _ => ⟨0, 0⟩

/-- The exact sum. -/
def Dy.add (a b : Dy) : Dy :=
  let e := min a.e b.e
  ⟨a.n * 2 ^ (a.e - e).toNat + b.n * 2 ^ (b.e - e).toNat, e⟩
/-- The exact product. -/
def Dy.mul (a b : Dy) : Dy := ⟨a.n * b.n, a.e + b.e⟩
/-- The dyadic as a value; a zero takes the sign given. -/
def Dy.toVal (zeroNeg : Bool) (a : Dy) : FVal :=
  if a.n = 0 then .fin zeroNeg 0 a.e else .fin (a.n < 0) a.n.natAbs a.e

/-- a + b exactly, with the sign of an exact zero (R252), and NV for ∞ − ∞. Signalling operands are the caller's. -/
def FVal.add (rm : RMode) (a b : FVal) : FVal × FFlags :=
  match a, b with
  | .nan s, y => (.nan false, FFlags.when (s || y.isSig) FFlags.nv)
  | x, .nan s => (.nan false, FFlags.when (s || x.isSig) FFlags.nv)
  | .inf m, .inf n => if m = n then (.inf m, 0) else (.nan false, FFlags.nv)
  | .inf m, _ => (.inf m, 0)
  | _, .inf n => (.inf n, 0)
  | .fin m x e, .fin n y k =>
    let s := (FVal.fin m x e).dy.add (FVal.fin n y k).dy
    let zneg := if x = 0 && y = 0 && m = n then m else rm == .rd
    (s.toVal zneg, 0)

/-- a · b exactly, and NV for 0 · ∞ and signalling operands. -/
def FVal.mul (a b : FVal) : FVal × FFlags :=
  match a, b with
  | .nan s, y => (.nan false, FFlags.when (s || y.isSig) FFlags.nv)
  | x, .nan s => (.nan false, FFlags.when (s || x.isSig) FFlags.nv)
  | .inf m, y => if y.isZero then (.nan false, FFlags.nv) else (.inf (m != y.neg?), 0)
  | x, .inf n => if x.isZero then (.nan false, FFlags.nv) else (.inf (x.neg? != n), 0)
  | .fin m x e, .fin n y k => (.fin (m != n) (x * y) (e + k), 0)

/-! ## Elementwise arithmetic (R252, R253) -/

/-- The forms of vf32 and vf16. -/
inductive FOp where
  | add | sub | mul | fma | fms | min | max | abs | neg | cpsgn | rint
  deriving DecidableEq, Repr

/-- Finite or infinite values in order: −1 below, 0 equal (zeros equal), 1 above. -/
def FVal.compare (a b : FVal) : Int :=
  match a, b with
  | .inf m, .inf n => if m = n then 0 else if m then -1 else 1
  | .inf m, _ => if m then -1 else 1
  | _, .inf n => if n then 1 else -1
  | x, y =>
    let d := (x.dy.add y.negate.dy).n
    if d < 0 then -1 else if d = 0 then 0 else 1

/-- Whether a is below b where −0 is below +0 (R88). -/
def FVal.below (a b : FVal) : Bool :=
  let c := a.compare b
  c < 0 || (c = 0 && a.neg? && !b.neg?)

/-- The integer nearest to a finite value by the mode, and whether it differs. -/
def roundInt (rm : RMode) (neg : Bool) (m : Nat) (e : Int) : Int × Bool :=
  let (q, ix) := if e ≥ 0 then (m * 2 ^ e.toNat, false) else shiftRound rm neg m (-e).toNat false
  (if neg then -(q : Int) else q, ix)

/-- One elementwise operation on codes of a format: d for the fused forms. -/
def Fmt.op (f : Fmt) (rm : RMode) (o : FOp) (a b d : Nat) : Nat × FFlags :=
  let x := f.dec a
  let y := f.dec b
  match o with
  | .add =>
    let (v, fl) := x.add rm y
    let (c, g) := f.rnd rm false v
    (c, fl ||| g)
  | .sub =>
    let (v, fl) := x.add rm y.negate
    let (c, g) := f.rnd rm false v
    (c, fl ||| g)
  | .mul =>
    let (v, fl) := x.mul y
    let (c, g) := f.rnd rm false v
    (c, fl ||| g)
  | .fma =>
    let (p, fl) := x.mul y
    let (v, gl) := (f.dec d).add rm p
    let (c, g) := f.rnd rm false v
    (c, fl ||| gl ||| g)
  | .fms =>
    let (p, fl) := x.mul y
    let (v, gl) := (f.dec d).add rm p.negate
    let (c, g) := f.rnd rm false v
    (c, fl ||| gl ||| g)
  | .min =>
    if x.isNan || y.isNan then (f.nanCode, FFlags.when (x.isSig || y.isSig) FFlags.nv)
    else (if y.below x then b else a, 0)
  | .max =>
    if x.isNan || y.isNan then (f.nanCode, FFlags.when (x.isSig || y.isSig) FFlags.nv)
    else (if x.below y then b else a, 0)
  | .abs =>
    if x.isNan then (f.nanCode, FFlags.when x.isSig FFlags.nv) else (f.sign false (a % 2 ^ f.magBits), 0)
  | .neg =>
    if x.isNan then (f.nanCode, FFlags.when x.isSig FFlags.nv) else (f.sign (!x.neg?) (a % 2 ^ f.magBits), 0)
  | .cpsgn =>
    if x.isNan || y.isNan then (f.nanCode, FFlags.when (x.isSig || y.isSig) FFlags.nv)
    else (f.sign (b / 2 ^ f.magBits % 2 == 1) (a % 2 ^ f.magBits), 0)
  | .rint =>
    match x with
    | .nan s => (f.nanCode, FFlags.when s FFlags.nv)
    | .inf _ => (a, 0)
    | .fin n m e =>
      let (q, ix) := roundInt rm n m e
      let (c, _) := f.rnd rm false (.fin n q.natAbs 0)
      (c, FFlags.when ix FFlags.nx)

/-- The f32 form on words. -/
def f32op (rm : RMode) (o : FOp) (a b d : Word) : Word × FFlags :=
  let (c, fl) := Fmt.f32.op rm o a.toNat b.toNat d.toNat
  (BitVec.ofNat 32 c, fl)

/-- The packed form on both halves of a word (R253). -/
def f16op (f : Fmt) (rm : RMode) (o : FOp) (a b d : Word) : Word × FFlags :=
  let h (w : Word) (k : Nat) : Nat := (w.extractLsb' (16 * k) 16).toNat
  let (c0, f0) := f.op rm o (h a 0) (h b 0) (h d 0)
  let (c1, f1) := f.op rm o (h a 1) (h b 1) (h d 1)
  (BitVec.ofNat 16 c1 ++ BitVec.ofNat 16 c0, f0 ||| f1)

/-! ## Conversions (R89, R256) -/

/-- A code of one format converted to another; `sat` when the destination is narrower. -/
def cvtFloat (src dst : Fmt) (rm : RMode) (sat : Bool) (a : Nat) : Nat × FFlags := dst.rnd rm sat (src.dec a)

/-- A float code to an integer of a range, saturating (R89). -/
def cvtInt (src : Fmt) (rm : RMode) (lo hi : Int) (a : Nat) : Int × FFlags :=
  match src.dec a with
  | .nan _ => (0, FFlags.nv)
  | .inf n => (if n then lo else hi, FFlags.nv)
  | .fin n m e =>
    let (q, ix) := roundInt rm n m e
    if q < lo then (lo, FFlags.nv) else if q > hi then (hi, FFlags.nv) else (q, FFlags.when ix FFlags.nx)

/-- An integer to f32, to nearest even (R89). -/
def cvtOfInt (x : Int) : Nat × FFlags :=
  if x = 0 then (0, 0) else Fmt.f32.rnd .rne false (.fin (x < 0) x.natAbs 0)

/-! ## Compares and classes (R257) -/

/-- The relations of vfc. -/
inductive FCmp where
  | eq | ne | lt | le | un
  deriving DecidableEq, Repr

/-- A compare of two f32 words: the bit and the flags. -/
def f32cmp (c : FCmp) (a b : Word) : Bool × FFlags :=
  let x := Fmt.f32.dec a.toNat
  let y := Fmt.f32.dec b.toNat
  let un := x.isNan || y.isNan
  let sig := x.isSig || y.isSig
  match c with
  | .eq => (!un && x.compare y = 0, FFlags.when sig FFlags.nv)
  | .ne => (un || x.compare y ≠ 0, FFlags.when sig FFlags.nv)
  | .lt => (!un && x.compare y < 0, FFlags.when un FFlags.nv)
  | .le => (!un && x.compare y ≤ 0, FFlags.when un FFlags.nv)
  | .un => (un, FFlags.when sig FFlags.nv)

/-- The class mask of an f32 word. -/
def f32class (a : Word) : Word :=
  match Fmt.f32.dec a.toNat with
  | .nan s => if s then 0x100 else 0x200
  | .inf n => if n then 0x001 else 0x080
  | .fin n m _ =>
    if m = 0 then (if n then 0x008 else 0x010)
    else if m < 2 ^ 23 then (if n then 0x004 else 0x020)
    else (if n then 0x002 else 0x040)

/-! ## Division, roots and the bounded forms (R254, R255) -/

/-- vfx.div. -/
def f32div (rm : RMode) (a b : Word) : Word × FFlags :=
  let x := Fmt.f32.dec a.toNat
  let y := Fmt.f32.dec b.toNat
  let out (r : Nat × FFlags) : Word × FFlags := (BitVec.ofNat 32 r.1, r.2)
  match x, y with
  | .nan s, z => out (Fmt.f32.nanCode, FFlags.when (s || z.isSig) FFlags.nv)
  | z, .nan s => out (Fmt.f32.nanCode, FFlags.when (s || z.isSig) FFlags.nv)
  | .inf _, .inf _ => out (Fmt.f32.nanCode, FFlags.nv)
  | .inf m, z => out (Fmt.f32.sign (m != z.neg?) Fmt.f32.infCode, 0)
  | z, .inf n => out (Fmt.f32.sign (z.neg? != n) 0, 0)
  | .fin m p e, .fin n q k =>
    if q = 0 then
      if p = 0 then out (Fmt.f32.nanCode, FFlags.nv) else out (Fmt.f32.sign (m != n) Fmt.f32.infCode, FFlags.dz)
    else if p = 0 then out (Fmt.f32.sign (m != n) 0, 0)
    else out (Fmt.f32.rndQuot rm false (m != n) p q (e - k))

/-- The integer square root, by bisection on bits from `k` down. -/
def isqrtBits (n : Nat) : Nat → Nat → Nat
  | 0, r => r
  | k + 1, r =>
    let t := r + 2 ^ k
    isqrtBits n k (if t * t ≤ n then t else r)

/-- The integer square root. -/
def isqrt (n : Nat) : Nat := isqrtBits n (n.log2 / 2 + 1) 0

/-- vfx.sqrt. -/
def f32sqrt (rm : RMode) (a : Word) : Word × FFlags :=
  let out (r : Nat × FFlags) : Word × FFlags := (BitVec.ofNat 32 r.1, r.2)
  match Fmt.f32.dec a.toNat with
  | .nan s => out (Fmt.f32.nanCode, FFlags.when s FFlags.nv)
  | .inf n => if n then out (Fmt.f32.nanCode, FFlags.nv) else out (Fmt.f32.infCode, 0)
  | .fin n m e =>
    if m = 0 then (a, 0)
    else if n then out (Fmt.f32.nanCode, FFlags.nv)
    else
      let (m2, e2) := if e % 2 = 0 then (m * 2 ^ 60, e - 60) else (m * 2 ^ 61, e - 61)
      let r := isqrt m2
      out (Fmt.f32.pack rm false false (Fmt.f32.roundMag rm false r (e2 / 2) (r * r != m2)))

/-- The bounded forms of vfx. -/
inductive Bounded where
  | rcp | rsq | exp2 | log2 | sinpi | cospi
  deriving DecidableEq, Repr

/-- The number by which the free value of the form is known. -/
def Bounded.code : Bounded → Nat
  | .rcp => 2 | .rsq => 3 | .exp2 => 4 | .log2 => 5 | .sinpi => 6 | .cospi => 7

/-- The bound in ulps (R254). -/
def Bounded.ulps : Bounded → Nat
  | .rcp | .rsq => 1
  | _ => 2

/-- Bits of the fixed-point enclosures. -/
def fixP : Nat := 320
/-- π · 2^320, rounded down. -/
def fixPi : Nat := 0x3243f6a8885a308d313198a2e03707344a4093822299f31d0082efa98ec4e6c89452821e638d01377
/-- ln 2 · 2^320, rounded down. -/
def fixLn2 : Nat := 0xb17217f7d1cf79abc9e3b39803f2f6af40f343267298b62d8a0d175b8baafa2be7b876206debac98

/-- Σ over k of x^k / k!, in fixed point, from the term `t` of index `k` on. -/
def expSeries (x : Nat) : Nat → Nat → Nat → Nat
  | 0, _, _ => 0
  | n + 1, k, t => t + expSeries x n (k + 1) (t * x / 2 ^ fixP / (k + 1))

/-- The alternating series of sine (k = 1) and cosine (k = 0), in fixed point: `y` is x². -/
def trigSeries (y : Nat) : Nat → Nat → Int → Int
  | 0, _, _ => 0
  | n + 1, k, t => t + trigSeries y n (k + 2) (-(t * y / (2 ^ fixP : Nat)) / ((k + 1) * (k + 2) : Nat))

/-- atanh z = z + z³/3 + …, in fixed point: `y` is z². -/
def atanhSeries (y : Nat) : Nat → Nat → Nat → Nat
  | 0, _, _ => 0
  | n + 1, k, t => t / k + atanhSeries y n (k + 2) (t * y / 2 ^ fixP)

/-- A fixed-point approximation of the exact value of a form at a finite input outside the special cases of R255, as ±n · 2^e whose
error is below 2^-40 of an ulp of f32. -/
def Bounded.approx (f : Bounded) (neg : Bool) (m : Nat) (e : Int) : Dy :=
  match f with
  | .rcp => ⟨(if neg then -1 else 1) * ((2 ^ 400 / m : Nat) : Int), -400 - e⟩
  | .rsq =>
    let (m2, e2) := if e % 2 = 0 then (m, e) else (2 * m, e - 1)
    ⟨((isqrt (2 ^ 800 / m2) : Nat) : Int), -400 - e2 / 2⟩
  | .exp2 =>
    if e ≥ 9 || m.log2 + e ≥ 9 then (if neg then ⟨1, -400⟩ else ⟨1, 400⟩)
    else
      let x : Int := (if neg then -1 else 1) * (if e ≥ 0 then (m * 2 ^ e.toNat * 2 ^ fixP : Nat) else (m * 2 ^ fixP / 2 ^ (-e).toNat : Nat))
      let n := x / (2 ^ fixP : Nat)
      let fr := (x % (2 ^ fixP : Nat)).toNat
      ⟨(expSeries (fr * fixLn2 / 2 ^ fixP) 80 0 (2 ^ fixP) : Nat), n - fixP⟩
  | .log2 =>
    let k := m.log2
    let one := 2 ^ k
    -- m / 2^k lies in [1, 2); above 3/2 the half is taken
    let (num, den, ex) : Nat × Nat × Int :=
      if 2 * m ≥ 3 * one then (m, 2 * one, (k : Int) + e + 1) else (m, one, (k : Int) + e)
    let dn := if num ≥ den then num - den else den - num
    let z := dn * 2 ^ fixP / (num + den)
    let at_ := atanhSeries (z * z / 2 ^ fixP) 110 1 z
    let l := 2 * at_ * 2 ^ fixP / fixLn2
    ⟨ex * (2 ^ fixP : Nat) + (if num ≥ den then (l : Int) else -(l : Int)), -(fixP : Int)⟩
  | .sinpi | .cospi =>
    -- the input is below 2^23 in magnitude; r = |a| mod 2 in fixed point
    let a := if e ≥ 0 then m * 2 ^ e.toNat * 2 ^ fixP else m * 2 ^ fixP / 2 ^ (-e).toNat
    let r := a % (2 * 2 ^ fixP)
    let half := 2 ^ fixP / 2
    let q := r / half
    let t := r % half
    let x := t * fixPi / 2 ^ fixP
    let y := x * x / 2 ^ fixP
    let sn := trigSeries y 90 1 (x : Int)
    let cs := trigSeries y 90 0 ((2 ^ fixP : Nat) : Int)
    let v : Int :=
      if f == .sinpi then
        (if neg then -1 else 1) * (match q with | 0 => sn | 1 => cs | 2 => -sn | _ => -cs)
      else match q with | 0 => cs | 1 => -sn | 2 => -cs | _ => sn
    ⟨v, -(fixP : Int)⟩

/-- The f32 word of a signed rank: 0 for +0, n for the n-th magnitude, negative for the negatives. -/
def f32OfRank (r : Int) : Word := BitVec.ofNat 32 (if r < 0 then 2 ^ 31 + r.natAbs else r.natAbs)

/-- Whether an f32 word lies within `u` ulps of the dyadic (R254); an infinity counts as 2^128. -/
def withinUlps (u : Nat) (y : Dy) (w : Word) : Bool :=
  let v : Dy :=
    match Fmt.f32.dec w.toNat with
    | .nan _ => ⟨0, 0⟩
    | .inf n => ⟨if n then -1 else 1, 128⟩
    | x => x.dy
  let k : Int := (y.n.natAbs.log2 : Int) + y.e
  let ulp : Dy := ⟨u, max k (-126) - 23⟩
  let d := v.add ⟨-y.n, y.e⟩
  decide ((Dy.add ⟨d.n.natAbs, d.e⟩ ⟨-ulp.n, ulp.e⟩).n ≤ 0)

/-- The words a bounded form may return (R254). -/
def admissible (u : Nat) (y : Dy) : List Word :=
  let c := (Fmt.f32.rnd .rne false (y.toVal false)).1
  let rank : Int := if c ≥ 2 ^ 31 then -((c - 2 ^ 31 : Nat) : Int) else (c : Int)
  let near := ((List.range 9).map (fun (i : Nat) => rank + (i : Int) - 4)).filter (fun r => r.natAbs ≤ Fmt.f32.infCode)
  (near.map f32OfRank).filter (withinUlps u y)

/-- A result of a bounded form outside the special cases: an admissible word, which one is free (log 7); NX always, OF and UF by the
exact result. -/
def boundedResult (f : Bounded) (a : Word) (neg : Bool) (m : Nat) (e : Int) : Word × FFlags :=
  let y := f.approx neg m e
  let ws := admissible f.ulps y
  let r := (ws[Config.transcendental f.code a % ws.length]?).getD (BitVec.ofNat 32 (Fmt.f32.rnd .rne false (y.toVal false)).1)
  let k : Int := (y.n.natAbs.log2 : Int) + y.e
  let big := decide (k ≥ 128) || decide ((Dy.add ⟨y.n.natAbs, y.e⟩ ⟨-((2 ^ 24 - 1 : Nat) : Int), 104⟩).n > 0)
  (r, FFlags.nx ||| FFlags.when big FFlags.of ||| FFlags.when (y.n ≠ 0 && decide (k < -126)) FFlags.uf)

/-- m is a power of two. -/
def isPow2 (m : Nat) : Bool := m != 0 && m == 2 ^ m.log2

/-- The bounded forms (R254, R255). -/
def f32bounded (f : Bounded) (a : Word) : Word × FFlags :=
  let nan : Word := 0x7FC00000
  let infw (n : Bool) : Word := if n then 0xFF800000 else 0x7F800000
  let pow2 (n : Bool) (k : Int) : Word := BitVec.ofNat 32 (Fmt.f32.rnd .rne false (.fin n 1 k)).1
  match Fmt.f32.dec a.toNat with
  | .nan s => (nan, FFlags.when s FFlags.nv)
  | .inf n =>
    match f with
    | .rcp => (if n then 0x80000000 else 0, 0)
    | .rsq => if n then (nan, FFlags.nv) else (0, 0)
    | .exp2 => (if n then 0 else infw false, 0)
    | .log2 => if n then (nan, FFlags.nv) else (infw false, 0)
    | .sinpi | .cospi => (nan, FFlags.nv)
  | .fin n m e =>
    if m = 0 then
      match f with
      | .rcp => (infw n, FFlags.dz)
      | .rsq => (infw n, FFlags.dz)
      | .exp2 => (0x3F800000, 0)
      | .log2 => (infw true, FFlags.dz)
      | .sinpi => (if n then 0x80000000 else 0, 0)
      | .cospi => (0x3F800000, 0)
    else
      let k : Int := (m.log2 : Int) + e
      -- the integer part and whether the value is an integer or half an integer
      let isInt := e ≥ 0 || m % 2 ^ (-e).toNat = 0
      let twice := if e + 1 ≥ 0 then m * 2 ^ (e + 1).toNat else m / 2 ^ (-(e + 1)).toNat
      let isHalf := e + 1 ≥ 0 || m % 2 ^ (-(e + 1)).toNat = 0
      match f with
      | .rcp => if isPow2 m && decide (-k ≥ -126) && decide (-k ≤ 127) then (pow2 n (-k), 0) else boundedResult f a n m e
      | .rsq =>
        if n then (nan, FFlags.nv)
        else if isPow2 m && k % 2 = 0 && decide (-(k / 2) ≥ -126) then (pow2 false (-(k / 2)), 0)
        else boundedResult f a n m e
      | .exp2 =>
        let v : Int := (if n then -1 else 1) * ((twice / 2 : Nat) : Int)
        if isInt && decide (v ≥ -149) && decide (v ≤ 127) then (pow2 false v, 0) else boundedResult f a n m e
      | .log2 =>
        if n then (nan, FFlags.nv)
        else if isPow2 m then (BitVec.ofNat 32 (cvtOfInt k).1, 0)
        else boundedResult f a n m e
      | .sinpi =>
        if isInt then (if n then 0x80000000 else 0, 0)
        else if isHalf then
          -- a = v + 1/2 for the integer v = floor a
          let odd := if n then (twice + 1) / 2 % 2 == 1 else twice / 2 % 2 == 1
          (if odd then 0xBF800000 else 0x3F800000, 0)
        else boundedResult f a n m e
      | .cospi =>
        if isInt then (if twice / 2 % 2 == 1 then 0xBF800000 else 0x3F800000, 0)
        else if isHalf then (0, 0)
        else boundedResult f a n m e

/-! ## Blocks (R84, R85, R259, R261) -/

/-- A quotient of an integer and a positive natural. -/
structure Q where
  n : Int
  d : Nat
  deriving DecidableEq, Repr

/-- a < b. -/
def Q.lt (a b : Q) : Bool := decide (a.n * b.d < b.n * a.d)
/-- a = b. -/
def Q.same (a b : Q) : Bool := decide (a.n * b.d = b.n * a.d)
/-- |a − b|. -/
def Q.dist (a b : Q) : Q := ⟨((a.n * b.d - b.n * a.d).natAbs : Nat), a.d * b.d⟩
/-- The quotient of a dyadic. -/
def Q.ofDy (x : Dy) : Q := if x.e ≥ 0 then ⟨x.n * 2 ^ x.e.toNat, 1⟩ else ⟨x.n, 2 ^ (-x.e).toNat⟩
/-- a / b for b > 0. -/
def Q.div (a b : Q) : Q := ⟨a.n * b.d, a.d * b.n.natAbs⟩
/-- k · a. -/
def Q.scale (k : Nat) (a : Q) : Q := ⟨k * a.n, a.d⟩

/-- The value of a scale code: fmt 0 e8m0, 1 ue4m3; none is the format's NaN code. -/
def scaleVal (fmt code : Nat) : Option Dy :=
  if fmt = 0 then (if code = 0xFF then none else some ⟨1, (code : Int) - 127⟩)
  else match Fmt.e4m3.dec (code % 128) with
    | .nan _ => none
    | x => some x.dy

/-- Twice the value of an e2m1 magnitude code. -/
def e2m1Twice (c : Nat) : Nat :=
  match c % 8 with
  | 0 => 0 | 1 => 1 | 2 => 2 | 3 => 3 | 4 => 4 | 5 => 6 | 6 => 8 | _ => 12

/-- The value of an e2m1 code (R83), code 8 excepted. -/
def e2m1Val (c : Nat) : FVal := .fin (c / 8 % 2 == 1) (e2m1Twice c) (-1)

/-- dec of R84 for e2m1 with a block special in e4m3. -/
def e2m1Dec (spc c : Nat) : FVal := if c % 16 = 8 then Fmt.e4m3.dec spc else e2m1Val (c % 16)

/-- The e2m1 code nearest to q, ties to the even mantissa bit, saturating; a zero is 0 (R85). -/
def e2m1Round (q : Q) : Nat :=
  let mag : Q := ⟨(q.n.natAbs : Nat), q.d⟩
  let best := (List.range 8).foldl (fun b c =>
    let db := mag.dist ⟨e2m1Twice b, 2⟩
    let dc := mag.dist ⟨e2m1Twice c, 2⟩
    if dc.lt db || (dc.same db && c % 2 == 0 && b % 2 == 1) then c else b) 0
  if best = 0 then 0 else if q.n < 0 then 8 + best else best

/-- An e4m3 code nearest to q, ties to even, saturating at ±448. -/
def e4m3Round (q : Q) : Nat :=
  if q.n = 0 then 0 else (Fmt.e4m3.rndQuot .rne true (q.n < 0) q.n.natAbs q.d 0).1

/-- The scale of a block: its value (0 for none) and code, for the bound 6 or 448 (R85, R259). -/
def blockScale (bound fmt : Nat) (amax : Q) : Q × Nat :=
  if fmt = 0 then
    if amax.n = 0 then (Q.ofDy ⟨1, -127⟩, 0)
    else
      let ok (e : Int) : Bool := !(Q.scale bound (Q.ofDy ⟨1, e⟩)).lt amax
      let e : Int := ((List.range 255).find? (fun (i : Nat) => ok ((i : Int) - 127))).elim 127 (fun (i : Nat) => (i : Int) - 127)
      (Q.ofDy ⟨1, e⟩, (e + 127).toNat)
  else
    if amax.n = 0 then (⟨0, 1⟩, 0)
    else
      let t : Q := ⟨amax.n, amax.d * bound⟩
      let code := ((List.range 127).find? (fun (c : Nat) => !(Q.ofDy (Fmt.e4m3.dec c).dy).lt t)).getD 126
      (Q.ofDy (Fmt.e4m3.dec code).dy, code)

/-- A quantised block: codes, header, and the census additions of its elements (NAN, SAT, UNF) (R85, R262). -/
structure Block where
  codes : List Nat
  header : Nat
  nans : List Bool
  sats : List Bool
  unfs : List Bool
  deriving DecidableEq, Repr

/-- The largest finite magnitude of a block. -/
def blockMax (vs : List FVal) : Q :=
  vs.foldl (fun m v =>
    match v with
    | .fin _ x e =>
      let q := Q.ofDy ⟨x, e⟩
      if m.lt q then q else m
    | _ => m) ⟨0, 1⟩

/-- QB of R85 on f32 values. -/
def quantQB (vs : List Word) (fmt : Nat) : Block :=
  let xs := vs.map (fun w => Fmt.f32.dec w.toNat)
  let (scale, scl) := blockScale 6 fmt (blockMax xs)
  let q (x : FVal) : Q :=
    match x with
    | .fin _ _ _ => if scale.n = 0 then ⟨0, 1⟩ else (Q.ofDy x.dy).div scale
    | _ => ⟨0, 1⟩
  let plain (x : FVal) : Nat :=
    match x with
    | .nan _ => 0
    | .inf n => if n then 15 else 7
    | _ => e2m1Round (q x)
  let err (x : FVal) : Q :=
    match x with
    | .fin _ _ _ => (q x).dist (Q.ofDy (e2m1Val (plain x)).dy)
    | _ => ⟨0, 1⟩
  let worst := xs.foldl (fun (b : Option FVal) x =>
    match x with
    | .fin _ _ _ =>
      match b with
      | none => some x
      | some y => if (err y).lt (err x) then some x else b
    | _ => b) none
  let spc := match worst with
    | none => 0
    | some x => if (err x).n = 0 then 0 else e4m3Round (q x) % 256
  let spc := if spc = 128 then 0 else spc
  let special (x : FVal) : Bool :=
    match worst with
    | none => false
    | some y =>
      if (err y).n = 0 then false
      else match x with
        | .fin _ _ _ => ((q x).dist (Q.ofDy (Fmt.e4m3.dec spc).dy)).lt (err x)
        | _ => false
  let code (x : FVal) : Nat := if special x then 8 else plain x
  { codes := xs.map code, header := spc * 256 + scl,
    nans := xs.map FVal.isNan,
    sats := xs.map (fun x =>
      match x with
      | .inf _ => true
      | .fin _ _ _ => (⟨6, 1⟩ : Q).lt ⟨((q x).n.natAbs : Nat), (q x).d⟩ && !special x
      | _ => false),
    unfs := xs.map (fun x =>
      match x with
      | .fin _ m _ => m != 0 && (if special x then (Fmt.e4m3.dec spc).isZero else plain x % 8 == 0)
      | _ => false) }

/-- QE of R259 on f32 values. -/
def quantQE (vs : List Word) (fmt : Nat) : Block :=
  let xs := vs.map (fun w => Fmt.f32.dec w.toNat)
  let (scale, scl) := blockScale 448 fmt (blockMax xs)
  let q (x : FVal) : Q := if scale.n = 0 then ⟨0, 1⟩ else (Q.ofDy x.dy).div scale
  let code (x : FVal) : Nat :=
    match x with
    | .nan _ => 0x7F
    | .inf n => if n then 0xFE else 0x7E
    | .fin n m _ =>
      if scale.n = 0 then 0
      else if m = 0 then (if n then 0x80 else 0)
      else (Fmt.e4m3.rndQuot .rne true n (q x).n.natAbs (q x).d 0).1
  { codes := xs.map code, header := scl,
    nans := xs.map FVal.isNan,
    sats := xs.map (fun x =>
      match x with
      | .inf _ => true
      | .fin _ _ _ => (⟨448, 1⟩ : Q).lt ⟨((q x).n.natAbs : Nat), (q x).d⟩
      | _ => false),
    unfs := xs.map (fun x =>
      match x with
      | .fin _ m _ => m != 0 && code x % 128 == 0
      | _ => false) }

/-- x · s rounded to f32 (R261); a NaN in either gives NaN with no NV. -/
def scaleTo (rm : RMode) (x : FVal) (s : Option Dy) : Word × FFlags :=
  match s with
  | none => (0x7FC00000, 0)
  | some d =>
    match x with
    | .nan _ => (0x7FC00000, 0)
    | v =>
      let (p, _) := v.mul (d.toVal false)
      let (c, fl) := Fmt.f32.rnd rm false p
      (BitVec.ofNat 32 c, fl)

/-! ## Matrix accumulation (R90 to R92) -/

/-- One chunk of R90: the products of decoded elements with their scales, summed exactly, rounded, and added to the accumulator. The
second component says whether some rounding took a nonzero exact value to zero (R303). -/
def chunkF32 (acc : Word) (ps : List FVal) : Word × Bool :=
  let a := Fmt.f32.dec acc.toNat
  let posInf := ps.any (fun p => p == .inf false)
  let negInf := ps.any (fun p => p == .inf true)
  if a.isNan || ps.any FVal.isNan || (posInf && negInf) then (0x7FC00000, false)
  else
    let s : FVal :=
      if posInf then .inf false else if negInf then .inf true
      else
        let d := ps.foldl (fun (s : Dy) p => s.add p.dy) ⟨0, 0⟩
        d.toVal (!ps.isEmpty && ps.all (fun p => p.isZero && p.neg?))
    let t := (Fmt.f32.rnd .rne false s).1
    let (v, _) := a.add .rne (Fmt.f32.dec t)
    let r := (Fmt.f32.rnd .rne false v).1
    (BitVec.ofNat 32 r, (!s.isZero && (Fmt.f32.dec t).isZero) || (!v.isZero && (Fmt.f32.dec r).isZero))

/-- One chunk of R91: an exact integer sum added with saturation; whether it saturated. -/
def chunkI32 (acc : Word) (ps : List Int) : Word × Bool :=
  let s := acc.toInt + ps.foldl (· + ·) 0
  if s < -(2 ^ 31) then (0x80000000, true)
  else if s > 2 ^ 31 - 1 then (0x7FFFFFFF, true)
  else (BitVec.ofInt 32 s, false)

/-- Parity of the bits of a natural below 2^k. -/
def parity : Nat → Nat → Bool
  | 0, _ => false
  | k + 1, n => (n % 2 == 1) != parity k (n / 2)

/-- The Hadamard transform of a run, scaled by 2^-s (R92), and for each element whether a nonzero exact value rounded to zero. The rule leaves
two signs open, which are free (log 14): of an infinity to which infinite terms of both signs lead, and of a zero all of whose terms are -0. -/
def hadamard (s : Nat) (xs : List Word) : List (Word × Bool) :=
  let vs := xs.map (fun w => Fmt.f32.dec w.toNat)
  let n := vs.length
  let isInf (v : FVal) : Bool := v == .inf false || v == .inf true
  let bad := vs.any FVal.isNan || (vs.any (· == .inf false) && vs.any (· == .inf true))
  (List.range n).map (fun i =>
    let terms := ((List.range n).zip vs).map (fun (j, v) => if parity 6 (i &&& j) then v.negate else v)
    if bad then (0x7FC00000, false)
    else if vs.any isInf then
      let neg := if terms.contains (.inf true) && terms.contains (.inf false) then Config.hadSign xs i else terms.contains (.inf true)
      (if neg then 0xFF800000 else 0x7F800000, false)
    else
      let d := terms.foldl (fun (a : Dy) v => a.add v.dy) ⟨0, 0⟩
      let x := (Dy.mul d ⟨1, -(s : Int)⟩).toVal (terms.all (fun v => v.isZero && v.neg?) && Config.hadSign xs i)
      let c := (Fmt.f32.rnd .rne false x).1
      (BitVec.ofNat 32 c, !x.isZero && (Fmt.f32.dec c).isZero))

end Sys2Proof.Machine
end

