-- ==== Sys2Proof/Machine/State.lean ====
section
/-! DEFINITION. Sys2Proof/Machine/State.lean: the state of the Folran 4 as plain data, the reasons a step can stop, and the state
after reset. The parts are those of R10, R11, R43, R65 to R69, R118, R135, R148 and the register maps; lists stand for the sets and
queues the spec names, in the order the spec gives them. -/

namespace Sys2Proof.Machine

/-! ## Registers and frames -/

/-- The tag of a framed vector register (R67). A general register names its granule set (R75). -/
inductive Tag where
  | u (b : Word)
  | a (b d : Word)
  | g (set : Nat)
  | spilled
  deriving DecidableEq, Repr

/-- A granule set (R68, R75): one word for each lane of the group. -/
structure GSet where
  id : Nat
  words : List Word
  deriving DecidableEq, Repr

/-- What a handler frame records (R342, R344): for each lane the access whose fault it was entered for, the issue count at entry (R337),
whether the fault was deferred (R338), and whether entry lasts still (R341). -/
structure Handler where
  ops : List (Nat × Nat)
  since : Nat
  deferred : Bool
  entering : Bool
  deriving DecidableEq, Repr

/-- A frame (R66, R68, R69, R74, R82). -/
structure Frame where
  id : Nat
  owners : LaneSet
  depth : Nat
  rpc : DWord
  caller : Option Nat
  na : Nat
  nv : Nat
  ns : Nat
  v : List Tag
  s : List Word
  recSpilled : Bool
  handler : Option Handler
  deriving DecidableEq, Repr

/-! ## Lanes -/

/-- A lane's wait on address (R115, R287). -/
structure WtaWait where
  va : DWord
  scratch : Bool
  key : Option Nat
  size : Nat
  cmp : DWord
  acq : Bool
  scope : Nat
  dst : Nat
  frame : Nat
  deadline : Option Nat
  watched : Bool
  reading : Bool
  deriving DecidableEq, Repr

/-- The run state of a lane (R43, R44). `held` is a lane held at a barrier word while its release completes (R130). -/
inductive Run where
  | absent
  | running
  | held
  | barrier (bar : Nat) (phase : Half)
  | regroup (pc : DWord) (key : Nat) (n : Nat)
  | time (t : Nat)
  | address (w : WtaWait)
  | trapping
  | exited
  deriving DecidableEq, Repr

/-- A deferred fault found and not yet raised (R338). -/
structure Deferred where
  op : Option Nat
  id : Nat
  code : Nat
  fpc : DWord
  faddr : DWord
  detail : Word
  rs : Bool
  deriving DecidableEq, Repr

/-- A floor of a lane (R123): a write of a unit that it has bound, or that an access of issue count `issue` wrote there; 0 bounds every
later bind. -/
structure Floor where
  unit : Nat
  seq : Nat
  issue : Nat
  deriving DecidableEq, Repr

/-- A lane (R43, R65, R23, R123). `seen`: the writes that it has bound and that are not everywhere yet, each with the issue of its load
(R127). -/
structure Lane where
  run : Run
  pc : DWord
  fd : Nat
  frame : Nat
  phases : List Half
  preds : Half
  k : Nat
  ix : Word
  iy : Word
  iz : Word
  floors : List Floor
  seen : List (Nat × Nat)
  deferred : List Deferred
  deriving DecidableEq, Repr

/-! ## Accesses in flight -/

/-- How far a unit of a load is (R123): issued, presented with the latest write of its core's memory point and a stamp, or bound, to an entry of
its store FIFO or to a write. -/
inductive UnitProgress where
  | issued
  | presented (cmp : Nat) (stamp : Nat)
  | bound (bytes : List Byte) (forwarded : Bool)
  deriving DecidableEq, Repr

/-- A unit of an access: its byte offset in its part, its length, its key (scratch, device or host) once translated, and how far it is. -/
structure AccUnit where
  off : Nat
  len : Nat
  key : Nat
  prog : UnitProgress
  deriving DecidableEq, Repr

/-- The progress of one lane's (or frame's) part of an access (R336, R337, R369). `refused`: a wide atomic's leaf does not admit it (R375);
`discarded`: an access table forbids a request of it, which is gone (R381). -/
inductive PartProgress where
  | untranslated
  | discarded
  | ready
  | faulted (code : Nat) (detail : Word) (faddr : DWord)
  | refused
  | entered
  | done
  deriving DecidableEq, Repr

/-- One lane's (or frame's, or row's) part of an access, with its operands as read at issue (R336). `issue` is the issue count of its
latest issue (R344), `off` its offset in a destination tile. -/
structure Part where
  issue : Nat
  off : Nat
  lanes : LaneSet
  lead : Nat
  frame : Nat
  va : DWord
  scratch : Bool
  size : Nat
  data : List Byte
  cmp : List Byte
  prog : PartProgress
  units : List AccUnit
  leftRestart : LaneSet
  leftAbandon : Bool
  deriving DecidableEq, Repr

/-- Where a bound access goes (R269 to R278, R295, R297, R115). -/
inductive Dest where
  | none
  | vec (d : Nat) (count : Nat) (uniform : Bool)
  | uni (d : Nat) (count : Nat)
  | tile (t : Nat) (base : Nat)
  | wait (d : Nat)
  deriving DecidableEq, Repr

/-- A copy command (R107, R283, R284), as its operands stood when it issued, with the group's issue count then. Once taken: the source units read, by their place in the copy,
and the places of the destination units written (R131). -/
structure CopyCmd where
  id : Nat
  issue : Nat
  core : Nat
  slot : Nat
  fn : Nat
  grid : Word
  team : Nat
  pc : DWord
  kind : Nat
  dst : DWord
  dstHi : Word
  src : DWord
  srcHi : Word
  len : Nat
  esize : Nat
  count : Nat
  stride : Nat
  index : Nat
  cbuf : Option Nat
  taken : Bool
  stamp : Nat
  cbSlot : Nat
  indices : List Nat
  got : List (Nat × List Byte)
  put : List Nat
  done : Bool
  fault : Option (Nat × DWord)
  deriving DecidableEq, Repr

/-- A request of an lnch word (R316): the record at an address, for a uniform register of a frame, a node's signal, or a cancellation. `word`
is the issue count of the word, which its requests for several frames share (R317). -/
inductive LnchReq where
  | record (word : Nat) (a : DWord) (frame : Nat) (d : Nat) (lane : Nat)
  | trigger (word : Nat) (a : DWord)
  | cancel (grid : Word)
  deriving DecidableEq, Repr

/-- The kinds of an outstanding operation (R212). -/
inductive OpKind where
  | load
  | store
  | tileStore
  | atomic (f : Nat) (ty : Nat)
  | marker
  | copy (c : CopyCmd)
  | cbCommit (buf : Nat) (slot : Nat)
  | cbPop (buf : Nat)
  | lnch (r : LnchReq)
  deriving DecidableEq, Repr

/-- An outstanding operation of a group: from issue until its last completion point (R58, R60, R122, R123, R336). `id` is the issue
count of the group. `marked`: the issues of the word whose release marker has been placed (R127, R344). -/
structure Op where
  id : Nat
  pc : DWord
  major : Nat
  kind : OpKind
  lanes : LaneSet
  scope : Nat
  acq : Bool
  rel : Option Nat
  marked : List Nat
  log : Option Nat
  once : Bool
  parts : List Part
  dest : Dest
  ldc : Bool
  stc : Bool
  tlc : Bool
  deriving DecidableEq, Repr

/-- What an entry of a store FIFO is (R118, R122, R126). -/
inductive SfKind where
  | store
  | atomic (f : Nat) (ty : Nat) (parts : List (Nat × List Byte × List Byte))
  | marker
  | copy (c : CopyCmd)
  | cbCommit (buf : Nat) (slot : Nat)
  | cbPop (buf : Nat)
  | lnch (r : LnchReq)
  deriving DecidableEq, Repr

/-- An entry of a store FIFO: the access and part it belongs to, its issue and its entering by the group's count, and the lanes that were
forwarded from it, each with the issue of its load (R123). -/
structure SfItem where
  op : Nat
  part : Nat
  issue : Nat
  kind : SfKind
  lanes : LaneSet
  key : Nat
  bytes : List Byte
  scope : Nat
  rel : Option Nat
  enter : Nat
  readers : List (Nat × Nat)
  pc : DWord
  deriving DecidableEq, Repr

/-- An acquire or full fence in force for later words of its lanes (R128, R129): the issue, the marker a full fence waits for, and, at group
or core scope, the count before which an entry of the store FIFO has to drain. -/
structure Hold where
  id : Nat
  lanes : LaneSet
  mark : Option Nat
  before : Option Nat
  deriving DecidableEq, Repr

/-- A barrier arrival whose release is not complete (R54, R57, R130); bar 19 is a regroup's (R63), bar 20 a sys.cinv's, whose lanes stay in
the vote and issue nothing (R44, R323). -/
structure Arrival where
  bar : Nat
  lanes : LaneSet
  mark : Nat
  count : Nat
  waits : Bool
  deriving DecidableEq, Repr

/-- A fault held by a group until its next exception fence (R339). -/
structure Held where
  code : Nat
  fpc : DWord
  faddr : DWord
  detail : Word
  more : Bool
  deriving DecidableEq, Repr

/-- A handler entry of the trap vector table (R340): HANDLER, NV, NS. -/
structure TrapEntry where
  handler : DWord
  nv : Nat
  ns : Nat
  deriving DecidableEq, Repr

/-- What one lane of a fault reports (R343): TCODE, FPC, FADDR, DETAIL, the resume PC, and the access to restart. -/
structure TrapLane where
  lane : Nat
  tcode : Word
  fpc : DWord
  faddr : DWord
  detail : Word
  resume : DWord
  op : Option Nat
  deriving DecidableEq, Repr

/-- A fault that lanes of one frame take together (R342), with the vector table entry once it is read (R341). -/
structure Trap where
  code : Nat
  kind : Nat
  more : Bool
  frame : Nat
  lanes : List TrapLane
  nested : Bool
  entry : Option TrapEntry
  deriving DecidableEq, Repr

/-- A place that a word takes when it executes (R47): one more in a counter (0 ld, 1 st, 2 cp, 3 tl), an entry of the operand log, requests, a
copy command's or an array form's place, a slot of a circular buffer to reserve or to claim. -/
inductive Place where
  | counter (k : Nat)
  | log
  | requests (n : Nat)
  | copy
  | array
  | reserve (buf : Nat)
  | claim (buf : Nat)
  deriving DecidableEq, Repr

/-- What a chain executes in place of its words: a word of it that faults before the chain takes effect, or a fault of its fetch (R214). -/
inductive Raise where
  | word
  | event (i : Instr)
  deriving DecidableEq, Repr

/-- A chain that its path has issued and not finished (R200): the lanes still in it, its first word, its next word's address, and the words
to come, as they were fetched together (R420), with the vector registers they name (first, count; R79). `fresh`: none of its words has
executed; `prompt` of the words to come execute in the clock of the issue, those after them are delayed (R200). `since` is the group's count
when it issued, `ptime` and `cyc` what every read in its issue sees (R244), `tvt` the vector table that holds for its traps (R325): two chains
of one issue share them, the primary's first (R47). `places` is what its words to come are sure of, word by word (R47); `raised`: it faults,
together with the issue or the fault of the primary's chain (R424). -/
structure Chain where
  since : Nat
  ptime : DWord
  cyc : Nat
  tvt : DWord
  lanes : LaneSet
  first : DWord
  pc : DWord
  words : List Word
  names : List (Nat × Nat)
  places : List (List Place)
  prompt : Nat
  fresh : Bool
  raised : Option Raise
  deriving DecidableEq, Repr

/-- An uncorrectable error in a register of the group (R377): class 0 v, 1 s, 2 t, 3 a, the frame, and the number. -/
structure BadReg where
  cls : Nat
  frame : Nat
  num : Nat
  deriving DecidableEq, Repr

/-- A path that waits under R60 for a load of host space: its lanes, its word, and the load (R386). -/
structure Stall where
  pc : DWord
  lanes : LaneSet
  op : Nat
  deriving DecidableEq, Repr

/-- A resident group (R43 to R63, R65, R118). `arrivedAt` and `exitAt` hold the stamps of its arrivals and of its exit (R52, R56), `twinCopies`
the copies that its latest arrival at the twin barrier waits for (R53). `evicting`: it is marked for eviction, with the lanes that waited for a load of host space
then (R390), and `moved`: one of its lanes has become runnable or left its blocking point since (R390). `badState`: an uncorrectable error in its tag, PC, frame or log state, and whether in the log (R377, R379). `lost`: lanes a fetch of
which an access table forbade, and which it never reaches (R381). -/
structure Group where
  core : Nat
  slot : Nat
  grid : Word
  team : Nat
  die : Nat
  gix : Nat
  w : Nat
  lanes : List Lane
  frames : List Frame
  sets : List GSet
  fmode : Half
  fflags : Half
  rank : Nat
  gp : List Half
  arrivedAt : List Nat
  exitAt : Option Nat
  twinCopies : List Nat
  ld : Nat
  st : Nat
  cp : Nat
  tl : Nat
  ops : List Op
  sf : List SfItem
  holds : List Hold
  arrivals : List Arrival
  heldFault : Option Held
  traps : List Trap
  tiles : List Host.Cell
  accs : List (Nat × Word)
  chains : List Chain
  delay : Nat
  stalls : List Stall
  evicting : Option LaneSet
  moved : Bool
  bad : List BadReg
  badState : Option Bool
  lost : LaneSet
  nextId : Nat
  deriving DecidableEq, Repr

/-! ## Cores -/

/-- A drained write as a dump shows it (R172, R383): TYPE, scope, device virtual address and data. -/
structure Drained where
  ty : Nat
  scope : Nat
  va : DWord
  data : List Byte
  deriving DecidableEq, Repr

/-- A write or release marker on its way through a core's propagation queues (R118, R122): it has left the queues of every scope
level up to `reach`, and stands in those above it up to `last`. Levels: 1 the CMP, 2 twin, 3 die, 4 dev, 5 pod, 6 sys. `shown`: the write that a
dump lists (R383). -/
structure PropItem where
  mark : Option Nat
  seq : Nat
  unit : Nat
  reach : Nat
  last : Nat
  slot : Nat
  shown : Option Drained
  deriving DecidableEq, Repr

/-- A circular buffer of a grid on a core (R103). Slot states: 0 free, 1 reserved, 2 filled, 3 claimed; 4 is a slot reserved by the
copy engine (R376). Commits and pops issued and not yet drained count for the checks of later words (R376). -/
structure CBuf where
  num : Nat
  base : Nat
  slots : Nat
  size : Nat
  pi : Nat
  ci : Nat
  ri : Nat
  free : Nat
  filled : Nat
  state : List Nat
  committing : List Nat
  popping : Nat
  deriving DecidableEq, Repr

/-- A tag table entry (R105). -/
structure TagEntry where
  valid : Bool
  la : Nat
  sl : Nat
  deriving DecidableEq, Repr

/-- A grid's regions on a core (R100 to R106). -/
structure Region where
  grid : Word
  base : Nat
  size : Nat
  bufs : List CBuf
  cacheBase : Nat
  cachel : Nat
  stageBase : Nat
  stage : Nat
  tags : List TagEntry
  deriving DecidableEq, Repr

/-- A scratch range in use (R102), with the number of its taking. -/
structure ScratchRange where
  base : Nat
  size : Nat
  gen : Nat
  grid : Word
  team : Option Nat
  deriving DecidableEq, Repr

/-- The array forms (R302, R306, R307, R310, R311) with the registers and codes they need at their end. -/
inductive MatKind where
  | mma (set : Bool) (d : Nat)
  | had (d : Nat)
  | perm (d : Nat)
  | wid (d : Nat)
  | nar (d : Nat)
  | q2 (d b : Nat)
  | qe (d b : Nat)
  deriving DecidableEq, Repr

/-- A matrix operation in the array's queue, with the sources read at its issue (R132, R300). -/
structure MatOp where
  slot : Nat
  op : Nat
  pc : DWord
  kind : MatKind
  cfg : List Byte
  a : List Byte
  b : List Byte
  acc : List Word
  code : Word
  bad : Bool
  deriving DecidableEq, Repr

/-- A request for rows or tag quads (R73, R360), by the group and the word that waits; one without lanes is a refill's, its `pc` naming the
frame and register and `need` the word whose operand it is, with its lanes (R81, R362). `since` is the cluster's clock at the making (R79). -/
structure Request where
  slot : Nat
  pc : DWord
  lanes : LaneSet
  rows : Nat
  quads : Nat
  granted : Bool
  since : Nat
  need : Option (DWord × LaneSet)
  deriving DecidableEq, Repr

/-- A completion that a stopped partition holds (R171): a bound unit of a load, a copy that is over, or a matrix operation with its result to be
written. -/
inductive Completion where
  | load (slot op elem : Nat)
  | copy (slot id : Nat)
  | matrix (m : MatOp)
  deriving DecidableEq, Repr

/-- A core (R11, R118, R170). -/
structure Core where
  prop : List PropItem
  engine : List CopyCmd
  array : List MatOp
  watch : List (Nat × Nat)
  requests : List Request
  regions : List Region
  ranges : List ScratchRange
  dstop : Byte
  dcause : DWord
  bps : List DWord
  dumpa : DWord
  dumpst : DWord
  completions : List Completion
  deriving DecidableEq, Repr

/-- A cluster (R157 to R163). `lastIssue`: its clock when a group of it last issued, or when it was last admitted (R163). -/
structure Cluster where
  pool : Nat
  move : Option Nat
  idle : Bool
  lastIssue : Nat
  byb : BitVec 24
  cyc10 : Nat
  deriving DecidableEq, Repr

/-! ## Grids and teams -/

/-- A launch record as accepted (R135). -/
structure LaunchRecord where
  addr : DWord
  entry : DWord
  sx : Nat
  sy : Nat
  sz : Nat
  tminx : Nat
  tminy : Nat
  tminz : Nat
  tmaxx : Nat
  tmaxy : Nat
  tmaxz : Nat
  tprefx : Nat
  tprefy : Nat
  tprefz : Nat
  tthr : Nat
  w : Nat
  probe : Nat
  recutmax : Nat
  order : Nat
  nt : Nat
  nac : Nat
  sf : Nat
  si : Nat
  nv : Nat
  ns : Nat
  opclass : Nat
  reach : Nat
  spillb : DWord
  spillt : DWord
  start : DWord
  args : DWord
  scrl : DWord
  evaddr : DWord
  evval : DWord
  evop : Nat
  evscope : Nat
  pmask : BitVec 192
  barrier : Bool
  resident : Bool
  twin : Bool
  devmask : BitVec 128
  node : DWord
  scratch : List Byte
  deriving DecidableEq, Repr

/-- A team of a tiling (R22, R27): region number, team indices, origin, extent, and whether it is clipped. -/
structure TeamBox where
  region : Nat
  tx : Nat
  ty : Nat
  tz : Nat
  ox : Nat
  oy : Nat
  oz : Nat
  ex : Nat
  ey : Nat
  ez : Nat
  clipped : Bool
  deriving DecidableEq, Repr

/-- The figures of a finished or running team of a window (R30, R31). -/
structure Measured where
  team : Nat
  ox : Nat
  oy : Nat
  oz : Nat
  clipped : Bool
  finished : Bool
  dv : Nat
  cy : Nat
  lr : Option Nat
  deriving DecidableEq, Repr

/-- A die's cut of a grid (R29 to R34, R39 to R42): the allotments held and not begun, the undispatched teams of the tiled regions in
dispatch order, the shape and order in force, the window with its size, the team chosen and not placed with its class and number, and
the clusters that move to its pool. `ended`: no further allotment comes. -/
structure DieCut where
  takes : Bool
  allots : List (Nat × Nat)
  begun : Bool
  todo : List TeamBox
  nextRegion : Nat
  qx : Nat
  qy : Nat
  order : Nat
  recuts : Nat
  window : List Measured
  wsize : Nat
  chosen : Option (TeamBox × Nat × Nat)
  moving : List Nat
  last : Option Nat
  teams : Nat
  requested : Bool
  ended : Bool
  cls : Nat
  deriving DecidableEq, Repr

/-- Who issued a launch (R316, R399, R430); of a node, the command entry that set it off, if one did (R149), and its bytes as it fired (log 17). -/
inductive Issuer where
  | command (fn q entry : Nat)
  | thread (core slot : Nat) (pc : DWord) (frame d lane : Nat) (op : Nat)
  | node (addr table : DWord) (entry : Option Nat) (raw : List Byte)
  | remote (dev : Nat)
  deriving DecidableEq, Repr

/-- The state of a grid on this device (R135 to R139, R153, R402 to R404). `arrivedDevs`: the phases of the grid barrier for which another
device has reported that all its groups arrived (R53, R408); `askers`: the dies whose requests for an allotment wait, in order (R40);
`reporters`: the devices whose parts are reported over (R154, R403); `records`: the fault ring records written for it here, `others` those that other
devices have reported (R404); `asked`: the cancellation that this device has sent to the root (R402); `passed`: the root has passed the completion of
the cancelled grid to this device (R403); `fenceMarks`: the markers of its launch's release, then of its completion's. -/
structure Grid where
  num : Word
  fn : Nat
  queue : Nat
  issuer : Issuer
  record : LaunchRecord
  released : Bool
  cuts : List DieCut
  askers : List Nat
  pool : List (Nat × Nat)
  cancelled : Option Nat
  cancelSeen : Bool
  asked : Option Nat
  passed : Bool
  reporters : List Nat
  records : Nat
  others : Nat
  recorders : List Nat
  partDone : Bool
  fenceMarks : List Nat
  fenced : Bool
  spillOff : Bool
  gridTP : Half
  arrivedDevs : List (Nat × Half)
  completing : Bool
  placedAll : Bool
  deriving DecidableEq, Repr

/-- A resident (or evicted) team (R22, R36, R54). `num` is its key: each die numbers from 0, so die d's team n has key 2n + d. -/
structure Team where
  grid : Word
  num : Nat
  die : Nat
  box : TeamBox
  tn : Nat
  gcnt : Nat
  ss : Nat
  windows : List (Nat × Nat)
  tp : List Half
  ncnt : List Nat
  eAll : Nat
  eSub : Nat
  sectors : List Nat
  qAll : Nat
  qHit : Nat
  cyStart : Option (Nat × Nat)
  cyEnd : Option Nat
  cls : Nat
  timer : Option Nat
  evicted : Bool
  age : Nat
  deriving DecidableEq, Repr

/-! ## The front end, functions and the device -/

/-- An lnch word whose request has drained (R317): core, slot and word. -/
structure LnchWord where
  core : Nat
  slot : Nat
  word : Nat
  deriving DecidableEq, Repr

/-- A launch request waiting for the front end (R316, R317), with the release marker of its issue (R138). -/
structure LaunchRequest where
  addr : DWord
  fn : Nat
  queue : Nat
  issuer : Issuer
  word : Option LnchWord
  mark : Option Nat
  deriving DecidableEq, Repr

/-- A signal to a Pricking node (R142, R430), with the release markers it waits for and the lnch word that sent it. `table` is the first node of the node's table, once a
node of that table sent the signal; none for a signal that names its node by address alone (log 17). `entry`: the command that set it off (R149); `pc`: the PC of
the lnch word that sent it, or 0 (R398). -/
structure Signal where
  addr : DWord
  table : Option DWord
  fn : Nat
  queue : Nat
  marks : List Nat
  word : Option LnchWord
  entry : Option Nat
  pc : DWord
  deriving DecidableEq, Repr

/-- A WAIT-TIME node armed (R142), with its bytes as it fired. -/
structure Armed where
  addr : DWord
  table : DWord
  fn : Nat
  queue : Nat
  time : Nat
  entry : Option Nat
  raw : List Byte
  deriving DecidableEq, Repr

/-- A copy of a PREFETCH node (R147): the entry of the expert table, its source, destination and length.
`lost`: an access table forbids a request of it, which is gone (R381). -/
structure PrefetchCopy where
  entry : DWord
  src : DWord
  dst : DWord
  len : Nat
  lost : Bool
  deriving DecidableEq, Repr

/-- A PREFETCH node that has fired (R147, R409): its copies not yet complete, the first failure, as engine-copy DETAIL,
and its bytes as it fired (log 17). -/
structure Prefetch where
  node : DWord
  table : DWord
  fn : Nat
  queue : Nat
  copies : List PrefetchCopy
  fail : Option Nat
  entry : Option Nat
  raw : List Byte
  deriving DecidableEq, Repr

/-- An END node that has fired, with its bytes then: the store it has to make once its release at dev is complete (R142, log 17). -/
structure Ending where
  node : DWord
  table : DWord
  fn : Nat
  queue : Nat
  mark : Nat
  entry : Option Nat
  raw : List Byte
  deriving DecidableEq, Repr

/-- A LOOP node with iterations to run, and the queue of the signal that fired it (R430). -/
structure LoopRun where
  node : DWord
  fn : Nat
  queue : Nat
  entry : Option Nat
  deriving DecidableEq, Repr

/-- A class request on its way to a dispatcher (R161). -/
structure ClassRequest where
  die : Nat
  grid : Word
  cls : Nat
  deriving DecidableEq, Repr

/-- The key of a pod launch (R153). -/
structure PodLaunch where
  start : Nat
  issuer : Nat
  seq : Nat
  deriving DecidableEq, Repr

/-- What a command queue waits for (R149). -/
inductive QueueBlock where
  | none
  | ctxset (table : DWord) (sva : Bool)
  | waitev (addr : DWord) (v : DWord)
  | cinv (mark : Nat)
  deriving DecidableEq, Repr

/-- A SIGNAL taken and not yet stored (R149, R400). -/
structure PendingSignal where
  entry : Nat
  addr : DWord
  value : DWord
  mark : Option Nat
  deriving DecidableEq, Repr

/-- A command queue (R148). -/
structure Queue where
  base : DWord
  size : BitVec 5
  weight : Byte
  tail : Word
  head : Word
  budget : Word
  descheduled : Bool
  faulted : Bool
  halted : Bool
  charge : Word
  block : QueueBlock
  signals : List PendingSignal
  deriving DecidableEq, Repr

/-- A function: its registers and its context (R95, R148, R166, R168, R340, R346, R354, R379, R388, R413). -/
structure Fn where
  ready : Bool
  fail : Bool
  queues : List Queue
  level0 : Option Nat
  sva : Bool
  tvt : DWord
  fltbase : DWord
  fltctl : DWord
  flthead : Word
  flttail : Word
  fltlost : DWord
  wdctl : DWord
  prepool : DWord
  presize : DWord
  evicts : Word
  inuse : Word
  censbase : DWord
  censref : DWord
  censctl : DWord
  censdiff : DWord
  trialctl : DWord
  triallo : DWord
  trialhi : DWord
  dlycnt : DWord
  progs : List DWord
  merrUnc : Half
  merrCor : Word
  deriving DecidableEq, Repr

/-- A write, in coherence order (R118, R119): its place `seq`, its unit with all the unit's bytes, the core whose CMP it entered
first (none for a write of the host), the CMPs that hold it, and the highest level of point it has reached. -/
structure WriteRec where
  seq : Nat
  unit : Nat
  bytes : List Byte
  origin : Option Nat
  cmps : List Nat
  reach : Nat
  deriving DecidableEq, Repr

/-- A bit error of the storage (R377): the key of a byte, whether it is uncorrectable, and whether it lies in the memory-side cache (R379). -/
structure BitError where
  key : Nat
  uncorrectable : Bool
  cached : Bool
  deriving DecidableEq, Repr

/-- An access table entry (R380): master, device physical range, permissions. -/
structure AccessRange where
  master : Nat
  lo : Nat
  hi : Nat
  read : Bool
  write : Bool
  deriving DecidableEq, Repr

/-- An evicted unit (R385, R392, R396): grid, its teams and their groups as saved, the images of its windows (team, core) and regions, where
its block lies, the cores it left and the markers of step 4. `pending`: its queue's slice has begun and it is to be restored (R394); `moving`: the
empty clusters that move to its class first (R158). -/
structure EvictedUnit where
  grid : Word
  fn : Nat
  queue : Nat
  die : Nat
  block : DWord
  size : Nat
  fl : Nat
  teams : List Nat
  groups : List Group
  windows : List (Nat × Nat × List Byte)
  regions : List (Nat × Region × List Byte)
  cores : List Nat
  marks : List Nat
  evt : Nat
  runnable : Bool
  wake : Bool
  pending : Bool
  moving : List Nat
  deriving DecidableEq, Repr

/-- The image in the on-module flash (R412): its length, its bytes that are not 0 and its security version. -/
structure FlashImage where
  len : Nat
  bytes : List Host.Cell
  version : Word
  deriving DecidableEq, Repr

/-- A Filet port (R408). -/
structure Port where
  state : BitVec 2
  peer : Byte
  pport : Byte
  replay : Word
  deriving DecidableEq, Repr

/-- The word being executed: the group, the lanes of the path, the address of the word, where a fault of it resumes (R335), and the group's count,
%ptime and %cyc when the chain issued. `tvt`: the vector table of its traps (R325); `mid`: earlier words of the chain have executed; `late`: it is
delayed past the clock of its issue (R200). -/
structure Cur where
  since : Nat
  ptime : DWord
  cyc : Nat
  tvt : DWord
  mid : Bool
  late : Bool
  core : Nat
  slot : Nat
  path : LaneSet
  pc : DWord
  first : DWord
  deriving DecidableEq, Repr

/-- A move of the agenda (log 3): an event, or the choice of the n-th of the words and events that are possible. -/
inductive Move where
  | event (i : Instr)
  | pick (n : Nat)
  deriving DecidableEq, Repr

/-- The machine. The model's own fields: the `agenda` of moves to come, the partition whose `turn` it is, the word being executed `cur`, the
nanoseconds that pass before each coming step `clockIn` (logs 3, 4), the last `stamp` given to a marker or a presented load, the count of
free values taken `freeCtr`, the number `scratchGen` of the latest taking of scratch, and the place `co` of the latest write. `feProp`: the
front end's writes and markers on their way to the wider points (R122, R139); `window`, `windowed`: the admission window of the latest
admissions and how many it has had (R163). -/
structure State where
  agenda : List Move
  turn : Nat
  cur : Option Cur
  clockIn : List Nat
  stamp : Nat
  freeCtr : Nat
  mem : List Host.Cell
  scratch : List Host.Cell
  writes : List WriteRec
  co : Nat
  bitErrors : List BitError
  tlb : List (Nat × Nat × DWord)
  groups : List Group
  cores : List Core
  clusters : List Cluster
  teams : List Team
  grids : List Grid
  fns : List Fn
  requests : List LaunchRequest
  signals : List Signal
  armed : List Armed
  prefetches : List Prefetch
  ending : Option Ending
  loops : List LoopRun
  feProp : List PropItem
  classRequests : List ClassRequest
  launchSeq : Nat
  scratchGen : Nat
  form : Nat
  step : Byte
  dev : Nat
  members : BitVec 128
  ptime : DWord
  offs : Word
  late : Half
  lock : Bool
  root : Bool
  syncs : Nat
  podHeld : List PodLaunch
  podReleased : Option PodLaunch
  podStarts : List (Nat × Nat)
  podOut : List PodLaunch
  cap : Nat
  draww : Half
  overPeriods : Word
  overRun : Nat
  therm : Bool
  hold : Bool
  admitted : Nat
  window : Nat
  windowed : Nat
  sliceOwner : Option (Nat × Nat)
  slicePos : Nat
  units : List EvictedUnit
  access : List AccessRange
  frozen : List Nat
  frozenHeld : List (Nat × Word)
  merrlast : DWord
  ports : List Port
  lostPeers : List Nat
  fwState : Nat
  fwErr : Byte
  fwVersion : Word
  fwstg : DWord
  flash : FlashImage
  fatal : Bool
  deriving DecidableEq, Repr

/-! ## Why a step stops -/

/-- The faults that stop the machine as a whole: none. A thread's fault (R334) enters a handler or exits its lanes, and a device that needs a
reset (R408, R411) goes on without its clusters or its commands. -/
inductive Fault where
  deriving DecidableEq, Repr

/-- The refusals. -/
inductive Refusal where
  /-- Raised by an arm of exec for an instruction with no meaning yet. Safe: the model stops where the hardware goes on. -/
  | notModelled (mnemonic : String)
  deriving DecidableEq, Repr

/-! ## Reset -/

/-- A queue at reset (R414). -/
def Queue.reset : Queue :=
  { base := 0, size := 4, weight := 0, tail := 0, head := 0, budget := 0, descheduled := false, faulted := false, halted := false,
    charge := 0, block := .none, signals := [] }

/-- A function's registers at bring-up (R414). -/
def Fn.reset : Fn :=
  { ready := false, fail := false, queues := List.replicate 8 Queue.reset, level0 := none, sva := false, tvt := 0, fltbase := 0,
    fltctl := 4, flthead := 0, flttail := 0, fltlost := 0, wdctl := 0x000F4240, prepool := 0, presize := 0, evicts := 0, inuse := 0,
    censbase := 0, censref := 0, censctl := 0, censdiff := 0, trialctl := 0, triallo := 0, trialhi := 0, dlycnt := 0,
    progs := List.replicate 16 0, merrUnc := 0, merrCor := 0 }

/-- A core at reset: every resource free, no partition stopped (R414). -/
def Core.reset : Core :=
  { prop := [], engine := [], array := [], watch := [], requests := [], regions := [], ranges := [], dstop := 0, dcause := 0,
    bps := [0, 0, 0, 0], dumpa := 0, dumpst := 0, completions := [] }

/-- A cluster at reset: pool 6 (R158, R414); its byte budget is a value the model names (log 6). -/
def Cluster.reset : Cluster :=
  { pool := 6, move := none, idle := false, lastIssue := 0, byb := 64, cyc10 := 0 }

/-- A Filet port at reset: down (log 6). -/
def Port.reset : Port := { state := 0, peer := 0, pport := 0, replay := 0 }

/-- The machine right after reset: the firmware boots (R412), no grid, no team, nothing in memory; registers as R414. The form, the
stepping and the values R414 does not list are named in logs 5 and 6. -/
def State.reset : State :=
  { agenda := [], turn := 0, cur := none, clockIn := [], stamp := 0, freeCtr := 0, mem := [], scratch := [], writes := [], co := 0,
    bitErrors := [], tlb := [], groups := [], cores := List.replicate 192 Core.reset, clusters := List.replicate 24 Cluster.reset,
    teams := [], grids := [], fns := List.replicate 17 Fn.reset, requests := [], signals := [], armed := [], prefetches := [], ending := none,
    loops := [], feProp := [], classRequests := [], launchSeq := 0, scratchGen := 0, form := 2, step := 0, dev := 0, members := 1, ptime := 0, offs := 0,
    late := 0, lock := true, root := true, syncs := 0, podHeld := [], podReleased := none, podStarts := [], podOut := [], cap := 7,
    draww := 0, overPeriods := 0, overRun := 0, therm := false, hold := false, admitted := 23, window := 0, windowed := 0, sliceOwner := none, slicePos := 0, units := [],
    access := [], frozen := [], frozenHeld := [], merrlast := 0, ports := List.replicate 18 Port.reset, lostPeers := [], fwState := 0,
    fwErr := 0, fwVersion := 0, fwstg := 0, flash := { len := 0, bytes := [], version := 0 }, fatal := false }

end Sys2Proof.Machine
end

