-- ==== Sys2Proof/Machine/Mem.lean ====
section
/-! DEFINITION. Sys2Proof/Machine/Mem.lean: memory in its canonical form, the keys and single-copy atomic units of every space (R94, R97,
R100, R111), the writes in coherence order and what a core sees of them (R118 to R121), and address translation (R95, R96, R370). -/

namespace Sys2Proof.Machine

/-! ## Canonical memory: addresses rise strictly, no listed byte is 0; an unlisted byte reads as 0 (log 1) -/

/-- The byte at an address. -/
def Memory.read : List Host.Cell → Nat → Byte
  | [], _ => 0
  | (b, v) :: r, a => if a = b then v else if a < b then 0 else Memory.read r a

/-- Memory with one byte written. -/
def Memory.write : List Host.Cell → Nat → Byte → List Host.Cell
  | [], a, v => if v = 0 then [] else [(a, v)]
  | (b, w) :: r, a, v =>
    if a < b then (if v = 0 then (b, w) :: r else (a, v) :: (b, w) :: r)
    else if a = b then (if v = 0 then r else (b, v) :: r)
    else (b, w) :: Memory.write r a v

/-- The canonical form from a lowest address on. -/
def Memory.wfFrom : Nat → List Host.Cell → Bool
  | _, [] => true
  | lo, (b, v) :: r => decide (lo ≤ b) && v != 0 && Memory.wfFrom (b + 1) r

/-- The canonical form of memory. -/
def Memory.wf (m : List Host.Cell) : Bool := Memory.wfFrom 0 m

/-- Bytes written from an address on. -/
def Memory.writes : List Host.Cell → Nat → List Byte → List Host.Cell
  | m, _, [] => m
  | m, a, v :: vs => Memory.writes (Memory.write m a v) (a + 1) vs

/-- n entries of a sparse list from an index on; an index not listed holds `z`. -/
def sparseSlice {α : Type} (z : α) : Nat → List (Nat × α) → Nat → List α
  | 0, _, _ => []
  | n + 1, [], a => z :: sparseSlice z n [] (a + 1)
  | n + 1, (b, v) :: r, a => if a = b then v :: sparseSlice z n r (a + 1) else z :: sparseSlice z n ((b, v) :: r) (a + 1)

/-- n entries of a sparse list at an index. -/
def sparseRead {α : Type} (z : α) (m : List (Nat × α)) (a n : Nat) : List α := sparseSlice z n (m.dropWhile (fun x => decide (x.1 < a))) a

/-- Entries of a sparse list replaced from an index on; only entries that differ from `z` are listed. -/
def sparseSplice {α : Type} [BEq α] (z : α) (m : List (Nat × α)) (a : Nat) (vs : List α) : List (Nat × α) :=
  m.takeWhile (fun x => decide (x.1 < a)) ++ (vs.zipIdx.filterMap (fun (v, i) => if v == z then none else some (a + i, v))) ++
    m.dropWhile (fun x => decide (x.1 < a + vs.length))

/-! ## Scratch: a listed byte was written since its range was taken; an unlisted one is free (log 2) -/

/-- A scratch byte written since its range was taken. -/
def Scratch.get : List Host.Cell → Nat → Option Byte
  | [], _ => none
  | (b, v) :: r, a => if a = b then some v else if a < b then none else Scratch.get r a

/-- Scratch with one byte written. -/
def Scratch.put : List Host.Cell → Nat → Byte → List Host.Cell
  | [], a, v => [(a, v)]
  | (b, w) :: r, a, v =>
    if a < b then (a, v) :: (b, w) :: r else if a = b then (b, v) :: r else (b, w) :: Scratch.put r a v

/-- The form of the list: addresses rise strictly. -/
def Scratch.wfFrom : Nat → List Host.Cell → Bool
  | _, [] => true
  | lo, (b, _) :: r => decide (lo ≤ b) && Scratch.wfFrom (b + 1) r

/-- Bytes written from an address on. -/
def Scratch.puts : List Host.Cell → Nat → List Byte → List Host.Cell
  | m, _, [] => m
  | m, a, v :: vs => Scratch.puts (Scratch.put m a v) (a + 1) vs

/-! ## Keys and units: device physical addresses as they are, host addresses from 2^60, scratch from 2^61 by core -/

/-- The key of a host address. -/
def hostKey (a : Nat) : Nat := 2 ^ 60 + a
/-- The key of a scratchpad offset of a core. -/
def scratchKey (core off : Nat) : Nat := 2 ^ 61 + core * 2 ^ 20 + off
/-- A scratch key. -/
def isScratchKey (k : Nat) : Bool := decide (2 ^ 61 ≤ k)
/-- A host key. -/
def isHostKey (k : Nat) : Bool := decide (2 ^ 60 ≤ k) && decide (k < 2 ^ 61)
/-- The single-copy atomic size of a key's space (R111). -/
def unitSize (k : Nat) : Nat := if isScratchKey k then 64 else if isHostKey k then 8 else 32
/-- The unit that holds a key. -/
def unitOf (k : Nat) : Nat := k - k % unitSize k
/-- Device physical addresses that are present (R97, R110). -/
def State.paPresent (s : State) (pa : Nat) : Bool := decide (pa < 2 ^ 40) || (s.form == 2 && decide (pa < 3 * 2 ^ 40))
/-- The stack of HBM5 that holds a device physical address: 4 · PA[39] + (PA[13:12] XOR PA[21:20]) (R97). -/
def stackOf (pa : BitVec 40) : Nat := 4 * (pa.extractLsb' 39 1).toNat + (pa.extractLsb' 12 2 ^^^ pa.extractLsb' 20 2).toNat
/-- The die on which a device physical address lies: the halves of HBM5 and of the second tier; none beyond them (R97). -/
def dieOfPa (pa : Nat) : Option Nat := if pa < 2 ^ 40 then some (pa / 2 ^ 39) else if pa < 3 * 2 ^ 40 then some ((pa - 2 ^ 40) / 2 ^ 40) else none
/-- The pieces (offset, length) of an access of n bytes at key k, one for each unit (R111, R119). -/
def splitUnits : Nat → Nat → Nat → Nat → List (Nat × Nat)
  | 0, _, _, _ => []
  | fuel + 1, k, off, n =>
    if n = 0 then []
    else
      let len := min n (unitSize k - k % unitSize k)
      (off, len) :: splitUnits fuel (k + len) (off + len) (n - len)

/-! ## Writes and what a core sees (R118 to R121) -/

/-- Whether two cores share the domain of a scope level: 2 twin, 3 die, 4 device, 5 pod, 6 system. -/
def sameDomain (lvl a b : Nat) : Bool :=
  if lvl ≤ 1 then a == b else if lvl = 2 then a / 2 == b / 2 else if lvl = 3 then a / 96 == b / 96 else true

/-- The write is present at a point that a core consults for a scope (R120). No core stands for the front end and the host. -/
def WriteRec.atPoint (w : WriteRec) (core : Option Nat) (scope : Nat) : Bool :=
  decide (max scope 2 ≤ w.reach) &&
    (match core, w.origin with
     | some c, some o => sameDomain w.reach c o
     | none, some _ => decide (4 ≤ w.reach)
     | _, none => true)

/-- The write is visible to a core at a scope: in its CMP, or at a point consulted (R123). -/
def WriteRec.visible (w : WriteRec) (core : Option Nat) (scope : Nat) : Bool :=
  (match core with | some c => w.cmps.contains c | none => false) || w.atPoint core scope

/-- A byte with every write of the list retired: the initial write or the last retired one. -/
def State.baseByte (s : State) (k : Nat) : Byte :=
  if isScratchKey k then
    match Scratch.get s.scratch k with
    | some v => v
    | none =>
      let core := (k - 2 ^ 61) / 2 ^ 20
      let off := (k - 2 ^ 61) % 2 ^ 20
      match (s.cores[core]?).bind (fun c => c.ranges.find? (fun r => decide (r.base ≤ off) && decide (off < r.base + r.size))) with
      | some r => Config.scratchByte r.gen off
      | none => 0
  else Memory.read s.mem k

/-- The co-latest write to a unit that satisfies a condition. -/
def State.latest (s : State) (unit : Nat) (p : WriteRec → Bool) : Option WriteRec :=
  (s.writes.filter (fun w => w.unit == unit && p w)).getLast?

/-- The bytes of a unit in a write, or its base bytes. -/
def State.unitBytes (s : State) (unit : Nat) : Option WriteRec → List Byte
  | some w => w.bytes
  | none => (List.range (unitSize unit)).map (fun i => s.baseByte (unit + i))

/-- Bytes of a unit replaced from an offset on. -/
def overlay (old : List Byte) (off : Nat) (new : List Byte) : List Byte :=
  old.take off ++ new ++ old.drop (off + new.length)

/-- A write takes its place at the end of co (R119): the bytes it does not cover keep the values of the write before it; the errors of those that
it covers are gone (R377), but for those that the host answers with (R371). -/
def State.addWrite (s : State) (k : Nat) (bytes : List Byte) (origin : Option Nat) (cmps : List Nat) (reach : Nat) : State :=
  let u := unitOf k
  let full := overlay (s.unitBytes u (s.latest u (fun _ => true))) (k - u) bytes
  { s with
    co := s.co + 1
    bitErrors := s.bitErrors.filter (fun e => isHostKey e.key || !(decide (k ≤ e.key) && decide (e.key < k + bytes.length)))
    writes := s.writes ++ [{ seq := s.co + 1, unit := u, bytes := full, origin := origin, cmps := cmps, reach := reach }] }

/-- A run of bytes as a core (or the front end, `none`) sees it at a scope, without a floor. -/
def State.readKey (s : State) (core : Option Nat) (scope k n : Nat) : List Byte :=
  (splitUnits (n + 1) k 0 n).flatMap (fun (off, len) =>
    let u := unitOf (k + off)
    ((s.unitBytes u (s.latest u (fun w => w.visible core scope))).drop (k + off - u)).take len)

/-- Writes of a run of bytes, one for each unit. -/
def State.addBytes (s : State) (k : Nat) (bytes : List Byte) (origin : Option Nat) (cmps : List Nat) (reach : Nat) : State :=
  (splitUnits (bytes.length + 1) k 0 bytes.length).foldl (fun s (off, len) =>
    s.addWrite (k + off) ((bytes.drop off).take len) origin cmps reach) s

/-- A little-endian number of bytes. -/
def leNat : List Byte → Nat
  | [] => 0
  | b :: r => b.toNat + 256 * leNat r

/-- n little-endian bytes of a number. -/
def natLe (n v : Nat) : List Byte := (List.range n).map (fun i => BitVec.ofNat 8 (v / 256 ^ i))

/-- Bytes of a word, half and doubleword. -/
def wordLe (w : Word) : List Byte := natLe 4 w.toNat
/-- The word of four bytes. -/
def leWord (bs : List Byte) : Word := BitVec.ofNat 32 (leNat bs)
/-- The doubleword of eight bytes. -/
def leDWord (bs : List Byte) : DWord := BitVec.ofNat 64 (leNat bs)

/-! ## Retiring writes: the oldest write of a unit that has reached the sys point (or, in scratch, its CMP) becomes the base -/

/-- Some load has presented to the unit and not bound, or a copy that was taken may still read it. -/
def State.unitBusy (s : State) (w : WriteRec) : Bool :=
  s.groups.any (fun g =>
    g.ops.any (fun o => o.parts.any (fun p => p.units.any (fun u =>
      unitOf u.key == w.unit && (match u.prog with | .presented .. => true | _ => false))))) ||
  s.cores.any (fun c => c.engine.any (fun e => e.taken && decide (e.stamp < w.seq)))

/-- The write may become the base of its unit: it is the first of its unit, and no view without it is left. -/
def State.retirable (s : State) (w : WriteRec) : Bool :=
  (isScratchKey w.unit || w.reach == 6) && !s.unitBusy w &&
    (match s.writes.find? (fun x => x.unit == w.unit) with | some x => x.seq == w.seq | none => false)

/-- The base with a write's bytes. -/
def State.retire (s : State) (w : WriteRec) : State :=
  if isScratchKey w.unit then { s with scratch := Scratch.puts s.scratch w.unit w.bytes, writes := s.writes.filter (fun x => x.seq != w.seq) }
  else { s with mem := Memory.writes s.mem w.unit w.bytes, writes := s.writes.filter (fun x => x.seq != w.seq) }

/-- Retires every write that may be, oldest first. -/
def State.retireAll (s : State) : State :=
  s.writes.foldl (fun s w => if s.retirable w then s.retire w else s) s

/-! ## Translation (R94 to R97, R370 to R372) -/

/-- What is asked of an address. -/
structure Want where
  write : Bool
  fetch : Bool
  atomic : Bool
  deriving DecidableEq, Repr

/-- A read. -/
def Want.read : Want := ⟨false, false, false⟩

/-- A request that an access table forbids: its master, its device physical address and what it asks (R381). -/
structure Denial where
  master : Nat
  pa : Nat
  want : Want
  deriving DecidableEq, Repr

/-- What a walk finds: the key of the byte with the leaf's W and X, a page that the host refuses with them (R371), a failure with the level of
R343 and NP, or a read of an entry that its access table forbids (R380). -/
inductive Xlat where
  | ok (key : Nat) (w x : Bool)
  | refused (w x : Bool)
  | fail (level : Nat) (np : Bool)
  | denied (d : Denial)
  deriving DecidableEq, Repr

/-- A table has been written for a master (R380); where none has, it permits all (log 11). -/
def State.tabled (s : State) (master : Nat) : Bool := s.access.any (fun r => r.master == master)

/-- The access table lets a master touch a device physical address (R380). -/
def State.permits (s : State) (master pa : Nat) (write : Bool) : Bool :=
  !s.tabled master || s.access.any (fun r => r.master == master && decide (r.lo ≤ pa) && decide (pa ≤ r.hi) && (if write then r.write else r.read))

/-- The first of n bytes from a device physical address in a request, one for each sector of 32 bytes, that the access table forbids (R380). -/
def State.forbids (s : State) (master pa n : Nat) (write : Bool) : Option Nat :=
  if !s.tabled master then none
  else
    ((List.range ((pa + max 1 n - 1) / 32 - pa / 32 + 1)).map (fun i => (max pa ((pa / 32 + i) * 32), min (pa + max 1 n) ((pa / 32 + i + 1) * 32)))).findSome?
      (fun (lo, hi) => if s.permits master lo write && s.permits master (hi - 1) write then none else some lo)

/-- The low bit of the address field a level decodes, and the address bits of its table's index. -/
def levelShift (l : Nat) : Nat := match l with | 0 => 39 | 1 => 30 | 2 => 21 | _ => 16
/-- Bits of the index of a level. -/
def levelBits (l : Nat) : Nat := match l with | 0 => 17 | 1 => 9 | 2 => 9 | _ => 5
/-- log2 of the size of the table of a level. -/
def tableAlign (l : Nat) : Nat := match l with | 0 => 20 | 1 => 12 | 2 => 12 | _ => 8

/-- ADDR of an entry as a byte address. -/
def entryAddr (e : DWord) : Nat := (e.extractLsb' 8 48).toNat * 256

/-- A valid entry is malformed at a level (R96). -/
def entryMalformed (l : Nat) (e : DWord) : Bool :=
  let leaf := e.getLsbD 1
  (leaf && l == 0) || (!leaf && l == 3) || e.extractLsb' 56 8 != 0 || e.extractLsb' 6 2 != 0 ||
    entryAddr e % 2 ^ (if leaf then levelShift l else tableAlign (l + 1)) != 0

/-- The leaf's result for a virtual address. -/
def State.leafKey (s : State) (fn l : Nat) (e : DWord) (va : Nat) : Xlat :=
  let a := entryAddr e + va % 2 ^ levelShift l
  if e.getLsbD 4 then
    if ((s.fns[fn]?).map Fn.sva).getD false then
      match Config.hostTranslate fn (a / 4096) with
      | some p => .ok (hostKey ((p * 4096 + a % 4096) % 2 ^ 56)) (e.getLsbD 2) (e.getLsbD 3)
      | none => .refused (e.getLsbD 2) (e.getLsbD 3)
    else .ok (hostKey a) (e.getLsbD 2) (e.getLsbD 3)
  else .ok a (e.getLsbD 2) (e.getLsbD 3)

/-- The walk from the table of a level at address t: entries come from the caches of the function, else from `rd`, which reads memory
as the accessor sees it and may be unable to yet; such a read is a request of the function's master, held while that is frozen (R380, R381).
Returns the entries to hold and the result. -/
def State.walkFrom (s : State) (fn : Nat) (rd : Nat → Option DWord) (va : Nat) : Nat → Nat → Nat → Option (List (Nat × Nat × DWord) × Xlat)
  | 0, _, _ => some ([], .fail 3 false)
  | fuel + 1, l, t =>
    let ea := t + 8 * (va / 2 ^ levelShift l % 2 ^ levelBits l)
    let got : Option DWord :=
      match s.tlb.find? (fun e => e.1 == fn && e.2.1 == ea) with
      | some e => some e.2.2
      | none => if s.frozen.contains fn then none else rd ea
    let cached := s.tlb.any (fun e => e.1 == fn && e.2.1 == ea)
    match got with
    | none => none
    | some e =>
      if !cached && (s.forbids fn ea 8 false).isSome then some ([], .denied ⟨fn, ea, .read⟩) else
      if !e.getLsbD 0 || entryMalformed l e then some ([], .fail l false)
      else if e.getLsbD 1 then some ([(fn, ea, e)], s.leafKey fn l e va)
      else if !s.paPresent (entryAddr e) then some ([(fn, ea, e)], .fail l true)
      else
        match State.walkFrom s fn rd va fuel (l + 1) (entryAddr e) with
        | none => none
        | some (es, r) => some ((fn, ea, e) :: es, r)

/-- The walk of a virtual address in a function's context; none while an entry cannot be read yet. -/
def State.walk (s : State) (fn : Nat) (rd : Nat → Option DWord) (va : DWord) : Option (List (Nat × Nat × DWord) × Xlat) :=
  if va.extractLsb' 56 8 != 0 then some ([], .fail 0 false)
  else
    match (s.fns[fn]?).bind Fn.level0 with
    | none => some ([], .fail 0 false)
    | some t => if !s.paPresent t then some ([], .fail 0 true) else s.walkFrom fn rd va.toNat 4 0 t

/-- Entries held by the translation caches (R96, R370, log 8). -/
def State.keepEntries (s : State) (es : List (Nat × Nat × DWord)) : State :=
  { s with tlb := es.foldl (fun t e => if t.any (fun x => x.1 == e.1 && x.2.1 == e.2.1) then t else e :: t) s.tlb }

/-- Reading a table entry as a load at dev scope of a core without a floor (R341, R370); none of the front end. -/
def State.readEntry (s : State) (core : Option Nat) (ea : Nat) : Option DWord := some (leDWord (s.readKey core 4 ea 8))

/-- DETAIL of translation and permission (R343). -/
def xlatDetail (k : Want) (level : Nat) (np : Bool) (master : Nat) : Word :=
  BitVec.ofNat 32 ((if k.write then 1 else 0) + (if k.fetch then 2 else 0) + (if k.atomic then 4 else 0) + 8 * level +
    (if np then 64 else 0) + 256 * master)

/-- The outcome of an access's translation: a key, or a fault code with its DETAIL, or a request that an access table forbids, or a
master that is frozen. -/
inductive Access where
  | ok (key : Nat)
  | fault (code : Nat) (detail : Word)
  | forbidden (d : Denial)
  | frozen
  deriving DecidableEq, Repr

/-- The leaf's W and X admit what is asked (R96). -/
def Want.admitted (k : Want) (w x : Bool) : Bool := (w || !(k.write || k.atomic)) && (x || !k.fetch)

/-- The check of a walk's result for an access of n bytes in one page: the leaf's permissions, then the host's refusal or the presence of the
address, then the access table request by request (R96, R371, R372, R380, R381). -/
def State.judge (s : State) (master : Nat) (k : Want) (n : Nat) (x : Xlat) : Access :=
  match x with
  | .fail l np => .fault 0x09 (xlatDetail k l np 0)
  | .denied d => .forbidden d
  | .refused w x => if k.admitted w x then .fault 0x09 (xlatDetail k 7 false 0) else .fault 0x0A (xlatDetail k 7 false 0)
  | .ok key w x =>
    if !k.admitted w x then .fault 0x0A (xlatDetail k 7 false 0)
    else if isHostKey key then .ok key
    else if !s.paPresent key then .fault 0x09 (xlatDetail k 7 true 0)
    else if s.frozen.contains master then .frozen
    else
      match s.forbids master key n (k.write || k.atomic) with
      | some pa => .forbidden ⟨master, pa, k⟩
      | none => .ok key

/-- The runs (offset, length) of n bytes from a virtual address, one for each 64 KiB page. -/
def pageRuns : Nat → Nat → Nat → Nat → List (Nat × Nat)
  | 0, _, _, _ => []
  | fuel + 1, va, off, n =>
    if n = 0 then []
    else
      let len := min n (65536 - va % 65536)
      (off, len) :: pageRuns fuel (va + len) (off + len) (n - len)

/-- The keys of a run of virtual bytes whose pages are walked by `walk`, or the first failure. -/
def State.locateBy (s : State) (walk : State → DWord → Option (State × Xlat)) (master : Nat) (k : Want) (va : DWord) (n : Nat) :
    State × Except (Access × DWord) (List (Nat × Nat × Nat)) :=
  (pageRuns (n / 65536 + 3) va.toNat 0 n).foldl (fun (s, r) (off, len) =>
    match r with
    | .error e => (s, .error e)
    | .ok ks =>
      let a := va + BitVec.ofNat 64 off
      match walk s a with
      | none => (s, .error (.frozen, a))
      | some (s, x) =>
        match s.judge master k len x with
        | .ok key => (s, .ok (ks ++ [(key, off, len)]))
        | e => (s, .error (e, a))) (s, .ok [])

/-- The walk of an address by a unit of a core, or by the front end, which has no lane and no floor. -/
def State.unitWalk (core : Option Nat) (fn : Nat) (s : State) (a : DWord) : Option (State × Xlat) :=
  (s.walk fn (s.readEntry core) a).map (fun (es, x) => (s.keepEntries es, x))

/-- The keys of a run of virtual bytes for a function as a core or the front end reads and writes them, or the first failure. -/
def State.locate (s : State) (core : Option Nat) (fn master : Nat) (k : Want) (va : DWord) (n : Nat) :
    State × Except (Access × DWord) (List (Nat × Nat × Nat)) := s.locateBy (State.unitWalk core fn) master k va n

/-- Virtual bytes read at a scope for a function, or the failure. -/
def State.readVa (s : State) (core : Option Nat) (scope fn master : Nat) (va : DWord) (n : Nat) :
    State × Except (Access × DWord) (List Byte) :=
  match s.locate core fn master ⟨false, false, false⟩ va n with
  | (s, .ok ks) => (s, .ok (ks.flatMap (fun (k, _, len) => s.readKey core scope k len)))
  | (s, .error e) => (s, .error e)

/-- Bytes written to runs that were located, present at every point at once. -/
def State.putRuns (s : State) (ks : List (Nat × Nat × Nat)) (bytes : List Byte) : State :=
  ks.foldl (fun s (k, off, len) => s.addBytes k ((bytes.drop off).take len) none [] 6) s

/-- Virtual bytes written for a function, present at every point at once (a store of the front end or of a device unit). -/
def State.writeVa (s : State) (core : Option Nat) (fn master : Nat) (va : DWord) (bytes : List Byte) : State × Option (Access × DWord) :=
  match s.locate core fn master ⟨true, false, false⟩ va bytes.length with
  | (s, .ok ks) => (s.putRuns ks bytes, none)
  | (s, .error e) => (s, some e)

end Sys2Proof.Machine
end

