-- ==== Sys2Proof/Machine/Operands.lean ====
section
/-! DEFINITION. Sys2Proof/Machine/Operands.lean: reaching the parts of the state, and every operand form: vector registers through
their tags (R67, R70, R71), uniform registers and pairs (R65, R50), predicates, special registers' shapes (R25), blocks, granules and
tag quads (R68). -/

namespace Sys2Proof.Machine

/-! ## Parts of the state -/

/-- The group in a slot of a core. -/
def State.group? (s : State) (core slot : Nat) : Option Group := s.groups.find? (fun g => g.core == core && g.slot == slot)
/-- One group replaced, by its core and slot. -/
def State.setGroup (s : State) (g : Group) : State :=
  { s with groups := s.groups.map (fun x => if x.core == g.core && x.slot == g.slot then g else x) }
/-- One group changed. -/
def State.updGroup (s : State) (core slot : Nat) (f : Group → Group) : State :=
  { s with groups := s.groups.map (fun x => if x.core == core && x.slot == slot then f x else x) }
/-- A core. -/
def State.core (s : State) (c : Nat) : Core := s.cores.getD c Core.reset
/-- One core changed. -/
def State.updCore (s : State) (c : Nat) (f : Core → Core) : State := { s with cores := s.cores.modify c f }
/-- The cluster of a core. -/
def clusterOf (core : Nat) : Nat := core / Config.coresPerCluster
/-- A cluster. -/
def State.cluster (s : State) (n : Nat) : Cluster := s.clusters.getD n Cluster.reset
/-- The core clocks that a core's cluster has counted (R5). -/
def State.clocks (s : State) (core : Nat) : Nat := (s.cluster (clusterOf core)).cyc10 / 10
/-- One cluster changed. -/
def State.updCluster (s : State) (c : Nat) (f : Cluster → Cluster) : State := { s with clusters := s.clusters.modify c f }
/-- A function. -/
def State.fn (s : State) (n : Nat) : Fn := s.fns.getD n Fn.reset
/-- One function changed. -/
def State.updFn (s : State) (n : Nat) (f : Fn → Fn) : State := { s with fns := s.fns.modify n f }
/-- A queue of a function. -/
def State.queue (s : State) (fn q : Nat) : Queue := (s.fn fn).queues.getD q Queue.reset
/-- One queue changed. -/
def State.updQueue (s : State) (fn q : Nat) (f : Queue → Queue) : State :=
  s.updFn fn (fun x => { x with queues := x.queues.modify q f })
/-- A grid by its number. -/
def State.grid? (s : State) (n : Word) : Option Grid := s.grids.find? (fun g => g.num == n)
/-- One grid changed. -/
def State.updGrid (s : State) (n : Word) (f : Grid → Grid) : State :=
  { s with grids := s.grids.map (fun g => if g.num == n then f g else g) }
/-- The key of team n of a die within its grid: each die numbers its teams from 0 (R24). -/
def teamKey (die n : Nat) : Nat := 2 * n + die
/-- %team of a group (R24). -/
def Group.number (g : Group) : Nat := g.team / 2
/-- The dispatch number of a team within its die (R24). -/
def Team.number (t : Team) : Nat := t.num / 2
/-- A team by grid and key. -/
def State.team? (s : State) (grid : Word) (n : Nat) : Option Team := s.teams.find? (fun t => t.grid == grid && t.num == n)
/-- One team changed. -/
def State.updTeam (s : State) (grid : Word) (n : Nat) (f : Team → Team) : State :=
  { s with teams := s.teams.map (fun t => if t.grid == grid && t.num == n then f t else t) }
/-- The function of a grid; the physical function for none. -/
def State.fnOf (s : State) (grid : Word) : Nat := ((s.grid? grid).map Grid.fn).getD 0

/-- A lane that does not exist. -/
def Lane.absent : Lane :=
  { run := .absent, pc := 0, fd := 0, frame := 0, phases := [], preds := 0, k := 0, ix := 0, iy := 0, iz := 0, floors := [], seen := [],
    deferred := [] }

/-- A lane of a group. -/
def Group.lane (g : Group) (l : Nat) : Lane := g.lanes.getD l Lane.absent
/-- One lane changed. -/
def Group.updLane (g : Group) (l : Nat) (f : Lane → Lane) : Group := { g with lanes := g.lanes.modify l f }
/-- The lanes of a set changed. -/
def Group.updLanes (g : Group) (m : LaneSet) (f : Nat → Lane → Lane) : Group :=
  { g with lanes := g.lanes.mapIdx (fun l x => if m.has l then f l x else x) }

/-- A lane is live while it exists and has not exited (R44). -/
def Run.live : Run → Bool
  | .absent | .exited => false
  | _ => true
/-- A lane in the vote (R44). -/
def Run.runnable : Run → Bool
  | .running => true
  | _ => false
/-- The live lanes. -/
def Group.live (g : Group) : LaneSet := LaneSet.ofPred g.w (fun l => (g.lane l).run.live)
/-- The group has exited (R43). -/
def Group.exited (g : Group) : Bool := g.lanes.all (fun x => !x.run.live)

/-- A frame by its reference. -/
def Group.frame? (g : Group) (id : Nat) : Option Frame := g.frames.find? (fun f => f.id == id)
/-- A frame that no lane refers to. -/
def Frame.none : Frame :=
  { id := 0, owners := 0, depth := 0, rpc := 0, caller := Option.none, na := 0, nv := 0, ns := 0, v := [], s := [], recSpilled := false,
    handler := Option.none }
/-- A lane's current frame (R213). -/
def Group.frm (g : Group) (l : Nat) : Frame := (g.frame? (g.lane l).frame).getD Frame.none
/-- One frame changed. -/
def Group.updFrame (g : Group) (id : Nat) (f : Frame → Frame) : Group :=
  { g with frames := g.frames.map (fun x => if x.id == id then f x else x) }

/-- The lowest lane of a set. -/
def lowest (m : LaneSet) (w : Nat) : Nat := ((m.list w).head?).getD 0

/-- The frames that lanes of a set refer to, in ascending order of their lowest such lane, each with those lanes (R49). -/
def Group.framesOf (g : Group) (m : LaneSet) : List (Frame × LaneSet) :=
  (m.list g.w).foldl (fun acc l =>
    let id := (g.lane l).frame
    if acc.any (fun (x : Frame × LaneSet) => x.1.id == id) then acc.map (fun x => if x.1.id == id then (x.1, x.2 ||| LaneSet.one l) else x)
    else match g.frame? id with
      | some f => acc ++ [(f, LaneSet.one l)]
      | Option.none => acc) []

/-! ## Vector values and tags (R67) -/

/-- A vector value: its shape with what each lane holds. -/
inductive Val where
  | u (b : Word)
  | a (b d : Word)
  | g (at_ : Nat → Word)

/-- The value in a lane. -/
def Val.lane : Val → Nat → Word
  | .u b, _ => b
  | .a b d, l => b + d * BitVec.ofNat 32 l
  | .g f, l => f l
/-- All-U. -/
def Val.isU : Val → Bool
  | .u _ => true
  | _ => false
/-- An A value of stride 0 is U. -/
def Val.affine (b d : Word) : Val := if d = 0 then .u b else .a b d

/-- The words of a granule set. -/
def Group.setWords (g : Group) (id : Nat) : List Word :=
  match g.sets.find? (fun x => x.id == id) with
  | some x => x.words
  | none => []

/-- The tag of a register of a frame. -/
def Frame.tag (f : Frame) (r : Nat) : Tag := f.v.getD r (.u 0)

/-- The value of a tag; a spilled register's is not read before it is refilled (R81). -/
def Group.tagVal (g : Group) : Tag → Val
  | .u b => .u b
  | .a b d => .a b d
  | .g id => .g (fun l => (g.setWords id).getD l 0)
  | .spilled => .g (fun _ => 0)

/-- V(r) of a frame (R213). -/
def Group.readV (g : Group) (f : Frame) (r : Nat) : Val := g.tagVal (f.tag r)
/-- V(r, L) read through the lane's frame (R213). -/
def Group.laneV (g : Group) (r l : Nat) : Word := (g.readV (g.frm l) r).lane l

/-! ## Granules and tag quads (R68, R73) -/

/-- Granules of one G register at the group's width. -/
def Group.perReg (g : Group) : Nat := g.w / 16
/-- Granules a group holds: its granule sets and the record granules of its called frames. -/
def Group.granules (g : Group) : Nat :=
  g.sets.length * g.perReg + (g.frames.filter (fun f => f.depth != 0 && !f.recSpilled)).length
/-- Tag quads a group holds. -/
def Group.quads (g : Group) : Nat := g.frames.foldl (fun n f => n + (f.nv + 3) / 4) 0
/-- The groups of a core. -/
def State.onCore (s : State) (c : Nat) : List Group := s.groups.filter (fun g => g.core == c)
/-- Granules granted to requests and not taken yet. -/
def State.reservedRows (s : State) (c : Nat) : Nat :=
  (s.core c).requests.foldl (fun n r => if r.granted then n + r.rows else n) 0
/-- Quads granted to requests and not taken yet. -/
def State.reservedQuads (s : State) (c : Nat) : Nat :=
  (s.core c).requests.foldl (fun n r => if r.granted then n + r.quads else n) 0
/-- Free granules of a core. -/
def State.freeRows (s : State) (c : Nat) : Nat :=
  Config.granules - (s.onCore c).foldl (fun n g => n + g.granules) 0 - s.reservedRows c
/-- Free tag quads of a core. -/
def State.freeQuads (s : State) (c : Nat) : Nat :=
  Config.quads - (s.onCore c).foldl (fun n g => n + g.quads) 0 - s.reservedQuads c

/-- Drops the granule sets that no register names (R75). -/
def Group.collect (g : Group) : Group :=
  { g with sets := g.sets.filter (fun x => g.frames.any (fun f => f.v.contains (.g x.id))) }
/-- A set number not in use. -/
def Group.freshSet (g : Group) : Nat := g.sets.foldl (fun n x => max n (x.id + 1)) 0

/-! ## Writing vector registers (R71) -/

/-- The register's tag replaced. -/
def Group.setTag (g : Group) (fid r : Nat) (t : Tag) : Group := g.updFrame fid (fun f => { f with v := f.v.set r t })

/-- All lanes of a tag as a granule set would hold them. -/
def Group.spread (g : Group) (t : Tag) : List Word := (List.range g.w).map (g.tagVal t).lane

/-- The lanes of a set written into the words of a granule set. -/
def writeLanes (m : LaneSet) (v : Val) (ws : List Word) : List Word := ws.mapIdx (fun l x => if m.has l then v.lane l else x)

/-- How a write with active lanes m of value v to a register of frame f acts (R71): whether it takes a granule set. -/
def Frame.takesSet (f : Frame) (r : Nat) (m : LaneSet) (v : Val) : Bool :=
  let full := LaneSet.subset f.owners m
  match f.tag r, v with
  | .g _, _ => false
  | .spilled, .g _ => true
  | .spilled, _ => !full
  | .u b, .u c => !full && b != c
  | _, .g _ => true
  | _, _ => !full

/-- A write of a vector result (R71). -/
def Group.writeV (g : Group) (f : Frame) (r : Nat) (m : LaneSet) (v : Val) : Group :=
  let full := LaneSet.subset f.owners m
  let expand (g : Group) : Group :=
    let id := g.freshSet
    let g' : Group := { g with sets := g.sets ++ [(GSet.mk id (writeLanes m v (g.spread (f.tag r))))] }
    g'.setTag f.id r (.g id)
  let inPlace (g : Group) (id : Nat) : Group :=
    { g with sets := g.sets.map (fun x => if x.id == id then { x with words := writeLanes m v x.words } else x) }
  match full, v with
  | true, .u b => (g.setTag f.id r (.u b)).collect
  | true, .a b d => (g.setTag f.id r (.a b d)).collect
  | _, _ =>
    match f.tag r, v with
    | .g id, _ => inPlace g id
    | .u b, .u c => if b = c then g else expand g
    | _, _ => expand g

/-- The register made G with its lanes as they are (the granules a load takes when it issues, R73). -/
def Group.makeG (g : Group) (f : Frame) (r : Nat) : Group :=
  match f.tag r with
  | .g _ => g
  | t =>
    let id := g.freshSet
    ({ g with sets := g.sets ++ [GSet.mk id (g.spread t)] } : Group).setTag f.id r (.g id)

/-- Not in G shape with granules in Bobbin. -/
def Frame.notG (f : Frame) (r : Nat) : Bool :=
  match f.tag r with
  | .g _ => false
  | _ => true

/-! ## Shapes of per-thread values (R25) -/

/-- The words b of U or (b, d) of A that the lanes of a list hold, d the smallest stride; else G. Candidates for d solve the first
two lanes' congruence, at most 2^5 of them since lanes differ by less than 64. -/
def shapeOf (ls : List Nat) (f : Nat → Word) : Val :=
  match ls with
  | [] => .u 0
  | [l] => .u (f l)
  | l :: m :: r =>
    if (m :: r).all (fun k => f k == f l) then .u (f l)
    else
      let k := m - l
      let diff := (f m - f l).toNat
      let g := Nat.gcd k (2 ^ 32)
      if diff % g != 0 then .g f
      else
        let step := 2 ^ 32 / g
        -- k/g is odd or 1 modulo a power of two: its inverse by repeated squaring of the unit group
        let kg := BitVec.ofNat 32 (k / g)
        let inv := kg * kg * kg
        let inv := inv * (2 - kg * inv)
        let inv := inv * (2 - kg * inv)
        let inv := inv * (2 - kg * inv)
        let inv := inv * (2 - kg * inv)
        let d0 := (inv * BitVec.ofNat 32 (diff / g)).toNat % step
        let fits (d : Nat) : Bool :=
          let dw := BitVec.ofNat 32 d
          let b := f l - dw * BitVec.ofNat 32 l
          ls.all (fun x => f x == b + dw * BitVec.ofNat 32 x)
        match ((List.range g).map (fun i => d0 + i * step)).find? fits with
        | some d => Val.affine (f l - BitVec.ofNat 32 d * BitVec.ofNat 32 l) (BitVec.ofNat 32 d)
        | none => .g f

/-! ## Uniform registers, pairs, predicates -/

/-- U(r) of a frame. -/
def Frame.U (f : Frame) (r : Nat) : Word := f.s.getD r 0
/-- UP(r) of a frame (R65). -/
def Frame.UP (f : Frame) (r : Nat) : DWord := f.U (r + 1) ++ f.U r
/-- setU (R50). -/
def Group.setU (g : Group) (fid r : Nat) (x : Word) : Group := g.updFrame fid (fun f => { f with s := f.s.set r x })
/-- setUP. -/
def Group.setUP (g : Group) (fid r : Nat) (x : DWord) : Group := (g.setU fid r (x.extractLsb' 0 32)).setU fid (r + 1) (x.extractLsb' 32 32)

/-- Pd(n, L). -/
def Group.pd (g : Group) (n l : Nat) : Bool := (g.lane l).preds.getLsbD n
/-- A half word with one bit set to a value. -/
def setBit (w : Half) (n : Nat) (b : Bool) : Half :=
  if b then w ||| BitVec.ofNat 16 (2 ^ n) else w &&& ~~~(BitVec.ofNat 16 (2 ^ n))
/-- setPd: the bits of the lanes of a set only. -/
def Group.setPd (g : Group) (n : Nat) (m : LaneSet) (f : Nat → Bool) : Group :=
  g.updLanes m (fun l x => { x with preds := setBit x.preds n (f l) })

/-- The lanes active under a guard (R51). -/
def Group.active (g : Group) (path : LaneSet) (h : Head) : LaneSet :=
  match h.guard with
  | none => path
  | some gd => path &&& LaneSet.ofPred g.w (fun l => g.pd gd.pred.toNat l != gd.sense)

/-! ## Flags and modes (R86) -/

/-- rmode of the group. -/
def Group.rmode (g : Group) : RMode := RMode.ofFmode g.fmode
/-- The bits set in %fflags. -/
def Group.flag (g : Group) (fl : FFlags) : Group := { g with fflags := g.fflags ||| fl.setWidth 16 }

/-! ## Scoreboard and bindings (R60, R132, R298) -/

/-- A part whose destination elements are not all written. -/
def Part.pending (p : Part) : Bool :=
  match p.prog with
  | .done => false
  | _ => true

/-- The registers of class v or s that an outstanding access will write: in its frame and for all its lanes there, until the last element is
written (R60). -/
def Op.blocks (o : Op) (cls : RegClass) (fid r n : Nat) (m : LaneSet) : Bool :=
  let hit (d c : Nat) : Bool := decide (d < r + n) && decide (r < d + c)
  let mine := o.parts.filter (fun p => p.frame == fid)
  match o.dest, cls with
  | .vec d c _, .v => hit d c && mine.any Part.pending && mine.any (fun p => p.lanes &&& m != 0)
  | .uni d c, .s => hit d c && mine.any Part.pending
  | _, _ => false

/-- A register block of a frame is scoreboarded for lanes (R60). -/
def Group.scoreboarded (g : Group) (cls : RegClass) (fid r n : Nat) (m : LaneSet) : Bool := g.ops.any (fun o => o.blocks cls fid r n m)

/-- Tile t is bound to a transfer, a configuration load or a matrix operation (R132, R291, R298). -/
def State.tileBound (s : State) (g : Group) (t : Nat) : Bool :=
  g.ops.any (fun o => (match o.dest with | .tile x _ => x == t | _ => false) && o.parts.any Part.pending) ||
  (s.core g.core).array.any (fun m => m.slot == g.slot &&
    (match m.kind with
     | .nar d => d == t
     | .q2 d b | .qe d b => d == t || b == t
     | _ => false))
/-- Accumulator a is bound to a matrix operation. -/
def State.accBound (s : State) (g : Group) (a : Nat) : Bool :=
  (s.core g.core).array.any (fun m => m.slot == g.slot &&
    (match m.kind with
     | .mma _ d | .had d | .perm d | .wid d => d == a
     | _ => false))

/-- A register named by a word is not free: scoreboarded in some frame of the path, or bound, or spilled and read (R60, R81, R132). -/
def State.useBusy (s : State) (g : Group) (act : LaneSet) (u : Use) : Bool :=
  match u.cls with
  | .v | .s =>
    (g.framesOf act).any (fun (f, m) =>
      g.scoreboarded u.cls f.id u.reg u.count m ||
        (u.cls == .v && (List.range u.count).any (fun i => f.tag (u.reg + i) == .spilled && !(u.write && LaneSet.subset f.owners m))))
  | .t => s.tileBound g u.reg
  | .a => s.accBound g u.reg
  | .p => false

/-- The register bound by a field (R204, R358): class number and index of the first register beyond the frame's or launch's demand. -/
def useBeyond (u : Use) (nv ns nt nac : Nat) : Option (Nat × Nat) :=
  let chk (c lim : Nat) : Option (Nat × Nat) := if u.reg + u.count ≤ lim then none else some (c, max u.reg lim)
  match u.cls with
  | .v => chk 0 nv
  | .s => chk 1 ns
  | .t => if u.reg < nt then none else some (2, u.reg)
  | .a => if u.reg < nac then none else some (3, u.reg)
  | .p => none

end Sys2Proof.Machine
end

