-- ==== Sys2Proof/Machine/Ops.lean ====
section
/-! DEFINITION. Sys2Proof/Machine/Ops.lean: the operations that instructions share: cancelling a grid (R402), writing a fault ring record
(R346), leaving frames (R76, R77, R345), taking a fault and returning from its handler (R334 to R347), requests for rows and tag quads
(R73, R360), and the frame in which every word executes (R51, R58, R60, R201, R214, R337). -/

namespace Sys2Proof.Machine

/-! ## Cancellation and the fault ring -/

/-- A grid is cancelled: the first cancellation fixes the cause; under pod reach a device sends it to the root, whose first receipt does (R402). -/
def State.cancelGrid (s : State) (grid : Word) (cause : Nat) : State :=
  s.updGrid grid (fun g =>
    if g.cancelled.isSome || g.completing then g
    else if g.record.reach = 2 ∧ !s.root then { g with asked := some (g.asked.getD cause) }
    else { g with cancelled := some cause })

/-- A record of the fault ring (R346), TIME apart. -/
structure RingRecord where
  grid : Word
  team : Nat
  core : Nat
  slot : Nat
  lane : Nat
  code : Nat
  kind : Nat
  flags : Nat
  queue : Nat
  fpc : DWord
  faddr : DWord
  detail : Word
  deriving DecidableEq, Repr

/-- A master is frozen (R381). -/
def State.freeze (s : State) (master : Nat) : State := { s with frozen := if s.frozen.contains master then s.frozen else master :: s.frozen }

/-- The 64 bytes of a record (R346). -/
def RingRecord.bytes (r : RingRecord) (time : DWord) : List Byte :=
  wordLe r.grid ++ natLe 4 r.team ++ natLe 2 r.core ++ natLe 1 r.slot ++ natLe 1 r.lane ++ natLe 1 r.code ++ natLe 1 r.kind ++
    natLe 1 r.flags ++ natLe 1 r.queue ++ natLe 8 r.fpc.toNat ++ natLe 8 r.faddr.toNat ++ wordLe r.detail ++ natLe 4 0 ++
    natLe 8 time.toNat ++ natLe 16 0

/-- A read of n bytes from a key meets an uncorrectable error (R377), or reaches a device of the pod that is lost (R408). -/
def State.uncorrectable (s : State) (k n : Nat) : Bool :=
  s.bitErrors.any (fun e => e.uncorrectable && decide (k ≤ e.key) && decide (e.key < k + n)) ||
    s.lostPeers.any (fun d => isHostKey k && Config.hostOwner ((k - 2 ^ 60) / 65536) == some d)

/-- The memory error registers after a read of n bytes from a key in a function's context (R379): an uncorrectable error is counted and
kept in MERRLAST, else a corrected one is counted; in the function's counts and in the physical function's. -/
def State.noteErrors (s : State) (fn k n : Nat) : State :=
  let hits := s.bitErrors.filter (fun e => decide (k ≤ e.key) && decide (e.key < k + n) && !isHostKey e.key)
  if hits.isEmpty then s
  else
    let bump (s : State) (f : Fn → Fn) : State := if fn = 0 then s.updFn 0 f else (s.updFn fn f).updFn 0 f
    match hits.find? BitError.uncorrectable with
    | some e =>
      let src := if isScratchKey e.key then 3 else if e.cached then 2 else if e.key < 2 ^ 40 then 0 else 1
      let at_ := if isScratchKey e.key then (e.key - 2 ^ 61) / 2 ^ 20 * 2 ^ 20 else e.key
      { bump s (fun f => { f with merrUnc := if f.merrUnc == 0xFFFF then f.merrUnc else f.merrUnc + 1 }) with
        merrlast := BitVec.ofNat 64 (src * 2 ^ 60 + at_ % 2 ^ 56) }
    | none => bump s (fun f => { f with merrCor := if f.merrCor == 0xFFFFFFFF then f.merrCor else f.merrCor + 1 })

/-- The memory error registers after an uncorrectable error in a register or in the state of a group of a core: `src` is 4 register files,
5 tile or accumulator file, 6 operand log (R379). -/
def State.noteLocal (s : State) (fn core src : Nat) : State :=
  let up (f : Fn) : Fn := { f with merrUnc := if f.merrUnc == 0xFFFF then f.merrUnc else f.merrUnc + 1 }
  let s := if fn = 0 then s.updFn 0 up else (s.updFn fn up).updFn 0 up
  { s with merrlast := BitVec.ofNat 64 (src * 2 ^ 60 + core * 2 ^ 20) }

/-- The store of a record of n bytes in a function's context meets an uncorrectable error, which is counted (R346, R379), in what it writes
over. -/
def State.storeBad (s : State) (fn master : Nat) (va : DWord) (n : Nat) : State × Bool :=
  match s.locate none fn master ⟨true, false, false⟩ va n with
  | (s, .ok ks) =>
    if ks.any (fun (k, _, len) => s.uncorrectable k len) then (ks.foldl (fun s (k, _, len) => s.noteErrors fn k len) s, true) else (s, false)
  | (s, .error _) => (s, false)

/-- A record is written to the ring of a function, or dropped and counted (R346 step 2); where an access table forbids its store the master is
frozen, and no further record is written (R381). -/
def State.ring (s : State) (fn : Nat) (r : RingRecord) : State :=
  let f := s.fn fn
  let n := 2 ^ (f.fltctl.toNat % 32)
  let drop (s : State) : State := s.updFn fn (fun f => { f with fltlost := f.fltlost + 1 })
  if !f.fltbase.getLsbD 0 || (f.flttail - f.flthead).toNat == n then drop s
  else
    let va := (f.fltbase &&& ~~~(63#64)) + BitVec.ofNat 64 (64 * (f.flttail.toNat % n))
    match s.storeBad fn (0x40 + fn) va 64 with
    | (s, true) => drop s
    | (s, false) =>
      match s.writeVa none fn (0x40 + fn) va (r.bytes s.ptime) with
      | (s, none) =>
        (s.updFn fn (fun f => { f with flttail := f.flttail + 1 })).updGrid r.grid (fun g => { g with records := g.records + 1 })
      | (s, some (.forbidden d, _)) => drop (s.freeze d.master)
      | (s, some _) => drop s

/-- DETAIL[2:0] of a request. -/
def Want.code (k : Want) : BitVec 3 := BitVec.ofNat 3 ((if k.write then 1 else 0) + (if k.fetch then 2 else 0) + (if k.atomic then 4 else 0))

/-- A request of a grid is held at its master's arbiter (R381). -/
def State.holdRequest (s : State) (master : Nat) (grid : Word) : State :=
  if s.frozenHeld.contains (master, grid) then s else { s with frozenHeld := (master, grid) :: s.frozenHeld }

/-- A request that an access table forbids is discarded, its master frozen and one record written to the physical function's ring, which names
the grid, team and queue for a compute or copy master (R381). -/
def State.violate (s : State) (d : Denial) (grid : Word) (core slot lane : Nat) (fpc : DWord) : State :=
  let mine := decide (d.master < 0x40)
  let team := if mine then (((s.group? core slot).filter (fun g => g.grid == grid)).map Group.number).getD 0 else 0
  let queue := if mine then ((s.grid? grid).map Grid.queue).getD 0 else 0
  (s.freeze d.master).ring 0
    { grid := if mine then grid else 0xFFFFFFFF, team := team, core := core, slot := slot, lane := lane, code := 0x0A, kind := 3, flags := 0,
      queue := queue, fpc := fpc, faddr := BitVec.ofNat 64 d.pa, detail := xlatDetail d.want 6 false d.master }

/-- The queue of a grid shows a fault: QSTAT[2] (R148, R346); the queue of another device's pod grid is on that device, which sets it when the
cancellation reaches it (R430). -/
def State.setFaulted (s : State) (grid : Word) : State :=
  match s.grid? grid with
  | some g =>
    match g.issuer with
    | .remote _ => s
    | _ => s.updQueue g.fn g.queue (fun q => { q with faulted := true })
  | none => s

/-! ## Leaving frames -/

/-- The frames of a lane from its current one down to the kernel frame. -/
def Group.stackFrom (g : Group) : Nat → Nat → List Frame
  | 0, _ => []
  | n + 1, id =>
    match g.frame? id with
    | none => []
    | some f =>
      match f.caller with
      | none => [f]
      | some c => f :: g.stackFrom n c

/-- The frame stack of a lane, current frame first. -/
def Group.stack (g : Group) (l : Nat) : List Frame := g.stackFrom ((g.lane l).fd + 1) (g.lane l).frame

/-- Called frames without an owner are released, with their sets, record granule and tags (R76). -/
def Group.releaseFrames (g : Group) : Group :=
  { g with frames := g.frames.filter (fun f => f.depth == 0 || f.owners != 0) }.collect

/-- Lanes give up the ownership of a frame. -/
def Group.disown (g : Group) (fid : Nat) (m : LaneSet) : Group := g.updFrame fid (fun f => { f with owners := f.owners &&& ~~~m })

/-- The tile bytes of a part replaced (R297, R299). -/
def Group.putTile (g : Group) (t off : Nat) (bs : List Byte) : Group := { g with tiles := sparseSplice 0 g.tiles (t * 4096 + off) bs }

/-- Zeroes in the destination elements of a part of an access (R338, R345). -/
def Group.zeroDest (g : Group) (o : Op) (p : Part) : Group :=
  match o.dest with
  | .vec d n uni =>
    (List.range n).foldl (fun g i =>
      match g.frame? p.frame with
      | some f => g.writeV f (d + i) p.lanes (if uni then .u 0 else .g (fun _ => 0))
      | none => g) g
  | .uni d n => (List.range n).foldl (fun g i => g.setU p.frame (d + i) 0) g
  | .tile t _ => g.putTile t p.off (List.replicate p.size 0)
  | .wait d =>
    (List.range (max 1 (p.size / 4))).foldl (fun g i =>
      match g.frame? p.frame with
      | some f => g.writeV f (d + i) p.lanes (.g (fun _ => 0))
      | none => g) g
  | .none => g

/-- Every part of an access is finished. -/
def Op.finished (o : Op) : Bool := o.parts.all (fun p => p.prog == .done)

/-- The counters fall and the access leaves once every part is finished (R58, R336). -/
def Group.finishOps (g : Group) : Group :=
  let fin := g.ops.filter Op.finished
  let n (f : Op → Bool) : Nat := (fin.filter f).length
  { g with
    ops := g.ops.filter (fun o => !o.finished)
    ld := g.ld - n (·.ldc), st := g.st - n (·.stc), tl := g.tl - n (·.tlc) }

/-- A part waits for its faulted lanes to leave their handlers. -/
def Part.isFaulted (p : Part) : Bool :=
  match p.prog with
  | .faulted .. => true
  | _ => false

/-- A part has not passed translation, and may never (R336, R381). -/
def Part.unpassed (p : Part) : Bool := p.prog == .untranslated || p.prog == .discarded

/-- The access executes once for the group: a tile load, tile store or configuration load (R369). -/
def Op.whole (o : Op) : Bool := match o.kind, o.dest with | .tileStore, _ => true | _, .tile .. => true | _, _ => false

/-- An access is free of the log once every unit of every part has passed (R336). -/
def Group.freeLog (g : Group) : Group :=
  { g with ops := g.ops.map (fun o =>
      if o.parts.all (fun p => !p.unpassed && !p.isFaulted) then { o with log := none } else o) }

/-- A part is to be translated again, as a new issue (R344). -/
def Part.again (p : Part) (issue : Nat) : Part :=
  { p with prog := .untranslated, units := [], issue := issue, leftRestart := 0, leftAbandon := false }

/-- The lane of a part of a wait on address reads its word outside the vote (R115, R287); the part's data hold its timeout. -/
def Group.startWait (g : Group) (p : Part) (d : Nat) (acq : Bool) (scope : Nat) (now : DWord) : Group :=
  let t := leNat p.data
  let w : WtaWait :=
    { va := p.va, scratch := p.scratch, key := none, size := p.size, cmp := leDWord (p.cmp ++ List.replicate (8 - p.cmp.length) 0),
      acq := acq, scope := scope, dst := d, frame := p.frame, deadline := if t = 0 then none else some (now.toNat + t), watched := false,
      reading := true }
  g.updLane p.lead (fun x => { x with run := .address w })

/-- A faulted part of an access that every lane makes for itself, of which lane l takes its own share (R344): a load whose address is one for a
frame. -/
def Part.split (p : Part) (l : Nat) : List Part :=
  if p.isFaulted && p.lanes.has l && p.lanes != LaneSet.one l then
    let rest := p.lanes &&& ~~~(LaneSet.one l)
    [{ p with lanes := rest, lead := lowest rest 64 }, { p with lanes := LaneSet.one l, lead := l }]
  else [p]

/-- A trapped lane leaves the handler it entered for an access: `restart` reissues its part (R344), else the part is abandoned (R345). An
access that executes once for the group or a frame waits for the last of its lanes, and is abandoned when one of them abandons it; of any other
access each lane's part is its own. -/
def Group.settleAccess (g : Group) (opId l : Nat) (restart : Bool) : Group :=
  match g.ops.find? (fun o => o.id == opId) with
  | none => g
  | some o =>
    let o := if o.once || o.whole then o
      else { o with parts := o.parts.map (fun p => (p.split l).headD p) ++ o.parts.flatMap (fun p => (p.split l).drop 1) }
    let mine (p : Part) : Bool := p.lanes.has l && p.isFaulted
    let mark (p : Part) : Part :=
      if mine p then { p with leftRestart := p.leftRestart ||| LaneSet.one l, leftAbandon := p.leftAbandon || !restart } else p
    let left (p : Part) : Bool := p.isFaulted && LaneSet.subset (p.lanes &&& g.live) p.leftRestart
    let parts := o.parts.map mark
    if !parts.any (fun p => mine p && left p) then
      { g with ops := g.ops.map (fun x => if x.id == opId then { o with parts := parts } else x) }
    else
      let whole := o.whole
      let lost := if whole then parts.any (fun p => left p && p.leftAbandon) else false
      let act (p : Part) : Part :=
        if whole then (if lost then { p with prog := .done } else p.again g.nextId)
        else if left p then (if p.leftAbandon then { p with prog := .done } else p.again g.nextId) else p
      let gone (p : Part) : Bool := if whole then lost && p.prog != PartProgress.done else left p && p.leftAbandon
      let g1 : Group := parts.foldl (fun (g : Group) (p : Part) => match gone p with | true => g.zeroDest o p | false => g) g
      let g2 : Group :=
        { g1 with
          ops := g1.ops.map (fun (x : Op) => if x.id == opId then { o with parts := parts.map act } else x), nextId := g1.nextId + 1 }
      g2.freeLog.finishOps

/-- Lanes leave one frame of their stacks: the frame loses them as owners, and an access its handler was entered for is restarted or
abandoned (R76, R77, R344, R345). -/
def Group.leaveFrame (g : Group) (f : Frame) (m : LaneSet) (restart : Nat → Bool) : Group :=
  let g := match f.handler with
    | some h =>
      (m.list g.w).foldl (fun (g : Group) l =>
        match h.ops.find? (fun (x : Nat × Nat) => x.1 == l) with
        | some (_, o) => g.settleAccess o l (restart l)
        | none => g) g
    | none => g
  g.disown f.id m

/-- A lane leaves every called frame and exits (R217, R346); an exited lane owns no frame (R69). -/
def Group.exitLane (g : Group) (l : Nat) : Group :=
  let g := (g.stack l).foldl (fun g f => g.leaveFrame f (LaneSet.one l) (fun _ => false)) g
  (g.updLane l (fun x => { x with run := .exited, fd := 0, deferred := [] }))

/-- Lanes exit. -/
def Group.exitLanes (g : Group) (m : LaneSet) : Group := ((m.list g.w).foldl Group.exitLane g).releaseFrames

/-- The writes that lanes have pending are discarded (R346 step 1). -/
def Group.discardWrites (g : Group) (m : LaneSet) : Group :=
  let mineItem (i : SfItem) : Bool :=
    match i.kind with
    | .store => LaneSet.subset i.lanes m
    | _ => false
  let mine (p : Part) : Bool := LaneSet.subset p.lanes m && p.lanes != 0
  let g1 : Group :=
    { g with
      sf := (g.sf.filter (fun i => !mineItem i)).map (fun (i : SfItem) =>
        match i.kind with
        | .atomic f ty ps => { i with kind := .atomic f ty (ps.filter (fun x => !m.has x.1)) }
        | _ => i),
      ops := g.ops.map (fun (o : Op) => { o with parts := o.parts.map (fun p => if mine p then { p with prog := .done } else p) }) }
  g1.finishOps

/-! ## Requests for rows and tag quads (R73, R360) -/

/-- The request is that of a word or handler entry of a group: lanes that joined or left its path since do not make it another. -/
def Request.mine (r : Request) (slot : Nat) (pc : DWord) (m : LaneSet) : Bool :=
  r.slot == slot && r.pc == pc && (r.lanes == m || r.lanes &&& m != 0)

/-- The request of a word or handler entry of a group. -/
def Core.request? (c : Core) (slot : Nat) (pc : DWord) (m : LaneSet) : Option Request :=
  c.requests.find? (fun r => r.mine slot pc m)

/-- A request made, or its lanes and amounts renewed; it keeps its place in the order. -/
def State.request (s : State) (core slot : Nat) (pc : DWord) (m : LaneSet) (rows quads : Nat) (need : Option (DWord × LaneSet) := none) : State :=
  let now := s.clocks core
  s.updCore core (fun c =>
    if (c.request? slot pc m).isSome then
      { c with requests := c.requests.map (fun r =>
          if r.mine slot pc m then
            { r with lanes := m, rows := rows, quads := quads, need := need, granted := r.granted && decide (rows ≤ r.rows) && decide (quads ≤ r.quads) }
          else r) }
    else { c with requests := c.requests ++ [{ slot := slot, pc := pc, lanes := m, rows := rows, quads := quads, granted := false, since := now, need := need }] })

/-- A request given up. -/
def State.dropRequest (s : State) (core slot : Nat) (pc : DWord) (m : LaneSet) : State :=
  s.updCore core (fun c => { c with requests := c.requests.filter (fun r => !r.mine slot pc m) })

/-- The requests of a core without a grant that stand before a request of a word, or all of them when it has made none. -/
def Core.earlier (c : Core) (slot : Nat) (pc : DWord) (m : LaneSet) : List Request :=
  (c.requests.takeWhile (fun r => !r.mine slot pc m)).filter (fun r => !r.granted)

/-- Whether the need is met by free granules and quads, with those granted to this request; what an earlier request still waits for is not
free to a later one (R73, R360). -/
def State.roomFor (s : State) (core slot : Nat) (pc : DWord) (m : LaneSet) (rows quads : Nat) : Bool :=
  let own := ((s.core core).request? slot pc m).filter (·.granted)
  let before := (s.core core).earlier slot pc m
  let ok (need free granted : Nat) (waits : Bool) : Bool := decide (need ≤ granted) || (!waits && decide (need ≤ free + granted))
  ok rows (s.freeRows core) ((own.map Request.rows).getD 0) (before.any (fun r => decide (0 < r.rows))) &&
    ok quads (s.freeQuads core) ((own.map Request.quads).getD 0) (before.any (fun r => decide (0 < r.quads)))

/-! ## Taking a fault (R334 to R347) -/

/-- What the read of a vector entry gives: a valid entry, none, or a request held at its frozen master, once it is forbidden (R341, R381). -/
inductive VectorRead where
  | valid (e : TrapEntry)
  | invalid
  | held (d : Option Denial)
  deriving DecidableEq, Repr

/-- The vector table that holds for the traps of a function: of a word, the one that held when its clock began (R325, R340). -/
def State.vectorTable (s : State) (fn : Nat) : DWord := (s.cur.map Cur.tvt).getD (s.fn fn).tvt

/-- The entry of the context's table for a code, read as a load at dev scope with no floor (R340, R341). -/
def State.trapEntry (s : State) (fn core code : Nat) : State × VectorRead :=
  let t := s.vectorTable fn
  if t == 0 then (s, .invalid)
  else
    match s.walk fn (s.readEntry (some core)) (t + BitVec.ofNat 64 (16 * code)) with
    | none => (s, .held none)
    | some (es, x) =>
      let s := s.keepEntries es
      match s.judge fn .read 16 x with
      | .ok k =>
        let s := s.noteErrors fn k 16
        if s.uncorrectable k 16 then (s, .invalid)
        else
          let b := s.readKey (some core) 4 k 16
          let h := leDWord (b.take 8)
          let nv := ((b.getD 8 0)).toNat
          let ns := ((b.getD 9 0)).toNat
          let rest := b.drop 11
          if b.getD 10 0 == 1 && decide (8 ≤ nv) && decide (nv ≤ 32) && decide (ns ≤ 15) && h.toNat % 4 == 0 && h.extractLsb' 56 8 == 0 &&
              rest.all (· == 0) then (s, .valid ⟨h, nv, ns⟩)
          else (s, .invalid)
      | .forbidden d => (s, .held (some d))
      | .frozen => (s, .held none)
      | .fault .. => (s, .invalid)

/-- TCODE (R343). -/
def tcodeOf (code kind : Nat) (rs more : Bool) (log : Nat) : Word :=
  BitVec.ofNat 32 (code + 256 * kind + (if rs then 1024 else 0) + (if more then 2048 else 0) + 4096 * log)

/-- A lane's report, of nothing for a lane that has none. -/
def Trap.look (t : Trap) (l : Nat) : TrapLane :=
  (t.lanes.find? (fun x => x.lane == l)).getD { lane := l, tcode := 0, fpc := 0, faddr := 0, detail := 0, resume := 0, op := none }

/-- v0 to v7 of the handler frame, shaped over its owners (R343). -/
def Trap.record (t : Trap) : List Val :=
  let ls := t.lanes.map TrapLane.lane
  let lo (f : TrapLane → DWord) : Val := shapeOf ls (fun l => (f (t.look l)).extractLsb' 0 32)
  let hi (f : TrapLane → DWord) : Val := shapeOf ls (fun l => (f (t.look l)).extractLsb' 32 32)
  [shapeOf ls (fun l => (t.look l).tcode), lo TrapLane.fpc, hi TrapLane.fpc, lo TrapLane.faddr, hi TrapLane.faddr,
    shapeOf ls (fun l => (t.look l).detail), lo TrapLane.resume, hi TrapLane.resume]

/-- The lanes of a trap. -/
def Trap.laneSet (t : Trap) : LaneSet := t.lanes.foldl (fun m x => m ||| LaneSet.one x.lane) 0

/-- An unhandled fault (R346): its lanes exit, a record names the lowest, the queue shows it and the grid is cancelled. FLAGS: NOTAB when
there was no valid entry, NEST when it was raised during entry to a handler. -/
def State.unhandled (s : State) (core slot : Nat) (t : Trap) (noTab : Bool) : State :=
  match s.group? core slot with
  | none => s
  | some g =>
    let m := t.laneSet
    let g := (g.discardWrites m).exitLanes m
    let s := s.setGroup { g with traps := g.traps.filter (fun x => x.laneSet != m) }
    match t.lanes.head? with
    | none => s
    | some x =>
      let s := s.ring (s.fnOf g.grid)
        { grid := g.grid, team := g.number, core := core, slot := slot, lane := x.lane, code := t.code, kind := t.kind,
          flags := (if noTab then 1 else 0) + (if t.nested then 2 else 0) + (if t.more then 4 else 0),
          queue := ((s.grid? g.grid).map Grid.queue).getD 0, fpc := x.fpc, faddr := x.faddr, detail := x.detail }
      (s.setFaulted g.grid).cancelGrid g.grid 0x11

/-- Uncorrectable errors in the tag, PC, frame or log state of groups (R377): one record of KIND 3 each, naming the lowest lane that is live
and its PC (log 12), and the grid is cancelled as after an unhandled fault. -/
def State.reportBad (s : State) : State :=
  s.groups.foldl (fun (s : State) (g : Group) =>
    match g.badState with
    | none => s
    | some log =>
      let l := ((List.range g.w).find? (fun l => (g.lane l).run.live)).getD 0
      let s := ((s.updGroup g.core g.slot (fun g => { g with badState := none })).noteLocal (s.fnOf g.grid) g.core (if log then 6 else 4)).ring (s.fnOf g.grid)
        { grid := g.grid, team := g.number, core := g.core, slot := g.slot, lane := l, code := 0x13, kind := 3, flags := 0,
          queue := ((s.grid? g.grid).map Grid.queue).getD 0, fpc := (g.lane l).pc, faddr := 0, detail := 0 }
      (s.setFaulted g.grid).cancelGrid g.grid 0x11) s

/-- Granules a handler entry needs: its record granule and the G registers of its trap record (R342, R343). -/
def Trap.rows (t : Trap) (perReg : Nat) : Nat := 1 + (t.record.filter (fun v => match v with | .g _ => true | _ => false)).length * perReg

/-- A number for a new frame: no frame has it, and no access or wait that is out names it (R74). -/
def Group.freshFrame (g : Group) : Nat :=
  let n := g.frames.foldl (fun n f => max n (f.id + 1)) 0
  let n := g.ops.foldl (fun n o => o.parts.foldl (fun n p => max n (p.frame + 1)) n) n
  g.lanes.foldl (fun n x => match x.run with | .address w => max n (w.frame + 1) | _ => n) n

/-- The handler frame is made and its lanes enter it (R342): a call by the lanes with NA 0, the resume PC as return PC, v0 to v7 the trap
record, marked as a handler's. -/
def Group.enterHandler (g : Group) (t : Trap) (e : TrapEntry) : Group :=
  let id := g.freshFrame
  let m := t.laneSet
  let depth := ((g.frame? t.frame).map Frame.depth).getD 0 + 1
  let resume := ((t.lanes.head?).map TrapLane.resume).getD 0
  let f : Frame :=
    { id := id, owners := m, depth := depth, rpc := resume, caller := some t.frame, na := 0, nv := e.nv, ns := e.ns,
      v := List.replicate e.nv (.u 0), s := List.replicate e.ns 0, recSpilled := false,
      handler := some { ops := t.lanes.filterMap (fun x => x.op.map (fun o => (x.lane, o))), since := g.nextId, deferred := decide (t.kind = 1), entering := true } }
  let g : Group := { g with frames := g.frames ++ [f], chains := g.chains.map (fun (c : Chain) => { c with lanes := c.lanes &&& ~~~m }) }
  let g := (t.record.zipIdx).foldl (fun g (v, i) => match g.frame? id with | some f => g.writeV f i m v | none => g) g
  g.updLanes m (fun _ x => { x with run := .running, pc := e.handler, fd := x.fd + 1, frame := id })

/-- Lanes wait outside the vote to enter their handler. -/
def Group.waitEntry (g : Group) (t : Trap) : Group :=
  { g.updLanes t.laneSet (fun _ x => { x with run := .trapping }) with
    traps := if g.traps.any (fun x => x.laneSet == t.laneSet) then g.traps else g.traps ++ [t] }

/-- The lanes of a fault whose vector entry is read enter its handler, or wait outside the vote for rows or tag quads (R342). -/
def State.enterTrap (s : State) (core slot : Nat) (t : Trap) (e : TrapEntry) : State :=
  match s.group? core slot with
  | none => s
  | some g =>
    let fpc := ((t.lanes.head?).map TrapLane.fpc).getD 0
    let rows := t.rows g.perReg
    let quads := (e.nv + 3) / 4
    if s.roomFor core slot fpc t.laneSet rows quads then
      (s.dropRequest core slot fpc t.laneSet).updGroup core slot (fun g =>
        let g := g.enterHandler t e
        { g with traps := g.traps.filter (fun x => x.laneSet != t.laneSet) })
    else
      (s.request core slot fpc t.laneSet rows quads).updGroup core slot (fun g => g.waitEntry { t with entry := some e })

/-- A handler entry that is refused: frame-overflow, precise, raised during the entry, with the lane's FD (R334, R341, R362). -/
def Group.refused (g : Group) (t : Trap) : Trap :=
  { t with
    code := 0x05, kind := 0, more := false, nested := true, entry := none
    lanes := t.lanes.map (fun x => { x with faddr := 0, detail := BitVec.ofNat 32 (g.lane x.lane).fd, op := none }) }

/-- A refused handler entry is unhandled (R341, R346). -/
def State.refuseEntry (s : State) (core slot : Nat) (t : Trap) : State :=
  match s.group? core slot with
  | none => s
  | some g =>
    let (s, e) := s.trapEntry (s.fnOf g.grid) core 0x05
    s.unhandled core slot (g.refused t) (e == .invalid)

/-- The read of a fault's vector entry is held; one that is forbidden freezes its master first (R381). -/
def State.entryHeld (s : State) (g : Group) (t : Trap) : Option Denial → State
  | some d => s.violate d g.grid g.core g.slot ((t.lanes.head?.map TrapLane.lane).getD 0) ((t.lanes.head?.map TrapLane.fpc).getD 0)
  | none => s.holdRequest (s.fnOf g.grid) g.grid

/-- TAKING A FAULT: the lanes of a trap enter the handler that the context's table names, or the fault is unhandled (R341, R342, R346); where an
access table holds the read of the entry they wait, until their grid is cancelled (R382). -/
def State.takeTrap (s : State) (core slot : Nat) (t : Trap) : State :=
  match s.group? core slot with
  | none => s
  | some g =>
    let (s, e) := s.trapEntry (s.fnOf g.grid) core t.code
    let nested := t.nested || (((g.frame? t.frame).bind Frame.handler).map Handler.entering).getD false
    match e with
    | .invalid => s.unhandled core slot { t with nested := nested } true
    | .held d => (s.entryHeld g t d).updGroup core slot (fun g => g.waitEntry t)
    | .valid e =>
      if nested then s.unhandled core slot { t with nested := true } false
      else if (t.lanes.any (fun x => decide (255 ≤ (g.lane x.lane).fd))) then s.refuseEntry core slot t
      else s.enterTrap core slot t e

/-- Faults of lanes that come in one clock: (code, report), of which a lane takes its first. Lanes with one code and one frame enter one handler
frame, in ascending order of the lowest lanes (R335, R342). -/
def State.raiseEach (s : State) (core slot : Nat) (fs : List (Nat × TrapLane)) : State :=
  match s.group? core slot with
  | none => s
  | some g =>
    let key (x : Nat × TrapLane) : Nat × Nat := (x.1, (g.lane x.2.lane).frame)
    let fs := (List.range g.w).filterMap (fun l => fs.find? (fun x => x.2.lane == l))
    let keys := fs.foldl (fun ks x => if ks.contains (key x) then ks else ks ++ [key x]) []
    keys.foldl (fun s k =>
      s.takeTrap core slot
        { code := k.1, kind := 0, more := false, frame := k.2, nested := false, entry := none,
          lanes := (fs.filter (fun x => key x == k)).map Prod.snd }) s

/-- The report of a precise fault of a lane: (lane, code, FADDR, DETAIL), at a word, with a resume PC. -/
def preciseLane (fpc resume : DWord) (x : Nat × Nat × DWord × Word) : Nat × TrapLane :=
  (x.2.1, { lane := x.1, tcode := tcodeOf x.2.1 0 false false 0, fpc := fpc, faddr := x.2.2.1, detail := x.2.2.2, resume := resume, op := none })

/-- Faults of lanes of one word: (lane, code, FADDR, DETAIL), of which a lane takes its first (R335, R342). -/
def State.raisePrecise (s : State) (core slot : Nat) (fpc resume : DWord) (fs : List (Nat × Nat × DWord × Word)) : State :=
  s.raiseEach core slot (fs.map (preciseLane fpc resume))

/-! ## The frame of every word (R51, R58, R60, R201, R214, R337) -/

/-- Ordering classes (R212). -/
inductive OrdClass where
  | none | load | store | atomic | acquire | release | fence | copy | matrix | sync | launch
  deriving DecidableEq, Repr

/-- A word as it executes: the state before it, the state with the path past it (R201), the group there, the path, its active lanes and
the word's address, with what its issue sees of %ptime and %cyc (R244), and %ptime `now`, in the clock in which it executes (R320). `mid`:
earlier words of its chain have executed. -/
structure Ctx where
  s0 : State
  s : State
  g : Group
  core : Nat
  slot : Nat
  path : LaneSet
  act : LaneSet
  pc : DWord
  first : DWord
  since : Nat
  ptime : DWord
  cyc : Nat
  now : DWord
  mid : Bool
  deriving DecidableEq

/-- The context of the word that the path in `cur` executes with a head. -/
def State.ctx? (s : State) (h : Head) : Option Ctx :=
  match s.cur with
  | Option.none => Option.none
  | some cu =>
    match s.group? cu.core cu.slot with
    | Option.none => Option.none
    | some g =>
      let g' := g.updLanes cu.path (fun _ x => { x with pc := cu.pc + 4 })
      some { s0 := s, s := s.setGroup g', g := g', core := cu.core, slot := cu.slot, path := cu.path, act := g.active cu.path h, pc := cu.pc,
             first := cu.first, since := cu.since, ptime := cu.ptime, cyc := cu.cyc,
             now := s.ptime, mid := cu.mid }

/-- Whether a logged access still holds a lane's later words (R337): its part is not through translation, or the lane is a faulted lane
of it; a lane in a handler frame, or in frames above one, is held only by accesses issued since it entered. The accesses of a word's own chain,
those of issue count `upTo` or more, issue with it and do not hold it. -/
def Group.held337 (g : Group) (upTo l : Nat) (cls : OrdClass) : Bool :=
  let since := (g.stack l).foldl (fun n f => match f.handler with | some h => max n h.since | none => n) 0
  g.ops.any (fun o =>
    o.log.isSome &&
      (match cls with
       | .store | .atomic | .release | .fence | .copy | .sync | .launch => true
       | .load | .acquire => (match o.kind with | .store | .tileStore | .atomic .. => true | _ => false)
       | _ => false) &&
      o.parts.any (fun p => p.lanes.has l && decide (since ≤ p.issue) && decide (p.issue < upTo) && (p.unpassed || p.isFaulted)))

/-- The register bounds that the fields of a word break (R204, R358, R418), lane by lane with the frame's own demand. -/
def Ctx.bounds (c : Ctx) (us : List Use) : List (Nat × Nat × DWord × Word) :=
  let gr := c.s.grid? c.g.grid
  let nt := (gr.map (fun x => x.record.nt)).getD 0
  let nac := (gr.map (fun x => x.record.nac)).getD 0
  (c.act.list c.g.w).filterMap (fun l =>
    let f := c.g.frm l
    (us.findSome? (fun u => useBeyond u f.nv f.ns nt nac)).map (fun (k, i) => (l, 0x04, 0, BitVec.ofNat 32 (k * 65536 + min i 65535))))

/-- The register sources of the word, as its active lanes read them, with an uncorrectable error (R377). -/
def Ctx.badRegs (c : Ctx) (us : List Use) : List BadReg :=
  let cls (k : RegClass) : Nat := match k with | .v => 0 | .s => 1 | .t => 2 | .a => 3 | .p => 4
  c.g.bad.filter (fun b => us.any (fun u => !u.write && b.cls == cls u.cls && decide (u.reg ≤ b.num) && decide (b.num < u.reg + u.count)) &&
    (decide (1 < b.cls) || (c.act.list c.g.w).any (fun l => (c.g.lane l).frame == b.frame)))

/-- An uncorrectable error in a register source is a fault of every active lane of the word (R377). -/
def Ctx.badSource (c : Ctx) (us : List Use) : List (Nat × Nat × DWord × Word) :=
  if (c.badRegs us).isEmpty then [] else (c.act.list c.g.w).map (fun l => (l, 0x13, 0, 2))

/-- The faults of lanes of the word, with the resume PC at the word (R335). -/
def Ctx.raise (c : Ctx) (s : State) (fs : List (Nat × Nat × DWord × Word)) : State := s.raisePrecise c.core c.slot c.pc c.pc fs

/-- The context with the effect of the word for some of its lanes; the others stay at the word. -/
def Ctx.only (c : Ctx) (m : LaneSet) : Ctx :=
  let g := c.g.updLanes (c.path &&& ~~~m) (fun _ x => { x with pc := c.pc })
  { c with s := c.s.setGroup g, g := g, act := m }

/-- Lanes whose sources hold an uncorrectable error: those that break a check of the word take its fault, the others data-uncorrectable (R377,
R384). -/
def Ctx.raiseBad (c : Ctx) (us : List Use) (body : Ctx → State) (bs : List (Nat × Nat × DWord × Word)) : State :=
  let m : LaneSet := LaneSet.ofPred c.g.w (fun l => bs.any (fun b => b.1 == l))
  let t := body (c.only m)
  let hit : LaneSet := m &&& LaneSet.ofPred c.g.w (fun l =>
    match t.group? c.core c.slot with
    | some g => (g.lane l).run == .trapping || (g.lane l).run == .exited ||
        (decide ((c.g.lane l).fd < (g.lane l).fd) && (g.frm l).handler.isSome)
    | Option.none => false)
  let u := if hit == 0 then c.s0 else body (c.only hit)
  match bs.filter (fun b => !hit.has b.1) with
  | [] => u
  | r => (u.raisePrecise c.core c.slot c.pc c.pc r).noteLocal (c.s.fnOf c.g.grid) c.core (if (c.badRegs us).any (fun b => decide (1 < b.cls)) then 5 else 4)

/-- The lanes that an earlier word of the chain made active and that break a bound by a field: the chain was checked as it issued, and for them the
word has no effect (R214, R418). -/
def Ctx.inBounds (c : Ctx) (bs : List (Nat × Nat × DWord × Word)) : Ctx :=
  if c.mid && !bs.isEmpty then { c with act := c.act &&& LaneSet.ofPred c.g.w (fun l => !bs.any (fun b => b.1 == l)) } else c

/-- The group with the accesses that the word's registers may have to wait for: of a chain that has issued, those of its own lanes (R47, R200). -/
def Ctx.blockers (c : Ctx) : Group := if c.mid then { c.g with ops := c.g.ops.filter (fun o => o.lanes &&& c.path != 0) } else c.g

/-- EVERY WORD: without an issuing path nothing happens; a register bound broken by a field is raised first (R214), `extra` giving the
bounds of count fields; a word that must wait leaves the machine as it is (R47, R58, R60, R337); else the path moves past it and its
effect takes place. A word with no active lane has no effect (R51). -/
def runWordB (h : Head) (us : List Use) (extra : Ctx → List (Nat × Nat × DWord × Word)) (cls : OrdClass) (wait : Ctx → Bool)
    (body : Ctx → State) (s : State) : Host.Outcome State Fault Refusal :=
  match s.ctx? h with
  | Option.none => .next s
  | some c =>
    let c := c.inBounds (c.bounds us ++ extra c)
    if c.act == 0 then .next c.s
    else
      match c.bounds us ++ extra c with
      | b :: bs => .next (s.raisePrecise c.core c.slot c.pc c.first (b :: bs))
      | [] =>
        if us.any (c.s.useBusy c.blockers c.act) || (c.act.list c.g.w).any (fun l => c.g.held337 c.since l cls) || wait c then .next s
        else
          match c.badSource us with
          | b :: bs => .next (c.raiseBad us body (b :: bs))
          | [] => .next (body c)

/-- A word without count fields. -/
def runWord (h : Head) (us : List Use) (cls : OrdClass) (wait : Ctx → Bool) (body : Ctx → State) (s : State) : Host.Outcome State Fault Refusal :=
  runWordB h us (fun _ => []) cls wait body s

/-- No wait of its own. -/
def noWait : Ctx → Bool := fun _ => false

/-- An effect that needs granules and quads: it takes place when they are there, else the path waits with a request (R73, R360). -/
def Ctx.withRows (c : Ctx) (rows quads : Nat) (k : State → State) : State :=
  if rows = 0 ∧ quads = 0 then k c.s
  else if c.s.roomFor c.core c.slot c.pc c.act rows quads then k (c.s.dropRequest c.core c.slot c.pc c.act)
  else c.s0.request c.core c.slot c.pc c.act rows quads

/-- Whether several needs of a word are met, each by its own lanes' request, in order (R73, R233). -/
def State.roomForAll (s : State) (core slot : Nat) (pc : DWord) : List (LaneSet × Nat × Nat) → Bool
  | [] => true
  | (m, rows, quads) :: rest =>
    s.roomFor core slot pc m rows quads &&
      State.roomForAll ((s.request core slot pc m rows quads).updCore core (fun c =>
        { c with requests := c.requests.map (fun r => if r.mine slot pc m then { r with granted := true } else r) })) core slot pc rest

/-- An effect with several needs: it takes place when all are there, else the path waits with a request for each, in order (R233). -/
def Ctx.withParts (c : Ctx) (parts : List (LaneSet × Nat × Nat)) (k : State → State) : State :=
  if c.s.roomForAll c.core c.slot c.pc parts then
    k (parts.foldl (fun s p => s.dropRequest c.core c.slot c.pc p.1) c.s)
  else parts.foldl (fun s (m, rows, quads) => s.request c.core c.slot c.pc m rows quads) c.s0

/-- The frames of the active lanes (R49). -/
def Ctx.frames (c : Ctx) : List (Frame × LaneSet) := c.g.framesOf c.act

/-- The group of the word changed. -/
def Ctx.updG (c : Ctx) (s : State) (f : Group → Group) : State := s.updGroup c.core c.slot f

/-- The path is still at the word: its effect waits for rows. -/
def Ctx.waited (c : Ctx) (r : State) : Bool :=
  (r.group? c.core c.slot).any (fun g => (c.path.list g.w).any (fun l => (g.lane l).pc == c.pc && (g.lane l).run.runnable && c.path != 0))

/-- Writing a vector result, frame by frame with each frame's active lanes (setV of R213), with the flags it sets; granules are taken
under R71 and R73. -/
def Ctx.setV (c : Ctx) (r : Nat) (val : Frame → LaneSet → Val) (fl : FFlags) : State :=
  let fs := c.frames
  let need := fs.foldl (fun n (f, m) => n + if f.takesSet r m (val f m) then c.g.perReg else 0) 0
  c.withRows need 0 (fun s => c.updG s (fun g =>
    (fs.foldl (fun g (f, m) => match g.frame? f.id with | some f' => g.writeV f' r m (val f m) | Option.none => g) g).flag fl))

end Sys2Proof.Machine
end

