-- ==== Sys2Proof/Machine/Census.lean ====
section
/-! DEFINITION. Sys2Proof/Machine/Census.lean: the census of exceptional values (R164 to R167). -/

namespace Sys2Proof.Machine

/-- The additions of one execution of a site. -/
structure Counts where
  nans : Nat
  infs : Nat
  sats : Nat
  unfs : Nat
  deriving DecidableEq, Repr

/-- The four fields in the order of an entry. -/
def Counts.list (c : Counts) : List Nat := [c.nans, c.infs, c.sats, c.unfs]

/-- MODE of CENSCTL (R166). -/
def Fn.censMode (f : Fn) : Nat := f.censctl.toNat % 4
/-- NENT of CENSCTL. -/
def Fn.censEntries (f : Fn) : Nat := f.censctl.toNat / 2 ^ 32

/-- Bytes of entry i of a census or reference buffer. -/
def State.censEntry (s : State) (fn : Nat) (base : DWord) (i : Nat) : Option (List Byte) :=
  match s.readVa none 4 fn fn (base + BitVec.ofNat 64 (32 * i)) 32 with
  | (_, .ok b) => some b
  | _ => none

/-- The four counts of an entry. -/
def entryCounts (b : List Byte) : List Nat := (List.range 4).map (fun j => leNat ((b.drop (16 + 4 * j)).take 4))

/-- A difference is recorded unless one is (R167). -/
def State.recordDiff (s : State) (fn : Nat) (grid : Word) (i : Nat) : State :=
  s.updFn fn (fun f =>
    if f.censctl.getLsbD 3 then f
    else { f with censctl := f.censctl ||| 8, censdiff := grid ++ BitVec.ofNat 32 i })

/-- The index of a site's entry; entry 0 for a site without its own (R164). -/
def State.censIndex (s : State) (fn : Nat) (kernel pc : DWord) : Nat :=
  let f := s.fn fn
  ((List.range f.censEntries).find? (fun i =>
    match s.censEntry fn f.censbase i with
    | some b => leDWord (b.take 8) == kernel && leDWord ((b.drop 8).take 8) == pc
    | none => false)).getD 0

/-- One execution of a site adds its counts to its entry, each field saturating, and in compare mode checks them (R165, R167). -/
def State.census (s : State) (grid : Word) (pc : DWord) (n : Counts) : State :=
  let fn := s.fnOf grid
  let f := s.fn fn
  if f.censMode = 0 ∨ f.censMode = 3 ∨ n.list.all (· == 0) then s
  else
    let kernel := ((s.grid? grid).map (fun g => g.record.entry)).getD 0
    let i := s.censIndex fn kernel pc
    match s.censEntry fn f.censbase i with
    | none => s
    | some b =>
      let new := ((entryCounts b).zip n.list).map (fun (x, y) => min (x + y) (2 ^ 32 - 1))
      let (s, _) := s.writeVa none fn fn (f.censbase + BitVec.ofNat 64 (32 * i + 16)) (new.flatMap (natLe 4))
      if f.censMode = 2 then
        match s.censEntry fn f.censref i with
        | none => s
        | some r =>
          if ((new.zip (entryCounts r)).zip n.list).any (fun ((x, y), z) => decide (z > 0) && decide (x > y)) then s.recordDiff fn grid i else s
      else s

/-- CHK: the whole buffers are compared, every field of each entry, and the lowest index that differs is recorded (R167). -/
def State.censCheck (s : State) (fn : Nat) : State :=
  if s.fwState = 2 then s else
  let f := s.fn fn
  match (List.range f.censEntries).find? (fun i =>
    match s.censEntry fn f.censbase i, s.censEntry fn f.censref i with
    | some a, some b => a != b
    | _, _ => false) with
  | some i => s.recordDiff fn 0xFFFFFFFF i
  | none => s

end Sys2Proof.Machine
end

