-- ==== Sys2Proof/Machine/Integer.lean ====
section
/-! DEFINITION. Sys2Proof/Machine/Integer.lean: the integer, uniform, address and shape instructions, majors 0x0A to 0x15 and 0x1C (R234
to R249). -/

namespace Sys2Proof.Machine

/-- The head of a long-format word: never guarded (R197). -/
def longHead (c : Bool) : Head := { chain := c, guard := none }

/-! ## Operations on words (R236 to R241) -/

/-- The operations of vi and si (R236). -/
inductive IntOp where
  | add | sub | mul | mulhs | mulhu | and | or | xor | shl | shr | sra | min | max | minu | maxu | andn
  deriving DecidableEq, Repr

/-- The arithmetic right shift: the sign for amounts of 32 or more (R238). -/
def sraWord (a : Word) (n : Nat) : Word := a.sshiftRight n

/-- op(a, b) (R236, R238). -/
def IntOp.eval (o : IntOp) (a b : Word) : Word :=
  match o with
  | .add => a + b
  | .sub => a - b
  | .mul => a * b
  | .mulhs => ((a.signExtend 64) * (b.signExtend 64)).extractLsb' 32 32
  | .mulhu => ((a.setWidth 64) * (b.setWidth 64)).extractLsb' 32 32
  | .and => a &&& b
  | .or => a ||| b
  | .xor => a ^^^ b
  | .shl => a <<< b.toNat
  | .shr => a >>> b.toNat
  | .sra => sraWord a b.toNat
  | .min => if a.sle b then a else b
  | .max => if a.sle b then b else a
  | .minu => if a.ule b then a else b
  | .maxu => if a.ule b then b else a
  | .andn => a &&& ~~~b

/-- The affine result of an operation, where R70 rows 2 to 5 give one. -/
def IntOp.affine (o : IntOp) (x y : Val) : Option Val :=
  match o, x, y with
  | .add, .a b d, .u c => some (Val.affine (b + c) d)
  | .add, .u c, .a b d => some (Val.affine (c + b) d)
  | .add, .a b d, .a c e => some (Val.affine (b + c) (d + e))
  | .sub, .a b d, .u c => some (Val.affine (b - c) d)
  | .sub, .u c, .a b d => some (Val.affine (c - b) (-d))
  | .sub, .a b d, .a c e => some (Val.affine (b - c) (d - e))
  | .mul, .a b d, .u c => some (Val.affine (b * c) (d * c))
  | .mul, .u c, .a b d => some (Val.affine (b * c) (d * c))
  | .shl, .a b d, .u c => some (Val.affine (b <<< c.toNat) (d <<< c.toNat))
  | _, _, _ => none

/-- A shaped result from two sources (R70): U from U, affine where a row gives it, else G. -/
def shape2 (f : Word → Word → Word) (aff : Val → Val → Option Val) (x y : Val) : Val :=
  match x, y with
  | .u a, .u b => .u (f a b)
  | x, y =>
    match aff x y with
    | some v => v
    | none => .g (fun l => f (x.lane l) (y.lane l))

/-- A shaped result from one source. -/
def shape1 (f : Word → Word) (aff : Val → Option Val) (x : Val) : Val :=
  match x with
  | .u a => .u (f a)
  | x =>
    match aff x with
    | some v => v
    | none => .g (fun l => f (x.lane l))

/-- The forms of vm with two sources (R239). -/
inductive Misc2 where
  | adds | addu | subs | subu
  deriving DecidableEq, Repr

/-- An integer saturated to a range. -/
def satInt (lo hi x : Int) : Int := if x < lo then lo else if x > hi then hi else x

/-- op(a, b) of the saturating forms. -/
def Misc2.eval (o : Misc2) (a b : Word) : Word :=
  match o with
  | .adds => BitVec.ofInt 32 (satInt (-(2 ^ 31)) (2 ^ 31 - 1) (a.toInt + b.toInt))
  | .addu => BitVec.ofInt 32 (satInt 0 (2 ^ 32 - 1) (a.toNat + b.toNat))
  | .subs => BitVec.ofInt 32 (satInt (-(2 ^ 31)) (2 ^ 31 - 1) (a.toInt - b.toInt))
  | .subu => BitVec.ofInt 32 (satInt 0 (2 ^ 32 - 1) ((a.toNat : Int) - b.toNat))

/-- The forms of vm with one source. -/
inductive Misc1 where
  | neg | abs | mov | clz | popc | brev | sext8 | sext16 | sati8 | sati16 | satn8 | satn16
  deriving DecidableEq, Repr

/-- The bit length of a word: 32 less its leading zeros, 0 for 0. -/
def bitLen (a : Word) : Nat := if a = 0 then 0 else a.toNat.log2 + 1

/-- The one bits of a word. -/
def popCount (a : Word) : Nat := ((List.range 32).filter (fun i => a.getLsbD i)).length

/-- The word with its bits in reverse order. -/
def bitReverse (a : Word) : Word := (List.range 32).foldl (fun r i => if a.getLsbD i then r ||| BitVec.ofNat 32 (2 ^ (31 - i)) else r) 0

/-- op(a) (R239). -/
def Misc1.eval (o : Misc1) (a : Word) : Word :=
  match o with
  | .neg => -a
  | .abs => if a.msb then -a else a
  | .mov => a
  | .clz => BitVec.ofNat 32 (32 - bitLen a)
  | .popc => BitVec.ofNat 32 (popCount a)
  | .brev => bitReverse a
  | .sext8 => (a.extractLsb' 0 8).signExtend 32
  | .sext16 => (a.extractLsb' 0 16).signExtend 32
  | .sati8 => BitVec.ofInt 32 (satInt (-128) 127 a.toInt)
  | .sati16 => BitVec.ofInt 32 (satInt (-32768) 32767 a.toInt)
  | .satn8 => BitVec.ofInt 32 (satInt 0 255 a.toNat)
  | .satn16 => BitVec.ofInt 32 (satInt 0 65535 a.toNat)

/-- The forms that keep an A source affine (R70 rows 6 and 7). -/
def Misc1.affine (o : Misc1) (x : Val) : Option Val :=
  match o, x with
  | .neg, .a b d => some (Val.affine (-b) (-d))
  | .mov, .a b d => some (.a b d)
  | _, _ => none

/-- The relations of vc and sc (R240). -/
inductive Rel where
  | eq | ne | lt | le | ltu | leu
  deriving DecidableEq, Repr

/-- cmp(a, b). -/
def Rel.eval (o : Rel) (a b : Word) : Bool :=
  match o with
  | .eq => a == b
  | .ne => a != b
  | .lt => a.slt b
  | .le => a.sle b
  | .ltu => a.ult b
  | .leu => a.ule b

/-! ## Words of one shape -/

/-- A vector word with two vector sources. -/
def vecWord2 (h : Head) (d a b : BitVec 5) (f : Val → Val → Val) : State → Host.Outcome State Fault Refusal :=
  runWord h [.vw d 1, .v a 1, .v b 1] .none noWait
    (fun c => c.setV d.toNat (fun fr _ => f (c.g.readV fr a.toNat) (c.g.readV fr b.toNat)) 0)

/-- A vector word with one vector source. -/
def vecWord1 (h : Head) (d a : BitVec 5) (f : Val → Val) : State → Host.Outcome State Fault Refusal :=
  runWord h [.vw d 1, .v a 1] .none noWait (fun c => c.setV d.toNat (fun fr _ => f (c.g.readV fr a.toNat)) 0)

/-- vi (R236). -/
def vecInt (h : Head) (d a b : BitVec 5) (o : IntOp) : State → Host.Outcome State Fault Refusal :=
  vecWord2 h d a b (shape2 o.eval o.affine)

/-- vii (R237). -/
def vecIntImm (h : Head) (d a : BitVec 5) (o : IntOp) (i : Word) : State → Host.Outcome State Fault Refusal :=
  vecWord1 h d a (fun x => shape2 o.eval o.affine x (.u i))

/-- vm with two sources (R239). -/
def vecMisc2 (h : Head) (d a b : BitVec 5) (o : Misc2) : State → Host.Outcome State Fault Refusal :=
  vecWord2 h d a b (shape2 o.eval (fun _ _ => none))

/-- vm with one source (R239). -/
def vecMisc1 (h : Head) (d a : BitVec 5) (o : Misc1) : State → Host.Outcome State Fault Refusal :=
  vecWord1 h d a (shape1 o.eval o.affine)

/-- A uniform result, once for each frame of the active lanes (R50). -/
def uniOp (h : Head) (d : BitVec 5) (us : List Use) (f : Frame → Word) : State → Host.Outcome State Fault Refusal :=
  runWord h us .none noWait (fun c => c.updG c.s (fun g => c.frames.foldl (fun g (fr, _) => g.setU fr.id d.toNat (f fr)) g))

/-- A pair result, once for each frame. -/
def pairOp (h : Head) (d : BitVec 5) (us : List Use) (f : Frame → DWord) : State → Host.Outcome State Fault Refusal :=
  runWord h us .none noWait (fun c => c.updG c.s (fun g => c.frames.foldl (fun g (fr, _) => g.setUP fr.id d.toNat (f fr)) g))

/-- A predicate result in the active lanes. -/
def predOp (h : Head) (d : BitVec 5) (us : List Use) (f : Ctx → Nat → Bool) : State → Host.Outcome State Fault Refusal :=
  runWord h us .none noWait (fun c => c.updG c.s (fun g => g.setPd d.toNat c.act (f c)))

/-- si (R236). -/
def uniInt (h : Head) (d a b : BitVec 5) (o : IntOp) : State → Host.Outcome State Fault Refusal :=
  uniOp h d [.sw d 1, .s a 1, .s b 1] (fun f => o.eval (f.U a.toNat) (f.U b.toNat))

/-- sii (R237). -/
def uniIntImm (h : Head) (d a : BitVec 5) (o : IntOp) (i : Word) : State → Host.Outcome State Fault Refusal :=
  uniOp h d [.sw d 1, .s a 1] (fun f => o.eval (f.U a.toNat) i)

/-- vc (R240). -/
def vecCmp (h : Head) (d a b : BitVec 5) (o : Rel) : State → Host.Outcome State Fault Refusal :=
  predOp h d [.pw d, .v a 1, .v b 1] (fun c l => o.eval (c.g.laneV a.toNat l) (c.g.laneV b.toNat l))

/-- sc to a predicate (R240). -/
def uniCmp (h : Head) (d a b : BitVec 5) (o : Rel) : State → Host.Outcome State Fault Refusal :=
  predOp h d [.pw d, .s a 1, .s b 1] (fun c l => o.eval ((c.g.frm l).U a.toNat) ((c.g.frm l).U b.toNat))

/-- sc to a uniform register (R240). -/
def uniCmpSet (h : Head) (d a b : BitVec 5) (o : Rel) : State → Host.Outcome State Fault Refusal :=
  uniOp h d [.sw d 1, .s a 1, .s b 1] (fun f => if o.eval (f.U a.toNat) (f.U b.toNat) then 1 else 0)

/-! ## Predicates as values, selects, exchange (R70, R241, R242) -/


/-- A predicate read as a value in a frame's active lanes: U when they agree, else G (R70). -/
def Ctx.predVal (c : Ctx) (p : Nat) (m : LaneSet) : Val :=
  let ls := m.list c.g.w
  let bit (l : Nat) : Word := if c.g.pd p l then 1 else 0
  let b := bit (lowest m c.g.w)
  if ls.all (fun l => bit l == b) then .u b else .g bit

/-- vp.sel (R241). -/
def Ctx.select (c : Ctx) (d a b : Nat) : State :=
  c.setV d (fun f m =>
    let x := c.g.readV f a
    let y := c.g.readV f d
    match x, y, c.predVal b m with
    | .u p, .u q, .u t => .u (if t = 1 then p else q)
    | x, y, t => .g (fun l => if t.lane l = 1 then x.lane l else y.lane l)) 0

/-- vx (R242): the source lane of each lane, and whether the index source of a frame is U. A frame's result is U when every frame that the
word reads vA and the index through holds U there and the frame's lanes receive one value. -/
def exchange (h : Head) (d a : BitVec 5) (us : List Use) (src : Ctx → Nat → Option Nat) (idxU : Ctx → Frame → Bool) :
    State → Host.Outcome State Fault Refusal :=
  runWord h us .none noWait (fun c =>
    let from_ (l : Nat) : Nat :=
      match src c l with
      | some m => if c.act.has m then m else l
      | none => l
    let r (l : Nat) : Word := c.g.laneV a.toNat (from_ l)
    let allU := c.frames.all (fun (f, _) => idxU c f) && (c.act.list c.g.w).all (fun l => (c.g.readV (c.g.frm (from_ l)) a.toNat).isU)
    c.setV d.toNat (fun _ m =>
      if allU && (m.list c.g.w).all (fun l => r l == r (lowest m c.g.w)) then
        .u (r (lowest m c.g.w))
      else .g r) 0)

/-! ## Special registers (R24, R25, R244, R245) -/

/-- The value of a special register for a lane, zero-extended. -/
def Ctx.sregOf (c : Ctx) (r : SReg) (l : Nat) : DWord :=
  let x := c.g.lane l
  let n (k : Nat) : DWord := BitVec.ofNat 64 k
  let team := c.s.team? c.g.grid c.g.team
  let box := (team.map Team.box).getD { region := 0, tx := 0, ty := 0, tz := 0, ox := 0, oy := 0, oz := 0, ex := 0, ey := 0, ez := 0, clipped := false }
  let rec_ (f : LaunchRecord → Nat) : Nat := ((c.s.grid? c.g.grid).map (fun g => f g.record)).getD 0
  match r with
  | .ix => x.ix.setWidth 64 | .iy => x.iy.setWidth 64 | .iz => x.iz.setWidth 64 | .tix => n x.k | .lane => n l
  | .ox => n box.ox | .oy => n box.oy | .oz => n box.oz
  | .ex => n box.ex | .ey => n box.ey | .ez => n box.ez
  | .sx => n (rec_ LaunchRecord.sx) | .sy => n (rec_ LaunchRecord.sy) | .sz => n (rec_ LaunchRecord.sz)
  | .tn => n ((team.map Team.tn).getD 0) | .gix => n c.g.gix | .gcnt => n ((team.map Team.gcnt).getD 0)
  | .sb => n ((team.bind (fun t => (t.windows.find? (fun w => w.1 == c.core)).map Prod.snd)).getD 0)
  | .ss => n ((team.map Team.ss).getD 0)
  | .team => n c.g.number | .grid => c.g.grid.setWidth 64
  | .core => n c.core | .die => n (c.core / Config.coresPerDie) | .dev => n c.s.dev
  | .ptime => c.ptime
  | .cyc => n c.cyc
  | .fmode => c.g.fmode.setWidth 64 | .fflags => c.g.fflags.setWidth 64

/-- The value of the register with a code for a lane; a code that is no register is rejected before (R245). -/
def Ctx.sreg (c : Ctx) (i : BitVec 12) (l : Nat) : DWord :=
  match SReg.ofCode i with
  | some r => c.sregOf r l
  | none => 0

/-- The shaped value of a register: per-thread registers over the group's live lanes (R25), the others U. -/
def Ctx.sregVal (c : Ctx) (i : BitVec 12) : Val :=
  let v (l : Nat) : Word := (c.sreg i l).setWidth 32
  match SReg.ofCode i with
  | some .ix | some .iy | some .iz | some .tix | some .lane => shapeOf (c.g.live.list c.g.w) v
  | _ => .u (v (lowest c.act c.g.w))

/-- sr.wrs: reserved bits are ignored (R86, R244). -/
def Ctx.writeSreg (c : Ctx) (i : BitVec 12) (x : Word) : State :=
  match SReg.ofCode i with
  | some .fmode => c.updG c.s (fun g => { g with fmode := x.setWidth 16 &&& 0x0003 })
  | some .fflags => c.updG c.s (fun g => { g with fflags := x.setWidth 16 &&& 0x001F })
  | _ => c.s

/-! ## Shapes and indirect access (R72, R247) -/

/-- The squeeze of a register in each frame of the path (R72). -/
def Ctx.squeeze (c : Ctx) (d : Nat) : State :=
  c.updG c.s (fun g => (g.framesOf c.path).foldl (fun g (f, _) =>
    match f.tag d with
    | .g _ =>
      match shapeOf (f.owners.list g.w) ((g.readV f d).lane) with
      | .u b => (g.setTag f.id d (.u b)).collect
      | .a b e => (g.setTag f.id d (.a b e)).collect
      | .g _ => g
    | _ => g) g)

/-- shp.exp in each frame of the path (R247); a spilled register is G already (R67). -/
def Ctx.expand (c : Ctx) (d : Nat) : State :=
  let fs := (c.g.framesOf c.path).filter (fun (f, _) => f.tag d != .spilled && decide (d < f.nv))
  c.withRows (fs.foldl (fun n (f, _) => n + if f.notG d then c.g.perReg else 0) 0) 0 (fun s =>
    c.updG s (fun g => fs.foldl (fun g (f, _) => g.makeG f d) g))

/-- shp.sq and shp.exp act on the whole register of each frame of the path, whatever the guard's active set (R247): the squeeze reads it (`us`), so
that a spilled one is refilled first (R72); to the expansion a spilled register is G. -/
def wholeFrame (h : Head) (d : BitVec 5) (us : List Use) (body : Ctx → State) (s : State) : Host.Outcome State Fault Refusal :=
  let busy (c : Ctx) : Bool := us.any (c.s.useBusy c.g c.path) || (c.g.framesOf c.path).any (fun (f, m) => c.g.scoreboarded .v f.id d.toNat 1 m)
  match s.ctx? h, s.ctx? Head.plain with
  | some c, some p =>
    if c.act == 0 then (if (p.bounds [.v d 1]).isEmpty then runWordB Head.plain us (fun c => c.bounds [.v d 1]) .none busy body s else .next c.s)
    else runWordB h us (fun c => c.bounds [.v d 1]) .none busy body s
  | _, _ => .next s

/-- shp.shape: a spilled register reads 2 and is not refilled (R247); a register that an access still writes is waited for (R60). -/
def uniShape (h : Head) (d a : BitVec 5) (s : State) : Host.Outcome State Fault Refusal :=
  let body (c : Ctx) : State :=
    c.updG c.s (fun g => c.frames.foldl (fun g (f, _) =>
      g.setU f.id d.toNat (match f.tag a.toNat with | .u _ => 0 | .a .. => 1 | _ => 2)) g)
  if (s.ctx? h).any (fun c => (c.bounds [.sw d 1, .v a 1]).isEmpty) then
    runWord h [.sw d 1] .none (fun c => c.frames.any (fun (f, m) => c.g.scoreboarded .v f.id a.toNat 1 m)) body s
  else runWord h [.sw d 1, .v a 1] .none noWait body s

/-- A register that U(s) names is not free (R60, R81, R247). -/
def Ctx.indexBusy (c : Ctx) (s : Nat) : Bool :=
  c.frames.any (fun (f, m) =>
    let n := (f.U s).toNat
    c.g.scoreboarded .v f.id n 1 m || (decide (n < f.nv) && f.tag n == .spilled))

/-- The frames whose index breaks the register bound, as faults of their active lanes (R247, R358). -/
def Ctx.indexFaults (c : Ctx) (s : Nat) : List (Nat × Nat × DWord × Word) :=
  c.frames.flatMap (fun (f, m) =>
    let n := (f.U s).toNat
    if n < f.nv then [] else (m.list c.g.w).map (fun l => (l, 0x04, 0, BitVec.ofNat 32 (min n 65535))))

/-- The context with its active lanes restricted to frames whose index is within the bound. -/
def Ctx.within (c : Ctx) (s : Nat) : Ctx :=
  { c with act := c.frames.foldl (fun m (f, fm) => if (f.U s).toNat < f.nv then m ||| fm else m) 0 }

/-- A wait for rows keeps the faults of other frames for the word's next try. -/
def Ctx.after (c : Ctx) (r : State) (fs : List (Nat × Nat × DWord × Word)) : State :=
  if fs.isEmpty || c.waited r then r else c.raise r fs

/-- shp.rdx. -/
def Ctx.readIndexed (c : Ctx) (d a : Nat) : State :=
  let w := c.within a
  c.after (w.setV d (fun f _ => w.g.readV f (f.U a).toNat) 0) (c.indexFaults a)

/-- shp.wrx: the register written is named by each frame's own index. -/
def Ctx.writeIndexed (c : Ctx) (d a : Nat) : State :=
  let w := c.within d
  let fs := w.frames
  let val (f : Frame) : Val := w.g.readV f a
  let need := fs.foldl (fun n (f, m) => n + if f.takesSet (f.U d).toNat m (val f) then c.g.perReg else 0) 0
  c.after (w.withRows need 0 (fun s => w.updG s (fun g =>
    fs.foldl (fun g (f, m) => match g.frame? f.id with | some f' => g.writeV f' (f.U d).toNat m (val f) | none => g) g))) (c.indexFaults d)

/-! ## The instructions -/

/-- VI_ADD (R236). -/
def execViAdd (h : Head) (d : BitVec 5) (a : BitVec 5) (b : BitVec 5) : State → Host.Outcome State Fault Refusal :=
  vecInt h d a b .add

/-- VI_SUB (R236). -/
def execViSub (h : Head) (d : BitVec 5) (a : BitVec 5) (b : BitVec 5) : State → Host.Outcome State Fault Refusal :=
  vecInt h d a b .sub

/-- VI_MUL (R236). -/
def execViMul (h : Head) (d : BitVec 5) (a : BitVec 5) (b : BitVec 5) : State → Host.Outcome State Fault Refusal :=
  vecInt h d a b .mul

/-- VI_MULHS (R236). -/
def execViMulhs (h : Head) (d : BitVec 5) (a : BitVec 5) (b : BitVec 5) : State → Host.Outcome State Fault Refusal :=
  vecInt h d a b .mulhs

/-- VI_MULHU (R236). -/
def execViMulhu (h : Head) (d : BitVec 5) (a : BitVec 5) (b : BitVec 5) : State → Host.Outcome State Fault Refusal :=
  vecInt h d a b .mulhu

/-- VI_AND (R236). -/
def execViAnd (h : Head) (d : BitVec 5) (a : BitVec 5) (b : BitVec 5) : State → Host.Outcome State Fault Refusal :=
  vecInt h d a b .and

/-- VI_OR (R236). -/
def execViOr (h : Head) (d : BitVec 5) (a : BitVec 5) (b : BitVec 5) : State → Host.Outcome State Fault Refusal :=
  vecInt h d a b .or

/-- VI_XOR (R236). -/
def execViXor (h : Head) (d : BitVec 5) (a : BitVec 5) (b : BitVec 5) : State → Host.Outcome State Fault Refusal :=
  vecInt h d a b .xor

/-- VI_SHL (R236). -/
def execViShl (h : Head) (d : BitVec 5) (a : BitVec 5) (b : BitVec 5) : State → Host.Outcome State Fault Refusal :=
  vecInt h d a b .shl

/-- VI_SHR (R236). -/
def execViShr (h : Head) (d : BitVec 5) (a : BitVec 5) (b : BitVec 5) : State → Host.Outcome State Fault Refusal :=
  vecInt h d a b .shr

/-- VI_SRA (R236). -/
def execViSra (h : Head) (d : BitVec 5) (a : BitVec 5) (b : BitVec 5) : State → Host.Outcome State Fault Refusal :=
  vecInt h d a b .sra

/-- VI_MIN (R236). -/
def execViMin (h : Head) (d : BitVec 5) (a : BitVec 5) (b : BitVec 5) : State → Host.Outcome State Fault Refusal :=
  vecInt h d a b .min

/-- VI_MAX (R236). -/
def execViMax (h : Head) (d : BitVec 5) (a : BitVec 5) (b : BitVec 5) : State → Host.Outcome State Fault Refusal :=
  vecInt h d a b .max

/-- VI_MINU (R236). -/
def execViMinu (h : Head) (d : BitVec 5) (a : BitVec 5) (b : BitVec 5) : State → Host.Outcome State Fault Refusal :=
  vecInt h d a b .minu

/-- VI_MAXU (R236). -/
def execViMaxu (h : Head) (d : BitVec 5) (a : BitVec 5) (b : BitVec 5) : State → Host.Outcome State Fault Refusal :=
  vecInt h d a b .maxu

/-- VI_ANDN (R236). -/
def execViAndn (h : Head) (d : BitVec 5) (a : BitVec 5) (b : BitVec 5) : State → Host.Outcome State Fault Refusal :=
  vecInt h d a b .andn

/-- SI_ADD (R236). -/
def execSiAdd (h : Head) (d : BitVec 5) (a : BitVec 5) (b : BitVec 5) : State → Host.Outcome State Fault Refusal :=
  uniInt h d a b .add

/-- SI_SUB (R236). -/
def execSiSub (h : Head) (d : BitVec 5) (a : BitVec 5) (b : BitVec 5) : State → Host.Outcome State Fault Refusal :=
  uniInt h d a b .sub

/-- SI_MUL (R236). -/
def execSiMul (h : Head) (d : BitVec 5) (a : BitVec 5) (b : BitVec 5) : State → Host.Outcome State Fault Refusal :=
  uniInt h d a b .mul

/-- SI_MULHS (R236). -/
def execSiMulhs (h : Head) (d : BitVec 5) (a : BitVec 5) (b : BitVec 5) : State → Host.Outcome State Fault Refusal :=
  uniInt h d a b .mulhs

/-- SI_MULHU (R236). -/
def execSiMulhu (h : Head) (d : BitVec 5) (a : BitVec 5) (b : BitVec 5) : State → Host.Outcome State Fault Refusal :=
  uniInt h d a b .mulhu

/-- SI_AND (R236). -/
def execSiAnd (h : Head) (d : BitVec 5) (a : BitVec 5) (b : BitVec 5) : State → Host.Outcome State Fault Refusal :=
  uniInt h d a b .and

/-- SI_OR (R236). -/
def execSiOr (h : Head) (d : BitVec 5) (a : BitVec 5) (b : BitVec 5) : State → Host.Outcome State Fault Refusal :=
  uniInt h d a b .or

/-- SI_XOR (R236). -/
def execSiXor (h : Head) (d : BitVec 5) (a : BitVec 5) (b : BitVec 5) : State → Host.Outcome State Fault Refusal :=
  uniInt h d a b .xor

/-- SI_SHL (R236). -/
def execSiShl (h : Head) (d : BitVec 5) (a : BitVec 5) (b : BitVec 5) : State → Host.Outcome State Fault Refusal :=
  uniInt h d a b .shl

/-- SI_SHR (R236). -/
def execSiShr (h : Head) (d : BitVec 5) (a : BitVec 5) (b : BitVec 5) : State → Host.Outcome State Fault Refusal :=
  uniInt h d a b .shr

/-- SI_SRA (R236). -/
def execSiSra (h : Head) (d : BitVec 5) (a : BitVec 5) (b : BitVec 5) : State → Host.Outcome State Fault Refusal :=
  uniInt h d a b .sra

/-- SI_MIN (R236). -/
def execSiMin (h : Head) (d : BitVec 5) (a : BitVec 5) (b : BitVec 5) : State → Host.Outcome State Fault Refusal :=
  uniInt h d a b .min

/-- SI_MAX (R236). -/
def execSiMax (h : Head) (d : BitVec 5) (a : BitVec 5) (b : BitVec 5) : State → Host.Outcome State Fault Refusal :=
  uniInt h d a b .max

/-- SI_MINU (R236). -/
def execSiMinu (h : Head) (d : BitVec 5) (a : BitVec 5) (b : BitVec 5) : State → Host.Outcome State Fault Refusal :=
  uniInt h d a b .minu

/-- SI_MAXU (R236). -/
def execSiMaxu (h : Head) (d : BitVec 5) (a : BitVec 5) (b : BitVec 5) : State → Host.Outcome State Fault Refusal :=
  uniInt h d a b .maxu

/-- SI_ANDN (R236). -/
def execSiAndn (h : Head) (d : BitVec 5) (a : BitVec 5) (b : BitVec 5) : State → Host.Outcome State Fault Refusal :=
  uniInt h d a b .andn

/-- VII_ADD (R237). -/
def execViiAdd (h : Head) (d : BitVec 5) (a : BitVec 5) (i : BitVec 6) : State → Host.Outcome State Fault Refusal :=
  vecIntImm h d a .add (i.signExtend 32)

/-- VII_MUL (R237). -/
def execViiMul (h : Head) (d : BitVec 5) (a : BitVec 5) (i : BitVec 6) : State → Host.Outcome State Fault Refusal :=
  vecIntImm h d a .mul (i.signExtend 32)

/-- VII_AND (R237). -/
def execViiAnd (h : Head) (d : BitVec 5) (a : BitVec 5) (i : BitVec 6) : State → Host.Outcome State Fault Refusal :=
  vecIntImm h d a .and (i.signExtend 32)

/-- VII_OR (R237). -/
def execViiOr (h : Head) (d : BitVec 5) (a : BitVec 5) (i : BitVec 6) : State → Host.Outcome State Fault Refusal :=
  vecIntImm h d a .or (i.signExtend 32)

/-- VII_XOR (R237). -/
def execViiXor (h : Head) (d : BitVec 5) (a : BitVec 5) (i : BitVec 6) : State → Host.Outcome State Fault Refusal :=
  vecIntImm h d a .xor (i.signExtend 32)

/-- VII_SHL (R237). -/
def execViiShl (h : Head) (d : BitVec 5) (a : BitVec 5) (i : BitVec 5) : State → Host.Outcome State Fault Refusal :=
  vecIntImm h d a .shl (i.setWidth 32)

/-- VII_SHR (R237). -/
def execViiShr (h : Head) (d : BitVec 5) (a : BitVec 5) (i : BitVec 5) : State → Host.Outcome State Fault Refusal :=
  vecIntImm h d a .shr (i.setWidth 32)

/-- VII_SRA (R237). -/
def execViiSra (h : Head) (d : BitVec 5) (a : BitVec 5) (i : BitVec 5) : State → Host.Outcome State Fault Refusal :=
  vecIntImm h d a .sra (i.setWidth 32)

/-- SII_ADD (R237). -/
def execSiiAdd (h : Head) (d : BitVec 5) (a : BitVec 5) (i : BitVec 6) : State → Host.Outcome State Fault Refusal :=
  uniIntImm h d a .add (i.signExtend 32)

/-- SII_MUL (R237). -/
def execSiiMul (h : Head) (d : BitVec 5) (a : BitVec 5) (i : BitVec 6) : State → Host.Outcome State Fault Refusal :=
  uniIntImm h d a .mul (i.signExtend 32)

/-- SII_AND (R237). -/
def execSiiAnd (h : Head) (d : BitVec 5) (a : BitVec 5) (i : BitVec 6) : State → Host.Outcome State Fault Refusal :=
  uniIntImm h d a .and (i.signExtend 32)

/-- SII_OR (R237). -/
def execSiiOr (h : Head) (d : BitVec 5) (a : BitVec 5) (i : BitVec 6) : State → Host.Outcome State Fault Refusal :=
  uniIntImm h d a .or (i.signExtend 32)

/-- SII_XOR (R237). -/
def execSiiXor (h : Head) (d : BitVec 5) (a : BitVec 5) (i : BitVec 6) : State → Host.Outcome State Fault Refusal :=
  uniIntImm h d a .xor (i.signExtend 32)

/-- SII_SHL (R237). -/
def execSiiShl (h : Head) (d : BitVec 5) (a : BitVec 5) (i : BitVec 5) : State → Host.Outcome State Fault Refusal :=
  uniIntImm h d a .shl (i.setWidth 32)

/-- SII_SHR (R237). -/
def execSiiShr (h : Head) (d : BitVec 5) (a : BitVec 5) (i : BitVec 5) : State → Host.Outcome State Fault Refusal :=
  uniIntImm h d a .shr (i.setWidth 32)

/-- SII_SRA (R237). -/
def execSiiSra (h : Head) (d : BitVec 5) (a : BitVec 5) (i : BitVec 5) : State → Host.Outcome State Fault Refusal :=
  uniIntImm h d a .sra (i.setWidth 32)

/-- VM_ADDS (R239). -/
def execVmAdds (h : Head) (d : BitVec 5) (a : BitVec 5) (b : BitVec 5) : State → Host.Outcome State Fault Refusal :=
  vecMisc2 h d a b .adds

/-- VM_ADDU (R239). -/
def execVmAddu (h : Head) (d : BitVec 5) (a : BitVec 5) (b : BitVec 5) : State → Host.Outcome State Fault Refusal :=
  vecMisc2 h d a b .addu

/-- VM_SUBS (R239). -/
def execVmSubs (h : Head) (d : BitVec 5) (a : BitVec 5) (b : BitVec 5) : State → Host.Outcome State Fault Refusal :=
  vecMisc2 h d a b .subs

/-- VM_SUBU (R239). -/
def execVmSubu (h : Head) (d : BitVec 5) (a : BitVec 5) (b : BitVec 5) : State → Host.Outcome State Fault Refusal :=
  vecMisc2 h d a b .subu

/-- VM_NEG (R239). -/
def execVmNeg (h : Head) (d : BitVec 5) (a : BitVec 5) : State → Host.Outcome State Fault Refusal :=
  vecMisc1 h d a .neg

/-- VM_ABS (R239). -/
def execVmAbs (h : Head) (d : BitVec 5) (a : BitVec 5) : State → Host.Outcome State Fault Refusal :=
  vecMisc1 h d a .abs

/-- VM_MOV (R239). -/
def execVmMov (h : Head) (d : BitVec 5) (a : BitVec 5) : State → Host.Outcome State Fault Refusal :=
  vecMisc1 h d a .mov

/-- VM_CLZ (R239). -/
def execVmClz (h : Head) (d : BitVec 5) (a : BitVec 5) : State → Host.Outcome State Fault Refusal :=
  vecMisc1 h d a .clz

/-- VM_POPC (R239). -/
def execVmPopc (h : Head) (d : BitVec 5) (a : BitVec 5) : State → Host.Outcome State Fault Refusal :=
  vecMisc1 h d a .popc

/-- VM_BREV (R239). -/
def execVmBrev (h : Head) (d : BitVec 5) (a : BitVec 5) : State → Host.Outcome State Fault Refusal :=
  vecMisc1 h d a .brev

/-- VM_SEXT8 (R239). -/
def execVmSext8 (h : Head) (d : BitVec 5) (a : BitVec 5) : State → Host.Outcome State Fault Refusal :=
  vecMisc1 h d a .sext8

/-- VM_SEXT16 (R239). -/
def execVmSext16 (h : Head) (d : BitVec 5) (a : BitVec 5) : State → Host.Outcome State Fault Refusal :=
  vecMisc1 h d a .sext16

/-- VM_SATI8 (R239). -/
def execVmSati8 (h : Head) (d : BitVec 5) (a : BitVec 5) : State → Host.Outcome State Fault Refusal :=
  vecMisc1 h d a .sati8

/-- VM_SATI16 (R239). -/
def execVmSati16 (h : Head) (d : BitVec 5) (a : BitVec 5) : State → Host.Outcome State Fault Refusal :=
  vecMisc1 h d a .sati16

/-- VM_SATN8 (R239). -/
def execVmSatn8 (h : Head) (d : BitVec 5) (a : BitVec 5) : State → Host.Outcome State Fault Refusal :=
  vecMisc1 h d a .satn8

/-- VM_SATN16 (R239). -/
def execVmSatn16 (h : Head) (d : BitVec 5) (a : BitVec 5) : State → Host.Outcome State Fault Refusal :=
  vecMisc1 h d a .satn16

/-- VC_EQ (R240). -/
def execVcEq (h : Head) (d : BitVec 5) (a : BitVec 5) (b : BitVec 5) : State → Host.Outcome State Fault Refusal :=
  vecCmp h d a b .eq

/-- SC_EQ (R240). -/
def execScEq (h : Head) (d : BitVec 5) (a : BitVec 5) (b : BitVec 5) : State → Host.Outcome State Fault Refusal :=
  uniCmp h d a b .eq

/-- SC_SEQ (R240). -/
def execScSeq (h : Head) (d : BitVec 5) (a : BitVec 5) (b : BitVec 5) : State → Host.Outcome State Fault Refusal :=
  uniCmpSet h d a b .eq

/-- VC_NE (R240). -/
def execVcNe (h : Head) (d : BitVec 5) (a : BitVec 5) (b : BitVec 5) : State → Host.Outcome State Fault Refusal :=
  vecCmp h d a b .ne

/-- SC_NE (R240). -/
def execScNe (h : Head) (d : BitVec 5) (a : BitVec 5) (b : BitVec 5) : State → Host.Outcome State Fault Refusal :=
  uniCmp h d a b .ne

/-- SC_SNE (R240). -/
def execScSne (h : Head) (d : BitVec 5) (a : BitVec 5) (b : BitVec 5) : State → Host.Outcome State Fault Refusal :=
  uniCmpSet h d a b .ne

/-- VC_LT (R240). -/
def execVcLt (h : Head) (d : BitVec 5) (a : BitVec 5) (b : BitVec 5) : State → Host.Outcome State Fault Refusal :=
  vecCmp h d a b .lt

/-- SC_LT (R240). -/
def execScLt (h : Head) (d : BitVec 5) (a : BitVec 5) (b : BitVec 5) : State → Host.Outcome State Fault Refusal :=
  uniCmp h d a b .lt

/-- SC_SLT (R240). -/
def execScSlt (h : Head) (d : BitVec 5) (a : BitVec 5) (b : BitVec 5) : State → Host.Outcome State Fault Refusal :=
  uniCmpSet h d a b .lt

/-- VC_LE (R240). -/
def execVcLe (h : Head) (d : BitVec 5) (a : BitVec 5) (b : BitVec 5) : State → Host.Outcome State Fault Refusal :=
  vecCmp h d a b .le

/-- SC_LE (R240). -/
def execScLe (h : Head) (d : BitVec 5) (a : BitVec 5) (b : BitVec 5) : State → Host.Outcome State Fault Refusal :=
  uniCmp h d a b .le

/-- SC_SLE (R240). -/
def execScSle (h : Head) (d : BitVec 5) (a : BitVec 5) (b : BitVec 5) : State → Host.Outcome State Fault Refusal :=
  uniCmpSet h d a b .le

/-- VC_LTU (R240). -/
def execVcLtu (h : Head) (d : BitVec 5) (a : BitVec 5) (b : BitVec 5) : State → Host.Outcome State Fault Refusal :=
  vecCmp h d a b .ltu

/-- SC_LTU (R240). -/
def execScLtu (h : Head) (d : BitVec 5) (a : BitVec 5) (b : BitVec 5) : State → Host.Outcome State Fault Refusal :=
  uniCmp h d a b .ltu

/-- SC_SLTU (R240). -/
def execScSltu (h : Head) (d : BitVec 5) (a : BitVec 5) (b : BitVec 5) : State → Host.Outcome State Fault Refusal :=
  uniCmpSet h d a b .ltu

/-- VC_LEU (R240). -/
def execVcLeu (h : Head) (d : BitVec 5) (a : BitVec 5) (b : BitVec 5) : State → Host.Outcome State Fault Refusal :=
  vecCmp h d a b .leu

/-- SC_LEU (R240). -/
def execScLeu (h : Head) (d : BitVec 5) (a : BitVec 5) (b : BitVec 5) : State → Host.Outcome State Fault Refusal :=
  uniCmp h d a b .leu

/-- SC_SLEU (R240). -/
def execScSleu (h : Head) (d : BitVec 5) (a : BitVec 5) (b : BitVec 5) : State → Host.Outcome State Fault Refusal :=
  uniCmpSet h d a b .leu

/-- SC_BLEN (R240). -/
def execScBlen (h : Head) (d : BitVec 5) (a : BitVec 5) : State → Host.Outcome State Fault Refusal :=
  uniOp h d [.sw d 1, .s a 1] (fun f => BitVec.ofNat 32 (bitLen (f.U a.toNat)))

/-- VP_SEL (R241). -/
def execVpSel (h : Head) (d : BitVec 5) (a : BitVec 5) (b : BitVec 5) : State → Host.Outcome State Fault Refusal :=
  runWord h [.vw d 1, .v a 1, .p b, .v d 1] .none noWait (fun c => c.select d.toNat a.toNat b.toNat)

/-- VP_AND (R241). -/
def execVpAnd (h : Head) (d : BitVec 5) (a : BitVec 5) (b : BitVec 5) : State → Host.Outcome State Fault Refusal :=
  predOp h d [.pw d, .p a, .p b] (fun c l => let x := c.g.pd a.toNat l; let y := c.g.pd b.toNat l; x && y)

/-- VP_OR (R241). -/
def execVpOr (h : Head) (d : BitVec 5) (a : BitVec 5) (b : BitVec 5) : State → Host.Outcome State Fault Refusal :=
  predOp h d [.pw d, .p a, .p b] (fun c l => let x := c.g.pd a.toNat l; let y := c.g.pd b.toNat l; x || y)

/-- VP_XOR (R241). -/
def execVpXor (h : Head) (d : BitVec 5) (a : BitVec 5) (b : BitVec 5) : State → Host.Outcome State Fault Refusal :=
  predOp h d [.pw d, .p a, .p b] (fun c l => let x := c.g.pd a.toNat l; let y := c.g.pd b.toNat l; x != y)

/-- VP_ANDN (R241). -/
def execVpAndn (h : Head) (d : BitVec 5) (a : BitVec 5) (b : BitVec 5) : State → Host.Outcome State Fault Refusal :=
  predOp h d [.pw d, .p a, .p b] (fun c l => let x := c.g.pd a.toNat l; let y := c.g.pd b.toNat l; x && !y)

/-- VP_NOT (R241). -/
def execVpNot (h : Head) (d : BitVec 5) (a : BitVec 5) : State → Host.Outcome State Fault Refusal :=
  predOp h d [.pw d, .p a] (fun c l => !c.g.pd a.toNat l)

/-- VP_GET (R241). -/
def execVpGet (h : Head) (d : BitVec 5) (a : BitVec 5) : State → Host.Outcome State Fault Refusal :=
  runWord h [.vw d 1, .p a] .none noWait (fun c => c.setV d.toNat (fun _ m => c.predVal a.toNat m) 0)

/-- VP_SET (R241). -/
def execVpSet (h : Head) (d : BitVec 5) (a : BitVec 5) : State → Host.Outcome State Fault Refusal :=
  predOp h d [.pw d, .v a 1] (fun c l => c.g.laneV a.toNat l != 0)

/-- VP_MVU (R241). -/
def execVpMvu (h : Head) (d : BitVec 5) (a : BitVec 5) : State → Host.Outcome State Fault Refusal :=
  runWord h [.vw d 1, .s a 1] .none noWait (fun c => c.setV d.toNat (fun f _ => .u (f.U a.toNat)) 0)

/-- VX_IDX (R242). -/
def execVxIdx (h : Head) (d : BitVec 5) (a : BitVec 5) (b : BitVec 5) : State → Host.Outcome State Fault Refusal :=
  exchange h d a [.vw d 1, .v a 1, .v b 1] (fun c l => some ((c.g.laneV b.toNat l).toNat % c.g.w)) (fun c f => (c.g.readV f b.toNat).isU)

/-- VX_UP (R242). -/
def execVxUp (h : Head) (d : BitVec 5) (a : BitVec 5) (b : BitVec 5) : State → Host.Outcome State Fault Refusal :=
  exchange h d a [.vw d 1, .v a 1, .s b 1] (fun c l => let u := ((c.g.frm l).U b.toNat).toNat; if u ≤ l then some (l - u) else none) (fun _ _ => true)

/-- VX_DOWN (R242). -/
def execVxDown (h : Head) (d : BitVec 5) (a : BitVec 5) (b : BitVec 5) : State → Host.Outcome State Fault Refusal :=
  exchange h d a [.vw d 1, .v a 1, .s b 1] (fun c l => let u := ((c.g.frm l).U b.toNat).toNat; if l + u < c.g.w then some (l + u) else none) (fun _ _ => true)

/-- VX_XOR (R242). -/
def execVxXor (h : Head) (d : BitVec 5) (a : BitVec 5) (b : BitVec 5) : State → Host.Outcome State Fault Refusal :=
  exchange h d a [.vw d 1, .v a 1, .s b 1] (fun c l => some (l ^^^ ((c.g.frm l).U b.toNat).toNat % c.g.w)) (fun _ _ => true)

/-- VX_BCAST (R242). -/
def execVxBcast (h : Head) (d : BitVec 5) (a : BitVec 5) (b : BitVec 5) : State → Host.Outcome State Fault Refusal :=
  exchange h d a [.vw d 1, .v a 1, .s b 1] (fun c l => some (((c.g.frm l).U b.toNat).toNat % c.g.w)) (fun _ _ => true)

/-- SLI_LO (R243). -/
def execSliLo (c : Bool) (d : BitVec 5) (i : BitVec 16) : State → Host.Outcome State Fault Refusal :=
  uniOp (longHead c) d [.sw d 1] (fun _ => i.setWidth 32)

/-- SLI_HI (R243). -/
def execSliHi (c : Bool) (d : BitVec 5) (i : BitVec 16) : State → Host.Outcome State Fault Refusal :=
  uniOp (longHead c) d [.sw d 1, .s d 1] (fun f => i ++ (f.U d.toNat).extractLsb' 0 16)

/-- SLI_SX (R243). -/
def execSliSx (c : Bool) (d : BitVec 5) (i : BitVec 16) : State → Host.Outcome State Fault Refusal :=
  uniOp (longHead c) d [.sw d 1] (fun _ => i.signExtend 32)

/-- SLI_VSX (R243). -/
def execSliVsx (c : Bool) (d : BitVec 5) (i : BitVec 16) : State → Host.Outcome State Fault Refusal :=
  runWord (longHead c) [.vw d 1] .none noWait (fun c => c.setV d.toNat (fun _ _ => .u (i.signExtend 32)) 0)

/-- SR_RDV (R244). -/
def execSrRdv (h : Head) (d : BitVec 5) (i : BitVec 12) : State → Host.Outcome State Fault Refusal :=
  runWord h [.vw d 1] .none noWait (fun c => c.setV d.toNat (fun _ _ => c.sregVal i) 0)

/-- SR_RDS (R244). -/
def execSrRds (h : Head) (d : BitVec 5) (i : BitVec 12) : State → Host.Outcome State Fault Refusal :=
  runWord h [.sw d 1] .none noWait (fun c => c.updG c.s (fun g => c.frames.foldl (fun g (f, m) => g.setU f.id d.toNat ((c.sreg i (lowest m c.g.w)).setWidth 32)) g))

/-- SR_WRS (R244). -/
def execSrWrs (h : Head) (d : BitVec 5) (i : BitVec 12) : State → Host.Outcome State Fault Refusal :=
  runWord h [.s d 1] .none noWait (fun c => c.writeSreg i ((c.g.frm (lowest c.act c.g.w)).U d.toNat))

/-- SR_RDP (R244). -/
def execSrRdp (h : Head) (d : BitVec 5) (i : BitVec 12) : State → Host.Outcome State Fault Refusal :=
  runWord h [.pairw d] .none noWait (fun c => c.updG c.s (fun g => c.frames.foldl (fun g (f, m) => g.setUP f.id d.toNat (c.sreg i (lowest m c.g.w))) g))

/-- AD_ADD (R246). -/
def execAdAdd (h : Head) (d : BitVec 5) (a : BitVec 5) (b : BitVec 5) : State → Host.Outcome State Fault Refusal :=
  pairOp h d [.pairw d, .pair a, .pair b] (fun f => f.UP a.toNat + f.UP b.toNat)

/-- AD_SUB (R246). -/
def execAdSub (h : Head) (d : BitVec 5) (a : BitVec 5) (b : BitVec 5) : State → Host.Outcome State Fault Refusal :=
  pairOp h d [.pairw d, .pair a, .pair b] (fun f => f.UP a.toNat - f.UP b.toNat)

/-- AD_ADDX (R246). -/
def execAdAddx (h : Head) (d : BitVec 5) (a : BitVec 5) (b : BitVec 5) : State → Host.Outcome State Fault Refusal :=
  pairOp h d [.pairw d, .pair a, .s b 1] (fun f => f.UP a.toNat + (f.U b.toNat).signExtend 64)

/-- AD_ADDZ (R246). -/
def execAdAddz (h : Head) (d : BitVec 5) (a : BitVec 5) (b : BitVec 5) : State → Host.Outcome State Fault Refusal :=
  pairOp h d [.pairw d, .pair a, .s b 1] (fun f => f.UP a.toNat + (f.U b.toNat).setWidth 64)

/-- AD_SHL (R246). -/
def execAdShl (h : Head) (d : BitVec 5) (a : BitVec 5) (b : BitVec 5) : State → Host.Outcome State Fault Refusal :=
  pairOp h d [.pairw d, .pair a, .s b 1] (fun f => f.UP a.toNat <<< (f.U b.toNat).toNat)

/-- AD_SHR (R246). -/
def execAdShr (h : Head) (d : BitVec 5) (a : BitVec 5) (b : BitVec 5) : State → Host.Outcome State Fault Refusal :=
  pairOp h d [.pairw d, .pair a, .s b 1] (fun f => f.UP a.toNat >>> (f.U b.toNat).toNat)

/-- AD_MULW (R246). -/
def execAdMulw (h : Head) (d : BitVec 5) (a : BitVec 5) (b : BitVec 5) : State → Host.Outcome State Fault Refusal :=
  pairOp h d [.pairw d, .s a 1, .s b 1] (fun f => (f.U a.toNat).setWidth 64 * (f.U b.toNat).setWidth 64)

/-- AD_MOV (R246). -/
def execAdMov (h : Head) (d : BitVec 5) (a : BitVec 5) : State → Host.Outcome State Fault Refusal :=
  pairOp h d [.pairw d, .pair a] (fun f => f.UP a.toNat)

/-- AD_AND (R246). -/
def execAdAnd (h : Head) (d : BitVec 5) (a : BitVec 5) (b : BitVec 5) : State → Host.Outcome State Fault Refusal :=
  pairOp h d [.pairw d, .pair a, .pair b] (fun f => f.UP a.toNat &&& f.UP b.toNat)

/-- AD_MUL (R246). -/
def execAdMul (h : Head) (d : BitVec 5) (a : BitVec 5) (b : BitVec 5) : State → Host.Outcome State Fault Refusal :=
  pairOp h d [.pairw d, .pair a, .pair b] (fun f => f.UP a.toNat * f.UP b.toNat)

/-- AD_EQ (R246). -/
def execAdEq (h : Head) (d : BitVec 5) (a : BitVec 5) (b : BitVec 5) : State → Host.Outcome State Fault Refusal :=
  predOp h d [.pw d, .pair a, .pair b] (fun c l => let x := (c.g.frm l).UP a.toNat; let y := (c.g.frm l).UP b.toNat; x == y)

/-- AD_LTU (R246). -/
def execAdLtu (h : Head) (d : BitVec 5) (a : BitVec 5) (b : BitVec 5) : State → Host.Outcome State Fault Refusal :=
  predOp h d [.pw d, .pair a, .pair b] (fun c l => let x := (c.g.frm l).UP a.toNat; let y := (c.g.frm l).UP b.toNat; x.ult y)

/-- AD_LT (R246). -/
def execAdLt (h : Head) (d : BitVec 5) (a : BitVec 5) (b : BitVec 5) : State → Host.Outcome State Fault Refusal :=
  predOp h d [.pw d, .pair a, .pair b] (fun c l => let x := (c.g.frm l).UP a.toNat; let y := (c.g.frm l).UP b.toNat; x.slt y)

/-- SHP_SQ (R247). -/
def execShpSq (h : Head) (d : BitVec 5) : State → Host.Outcome State Fault Refusal :=
  wholeFrame h d [.v d 1] (fun c => c.squeeze d.toNat)

/-- SHP_EXP (R247). -/
def execShpExp (h : Head) (d : BitVec 5) : State → Host.Outcome State Fault Refusal :=
  wholeFrame h d [] (fun c => c.expand d.toNat)

/-- SHP_SHAPE (R247). -/
def execShpShape (h : Head) (d : BitVec 5) (a : BitVec 5) : State → Host.Outcome State Fault Refusal :=
  uniShape h d a

/-- SHP_RDX (R247). -/
def execShpRdx (h : Head) (d : BitVec 5) (a : BitVec 5) : State → Host.Outcome State Fault Refusal :=
  runWord h [.vw d 1, .s a 1] .none (fun c => c.indexBusy a.toNat) (fun c => c.readIndexed d.toNat a.toNat)

/-- SHP_WRX (R247). -/
def execShpWrx (h : Head) (d : BitVec 5) (a : BitVec 5) : State → Host.Outcome State Fault Refusal :=
  runWord h [.s d 1, .v a 1] .none (fun c => c.indexBusy d.toNat) (fun c => c.writeIndexed d.toNat a.toNat)

end Sys2Proof.Machine
end

