-- ==== Sys2Proof/Machine/Float.lean ====
section
/-! DEFINITION. Sys2Proof/Machine/Float.lean: floating point, conversion and quantisation, majors 0x16 to 0x1B (R250 to R264). -/

namespace Sys2Proof.Machine

/-! ## Words of one shape (R250): a result and flags from all-U sources once, else lane by lane over the active lanes -/

/-- The flags of the active lanes of a path whose sources are shaped: those of the one U computation, or the union over lanes. -/
def flagsOf (m : LaneSet) (w : Nat) (u : Bool) (f : Nat → FFlags) : FFlags :=
  if u then f (lowest m w) else (m.list w).foldl (fun a l => a ||| f l) 0

/-- A word's result and flags from sources read in each frame. -/
def Ctx.setF (c : Ctx) (d : Nat) (srcs : Frame → LaneSet → List Val) (f : List Word → Word × FFlags) : State :=
  let isU (f : Frame) (m : LaneSet) : Bool := (srcs f m).all Val.isU
  let at_ (fr : Frame) (m : LaneSet) (l : Nat) : Word × FFlags := f ((srcs fr m).map (fun v => v.lane l))
  let val (fr : Frame) (m : LaneSet) : Val := if isU fr m then .u (at_ fr m 0).1 else .g (fun l => (at_ fr m l).1)
  let fl := c.frames.foldl (fun a (fr, m) => a ||| flagsOf m c.g.w (isU fr m) (fun l => (at_ fr m l).2)) 0
  c.setV d val fl

/-- The first of a list of words. -/
def w0 (l : List Word) : Word := l.getD 0 0
/-- The second. -/
def w1 (l : List Word) : Word := l.getD 1 0
/-- The third. -/
def w2 (l : List Word) : Word := l.getD 2 0

/-- One vector source. -/
def float1 (h : Head) (d a : BitVec 5) (f : RMode → Word → Word × FFlags) : State → Host.Outcome State Fault Refusal :=
  runWord h [.vw d 1, .v a 1] .none noWait (fun c =>
    c.setF d.toNat (fun fr _ => [c.g.readV fr a.toNat]) (fun l => f c.g.rmode (w0 l)))

/-- Two vector sources. -/
def float2 (h : Head) (d a b : BitVec 5) (f : RMode → Word → Word → Word × FFlags) : State → Host.Outcome State Fault Refusal :=
  runWord h [.vw d 1, .v a 1, .v b 1] .none noWait (fun c =>
    c.setF d.toNat (fun fr _ => [c.g.readV fr a.toNat, c.g.readV fr b.toNat]) (fun l => f c.g.rmode (w0 l) (w1 l)))

/-- Two vector sources and the destination's old value. -/
def float3 (h : Head) (d a b : BitVec 5) (f : RMode → Word → Word → Word → Word × FFlags) : State → Host.Outcome State Fault Refusal :=
  runWord h [.vw d 1, .v a 1, .v b 1, .v d 1] .none noWait (fun c =>
    c.setF d.toNat (fun fr _ => [c.g.readV fr a.toNat, c.g.readV fr b.toNat, c.g.readV fr d.toNat]) (fun l => f c.g.rmode (w0 l) (w1 l) (w2 l)))

/-- An integer to f32 (R89, R256). -/
def ofInt32 (x : Int) : Word × FFlags :=
  let (c, fl) := cvtOfInt x
  (BitVec.ofNat 32 c, fl)

/-- f32 to an integer of a range (R89, R256). -/
def toInt32 (rm : RMode) (lo hi : Int) (x : Word) : Word × FFlags :=
  let (v, fl) := cvtInt .f32 rm lo hi x.toNat
  (BitVec.ofInt 32 v, fl)

/-- vcv.pkh and vcv.pkb: the second source in the high half. -/
def pack2 (f : Fmt) (rm : RMode) (x y : Word) : Word × FFlags :=
  let (lo, f0) := cvtFloat .f32 f rm true x.toNat
  let (hi, f1) := cvtFloat .f32 f rm true y.toNat
  (BitVec.ofNat 16 hi ++ BitVec.ofNat 16 lo, f0 ||| f1)

/-- A code of a narrow format widened exactly to f32. -/
def widen (f : Fmt) (rm : RMode) (x : Nat) : Word × FFlags :=
  let (c, fl) := cvtFloat f .f32 rm false x
  (BitVec.ofNat 32 c, fl)

/-- A byte of a word replaced. -/
def putByte (w : Word) (k : Nat) (b : Nat) : Word :=
  let k := k % 4
  (w &&& ~~~(BitVec.ofNat 32 (255 * 256 ^ k))) ||| BitVec.ofNat 32 (b % 256 * 256 ^ k)

/-- vcv.ie4 and vcv.ie5: the byte of the frame's U(B) mod 4. -/
def insertByte (h : Head) (d a b : BitVec 5) (f : Fmt) : State → Host.Outcome State Fault Refusal :=
  runWord h [.vw d 1, .v a 1, .s b 1, .v d 1] .none noWait (fun c =>
    c.setF d.toNat (fun fr _ => [c.g.readV fr a.toNat, c.g.readV fr d.toNat, .u (fr.U b.toNat)]) (fun l =>
      let (x, fl) := cvtFloat .f32 f c.g.rmode true (w0 l).toNat
      (putByte (w1 l) ((w2 l).toNat % 4) x, fl)))

/-- vcv.xe4 and vcv.xe5. -/
def extractByte (h : Head) (d a b : BitVec 5) (f : Fmt) : State → Host.Outcome State Fault Refusal :=
  runWord h [.vw d 1, .v a 1, .s b 1] .none noWait (fun c =>
    c.setF d.toNat (fun fr _ => [c.g.readV fr a.toNat, .u (fr.U b.toNat)]) (fun l =>
      widen f c.g.rmode ((w0 l).toNat / 256 ^ ((w1 l).toNat % 4) % 256)))

/-- vfc compares (R257): a bit in each active lane, and the flags. -/
def floatCmp (h : Head) (d a b : BitVec 5) (o : FCmp) : State → Host.Outcome State Fault Refusal :=
  runWord h [.pw d, .v a 1, .v b 1] .none noWait (fun c =>
    let r (l : Nat) : Bool × FFlags := f32cmp o (c.g.laneV a.toNat l) (c.g.laneV b.toNat l)
    c.updG c.s (fun g => (g.setPd d.toNat c.act (fun l => (r l).1)).flag ((c.act.list g.w).foldl (fun x l => x ||| (r l).2) 0)))

/-! ## vq (R258 to R262) -/

/-- A live lane's value of a register its frame declares, else none. -/
def Ctx.lentV (c : Ctx) (a l : Nat) : Option Word :=
  if (c.g.lane l).run.live && decide (a < (c.g.frm l).nv) then some (c.g.laneV a l) else none

/-- The one base that the frames of live lanes hold a register with as U, if they do (R259, R260). -/
def Ctx.oneBase (c : Ctx) (a : Nat) (ls : List Nat) : Option Word :=
  let live := ls.filter (fun l => (c.g.lane l).run.live)
  let base (l : Nat) : Option Word :=
    let f := c.g.frm l
    if a < f.nv then (match f.tag a with | .u b => some b | _ => none) else none
  match live with
  | [] => none
  | l :: r => if r.all (fun x => base x == base l) then base l else none

/-- The live lanes of the blocks of n lanes that hold an active lane (R259). -/
def Ctx.blockLanes (c : Ctx) (n : Nat) : LaneSet :=
  c.g.live &&& LaneSet.ofPred c.g.w (fun l => (c.act.list c.g.w).any (fun x => x / n == l / n))

/-- The live lanes whose codes the active lanes of pk4 and pk8 gather, m to a word (R260). -/
def Ctx.packLanes (c : Ctx) (m : Nat) : LaneSet :=
  c.g.live &&& LaneSet.ofPred c.g.w (fun l => (c.act.list c.g.w).any (fun x => x % (c.g.w / m) == l / m))

/-- The frames of lanes that hold a source of a whole block spilled: their refills come first (R81). -/
def Ctx.lentSpilled (c : Ctx) (a : Nat) (m : LaneSet) : List (Nat × Nat) :=
  (c.g.framesOf m).filterMap (fun (f, _) => if a < f.nv ∧ f.tag a = .spilled then some (f.id, a) else none)

/-- A source of a whole block is not there yet in a frame of its lanes (R60, R81). -/
def Ctx.blockBusy (c : Ctx) (a : Nat) (m : LaneSet) : Bool :=
  (c.g.framesOf m).any (fun (f, x) => decide (a < f.nv) && c.g.scoreboarded .v f.id a 1 x) || !(c.lentSpilled a m).isEmpty

/-- The block of a lane quantised (R259). -/
def Ctx.block (c : Ctx) (a n : Nat) (e4 : Bool) (fmt j : Nat) : Block :=
  let ls := (List.range n).map (fun i => n * j + i)
  let vs := match c.oneBase a ls with
    | some b => ls.map (fun _ => b)
    | none => ls.map (fun l => (c.lentV a l).getD 0)
  if e4 then quantQE vs fmt else quantQB vs fmt

/-- Blocks of n lanes that hold a lane of the path, with fmt read through the block's lowest active lane (R250, R259). -/
def Ctx.blocks (c : Ctx) (a b n : Nat) (e4 : Bool) : List (Nat × Block) :=
  ((List.range (c.g.w / n)).filter (fun j => (c.act.list c.g.w).any (fun l => l / n == j))).map (fun j =>
    let l := lowest (c.act &&& LaneSet.ofPred c.g.w (fun l => l / n == j)) c.g.w
    let fmt := ((c.g.frm l).U b).toNat % 2
    (j, c.block a n e4 fmt j))

/-- vq.q16, q32, qe16, qe32; q32 and qe32 raise illegal-word at W = 16 (R259, R264). The e2m1 forms are census sites (R262). -/
def quantWord (h : Head) (d a b : BitVec 5) (n : Nat) (e4 : Bool) (word : Word) : State → Host.Outcome State Fault Refusal :=
  runWord h [.vw d 1, .v a 1, .s b 1] .none (fun c => c.blockBusy a.toNat (c.blockLanes n)) (fun c =>
    if c.g.w < n then c.raise c.s ((c.act.list c.g.w).map (fun l => (l, 0x01, 0, word)))
    else
      let bs := c.blocks a.toNat b.toNat n e4
      let look (l : Nat) : Option Block := (bs.find? (fun x => x.1 == l / n)).map Prod.snd
      let r (l : Nat) : Word :=
        match look l with
        | some k => BitVec.ofNat 32 (k.header * 65536 + k.codes.getD (l % n) 0)
        | none => 0
      let one (l : Nat) : Bool := (c.oneBase a.toNat ((List.range n).map (fun i => n * (l / n) + i))).isSome
      let val (f : Frame) (m : LaneSet) : Val :=
        let ls := m.list c.g.w
        if (c.g.readV f a.toNat).isU && ls.all one && ls.all (fun l => r l == r (lowest m c.g.w)) then .u (r (lowest m c.g.w)) else .g r
      let s := c.setV d.toNat val 0
      let count (sel : Block → List Bool) : Nat :=
        ((c.act.list c.g.w).filter (fun l => match look l with | some k => (sel k).getD (l % n) false | none => false)).length
      if e4 || c.waited s then s
      else s.census c.g.grid c.pc { nans := count Block.nans, infs := 0, sats := count Block.sats, unfs := count Block.unfs })

/-- vq.pk4 and vq.pk8 (R260). -/
def packWord (h : Head) (d a : BitVec 5) (m z : Nat) : State → Host.Outcome State Fault Refusal :=
  runWord h [.vw d 1, .v a 1] .none (fun c => c.blockBusy a.toNat (c.packLanes m)) (fun c =>
    let one := c.oneBase a.toNat (List.range c.g.w)
    let code (l : Nat) : Nat :=
      (match (if l < c.g.w then c.lentV a.toNat l else none), one with
       | some v, _ => v.toNat
       | none, some b => b.toNat
       | none, none => 0) % 2 ^ z
    let r (l : Nat) : Word :=
      let base := m * (l % (c.g.w / m))
      BitVec.ofNat 32 ((List.range m).foldl (fun n i => n + code (base + i) * 2 ^ (z * i)) 0)
    c.setV d.toNat (fun f _ => if one.isSome && (c.g.readV f a.toNat).isU then .u (r 0) else .g r) 0)

/-- vq.dq4 and vq.dq8 (R261). -/
def dequant (h : Head) (d a b : BitVec 5) (e2 : Bool) : State → Host.Outcome State Fault Refusal :=
  runWord h [.vw d 1, .v a 1, .s b 1] .none noWait (fun c =>
    c.setF d.toNat (fun fr _ => [c.g.readV fr a.toNat, .u (fr.U b.toNat)]) (fun l =>
      let q := (w0 l).toNat
      let x := if e2 then e2m1Dec (q / 2 ^ 24 % 256) (q % 16) else Fmt.e4m3.dec (q % 256)
      scaleTo c.g.rmode x (scaleVal ((w1 l).toNat % 2) (q / 2 ^ 16 % 256))))

/-! ## The instructions -/

/-- VF32_ADD (R252). -/
def execVf32Add (h : Head) (d : BitVec 5) (a : BitVec 5) (b : BitVec 5) : State → Host.Outcome State Fault Refusal :=
  float2 h d a b (fun rm x y => f32op rm .add x y 0)

/-- VF32_SUB (R252). -/
def execVf32Sub (h : Head) (d : BitVec 5) (a : BitVec 5) (b : BitVec 5) : State → Host.Outcome State Fault Refusal :=
  float2 h d a b (fun rm x y => f32op rm .sub x y 0)

/-- VF32_MUL (R252). -/
def execVf32Mul (h : Head) (d : BitVec 5) (a : BitVec 5) (b : BitVec 5) : State → Host.Outcome State Fault Refusal :=
  float2 h d a b (fun rm x y => f32op rm .mul x y 0)

/-- VF32_MIN (R252). -/
def execVf32Min (h : Head) (d : BitVec 5) (a : BitVec 5) (b : BitVec 5) : State → Host.Outcome State Fault Refusal :=
  float2 h d a b (fun rm x y => f32op rm .min x y 0)

/-- VF32_MAX (R252). -/
def execVf32Max (h : Head) (d : BitVec 5) (a : BitVec 5) (b : BitVec 5) : State → Host.Outcome State Fault Refusal :=
  float2 h d a b (fun rm x y => f32op rm .max x y 0)

/-- VF32_CPSGN (R252). -/
def execVf32Cpsgn (h : Head) (d : BitVec 5) (a : BitVec 5) (b : BitVec 5) : State → Host.Outcome State Fault Refusal :=
  float2 h d a b (fun rm x y => f32op rm .cpsgn x y 0)

/-- VF32_FMA (R252). -/
def execVf32Fma (h : Head) (d : BitVec 5) (a : BitVec 5) (b : BitVec 5) : State → Host.Outcome State Fault Refusal :=
  float3 h d a b (fun rm x y z => f32op rm .fma x y z)

/-- VF32_FMS (R252). -/
def execVf32Fms (h : Head) (d : BitVec 5) (a : BitVec 5) (b : BitVec 5) : State → Host.Outcome State Fault Refusal :=
  float3 h d a b (fun rm x y z => f32op rm .fms x y z)

/-- VF32_ABS (R252). -/
def execVf32Abs (h : Head) (d : BitVec 5) (a : BitVec 5) : State → Host.Outcome State Fault Refusal :=
  float1 h d a (fun rm x => f32op rm .abs x 0 0)

/-- VF32_NEG (R252). -/
def execVf32Neg (h : Head) (d : BitVec 5) (a : BitVec 5) : State → Host.Outcome State Fault Refusal :=
  float1 h d a (fun rm x => f32op rm .neg x 0 0)

/-- VF32_RINT (R252). -/
def execVf32Rint (h : Head) (d : BitVec 5) (a : BitVec 5) : State → Host.Outcome State Fault Refusal :=
  float1 h d a (fun rm x => f32op rm .rint x 0 0)

/-- VF16_ADD (R253). -/
def execVf16Add (h : Head) (d : BitVec 5) (a : BitVec 5) (b : BitVec 5) : State → Host.Outcome State Fault Refusal :=
  float2 h d a b (fun rm x y => f16op .f16 rm .add x y 0)

/-- VF16_SUB (R253). -/
def execVf16Sub (h : Head) (d : BitVec 5) (a : BitVec 5) (b : BitVec 5) : State → Host.Outcome State Fault Refusal :=
  float2 h d a b (fun rm x y => f16op .f16 rm .sub x y 0)

/-- VF16_MUL (R253). -/
def execVf16Mul (h : Head) (d : BitVec 5) (a : BitVec 5) (b : BitVec 5) : State → Host.Outcome State Fault Refusal :=
  float2 h d a b (fun rm x y => f16op .f16 rm .mul x y 0)

/-- VF16_MIN (R253). -/
def execVf16Min (h : Head) (d : BitVec 5) (a : BitVec 5) (b : BitVec 5) : State → Host.Outcome State Fault Refusal :=
  float2 h d a b (fun rm x y => f16op .f16 rm .min x y 0)

/-- VF16_MAX (R253). -/
def execVf16Max (h : Head) (d : BitVec 5) (a : BitVec 5) (b : BitVec 5) : State → Host.Outcome State Fault Refusal :=
  float2 h d a b (fun rm x y => f16op .f16 rm .max x y 0)

/-- VF16_FMA (R253). -/
def execVf16Fma (h : Head) (d : BitVec 5) (a : BitVec 5) (b : BitVec 5) : State → Host.Outcome State Fault Refusal :=
  float3 h d a b (fun rm x y z => f16op .f16 rm .fma x y z)

/-- VF16_NEG (R253). -/
def execVf16Neg (h : Head) (d : BitVec 5) (a : BitVec 5) : State → Host.Outcome State Fault Refusal :=
  float1 h d a (fun rm x => f16op .f16 rm .neg x 0 0)

/-- VF16_ABS (R253). -/
def execVf16Abs (h : Head) (d : BitVec 5) (a : BitVec 5) : State → Host.Outcome State Fault Refusal :=
  float1 h d a (fun rm x => f16op .f16 rm .abs x 0 0)

/-- VF16_BADD (R253). -/
def execVf16Badd (h : Head) (d : BitVec 5) (a : BitVec 5) (b : BitVec 5) : State → Host.Outcome State Fault Refusal :=
  float2 h d a b (fun rm x y => f16op .bf16 rm .add x y 0)

/-- VF16_BSUB (R253). -/
def execVf16Bsub (h : Head) (d : BitVec 5) (a : BitVec 5) (b : BitVec 5) : State → Host.Outcome State Fault Refusal :=
  float2 h d a b (fun rm x y => f16op .bf16 rm .sub x y 0)

/-- VF16_BMUL (R253). -/
def execVf16Bmul (h : Head) (d : BitVec 5) (a : BitVec 5) (b : BitVec 5) : State → Host.Outcome State Fault Refusal :=
  float2 h d a b (fun rm x y => f16op .bf16 rm .mul x y 0)

/-- VF16_BMIN (R253). -/
def execVf16Bmin (h : Head) (d : BitVec 5) (a : BitVec 5) (b : BitVec 5) : State → Host.Outcome State Fault Refusal :=
  float2 h d a b (fun rm x y => f16op .bf16 rm .min x y 0)

/-- VF16_BMAX (R253). -/
def execVf16Bmax (h : Head) (d : BitVec 5) (a : BitVec 5) (b : BitVec 5) : State → Host.Outcome State Fault Refusal :=
  float2 h d a b (fun rm x y => f16op .bf16 rm .max x y 0)

/-- VF16_BFMA (R253). -/
def execVf16Bfma (h : Head) (d : BitVec 5) (a : BitVec 5) (b : BitVec 5) : State → Host.Outcome State Fault Refusal :=
  float3 h d a b (fun rm x y z => f16op .bf16 rm .fma x y z)

/-- VF16_BNEG (R253). -/
def execVf16Bneg (h : Head) (d : BitVec 5) (a : BitVec 5) : State → Host.Outcome State Fault Refusal :=
  float1 h d a (fun rm x => f16op .bf16 rm .neg x 0 0)

/-- VF16_BABS (R253). -/
def execVf16Babs (h : Head) (d : BitVec 5) (a : BitVec 5) : State → Host.Outcome State Fault Refusal :=
  float1 h d a (fun rm x => f16op .bf16 rm .abs x 0 0)

/-- VFX_DIV (R254). -/
def execVfxDiv (h : Head) (d : BitVec 5) (a : BitVec 5) (b : BitVec 5) : State → Host.Outcome State Fault Refusal :=
  float2 h d a b f32div

/-- VFX_SQRT (R254). -/
def execVfxSqrt (h : Head) (d : BitVec 5) (a : BitVec 5) : State → Host.Outcome State Fault Refusal :=
  float1 h d a f32sqrt

/-- VFX_RCP (R254). -/
def execVfxRcp (h : Head) (d : BitVec 5) (a : BitVec 5) : State → Host.Outcome State Fault Refusal :=
  float1 h d a (fun _ x => f32bounded .rcp x)

/-- VFX_RSQ (R254). -/
def execVfxRsq (h : Head) (d : BitVec 5) (a : BitVec 5) : State → Host.Outcome State Fault Refusal :=
  float1 h d a (fun _ x => f32bounded .rsq x)

/-- VFX_EXP2 (R254). -/
def execVfxExp2 (h : Head) (d : BitVec 5) (a : BitVec 5) : State → Host.Outcome State Fault Refusal :=
  float1 h d a (fun _ x => f32bounded .exp2 x)

/-- VFX_LOG2 (R254). -/
def execVfxLog2 (h : Head) (d : BitVec 5) (a : BitVec 5) : State → Host.Outcome State Fault Refusal :=
  float1 h d a (fun _ x => f32bounded .log2 x)

/-- VFX_SINPI (R254). -/
def execVfxSinpi (h : Head) (d : BitVec 5) (a : BitVec 5) : State → Host.Outcome State Fault Refusal :=
  float1 h d a (fun _ x => f32bounded .sinpi x)

/-- VFX_COSPI (R254). -/
def execVfxCospi (h : Head) (d : BitVec 5) (a : BitVec 5) : State → Host.Outcome State Fault Refusal :=
  float1 h d a (fun _ x => f32bounded .cospi x)

/-- VCV_F32I (R256). -/
def execVcvF32i (h : Head) (d : BitVec 5) (a : BitVec 5) : State → Host.Outcome State Fault Refusal :=
  float1 h d a (fun _ x => ofInt32 x.toInt)

/-- VCV_F32N (R256). -/
def execVcvF32n (h : Head) (d : BitVec 5) (a : BitVec 5) : State → Host.Outcome State Fault Refusal :=
  float1 h d a (fun _ x => ofInt32 x.toNat)

/-- VCV_I32F (R256). -/
def execVcvI32f (h : Head) (d : BitVec 5) (a : BitVec 5) : State → Host.Outcome State Fault Refusal :=
  float1 h d a (fun rm x => toInt32 rm (-(2 ^ 31)) (2 ^ 31 - 1) x)

/-- VCV_N32F (R256). -/
def execVcvN32f (h : Head) (d : BitVec 5) (a : BitVec 5) : State → Host.Outcome State Fault Refusal :=
  float1 h d a (fun rm x => toInt32 rm 0 (2 ^ 32 - 1) x)

/-- VCV_PKH (R256). -/
def execVcvPkh (h : Head) (d : BitVec 5) (a : BitVec 5) (b : BitVec 5) : State → Host.Outcome State Fault Refusal :=
  float2 h d a b (fun rm x y => pack2 .f16 rm x y)

/-- VCV_PKB (R256). -/
def execVcvPkb (h : Head) (d : BitVec 5) (a : BitVec 5) (b : BitVec 5) : State → Host.Outcome State Fault Refusal :=
  float2 h d a b (fun rm x y => pack2 .bf16 rm x y)

/-- VCV_UHL (R256). -/
def execVcvUhl (h : Head) (d : BitVec 5) (a : BitVec 5) : State → Host.Outcome State Fault Refusal :=
  float1 h d a (fun rm x => widen .f16 rm (x.extractLsb' 0 16).toNat)

/-- VCV_UHH (R256). -/
def execVcvUhh (h : Head) (d : BitVec 5) (a : BitVec 5) : State → Host.Outcome State Fault Refusal :=
  float1 h d a (fun rm x => widen .f16 rm (x.extractLsb' 16 16).toNat)

/-- VCV_UBL (R256). -/
def execVcvUbl (h : Head) (d : BitVec 5) (a : BitVec 5) : State → Host.Outcome State Fault Refusal :=
  float1 h d a (fun rm x => widen .bf16 rm (x.extractLsb' 0 16).toNat)

/-- VCV_UBH (R256). -/
def execVcvUbh (h : Head) (d : BitVec 5) (a : BitVec 5) : State → Host.Outcome State Fault Refusal :=
  float1 h d a (fun rm x => widen .bf16 rm (x.extractLsb' 16 16).toNat)

/-- VCV_IE4 (R256). -/
def execVcvIe4 (h : Head) (d : BitVec 5) (a : BitVec 5) (b : BitVec 5) : State → Host.Outcome State Fault Refusal :=
  insertByte h d a b .e4m3

/-- VCV_IE5 (R256). -/
def execVcvIe5 (h : Head) (d : BitVec 5) (a : BitVec 5) (b : BitVec 5) : State → Host.Outcome State Fault Refusal :=
  insertByte h d a b .e5m2

/-- VCV_XE4 (R256). -/
def execVcvXe4 (h : Head) (d : BitVec 5) (a : BitVec 5) (b : BitVec 5) : State → Host.Outcome State Fault Refusal :=
  extractByte h d a b .e4m3

/-- VCV_XE5 (R256). -/
def execVcvXe5 (h : Head) (d : BitVec 5) (a : BitVec 5) (b : BitVec 5) : State → Host.Outcome State Fault Refusal :=
  extractByte h d a b .e5m2

/-- VFC_EQ (R257). -/
def execVfcEq (h : Head) (d : BitVec 5) (a : BitVec 5) (b : BitVec 5) : State → Host.Outcome State Fault Refusal :=
  floatCmp h d a b .eq

/-- VFC_NE (R257). -/
def execVfcNe (h : Head) (d : BitVec 5) (a : BitVec 5) (b : BitVec 5) : State → Host.Outcome State Fault Refusal :=
  floatCmp h d a b .ne

/-- VFC_LT (R257). -/
def execVfcLt (h : Head) (d : BitVec 5) (a : BitVec 5) (b : BitVec 5) : State → Host.Outcome State Fault Refusal :=
  floatCmp h d a b .lt

/-- VFC_LE (R257). -/
def execVfcLe (h : Head) (d : BitVec 5) (a : BitVec 5) (b : BitVec 5) : State → Host.Outcome State Fault Refusal :=
  floatCmp h d a b .le

/-- VFC_UN (R257). -/
def execVfcUn (h : Head) (d : BitVec 5) (a : BitVec 5) (b : BitVec 5) : State → Host.Outcome State Fault Refusal :=
  floatCmp h d a b .un

/-- VFC_CLASS (R257). -/
def execVfcClass (h : Head) (d : BitVec 5) (a : BitVec 5) : State → Host.Outcome State Fault Refusal :=
  float1 h d a (fun _ x => (f32class x, 0))

/-- VQ_Q16 (R259). -/
def execVqQ16 (h : Head) (d : BitVec 5) (a : BitVec 5) (b : BitVec 5) : State → Host.Outcome State Fault Refusal :=
  quantWord h d a b 16 false (shortWord h 0x1B (Rrr.toPay ⟨d, a, b, 0⟩))

/-- VQ_Q32 (R259). -/
def execVqQ32 (h : Head) (d : BitVec 5) (a : BitVec 5) (b : BitVec 5) : State → Host.Outcome State Fault Refusal :=
  quantWord h d a b 32 false (shortWord h 0x1B (Rrr.toPay ⟨d, a, b, 1⟩))

/-- VQ_QE16 (R259). -/
def execVqQe16 (h : Head) (d : BitVec 5) (a : BitVec 5) (b : BitVec 5) : State → Host.Outcome State Fault Refusal :=
  quantWord h d a b 16 true (shortWord h 0x1B (Rrr.toPay ⟨d, a, b, 4⟩))

/-- VQ_QE32 (R259). -/
def execVqQe32 (h : Head) (d : BitVec 5) (a : BitVec 5) (b : BitVec 5) : State → Host.Outcome State Fault Refusal :=
  quantWord h d a b 32 true (shortWord h 0x1B (Rrr.toPay ⟨d, a, b, 5⟩))

/-- VQ_PK4 (R260). -/
def execVqPk4 (h : Head) (d : BitVec 5) (a : BitVec 5) : State → Host.Outcome State Fault Refusal :=
  packWord h d a 8 4

/-- VQ_PK8 (R260). -/
def execVqPk8 (h : Head) (d : BitVec 5) (a : BitVec 5) : State → Host.Outcome State Fault Refusal :=
  packWord h d a 4 8

/-- VQ_DQ4 (R261). -/
def execVqDq4 (h : Head) (d : BitVec 5) (a : BitVec 5) (b : BitVec 5) : State → Host.Outcome State Fault Refusal :=
  dequant h d a b true

/-- VQ_DQ8 (R261). -/
def execVqDq8 (h : Head) (d : BitVec 5) (a : BitVec 5) (b : BitVec 5) : State → Host.Outcome State Fault Refusal :=
  dequant h d a b false

end Sys2Proof.Machine
end

