-- ==== Sys2Proof/Machine/Access.lean ====
section
/-! DEFINITION. Sys2Proof/Machine/Access.lean: an access from its issue to its last completion point: the operand log (R336, R373), units
and their translation (R369, R375), entering the store FIFO (R122, R127, R128), presenting and binding loads (R123, R124), draining
(R122), performing atomics (R126), propagation (R122), and the holds of acquires and full fences (R128, R129). -/

namespace Sys2Proof.Machine

/-! ## Issue -/

/-- The operand log entries in use (R336). -/
def Group.logUsed (g : Group) : List Nat := g.ops.filterMap Op.log
/-- The lowest free entry. -/
def Group.logFree (g : Group) : Option Nat := (List.range Config.logEntries).find? (fun i => !g.logUsed.contains i)
/-- A lane runs in a handler frame (R373). -/
def Group.inHandler (g : Group) (l : Nat) : Bool := (g.frm l).handler.isSome
/-- How many places, counted by `f`, the chains of a group that have issued are sure of for their words to come (R47). -/
def Group.kept (g : Group) (f : Place → Nat) : Nat := g.chains.foldl (fun n c => c.places.foldl (fun n ps => ps.foldl (fun n p => n + f p) n) n) 0
/-- The same for the groups of a core, of those that `p` picks. -/
def State.keptOn (s : State) (core : Nat) (p : Group → Bool) (f : Place → Nat) : Nat := ((s.onCore core).filter p).foldl (fun n g => n + g.kept f) 0
/-- One for a place. -/
def Place.is (p q : Place) : Nat := if p == q then 1 else 0
/-- The requests among places. -/
def Place.count : Place → Nat
  | .requests n => n
  | _ => 0

/-- A logged word of the lanes finds no entry: the last free one is kept for lanes whose current frame is a handler frame (R336, R373). -/
def Group.logFull (g : Group) (m : LaneSet) : Bool :=
  let free := Config.logEntries - g.logUsed.length - g.kept Place.log.is
  decide (free = 0) || (decide (free = 1) && (m.list g.w).any (fun l => !g.inHandler l))

/-- The 32-byte sectors of parts in device or host space (R99, R266). -/
def sectorsOf (ps : List Part) : List Nat :=
  ps.foldl (fun acc p =>
    if p.scratch || p.prog == .done then acc
    else (List.range ((p.va.toNat + max 1 p.size - 1) / 32 - p.va.toNat / 32 + 1)).foldl (fun acc i =>
      let x := p.va.toNat / 32 + i
      if acc.contains x then acc else x :: acc) acc) []
/-- The requests of a word (R99, R266): one for each sector that its lanes touch together; each row of a tile transfer takes its own (R297). -/
def requestsOf (tile : Bool) (ps : List Part) : List Nat := if tile then ps.flatMap (fun p => sectorsOf [p]) else sectorsOf ps
/-- The sector requests of a team grow by sectors: those it had requested before count as hits (R30). -/
def State.countSectors (s : State) (grid : Word) (team : Nat) (xs : List Nat) : State :=
  if xs.isEmpty then s
  else s.updTeam grid team (fun t =>
    xs.foldl (fun t x =>
      if t.sectors.contains x then { t with qAll := t.qAll + 1, qHit := t.qHit + 1 }
      else { t with qAll := t.qAll + 1, sectors := x :: t.sectors }) t)

/-- Memory requests of a core outstanding (R99). -/
def State.outstanding (s : State) (core : Nat) : Nat :=
  (s.onCore core).foldl (fun n g => g.ops.foldl (fun n o => n + (requestsOf o.tlc o.parts).length) n) 0

/-- A part as it issues. -/
def newPart (lanes : LaneSet) (lead frame : Nat) (va : DWord) (scratch : Bool) (size : Nat) : Part :=
  { issue := 0, off := 0, lanes := lanes, lead := lead, frame := frame, va := va, scratch := scratch, size := size, data := [], cmp := [],
    prog := .untranslated, units := [], leftRestart := 0, leftAbandon := false }

/-- An access with nothing but its kind and parts. -/
def newOp (pc : DWord) (major : Nat) (kind : OpKind) (lanes : LaneSet) (scope : Nat) (parts : List Part) (dest : Dest) : Op :=
  { id := 0, pc := pc, major := major, kind := kind, lanes := lanes, scope := scope, acq := false, rel := none, marked := [], log := none, once := false,
    parts := parts, dest := dest, ldc := false, stc := false, tlc := false }

/-- An access issues: it takes its place in program order and raises its counters (R58). -/
def Group.issue (g : Group) (o : Op) : Group :=
  { g with
    ops := g.ops ++ [{ o with id := g.nextId, parts := o.parts.map (fun p => { p with issue := g.nextId }) }]
    nextId := g.nextId + 1
    ld := g.ld + if o.ldc then 1 else 0, st := g.st + if o.stc then 1 else 0, tl := g.tl + if o.tlc then 1 else 0 }

/-- A number for a release marker. -/
def State.newMark (s : State) : State × Nat := ({ s with stamp := s.stamp + 1 }, s.stamp + 1)

/-- A release fence of lanes issues (R127, R130); its marker's number is returned. -/
def State.issueFence (s : State) (core slot : Nat) (pc : DWord) (lanes : LaneSet) (scope : Nat) (opr : Bool) : State × Nat :=
  let (s, m) := s.newMark
  (s.updGroup core slot (fun g =>
    g.issue { newOp pc 0x22 .marker lanes scope [{ newPart lanes 0 0 0 true 0 with prog := .ready }] .none with rel := some m, acq := opr }), m)

/-- An acquire fence of lanes (R128), or the acquire side of a full fence with the marker it waits for; with `drains`, with the entries of
the store FIFO that it waits for (R129). -/
def State.addFence (s : State) (core slot : Nat) (lanes : LaneSet) (mark : Option Nat) (drains : Bool) : State :=
  s.updGroup core slot (fun g =>
    { g with
      holds := g.holds ++ [{ id := g.nextId, lanes := lanes, mark := mark, before := if drains then some g.nextId else none }]
      nextId := g.nextId + 1 })

/-- An acquire fence of lanes (R128). -/
def State.addHold (s : State) (core slot : Nat) (lanes : LaneSet) : State := s.addFence core slot lanes none false

/-- A marker has not yet left every queue of its scope (R129, R130): it waits to enter, stands in an SF, or in a propagation queue. -/
def State.markPending (s : State) (m : Nat) : Bool :=
  s.groups.any (fun g => g.ops.any (fun o => o.rel == some m && o.parts.any (fun p => p.prog != .done && p.prog != .entered)) || g.sf.any (fun i => i.rel == some m)) ||
    s.cores.any (fun c => c.prop.any (fun p => p.mark == some m)) || s.feProp.any (fun p => p.mark == some m)

/-! ## Acquires and full fences (R128, R129) -/

/-- A load, or the read of an atomic, of some of the lanes that is earlier in program order has not bound. -/
def Group.loadsBefore (g : Group) (lanes : LaneSet) (issue : Nat) : Bool :=
  g.ops.any (fun o =>
    (match o.kind with | .load | .atomic .. => true | _ => false) &&
      o.parts.any (fun p => decide (p.issue < issue) && p.lanes &&& lanes != 0 && p.pending && !p.isFaulted))

/-- A later step of the lanes is held by an acquire (R128): a load or atomic of an acquire form that has not bound for every lane of its word
but those that faulted, or an acquire fence with an earlier load of its lanes not bound. -/
def Group.acquireHolds (g : Group) (lanes : LaneSet) (issue : Nat) : Bool :=
  g.holds.any (fun h => decide (h.id < issue) && h.lanes &&& lanes != 0 && g.loadsBefore h.lanes h.id) ||
    g.ops.any (fun o => o.acq && o.lanes &&& lanes != 0 && (match o.kind with | .load | .atomic .. => true | _ => false) &&
      o.parts.any (fun p => decide (p.issue < issue) && p.pending && !p.isFaulted))

/-- What a full fence waits for beyond the loads before it is not over: its marker's queues, or the entries it found in SF(g) (R129). -/
def State.fenceOpen (s : State) (g : Group) (h : Hold) : Bool :=
  (match h.mark with | some m => s.markPending m | none => false) ||
    (match h.before with | some n => g.sf.any (fun i => decide (i.enter < n) && (match i.kind with | .store | .atomic .. => true | _ => false)) | none => false)

/-- A later load of the lanes is held: by an acquire, or by a full fence that is not over (R128, R129). -/
def State.loadHeld (s : State) (g : Group) (lanes : LaneSet) (issue : Nat) : Bool :=
  g.acquireHolds lanes issue || g.holds.any (fun h => decide (h.id < issue) && h.lanes &&& lanes != 0 && s.fenceOpen g h)

/-! ## Translation (R336, R369, R375) -/

/-- What an access asks of its addresses. -/
def OpKind.want : OpKind → Want
  | .store | .tileStore => ⟨true, false, false⟩
  | .atomic .. => ⟨true, false, true⟩
  | _ => ⟨false, false, false⟩

/-- A lane's floor for a unit, as it bounds a bind of an access of an issue: the co-latest write that the lane has bound there, or wrote there
by an earlier access (R123). -/
def Lane.floor (x : Lane) (unit issue : Nat) : Nat :=
  x.floors.foldl (fun n f => if f.unit == unit && decide (f.issue < issue) then max n f.seq else n) 0
/-- A floor raised: to what the lane has bound (issue 0), or wrote by an access of an issue. -/
def Lane.raiseFloor (x : Lane) (unit seq issue : Nat) : Lane :=
  if x.floors.any (fun f => f.unit == unit && decide (seq ≤ f.seq) && decide (f.issue ≤ issue)) then x
  else
    { x with floors := { unit := unit, seq := seq, issue := issue } ::
        x.floors.filter (fun f => !(f.unit == unit && decide (f.seq ≤ seq) && decide (issue ≤ f.issue))) }
/-- A write that a load of an issue has bound for a lane: it is a floor, and a release after the load covers it (R123, R127). -/
def Lane.boundTo (x : Lane) (unit seq issue : Nat) : Lane :=
  if seq = 0 then x
  else
    { (x.raiseFloor unit seq 0) with
      seen := if x.seen.any (fun y => y.1 == seq && decide (y.2 ≤ issue)) then x.seen else (seq, issue) :: x.seen.filter (fun y => y.1 != seq) }

/-- A write covers a byte range of memory. -/
def overlaps (k n k' n' : Nat) : Bool := decide (k < k' + n') && decide (k' < k + n)

/-- The floor of lanes together for a unit (R124). -/
def Group.floorOf (g : Group) (lanes : LaneSet) (unit issue : Nat) : Nat :=
  (lanes.list g.w).foldl (fun m l => max m ((g.lane l).floor unit issue)) 0

/-- The youngest entry of SF(g) before an access of an issue that writes a byte of a range within one unit (R123). -/
def Group.youngest (g : Group) (issue k n : Nat) : Option SfItem :=
  (g.sf.filter (fun i => decide (i.issue < issue) && overlaps i.key i.bytes.length k n)).getLast?

/-- What a load of lanes that presents and binds now reads at a key within one unit, and the place in co of the write it binds to (0 for one
that is still in SF(g), or is retired): through SF(g), the CMP, the points of its scope and the floors (R123); none while an entry of SF(g)
has to drain or perform first. -/
def State.readUnit (s : State) (g : Group) (lanes : LaneSet) (issue scope k n : Nat) : Option (List Byte × Nat) :=
  let u := unitOf k
  match g.youngest issue k n with
  | some i =>
    match i.kind with
    | .store => if i.key ≤ k ∧ k + n ≤ i.key + i.bytes.length then some ((i.bytes.drop (k - i.key)).take n, 0) else none
    | _ => none
  | none =>
    let fl := g.floorOf lanes u issue
    let w := s.latest u (fun w => w.visible (some g.core) scope || w.seq == fl)
    some (((s.unitBytes u w).drop (k - u)).take n, (w.map WriteRec.seq).getD 0)

/-- A load of lanes that binds now to a write: the entry of SF(g) it was forwarded from keeps its lanes, and their floors rise (R123). -/
def Group.readBy (g : Group) (lanes : LaneSet) (issue k n seq : Nat) : Group :=
  let g : Group := match g.youngest issue k n with
    | some f =>
      { g with sf := g.sf.map (fun x =>
          if x.enter == f.enter && x.key == f.key then { x with readers := x.readers ++ (lanes.list g.w).map (fun l => (l, issue)) } else x) }
    | none => g
  g.updLanes lanes (fun _ x => x.boundTo (unitOf k) seq issue)

/-- The bytes alone. -/
def State.readNow (s : State) (g : Group) (lanes : LaneSet) (issue scope k n : Nat) : Option (List Byte) :=
  (s.readUnit g lanes issue scope k n).map Prod.fst

/-- A table entry as the accessing lanes read it: a load at dev scope that presents no earlier than the access, held back by their
earlier acquires and full fences as a later load is (R370). -/
def State.readEntryOf (s : State) (g : Group) (lanes : LaneSet) (issue ea : Nat) : Option DWord :=
  if s.loadHeld g lanes issue then none
  else (s.readNow g lanes issue 4 ea 8).map leDWord

/-- The entries that a walk with a result read from memory: those it found that the caches did not hold, and the one it failed at. -/
def State.walkReads (s : State) (fn : Nat) (va : DWord) (es : List (Nat × Nat × DWord)) (x : Xlat) : List Nat :=
  let found := es.map (fun e => e.2.1)
  let failed : List Nat :=
    match x, (s.fns[fn]?).bind Fn.level0 with
    | .fail l false, some t =>
      if va.extractLsb' 56 8 != 0 then []
      else [((es.getLast?).map (fun e => entryAddr e.2.2)).getD t + 8 * (va.toNat / 2 ^ levelShift l % 2 ^ levelBits l)]
    | _, _ => []
  (found ++ failed).filter (fun ea => !s.tlb.any (fun e => e.1 == fn && e.2.1 == ea))

/-- The walk of an address for an access of lanes of a group: its reads bind as loads of those lanes (R123, R370). -/
def State.laneWalk (core slot : Nat) (lanes : LaneSet) (issue : Nat) (s : State) (va : DWord) : Option (State × Xlat) :=
  (s.group? core slot).bind (fun g =>
    let fn := s.fnOf g.grid
    (s.walk fn (s.readEntryOf g lanes issue) va).map (fun (es, x) =>
      ((s.walkReads fn va es x).foldl (fun (t : State) ea =>
        t.updGroup core slot (fun h => h.readBy lanes issue ea 8 (((s.readUnit g lanes issue 4 ea 8).map Prod.snd).getD 0))) (s.keepEntries es), x)))

/-- The outcome for a part: its units with their keys, a fault at an address, a forbidden request, or not yet, its request held at a frozen
master or not (R381). -/
inductive Translated where
  | units (us : List AccUnit)
  | fault (code : Nat) (detail : Word) (faddr : DWord)
  | forbidden (d : Denial)
  | later (held : Bool)
  deriving DecidableEq, Repr

/-- A part translated, unit by unit from its lowest address (R369): the first failing unit gives FADDR. -/
def State.translatePart (s : State) (g : Group) (o : Op) (p : Part) : State × Translated :=
  let fn := s.fnOf g.grid
  let step (acc : State × Translated) (r : Nat × Nat) : State × Translated :=
    match acc with
    | (s, .units us) =>
      let a := p.va + BitVec.ofNat 64 r.1
      match State.laneWalk g.core g.slot p.lanes p.issue s a with
      | none => (s, .later (s.frozen.contains fn && !s.loadHeld g p.lanes p.issue))
      | some (s, x) =>
        match s.judge fn o.kind.want r.2 x with
        | .ok key =>
          (s, .units (us ++ (splitUnits (r.2 + 1) key 0 r.2).map (fun (off, len) =>
            { off := r.1 + off, len := len, key := key + off, prog := .issued })))
        | .fault code d => (s, .fault code d a)
        | .forbidden d => (s, .forbidden d)
        | .frozen => (s, .later true)
    | _ => acc
  (pageRuns (p.size / 65536 + 3) p.va.toNat 0 p.size).foldl step (s, .units [])

/-- A scratch part's units are known at issue. -/
def scratchUnits (core : Nat) (off n : Nat) : List AccUnit :=
  (splitUnits (n + 1) (scratchKey core off) 0 n).map (fun (o, len) => { off := o, len := len, key := scratchKey core off + o, prog := .issued })

/-- A fault of a part is found: each of its lanes has it to take (R338), or, of a waiting lane's own wta, takes it as a runnable lane. -/
def Group.addDeferred (g : Group) (o : Op) (p : Part) (code : Nat) (faddr : DWord) (detail : Word) (rs : Bool) : Group :=
  g.updLanes p.lanes (fun _ x =>
    { x with
      deferred := x.deferred ++ [{ op := if rs then some o.id else none, id := p.issue, code := code, fpc := o.pc, faddr := faddr, detail := detail, rs := rs }]
      run := match x.run with | .address w => if w.reading then .running else x.run | r => r })

/-- One part of an access of a group replaced. -/
def Group.setPart (g : Group) (opId i : Nat) (p : Part) : Group :=
  { g with ops := g.ops.map (fun o => if o.id == opId then { o with parts := o.parts.set i p } else o) }

/-- The wide forms of atm, which are atomic in HBM5 alone (R273, R375). -/
def OpKind.wide : OpKind → Bool
  | .atomic _ ty => ty == 6 || ty == 7
  | _ => false
/-- The TY code of an atomic (R272). -/
def OpKind.ty : OpKind → Nat
  | .atomic _ ty => ty
  | _ => 0

/-- Every unit of every part of an access has passed translation (R336). -/
def Op.passed (o : Op) : Bool := o.parts.all (fun p => !p.unpassed && !p.isFaulted)

/-- The faults of a tile word, once every row is translated: every lane takes the lowest failing address of the word (R369). -/
def Group.tileFault (g : Group) (opId : Nat) : Group :=
  match g.ops.find? (fun o => o.id == opId) with
  | none => g
  | some o =>
    if o.parts.any Part.unpassed then g
    else
      let worst := o.parts.foldl (fun (b : Option (Part × Nat × Word × DWord)) p =>
        match p.prog with
        | .faulted c d a => (match b with | some (_, _, _, a') => if a.toNat < a'.toNat then some (p, c, d, a) else b | none => some (p, c, d, a))
        | _ => b) none
      match worst with
      | some (p, c, d, a) => g.addDeferred o p c a d true
      | none => g

/-- An atomic of the path that holds it until every lane has passed translation (R375). -/
def Group.wideHeld (g : Group) (path : LaneSet) : Bool :=
  g.ops.any (fun o => o.kind.wide && o.parts.any (fun p => p.prog == .untranslated && p.issue == o.id && p.lanes &&& path != 0))

/-- The lanes and units of one part move on, as their translation ends (R336, R369, R375, R381). -/
def State.translated (s : State) (core slot opId i : Nat) : State :=
  match s.group? core slot with
  | none => s
  | some g =>
    match g.ops.find? (fun o => o.id == opId) with
    | none => s
    | some o =>
      match o.parts[i]? with
      | none => s
      | some p =>
        if p.prog != .untranslated then s
        else
          match s.translatePart g o p with
          | (_, .later held) => if held then s.holdRequest (s.fnOf g.grid) g.grid else s
          | (s, .forbidden d) =>
            (s.violate d g.grid core slot p.lead o.pc).updGroup core slot (fun g => g.setPart opId i { p with prog := .discarded })
          | (s, .fault code d a) =>
            s.updGroup core slot (fun g =>
              let g := g.setPart opId i { p with prog := .faulted code d a }
              if o.whole then g.tileFault opId else g.addDeferred o p code a d true)
          | (s, .units us) =>
            if o.kind.wide && us.any (fun u => isHostKey u.key || decide (2 ^ 40 ≤ u.key)) then
              s.updGroup core slot (fun g =>
                if p.issue == o.id then g.setPart opId i { p with prog := .refused }
                else (((g.zeroDest o p).addDeferred o p 0x0C p.va (BitVec.ofNat 32 o.kind.ty) false).setPart opId i { p with prog := .done }).freeLog.finishOps)
            else s.updGroup core slot (fun g =>
              let g := (g.setPart opId i { p with prog := .ready, units := us }).freeLog
              if o.whole then g.tileFault opId else g)

/-- Once every lane of a wide atomic has passed translation, the lanes that the leaf of their address refuses take atomic-size together; their
accesses make no step (R335, R375). -/
def State.refuseWide (s : State) (core slot opId : Nat) : State :=
  match s.group? core slot with
  | none => s
  | some g =>
    match g.ops.find? (fun o => o.id == opId) with
    | none => s
    | some o =>
      let bad := o.parts.filter (fun p => p.prog == .refused)
      if bad.isEmpty || o.parts.any (fun p => p.prog == .untranslated && p.issue == o.id) then s
      else
        let s := s.updGroup core slot (fun g =>
          ({ g with ops := g.ops.map (fun x =>
              if x.id == opId then { x with parts := x.parts.map (fun p => if p.prog == .refused then { p with prog := .done } else p) } else x) } : Group).freeLog.finishOps)
        s.raisePrecise core slot o.pc o.pc (bad.flatMap (fun p =>
          ((p.lanes.list g.w).filter (fun l => (g.lane l).run.runnable)).map (fun l => (l, 0x0C, p.va, BitVec.ofNat 32 o.kind.ty))))

/-! ## Entering the store FIFO (R122, R127, R128) -/

/-- The kinds that enter SF(g). -/
def OpKind.enters : OpKind → Bool
  | .load => false
  | _ => true

/-- A write that a load bound is in the CMP of the core or at a point that it lists for the scope; retired writes are everywhere (R127). -/
def State.seenAt (s : State) (core scope seq : Nat) : Bool :=
  match s.writes.find? (fun w => w.seq == seq) with
  | none => true
  | some w => w.visible (some core) scope

/-- The release conditions of R127 hold for the lanes of a word at a scope: their earlier loads have bound, to writes that are in the CMP or
at a point of the scope; a write that an earlier load was forwarded has drained. -/
def State.releaseReady (s : State) (g : Group) (lanes : LaneSet) (issue scope : Nat) : Bool :=
  !g.loadsBefore lanes issue &&
    (lanes.list g.w).all (fun l => (g.lane l).seen.all (fun x => decide (issue ≤ x.2) || s.seenAt g.core scope x.1)) &&
    !g.sf.any (fun i => i.readers.any (fun r => lanes.has r.1 && decide (r.2 < issue)))

/-- The operand-ready release waits for the group's earlier tile stores, scratch stores and copies into staging (R133). -/
def State.operandsOut (s : State) (g : Group) (issue : Nat) : Bool :=
  !g.ops.any (fun o => decide (o.id < issue) && (match o.kind with
    | .tileStore => true
    | .store => o.parts.any Part.scratch
    | .copy c => c.dst.toNat / 2 ^ 30 % 4 == 3
    | _ => false)) &&
    !g.sf.any (fun i => match i.kind with | .copy c => c.dst.toNat / 2 ^ 30 % 4 == 3 | _ => false) &&
    !(s.core g.core).engine.any (fun c => c.slot == g.slot && c.kind ≤ 3 && c.kind != 1 && c.dst.toNat / 2 ^ 30 % 4 == 3)

/-- Whether the i-th part of a word, ready, may enter: SF(g) takes accesses in the order in which they issued and the writes of one word in
ascending order (R118, R270, R271), but for a tile store's rows (R297); no acquire holds it, and a release's conditions hold. -/
def State.mayEnter (s : State) (g : Group) (o : Op) (i : Nat) (p : Part) : Bool :=
  !g.ops.any (fun x => x.kind.enters && x.kind != .tileStore &&
      x.parts.zipIdx.any (fun (q, j) => (decide (q.issue < p.issue) || (q.issue == p.issue && x.id == o.id && decide (j < i))) &&
        (q.prog == .untranslated || q.prog == .ready))) &&
    !g.acquireHolds p.lanes p.issue &&
    (o.rel.isNone || s.releaseReady g o.lanes p.issue o.scope) &&
    (!(o.kind == .marker && o.acq) || s.operandsOut g p.issue)

/-- A part enters at the tail (R122): one entry for each unit of a store, one for each address of one issue of an atomic word
(R114, R344), one for a command or marker. -/
def Group.enterPart (g : Group) (o : Op) (i : Nat) (p : Part) : Group :=
  let item (k : SfKind) (key : Nat) (bs : List Byte) : SfItem :=
    { op := o.id, part := i, issue := p.issue, kind := k, lanes := p.lanes, key := key, bytes := bs, scope := o.scope, rel := o.rel,
      enter := g.nextId, readers := [], pc := o.pc }
  let sf :=
    match o.kind with
    | .store | .tileStore => g.sf ++ p.units.map (fun u => item .store u.key ((p.data.drop u.off).take u.len))
    | .atomic f ty =>
      let key := (p.units.head?.map AccUnit.key).getD 0
      let mine := (p.lead, p.data, p.cmp)
      let same (x : SfItem) : Bool := x.op == o.id && x.issue == p.issue && x.key == key
      if g.sf.any same then
        g.sf.map (fun x =>
          if same x then
            { x with lanes := x.lanes ||| p.lanes, kind := match x.kind with | .atomic f ty ps => .atomic f ty (ps ++ [mine]) | k => k }
          else x)
      else g.sf ++ [item (.atomic f ty [mine]) key p.data]
    | .marker => g.sf ++ [item .marker 0 []]
    | .copy c => g.sf ++ [item (.copy c) 0 []]
    | .cbCommit b n => g.sf ++ [item (.cbCommit b n) 0 []]
    | .cbPop b => g.sf ++ [item (.cbPop b) 0 []]
    | .lnch r => g.sf ++ [item (.lnch r) 0 []]
    | .load => g.sf
  ({ g with sf := sf, nextId := g.nextId + 1 }).setPart o.id i { p with prog := .entered }

/-- The parts of a group that are ready to enter, in order of issue; the rows of a tile store enter by steps of their own (R297). -/
def Group.readyParts (g : Group) : List (Nat × Nat × Nat) :=
  let all := g.ops.flatMap (fun o =>
    if o.kind.enters && o.kind != .tileStore then
      (o.parts.zipIdx).filterMap (fun (p, i) => if p.prog == .ready then some (p.issue, o.id, i) else none)
    else [])
  all.foldr (fun x acc => acc.takeWhile (fun y => y.1 < x.1) ++ [x] ++ acc.dropWhile (fun y => y.1 < x.1)) []

/-- Everything of a group that may enter its store FIFO enters. -/
def State.enterAll (s : State) (g : Group) : Group :=
  g.readyParts.foldl (fun g (_, id, i) =>
    match g.ops.find? (fun o => o.id == id) with
    | none => g
    | some o =>
      match o.parts[i]? with
      | none => g
      | some p => if s.mayEnter g o i p then g.enterPart o i p else g) g

/-- Fences whose conditions are met no longer hold anything (R128, R129). -/
def State.liftHolds (s : State) (g : Group) : Group :=
  { g with holds := g.holds.filter (fun h => g.loadsBefore h.lanes h.id || s.fenceOpen g h) }

/-! ## Loads (R123, R124, R269) -/

/-- The units of the loads of an access, in order: part, unit. -/
def Op.elems (o : Op) : List (Nat × Nat) := (o.parts.zipIdx).flatMap (fun (p, i) => (List.range p.units.length).map (fun j => (i, j)))

/-- The youngest earlier entry of SF(g) that writes a byte the load reads of a unit. -/
def Group.forwardFrom (g : Group) (p : Part) (u : AccUnit) : Option SfItem := g.youngest p.issue u.key u.len

/-- The load waits for an entry of SF(g) to drain or perform. -/
def Group.waitsForDrain (g : Group) (p : Part) (u : AccUnit) : Bool :=
  match g.forwardFrom p u with
  | none => false
  | some i => match i.kind with | .store => !(decide (i.key ≤ u.key) && decide (u.key + u.len ≤ i.key + i.bytes.length)) | _ => true

/-- A store or atomic of the group that issued before an access of lanes and has not entered SF(g) keeps it from a range within one unit: one
of the lanes' own when it writes a byte there, one of other lanes when it writes the unit (R123, R288); where it writes is not known before
its translation. -/
def Group.unentered (g : Group) (lanes : LaneSet) (issue k n : Nat) : Bool :=
  g.ops.any (fun x =>
    (match x.kind with
     | .store | .atomic .. => true
     | _ => false) &&
      x.parts.any (fun q => decide (q.issue < issue) &&
        (q.prog == .untranslated && !isScratchKey k ||
          q.prog == .ready && q.units.any (fun w => if q.lanes &&& lanes != 0 then overlaps w.key w.len k n else unitOf w.key == unitOf k))))

/-- A load of lanes at a key within one unit is barred (R123, R128, R129): by an acquire or a full fence, by an earlier store or atomic that has
not entered SF(g), or by an earlier load that waits for a write to drain. -/
def State.loadBarred (s : State) (g : Group) (lanes : LaneSet) (issue k n : Nat) : Bool :=
  s.loadHeld g lanes issue || g.unentered lanes issue k n ||
    g.ops.any (fun x => x.kind == .load &&
        x.parts.any (fun q => decide (q.issue < issue) && q.lanes &&& lanes != 0 && q.prog == .ready &&
          q.units.any (fun w => w.prog == .issued && g.waitsForDrain q w)))

/-- The load may present (R123); one that executes once for the group once all of it has passed translation (R337, R369). -/
def State.mayPresent (s : State) (g : Group) (o : Op) (p : Part) (u : AccUnit) : Bool :=
  p.prog == .ready && !s.loadBarred g p.lanes p.issue u.key u.len && !g.waitsForDrain p u && (!o.whole || o.passed)

/-- The bytes of a part once every unit has bound. -/
def Part.bytes (p : Part) : Option (List Byte) :=
  p.units.foldl (fun acc u =>
    match acc, u.prog with
    | some bs, .bound b _ => some (overlay bs u.off b)
    | _, _ => none) (some (List.replicate p.size 0))

/-- A loaded value as register words: zero-extended, low word first (R268). -/
def regWords (bs : List Byte) : List Word :=
  if bs.length ≤ 4 then [leWord bs] else (List.range (bs.length / 4)).map (fun i => leWord ((bs.drop (4 * i)).take 4))

/-- A bound part's value is written to its destination (R269, R271, R277, R291, R295). -/
def Group.deliver (g : Group) (o : Op) (p : Part) (bs : List Byte) : Group :=
  match o.dest with
  | .vec d _ uni =>
    ((regWords bs).zipIdx).foldl (fun g (w, i) =>
      match g.frame? p.frame with
      | some f => g.writeV f (d + i) p.lanes (if uni then .u w else .g (fun _ => w))
      | none => g) g
  | .uni d _ => ((regWords bs).zipIdx).foldl (fun g (w, i) => g.setU p.frame (d + i) w) g
  | .tile t _ => g.putTile t p.off bs
  | _ => g

/-- Granules that a U result written under a partial mask takes when it binds (R71, R73). -/
def Group.deliverNeed (g : Group) (o : Op) (p : Part) (bs : List Byte) : Nat :=
  match o.dest with
  | .vec d _ true =>
    ((regWords bs).zipIdx).foldl (fun n (w, i) =>
      match g.frame? p.frame with
      | some f => n + if f.takesSet (d + i) p.lanes (.u w) then g.perReg else 0
      | none => n) 0
  | _ => 0

/-- The destination of a wait on address is spilled: it is refilled before the lane can resume (R71, R81). -/
def Group.waitSpilled (g : Group) (frame dst size : Nat) : Bool :=
  (g.frame? frame).any (fun f => (List.range (max 1 (size / 4))).any (fun i => f.tag (dst + i) == .spilled))
/-- An access that is a wait on address with a spilled destination. -/
def Group.destSpilled (g : Group) (o : Op) (p : Part) : Bool := match o.dest with | .wait d => g.waitSpilled p.frame d p.size | _ => false

/-- A lane's wait on address as its read binds (R115, R287): it resumes with a value that differs from compare or when its time is up,
else it waits. -/
def State.settleWait (s : State) (core slot l : Nat) (w : WtaWait) (key : Nat) (bs : List Byte) : State :=
  let v := leDWord (bs ++ List.replicate (8 - bs.length) 0)
  let due := match w.deadline with | some t => decide (t ≤ s.ptime.toNat) | none => false
  if v != w.cmp || due then
    let s := s.updGroup core slot (fun g =>
      let g := ((regWords bs).zipIdx).foldl (fun g (x, i) =>
        match g.frame? w.frame with
        | some f => g.writeV f (w.dst + i) (LaneSet.one l) (.g (fun _ => x))
        | none => g) g
      g.updLane l (fun x => { x with run := .running }))
    if w.acq then s.addHold core slot (LaneSet.one l) else s
  else
    -- an entry for (word, scope): one in use for the pair, or a free one of the 64 (R116); words of 4 and 8 bytes at one address share it (log 23)
    let have_ := (s.core core).watch.contains (key, w.scope)
    let room := decide ((s.core core).watch.length < Config.watches)
    let s := if have_ || !room then s else s.updCore core (fun c => { c with watch := c.watch ++ [(key, w.scope)] })
    s.updGroup core slot (fun g => g.updLane l (fun x => { x with run := .address { w with key := some key, reading := false, watched := have_ || room } }))

/-- Watch entries whose last lane has resumed are free (R116). -/
def State.dropWatches (s : State) : State :=
  let used (c : Nat) (k : Nat × Nat) : Bool :=
    s.groups.any (fun g => g.core == c && g.lanes.any (fun x => match x.run with | .address w => w.watched && w.key == some k.1 && w.scope == k.2 | _ => false))
  if s.cores.all (fun c => c.watch.isEmpty) then s
  else { s with cores := s.cores.mapIdx (fun i c => { c with watch := c.watch.filter (used i) }) }

/-- The size of an access as the DETAIL of a data-uncorrectable has it: of tcfg.set, its 128 bytes (R343). -/
def Op.sizeCode (o : Op) (p : Part) : Word := BitVec.ofNat 32 (if o.major = 0x29 then 7 else p.size.log2)

/-- A part whose read found an uncorrectable error is over, with its destination elements 0; the whole access where it executes once for the
group (R338). -/
def Group.endBad (g : Group) (o : Op) (i : Nat) : Group :=
  let hit (j : Nat) (p : Part) : Bool := if o.whole then p.prog != .done else j == i
  let g := (o.parts.zipIdx).foldl (fun g (p, j) => if o.whole || j == i then g.zeroDest o p else g) g
  ({ g with ops := g.ops.map (fun x =>
      if x.id == o.id then { x with parts := x.parts.mapIdx (fun j p => if hit j p then { p with prog := .done } else p) } else x) } : Group).finishOps

/-- Every unit of a part has bound: its value is delivered, or an uncorrectable error is found; a unit forwarded from SF(g) was not read (R338,
R377). -/
def State.partBound (s : State) (core slot opId i : Nat) : State :=
  match s.group? core slot with
  | none => s
  | some g =>
    match g.ops.find? (fun o => o.id == opId) with
    | none => s
    | some o =>
      match o.parts[i]? with
      | none => s
      | some p =>
        match p.bytes with
        | none => s
        | some bs =>
          let read := p.units.filter (fun u => match u.prog with | .bound _ f => !f | _ => false)
          let s := read.foldl (fun s u => s.noteErrors (s.fnOf g.grid) u.key u.len) s
          match read.find? (fun u => s.uncorrectable u.key u.len) with
          | some u => s.updGroup core slot (fun g => (g.addDeferred o p 0x13 (p.va + BitVec.ofNat 64 u.off) (o.sizeCode p) false).endBad o i)
          | none =>
            match o.dest with
            | .wait _ =>
              let key := (p.units.head?.map AccUnit.key).getD 0
              let s := s.updGroup core slot (fun g => (g.setPart opId i { p with prog := .done }).finishOps)
              match (g.lane p.lead).run with
              | .address w => s.settleWait core slot p.lead w key bs
              | _ => s
            | _ => s.updGroup core slot (fun g => ((g.deliver o p bs).setPart opId i { p with prog := .done }).finishOps)

/-- The partition of a slot is stopped (R171). -/
def State.stopped (s : State) (core slot : Nat) : Bool := (s.core core).dstop.getLsbD (slot / 8)

/-- The number of a unit among the elements of an access. -/
def elemOf (s : State) (core slot opId i j : Nat) : Nat :=
  match (s.group? core slot).bind (fun g => g.ops.find? (fun o => o.id == opId)) with
  | some o => (o.elems.findIdx? (fun e => e == (i, j))).getD 0
  | none => 0

/-- A unit of a load binds to a write: floors, what the lanes have seen, and the part when it is the last (R123, R124). -/
def State.bindTo (s : State) (core slot opId i j : Nat) (seq : Nat) (bs : List Byte) (forwarded : Bool) : State :=
  let s := s.updGroup core slot (fun g =>
    match g.ops.find? (fun o => o.id == opId) with
    | none => g
    | some o =>
      match o.parts[i]? with
      | none => g
      | some p =>
        match p.units[j]? with
        | none => g
        | some u =>
          let g := if forwarded then g.readBy p.lanes p.issue u.key u.len seq else g.updLanes p.lanes (fun _ x => x.boundTo (unitOf u.key) seq p.issue)
          g.setPart opId i { p with units := p.units.set j { u with prog := .bound bs forwarded } })
  if s.stopped core slot then
    s.updCore core (fun k => { k with completions := k.completions ++ [.load slot opId (elemOf s core slot opId i j)] })
  else s.partBound core slot opId i

/-- LOAD_PRESENT (R123): forwarding from SF(g), or recording the writes in the CMP. -/
def State.present (s : State) (core slot opId elem : Nat) : State :=
  match s.group? core slot with
  | none => s
  | some g =>
    match g.ops.find? (fun o => o.id == opId) with
    | none => s
    | some o =>
      match o.kind, o.elems[elem]? with
      | .load, some (i, j) =>
        match o.parts[i]? with
        | none => s
        | some p =>
          match p.units[j]? with
          | none => s
          | some u =>
            if u.prog != .issued || !s.mayPresent g o p u || g.destSpilled o p then s
            else
              match g.forwardFrom p u with
              | some f =>
                s.bindTo core slot opId i j 0 ((f.bytes.drop (u.key - f.key)).take u.len) true
              | none =>
                let k := ((s.latest (unitOf u.key) (fun w => w.cmps.contains core)).map WriteRec.seq).getD 0
                s.updGroup core slot (fun g => g.setPart opId i { p with units := p.units.set j { u with prog := .presented k s.co } })
      | _, _ => s

/-- LOAD_BIND (R123): to the co-latest of what the CMP held when the load presented, the points its scope consults without later writes
of its own CMP, and the floors of its lanes (R124). -/
def State.bind (s : State) (core slot opId elem : Nat) : State :=
  match s.group? core slot with
  | none => s
  | some g =>
    match g.ops.find? (fun o => o.id == opId) with
    | none => s
    | some o =>
      match o.elems[elem]? with
      | none => s
      | some (i, j) =>
        match o.parts[i]? with
        | none => s
        | some p =>
          match p.units[j]? with
          | none => s
          | some u =>
            match u.prog with
            | .presented k stamp =>
              let unit := unitOf u.key
              let fl := g.floorOf p.lanes unit p.issue
              let w := s.latest unit (fun w =>
                w.seq == k || w.seq == fl || (w.atPoint (some core) o.scope && !(w.origin == some core && decide (stamp < w.seq))))
              let bs := ((s.unitBytes unit w).drop (u.key - unit)).take u.len
              let done := { p with units := p.units.set j { u with prog := .bound bs false } }
              let need := match done.bytes with | some all => g.deliverNeed o done all | none => 0
              if g.destSpilled o p then s
              else if !s.roomFor core slot o.pc p.lanes need 0 then s.request core slot o.pc p.lanes need 0
              else (if need = 0 then s else s.dropRequest core slot o.pc p.lanes).bindTo core slot opId i j ((w.map WriteRec.seq).getD 0) bs false
            | _ => s

/-! ## Draining, performing, propagating (R122, R126) -/

/-- A load of an issue before `upTo` has not presented, and does not wait for an entry of SF(g) to drain or perform itself: then neither could
go on. A store waits for those from before it came to SF(g) (R123), an atomic for those before it in program order (log 23). -/
def Group.drainHeld (g : Group) (h : SfItem) (upTo : Nat) : Bool :=
  g.ops.any (fun o => o.kind == .load && o.parts.any (fun p =>
    decide (p.issue < upTo) && (p.prog == .ready || p.prog == .untranslated) &&
      (p.prog == .untranslated || p.units.any (fun u => u.prog == .issued && !(g.waitsForDrain p u && (g.forwardFrom p u).any (fun i => i.enter == h.enter))))))

/-- A marker takes its place in the queues of its scope (R120). -/
def State.queueMark (s : State) (core slot scope : Nat) (m : Nat) : State :=
  if scope ≤ 1 then s
  else s.updCore core (fun c => { c with prop := c.prop ++ [{ mark := some m, seq := 0, unit := 0, reach := 1, last := scope, slot := slot, shown := none }] })

/-- A plain write of a core enters its CMP and its queues (R119, R121, R122). -/
def State.enterCmp (s : State) (core slot key : Nat) (bs : List Byte) (shown : Option Drained) : State :=
  let s := s.addWrite key bs (some core) [core] 1
  if isScratchKey key then s
  else s.updCore core (fun c => { c with prop := c.prop ++ [{ mark := none, seq := s.co, unit := unitOf key, reach := 1, last := 6, slot := slot, shown := shown }] })

/-- An entry's part is finished when none of its entries is left. -/
def Group.entryGone (g : Group) (h : SfItem) : Group :=
  if g.sf.any (fun i => i.op == h.op && i.part == h.part) then g
  else
    match g.ops.find? (fun o => o.id == h.op) with
    | none => g
    | some o =>
      let g := match o.parts[h.part]? with
        | some p => if p.prog == PartProgress.entered && p.issue == h.issue then g.setPart h.op h.part { p with prog := .done } else g
        | none => g
      g.finishOps

/-- The lanes that wrote or were forwarded a write have it as their floor (R123). While a load of the lane from before the write is out, the
floor bounds later accesses only. -/
def Group.wroteFloor (g : Group) (h : SfItem) (seq : Nat) : Group :=
  let busy (l : Nat) : Bool := g.ops.any (fun o => o.kind == .load && o.parts.any (fun p => p.lanes.has l && p.pending && decide (p.issue < h.issue)))
  g.updLanes (LaneSet.ofPred g.w (fun l => h.lanes.has l || h.readers.any (fun r => r.1 == l))) (fun l x =>
    x.raiseFloor (unitOf h.key) seq (if h.lanes.has l && busy l then h.issue else 0))

/-- The release marker of an issue of a word has been placed (R127, R344). -/
def Group.mark (g : Group) (h : SfItem) : Group :=
  { g with ops := g.ops.map (fun o => if o.id == h.op then { o with marked := h.issue :: o.marked } else o) }
/-- The release marker of an entry's issue stands in the queues already, or its word has none. -/
def Group.isMarked (g : Group) (h : SfItem) : Bool := h.rel.isNone || (g.ops.find? (fun o => o.id == h.op)).any (fun o => o.marked.contains h.issue)
/-- A store to host memory that the host completes with an error: its lanes take data-uncorrectable (R371). -/
def Group.hostStoreFault (g : Group) (h : SfItem) : Group :=
  match g.ops.find? (fun o => o.id == h.op) with
  | none => g
  | some o =>
    match o.parts[h.part]? with
    | none => g
    | some p => g.addDeferred o p 0x13 (p.va + BitVec.ofNat 64 (((p.units.find? (fun u => u.key == h.key)).map AccUnit.off).getD 0)) (o.sizeCode p) false

/-- The device virtual or scratch address that an SF entry of an access holds; 0 when its access is gone. -/
def Group.itemAddr (g : Group) (i : SfItem) : DWord :=
  match (g.ops.find? (fun o => o.id == i.op)).bind (fun o => o.parts[i.part]?) with
  | some p =>
    match p.units.find? (fun u => u.key == i.key) with
    | some u => p.va + BitVec.ofNat 64 u.off
    | none => p.va
  | none => 0

/-- The commit of a slot (R103): it is filled, and FILLED counts the contiguous filled slots from CI. -/
def CBuf.commit (b : CBuf) (slot : Nat) : CBuf :=
  let st := b.state.set slot 2
  let n := b.slots
  let run := ((List.range n).map (fun i => (b.ci + i) % n)).takeWhile (fun i => st.getD i 0 == 2)
  { b with state := st, filled := run.length, committing := b.committing.filter (· != slot) }

/-- The pop (R103): the slot at RI becomes free. -/
def CBuf.pop (b : CBuf) : CBuf :=
  { b with state := b.state.set b.ri 0, ri := (b.ri + 1) % b.slots, free := b.free + 1, popping := b.popping - 1 }

/-- One buffer of a grid on a core changed. -/
def State.updBuf (s : State) (core : Nat) (grid : Word) (n : Nat) (f : CBuf → CBuf) : State :=
  s.updCore core (fun c => { c with regions := c.regions.map (fun r =>
    if r.grid == grid then { r with bufs := r.bufs.map (fun b => if b.num == n then f b else b) } else r) })

/-- The word of a request that the front end is to take (R317). -/
def LnchReq.word? : LnchReq → Option Nat
  | .record w .. => some w
  | .trigger w _ => some w
  | .cancel _ => none
/-- The lnch words of a core whose requests have drained and wait for the front end (R317). -/
def State.lnchWords (s : State) (core : Nat) : List LnchWord :=
  (s.requests.filterMap LaunchRequest.word ++ s.signals.filterMap Signal.word).foldl (fun acc w =>
    if w.core == core && !acc.contains w then acc ++ [w] else acc) []
/-- A request may drain: the core holds fewer than 16 such words, or its word is one of them. -/
def State.lnchRoom (s : State) (core : Nat) (w : Option LnchWord) : Bool :=
  match w with
  | none => true
  | some w => (s.lnchWords core).contains w || decide ((s.lnchWords core).length < 16)

/-- SF_DRAIN (R122): the head of SF(g) enters the CMP, is taken by the engine, or acts on its buffer. -/
def State.drain (s : State) (core slot : Nat) : State :=
  match s.group? core slot with
  | none => s
  | some g =>
    match g.sf with
    | [] => s
    | h :: rest =>
      if s.stopped core slot then s
      else
        let pop (s : State) : State := s.updGroup core slot (fun g => ({ g with sf := rest }).entryGone h)
        match h.kind with
        | .atomic .. => s
        | .store =>
          if g.drainHeld h h.enter then s
          else
            let s := if g.isMarked h then s else s.queueMark core slot h.scope (h.rel.getD 0)
            let s := if isHostKey h.key && s.uncorrectable h.key h.bytes.length then s.updGroup core slot (fun g => g.hostStoreFault h) else s
            let s := s.enterCmp core slot h.key h.bytes (some ⟨0, h.scope, g.itemAddr h, h.bytes⟩)
            s.updGroup core slot (fun g => ((({ g with sf := rest }).mark h).wroteFloor h s.co).entryGone h)
        | .marker => pop (s.queueMark core slot h.scope (h.rel.getD 0))
        | .copy c => pop (s.updCore core (fun k => { k with engine := k.engine ++ [c] }))
        | .cbCommit b n => pop (s.updBuf core g.grid b (fun x => x.commit n))
        | .cbPop b => pop (s.updBuf core g.grid b CBuf.pop)
        | .lnch r =>
          if !s.lnchRoom core (r.word?.map (fun w => ⟨core, slot, w⟩)) then s
          else
          let s := match h.rel with | some m => s.queueMark core slot h.scope m | none => s
          let fn := s.fnOf g.grid
          let q := ((s.grid? g.grid).map Grid.queue).getD 0
          match r with
          | .record w a f d l =>
            let req : LaunchRequest :=
              { addr := a, fn := fn, queue := q, issuer := .thread core slot h.pc f d l h.op, word := some ⟨core, slot, w⟩, mark := h.rel }
            { s.updGroup core slot (fun g => { g with sf := rest }) with requests := s.requests ++ [req] }
          | .trigger w a =>
            pop { s with signals := s.signals ++ [{ addr := a, table := none, fn := fn, queue := q, marks := h.rel.toList, word := some ⟨core, slot, w⟩, entry := none, pc := h.pc }] }
          | .cancel grid => pop (if s.fnOf grid = fn ∧ (s.grid? grid).isSome then s.cancelGrid grid 0x10 else s)

/-- The new value of an atomic (R113). -/
def atomicValue (f ty : Nat) (old x c : List Byte) : List Byte :=
  let n := old.length
  let o := leNat old
  let v := leNat x
  let m := 256 ^ n
  let sgn (k : Nat) : Int := if k ≥ m / 2 then (k : Int) - m else k
  let signed := ty == 0 || ty == 2
  match f with
  | 0 =>
    if ty = 4 then natLe 4 (Fmt.f32.op .rne .add o v 0).1
    else if ty = 5 then natLe 2 (Fmt.bf16.op .rne .add o v 0).1
    else natLe n ((o + v) % m)
  | 1 => if signed then (if sgn v < sgn o then x else old) else (if v < o then x else old)
  | 2 => if signed then (if sgn o < sgn v then x else old) else (if o < v then x else old)
  | 3 => natLe n (o &&& v)
  | 4 => natLe n (o ||| v)
  | 5 => natLe n (o ^^^ v)
  | 6 => x
  | _ => if old == c then x else old

/-- The unit may be performed on at a scope: every write to it from the scope's domain is in the CMP or at the point of the scope (R126). -/
def State.mayPerform (s : State) (core scope unit : Nat) : Bool :=
  s.writes.all (fun w => w.unit != unit || w.cmps.contains core || w.atPoint (some core) scope ||
    (match w.origin with | some o => !sameDomain scope core o | none => false))

/-- ATOMIC_PERFORM (R126): the lanes that name the address at the head take effect in ascending order, in one step. -/
def State.perform (s : State) (core slot : Nat) : State :=
  match s.group? core slot with
  | none => s
  | some g =>
    match g.sf with
    | h :: rest =>
      match h.kind with
      | .atomic f ty ps =>
        if s.stopped core slot || g.drainHeld h h.issue then s
        else if (g.ops.find? (fun o => o.id == h.op)).any (fun o =>
            o.parts.any (fun p => p.issue == h.issue && (p.prog == .untranslated || p.prog == .ready))) then s
        else if !g.isMarked h then (s.queueMark core slot h.scope (h.rel.getD 0)).updGroup core slot (fun g => g.mark h)
        else if (match h.rel with | some m => s.cores.any (fun c => c.prop.any (fun p => p.mark == some m)) | none => false) then s
        else if !s.mayPerform core h.scope (unitOf h.key) then s
        else
          let unit := unitOf h.key
          let n := h.bytes.length
          let sorted := (List.range g.w).filterMap (fun l => ps.find? (fun x => x.1 == l))
          let one (s : State) (x : Nat × List Byte × List Byte) : State :=
            let (l, data, cmp) := x
            match (s.group? core slot).bind (fun g => g.ops.find? (fun o => o.id == h.op)) with
            | none => s
            | some o =>
              match (o.parts.zipIdx).find? (fun (p, _) => p.lead == l && p.issue == h.issue && p.prog == .entered) with
              | none => s
              | some (p, i) =>
                let s := s.noteErrors (s.fnOf g.grid) h.key n
                if s.uncorrectable h.key n then
                  s.updGroup core slot (fun g => (((g.zeroDest o p).addDeferred o p 0x13 p.va (BitVec.ofNat 32 n.log2) false).setPart o.id i
                    { p with prog := .done }))
                else
                  let w := s.latest unit (fun w => w.visible (some core) h.scope)
                  let old := ((s.unitBytes unit w).drop (h.key - unit)).take n
                  let new := atomicValue f ty old data cmp
                  let reach := max 1 h.scope
                  let s := s.addWrite h.key new (some core) [core] reach
                  let s := if isScratchKey h.key || decide (6 ≤ reach) then s
                    else s.updCore core (fun c => { c with prop := c.prop ++ [{ mark := none, seq := s.co, unit := unit, reach := reach, last := 6, slot := slot, shown := some ⟨1, h.scope, p.va, new⟩ }] })
                  let seen := (w.map WriteRec.seq).getD 0
                  s.updGroup core slot (fun g =>
                    let g := (g.deliver o p old).setPart o.id i { p with prog := .done }
                    g.updLanes p.lanes (fun _ x => (x.boundTo unit seen p.issue).raiseFloor unit s.co 0))
          let s := sorted.foldl one s
          s.updGroup core slot (fun g => ({ g with sf := rest }).finishOps)
      | _ => s
    | [] => s

/-- The item may leave its next queue (R122): a write behind no write to its unit and no marker there, a marker behind nothing. -/
def mayPropagate (q : List PropItem) (i : Nat) (x : PropItem) : Bool :=
  let lvl := x.reach + 1
  (q.take i).all (fun y => !(decide (y.reach < lvl) && decide (lvl ≤ y.last)) || (x.mark.isNone && y.mark.isNone && y.unit != x.unit))

/-- One item of a queue list moved to its next point; gone after its last. -/
def advanceItem (q : List PropItem) (i : Nat) (x : PropItem) : List PropItem :=
  if x.reach + 1 = x.last then q.eraseIdx i else q.set i { x with reach := x.reach + 1 }

/-- A write reaches a point. -/
def State.reached (s : State) (seq lvl : Nat) : State :=
  { s with writes := s.writes.map (fun w => if w.seq == seq && decide (w.reach < lvl) then { w with reach := lvl } else w) }

/-- PROPAGATE (R122): an entry of a core's queues, or of the front end's behind the last core, leaves the next one and reaches that point. -/
def State.propagate (s : State) (core i : Nat) : State :=
  let q := if core < s.cores.length then (s.core core).prop else s.feProp
  match q[i]? with
  | none => s
  | some x =>
    if !mayPropagate q i x then s
    else
      let s := if x.mark.isNone then s.reached x.seq (x.reach + 1) else s
      if core < s.cores.length then s.updCore core (fun c => { c with prop := advanceItem c.prop i x })
      else { s with feProp := advanceItem q i x }

end Sys2Proof.Machine
end

