-- ==== Sys2Proof/Machine/Memory.lean ====
section
/-! DEFINITION. Sys2Proof/Machine/Memory.lean: the memory, atomic, fence, scratch, software cache, circular buffer, copy and wait words,
majors 0x1D to 0x28 (R265 to R289, R374 to R376). -/

namespace Sys2Proof.Machine

/-! ## A memory word at issue -/

/-- What a memory word is about to issue: its access, the faults of lanes found at issue (R374), and the registers that must be in G
shape to receive its result (R73). -/
structure MemWord where
  kind : OpKind
  major : Nat
  scope : Nat
  acq : Bool
  rel : Bool
  dest : Dest
  ldc : Bool
  stc : Bool
  tlc : Bool
  logged : Bool
  once : Bool
  parts : List Part
  faults : List (Nat × Nat × DWord × Word)
  grow : List (Nat × Nat)
  deriving DecidableEq

/-- A counter (0 ld, 1 st, 2 cp, 3 tl) at 255, with what the words to come of chains that have issued add to it (R47, R58). -/
def Ctx.counterFull (c : Ctx) (k n : Nat) : Bool := decide (255 ≤ n + c.g.kept (Place.counter k).is)

/-- A memory word stalls at issue: a counter at 255 (R58), no log entry (R336, R373), or too few requests (R99); a later word of a chain that has
issued is sure of its place (R47). -/
def Ctx.memStall (c : Ctx) (m : MemWord) : Bool :=
  if m.parts.isEmpty || c.mid then false
  else
    (m.ldc && c.counterFull 0 c.g.ld) || (m.stc && c.counterFull 1 c.g.st) || (m.tlc && c.counterFull 3 c.g.tl) ||
      (m.logged && c.g.logFull c.act) ||
      decide (Config.requests < c.s.outstanding c.core + c.s.keptOn c.core (fun _ => true) Place.count + (requestsOf m.tlc m.parts).length)

/-- The spilled registers that an access writes for some only of their frame's owners, since other lanes fault at issue or are not active: they are
needed back first (R71, R81). -/
def Ctx.destGone (c : Ctx) (m : MemWord) : List (Nat × Nat) :=
  let regs : Option (Nat × Nat) :=
    match m.dest with
    | .vec d n _ => some (d, n)
    | .wait d => some (d, (m.parts.head?.map (fun p => max 1 (p.size / 4))).getD 1)
    | _ => none
  match regs with
  | none => []
  | some (d, n) =>
    (c.g.framesOf (m.parts.foldl (fun x p => x ||| p.lanes) 0)).flatMap (fun (f, fm) =>
      if LaneSet.subset f.owners fm then [] else ((List.range n).filter (fun i => f.tag (d + i) == .spilled)).map (fun i => (f.id, d + i)))

/-- The word issues for the lanes that pass every check, with what its issue does to the group besides; the others take their faults (R374). -/
def Ctx.issueWith (c : Ctx) (m : MemWord) (k : Group → Group) : State :=
  if m.parts.isEmpty then c.after c.s m.faults
  else
    let growing := m.grow.filter (fun (f, r) => match c.g.frame? f with | some x => x.notG r | none => false)
    c.after (c.withRows (growing.length * c.g.perReg) 0 (fun s =>
      let s := s.countSectors c.g.grid c.g.team (requestsOf m.tlc m.parts)
      let (s, mark) := if m.rel then (let (s, k) := s.newMark; (s, some k)) else (s, none)
      c.updG s (fun g =>
        let g := growing.foldl (fun g (f, r) => match g.frame? f with | some x => g.makeG x r | none => g) g
        k (g.issue { newOp c.pc m.major m.kind (m.parts.foldl (fun x p => x ||| p.lanes) 0) m.scope m.parts m.dest with
                      acq := m.acq, rel := mark, log := if m.logged then g.logFree else none, once := m.once, ldc := m.ldc, stc := m.stc, tlc := m.tlc })))) m.faults

/-- The word issues for the lanes that pass every check. -/
def Ctx.issueWord (c : Ctx) (m : MemWord) : State := c.issueWith m id

/-- The word of a memory access. -/
def memWord (h : Head) (us : List Use) (cls : OrdClass) (m : Ctx → MemWord) : State → Host.Outcome State Fault Refusal :=
  runWord h us cls (fun c => c.memStall (m c) || !(c.destGone (m c)).isEmpty) (fun c => c.issueWord (m c))

/-- Bytes of an access by SZ (R268). -/
def szBytes (z : BitVec 2) : Nat := 2 ^ z.toNat
/-- Scope of a load's or store's SC (R268). -/
def scScope (q : BitVec 2) : Nat := match q.toNat with | 2 => 5 | 3 => 6 | _ => 4
/-- The offset of MEMI (R203). -/
def immOffset (o : BitVec 5) (z : BitVec 2) : DWord := o.signExtend 64 * BitVec.ofNat 64 (szBytes z)
/-- The align fault of a lane (R289, R343). -/
def alignFault (l : Nat) (a : DWord) (n : Nat) : Option (Nat × Nat × DWord × Word) :=
  if a.toNat % n != 0 then some (l, 0x0B, a, BitVec.ofNat 32 n.log2) else none

/-- The active lanes without a fault. -/
def Ctx.clean (c : Ctx) (fs : List (Nat × Nat × DWord × Word)) : LaneSet :=
  c.act &&& LaneSet.ofPred c.g.w (fun l => !fs.any (fun x => x.1 == l))

/-- Destination registers of lanes' frames. -/
def Ctx.growth (c : Ctx) (m : LaneSet) (d n : Nat) : List (Nat × Nat) :=
  (c.g.framesOf m).flatMap (fun (f, _) => (List.range n).map (fun i => (f.id, d + i)))

/-! ## ld, st, ldu, stu (R267 to R271) -/

/-- The parts of a load: one for each frame when every address operand is U, else one for each lane (R269, R70 rows 10 and 11). -/
def Ctx.loadParts (c : Ctx) (m : LaneSet) (uni : Bool) (addr : Nat → DWord) (n : Nat) : List Part :=
  if uni then (c.g.framesOf m).map (fun (f, fm) => newPart fm (lowest fm c.g.w) f.id (addr (lowest fm c.g.w)) false n)
  else (m.list c.g.w).map (fun l => newPart (LaneSet.one l) l (c.g.lane l).frame (addr l) false n)

/-- The access of ld, with the address of each lane and whether each frame's offset is U. -/
def Ctx.loadAccess (c : Ctx) (d : BitVec 5) (z q : BitVec 2) (addr : Nat → DWord) (offU : Frame → Bool) : MemWord :=
  let n := szBytes z
  let fs := (c.act.list c.g.w).filterMap (fun l => alignFault l (addr l) n)
  let ok := c.clean fs
  let uni := c.frames.all (fun (f, _) => offU f)
  { kind := .load, major := 0x1D, scope := scScope q, acq := q != 0, rel := false, dest := .vec d.toNat (blk64 z) uni,
    ldc := true, stc := false, tlc := false, logged := true, once := false, parts := c.loadParts ok uni addr n, faults := fs,
    grow := if uni then [] else c.growth ok d.toNat (blk64 z) }

/-- The base pair of MEM and MEMI as a lane reads it (R203). -/
def Ctx.base (c : Ctx) (a : BitVec 4) (l : Nat) : DWord := (c.g.frm l).UP (2 * a.toNat)

/-- ld. -/
def loadWord (h : Head) (d : BitVec 5) (a : BitVec 4) (z q : BitVec 2) (us : List Use) (off : Ctx → Nat → DWord) (offU : Ctx → Frame → Bool) :
    State → Host.Outcome State Fault Refusal :=
  memWord h us (if q = 0 then .load else .acquire) (fun c => c.loadAccess d z q (fun l => c.base a l + off c l) (offU c))

/-- The low n bytes of registers from vD on in a lane. -/
def Ctx.laneBytes (c : Ctx) (d n l : Nat) : List Byte :=
  ((List.range ((n + 3) / 4)).flatMap (fun i => wordLe (c.g.laneV (d + i) l))).take n

/-- The access of st: one part for each lane, ascending (R270). -/
def Ctx.storeAccess (c : Ctx) (d : BitVec 5) (z q : BitVec 2) (addr : Nat → DWord) : MemWord :=
  let n := szBytes z
  let fs := (c.act.list c.g.w).filterMap (fun l => alignFault l (addr l) n)
  { kind := .store, major := 0x1E, scope := scScope q, acq := false, rel := q != 0, dest := .none,
    ldc := false, stc := true, tlc := false, logged := true, once := false, faults := fs, grow := [],
    parts := ((c.clean fs).list c.g.w).map (fun l =>
      { newPart (LaneSet.one l) l (c.g.lane l).frame (addr l) false n with data := c.laneBytes d.toNat n l }) }

/-- st. -/
def storeWord (h : Head) (d : BitVec 5) (a : BitVec 4) (z q : BitVec 2) (us : List Use) (off : Ctx → Nat → DWord) :
    State → Host.Outcome State Fault Refusal :=
  memWord h us (if q = 0 then .store else .release) (fun c => c.storeAccess d z q (fun l => c.base a l + off c l))

/-- The faults of a word that executes once for each frame, for every active lane of the frame (R374). -/
def Ctx.frameFaults (c : Ctx) (addr : Frame → DWord) (n : Nat) : List (Nat × Nat × DWord × Word) :=
  c.frames.flatMap (fun (f, m) => (m.list c.g.w).filterMap (fun l => alignFault l (addr f) n))

/-- The access of ldu: once for each frame (R271). -/
def Ctx.uniLoadAccess (c : Ctx) (d : BitVec 5) (z q : BitVec 2) (addr : Frame → DWord) : MemWord :=
  let n := szBytes z
  let fs := c.frameFaults addr n
  { kind := .load, major := 0x1F, scope := scScope q, acq := q != 0, rel := false, dest := .uni d.toNat (blk64 z),
    ldc := true, stc := false, tlc := false, logged := true, once := true, faults := fs, grow := [],
    parts := (c.g.framesOf (c.clean fs)).map (fun (f, m) => newPart m (lowest m c.g.w) f.id (addr f) false n) }

/-- ldu. -/
def loadUniform (h : Head) (d : BitVec 5) (a : BitVec 4) (z q : BitVec 2) (us : List Use) (off : Frame → DWord) :
    State → Host.Outcome State Fault Refusal :=
  memWord h us (if q = 0 then .load else .acquire) (fun c => c.uniLoadAccess d z q (fun f => f.UP (2 * a.toNat) + off f))

/-- The low n bytes of uniform registers from sD on. -/
def Frame.uniBytes (f : Frame) (d n : Nat) : List Byte := if n = 8 then wordLe (f.U d) ++ wordLe (f.U (d + 1)) else (wordLe (f.U d)).take n

/-- The access of stu: one write for each frame (R271). -/
def Ctx.uniStoreAccess (c : Ctx) (d : BitVec 5) (z q : BitVec 2) (addr : Frame → DWord) : MemWord :=
  let n := szBytes z
  let fs := c.frameFaults addr n
  { kind := .store, major := 0x20, scope := scScope q, acq := false, rel := q != 0, dest := .none,
    ldc := false, stc := true, tlc := false, logged := true, once := true, faults := fs, grow := [],
    parts := (c.g.framesOf (c.clean fs)).map (fun (f, m) =>
      { newPart m (lowest m c.g.w) f.id (addr f) false n with data := f.uniBytes d.toNat n }) }

/-- stu. -/
def storeUniform (h : Head) (d : BitVec 5) (a : BitVec 4) (z q : BitVec 2) (us : List Use) (off : Frame → DWord) :
    State → Host.Outcome State Fault Refusal :=
  memWord h us (if q = 0 then .store else .release) (fun c => c.uniStoreAccess d z q (fun f => f.UP (2 * a.toNat) + off f))

/-! ## Scratch addresses (R100) -/

/-- A grid's regions on a core. -/
def State.region? (s : State) (core : Nat) (grid : Word) : Option Region := (s.core core).regions.find? (fun r => r.grid == grid)

/-- The scratchpad offset on a core of n bytes at a scratch address for a team of a grid, or none outside its region or range (R100, R266). -/
def State.scratchAt (s : State) (core : Nat) (grid : Word) (team : Nat) (a : Word) (n : Nat) : Option Nat :=
  let x := a.toNat
  let off := x % 2 ^ 19
  let plain := x / 2 ^ 19 % 2 ^ 11 == 0
  match x / 2 ^ 30 with
  | 0 =>
    match s.team? grid team with
    | some t =>
      match t.windows.find? (fun w => w.1 == core) with
      | some w => if plain && decide (off + n ≤ t.ss) then some (w.2 + off) else none
      | none => none
    | none => none
  | 1 =>
    match (s.region? core grid).bind (fun r => r.bufs.find? (fun b => b.num == x / 2 ^ 24 % 16)) with
    | some b =>
      let slot := x / 2 ^ 16 % 256
      let byte := x % 2 ^ 16
      if x / 2 ^ 28 % 4 == 0 && decide (slot < b.slots) && decide (byte + n ≤ b.size) then some (b.base + slot * b.size + byte) else none
    | none => none
  | 2 =>
    match s.region? core grid with
    | some r => if plain && decide (off + n ≤ 256 * r.cachel) then some (r.cacheBase + off) else none
    | none => none
  | _ =>
    match s.region? core grid with
    | some r => if plain && decide (off + n ≤ 4096 * r.stage) then some (r.stageBase + off) else none
    | none => none

/-- The scratchpad offset of an access of a group. -/
def State.scratchOff (s : State) (g : Group) (a : Word) (n : Nat) : Option Nat := s.scratchAt g.core g.grid g.team a n

/-- The faults at issue of a scratch access: scratch-bound, then align (R374). -/
def Ctx.scratchFault (c : Ctx) (l : Nat) (a : Word) (n : Nat) : Option (Nat × Nat × DWord × Word) :=
  match c.s.scratchOff c.g a n with
  | none => some (l, 0x06, a.setWidth 64, BitVec.ofNat 32 (n.log2 + 16 * (a.toNat / 2 ^ 30)))
  | some _ => alignFault l (a.setWidth 64) n

/-- A scratch part, whose unit is known at issue. -/
def Ctx.scratchPart (c : Ctx) (m : LaneSet) (l : Nat) (a : Word) (n : Nat) : Part :=
  { newPart m l (c.g.lane l).frame (a.setWidth 64) true n with
    prog := .ready, units := scratchUnits c.core ((c.s.scratchOff c.g a n).getD 0) n }

/-- Bytes of lds and sts by F. -/
def ldsBytes (f : BitVec 3) : Nat := 2 ^ f.toNat

/-- The scratch address of a lane of lds and sts (R278). -/
def Ctx.scratchVa (c : Ctx) (a : BitVec 5) (f : BitVec 3) (i : BitVec 6) (l : Nat) : Word :=
  c.g.laneV a.toNat l + i.signExtend 32 * BitVec.ofNat 32 (ldsBytes f)

/-- The access of lds: U when the address is U in every frame of the path, as R269 has it of ld (R70, log 14). -/
def Ctx.scratchLoadAccess (c : Ctx) (d a : BitVec 5) (f : BitVec 3) (i : BitVec 6) : MemWord :=
  let n := ldsBytes f
  let addr := c.scratchVa a f i
  let fs := (c.act.list c.g.w).filterMap (fun l => c.scratchFault l (addr l) n)
  let ok := c.clean fs
  let uni := c.frames.all (fun (fr, _) => (c.g.readV fr a.toNat).isU)
  { kind := .load, major := 0x23, scope := 1, acq := false, rel := false, dest := .vec d.toNat (ldsRegs f) uni,
    ldc := true, stc := false, tlc := false, logged := false, once := false, faults := fs,
    grow := if uni then [] else c.growth ok d.toNat (ldsRegs f),
    parts := if uni then (c.g.framesOf ok).map (fun (_, m) => c.scratchPart m (lowest m c.g.w) (addr (lowest m c.g.w)) n)
      else (ok.list c.g.w).map (fun l => c.scratchPart (LaneSet.one l) l (addr l) n) }

/-- lds (R278). -/
def scratchLoad (h : Head) (d a : BitVec 5) (f : BitVec 3) (i : BitVec 6) : State → Host.Outcome State Fault Refusal :=
  memWord h [.vw d (ldsRegs f), .v a 1] .load (fun c => c.scratchLoadAccess d a f i)

/-- The access of sts. -/
def Ctx.scratchStoreAccess (c : Ctx) (d a : BitVec 5) (f : BitVec 3) (i : BitVec 6) : MemWord :=
  let n := ldsBytes f
  let addr := c.scratchVa a f i
  let fs := (c.act.list c.g.w).filterMap (fun l => c.scratchFault l (addr l) n)
  { kind := .store, major := 0x24, scope := 1, acq := false, rel := false, dest := .none,
    ldc := false, stc := true, tlc := false, logged := false, once := false, faults := fs, grow := [],
    parts := ((c.clean fs).list c.g.w).map (fun l =>
      { c.scratchPart (LaneSet.one l) l (addr l) n with data := c.laneBytes d.toNat n l }) }

/-- sts (R278). -/
def scratchStore (h : Head) (d a : BitVec 5) (f : BitVec 3) (i : BitVec 6) : State → Host.Outcome State Fault Refusal :=
  memWord h [.v d (ldsRegs f), .v a 1] .store (fun c => c.scratchStoreAccess d a f i)

/-! ## Atomics (R272 to R275) -/

/-- Bytes of an atomic's operand by TY. -/
def atmBytes (y : BitVec 3) : Nat := if y = 5 then 2 else 4 * atmRegs y
/-- The scope of an atomic's SC. -/
def atmScope (q : BitVec 4) : Nat := if q.toNat % 8 = 6 then 1 else q.toNat % 8 + 1

/-- The address of a lane of atm or wta: a pair of registers, or one for scratch. -/
def Ctx.laneAddr (c : Ctx) (a : BitVec 5) (l : Nat) : DWord := c.g.laneV (a.toNat + 1) l ++ c.g.laneV a.toNat l

/-- The fault at issue of a lane of atm (R274, R374). -/
def Ctx.atomicFault (c : Ctx) (a : BitVec 5) (y : BitVec 3) (q : BitVec 4) (l : Nat) : Option (Nat × Nat × DWord × Word) :=
  let n := atmBytes y
  if atmScratch q then
    match c.scratchFault l (c.g.laneV a.toNat l) n with
    | some x => some x
    | none => if (c.g.laneV a.toNat l).toNat / 2 ^ 30 % 2 = 1 then some (l, 0x0C, (c.g.laneV a.toNat l).setWidth 64, y.setWidth 32) else none
  else alignFault l (c.laneAddr a l) n

/-- The operand of an atomic in a lane: the bytes of registers from r on. -/
def Ctx.atomicBytes (c : Ctx) (y : BitVec 3) (r l : Nat) : List Byte := (c.laneBytes r (4 * atmRegs y) l).take (atmBytes y)

/-- The access of atm. -/
def Ctx.atomicAccess (c : Ctx) (d a : BitVec 5) (y : BitVec 3) (q : BitVec 4) (f : Nat) : MemWord :=
  let nr := atmRegs y
  let n := atmBytes y
  let scr := atmScratch q
  let ar := decide (8 ≤ q.toNat)
  let fs := (c.act.list c.g.w).filterMap (c.atomicFault a y q)
  let ok := c.clean fs
  { kind := .atomic f y.toNat, major := 0x21, scope := atmScope q, acq := ar, rel := ar, dest := .vec d.toNat nr false,
    ldc := true, stc := true, tlc := false, logged := !scr, once := false, faults := fs, grow := c.growth ok d.toNat nr,
    parts := (ok.list c.g.w).map (fun l =>
      let p := if scr then c.scratchPart (LaneSet.one l) l (c.g.laneV a.toNat l) n
        else newPart (LaneSet.one l) l (c.g.lane l).frame (c.laneAddr a l) false n
      { p with data := if f = 7 then c.atomicBytes y (d.toNat + nr) l else c.atomicBytes y d.toNat l,
               cmp := if f = 7 then c.atomicBytes y d.toNat l else [] }) }

/-- atm. -/
def atomicWord (ch : Bool) (d a : BitVec 5) (y : BitVec 3) (q : BitVec 4) (f : Nat) : State → Host.Outcome State Fault Refusal :=
  let nr := atmRegs y
  memWord (longHead ch) [.vw d nr, .v a (if atmScratch q then 1 else 2), .v d (if f = 7 then 2 * nr else nr)] .atomic
    (fun c => c.atomicAccess d a y q f)

/-! ## Fences (R276) -/

/-- A fence's scope, with grp acting as core. -/
def fenceScope (k : BitVec 3) : Nat := max 1 k.toNat

/-- The word of a fence. -/
def fenceWord (h : Head) (body : Ctx → State) : State → Host.Outcome State Fault Refusal := runWord h [] .fence noWait body

/-! ## The software cache (R105, R106, R279, R280) -/

/-- The regions of the group's grid on its core changed. -/
def Ctx.updRegion (c : Ctx) (f : Region → Region) : State :=
  c.s.updCore c.core (fun k => { k with regions := k.regions.map (fun r => if r.grid == c.g.grid then f r else r) })

/-- The tag table entries of the group's grid on its core. -/
def Ctx.tags (c : Ctx) : List TagEntry := ((c.s.region? c.core c.g.grid).map Region.tags).getD []

/-- The lookup of a device virtual address (R106). -/
def tagLookup (ts : List TagEntry) (a : DWord) : Word :=
  match ts.find? (fun t => t.valid && t.la == (a.extractLsb' 8 48).toNat) with
  | some t => BitVec.ofNat 32 t.sl
  | none => 0xFFFFFFFF

/-- stag.look: a result in U shape when the address is U in every frame of the path, as a load's (R106, R70, log 14). -/
def Ctx.tagLook (c : Ctx) (d a : Nat) : State :=
  let r (l : Nat) : Word := tagLookup c.tags (c.g.laneV (a + 1) l ++ c.g.laneV a l)
  let uni := c.frames.all (fun (f, _) => (c.g.readV f a).isU && (c.g.readV f (a + 1)).isU)
  c.setV d (fun _ m => if uni then .u (r (lowest m c.g.w)) else .g r) 0

/-- Every active lane takes tag-misuse with an index (R289, R343, R376). -/
def Ctx.tagFault (c : Ctx) (i : Nat) : State := c.raise c.s ((c.act.list c.g.w).map (fun l => (l, 0x07, 0, BitVec.ofNat 32 i)))

/-- stag.set: executed once, through the lowest active lane's frame. -/
def Ctx.tagSet (c : Ctx) (d a b : Nat) : State :=
  let f := c.g.frm (lowest c.act c.g.w)
  let e := (f.U d).toNat
  let sl := (f.U b).toNat
  let cachel := ((c.s.region? c.core c.g.grid).map Region.cachel).getD 0
  if c.tags.length ≤ e then c.tagFault e
  else if cachel ≤ sl then c.tagFault (cachel + sl)
  else c.updRegion (fun r => { r with tags := r.tags.set e { valid := true, la := ((f.UP a).extractLsb' 8 48).toNat, sl := sl } })

/-- stag.inv. -/
def Ctx.tagInv (c : Ctx) (d : Nat) : State :=
  let e := ((c.g.frm (lowest c.act c.g.w)).U d).toNat
  if c.tags.length ≤ e then c.tagFault e
  else c.updRegion (fun r => { r with tags := r.tags.modify e (fun t => { t with valid := false }) })

/-! ## Circular buffers (R103, R281, R282, R376) -/

/-- The buffer of the group's grid on its core. -/
def Ctx.buf? (c : Ctx) (n : Nat) : Option CBuf := (c.s.region? c.core c.g.grid).bind (fun r => r.bufs.find? (fun b => b.num == n))

/-- Every active lane takes cbuf-misuse. -/
def Ctx.cbFault (c : Ctx) (n : Nat) : State := c.raise c.s ((c.act.list c.g.w).map (fun l => (l, 0x08, 0, BitVec.ofNat 32 n)))

/-- The buffer as a word finds it, without the slots that chains which have issued are sure of (R47). -/
def Ctx.bufLeft (c : Ctx) (b : CBuf) : CBuf :=
  let kept (p : Place) : Nat := c.s.keptOn c.core (fun g => g.grid == c.g.grid) p.is
  { b with free := b.free - kept (.reserve b.num), filled := b.filled - kept (.claim b.num) }

/-- The word of a circular buffer: an undeclared buffer is misuse, else it may stall on the buffer's counters (R282, R376). -/
def cbWord (h : Head) (us : List Use) (cls : OrdClass) (n : Nat) (stall : CBuf → Bool) (body : Ctx → CBuf → State) :
    State → Host.Outcome State Fault Refusal :=
  runWord h us cls (fun c => match c.buf? n with | some b => !c.mid && stall (c.bufLeft b) | none => false) (fun c =>
    match c.buf? n with
    | some b => body c b
    | none => c.cbFault n)

/-- One word written to every frame of the active lanes. -/
def Ctx.toFrames (c : Ctx) (s : State) (d : Nat) (w : Word) : State := c.updG s (fun g => c.frames.foldl (fun g (f, _) => g.setU f.id d w) g)
/-- A slot index written to every frame of the active lanes. -/
def Ctx.slotTo (c : Ctx) (s : State) (d n : Nat) : State := c.toFrames s d (BitVec.ofNat 32 n)

/-- cb.res: slot PI becomes reserved. -/
def CBuf.reserve (b : CBuf) (by_ : Nat) : CBuf := { b with state := b.state.set b.pi by_, pi := (b.pi + 1) % b.slots, free := b.free - 1 }

/-- cb.res. -/
def Ctx.cbReserve (c : Ctx) (d : Nat) (b : CBuf) : State :=
  c.slotTo (c.s.updBuf c.core c.g.grid b.num (fun b => b.reserve 1)) d b.pi

/-- cb.wait: slot CI becomes claimed, an acquire at core scope. -/
def Ctx.cbClaim (c : Ctx) (d : Nat) (b : CBuf) : State :=
  (c.slotTo (c.s.updBuf c.core c.g.grid b.num (fun b =>
    { b with state := b.state.set b.ci 3, ci := (b.ci + 1) % b.slots, filled := b.filled - 1 })) d b.ci).addHold c.core c.slot c.act

/-- A command that enters SF(g) as a release at core scope. -/
def Ctx.cbIssue (c : Ctx) (s : State) (k : OpKind) : State :=
  let (s, m) := s.newMark
  c.updG s (fun g => g.issue { newOp c.pc 0x26 k c.act 1 [{ newPart c.act 0 0 0 true 0 with prog := .ready }] .none with rel := some m })

/-- cb.com: the slot must be reserved by a cb.res and not be committing already. -/
def Ctx.cbCommit (c : Ctx) (a : Nat) (b : CBuf) : State :=
  let n := ((c.g.frm (lowest c.act c.g.w)).U a).toNat
  if b.slots ≤ n || b.state.getD n 0 != 1 || b.committing.contains n then c.cbFault b.num
  else c.cbIssue (c.s.updBuf c.core c.g.grid b.num (fun b => { b with committing := n :: b.committing })) (.cbCommit b.num n)

/-- cb.pop: the slot at RI, past those being popped, must be claimed. -/
def Ctx.cbPop (c : Ctx) (b : CBuf) : State :=
  if b.slots ≤ b.popping || b.state.getD ((b.ri + b.popping) % b.slots) 0 != 3 then c.cbFault b.num
  else c.cbIssue (c.s.updBuf c.core c.g.grid b.num (fun b => { b with popping := b.popping + 1 })) (.cbPop b.num)

/-! ## Copy commands (R283 to R285) -/

/-- Copy commands of a core issued and not complete. -/
def State.copiesHeld (s : State) (core : Nat) : Nat :=
  (s.core core).engine.length + (s.onCore core).foldl (fun n g =>
    n + (g.ops.filter (fun o => match o.kind with | .copy _ => !o.parts.any (fun p => p.prog == .entered) | _ => false)).length +
      (g.sf.filter (fun i => match i.kind with | .copy _ => true | _ => false)).length) 0

/-- The destination of a kind is a scratch side. -/
def copyToScratch (kind : Nat) : Bool := kind == 0 || kind == 2 || kind == 3

/-- cp: executed once, through the lowest active lane's frame. -/
def copyWord (h : Head) (d a b : BitVec 5) (kind : Nat) : State → Host.Outcome State Fault Refusal :=
  let f0 (c : Ctx) : Frame := c.g.frm (lowest c.act c.g.w)
  let toBuf (c : Ctx) : Bool := copyToScratch kind && ((f0 c).U d.toNat).toNat / 2 ^ 30 == 1
  runWord h [.pair d, .pair a, .s b (if kind = 3 then 4 else 1)] .copy
    (fun c => !c.mid && (decide (Config.copies ≤ c.s.copiesHeld c.core + c.s.keptOn c.core (fun _ => true) Place.copy.is) || (!toBuf c && c.counterFull 2 c.g.cp)))
    (fun c =>
      let f := f0 c
      let (s, id) := c.s.newMark
      let dst := f.UP d.toNat
      let src := f.UP a.toNat
      let e := (f.U b.toNat).toNat
      let n := (f.U (b.toNat + 1)).toNat
      let cmd : CopyCmd :=
        { id := id, issue := c.g.nextId, core := c.core, slot := c.slot, fn := c.s.fnOf c.g.grid, grid := c.g.grid, team := c.g.team, pc := c.pc, kind := kind,
          dst := if copyToScratch kind then (f.U d.toNat).setWidth 64 else dst, dstHi := f.U (d.toNat + 1),
          src := if kind = 1 || kind = 2 then (f.U a.toNat).setWidth 64 else src, srcHi := f.U (a.toNat + 1),
          len := if kind = 3 then e * n else e, esize := e, count := if kind = 3 then n else 1,
          stride := if kind = 3 then (f.U (b.toNat + 2)).toNat else 0, index := if kind = 3 then (f.U (b.toNat + 3)).toNat else 0,
          cbuf := if toBuf c then some ((f.U d.toNat).toNat / 2 ^ 24 % 16) else none, taken := false, stamp := 0, cbSlot := 0, indices := [],
          got := [], put := [], done := false, fault := none }
      c.updG s (fun g =>
        let g := { g with cp := g.cp + if toBuf c then 0 else 1 }
        g.issue { newOp c.pc 0x27 (.copy cmd) c.act 1 [{ newPart c.act 0 0 0 true 0 with prog := .ready }] .none with once := true }))

/-! ## Wait on address (R115, R116, R286, R287) -/

/-- The scope of wta's SCP. -/
def wtaScope (p : BitVec 2) : Nat := match p.toNat with | 0 => 1 | 1 => 4 | 2 => 5 | _ => 6

/-- The fault at issue of a lane of wta (R286, R374). -/
def Ctx.waitFault (c : Ctx) (a : BitVec 5) (n : Nat) (scr : Bool) (l : Nat) : Option (Nat × Nat × DWord × Word) :=
  let sa := c.g.laneV a.toNat l
  if scr then
    if sa.toNat / 2 ^ 30 != 0 then some (l, 0x06, sa.setWidth 64, BitVec.ofNat 32 (n.log2 + 16 * (sa.toNat / 2 ^ 30)))
    else c.scratchFault l sa n
  else alignFault l (c.laneAddr a l) n

/-- The access of wta. -/
def Ctx.waitAccess (c : Ctx) (d a b : BitVec 5) (ord sz : BitVec 1) (scp : BitVec 2) : MemWord :=
  let n := 4 * blk64w sz
  let scr := decide (scp = 0)
  let fs := (c.act.list c.g.w).filterMap (c.waitFault a n scr)
  let ok := c.clean fs
  { kind := .load, major := 0x28, scope := wtaScope scp, acq := ord = 1, rel := false, dest := .wait d.toNat,
    ldc := false, stc := false, tlc := false, logged := !scr, once := false, faults := fs, grow := c.growth ok d.toNat (blk64w sz),
    parts := (ok.list c.g.w).map (fun l =>
      let p := if scr then c.scratchPart (LaneSet.one l) l (c.g.laneV a.toNat l) n
        else newPart (LaneSet.one l) l (c.g.lane l).frame (c.laneAddr a l) false n
      { p with cmp := c.laneBytes b.toNat n l, data := natLe 8 ((c.g.laneV (b.toNat + blk64w sz) l).toNat) }) }

/-- wta: each lane leaves the vote with its own address, compare and timeout until its read resumes it. -/
def waitAddress (h : Head) (d a b : BitVec 5) (ord sz : BitVec 1) (scp : BitVec 2) : State → Host.Outcome State Fault Refusal :=
  runWord h [.vw d (blk64w sz), .v a (if scp = 0 then 1 else 2), .v b (blk64w sz + 1)] (if ord = 1 then .acquire else .load)
    (fun c => c.memStall (c.waitAccess d a b ord sz scp) || !(c.destGone (c.waitAccess d a b ord sz scp)).isEmpty) (fun c =>
      let m := c.waitAccess d a b ord sz scp
      c.issueWith m (fun g => m.parts.foldl (fun g p => g.startWait p d.toNat (decide (ord = 1)) m.scope c.s.ptime) g))

/-! ## The instructions -/

/-- LD (R269). -/
def execLd (h : Head) (d : BitVec 5) (a : BitVec 4) (o : BitVec 5) (z : BitVec 2) (q : BitVec 2) : State → Host.Outcome State Fault Refusal :=
  loadWord h d a z q [.vw d (blk64 z), .pairj a, .v o 1] (fun c l => (c.g.laneV o.toNat l).setWidth 64) (fun c f => (c.g.readV f o.toNat).isU)

/-- LD_IMM (R269). -/
def execLdImm (h : Head) (d : BitVec 5) (a : BitVec 4) (i : BitVec 5) (z : BitVec 2) (q : BitVec 2) : State → Host.Outcome State Fault Refusal :=
  loadWord h d a z q [.vw d (blk64 z), .pairj a] (fun _ _ => immOffset i z) (fun _ _ => true)

/-- ST (R270). -/
def execSt (h : Head) (d : BitVec 5) (a : BitVec 4) (o : BitVec 5) (z : BitVec 2) (q : BitVec 2) : State → Host.Outcome State Fault Refusal :=
  storeWord h d a z q [.v d (blk64 z), .pairj a, .v o 1] (fun c l => (c.g.laneV o.toNat l).setWidth 64)

/-- ST_IMM (R270). -/
def execStImm (h : Head) (d : BitVec 5) (a : BitVec 4) (i : BitVec 5) (z : BitVec 2) (q : BitVec 2) : State → Host.Outcome State Fault Refusal :=
  storeWord h d a z q [.v d (blk64 z), .pairj a] (fun _ _ => immOffset i z)

/-- LDU (R271). -/
def execLdu (h : Head) (d : BitVec 5) (a : BitVec 4) (o : BitVec 5) (z : BitVec 2) (q : BitVec 2) : State → Host.Outcome State Fault Refusal :=
  loadUniform h d a z q [Use.dataw d z, .pairj a, .s o 1] (fun f => (f.U o.toNat).setWidth 64)

/-- LDU_IMM (R271). -/
def execLduImm (h : Head) (d : BitVec 5) (a : BitVec 4) (i : BitVec 5) (z : BitVec 2) (q : BitVec 2) : State → Host.Outcome State Fault Refusal :=
  loadUniform h d a z q [Use.dataw d z, .pairj a] (fun _ => immOffset i z)

/-- STU (R271). -/
def execStu (h : Head) (d : BitVec 5) (a : BitVec 4) (o : BitVec 5) (z : BitVec 2) (q : BitVec 2) : State → Host.Outcome State Fault Refusal :=
  storeUniform h d a z q [Use.data d z, .pairj a, .s o 1] (fun f => (f.U o.toNat).setWidth 64)

/-- STU_IMM (R271). -/
def execStuImm (h : Head) (d : BitVec 5) (a : BitVec 4) (i : BitVec 5) (z : BitVec 2) (q : BitVec 2) : State → Host.Outcome State Fault Refusal :=
  storeUniform h d a z q [Use.data d z, .pairj a] (fun _ => immOffset i z)

/-- ATM_ADD (R275). -/
def execAtmAdd (c : Bool) (d : BitVec 5) (a : BitVec 5) (y : BitVec 3) (q : BitVec 4) : State → Host.Outcome State Fault Refusal :=
  atomicWord c d a y q 0

/-- ATM_MIN (R275). -/
def execAtmMin (c : Bool) (d : BitVec 5) (a : BitVec 5) (y : BitVec 3) (q : BitVec 4) : State → Host.Outcome State Fault Refusal :=
  atomicWord c d a y q 1

/-- ATM_MAX (R275). -/
def execAtmMax (c : Bool) (d : BitVec 5) (a : BitVec 5) (y : BitVec 3) (q : BitVec 4) : State → Host.Outcome State Fault Refusal :=
  atomicWord c d a y q 2

/-- ATM_AND (R275). -/
def execAtmAnd (c : Bool) (d : BitVec 5) (a : BitVec 5) (y : BitVec 3) (q : BitVec 4) : State → Host.Outcome State Fault Refusal :=
  atomicWord c d a y q 3

/-- ATM_OR (R275). -/
def execAtmOr (c : Bool) (d : BitVec 5) (a : BitVec 5) (y : BitVec 3) (q : BitVec 4) : State → Host.Outcome State Fault Refusal :=
  atomicWord c d a y q 4

/-- ATM_XOR (R275). -/
def execAtmXor (c : Bool) (d : BitVec 5) (a : BitVec 5) (y : BitVec 3) (q : BitVec 4) : State → Host.Outcome State Fault Refusal :=
  atomicWord c d a y q 5

/-- ATM_EXCH (R275). -/
def execAtmExch (c : Bool) (d : BitVec 5) (a : BitVec 5) (y : BitVec 3) (q : BitVec 4) : State → Host.Outcome State Fault Refusal :=
  atomicWord c d a y q 6

/-- ATM_CAS (R275). -/
def execAtmCas (c : Bool) (d : BitVec 5) (a : BitVec 5) (y : BitVec 3) (q : BitVec 4) : State → Host.Outcome State Fault Refusal :=
  atomicWord c d a y q 7

/-- FENCE_REL (R276). -/
def execFenceRel (h : Head) (k : BitVec 3) : State → Host.Outcome State Fault Refusal :=
  fenceWord h (fun c => (c.s.issueFence c.core c.slot c.pc c.act (fenceScope k) false).1)

/-- FENCE_ACQ (R276). -/
def execFenceAcq (h : Head) (_k : BitVec 3) : State → Host.Outcome State Fault Refusal :=
  fenceWord h (fun c => c.s.addHold c.core c.slot c.act)

/-- FENCE_FULL (R276). -/
def execFenceFull (h : Head) (k : BitVec 3) : State → Host.Outcome State Fault Refusal :=
  fenceWord h (fun c =>
    let near := decide (fenceScope k ≤ 1)
    let r := c.s.issueFence c.core c.slot c.pc c.act (fenceScope k) false
    r.1.addFence c.core c.slot c.act (if near then none else some r.2) near)

/-- FENCE_OPR_REL (R276). -/
def execFenceOprRel (h : Head) : State → Host.Outcome State Fault Refusal :=
  fenceWord h (fun c => (c.s.issueFence c.core c.slot c.pc c.act 1 true).1)

/-- FENCE_OPR_ACQ (R276). -/
def execFenceOprAcq (h : Head) : State → Host.Outcome State Fault Refusal :=
  fenceWord h (fun c => c.s.addHold c.core c.slot c.act)

/-- LDS (R278). -/
def execLds (h : Head) (d : BitVec 5) (a : BitVec 5) (f : BitVec 3) (i : BitVec 6) : State → Host.Outcome State Fault Refusal :=
  scratchLoad h d a f i

/-- STS (R278). -/
def execSts (h : Head) (d : BitVec 5) (a : BitVec 5) (f : BitVec 3) (i : BitVec 6) : State → Host.Outcome State Fault Refusal :=
  scratchStore h d a f i

/-- STAG_LOOK (R279). -/
def execStagLook (h : Head) (d : BitVec 5) (a : BitVec 5) : State → Host.Outcome State Fault Refusal :=
  runWord h [.vw d 1, .v a 2] .none noWait (fun c => c.tagLook d.toNat a.toNat)

/-- STAG_SET (R279). -/
def execStagSet (h : Head) (d : BitVec 5) (a : BitVec 5) (b : BitVec 5) : State → Host.Outcome State Fault Refusal :=
  runWord h [.s d 1, .pair a, .s b 1] .none noWait (fun c => c.tagSet d.toNat a.toNat b.toNat)

/-- STAG_INV (R279). -/
def execStagInv (h : Head) (d : BitVec 5) : State → Host.Outcome State Fault Refusal :=
  runWord h [.s d 1] .none noWait (fun c => c.tagInv d.toNat)

/-- STAG_CLR (R279). -/
def execStagClr (h : Head) : State → Host.Outcome State Fault Refusal :=
  runWord h [] .none noWait (fun c => c.updRegion (fun r => { r with tags := r.tags.map (fun t => { t with valid := false }) }))

/-- CB_RES (R282). -/
def execCbRes (h : Head) (d : BitVec 5) (n : BitVec 4) : State → Host.Outcome State Fault Refusal :=
  cbWord h [.sw d 1] .none n.toNat (fun b => b.free == 0) (fun c b => c.cbReserve d.toNat b)

/-- CB_COM (R282). -/
def execCbCom (h : Head) (a : BitVec 5) (n : BitVec 4) : State → Host.Outcome State Fault Refusal :=
  cbWord h [.s a 1] .release n.toNat (fun _ => false) (fun c b => c.cbCommit a.toNat b)

/-- CB_WAIT (R282). -/
def execCbWait (h : Head) (d : BitVec 5) (n : BitVec 4) : State → Host.Outcome State Fault Refusal :=
  cbWord h [.sw d 1] .acquire n.toNat (fun b => b.filled == 0) (fun c b => c.cbClaim d.toNat b)

/-- CB_POP (R282). -/
def execCbPop (h : Head) (n : BitVec 4) : State → Host.Outcome State Fault Refusal :=
  cbWord h [] .release n.toNat (fun _ => false) (fun c b => c.cbPop b)

/-- CB_SA (R282). -/
def execCbSa (h : Head) (d : BitVec 5) (a : BitVec 5) (n : BitVec 4) : State → Host.Outcome State Fault Refusal :=
  runWord h [.sw d 1, .s a 1] .none noWait (fun c => c.toFrames c.s d.toNat
    (0x40000000 + (n.setWidth 32) * 0x1000000 + (((c.g.frm (lowest c.act c.g.w)).U a.toNat).extractLsb' 0 8).setWidth 32 * 0x10000))

/-- CP_G2S (R285). -/
def execCpG2s (h : Head) (d : BitVec 5) (a : BitVec 5) (b : BitVec 5) : State → Host.Outcome State Fault Refusal :=
  copyWord h d a b 0

/-- CP_S2G (R285). -/
def execCpS2g (h : Head) (d : BitVec 5) (a : BitVec 5) (b : BitVec 5) : State → Host.Outcome State Fault Refusal :=
  copyWord h d a b 1

/-- CP_S2S (R285). -/
def execCpS2s (h : Head) (d : BitVec 5) (a : BitVec 5) (b : BitVec 5) : State → Host.Outcome State Fault Refusal :=
  copyWord h d a b 2

/-- CP_GAT (R285). -/
def execCpGat (h : Head) (d : BitVec 5) (a : BitVec 5) (b : BitVec 5) : State → Host.Outcome State Fault Refusal :=
  copyWord h d a b 3

/-- CP_T2H (R285). -/
def execCpT2h (h : Head) (d : BitVec 5) (a : BitVec 5) (b : BitVec 5) : State → Host.Outcome State Fault Refusal :=
  copyWord h d a b 4

/-- WTA (R287). -/
def execWta (h : Head) (d : BitVec 5) (a : BitVec 5) (b : BitVec 5) (r : BitVec 1) (z : BitVec 1) (w : BitVec 2) : State → Host.Outcome State Fault Refusal :=
  waitAddress h d a b r z w

end Sys2Proof.Machine
end

