-- ==== Sys2Proof/Machine/Matrix.lean ====
section
/-! DEFINITION. Sys2Proof/Machine/Matrix.lean: the matrix and tile words, majors 0x29 to 0x2E, the core's matrix array, and the rows of
tile stores (R290 to R313). -/

namespace Sys2Proof.Machine

/-! ## Tiles and accumulators (R291) -/

/-- The 4,096 bytes of a tile. -/
def Group.tile (g : Group) (t : Nat) : List Byte := sparseRead 0 g.tiles (4096 * t) 4096
/-- The 4,096 words of an accumulator. -/
def Group.acc (g : Group) (a : Nat) : List Word := sparseRead 0 g.accs (4096 * a) 4096
/-- Words of an accumulator replaced from a flat index on. -/
def Group.setAcc (g : Group) (a i : Nat) (ws : List Word) : Group := { g with accs := sparseSplice 0 g.accs (4096 * a + i) ws }
/-- A tile as the word reads it at issue. -/
def Ctx.readTile (c : Ctx) (t : Nat) : List Byte := c.g.tile t
/-- An accumulator as the word reads it at issue. -/
def Ctx.readAcc (c : Ctx) (a : Nat) : List Word := c.g.acc a
/-- Bytes written to a tile at issue. -/
def Ctx.setTile (c : Ctx) (t off : Nat) (bs : List Byte) : State := c.updG c.s (fun g => g.putTile t off bs)
/-- The frame of the lowest active lane (R290). -/
def Ctx.low (c : Ctx) : Frame := c.g.frm (lowest c.act c.g.w)
/-- An uncorrectable error in a tile (class 2) or accumulator (class 3) that the array reads (R377). -/
def Ctx.badSrc (c : Ctx) (cls n : Nat) : Bool := c.g.bad.any (fun b => b.cls == cls && b.num == n)

/-! ## The word of the chapter (R290, R313) -/

/-- No check of its own. -/
def noCheck : Ctx → Option (Nat × DWord × Word) := fun _ => none

/-- A word that executes once for the group: every live lane must be active, else convergence; then its own check, a code with FADDR and
DETAIL for every lane; then its effect. -/
def tileWord (h : Head) (us : List Use) (cls : OrdClass) (wait : Ctx → Bool) (check : Ctx → Option (Nat × DWord × Word)) (body : Ctx → State) :
    State → Host.Outcome State Fault Refusal :=
  runWord h us cls wait (fun c =>
    let all (x : Nat × DWord × Word) : List (Nat × Nat × DWord × Word) := (c.act.list c.g.w).map (fun l => (l, x))
    if c.act != c.g.live then
      c.raise c.s (all (0x03, 0, BitVec.ofNat 32 ((c.g.live &&& ~~~c.act).list c.g.w).length))
    else
      match check c with
      | some x => c.raise c.s (all x)
      | none => body c)

/-! ## tcfg.set, tld, tst (R294 to R297) -/

/-- The bytes of a row by SZ. -/
def partBytes (z : BitVec 2) : Nat := if z = 0 then 64 else 8
/-- The tile offset of row 0 by SZ. -/
def partBase (z : BitVec 2) : Nat := match z.toNat with | 0 => 0 | 1 => 0x200 | _ => 0x400

/-- The fault of the lowest failing address of a list, for every active lane: a word that executes once is checked once (R374). -/
def Ctx.lowestFault (c : Ctx) (fs : List (Nat × Nat × DWord × Word)) : List (Nat × Nat × DWord × Word) :=
  match fs with
  | [] => []
  | f :: r =>
    let x := r.foldl (fun (b : Nat × Nat × DWord × Word) y => if y.2.2.1.toNat < b.2.2.1.toNat then y else b) f
    (c.act.list c.g.w).map (fun l => (l, x.2))

/-- The access of a tile word: rows of n bytes at addresses with their offsets in the tile. -/
def Ctx.tileAccess (c : Ctx) (major t n : Nat) (scr store : Bool) (align detail : Nat) (rows : List (DWord × Nat)) : MemWord :=
  let lead := lowest c.act c.g.w
  let sbad := if scr then rows.filterMap (fun (a, _) =>
      match c.s.scratchOff c.g (a.setWidth 32) n with
      | none => some (lead, 0x06, a, BitVec.ofNat 32 (n.log2 + 16 * (a.toNat / 2 ^ 30)))
      | some _ => none) else []
  let abad := rows.filterMap (fun (a, _) => if a.toNat % align != 0 then some (lead, 0x0B, a, BitVec.ofNat 32 detail) else none)
  let fs := c.lowestFault (if sbad.isEmpty then abad else sbad)
  let src := if store then c.readTile t else []
  let part (r : DWord × Nat) : Part :=
    let p := if scr then c.scratchPart c.act lead (r.1.setWidth 32) n else newPart c.act lead (c.g.lane lead).frame r.1 false n
    { p with off := r.2, data := (src.drop r.2).take n }
  { kind := if store then .tileStore else .load, major := major, scope := 1, acq := false, rel := false,
    dest := if store then .none else .tile t 0, ldc := false, stc := false, tlc := true, logged := !scr, once := true, faults := fs, grow := [],
    parts := if fs.isEmpty then rows.map part else [] }

/-- tcfg.set: 128 bytes in 32-byte units at core scope, at a 64-aligned address (R295). -/
def Ctx.cfgLoad (c : Ctx) (t a : Nat) : MemWord :=
  let base := c.low.UP a
  c.tileAccess 0x29 t 64 false false 64 7 [(base, 0), (base + 64, 64)]

/-- The stalls at issue. -/
def Ctx.memWordStall (c : Ctx) (m : MemWord) : Bool := c.memStall m
/-- The word issues, or its lanes take its fault. -/
def Ctx.issueTile (c : Ctx) (m : MemWord) : State := c.issueWord m

/-- The rows of tld and tst: pitch and offset by the form (R297). -/
def Ctx.tileRows (c : Ctx) (d : BitVec 5) (a : BitVec 4) (z q : BitVec 2) (store : Bool) (po : DWord × DWord) : MemWord :=
  let rb := partBytes z
  let scr := q != 0
  let base : DWord := if scr then (c.low.U (2 * a.toNat)).setWidth 64 else c.low.UP (2 * a.toNat)
  let rows := (List.range 64).map (fun r =>
    let x := base + po.2 + BitVec.ofNat 64 r * po.1
    ((if scr then (x.setWidth 32).setWidth 64 else x : DWord), partBase z + rb * r))
  c.tileAccess (if store then 0x2B else 0x2A) d.toNat rb scr store rb rb.log2 rows

/-- tld and tst. -/
def tileMove (h : Head) (us : List Use) (d : BitVec 5) (a : BitVec 4) (z q : BitVec 2) (store : Bool) (po : Ctx → DWord × DWord) :
    State → Host.Outcome State Fault Refusal :=
  tileWord h us (if store then .store else .load) (fun c => c.memStall (c.tileRows d a z q store (po c))) noCheck
    (fun c => c.issueWord (c.tileRows d a z q store (po c)))

/-! ## Operands of the array (R83, R84, R90 to R93, R291) -/

/-- KMAX of a type code. -/
def kMax (ty : Nat) : Nat := if ty < 5 then 64 else 32

/-- Element k of a row of 64 bytes. -/
def rowElem (ty : Nat) (row : List Byte) (k : Nat) : Nat :=
  if ty = 0 ∨ ty = 4 then (row.getD (k / 2) 0).toNat / 16 ^ (k % 2) % 16
  else if ty < 5 then (row.getD k 0).toNat
  else (row.getD (2 * k) 0).toNat + 256 * (row.getD (2 * k + 1) 0).toNat

/-- A half of a tile. -/
def tileHalf (t : List Byte) (o : Nat) : Nat := (t.getD o 0).toNat + 256 * (t.getD (o + 1) 0).toNat

/-- The value of a floating element under a header, or none for no block scale (R84). -/
def elemVal (ty sfmt : Nat) (hdr : Option Nat) (code : Nat) : FVal :=
  let v := match ty with
    | 0 => e2m1Dec ((hdr.getD 0) / 256) code
    | 1 => Fmt.e4m3.dec code
    | 2 => Fmt.e5m2.dec code
    | 5 => Fmt.f16.dec code
    | _ => Fmt.bf16.dec code
  match hdr with
  | none => v
  | some x =>
    match scaleVal sfmt (x % 256) with
    | none => .nan false
    | some d => (v.mul (d.toVal false)).1

/-- The value of an integer element (R91). -/
def elemInt (ty code : Nat) : Int :=
  if ty = 3 then (if code ≥ 128 then (code : Int) - 256 else code) else (if code ≥ 8 then (code : Int) - 16 else code)

/-- The block length of BLK. -/
def blkLen (blk : Nat) : Nat := match blk with | 1 => 16 | 2 => 32 | _ => 0

/-- The stored position of reduction position k (R93). -/
def permPos (cfg : List Byte) (on : Bool) (k : Nat) : Nat := if on then (cfg.getD (0x40 + k) 0).toNat % 64 else k

/-- A row's values in reduction order, the headers of blocks of L positions from `hb` on. -/
def rowVals (cfg : List Byte) (ty l sfmt hb : Nat) (perm : Bool) (kx r : Nat) (tile : List Byte) : List FVal :=
  let row := (tile.drop (64 * r)).take 64
  (List.range kx).map (fun k =>
    elemVal ty sfmt (if l = 0 then none else some (tileHalf cfg (hb + 8 * r + 2 * (k / l)))) (rowElem ty row (permPos cfg perm k)))

/-- A row's integers in reduction order. -/
def rowInts (cfg : List Byte) (ty : Nat) (perm : Bool) (kx r : Nat) (tile : List Byte) : List Int :=
  let row := (tile.drop (64 * r)).take 64
  (List.range kx).map (fun k => elemInt ty (rowElem ty row (permPos cfg perm k)))

/-- Chunks of n of a list. -/
def chunksOf {α : Type} : Nat → Nat → List α → List (List α)
  | 0, _, _ => []
  | fuel + 1, n, xs => if xs.isEmpty then [] else xs.take n :: chunksOf fuel n (xs.drop n)

/-! ## Checks of configurations and codes (R293, R306, R307, R310, R311, R343) -/

/-- The first table entry below kx that is no permutation's, or any of the table with a reserved bit (R293). -/
def tableFail (cfg : List Byte) (kx : Nat) : Option Nat :=
  (List.range 64).find? (fun i =>
    let e := (cfg.getD (0x40 + i) 0).toNat
    decide (64 ≤ e) || (decide (i < kx) && (decide (kx ≤ e) || (List.range i).any (fun j => (cfg.getD (0x40 + j) 0).toNat == e))))

/-- The first failure of a configuration for mma, as DETAIL has it. -/
def cfgFail (cfg : List Byte) (same : Bool) : Option Word :=
  let b (o : Nat) : Nat := (cfg.getD o 0).toNat
  let ta := b 0
  let tb := b 1
  let f8 (x : Nat) : Bool := x == 1 || x == 2
  let l := blkLen (b 2)
  if same then some 0x100
  else if 6 < ta then some 0
  else if !(ta == tb || (f8 ta && f8 tb)) then some 1
  else if !(if ta = 0 then f8 (b 2) else if f8 ta then decide (b 2 ≤ 2) else b 2 == 0) then some 2
  else if 1 < b 3 then some 3
  else if b 4 / 8 != 0 then some 4
  else if b 5 = 0 ∨ 64 < b 5 then some 5
  else if b 6 = 0 ∨ 64 < b 6 then some 6
  else if b 7 = 0 ∨ min (kMax ta) (kMax tb) < b 7 ∨ (l ≠ 0 ∧ b 7 % l ≠ 0) then some 7
  else
    match (List.range 64).find? (fun o => decide (0x0A ≤ o) && b o != 0) with
    | some o => some (BitVec.ofNat 32 o)
    | none => if b 4 % 4 = 0 then none else (tableFail cfg (b 7)).map (fun i => BitVec.ofNat 32 (0x40 + i))

/-- mx.perm checks KX and the table (R307). -/
def permFail (cfg : List Byte) : Option Word :=
  let kx := (cfg.getD 7 0).toNat
  if kx = 0 ∨ 64 < kx then some 7 else (tableFail cfg kx).map (fun i => BitVec.ofNat 32 (0x40 + i))

/-- A type or part of acc.wid and acc.nar outside R310. -/
def sectionFail (u : Word) : Option (Nat × DWord × Word) :=
  let ty := u.toNat % 4
  if ty = 3 ∨ (ty < 2 ∧ 2 ≤ u.toNat / 4 % 4) then some (0x0D, 0, 0x101) else none

/-- The checks of acc.q2 and acc.qe (R311). -/
def quantFail (d b : BitVec 5) (cfg : List Byte) : Option (Nat × DWord × Word) :=
  let blk := (cfg.getD 2 0).toNat
  if d = b then some (0x0D, 0, 0x102)
  else if blk = 0 ∨ 2 < blk then some (0x0D, 0, 2)
  else if 1 < (cfg.getD 3 0).toNat then some (0x0D, 0, 3) else none

/-! ## Results of array operations -/

/-- One element of mma: its accumulator word, and whether an addition saturated or a rounding lost a nonzero value (R90, R91, R303). -/
def mmaElem (ints : Bool) (l : Nat) (acc : Word) (a b : List FVal) (ai bi : List Int) : Word × Bool × Bool :=
  if ints then
    (chunksOf 64 l (ai.zip bi)).foldl (fun (w, sat, unf) ps =>
      let (r, s) := chunkI32 w (ps.map (fun (x, y) => x * y))
      (r, sat || s, unf)) (acc, false, false)
  else
    (chunksOf 64 l (a.zip b)).foldl (fun (w, sat, unf) ps =>
      let (r, u) := chunkF32 w (ps.map (fun (x, y) => (x.mul y).1))
      (r, sat, unf || u)) (acc, false, false)

/-- A word is a NaN, or an infinity. -/
def nanWord (w : Word) : Bool := (Fmt.f32.dec w.toNat).isNan
/-- An infinity. -/
def infWord (w : Word) : Bool := match Fmt.f32.dec w.toNat with | .inf _ => true | _ => false

/-- What an array operation writes: accumulator pieces (accumulator, flat index, words), tile pieces (tile, offset, bytes), and its
census counts. -/
structure MatResult where
  accs : List (Nat × Nat × List Word)
  tiles : List (Nat × Nat × List Byte)
  counts : Counts
  deriving DecidableEq

/-- The number of true entries. -/
def countTrue (bs : List Bool) : Nat := (bs.filter id).length

/-- The counts of an operation on f32 elements from their sources. -/
def floatCounts (fresh : Bool) (src dst : List Word) (sats unfs : List Bool) : Counts :=
  { nans := countTrue ((src.zip dst).map (fun (x, y) => nanWord y && (fresh || !nanWord x)))
    infs := countTrue ((src.zip dst).map (fun (x, y) => infWord y && (fresh || !infWord x)))
    sats := countTrue sats, unfs := countTrue unfs }

/-- mma (R302). -/
def mmaResult (m : MatOp) (set : Bool) (d : Nat) (cur : List Word) : MatResult :=
  let cfg := m.cfg
  let b (o : Nat) : Nat := (cfg.getD o 0).toNat
  let ints := decide (b 0 = 3 ∨ b 0 = 4)
  let blk := blkLen (b 2)
  let l := if blk = 0 then 32 else blk
  let pa := b 4 % 2 = 1
  let pb := b 4 / 2 % 2 = 1
  let rows := List.range (b 5)
  let cols := List.range (b 6)
  let av := rows.map (fun r => (if ints then [] else rowVals cfg (b 0) blk (b 3) 0x200 pa (b 7) r m.a, if ints then rowInts cfg (b 0) pa (b 7) r m.a else []))
  let bv := cols.map (fun r => (if ints then [] else rowVals cfg (b 1) blk (b 3) 0x400 pb (b 7) r m.b, if ints then rowInts cfg (b 1) pb (b 7) r m.b else []))
  let lines := (rows.zip av).map (fun (i, x, xi) =>
    let old := (cur.drop (64 * i)).take (b 6)
    (i, old, (old.zip bv).map (fun (w, y, yi) => mmaElem ints l (if set then 0 else w) x y xi yi)))
  let old := lines.flatMap (fun (_, o, _) => o)
  let res := lines.flatMap (fun (_, _, r) => r)
  let sats := res.map (fun r => r.2.1)
  { accs := lines.map (fun (i, _, r) => (d, 64 * i, r.map Prod.fst)), tiles := [],
    counts := if ints then { nans := 0, infs := 0, sats := countTrue sats, unfs := 0 }
      else floatCounts set old (res.map Prod.fst) sats (res.map (fun r => r.2.2)) }

/-- mx.had (R306). -/
def hadResult (m : MatOp) (d : Nat) : MatResult :=
  let n := 16 * 2 ^ (m.code.toNat % 4)
  let res := (chunksOf 256 n m.acc).flatMap (fun xs => hadamard (m.code.toNat / 16 % 16) xs)
  { accs := [(d, 0, res.map Prod.fst)], tiles := [], counts := floatCounts false m.acc (res.map Prod.fst) [] (res.map Prod.snd) }

/-- mx.perm (R307). -/
def permResult (m : MatOp) (d : Nat) : MatResult :=
  let kx := (m.cfg.getD 7 0).toNat
  let row (xs : List Word) : List Word := (List.range 64).map (fun k => if k < kx then xs.getD (permPos m.cfg true k) 0 else xs.getD k 0)
  { accs := [(d, 0, (chunksOf 64 64 m.acc).flatMap row)], tiles := [], counts := ⟨0, 0, 0, 0⟩ }

/-- acc.wid (R310). -/
def widResult (m : MatOp) (d : Nat) : MatResult :=
  let ty := m.code.toNat % 4
  let p := m.code.toNat / 4 % 4
  let n := if ty = 2 then 16 else 32
  let elem (r e : Nat) : Word :=
    if ty = 2 then leWord ((m.a.drop (64 * r + 4 * e)).take 4)
    else BitVec.ofNat 32 (cvtFloat (if ty = 0 then Fmt.f16 else Fmt.bf16) Fmt.f32 .rne false (tileHalf m.a (64 * r + 2 * e))).1
  { accs := (List.range 64).map (fun r => (d, 64 * r + n * p, (List.range n).map (elem r))), tiles := [], counts := ⟨0, 0, 0, 0⟩ }

/-- acc.nar (R310). -/
def narResult (m : MatOp) (t : Nat) : MatResult :=
  let ty := m.code.toNat % 4
  let p := m.code.toNat / 4 % 4
  let n := if ty = 2 then 16 else 32
  let src := (List.range 64).flatMap (fun r => (m.acc.drop (64 * r + n * p)).take n)
  if ty = 2 then { accs := [], tiles := [(t, 0, src.flatMap wordLe)], counts := ⟨0, 0, 0, 0⟩ }
  else
    let f := if ty = 0 then Fmt.f16 else Fmt.bf16
    let res := src.map (fun w => (w, cvtFloat Fmt.f32 f .rne true w.toNat))
    { accs := [], tiles := [(t, 0, res.flatMap (fun (_, c, _) => natLe 2 c))],
      counts := { nans := 0, infs := 0, sats := countTrue (res.map (fun (_, _, fl) => fl &&& FFlags.of != 0)),
                  unfs := countTrue (res.map (fun (w, c, _) => (match Fmt.f32.dec w.toNat with | .fin _ k _ => k != 0 | _ => false) && (f.dec c).isZero)) } }

/-- Nibbles packed two to a byte (R83). -/
def packNibbles : List Nat → List Byte
  | [] => []
  | [x] => [BitVec.ofNat 8 (x % 16)]
  | x :: y :: r => BitVec.ofNat 8 (x % 16 + 16 * (y % 16)) :: packNibbles r

/-- acc.q2 and acc.qe (R311). -/
def quantResult (m : MatOp) (q2 : Bool) (t b : Nat) : MatResult :=
  let l := blkLen (m.cfg.getD 2 0).toNat
  let sfmt := (m.cfg.getD 3 0).toNat
  let rows := (chunksOf 64 64 m.acc).map (fun row => (chunksOf 64 l row).map (fun vs => if q2 then quantQB vs sfmt else quantQE vs sfmt))
  let code (bs : List Block) : List Byte :=
    if q2 then packNibbles (bs.flatMap Block.codes) ++ List.replicate 32 0 else bs.flatMap (fun k => k.codes.map (BitVec.ofNat 8))
  let hdr (bs : List Block) : List Byte := bs.flatMap (fun k => natLe 2 k.header) ++ (if l = 32 then List.replicate 4 0 else [])
  let all := rows.flatten
  { accs := [], tiles := [(t, 0, rows.flatMap code), (b, 0x200, rows.flatMap hdr)],
    counts := { nans := countTrue (all.flatMap Block.nans), infs := 0, sats := countTrue (all.flatMap Block.sats),
                unfs := countTrue (all.flatMap Block.unfs) } }

/-- The result of an operation of a group, the destination accumulator as it is. -/
def MatOp.result (m : MatOp) (g : Group) : MatResult :=
  match m.kind with
  | .mma set d => mmaResult m set d (g.acc d)
  | .had d => hadResult m d
  | .perm d => permResult m d
  | .wid d => widResult m d
  | .nar d => narResult m d
  | .q2 d b => quantResult m true d b
  | .qe d b => quantResult m false d b

/-! ## Issue and completion (R298 to R300, R339) -/

/-- An array form's stalls: tl at 255, or a full queue (R299). -/
def Ctx.arrayStall (c : Ctx) : Bool :=
  !c.mid && (c.counterFull 3 c.g.tl || decide (Config.arrayQueue ≤ (c.s.core c.core).array.length + c.s.keptOn c.core (fun _ => true) Place.array.is))

/-- An operation enters the array's queue with its sources; `bad`: its tiles or accumulators hold an uncorrectable error, which is counted,
`staged`: the tile staging that it read does (R377, R379). -/
def Ctx.matOp (c : Ctx) (kind : MatKind) (cfg a b : List Byte) (acc : List Word) (code : Word) (bad : Bool) (staged : Bool := false) : State :=
  let m : MatOp :=
    { slot := c.slot, op := c.g.nextId, pc := c.pc, kind := kind, cfg := cfg, a := a, b := b, acc := acc, code := code, bad := bad || staged }
  let s := (c.updG c.s (fun g => { g with tl := g.tl + 1, nextId := g.nextId + 1 })).updCore c.core (fun k => { k with array := k.array ++ [m] })
  if bad then s.noteLocal (s.fnOf c.g.grid) c.core 5 else s

/-- The word of an array form. -/
def arrayWord (h : Head) (us : List Use) (check : Ctx → Option (Nat × DWord × Word)) (body : Ctx → State) :
    State → Host.Outcome State Fault Refusal :=
  tileWord h us .matrix Ctx.arrayStall check body

/-- A failed copy or matrix operation is held by its group (R339). -/
def Group.holdFault (g : Group) (code : Nat) (fpc faddr : DWord) (detail : Word) : Group :=
  { g with heldFault := match g.heldFault with
      | some x => some { x with more := true }
      | none => some { code := code, fpc := fpc, faddr := faddr, detail := detail, more := false } }

/-- The result of a matrix operation is written whole and its group's tl falls (R300); an uncorrectable source leaves the destination
unchanged (R339, R377). -/
def State.matrixWrite (s : State) (core : Nat) (m : MatOp) : State :=
  match s.group? core m.slot with
  | none => s
  | some g =>
    if m.bad then s.updGroup core m.slot (fun g => { (g.holdFault 0x0F m.pc 0 5) with tl := g.tl - 1 })
    else
      let r := m.result g
      let s := s.updGroup core m.slot (fun g =>
        let g := r.accs.foldl (fun (g : Group) (a, i, ws) => g.setAcc a i ws) g
        let g := r.tiles.foldl (fun (g : Group) (t, o, bs) => g.putTile t o bs) g
        { g with tl := g.tl - 1 })
      s.census g.grid m.pc r.counts

/-- The head of a core's array ends (R300); its result is held while its group's partition is stopped (R171). -/
def State.matrixDone (s : State) (core : Nat) : State :=
  match (s.core core).array with
  | [] => s
  | m :: r =>
    let s := s.updCore core (fun k => { k with array := r })
    if s.stopped core m.slot then s.updCore core (fun k => { k with completions := k.completions ++ [.matrix m] }) else s.matrixWrite core m

/-- The region of tile staging that a configuration names, or none beyond STAGE (R101, R293). -/
def Ctx.stagingKey (c : Ctx) (unit : Nat) : Option Nat :=
  match c.s.region? c.core c.g.grid with
  | some r => if unit < r.stage then some (scratchKey c.core (r.stageBase + 4096 * unit)) else none
  | none => none

/-- Bytes of tile staging read at issue as a load at core scope by the active lanes, with the pieces and the writes that they bind to; none while the load could
not present or an entry of SF(g) has to drain first (R123, R133). -/
def Ctx.stagingRead (c : Ctx) (key n : Nat) : Option (List Byte × List (Nat × Nat × Nat)) :=
  let issue := c.g.nextId
  (splitUnits (n + 1) key 0 n).foldl (fun acc (off, len) =>
    match acc with
    | none => none
    | some (bs, ws) =>
      if c.s.loadBarred c.g c.act issue (key + off) len then none
      else (c.s.readUnit c.g c.act issue 1 (key + off) len).map (fun (b, w) => (bs ++ b, ws ++ [(key + off, len, w)]))) (some ([], []))

/-- The partner operand that a configuration names in tile staging: its key, when it lies within STAGE. -/
def Ctx.partner (c : Ctx) (k : BitVec 3) : Option Nat :=
  if ((c.readTile k.toNat).getD 4 0).getLsbD 2 then c.stagingKey (tileHalf (c.readTile k.toNat) 8) else none

/-- The pieces of a read that were not forwarded from SF(g) (R377). -/
def Ctx.stored (c : Ctx) (ws : List (Nat × Nat × Nat)) : List (Nat × Nat × Nat) := ws.filter (fun (k, n, _) => (c.g.youngest c.g.nextId k n).isNone)

/-- A read of a word binds for its lanes, piece by piece, and its errors are counted (R123, R379). -/
def Ctx.bindAll (c : Ctx) (s : State) (ws : List (Nat × Nat × Nat)) : State :=
  (c.stored ws).foldl (fun s (k, n, _) => s.noteErrors (s.fnOf c.g.grid) k n)
    (c.updG s (fun g => ws.foldl (fun g (k, n, w) => g.readBy c.act c.g.nextId k n w) g))

/-- mma (R293, R301, R302, R417): B must be 0 under BST, then the configuration, then the staging offset. -/
def mmaWord (h : Head) (d a b : BitVec 5) (k : BitVec 3) (set : Bool) (word : Word) : State → Host.Outcome State Fault Refusal :=
  let bst (c : Ctx) : Bool := ((c.readTile k.toNat).getD 4 0).getLsbD 2
  let unit (c : Ctx) : Nat := tileHalf (c.readTile k.toNat) 8
  runWord h [.accw d, .tw a, .tw b, .tw (k.setWidth 5)] .matrix
    (fun c => c.arrayStall || (c.partner k).any (fun key => (c.stagingRead key 4096).isNone)) (fun c =>
      if bst c && b != 0 then c.s.raisePrecise c.core c.slot c.pc c.first ((c.act.list c.g.w).map (fun l => (l, 0x01, 0, word)))
      else
        let all (x : Nat × DWord × Word) : List (Nat × Nat × DWord × Word) := (c.act.list c.g.w).map (fun l => (l, x))
        let cfg := c.readTile k.toNat
        if c.act != c.g.live then c.raise c.s (all (0x03, 0, BitVec.ofNat 32 ((c.g.live &&& ~~~c.act).list c.g.w).length))
        else
          match cfgFail cfg (k.toNat == a.toNat || (!bst c && k.toNat == b.toNat)) with
          | some x => c.raise c.s (all (0x0D, 0, x))
          | none =>
            if bst c then
              match c.stagingKey (unit c) with
              | none => c.raise c.s (all (0x06, ((0xC0000000 : Word) + BitVec.ofNat 32 (4096 * unit c)).setWidth 64, BitVec.ofNat 32 (12 + 16 * 3)))
              | some key =>
                let (bytes, ws) := (c.stagingRead key 4096).getD ([], [])
                c.bindAll (c.matOp (.mma set d.toNat) cfg (c.readTile a.toNat) bytes [] 0
                  (c.badSrc 2 a.toNat || c.badSrc 2 k.toNat || (!set && c.badSrc 3 d.toNat)) ((c.stored ws).any (fun (k, n, _) => c.s.uncorrectable k n))) ws
            else
              c.matOp (.mma set d.toNat) cfg (c.readTile a.toNat) (c.readTile b.toNat) [] 0
                (c.badSrc 2 a.toNat || c.badSrc 2 b.toNat || c.badSrc 2 k.toNat || (!set && c.badSrc 3 d.toNat)))

/-! ## acc.rd and acc.wr (R309) -/

/-- acc.rd: in each frame U when the index is U there, with one read, else G (R70, R309, log 14). -/
def Ctx.accRead (c : Ctx) (d a b : Nat) : State :=
  let at_ (w : Word) : Word := (sparseRead 0 c.g.accs (4096 * a + w.toNat % 4096) 1).getD 0 0
  c.setV d (fun f _ => match c.g.readV f b with
    | .u w => .u (at_ w)
    | v => .g (fun l => at_ (v.lane l))) 0

/-- acc.wr: in ascending lanes, so the highest lane's value stands. -/
def Ctx.accWrite (c : Ctx) (d a b : Nat) : State :=
  c.updG c.s (fun g => (c.act.list g.w).foldl (fun g l => g.setAcc d ((c.g.laneV b l).toNat % 4096) [c.g.laneV a l]) g)

/-! ## Rows of tile stores (R297) -/

/-- The next row of a tile store to enter: every row has passed translation, its earlier rows have entered, and nothing else holds it (R297, R337). -/
def State.nextRow (s : State) (g : Group) (o : Op) : Option (Nat × Part) :=
  if o.kind != .tileStore then none
  else
    match (o.parts.zipIdx).find? (fun (p, _) => !(p.prog == .entered || p.prog == .done)) with
    | some (p, i) => if p.prog == .ready && o.passed && s.mayEnter g o i p then some (i, p) else none
    | none => none

/-- A row of a tile store enters SF(g). -/
def State.rowEnter (s : State) (core slot opId : Nat) : State :=
  match s.group? core slot with
  | none => s
  | some g =>
    match g.ops.find? (fun o => o.id == opId) with
    | none => s
    | some o => match s.nextRow g o with | some (i, p) => s.setGroup (g.enterPart o i p) | none => s

/-! ## The instructions -/

/-- TCFG_SET (R295). -/
def execTcfgSet (h : Head) (d : BitVec 5) (a : BitVec 5) : State → Host.Outcome State Fault Refusal :=
  tileWord h [.tw d, .pair a] .load (fun c => c.memWordStall (c.cfgLoad d.toNat a.toNat)) noCheck (fun c => c.issueTile (c.cfgLoad d.toNat a.toNat))

/-- TCFG_ROWS (R295). -/
def execTcfgRows (h : Head) (d : BitVec 5) (a : BitVec 5) : State → Host.Outcome State Fault Refusal :=
  tileWord h [.tw d, .s a 1] .none noWait noCheck (fun c => c.setTile d.toNat 5 (natLe 1 (c.low.U a.toNat).toNat))

/-- TCFG_COLS (R295). -/
def execTcfgCols (h : Head) (d : BitVec 5) (a : BitVec 5) : State → Host.Outcome State Fault Refusal :=
  tileWord h [.tw d, .s a 1] .none noWait noCheck (fun c => c.setTile d.toNat 6 (natLe 1 (c.low.U a.toNat).toNat))

/-- TCFG_KEXT (R295). -/
def execTcfgKext (h : Head) (d : BitVec 5) (a : BitVec 5) : State → Host.Outcome State Fault Refusal :=
  tileWord h [.tw d, .s a 1] .none noWait noCheck (fun c => c.setTile d.toNat 7 (natLe 1 (c.low.U a.toNat).toNat))

/-- TCFG_FL (R295). -/
def execTcfgFl (h : Head) (d : BitVec 5) (a : BitVec 5) : State → Host.Outcome State Fault Refusal :=
  tileWord h [.tw d, .s a 1] .none noWait noCheck (fun c => c.setTile d.toNat 4 (natLe 1 (c.low.U a.toNat).toNat))

/-- TCFG_STG (R295). -/
def execTcfgStg (h : Head) (d : BitVec 5) (a : BitVec 5) : State → Host.Outcome State Fault Refusal :=
  tileWord h [.tw d, .s a 1] .none noWait noCheck (fun c => c.setTile d.toNat 8 (natLe 2 (c.low.U a.toNat).toNat))

/-- TLD (R297). -/
def execTld (h : Head) (d : BitVec 5) (a : BitVec 4) (o : BitVec 5) (z : BitVec 2) (q : BitVec 2) : State → Host.Outcome State Fault Refusal :=
  tileMove h [.tw d, .pairj a, .s o 1] d a z q false (fun c => ((c.low.U o.toNat).setWidth 64, 0))

/-- TLD_IMM (R297). -/
def execTldImm (h : Head) (d : BitVec 5) (a : BitVec 4) (i : BitVec 5) (z : BitVec 2) (q : BitVec 2) : State → Host.Outcome State Fault Refusal :=
  tileMove h [.tw d, .pairj a] d a z q false (fun _ => (BitVec.ofNat 64 (partBytes z), i.signExtend 64 * BitVec.ofNat 64 (64 * partBytes z)))

/-- TST (R297). -/
def execTst (h : Head) (d : BitVec 5) (a : BitVec 4) (o : BitVec 5) (z : BitVec 2) (q : BitVec 2) : State → Host.Outcome State Fault Refusal :=
  tileMove h [.t d, .pairj a, .s o 1] d a z q true (fun c => ((c.low.U o.toNat).setWidth 64, 0))

/-- TST_IMM (R297). -/
def execTstImm (h : Head) (d : BitVec 5) (a : BitVec 4) (i : BitVec 5) (z : BitVec 2) (q : BitVec 2) : State → Host.Outcome State Fault Refusal :=
  tileMove h [.t d, .pairj a] d a z q true (fun _ => (BitVec.ofNat 64 (partBytes z), i.signExtend 64 * BitVec.ofNat 64 (64 * partBytes z)))

/-- MMA_ACC (R302). -/
def execMmaAcc (h : Head) (d : BitVec 5) (a : BitVec 5) (b : BitVec 5) (k : BitVec 3) : State → Host.Outcome State Fault Refusal :=
  mmaWord h d a b k false (shortWord h 0x2C (Rrr.toPay ⟨d, a, b, k.setWidth 4⟩))

/-- MMA_SET (R302). -/
def execMmaSet (h : Head) (d : BitVec 5) (a : BitVec 5) (b : BitVec 5) (k : BitVec 3) : State → Host.Outcome State Fault Refusal :=
  mmaWord h d a b k true (shortWord h 0x2C (Rrr.toPay ⟨d, a, b, k.setWidth 4 ||| 8⟩))

/-- MX_HAD (R306). -/
def execMxHad (h : Head) (d : BitVec 5) (a : BitVec 5) (b : BitVec 5) : State → Host.Outcome State Fault Refusal :=
  arrayWord h [.accw d, .accw a, .s b 1] (fun c => if (c.low.U b.toNat).toNat % 4 = 3 then some (0x0D, 0, 0x101) else none) (fun c => c.matOp (.had d.toNat) [] [] [] (c.readAcc a.toNat) (c.low.U b.toNat) (c.badSrc 3 a.toNat))

/-- MX_PERM (R307). -/
def execMxPerm (h : Head) (d : BitVec 5) (a : BitVec 5) (b : BitVec 5) : State → Host.Outcome State Fault Refusal :=
  arrayWord h [.accw d, .accw a, .tw b] (fun c => (permFail (c.readTile b.toNat)).map (fun o => (0x0D, 0, o))) (fun c => c.matOp (.perm d.toNat) (c.readTile b.toNat) [] [] (c.readAcc a.toNat) 0 (c.badSrc 3 a.toNat || c.badSrc 2 b.toNat))

/-- ACC_ZERO (R309). -/
def execAccZero (h : Head) (d : BitVec 5) : State → Host.Outcome State Fault Refusal :=
  tileWord h [.accw d] .none noWait noCheck (fun c => c.updG c.s (fun g => g.setAcc d.toNat 0 (List.replicate 4096 0)))

/-- ACC_RD (R309). -/
def execAccRd (h : Head) (d : BitVec 5) (a : BitVec 5) (b : BitVec 5) : State → Host.Outcome State Fault Refusal :=
  runWord h [.vw d 1, .acc a, .v b 1] .none noWait (fun c => c.accRead d.toNat a.toNat b.toNat)

/-- ACC_WR (R309). -/
def execAccWr (h : Head) (d : BitVec 5) (a : BitVec 5) (b : BitVec 5) : State → Host.Outcome State Fault Refusal :=
  runWord h [.accw d, .v a 1, .v b 1] .none noWait (fun c => c.accWrite d.toNat a.toNat b.toNat)

/-- ACC_WID (R310). -/
def execAccWid (h : Head) (d : BitVec 5) (a : BitVec 5) (b : BitVec 5) : State → Host.Outcome State Fault Refusal :=
  arrayWord h [.accw d, .tw a, .s b 1] (fun c => sectionFail (c.low.U b.toNat)) (fun c => c.matOp (.wid d.toNat) [] (c.readTile a.toNat) [] [] (c.low.U b.toNat) (c.badSrc 2 a.toNat))

/-- ACC_NAR (R310). -/
def execAccNar (h : Head) (d : BitVec 5) (a : BitVec 5) (b : BitVec 5) : State → Host.Outcome State Fault Refusal :=
  arrayWord h [.tw d, .accw a, .s b 1] (fun c => sectionFail (c.low.U b.toNat)) (fun c => c.matOp (.nar d.toNat) [] [] [] (c.readAcc a.toNat) (c.low.U b.toNat) (c.badSrc 3 a.toNat))

/-- ACC_Q2 (R311). -/
def execAccQ2 (h : Head) (d : BitVec 5) (a : BitVec 5) (b : BitVec 5) : State → Host.Outcome State Fault Refusal :=
  arrayWord h [.tw d, .accw a, .tw b] (fun c => quantFail d b (c.readTile b.toNat)) (fun c => c.matOp (.q2 d.toNat b.toNat) (c.readTile b.toNat) [] [] (c.readAcc a.toNat) 0 (c.badSrc 3 a.toNat || c.badSrc 2 b.toNat))

/-- ACC_QE (R311). -/
def execAccQe (h : Head) (d : BitVec 5) (a : BitVec 5) (b : BitVec 5) : State → Host.Outcome State Fault Refusal :=
  arrayWord h [.tw d, .accw a, .tw b] (fun c => quantFail d b (c.readTile b.toNat)) (fun c => c.matOp (.qe d.toNat b.toNat) (c.readTile b.toNat) [] [] (c.readAcc a.toNat) 0 (c.badSrc 3 a.toNat || c.badSrc 2 b.toNat))

/-- MATRIX_OP_COMPLETE (R300). -/
def execMatrixOpComplete (core : Nat) : State → Host.Outcome State Fault Refusal :=
  fun s => .next (s.matrixDone core)

/-- TILE_STORE_ROW_ENTER (R297). -/
def execTileStoreRowEnter (core : Nat) (slot : Nat × Nat) : State → Host.Outcome State Fault Refusal :=
  fun s => .next (s.rowEnter core slot.1 slot.2)

end Sys2Proof.Machine
end

