-- ==== Sys2Proof/Machine/Control.lean ====
section
/-! DEFINITION. Sys2Proof/Machine/Control.lean: the control, call, barrier, vote and regroup instructions, majors 0x00 to 0x09 (R215 to
R233), with the calls and returns of R74 to R77, the barriers of R53 to R57 and R350, and the regroup of R61 to R63. -/

namespace Sys2Proof.Machine

/-! ## Exit and the exception fence (R217, R218, R339) -/

/-- The four counters are zero. -/
def Group.quiet (g : Group) : Bool := g.ld == 0 && g.st == 0 && g.cp == 0 && g.tl == 0

/-- Each counter is at or below its limit; a limit of 15 imposes nothing (R59). -/
def Group.within4 (g : Group) (l t p k : Nat) : Bool :=
  let ok (n lim : Nat) : Bool := lim == 15 || decide (n ≤ lim)
  ok g.ld l && ok g.st t && ok g.cp p && ok g.tl k

/-- The held fault is taken by every active lane, frame by frame, with a resume PC (R339). -/
def Ctx.takeHeld (c : Ctx) (x : Held) (resume : DWord) : State :=
  let s := c.updG c.s (fun g => { g with heldFault := none })
  c.frames.foldl (fun s (f, m) =>
    s.takeTrap c.core c.slot
      { code := x.code, kind := 2, more := x.more, frame := f.id, nested := false, entry := none,
        lanes := (m.list c.g.w).map (fun l =>
          { lane := l, tcode := tcodeOf x.code 2 false x.more 0, fpc := x.fpc, faddr := x.faddr, detail := x.detail, resume := resume, op := none }) }) s

/-- wait 0, 0, 0, 0. -/
def Ctx.exceptionFence (c : Ctx) : State :=
  match c.g.heldFault with
  | some x => c.takeHeld x (c.pc + 4)
  | none => c.s

/-! ## Transfers of control (R201, R219, R220, R421) -/

/-- The packet of an address (R198). -/
def pktOf (a : DWord) : DWord := a - BitVec.ofNat 64 (a.toNat % 12)
/-- tgt(off) (R201, R213). -/
def Ctx.tgt (c : Ctx) (off : DWord) : DWord := pktOf c.pc + 4 * off
/-- Lanes sent to an address. -/
def Ctx.goto (c : Ctx) (m : LaneSet) (a : DWord) : State := c.updG c.s (fun g => g.updLanes m (fun _ x => { x with pc := a }))

/-- The check of a computed target (R421): the fault of a lane sent there. -/
def targetFault (l : Nat) (a : DWord) : Option (Nat × Nat × DWord × Word) :=
  if a.toNat % 4 != 0 then some (l, 0x0B, a, 2) else if a.extractLsb' 56 8 != 0 then some (l, 0x09, a, 2) else none

/-- ctl.jr: each active lane goes to its own target, or takes the target's fault. -/
def Ctx.jumpTo (c : Ctx) (target : Nat → DWord) : State :=
  let fs := (c.act.list c.g.w).filterMap (fun l => targetFault l (target l))
  let s := c.updG c.s (fun g => g.updLanes c.act (fun l x => if (targetFault l (target l)).isNone then { x with pc := target l } else x))
  c.raise s fs

/-- A pair written once for each frame of the active lanes, with those lanes. -/
def pairOpC (h : Head) (d : BitVec 5) (us : List Use) (f : Ctx → Frame → LaneSet → DWord) : State → Host.Outcome State Fault Refusal :=
  runWord h us .none noWait (fun c => c.updG c.s (fun g => c.frames.foldl (fun g (fr, m) => g.setUP fr.id d.toNat (f c fr m)) g))

/-- A uniform register written once for each frame of the active lanes, with those lanes. -/
def uniOpC (h : Head) (d : BitVec 5) (us : List Use) (f : Ctx → Frame → LaneSet → Word) : State → Host.Outcome State Fault Refusal :=
  runWord h us .none noWait (fun c => c.updG c.s (fun g => c.frames.foldl (fun g (fr, m) => g.setU fr.id d.toNat (f c fr m)) g))

/-! ## Calls (R74, R221 to R223, R422) -/

/-- NA above the callee's demand or the caller's NV breaks the register bound, by a field (R358). -/
def Ctx.callBounds (c : Ctx) (nv na : Nat) : List (Nat × Nat × DWord × Word) :=
  (c.act.list c.g.w).filterMap (fun l =>
    if na ≤ nv ∧ na ≤ (c.g.frm l).nv then none else some (l, 0x04, 0, BitVec.ofNat 32 (na - 1)))

/-- The first n registers of a frame that are spilled. -/
def Frame.spilledIn (f : Frame) (n : Nat) : List Nat := (List.range n).filter (fun i => f.tag i == .spilled)

/-- The spilled argument registers that a call needs first (R74, R81). -/
def Ctx.argsSpilled (c : Ctx) (n : Nat) : List (Nat × Nat) := c.frames.flatMap (fun (f, _) => (f.spilledIn n).map (fun i => (f.id, i)))

/-- An argument register of a frame is scoreboarded or spilled (R74, R81). -/
def Ctx.argsBusy (c : Ctx) (n : Nat) : Bool :=
  c.frames.any (fun (f, m) => c.g.scoreboarded .v f.id 0 n m) || !(c.argsSpilled n).isEmpty

/-- The callee frame of lanes of a frame: tags passed, share counts by naming, the caller's arguments dropped under a full mask (R74). -/
def Group.call (g : Group) (f : Frame) (m : LaneSet) (nv ns na : Nat) (rpc entry : DWord) : Group :=
  let id := g.freshFrame
  let n : Frame :=
    { id := id, owners := m, depth := f.depth + 1, rpc := rpc, caller := some f.id, na := na, nv := nv, ns := ns,
      v := (List.range nv).map (fun i => if i < na then f.tag i else .u 0), s := List.replicate ns 0, recSpilled := false, handler := none }
  let g := { g with frames := g.frames ++ [n] }
  let g := if LaneSet.subset f.owners m then (List.range na).foldl (fun g i => g.setTag f.id i (.u 0)) g else g
  (g.updLanes m (fun _ x => { x with pc := entry, fd := x.fd + 1, frame := id })).collect

/-- call and callp: lanes at FD 255 take frame-overflow, and lanes with a bad computed target (of call: a field's is checked as it is fetched) its
fault; the others enter (R222, R223, R421, R422). -/
def Ctx.callTo (c : Ctx) (nv ns na : Nat) (computed : Bool) (target : Ctx → Frame → DWord) : State :=
  let bad (l : Nat) : Option (Nat × Nat × DWord × Word) :=
    if 255 ≤ (c.g.lane l).fd then some (l, 0x05, 0, BitVec.ofNat 32 (c.g.lane l).fd)
    else if computed then targetFault l (target c (c.g.frm l)) else none
  let fs := (c.act.list c.g.w).filterMap bad
  let ok := c.frames.filterMap (fun (f, m) =>
    let m := m &&& LaneSet.ofPred c.g.w (fun l => (bad l).isNone)
    if m == 0 then none else some (f, m))
  let r := c.withParts (ok.map (fun (_, m) => (m, 1, (nv + 3) / 4))) (fun s =>
    c.updG s (fun g => ok.foldl (fun g (f, m) =>
      match g.frame? f.id with
      | some f' => g.call f' m nv ns na (c.pc + 4) (target c f)
      | none => g) g))
  c.after r fs

/-- The word of a call. -/
def callWord (h : Head) (us : List Use) (nv ns na : Nat) (computed : Bool) (target : Ctx → Frame → DWord) : State → Host.Outcome State Fault Refusal :=
  runWordB h us (fun c => c.callBounds nv na) .none (fun c => c.argsBusy na) (fun c => c.callTo nv ns na computed target)

/-! ## Returns and unwinding (R76, R77, R225, R364, R421) -/

/-- NB above the NV of a lane's top frame breaks the register bound, by a field; a lane that pops with FD 0 returns from no frame (R358). -/
def Ctx.countBounds (c : Ctx) (pop : Bool) (nb : Nat) : List (Nat × Nat × DWord × Word) :=
  (c.act.list c.g.w).filterMap (fun l => if (pop && (c.g.lane l).fd == 0) || nb ≤ (c.g.frm l).nv then none else some (l, 0x04, 0, BitVec.ofNat 32 (nb - 1)))

/-- The k topmost frames of a lane and the frame below them. -/
def Group.popped (g : Group) (l k : Nat) : List Frame × Option Frame := ((g.stack l).take k, (g.stack l)[k]?)

/-- What a return or unwind of k frames by lanes of a frame reads and writes: the registers of the top frame it waits for, those it reads, and
those of the frame below that it writes (R76, R77). -/
def Group.retRegs (g : Group) (k : Frame → Nat) (nb : Nat) (f : Frame) (m : LaneSet) : Nat × Option Frame :=
  let (fs, below) := g.popped (lowest m g.w) (k f)
  (max nb ((fs.getLast?.map Frame.na).getD 0), if fs.isEmpty then none else below)

/-- The spilled registers that a return needs first: its values, and the registers below that it writes under a partial mask (R71, R76, R81). -/
def Ctx.retSpilled (c : Ctx) (k : Frame → Nat) (nb : Nat) : List (Nat × Nat) :=
  c.frames.flatMap (fun (f, m) =>
    let (n, below) := c.g.retRegs k nb f m
    (f.spilledIn nb).map (fun i => (f.id, i)) ++
      (match below with
       | some b => if LaneSet.subset b.owners m then [] else (b.spilledIn n).map (fun i => (b.id, i))
       | none => []))

/-- A register that a return reads or writes is scoreboarded or spilled (R60, R76). -/
def Ctx.retBusy (c : Ctx) (k : Frame → Nat) (nb : Nat) : Bool :=
  c.frames.any (fun (f, m) =>
    let (n, below) := c.g.retRegs k nb f m
    c.g.scoreboarded .v f.id 0 n m || below.any (fun b => c.g.scoreboarded .v b.id 0 n m)) || !(c.retSpilled k nb).isEmpty

/-- The fault of a lane that returns or unwinds k frames with NB values: FD, the caller's NV, and a handler's return PC for ret.pop. -/
def Ctx.retFault (c : Ctx) (k : Frame → Nat) (nb : Nat) (pop : Bool) (l : Nat) : Option (Nat × Nat × DWord × Word) :=
  let x := c.g.lane l
  let kk := k (c.g.frm l)
  if kk = 0 ∨ kk > x.fd then some (l, 0x05, 0, BitVec.ofNat 32 x.fd)
  else
    let (fs, below) := c.g.popped l kk
    let n := max nb ((fs.getLast?.map Frame.na).getD 0)
    let nv := (below.map Frame.nv).getD 0
    if nv < n then some (l, 0x04, 0, BitVec.ofNat 32 nv)
    else if pop && (c.g.frm l).handler.isSome then targetFault l (c.g.frm l).rpc
    else none

/-- The lanes of one top frame leave k frames: values go to the frame below the lowest popped one, registers up to its NA that get no
value are written U 0, and the lanes go to its return PC (R76, R77). -/
def Group.unwind (g : Group) (l : Nat) (m : LaneSet) (k nb : Nat) (restart : Nat → Bool) (to? : Option (Nat → DWord)) : Group :=
  let (fs, below) := g.popped l k
  match fs.head?, fs.getLast?, below with
  | some top, some low, some b =>
    let g := (List.range (max nb low.na)).foldl (fun g i =>
      match g.frame? b.id with
      | some b' => g.writeV b' i m (if i < nb then g.readV top i else .u 0)
      | none => g) g
    let g := fs.foldl (fun g f => g.leaveFrame f m restart) g
    (g.updLanes m (fun j x => { x with fd := x.fd - k, frame := b.id, pc := match to? with | some t => t j | none => low.rpc })).releaseFrames
  | _, _, _ => g

/-- Granules that the values of a return take (R71). -/
def Group.unwindNeed (g : Group) (l : Nat) (m : LaneSet) (k nb : Nat) : Nat :=
  let (fs, below) := g.popped l k
  match fs.head?, fs.getLast?, below with
  | some top, some low, some b =>
    (List.range (max nb low.na)).foldl (fun n i => n + if b.takesSet i m (if i < nb then g.readV top i else .u 0) then g.perReg else 0) 0
  | _, _, _ => 0

/-- Lanes of several top frames unwind one after another, with the granules that their values take: two of them may write one register below
(R71, R76). -/
def Group.unwinds (g : Group) (fs : List (Frame × LaneSet)) (k : Frame → Nat) (nb : Nat) : Group × Nat :=
  fs.foldl (fun (g, n) (f, m) =>
    let l := lowest m g.w
    (g.unwind l m (k f) nb (fun _ => false) none, n + g.unwindNeed l m (k f) nb)) (g, 0)

/-- ctl.exit past its stall: lanes in called frames unwind to the kernel frame with no value, then every active lane exits (R217). -/
def Ctx.exit (c : Ctx) : State :=
  match c.g.heldFault with
  | some x => c.takeHeld x c.pc
  | none =>
    let deep := c.frames.filter (fun (f, _) => f.depth != 0)
    c.withRows (c.g.unwinds deep Frame.depth 0).2 0 (fun s => c.updG s (fun g => (g.unwinds deep Frame.depth 0).1.exitLanes c.act))

/-- ret. -/
def Ctx.ret (c : Ctx) (k : Frame → Nat) (nb : Nat) (pop : Bool) : State :=
  let fs := (c.act.list c.g.w).filterMap (c.retFault k nb pop)
  let ok := c.frames.filterMap (fun (f, m) =>
    let m := m &&& LaneSet.ofPred c.g.w (fun l => (c.retFault k nb pop l).isNone)
    if m == 0 then none else some (f, m))
  c.after (c.withRows (c.g.unwinds ok k nb).2 0 (fun s => c.updG s (fun g => (g.unwinds ok k nb).1))) fs

/-! ## Barriers (R53 to R57, R226 to R228, R349, R350) -/

/-- The groups of a team stand on two cores (R36). -/
def State.spans (s : State) (grid : Word) (team : Nat) : Bool :=
  match (s.groups.filter (fun g => g.grid == grid && g.team == team)).map Group.core with
  | [] => false
  | c :: r => r.any (· != c)

/-- The scope of a barrier's release and acquire (R53). -/
def State.barScope (s : State) (grid : Word) (team bar : Nat) : Nat :=
  if bar = 1 then 2
  else if bar = 18 then (match (s.grid? grid).map (fun g => g.record.reach) with | some 0 => 3 | some 1 => 4 | some 2 => 5 | _ => 3)
  else if s.spans grid team then 2 else 1

/-- The released phase of a barrier. -/
def State.barTP (s : State) (grid : Word) (team bar : Nat) : Half :=
  if bar = 18 then ((s.grid? grid).map Grid.gridTP).getD 0 else (((s.team? grid team).map Team.tp).getD []).getD bar 0

/-- The count that an arrival at a named barrier names, clamped (R227). -/
def Ctx.barCount (c : Ctx) (a : Nat) : Nat :=
  let n := ((c.g.frm (lowest c.act c.g.w)).U a).toNat
  let gc := ((c.s.team? c.g.grid c.g.team).map Team.gcnt).getD 1
  max 1 (min n gc)

/-- LP ahead of TP, read as signed (R54). -/
def phaseAhead (lp tp : Half) : Bool := decide ((lp - tp).toInt > 0)

/-- Scratch-to-scratch copies that a group has issued and that have not completed (R53). -/
def State.copiesOf (s : State) (core slot : Nat) : List Nat :=
  let isS2s (c : CopyCmd) : Bool := c.kind == 2
  (match s.group? core slot with
   | some g => g.ops.filterMap (fun o => match o.kind with | .copy c => if isS2s c then some c.id else none | _ => none) ++
       g.sf.filterMap (fun i => match i.kind with | .copy c => if isS2s c then some c.id else none | _ => none)
   | none => []) ++ ((s.core core).engine.filter (fun c => isS2s c && c.slot == slot)).map CopyCmd.id

/-- bar: the phase of each active lane rises; lanes of a released phase go on with an acquire, the others are held while their release
completes (R54, R57, R130). -/
def Ctx.barrier (c : Ctx) (bar : Nat) (waits : Bool) (count : Nat) : State :=
  let tp := c.s.barTP c.g.grid c.g.team bar
  let lp (l : Nat) : Half := (c.g.lane l).phases.getD bar 0 + 1
  let late := c.act &&& LaneSet.ofPred c.g.w (fun l => phaseAhead (lp l) tp)
  let pass := c.act &&& ~~~late
  let s := c.updG c.s (fun g => g.updLanes c.act (fun l x =>
    { x with phases := x.phases.set bar (lp l), run := if late.has l then .held else x.run }))
  let s := if pass == 0 then s else s.addHold c.core c.slot pass
  if late == 0 then s
  else
    let (s, m) := s.issueFence c.core c.slot c.pc late (c.s.barScope c.g.grid c.g.team bar) false
    c.updG s (fun g => { g with arrivals := g.arrivals ++ [{ bar := bar, lanes := late, mark := m, count := count, waits := waits }] })

/-- Barriers outside their launches raise priv (R349). -/
def Ctx.barFaults (c : Ctx) (bar : Nat) : List (Nat × Nat × DWord × Word) :=
  let ok := match c.s.grid? c.g.grid with
    | some g => if bar = 18 then g.record.resident else g.record.barrier
    | none => true
  if ok then [] else (c.act.list c.g.w).map (fun l => (l, 0x12, 0, 0))

/-- The word of a barrier. -/
def barWord (h : Head) (us : List Use) (bar : Nat) (waits : Bool) (count : Ctx → Nat) : State → Host.Outcome State Fault Refusal :=
  runWord h us .sync noWait (fun c =>
    match c.barFaults bar with
    | [] => c.barrier bar waits (count c)
    | fs => c.raise c.s fs)

/-- The groups that a barrier counts: of the team, or of every team of the grid (R53). -/
def State.barGroups (s : State) (grid : Word) (team bar : Nat) : List Group :=
  s.groups.filter (fun g => g.grid == grid && (bar == 18 || g.team == team))

/-- The group is counted toward the phase after TP: it has arrived for it or a later one, or has exited (R54, R56, R350). -/
def Group.arrivedFor (g : Group) (bar : Nat) (tp : Half) : Bool := g.exited || phaseAhead (g.gp.getD bar 0) tp

/-- The stamp at which a group came to be counted for a phase: its arrival's, or its exit's when it had not arrived (R52, R56). -/
def Group.countedAt (g : Group) (bar : Nat) (tp : Half) : Nat :=
  if phaseAhead (g.gp.getD bar 0) tp then g.arrivedAt.getD bar 0 else g.exitAt.getD 0

/-- A released phase: TP rises, its waiting lanes run on with an acquire, and a team or twin release orders the team's groups by urgency
(R52, R54). -/
def State.releasePhase (s : State) (grid : Word) (team bar : Nat) : State :=
  let old := s.barTP grid team bar
  let tp := old + 1
  let s := if bar = 18 then s.updGrid grid (fun g => { g with gridTP := tp })
    else s.updTeam grid team (fun t => { t with tp := t.tp.set bar tp })
  let gs := s.barGroups grid team bar
  let s := gs.foldl (fun s g =>
    let m := LaneSet.ofPred g.w (fun l => (g.lane l).run == .barrier bar tp)
    if m == 0 then s
    else (s.updGroup g.core g.slot (fun g => g.updLanes m (fun _ x => { x with run := .running }))).addHold g.core g.slot m) s
  if bar ≤ 1 then
    let before (a b : Group) : Bool :=
      b.countedAt bar old < a.countedAt bar old || (a.countedAt bar old == b.countedAt bar old && b.gix < a.gix)
    gs.foldl (fun s g => s.updGroup g.core g.slot (fun x => { x with rank := (gs.filter (fun o => before o g)).length })) s
  else s

/-- The scratch-to-scratch copies that a group issued before it was counted at the twin barrier have completed (R53). -/
def State.twinCopied (s : State) (g : Group) : Bool :=
  let out := s.copiesOf g.core g.slot
  if g.exited then out.isEmpty else !g.twinCopies.any out.contains

/-- The devices of the pod that take part in a launch of pod reach, ascending (R135). -/
def LaunchRecord.devices (r : LaunchRecord) (members : BitVec 128) : List Nat :=
  (List.range 128).filter (fun n => members.getLsbD n && (r.devmask == 0 || r.devmask.getLsbD n))

/-- The taking-part devices of a pod grid other than this one have all reported their arrivals for a phase (R53, R408). -/
def State.othersArrived (s : State) (g : Grid) (phase : Half) : Bool :=
  g.record.reach != 2 || (g.record.devices s.members).all (fun d => d == s.dev || g.arrivedDevs.contains (d, phase))

/-- A phase completes when enough groups have arrived for it (R53, R55, R350); the twin barrier of a team within one core is as its team barrier. The model asks for a real arrival: exited groups alone do not
complete a phase (log 23). -/
def State.phaseComplete (s : State) (grid : Word) (team bar : Nat) : Bool :=
  let tp := s.barTP grid team bar
  let gs := s.barGroups grid team bar
  let n := (gs.filter (fun g => g.arrivedFor bar tp)).length
  let some_ := gs.any (fun g => phaseAhead (g.gp.getD bar 0) tp)
  some_ &&
    (if bar = 18 then n == gs.length && (s.grid? grid).any (fun g => g.placedAll && s.othersArrived g (tp + 1))
    else
      match s.team? grid team with
      | none => false
      | some t =>
        if bar = 0 then decide (t.gcnt ≤ n)
        else if bar = 1 then decide (t.gcnt ≤ n) && (!s.spans grid team || gs.all s.twinCopied)
        else decide (max 1 (t.ncnt.getD (bar - 2) 1) ≤ n))

/-- Phases released for as long as they are complete; at most one for each phase a group has reached. -/
def State.releasePhases (s : State) (grid : Word) (team bar : Nat) : Nat → State
  | 0 => s
  | k + 1 => if s.phaseComplete grid team bar then (s.releasePhase grid team bar).releasePhases grid team bar k else s

/-- The group arrives with a lane at a phase that is not released (R54): at the twin barrier it waits for the copies that it has issued. -/
def Group.arriveLane (g : Group) (bar : Nat) (phase tp : Half) (stamp : Nat) (copies : List Nat) : Group :=
  if !phaseAhead phase tp || phase == g.gp.getD bar 0 then g
  else
    { g with
      gp := g.gp.set bar phase, arrivedAt := g.arrivedAt.set bar stamp
      twinCopies := if bar = 1 then copies else g.twinCopies }

/-- An arrival whose release has completed is counted (R54, R57, R130): the group arrives for each new phase of its lanes, and the lanes
wait, or go on when they only arrive. The first group of a phase names a named barrier's count (R55); a phase with an arrival counted already
keeps the count it has (R350). Lanes whose phase was released meanwhile go on with an acquire. -/
def State.arrive (s : State) (core slot bar : Nat) : State :=
  match s.group? core slot with
  | none => s
  | some g =>
    match g.arrivals.find? (fun a => a.bar == bar && !s.markPending a.mark) with
    | none => s
    | some a =>
      let tp := s.barTP g.grid g.team bar
      let first := !(s.barGroups g.grid g.team bar).any (fun x => phaseAhead (x.gp.getD bar 0) tp)
      let lanes := (a.lanes.list g.w).filter (fun l => (g.lane l).run == .held)
      let phase (l : Nat) : Half := (g.lane l).phases.getD bar 0
      let arrives := lanes.any (fun l => phaseAhead (phase l) tp && phase l != g.gp.getD bar 0)
      let g' := lanes.foldl (fun (g : Group) l => g.arriveLane bar (phase l) tp s.stamp (s.copiesOf core slot)) g
      let g' := { g' with arrivals := g'.arrivals.erase a }
      let g' := g'.updLanes a.lanes (fun l x => if x.run == .held then { x with run := if a.waits && phaseAhead (phase l) tp then .barrier bar (phase l) else .running } else x)
      let s := { s.setGroup g' with stamp := s.stamp + 1 }
      let passed := LaneSet.ofPred g.w (fun l => lanes.contains l && !phaseAhead (phase l) tp)
      let s := if passed == 0 then s else s.addHold core slot passed
      let s := if 2 ≤ bar && bar ≤ 17 && first && arrives then s.updTeam g.grid g.team (fun t => { t with ncnt := t.ncnt.set (bar - 2) a.count }) else s
      s.releasePhases g.grid g.team bar 64

/-- Another device reports that all groups of a pod grid there have arrived for a phase of the grid barrier (R53, R408). -/
def State.arriveRemote (s : State) (grid : Word) (dev : Nat) (phase : Half) : State :=
  (s.updGrid grid (fun g => if g.arrivedDevs.contains (dev, phase) then g else { g with arrivedDevs := g.arrivedDevs ++ [(dev, phase)] })).releasePhases grid 0 18 64

/-! ## Regroup (R61 to R63, R232, R352) -/

/-- grp's key register or count beyond the kernel frame's NV (R358). -/
def Ctx.sortBounds (c : Ctx) (d n : Nat) : List (Nat × Nat × DWord × Word) :=
  (c.act.list c.g.w).filterMap (fun l =>
    let nv := (c.g.stack l).getLast?.map Frame.nv |>.getD 0
    if d ≥ nv then some (l, 0x04, 0, BitVec.ofNat 32 d) else if n > nv then some (l, 0x04, 0, BitVec.ofNat 32 (n - 1)) else none)

/-- Misuse of grp: some active lane in a called frame, or a launch without barriers (R352). -/
def Ctx.sortFaults (c : Ctx) : List (Nat × Nat × DWord × Word) :=
  let bad := (c.act.list c.g.w).any (fun l => (c.g.lane l).fd != 0) || (match c.s.grid? c.g.grid with | some g => !g.record.barrier | none => false)
  if bad then (c.act.list c.g.w).map (fun l => (l, 0x10, 0, 0)) else []

/-- grp.sort: the lanes wait at the word, as a release at the team barrier's scope (R61, R63). Arrivals of bar 19 hold the release. -/
def Ctx.sortWord (c : Ctx) (d n : Nat) : State :=
  match c.sortFaults with
  | [] =>
    let s := c.updG c.s (fun g => g.updLanes c.act (fun _ x => { x with run := .regroup c.pc d n }))
    let (s, m) := s.issueFence c.core c.slot c.pc c.act (c.s.barScope c.g.grid c.g.team 0) false
    c.updG s (fun g => { g with arrivals := g.arrivals ++ [{ bar := 19, lanes := c.act, mark := m, count := 0, waits := true }] })
  | fs => c.raise c.s fs

/-- The peers of a lane: active lanes with an equal value (R230). -/
def Ctx.peers (c : Ctx) (a l : Nat) : List Nat := (c.act.list c.g.w).filter (fun m => c.g.laneV a m == c.g.laneV a l)

/-- A thread as it moves: its key, its lane and its registers. -/
structure Mover where
  key : Nat
  lane : Lane
  regs : List Word
  deriving DecidableEq, Repr

/-- Insertion by key, then team thread index. -/
def insertMover (x : Mover) : List Mover → List Mover
  | [] => [x]
  | y :: r => if x.key < y.key || (x.key == y.key && x.lane.k < y.lane.k) then x :: y :: r else y :: insertMover x r

/-- A group after the regroup (R62): thread j of its share in lane j, lanes beyond exited, v0 to v(n-1) in G shape, every other vector
register U 0. -/
def Group.regrouped (g : Group) (pc : DWord) (n : Nat) (share : List Mover) : Group :=
  let kernel := ((g.frames.find? (fun f => f.depth == 0)).map Frame.id).getD 0
  let lanes := g.lanes.mapIdx (fun l x =>
    match share[l]? with
    | some m =>
      { m.lane with run := .running, pc := pc + 4, fd := 0, frame := kernel, floors := m.lane.floors.map (fun (f : Floor) => { f with issue := 0 }) }
    | none => if x.run == .absent then x else { x with run := .exited })
  let owners := LaneSet.ofPred g.w (fun l => decide (l < share.length))
  let n := if share.isEmpty then 0 else n
  let sets := (List.range n).map (fun i => GSet.mk i ((List.range g.w).map (fun l => ((share[l]?).map (fun m => m.regs.getD i 0)).getD 0)))
  { g with
    lanes := lanes, sets := sets, arrivals := g.arrivals.filter (fun a => a.bar != 19)
    frames := (g.frames.filter (fun f => f.depth == 0)).map (fun f =>
      { f with owners := owners, v := (List.range f.nv).map (fun i => if i < n then .g i else .u 0) }) }

/-- A group that had exited before the regroup: every vector register of its kernel frame becomes U 0 (R62 step 5). -/
def Group.cleared (g : Group) : Group :=
  { g with sets := [], frames := g.frames.map (fun f => { f with v := f.v.map (fun _ => .u 0) }) }

/-- The groups of a team. -/
def State.teamGroups (s : State) (grid : Word) (team : Nat) : List Group := s.groups.filter (fun g => g.grid == grid && g.team == team)

/-- A regroup of a team is due: every live lane waits at a regroup and every release has completed (R61, R130). Its word addresses, with the key
register and count of the first. -/
def State.regroupDue (s : State) (grid : Word) (team : Nat) : Option (List DWord × Nat × Nat) :=
  let gs := (s.teamGroups grid team).filter (fun g => !g.exited)
  let waits : List Run := gs.flatMap (fun g => (g.live.list g.w).map (fun l => (g.lane l).run))
  if !waits.all (fun r => match r with | .regroup .. => true | _ => false) || gs.any (fun g => g.arrivals.any (fun a => a.bar == 19 && s.markPending a.mark)) then none
  else
    match (waits.head? : Option Run) with
    | some (.regroup _ d n) =>
      some (waits.foldl (fun acc r => match r with | .regroup p _ _ => if acc.contains p then acc else acc ++ [p] | _ => acc) [], d, n)
    | _ => none

/-- The spilled registers that a regroup needs first: the keys, and what moves (R62, R81), as core, slot, frame and register. -/
def State.regroupSpilled (s : State) (grid : Word) (team : Nat) : List (Nat × Nat × Nat × Nat) :=
  match s.regroupDue grid team with
  | some ([_], d, n) =>
    ((s.teamGroups grid team).filter (fun g => !g.exited)).flatMap (fun g =>
      (g.frames.filter (fun f => f.depth == 0)).flatMap (fun f =>
        ((d :: (List.range n).filter (· != d)).filter (fun r => f.tag r == .spilled)).map (fun r => (g.core, g.slot, f.id, r))))
  | _ => []

/-- The groups of a team after the regroup (R62): the threads sorted by key and packed into the groups that had not exited, by %gix. -/
def sortThreads (gs : List Group) (pc : DWord) (d n : Nat) : List Group :=
  let live := gs.filter (fun g => !g.exited)
  let movers := live.flatMap (fun g => (g.live.list g.w).map (fun l =>
    Mover.mk ((g.laneV d l).toNat % 65536) (g.lane l) ((List.range n).map (fun i => g.laneV i l))))
  let sorted := movers.foldr insertMover []
  let order := (List.range 256).filterMap (fun i => live.find? (fun g => g.gix == i))
  (order.zipIdx).map (fun (g, j) => g.regrouped pc n ((sorted.drop (j * g.w)).take g.w)) ++ (gs.filter Group.exited).map Group.cleared

/-- The rows that a regroup needs on the cores of its team, net of what it gives back, each by the first group there that has not exited
(R73). -/
def regroupNeeds (gs new : List Group) : List (Group × Nat) :=
  let cores := gs.foldl (fun acc g => if acc.contains g.core then acc else acc ++ [g.core]) []
  let sum (xs : List Group) (c : Nat) : Nat := (xs.filter (fun x => x.core == c)).foldl (fun k x => k + x.granules) 0
  cores.filterMap (fun c => (gs.find? (fun g => g.core == c && !g.exited)).map (fun g => (g, sum new c - sum gs c)))

/-- REGROUP (R61, R62, R352): every live lane of the team waits at one word and every release has completed; the threads are sorted by
key and packed into the groups that have not exited. Short of rows it waits with a request (R73). Lanes waiting at several words take the
regroup fault. -/
def State.regroup (s : State) (grid : Word) (team : Nat) : State :=
  match s.regroupDue grid team with
  | none => s
  | some ([pc], d, n) =>
    if !(s.regroupSpilled grid team).isEmpty then s
    else
      let gs := s.teamGroups grid team
      let new := sortThreads gs pc d n
      let needs := regroupNeeds gs new
      if needs.all (fun (g, rows) => s.roomFor g.core g.slot pc g.live rows 0) then
        let s := needs.foldl (fun s (g, _) => s.dropRequest g.core g.slot pc g.live) s
        new.foldl (fun s g => if g.live == 0 then s else s.addHold g.core g.slot g.live) (new.foldl State.setGroup s)
      else needs.foldl (fun s (g, rows) => if rows = 0 then s else s.request g.core g.slot pc g.live rows 0) s
  | some _ =>
    ((s.teamGroups grid team).filter (fun g => !g.exited)).foldl (fun s g =>
      (s.updGroup g.core g.slot (fun g => { g with arrivals := g.arrivals.filter (fun a => a.bar != 19) })).raiseEach g.core g.slot
        ((g.live.list g.w).filterMap (fun l =>
          match (g.lane l).run with
          | .regroup p _ _ => some (preciseLane p p (l, 0x10, 0, 0))
          | _ => none))) s

/-! ## The instructions and events -/

/-- BARRIER_ARRIVAL (R54). -/
def execBarrierArrival (core slot : Nat) (bar : Nat × Option (Word × Nat × Half)) (s : State) : Host.Outcome State Fault Refusal :=
  .next (match bar.2 with
    | none => s.arrive core slot bar.1
    | some (grid, dev, phase) => s.arriveRemote grid dev phase)

/-- REGROUP (R62). -/
def execRegroup (grid : Word) (team : Nat) (s : State) : Host.Outcome State Fault Refusal := .next (s.regroup grid team)

/-- NOP (R217). -/
def execNop (h : Head) : State → Host.Outcome State Fault Refusal :=
  runWord h [] .none noWait (fun c => c.s)

/-- CTL_EXIT (R217). -/
def execCtlExit (h : Head) : State → Host.Outcome State Fault Refusal :=
  runWord h [] .none (fun c => (!c.mid && !c.g.quiet) || c.retBusy Frame.depth 0) (fun c => c.exit)

/-- CTL_JR (R217). -/
def execCtlJr (h : Head) (a : BitVec 5) : State → Host.Outcome State Fault Refusal :=
  runWord h [.pair a] .none noWait (fun c => c.jumpTo (fun l => (c.g.frm l).UP a.toNat))

/-- CTL_PC (R217). -/
def execCtlPc (h : Head) (d : BitVec 5) : State → Host.Outcome State Fault Refusal :=
  pairOpC h d [.pairw d] (fun c _ _ => c.pc)

/-- WAIT (R218). -/
def execWait (h : Head) (l : BitVec 4) (t : BitVec 4) (p : BitVec 4) (k : BitVec 4) : State → Host.Outcome State Fault Refusal :=
  runWord h [] .none (fun c => !c.mid && !c.g.within4 l.toNat t.toNat p.toNat k.toNat) (fun c => if l = 0 && t = 0 && p = 0 && k = 0 then c.exceptionFence else c.s)

/-- BR_LANE (R219). -/
def execBrLane (h : Head) (o : BitVec 17) : State → Host.Outcome State Fault Refusal :=
  runWord h [] .none noWait (fun c => c.goto c.act (c.tgt (o.signExtend 64)))

/-- BR_ALL (R219). -/
def execBrAll (h : Head) (o : BitVec 17) : State → Host.Outcome State Fault Refusal :=
  runWord h [] .none noWait (fun c => if c.act == c.path then c.goto c.path (c.tgt (o.signExtend 64)) else c.s)

/-- BR_ANY (R219). -/
def execBrAny (h : Head) (o : BitVec 17) : State → Host.Outcome State Fault Refusal :=
  runWord h [] .none noWait (fun c => c.goto c.path (c.tgt (o.signExtend 64)))

/-- JMP (R220). -/
def execJmp (c : Bool) (o : BitVec 24) : State → Host.Outcome State Fault Refusal :=
  runWord (longHead c) [] .none noWait (fun c => c.goto c.path (c.tgt (o.signExtend 64)))

/-- CALL (R222). -/
def execCall (h : Head) (a : BitVec 5) (v : BitVec 5) (n : BitVec 4) (x : BitVec 3) : State → Host.Outcome State Fault Refusal :=
  callWord h [.pair a] (v.toNat + 1) n.toNat x.toNat true (fun _ f => f.UP a.toNat)

/-- CALLP (R222). -/
def execCallp (c : Bool) (v : BitVec 5) (n : BitVec 4) (x : BitVec 3) (o : BitVec 12) : State → Host.Outcome State Fault Refusal :=
  callWord (longHead c) [] (v.toNat + 1) n.toNat x.toNat false (fun c _ => c.tgt (o.signExtend 64))

/-- RET_POP (R225). -/
def execRetPop (h : Head) (i : BitVec 6) : State → Host.Outcome State Fault Refusal :=
  runWordB h [] (fun c => c.countBounds true i.toNat) .none (fun c => c.retBusy (fun _ => 1) i.toNat) (fun c => c.ret (fun _ => 1) i.toNat true)

/-- RET_UNWIND (R225). -/
def execRetUnwind (h : Head) (d : BitVec 5) (i : BitVec 6) : State → Host.Outcome State Fault Refusal :=
  runWordB h [] (fun c => c.countBounds false i.toNat) .none (fun c => c.retBusy (fun _ => d.toNat) i.toNat) (fun c => c.ret (fun _ => d.toNat) i.toNat false)

/-- RET_UNWINDR (R225). -/
def execRetUnwindr (h : Head) (a : BitVec 5) (i : BitVec 6) : State → Host.Outcome State Fault Refusal :=
  runWordB h [.s a 1] (fun c => c.countBounds false i.toNat) .none (fun c => c.retBusy (fun f => (f.U a.toNat).toNat) i.toNat) (fun c => c.ret (fun f => (f.U a.toNat).toNat) i.toNat false)

/-- BAR_TEAM (R227). -/
def execBarTeam (h : Head) : State → Host.Outcome State Fault Refusal :=
  barWord h [] 0 true (fun _ => 0)

/-- BAR_TWIN (R227). -/
def execBarTwin (h : Head) : State → Host.Outcome State Fault Refusal :=
  barWord h [] 1 true (fun _ => 0)

/-- BAR_NWAIT (R227). -/
def execBarNwait (h : Head) (a : BitVec 5) (n : BitVec 4) : State → Host.Outcome State Fault Refusal :=
  barWord h [.s a 1] (2 + n.toNat) true (fun c => c.barCount a.toNat)

/-- BAR_NARRIVE (R227). -/
def execBarNarrive (h : Head) (a : BitVec 5) (n : BitVec 4) : State → Host.Outcome State Fault Refusal :=
  barWord h [.s a 1] (2 + n.toNat) false (fun c => c.barCount a.toNat)

/-- BAR_GRID (R227). -/
def execBarGrid (h : Head) : State → Host.Outcome State Fault Refusal :=
  barWord h [] 18 true (fun _ => 0)

/-- VOTE_BALLOT (R230). -/
def execVoteBallot (h : Head) (d : BitVec 5) (a : BitVec 5) : State → Host.Outcome State Fault Refusal :=
  pairOpC h d [.pairw d, .p a] (fun c _ m => m &&& LaneSet.ofPred c.g.w (c.g.pd a.toNat))

/-- VOTE_ANY (R230). -/
def execVoteAny (h : Head) (d : BitVec 5) (a : BitVec 5) : State → Host.Outcome State Fault Refusal :=
  predOp h d [.pw d, .p a] (fun c _ => (c.act.list c.g.w).any (c.g.pd a.toNat))

/-- VOTE_ALL (R230). -/
def execVoteAll (h : Head) (d : BitVec 5) (a : BitVec 5) : State → Host.Outcome State Fault Refusal :=
  predOp h d [.pw d, .p a] (fun c _ => (c.act.list c.g.w).all (c.g.pd a.toNat))

/-- VOTE_POPC (R230). -/
def execVotePopc (h : Head) (d : BitVec 5) (a : BitVec 5) : State → Host.Outcome State Fault Refusal :=
  uniOpC h d [.sw d 1, .p a] (fun c _ m => BitVec.ofNat 32 ((m.list c.g.w).filter (c.g.pd a.toNat)).length)

/-- VOTE_FIRST (R230). -/
def execVoteFirst (h : Head) (d : BitVec 5) (a : BitVec 5) : State → Host.Outcome State Fault Refusal :=
  uniOpC h d [.sw d 1, .p a] (fun c _ m => match (m.list c.g.w).find? (c.g.pd a.toNat) with | some l => BitVec.ofNat 32 l | none => 0xFFFFFFFF)

/-- VOTE_PEERS (R230). -/
def execVotePeers (h : Head) (d : BitVec 5) (a : BitVec 5) : State → Host.Outcome State Fault Refusal :=
  runWord h [.vw d 1, .v a 1] .none noWait (fun c => c.setV d.toNat (fun _ _ => .g (fun l => BitVec.ofNat 32 (c.peers a.toNat l).length)) 0)

/-- VOTE_RANK (R230). -/
def execVoteRank (h : Head) (d : BitVec 5) (a : BitVec 5) : State → Host.Outcome State Fault Refusal :=
  runWord h [.vw d 1, .v a 1] .none noWait (fun c => c.setV d.toNat (fun _ _ => .g (fun l => BitVec.ofNat 32 ((c.peers a.toNat l).filter (fun m => decide (m < l))).length)) 0)

/-- VOTE_ACT (R230). -/
def execVoteAct (h : Head) (d : BitVec 5) : State → Host.Outcome State Fault Refusal :=
  pairOpC h d [.pairw d] (fun _ _ m => m)

/-- GRP_SORT (R232). -/
def execGrpSort (h : Head) (d : BitVec 5) (i : BitVec 6) : State → Host.Outcome State Fault Refusal :=
  runWordB h [] (fun c => c.sortBounds d.toNat i.toNat) .sync (fun c => !c.mid && c.sortFaults.isEmpty && !c.g.quiet) (fun c => c.sortWord d.toNat i.toNat)

end Sys2Proof.Machine
end

