-- ==== Sys2Proof/Machine/System.lean ====
section
/-! DEFINITION. Sys2Proof/Machine/System.lean: the launch, power, time, measurement and system instructions, majors 0x2F to 0x33
(R314 to R326), with the return from a handler (R344). -/

namespace Sys2Proof.Machine

/-! ## lnch (R315 to R317) -/

/-- A further lnch word stalls at issue while 16 of the core wait for the front end (R317); one whose chain has issued does not (R47). -/
def Ctx.lnchStall (c : Ctx) : Bool := !c.mid && decide (16 ≤ (c.s.lnchWords c.core).length)

/-- The read of REACH (R316): not to be had yet, a fault, a request that an access table forbids, or the byte with its key and the write it bound
to; `bad`: it met an uncorrectable error and holds 0 (R334, R338). -/
inductive ReachRead where
  | later
  | fault (code : Nat) (faddr : DWord) (detail : Word)
  | forbidden (d : Denial)
  | reach (b : Nat) (key seq : Nat) (bad : Bool)
  deriving DecidableEq

/-- Byte 0x4B of the record at a, read at issue as a load at dev scope by the lanes of a frame (R123, R316); the translation caches keep what
the walk read. -/
def Ctx.reach (c : Ctx) (s : State) (m : LaneSet) (a : DWord) : State × ReachRead :=
  let fn := s.fnOf c.g.grid
  let va := a + 0x4B
  let issue := c.g.nextId
  if s.loadHeld c.g m issue then (s, .later)
  else
    match State.laneWalk c.core c.slot m issue s va with
    | none => (s, .later)
    | some (s, x) =>
      match s.judge fn .read 1 x with
      | .fault code d => (s, .fault code va d)
      | .forbidden d => (s, .forbidden d)
      | .frozen => (s, .later)
      | .ok key =>
        if s.loadBarred c.g m issue key 1 then (s, .later)
        else
          match s.readUnit c.g m issue 4 key 1 with
          | none => (s, .later)
          | some (bs, seq) =>
            if (c.g.youngest issue key 1).isSome then (s, .reach (bs.getD 0 0).toNat key seq false)
            else
              let bad := s.uncorrectable key 1
              (s.noteErrors fn key 1, .reach (if bad then 0 else (bs.getD 0 0).toNat) key seq bad)

/-- A request of a frame's lanes issues as a release at a scope. -/
def Ctx.lnchIssue (c : Ctx) (s : State) (f : Frame) (m : LaneSet) (scope : Nat) (r : LnchReq) (dest : Dest) : State :=
  let (s, k) := s.newMark
  c.updG s (fun g =>
    g.issue { newOp c.pc 0x2F (.lnch r) m scope [{ newPart m (lowest m c.g.w) f.id 0 true 0 with prog := .ready }] dest with rel := some k })

/-- lnch.trig and lnch.cncl: one request for each frame, a release at dev. -/
def Ctx.lnchEach (c : Ctx) (r : Frame → LnchReq) : State := c.frames.foldl (fun s (f, m) => c.lnchIssue s f m 4 (r f) .none) c.s

/-- The reads of REACH of a word, frame by frame. -/
def Ctx.reaches (c : Ctx) (s : State) (a : Nat) : State × List (Frame × LaneSet × ReachRead) :=
  c.frames.foldl (fun (s, rs) (f, m) =>
    let (s, r) := c.reach s m (f.UP a)
    (s, rs ++ [(f, m, r)])) (s, [])

/-- The word has to wait for a read of REACH. -/
def Ctx.reachLater (c : Ctx) (a : Nat) : Bool := (c.reaches c.s a).2.any (fun (_, _, r) => r == .later)

/-- The scope of a launch's release by the REACH byte (R316). -/
def reachScope (b : Nat) : Nat := match b with | 0 => 3 | 1 => 4 | 2 => 5 | _ => 6

/-- lnch.rec: its reads are an access before its releases; for each frame, the release at the scope of the record's reach, or the fault of the read;
an uncorrectable error is deferred, with the byte read as 0 (R334, R338; log 26). A read that an access table forbids is
discarded and the word stays where it is, as every request of its frozen master (R381). -/
def Ctx.launchRecs (c : Ctx) (d a : Nat) : State :=
  let (s, rs) := c.reaches c.s a
  match rs.findSome? (fun (_, m, r) => match r with | .forbidden d => some (m, d) | _ => none) with
  | some (m, d) => c.s0.violate d c.g.grid c.core c.slot (lowest m c.g.w) c.pc
  | none =>
    let s := rs.foldl (fun s (f, m, r) =>
      match r with
      | .reach b key seq bad =>
        let s := c.updG s (fun g =>
          let g := g.readBy m c.g.nextId key 1 seq
          if bad then
            g.updLanes m (fun _ x => { x with deferred := x.deferred ++
              [{ op := none, id := g.nextId, code := 0x13, fpc := c.pc, faddr := f.UP a + 0x4B, detail := 0, rs := false }] })
          else g)
        c.lnchIssue s f m (reachScope b) (.record c.g.nextId (f.UP a) f.id d (lowest m c.g.w)) (.uni d 1)
      | _ => s) (c.updG s (fun g => { g with nextId := g.nextId + 1 }))
    c.after s (rs.flatMap (fun (_, m, r) =>
      match r with
      | .fault code va dt => (m.list c.g.w).map (fun l => (l, code, va, dt))
      | _ => []))

/-! ## pwr, tm, dbg (R318 to R321) -/

/-- A class request of a grid leaves for the dispatchers of both dies (R161). -/
def State.requestClass (s : State) (grid : Word) (k : Nat) : State :=
  { s with classRequests := s.classRequests ++ [{ die := 0, grid := grid, cls := k }, { die := 1, grid := grid, cls := k }] }

/-- A uniform result of the context, once for each frame. -/
def ctxUni (h : Head) (d : BitVec 5) (f : Ctx → Word) : State → Host.Outcome State Fault Refusal :=
  runWord h [.sw d 1] .none noWait (fun c => c.updG c.s (fun g => c.frames.foldl (fun g (fr, _) => g.setU fr.id d.toNat (f c)) g))

/-- tm.wtill and tm.wrel: each lane whose target has not come waits outside the vote (R320). -/
def Ctx.timeWait (c : Ctx) (t : Frame → DWord) : State :=
  c.updG c.s (fun g => g.updLanes c.act (fun l x =>
    let due := t (c.g.frm l)
    if due.toNat ≤ c.now.toNat then x else { x with run := .time due.toNat }))

/-- A partition stops, for a cause: a breakpoint, dbg.brk or a DSTOP write; no fault stops one, and each stop overwrites DCAUSE (R170, R171; DESIGN
CHOICE, log 20). -/
def State.stopPartition (s : State) (core part cause : Nat) : State :=
  s.updCore core (fun k => { k with dstop := k.dstop ||| BitVec.ofNat 8 (2 ^ part), dcause := BitVec.ofNat 64 (cause + 8 * part) })

/-- PROGn of a function grows (R168, R169, R321). -/
def State.addProgress (s : State) (fn n : Nat) (x : Word) : State :=
  s.updFn fn (fun f => { f with progs := f.progs.modify n (· + x.setWidth 64) })

/-! ## sys (R322 to R324, R344) -/

/-- DEVID (R19). -/
def State.devid (s : State) : DWord := BitVec.ofNat 64 (Config.part * 65536 + s.step.toNat * 256 + s.form)
/-- DEVCAP (R19). -/
def State.devcap (s : State) : DWord :=
  BitVec.ofNat 64 ((if s.form = 2 then 32 else 0) * 2 ^ 40 + 8 * 2 ^ 32 + 128 * 2 ^ 24 + 96 * 2 ^ 16 + 2 * 2 ^ 8 + 18)
/-- MEMCAP (R112). -/
def memcap : DWord := BitVec.ofNat 64 (512 * 2 ^ 40 + 64 * 2 ^ 32 + 16 * 2 ^ 24 + 6 * 2 ^ 20 + 5 * 2 ^ 16 + 3 * 2 ^ 12 + 5 * 2 ^ 8 + 7)
/-- The power limit of the form in watts (R20). -/
def State.limw (s : State) : Nat := if s.form = 2 then 2800 else 2600
/-- PWRST (R157). -/
def State.pwrst (s : State) : DWord := BitVec.ofNat 64 (s.draww.toNat * 2 ^ 32 + s.limw * 2 ^ 16 + s.cap)
/-- The value of a selector of sys.rdid (R323). -/
def State.identity (s : State) (sel : Word) : DWord :=
  match sel.toNat with
  | 0 => s.devid
  | 1 => s.devcap
  | 2 => memcap
  | 3 => s.pwrst
  | _ => 0

/-- The spilled registers among v0, v6 and v7 of the handler frames that sys.tret leaves (R81, R344). -/
def Ctx.tretSpilled (c : Ctx) : List (Nat × Nat) :=
  c.frames.flatMap (fun (f, _) => if f.handler.isSome then ([0, 6, 7].filter (fun r => f.tag r == .spilled)).map (fun r => (f.id, r)) else [])

/-- v0, v6 or v7 of a handler frame is not there yet (R344). -/
def Ctx.tretBusy (c : Ctx) : Bool :=
  c.frames.any (fun (f, m) => f.handler.isSome && (c.g.scoreboarded .v f.id 0 1 m || c.g.scoreboarded .v f.id 6 2 m)) || !c.tretSpilled.isEmpty

/-- v7 and v6 of a lane: where it resumes. -/
def Ctx.resumeAt (c : Ctx) (l : Nat) : DWord := c.g.laneV 7 l ++ c.g.laneV 6 l

/-- The fault of a lane at sys.tret: not in a handler frame, then the target (R326, R335, R421). -/
def Ctx.tretFault (c : Ctx) (l : Nat) : Option (Nat × Nat × DWord × Word) :=
  if !(c.g.frm l).handler.isSome then some (l, 0x12, 0, 0) else targetFault l (c.resumeAt l)

/-- A wait on address that was restarted reads its word again outside the vote (R115, R344). -/
def Group.rewait (g : Group) (l : Nat) (now : DWord) : Group :=
  match g.ops.findSome? (fun o =>
    match o.dest with
    | .wait d => (o.parts.find? (fun p => p.lead == l && p.prog == .untranslated)).map (fun p => (o, p, d))
    | _ => none) with
  | some (o, p, d) => g.startWait p d o.acq o.scope now
  | none => g

/-- sys.tret: each lane returns from its handler frame; where RS is set in its v0 the access it was entered for is reissued, else it is
abandoned (R323, R344, R345). -/
def Ctx.trapReturn (c : Ctx) : State :=
  let fs := (c.act.list c.g.w).filterMap c.tretFault
  let ok := c.clean fs
  let rs (l : Nat) : Bool := (c.g.laneV 0 l).getLsbD 10
  let s := c.updG c.s (fun g =>
    let g := (c.g.framesOf ok).foldl (fun g (_, m) => g.unwind (lowest m g.w) m 1 0 rs (some c.resumeAt)) g
    (ok.list c.g.w).foldl (fun g l => if rs l then g.rewait l c.s.ptime else g) g)
  c.raise s fs

/-- A privileged form is legal in a grid of the physical function's context only (R324). -/
def privileged (h : Head) (us : List Use) (cls : OrdClass) (wait : Ctx → Bool) (body : Ctx → State) : State → Host.Outcome State Fault Refusal :=
  runWord h us cls wait (fun c =>
    if c.s.fnOf c.g.grid = 0 then body c else c.raise c.s ((c.act.list c.g.w).map (fun l => (l, 0x12, 0, 0))))

/-- The translation caches hold no entry of a context (R96, R323). -/
def State.forget (s : State) (fn : Nat) : State := { s with tlb := s.tlb.filter (fun e => e.1 != fn) }

/-- sys.cinv issues: its lanes stall behind a release at dev, in the vote still (R44, R323). Arrivals of bar 20 hold the release. -/
def Ctx.invalidate (c : Ctx) : State :=
  let (s, m) := c.s.issueFence c.core c.slot c.pc c.act 4 false
  c.updG s (fun g => { g with arrivals := g.arrivals ++ [{ bar := 20, lanes := c.act, mark := m, count := 0, waits := false }] })

/-- A sys.cinv of a group whose release has completed: the context's entries leave the caches, and its lanes go on behind an acquire
at dev (R323). -/
def State.endInvalidation (s : State) (g : Group) : State :=
  match g.arrivals.find? (fun a => a.bar == 20 && !s.markPending a.mark) with
  | none => s
  | some a =>
    ((s.forget (s.fnOf g.grid)).updGroup g.core g.slot (fun g => { g with arrivals := g.arrivals.erase a })).addHold g.core g.slot a.lanes

/-- Every sys.cinv whose release has completed ends. -/
def State.endInvalidations (s : State) : State := s.groups.foldl State.endInvalidation s

/-- sys.tvt: the context's trap vector table, at a 64-aligned address. -/
def Ctx.setVectors (c : Ctx) (a : Nat) : State :=
  let t := (c.g.frm (lowest c.act c.g.w)).UP a
  if t.toNat % 64 = 0 then c.s.updFn (c.s.fnOf c.g.grid) (fun f => { f with tvt := t })
  else c.raise c.s ((c.act.list c.g.w).map (fun l => (l, 0x0B, t, 6)))

/-! ## The instructions -/

/-- LNCH_REC (R316). -/
def execLnchRec (h : Head) (d : BitVec 5) (a : BitVec 5) : State → Host.Outcome State Fault Refusal :=
  runWord h [.sw d 1, .pair a] .launch (fun c => c.lnchStall || c.reachLater a.toNat) (fun c => c.launchRecs d.toNat a.toNat)

/-- LNCH_TRIG (R316). -/
def execLnchTrig (h : Head) (a : BitVec 5) : State → Host.Outcome State Fault Refusal :=
  runWord h [.pair a] .launch Ctx.lnchStall (fun c => c.lnchEach (fun f => .trigger c.g.nextId (f.UP a.toNat)))

/-- LNCH_CNCL (R316). -/
def execLnchCncl (h : Head) (a : BitVec 5) : State → Host.Outcome State Fault Refusal :=
  runWord h [.s a 1] .launch Ctx.lnchStall (fun c => c.lnchEach (fun f => .cancel (f.U a.toNat)))

/-- PWR_REQ (R318). -/
def execPwrReq (h : Head) (d : BitVec 5) : State → Host.Outcome State Fault Refusal :=
  runWord h [.s d 1] .none noWait (fun c => c.frames.foldl (fun s (f, _) => s.requestClass c.g.grid ((f.U d.toNat).toNat % 8)) c.s)

/-- PWR_CLS (R318). -/
def execPwrCls (h : Head) (d : BitVec 5) : State → Host.Outcome State Fault Refusal :=
  ctxUni h d (fun c => BitVec.ofNat 32 (((c.s.team? c.g.grid c.g.team).map Team.cls).getD 0))

/-- PWR_POOL (R318). -/
def execPwrPool (h : Head) (d : BitVec 5) : State → Host.Outcome State Fault Refusal :=
  ctxUni h d (fun c => BitVec.ofNat 32 (c.s.clusters.getD (c.core / Config.coresPerCluster) Cluster.reset).pool)

/-- TM_WTILL (R320). -/
def execTmWtill (h : Head) (a : BitVec 5) : State → Host.Outcome State Fault Refusal :=
  runWord h [.pair a] .none noWait (fun c => c.timeWait (fun f => f.UP a.toNat))

/-- TM_WREL (R320). -/
def execTmWrel (h : Head) (a : BitVec 5) : State → Host.Outcome State Fault Refusal :=
  runWord h [.s a 1] .none noWait (fun c => c.timeWait (fun f => c.now + (f.U a.toNat).setWidth 64))

/-- TM_RD (R320). -/
def execTmRd (h : Head) (d : BitVec 5) : State → Host.Outcome State Fault Refusal :=
  runWord h [.pairw d] .none (fun c => !c.mid && !c.g.quiet) (fun c => c.updG c.s (fun g => c.frames.foldl (fun g (f, _) => g.setUP f.id d.toNat c.now) g))

/-- DBG_BRK (R321). -/
def execDbgBrk (h : Head) : State → Host.Outcome State Fault Refusal :=
  runWord h [] .none noWait (fun c => c.s.stopPartition c.core (c.slot / 8) 3)

/-- DBG_PROG (R321). -/
def execDbgProg (h : Head) (d : BitVec 5) (n : BitVec 4) : State → Host.Outcome State Fault Refusal :=
  runWord h [.s d 1] .none noWait (fun c => c.frames.foldl (fun s (f, _) => s.addProgress (s.fnOf c.g.grid) n.toNat (f.U d.toNat)) c.s)

/-- SYS_RDID (R323). -/
def execSysRdid (h : Head) (d : BitVec 5) (a : BitVec 5) : State → Host.Outcome State Fault Refusal :=
  runWord h [.pairw d, .s a 1] .none noWait (fun c => c.updG c.s (fun g => c.frames.foldl (fun g (f, _) => g.setUP f.id d.toNat (c.s.identity (f.U a.toNat))) g))

/-- SYS_TRET (R344). -/
def execSysTret (h : Head) : State → Host.Outcome State Fault Refusal :=
  runWord h [] .none Ctx.tretBusy Ctx.trapReturn

/-- SYS_CINV (R323). -/
def execSysCinv (h : Head) : State → Host.Outcome State Fault Refusal :=
  privileged h [] .fence noWait (fun c => c.invalidate)

/-- SYS_TVT (R323). -/
def execSysTvt (h : Head) (a : BitVec 5) : State → Host.Outcome State Fault Refusal :=
  privileged h [.pair a] .none noWait (fun c => c.setVectors a.toNat)

end Sys2Proof.Machine
end

