-- ==== Sys2Proof/Machine/Progress.lean ====
section
/-! DEFINITION. Sys2Proof/Machine/Progress.lean: the steps that a core takes between issues: the ordering machine's (R122 to R126), the
copy engine's (R107 to R110, R131, R285), grants, spills and refills (R73, R79 to R81, R360 to R363), waits that end (R115, R116, R320),
faults that are raised outside a word (R214, R338, R342), translation (R336, R369), and stops with their held completions (R170, R171). -/

namespace Sys2Proof.Machine

/-! ## Faults of a chain that would issue (R199, R210, R214, R418) -/

/-- Every lane of the path in `cur` takes a fault at a word, with the chain's first word as resume PC. -/
def State.raisePath (s : State) (code : Nat) (fpc faddr : DWord) (detail : Word) : State :=
  match s.cur with
  | none => s
  | some cu =>
    match s.group? cu.core cu.slot with
    | none => s
    | some g => s.raisePrecise cu.core cu.slot fpc cu.first ((cu.path.list g.w).map (fun l => (l, code, faddr, detail)))

/-- The start of the page that holds an address, as its walk finds it: the least page where it finds none (R96). -/
def State.pageStart (s : State) (fn : Nat) (a : DWord) : DWord :=
  let n := match s.walk fn (fun _ => none) a with | some (es, .ok ..) => levelShift (es.length - 1) | _ => 16
  BitVec.ofNat 64 (a.toNat / 2 ^ n * 2 ^ n)

/-- A fetch at an address of the chain fails: FPC is the lowest address of the chain on the failing page (R418). -/
def State.fetchFault (s : State) (code : Nat) (addr : DWord) (detail : Word) : State :=
  match s.cur.bind (fun cu => (s.group? cu.core cu.slot).map (fun g => (cu, g))) with
  | none => s
  | some (cu, g) =>
    let page := s.pageStart (s.fnOf g.grid) addr
    s.raisePath code (if page.toNat ≤ cu.first.toNat then cu.first else page) addr detail

/-- An illegal word: its lanes are those active under its guard, every lane for a long-format word or one with E = 0; with none the path
passes it (R418), as it does once earlier words of its chain have executed: the chain was checked as it issued (R214, log 24). -/
def State.illegal (s : State) (addr : DWord) (w : Word) : State :=
  match s.cur with
  | none => s
  | some cu =>
    match s.group? cu.core cu.slot with
    | none => s
    | some g =>
      let m : LaneSet := match wordGuard w with | some gd => g.active cu.path ⟨false, some gd⟩ | none => cu.path
      if m == 0 || cu.mid then s.updGroup cu.core cu.slot (fun g => g.updLanes cu.path (fun _ x => { x with pc := addr + 4 }))
      else s.raisePrecise cu.core cu.slot addr cu.first ((m.list g.w).map (fun l => (l, 0x01, 0, w)))

/-- A chain whose first word matches a breakpoint stops its partition (R171). -/
def State.breakStop (s : State) : State :=
  match s.cur with
  | none => s
  | some cu => s.stopPartition cu.core (cu.slot / 8) 2

/-! ## The copy engine (R103, R107 to R110, R131, R285) -/

/-- What keeps a side of a copy from being reached: an engine-copy DETAIL with its address, a request its access table forbids, or a
frozen master. -/
inductive CopyStop where
  | fault (detail : Nat) (addr : DWord)
  | forbidden (d : Denial)
  | frozen
  deriving DecidableEq

/-- A side of a copy: runs (key, offset in the copy, length), and what stops it, with the offsets. -/
structure CopySide where
  runs : List (Nat × Nat × Nat)
  stops : List (CopyStop × Nat)
  deriving DecidableEq

/-- A run added to a side. -/
def CopySide.run (c : CopySide) (key at_ len : Nat) : CopySide := { c with runs := c.runs ++ [(key, at_, len)] }
/-- A stop added to a side. -/
def CopySide.stop (c : CopySide) (x : CopyStop) (at_ : Nat) : CopySide := { c with stops := c.stops ++ [(x, at_)] }

/-- The device virtual range from `va` on, at offset `at_` of the copy, page by page, up to the first request that an access table forbids (R381);
`ok` says which device addresses the kind admits. A walk of the engine serves no lane, so it has no floor (R131, R370). -/
def State.deviceSide (core fn : Nat) (write : Bool) (ok : Nat → Bool) (va : DWord) (at_ n : Nat) (acc : State × CopySide) : State × CopySide :=
  (pageRuns (n / 65536 + 3) va.toNat 0 n).foldl (fun (s, c) (off, len) =>
    let a := va + BitVec.ofNat 64 off
    match s.walk fn (s.readEntry (some core)) a with
    | none => (s, c.stop .frozen (at_ + off))
    | some (es, x) =>
      let s := s.keepEntries es
      match s.judge (0x20 + fn) ⟨write, false, false⟩ len x with
      | .ok key => if ok key then (s, c.run key (at_ + off) len) else (s, c.stop (.fault 3 a) (at_ + off))
      | .fault 0x0A _ => (s, c.stop (.fault 2 a) (at_ + off))
      | .fault _ d => (s, c.stop (.fault (if d.getLsbD 6 then 4 else 1) a) (at_ + off))
      | .forbidden d =>
        match x with
        | .ok key .. => (s, (if d.pa = key then c else c.run key (at_ + off) (d.pa - key)).stop (.forbidden d) (at_ + off + (d.pa - key)))
        | _ => (s, c.stop (.forbidden d) (at_ + off))
      | .frozen => (s, c.stop .frozen (at_ + off))) acc

/-- The core that a scratch side names: its own, or the twin partner for s2s (R284). -/
def CopyCmd.sideCore (c : CopyCmd) (hi : Word) : Option Nat :=
  if hi = 0 then some c.core else if hi = 1 ∧ c.kind = 2 then some (if c.core % 2 = 0 then c.core + 1 else c.core - 1) else none

/-- A scratch side. -/
def State.scratchSide (s : State) (c : CopyCmd) (a : DWord) (hi : Word) : CopySide :=
  match (c.sideCore hi).bind (fun k => (s.scratchAt k c.grid c.team (a.setWidth 32) c.len).map (fun o => scratchKey k o)) with
  | some key => { runs := [(key, 0, c.len)], stops := [] }
  | none => { runs := [], stops := [(.fault 3 a, 0)] }

/-- The destination address, the slot field of a buffer replaced by the slot reserved (R285). -/
def CopyCmd.target (c : CopyCmd) : DWord := if c.cbuf.isSome then c.dst + BitVec.ofNat 64 (65536 * c.cbSlot) else c.dst

/-- HBM5, second-tier, or any address by the kind (R107, R284). -/
def hbmKey (k : Nat) : Bool := decide (k < 2 ^ 40)
/-- A second-tier address. -/
def tier2Key (k : Nat) : Bool := decide (2 ^ 40 ≤ k) && decide (k < 3 * 2 ^ 40)

/-- The source side of a command; t2h reads the second tier only (log 16). -/
def State.copySource (s : State) (c : CopyCmd) : State × CopySide :=
  let fn := c.fn
  match c.kind with
  | 1 | 2 => (s, s.scratchSide c c.src c.srcHi)
  | 3 => c.indices.zipIdx.foldl (fun acc (i, j) =>
      State.deviceSide c.core fn false (fun _ => true) (c.src + BitVec.ofNat 64 (c.stride * i)) (c.esize * j) c.esize acc) (s, ⟨[], []⟩)
  | 4 => State.deviceSide c.core fn false tier2Key c.src 0 c.len (s, ⟨[], []⟩)
  | _ => State.deviceSide c.core fn false (fun _ => true) c.src 0 c.len (s, ⟨[], []⟩)

/-- The destination side of a command. -/
def State.copyDest (s : State) (c : CopyCmd) : State × CopySide :=
  let fn := c.fn
  match c.kind with
  | 1 => State.deviceSide c.core fn true (fun _ => true) c.dst 0 c.len (s, ⟨[], []⟩)
  | 4 => State.deviceSide c.core fn true hbmKey c.dst 0 c.len (s, ⟨[], []⟩)
  | _ => (s, s.scratchSide c c.target c.dstHi)

/-- The core whose memory point a key belongs to: the one that holds the scratch location, else the engine's own (R121, R131). -/
def CopyCmd.keyCore (c : CopyCmd) (key : Nat) : Nat := if isScratchKey key then (key - 2 ^ 61) / 2 ^ 20 else c.core

/-- A run of source bytes, as a load at core scope of the engine's core that presented when the command was taken, with no floor (R131):
a byte that the command itself writes reads as it was before (DESIGN CHOICE, log 27). -/
def State.copyRead (s : State) (c : CopyCmd) (k n : Nat) : List Byte :=
  let core := c.keyCore k
  (splitUnits (n + 1) k 0 n).flatMap (fun (off, len) =>
    let u := unitOf (k + off)
    let w := s.latest u (fun w =>
      (w.cmps.contains core && decide (w.seq ≤ c.stamp)) || (w.atPoint (some core) 1 && !(w.origin == some core && decide (c.stamp < w.seq))))
    ((s.unitBytes u w).drop (k + off - u)).take len)

/-- The units of a side (key, offset in the copy, length), in order. -/
def CopySide.units (x : CopySide) : List (Nat × Nat × Nat) :=
  x.runs.flatMap (fun (k, o, len) => (splitUnits (len + 1) k 0 len).map (fun (i, l) => (k + i, o + i, l)))

/-- The source bytes of offsets [off, off + n) of a copy: those of units that were read before, and the others read now. -/
def State.copyBytes (s : State) (c : CopyCmd) (src : List (Nat × Nat × Nat)) (off n : Nat) : List Byte :=
  (src.filter (fun x => decide (x.2.1 < off + n) && decide (off < x.2.1 + x.2.2))).flatMap (fun (k, o, len) =>
    let bs := match c.got.find? (fun x => x.1 == o) with | some x => x.2 | none => s.copyRead c k len
    (bs.drop (off - o)).take (min (o + len) (off + n) - max o off))

/-- The core of the buffer that a copy fills: the twin partner's when its destination lies there (R284). -/
def CopyCmd.bufCore (c : CopyCmd) : Nat := (c.sideCore c.dstHi).getD c.core

/-- The regions of grids without a group on a core are given up there, but while a copy into one of their buffers is in flight (R102, R117). -/
def State.dropRegions (s : State) (core : Nat) : State :=
  let keeps (grid : Word) : Bool := (s.onCore core).any (fun g => g.grid == grid) ||
    s.cores.any (fun c => c.engine.any (fun x => x.grid == grid && x.cbuf.isSome && x.bufCore == core))
  s.updCore core (fun c =>
    { c with regions := c.regions.filter (fun r => keeps r.grid), ranges := c.ranges.filter (fun r => r.team.isSome || keeps r.grid) })

/-- A command leaves the engine: its buffer slot is committed, or its group's cp falls (R109), and a failure is held by the group (R339). -/
def State.copyFinish (s : State) (core : Nat) (c : CopyCmd) : State :=
  let s := s.updCore core (fun k => { k with engine := k.engine.filter (fun x => x.id != c.id) })
  let s := match c.cbuf with
    | some n => s.updBuf c.bufCore c.grid n (fun b => b.commit c.cbSlot)
    | none => s
  (s.dropRegions c.bufCore).updGroup core c.slot (fun g =>
    if g.grid == c.grid && g.team == c.team then
      let g := { g with cp := if c.cbuf.isSome then g.cp else g.cp - 1 }
      match c.fault with
      | some (d, a) => g.holdFault 0x0E c.pc a (BitVec.ofNat 32 d)
      | none => g
    else g)

/-- A command is over; its completion is held while its group's partition is stopped (R171). -/
def State.copyOver (s : State) (core : Nat) (c : CopyCmd) : State :=
  if s.stopped core c.slot then
    s.updCore core (fun k =>
      { k with engine := k.engine.map (fun x => if x.id == c.id then { c with done := true } else x)
               completions := k.completions ++ [.copy c.slot c.id] })
  else s.copyFinish core c

/-- The indices of a gather, read from the window when it is taken (R109), or what fails (R107, R285), with the errors of the read counted (R377,
R379): up to the first unit that holds an uncorrectable one. -/
def State.gatherIndices (s : State) (c : CopyCmd) : State × Except (Nat × DWord) (List Nat) :=
  let a : Word := BitVec.ofNat 32 c.index
  if c.esize < 4 ∨ 4096 < c.esize ∨ c.esize % 4 ≠ 0 ∨ 4096 < c.count ∨ 2 ^ 30 ≤ c.index then (s, .error (3, BitVec.ofNat 64 c.index))
  else
    match s.scratchAt c.core c.grid c.team a (4 * c.count) with
    | none => (s, .error (3, BitVec.ofNat 64 c.index))
    | some o =>
      let key := scratchKey c.core o
      let units := splitUnits (4 * c.count + 1) key 0 (4 * c.count)
      let bad := units.find? (fun (off, len) => s.uncorrectable (key + off) len)
      let read := (units.takeWhile (fun (off, len) => !s.uncorrectable (key + off) len)) ++ bad.toList
      let t := read.foldl (fun s (off, len) => s.noteErrors c.fn (key + off) len) s
      match bad with
      | some (off, len) =>
        let b := (s.bitErrors.filter (fun e => e.uncorrectable && decide (key + off ≤ e.key) && decide (e.key < key + off + len))).foldl (fun m e => min m (e.key - key)) (off + len)
        (t, .error (5, BitVec.ofNat 64 (c.index + b)))
      | none =>
        let bs := s.readKey (some c.core) 1 key (4 * c.count)
        (t, .ok ((List.range c.count).map (fun j => leNat ((bs.drop (4 * j)).take 4))))

/-- COPY_TAKE: the engine takes the next command in order; one into a buffer reserves its slot, and holds the queue while none is free
(R103, R131); a command of length 0 completes (R285). -/
def State.copyTake (s : State) (core : Nat) : State :=
  match (s.core core).engine.find? (fun c => !c.taken) with
  | none => s
  | some c =>
    let buf : Option (Nat × Option CBuf) := c.cbuf.map (fun n =>
      (n, (c.sideCore c.dstHi).bind (fun k => (s.region? k c.grid).bind (fun r => r.bufs.find? (fun b => b.num == n)))))
    let held := match buf with
      | some (n, some b) => decide (b.free ≤ s.keptOn c.bufCore (fun g => g.grid == c.grid) (Place.reserve n).is)
      | _ => false
    if held then s
    else
      let undeclared := match buf with | some (_, none) => true | _ => false
      let slotField := c.cbuf.isSome && c.dst.toNat / 65536 % 256 != 0
      let (s, slot) := match buf with
        | some (n, some b) =>
          (s.updBuf c.bufCore c.grid n (fun b => b.reserve 4), b.pi)
        | _ => (s, 0)
      let c := { c with taken := true, stamp := s.co, cbSlot := slot, cbuf := if undeclared then none else c.cbuf }
      let (s, gathered) := if c.kind = 3 && c.len != 0 then s.gatherIndices c else (s, .ok [])
      let c := match gathered with
        | .ok is => { c with indices := is, fault := if undeclared || slotField then some (3, c.dst) else none }
        | .error e => { c with fault := some e }
      let s := s.updCore core (fun k => { k with engine := k.engine.map (fun x => if x.id == c.id then c else x) })
      -- an undeclared buffer raised no cp at issue: give back what copyFinish takes
      let s := if undeclared then s.updGroup core c.slot (fun g => { g with cp := g.cp + 1 }) else s
      if c.len = 0 ∨ c.fault.isSome then s.copyOver core c else s

/-- The device virtual or scratch address of a source byte of a copy. -/
def CopyCmd.srcAt (c : CopyCmd) (o : Nat) : DWord :=
  if c.kind = 3 then c.src + BitVec.ofNat 64 (c.stride * c.indices.getD (o / c.esize) 0 + o % c.esize) else c.src + BitVec.ofNat 64 o

/-- The two sides of a command as they stand, with what stops it: an address that is not present anywhere in it (R110), else what comes first. -/
def State.copyPlan (s : State) (c : CopyCmd) : State × CopySide × CopySide × Option (CopyStop × Nat) :=
  let (s, src) := s.copySource c
  let (s, dst) := s.copyDest c
  let bad := src.runs.filterMap (fun (k, o, len) =>
    (s.bitErrors.find? (fun e => e.uncorrectable && decide (k ≤ e.key) && decide (e.key < k + len))).map (fun e =>
      (CopyStop.fault 5 (c.srcAt (o + (e.key - k))), o + (e.key - k))))
  let stops := src.stops ++ dst.stops ++ bad
  let absent := stops.find? (fun x => match x.1 with | .fault 4 _ => true | _ => false)
  let first := stops.foldl (fun (b : Option (CopyStop × Nat)) x => match b with | some y => if x.2 < y.2 then some x else b | none => some x) none
  (s, src, dst, match absent with | some (x, _) => some (x, 0) | none => first)

/-- Units of the destination take their bytes (R131). -/
def State.copyWrite (s : State) (c : CopyCmd) (src : List (Nat × Nat × Nat)) (units : List (Nat × Nat × Nat)) : State :=
  (units.map (fun (k, o, l) => (k, o, s.copyBytes c src o l))).foldl (fun s (k, o, bs) =>
    s.enterCmp (c.keyCore k) c.slot k bs (some ⟨0, 1, c.target + BitVec.ofNat 64 o, bs⟩)) s

/-- A taken command of the engine changed. -/
def State.updCopy (s : State) (core : Nat) (c : CopyCmd) : State :=
  s.updCore core (fun k => { k with engine := k.engine.map (fun x => if x.id == c.id then c else x) })

/-- The sectors of device memory that a copy's sides touch (R30). -/
def CopyCmd.sectors (c : CopyCmd) : List Nat :=
  let span (a n : Nat) : List Nat := (List.range ((a + n - 1) / 32 - a / 32 + 1)).map (fun j => a / 32 + j)
  (if c.kind = 3 then c.indices.flatMap (fun i => span (c.src + BitVec.ofNat 64 (c.stride * i)).toNat c.esize)
   else if c.kind = 1 ∨ c.kind = 2 then [] else span c.src.toNat c.len) ++
    (if c.kind = 1 ∨ c.kind = 4 then span c.dst.toNat c.len else [])

/-- COPY_COMPLETE and the steps of a copy before it (R109, R131): with n = 2k + 1 the source's unit k is read, with n = 2k + 2 the
destination's unit k, all of whose bytes are read, is written; with n = 0 all that is left takes place, and the last write completes the
command. What lies from a failure on is neither read nor written; a command whose request an access table forbids goes no further, and its
counter stays (R381). -/
def State.copyComplete (s : State) (core idx n : Nat) : State :=
  match (s.core core).engine[idx]? with
  | none => s
  | some c =>
    if !c.taken || c.done then s
    else
      let (s', src, dst, first) := s.copyPlan c
      let limit := match first with | some (_, o) => o | none => c.len
      let reads := src.units.filter (fun (_, o, l) => decide (o + l ≤ limit))
      let writes := dst.units.filter (fun (_, o, l) => decide (o + l ≤ limit))
      let unread := reads.filter (fun x => !c.got.any (fun y => y.1 == x.2.1))
      match n with
      | 0 =>
        match first with
        | some (.frozen, _) => s'.holdRequest (if s.frozen.contains (0x20 + c.fn) then 0x20 + c.fn else c.fn) c.grid
        | some (.forbidden d, _) => (s'.violate d c.grid core c.slot 0 c.pc).updCore core (fun k => { k with engine := k.engine.filter (fun x => x.id != c.id) })
        | some (.fault d a, o) =>
          let s' := match src.units.find? (fun (_, u, l) => decide (u ≤ o) && decide (o < u + l)) with
            | some (k, _, l) => if d = 5 then s'.noteErrors c.fn k l else s'
            | none => s'
          (s'.countSectors c.grid c.team c.sectors).copyOver core { c with fault := some (d, a) }
        | none =>
          let s' := unread.foldl (fun s (k, _, l) => s.noteErrors c.fn k l) s'
          ((s'.copyWrite c src.units (writes.filter (fun x => !c.put.contains x.2.1))).countSectors c.grid c.team c.sectors).copyOver core c
      | m + 1 =>
        if m % 2 = 0 then
          match reads[m / 2]? with
          | some (k, o, l) =>
            if unread.any (fun x => x.2.1 == o) then
              (s'.noteErrors c.fn k l).updCopy core { c with got := c.got ++ [(o, s'.copyRead c k l)] }
            else s
          | none => s
        else
          match writes[m / 2]? with
          | some (k, o, l) =>
            if c.put.contains o || unread.any (fun x => decide (x.2.1 < o + l) && decide (o < x.2.1 + x.2.2)) then s
            else (s'.copyWrite c src.units [(k, o, l)]).updCopy core { c with put := o :: c.put }
          | none => s

/-! ## Grants (R73, R360) -/

/-- The oldest request without a grant is granted when its rows and quads are free; `rows` says which of the two it must be waiting for. -/
def State.grant (s : State) (core : Nat) (p : Request → Bool) : State :=
  match (s.core core).requests.find? (fun r => !r.granted) with
  | none => s
  | some r =>
    if p r && decide (r.rows ≤ s.freeRows core) && decide (r.quads ≤ s.freeQuads core) then
      s.updCore core (fun c => { c with requests := c.requests.map (fun x =>
        if x.slot == r.slot && x.pc == r.pc && x.lanes == r.lanes then { x with granted := true } else x) })
    else s
/-- GRANULE_GRANT. -/
def State.grantRows (s : State) (core : Nat) : State := s.grant core (fun r => decide (0 < r.rows))
/-- TAG_QUAD_GRANT. -/
def State.grantQuads (s : State) (core : Nat) : State := s.grant core (fun r => decide (0 < r.quads))

/-! ## Spill and refill (R79 to R81, R361 to R363) -/

/-- A group waits for rows or tag quads. -/
def State.waitsForRows (s : State) (g : Group) : Bool := (s.core g.core).requests.any (fun r => r.slot == g.slot && !r.granted)
/-- A group waits for rows, or all its live lanes wait (R44, R79). -/
def State.waitingGroup (s : State) (g : Group) : Bool :=
  s.waitsForRows g || g.lanes.all (fun x => !x.run.live || !x.run.runnable)
/-- A group waits, or its partition is stopped, which counts as waiting (R361). -/
def State.idleGroup (s : State) (g : Group) : Bool := s.stopped g.core g.slot || s.waitingGroup g
/-- Every resident group that has not exited is so. -/
def State.coreIdle (s : State) (core : Nat) : Bool := (s.onCore core).all (fun g => g.exited || s.idleGroup g)

/-- A register of a frame is named by a word that the group is issuing. -/
def Group.issuing (g : Group) (fid r : Nat) : Bool :=
  g.chains.any (fun c => (g.framesOf c.lanes).any (fun (f, _) => f.id == fid) && c.names.any (fun (v, n) => decide (v ≤ r) && decide (r < v + n)))

/-- What the engine spills of a group: register r of frame f, or its record granule (`none`), in order (R79): among frames of equal depth, and
among current frames for one number, in the order of the group's frames (DESIGN CHOICE, log 9); a frame deeper than the spill stride allows is skipped
(R361). -/
def State.spillable (s : State) (g : Group) : List (Nat × Option Nat) :=
  match s.grid? g.grid with
  | none => []
  | some gr =>
    let t := gr.record.spillt.toNat
    let current (f : Frame) : Bool := g.lanes.any (fun x => x.run.live && x.frame == f.id)
    let held (f : Frame) (r : Nat) : Bool :=
      (match f.tag r with | .g _ => true | _ => false) && !g.scoreboarded .v f.id r 1 (~~~0) && !g.issuing f.id r
    let down (n : Nat) : List Nat := (List.range n).reverse
    let deep (fs : List Frame) : List Frame := (List.range 257).flatMap (fun d => fs.filter (fun f => f.depth == d))
    let okf := g.frames.filter (fun f => decide (256 * (f.depth + 1) ≤ t))
    if t = 0 ∨ gr.spillOff then []
    else
      ((deep (okf.filter (fun f => !current f))).flatMap (fun f =>
        ((down f.nv).filter (held f)).map (fun r => (f.id, some r)) ++ (if f.depth != 0 && !f.recSpilled then [(f.id, none)] else []))) ++
      (down 32).flatMap (fun r => (okf.filter (fun f => current f && decide (r < f.nv) && held f r)).map (fun f => (f.id, some r)))

/-- The victim for a request of a group (R79): among groups that wait or are ready, that have something to spill and no refill in progress. -/
def State.victim (s : State) (core : Nat) (ready : BitVec 64) (grid : Word) (team : Nat) : Option Group :=
  let refilling (g : Group) : Bool := (s.core core).requests.any (fun r => r.slot == g.slot && r.lanes == 0 && r.granted)
  let cands := (s.onCore core).filter (fun g =>
    !g.exited && !s.stopped core g.slot && (s.waitingGroup g || ready.getLsbD g.slot) && !refilling g && !(s.spillable g).isEmpty)
  let others := cands.filter (fun g => g.grid != grid || g.team != team)
  if others.isEmpty then
    cands.foldl (fun (b : Option Group) g => match b with | none => some g | some x => if x.rank < g.rank || (x.rank == g.rank && x.slot < g.slot) then some g else b) none
  else
    others.foldl (fun (b : Option Group) g => match b with | none => some g | some x => if x.granules < g.granules || (x.granules == g.granules && g.slot < x.slot) then some g else b) none

/-- The spill region of a thread (R80). -/
def Lane.spillBase (x : Lane) (r : LaunchRecord) (depth : Nat) : DWord :=
  r.spillb + BitVec.ofNat 64 ((x.ix.toNat + r.sx * (x.iy.toNat + r.sy * x.iz.toNat)) * r.spillt.toNat + 256 * depth)

/-- The words of a record granule (R68): s0 to s14 of its frame, of which those that the frame has not are free bytes (log 9), and the reserved word,
which holds 0 (R6). -/
def State.recordBytes (s : State) (f : Frame) : List Byte :=
  (List.range 64).map (fun i => if i / 4 = 15 then 0 else if i / 4 < f.ns then (wordLe (f.U (i / 4))).getD (i % 4) 0 else Config.recordByte s.freeCtr i)

/-- What spilling one register or record granule writes (R80), with the owner: each owner's word, or the granule in the region of the owner with the
lowest team thread index. -/
def State.spillWrites (s : State) (g : Group) (r : LaunchRecord) (f : Frame) (item : Option Nat) : List (Nat × DWord × List Byte) :=
  let owners := f.owners.list g.w
  match item with
  | some x => owners.map (fun l => (l, (g.lane l).spillBase r f.depth + BitVec.ofNat 64 (4 * x), wordLe ((g.readV f x).lane l)))
  | none =>
    ((owners.foldl (fun (b : Option Nat) l => match b with | some x => if (g.lane l).k < (g.lane x).k then some l else b | none => some l) none).map
      (fun l => (l, (g.lane l).spillBase r f.depth + 0x80, s.recordBytes f))).toList

/-- One write of a spill for an owner (R80, R363): its walk reads as a load of the owner (R370); an uncorrectable error, in the register or in what is
written over, is counted (R377, R379). -/
def State.spillWrite (s : State) (g : Group) (fn : Nat) (f : Frame) (item : Option Nat) (l : Nat) (a : DWord) (bs : List Byte) : State × Option (Access × DWord) :=
  let bad := Access.fault 0x13 (BitVec.ofNat 32 bs.length.log2)
  if (match item with | some r => g.bad.any (fun b => b.cls == 0 && b.frame == f.id && b.num == r) | none => false) then
    (s.noteLocal fn g.core 4, some (bad, a))
  else
    match s.locateBy (State.laneWalk g.core g.slot (LaneSet.one l) g.nextId) fn ⟨true, false, false⟩ a bs.length with
    | (s, .ok ks) =>
      if ks.any (fun (k, _, len) => s.uncorrectable k len) then (ks.foldl (fun s (k, _, len) => s.noteErrors fn k len) s, some (bad, a))
      else (s.putRuns ks bs, none)
    | (s, .error e) => (s, some e)

/-- One register or record granule is written out to the owners' regions; a fault leaves it and turns the grid's spill areas off (R363). -/
def State.spillOne (s : State) (g : Group) (item : Nat × Option Nat) : State :=
  match s.grid? g.grid, g.frame? item.1 with
  | some gr, some f =>
    let (s', bad) : State × Option (Nat × Access × DWord) :=
      (s.spillWrites g gr.record f item.2).foldl (fun ((s, bad) : State × Option (Nat × Access × DWord)) (l, a, bs) =>
        if bad.isSome then (s, bad)
        else
          let (s, e) := s.spillWrite g gr.fn f item.2 l a bs
          (s, e.map (fun e => (l, e)))) ({ s with freeCtr := s.freeCtr + 1 }, none)
    match bad with
    | some (l, .fault code d, a) =>
      (s'.ring gr.fn
        { grid := g.grid, team := g.number, core := g.core, slot := g.slot, lane := l, code := code, kind := 3, flags := 0, queue := gr.queue,
          fpc := 0, faddr := a, detail := d }).updGrid g.grid (fun x => { x with spillOff := true })
    | some (l, .forbidden d, _) => s'.violate d g.grid g.core g.slot l 0
    | some _ => if s.frozen.contains gr.fn then s'.holdRequest gr.fn g.grid else s'
    | none =>
      s'.updGroup g.core g.slot (fun g =>
        match item.2 with
        | some r => (g.setTag f.id r .spilled).collect
        | none => g.updFrame f.id (fun f => { f with recSpilled := true }))
  | _, _ => s

/-- Spills until the request fits, or no victim is left: `cur` is the slot of the victim, which stays the victim while it has something to
spill (R79). A spill whose write has to wait leaves the rest to a later act of the engine. -/
def State.spillFor (s : State) (core : Nat) (ready : BitVec 64) (grid : Word) (team rows : Nat) (cur : Option Nat) : Nat → State × Bool
  | 0 => (s, true)
  | n + 1 =>
    if rows ≤ s.freeRows core then (s, true)
    else
      let same := (cur.bind (s.group? core)).filter (fun g => !(s.spillable g).isEmpty)
      match same.orElse (fun _ => s.victim core ready grid team) with
      | none => (s, false)
      | some g =>
        match s.spillable g with
        | [] => (s, false)
        | x :: _ =>
          let t := s.spillOne g x
          if ((t.group? core g.slot).map t.spillable) == some (s.spillable g) then (t, true) else State.spillFor t core ready grid team rows (some g.slot) n

/-- The request of a refill names its frame and register (R81). -/
def refillKey (frame reg : Nat) : DWord := BitVec.ofNat 64 (64 * frame + reg)

/-- The word at which a lane stands or waits. -/
def Lane.wordAt (x : Lane) : DWord := match x.run with | .regroup pc _ _ => pc | .address _ => x.pc - 4 | _ => x.pc

/-- The word of a request and its lanes: of a refill's, the word whose operand it is. -/
def Group.requesting (g : Group) (r : Request) : DWord × List Nat :=
  match r.need with
  | some (pc, m) => (pc, (m &&& g.live).list g.w)
  | none => (r.pc, r.lanes.list g.w)

/-- Where a lane resumes after a fault of the rows or the refill of a word: at its chain's first word while the chain has not issued, else at the
word (R335). -/
def Group.resumes (g : Group) (l : Nat) (pc : DWord) : DWord :=
  if (g.lane l).run.runnable && !g.chains.any (fun c => c.lanes.has l) then (g.lane l).pc else pc

/-- frame-overflow for the lanes of a request; in a handler's entry it is raised during entry (R341, R362). -/
def State.overflow (s : State) (core : Nat) (r : Request) : State :=
  match s.group? core r.slot with
  | none => s
  | some g =>
    let s := s.dropRequest core r.slot r.pc r.lanes
    match g.traps.find? (fun t => t.laneSet == r.lanes) with
    | some t => s.refuseEntry core r.slot t
    | none =>
      let (pc, ls) := g.requesting r
      let s := s.updGroup core r.slot (fun g => { g with arrivals := if ls.any (fun l => !(g.lane l).run.runnable) then g.arrivals.filter (fun a => a.bar != 19) else g.arrivals })
      s.raiseEach core r.slot (ls.map (fun l => preciseLane pc (g.resumes l pc) (l, 0x05, 0, BitVec.ofNat 32 (g.lane l).fd)))

/-- Some request of a core has waited for rows for 2,048 clocks (R79). -/
def State.longWait (s : State) (core : Nat) : Bool :=
  (s.core core).requests.any (fun r => !r.granted && decide (0 < r.rows) && decide (r.since + 2048 ≤ s.clocks core))

/-- ESCAPE_SPILL (R79, R362): `ready` has the slots of the groups that are ready (R45). -/
def State.escapeSpill (s : State) (core : Nat) (ready : BitVec 64) : State :=
  match (s.core core).requests.find? (fun r => !r.granted) with
  | none => s
  | some r =>
    match s.group? core r.slot with
    | none => s
    | some g =>
      let idle := s.coreIdle core
      if r.rows ≤ s.freeRows core then (if s.freeQuads core < r.quads ∧ idle then s.overflow core r else s)
      else if !idle && !s.longWait core then s
      else
        let (s', ok) := s.spillFor core ready g.grid g.team r.rows none 4096
        if !ok && idle then s'.overflow core r else s'

/-- A refill's read (R81), whose walks are loads of the owners (R370): each owner's word and whether it met an uncorrectable error, up to the first that fails. -/
def State.refillRead (s : State) (core fn : Nat) (g : Group) (r : LaunchRecord) (f : Frame) (reg : Nat) :
    State × List (Nat × Word × Bool) × Option (Access × DWord) :=
  (f.owners.list g.w).foldl (fun (s, ws, bad) l =>
    if bad.isSome then (s, ws, bad)
    else
      let a := (g.lane l).spillBase r f.depth + BitVec.ofNat 64 (4 * reg)
      match s.locateBy (State.laneWalk core g.slot (LaneSet.one l) g.nextId) fn .read a 4 with
      | (s, .error e) => (s, ws, some e)
      | (s, .ok ks) =>
        let s := ks.foldl (fun s (k, _, n) => s.noteErrors fn k n) s
        let err := ks.any (fun (k, _, n) => s.uncorrectable k n)
        (s, ws ++ [(l, if err then 0 else leWord (ks.flatMap (fun (k, _, n) => s.readKey (some core) 4 k n)), err)], none)) (s, [], none)

/-- REFILL_COMPLETE: a spilled register's granules are taken, or requested, and its owners' words read back (R73, R81); a fault of the read is
raised on the word that needs it (`need`, with its lanes), an uncorrectable error deferred with those words 0 (R363). The words of other lanes are free (log 9). -/
def State.refill (s : State) (core slot frame reg : Nat) (need : DWord × LaneSet) : State :=
  match s.group? core slot with
  | none => s
  | some g =>
    match g.frame? frame, s.grid? g.grid with
    | some f, some gr =>
      let key := refillKey frame reg
      if f.tag reg != .spilled then s
      else if !s.roomFor core slot key 0 g.perReg 0 then s.request core slot key 0 g.perReg 0 (some need)
      else
        let (s', ws, bad) := s.refillRead core gr.fn g gr.record f reg
        match bad with
        | some (.fault code d, a) =>
          (s'.dropRequest core slot key 0).raiseEach core slot (((need.2 &&& g.live).list g.w).map (fun l => preciseLane need.1 (g.resumes l need.1) (l, code, a, d)))
        | some (.forbidden d, _) => s'.violate d g.grid core slot (lowest need.2 g.w) need.1
        | some _ => if s.frozen.contains gr.fn then s'.holdRequest gr.fn g.grid else s'
        | none =>
          let t : State := { (s'.dropRequest core slot key 0) with freeCtr := s'.freeCtr + 1 }
          t.updGroup core slot (fun g =>
            let id := g.freshSet
            let words := (List.range g.w).map (fun l => match ws.find? (fun x => x.1 == l) with | some (_, w, _) => w | none => Config.lostWord (64 * s'.freeCtr + l))
            let g := ({ g with sets := g.sets ++ [GSet.mk id words] } : Group).setTag f.id reg (.g id)
            g.updLanes (LaneSet.ofPred g.w (fun l => ws.any (fun x => x.1 == l && x.2.2))) (fun _ x =>
              { x with deferred := x.deferred ++ [{ op := none, id := g.nextId, code := 0x13, fpc := x.wordAt, faddr := x.spillBase gr.record f.depth + BitVec.ofNat 64 (4 * reg), detail := 2, rs := false }] }))
    | _, _ => s

/-! ## Waits that end (R115, R116, R320) -/

/-- A waiting lane reads its word again at its scope, as a load that issues then: a wake of a watched lane, a poll of an unwatched one, or a timeout that has passed. -/
def State.rereadWait (s : State) (core slot l : Nat) (watched timeout : Bool) : State :=
  match s.group? core slot with
  | none => s
  | some g =>
    match (g.lane l).run with
    | .address w =>
      let due := match w.deadline with | some t => decide (t ≤ s.ptime.toNat) | none => false
      match w.key with
      | none => s
      | some key =>
        if w.reading || s.stopped core slot || g.waitSpilled w.frame w.dst w.size || (if timeout then !due else w.watched != watched) then s
        else if s.uncorrectable key w.size then
          (s.noteErrors (s.fnOf g.grid) key w.size).updGroup core slot (fun g =>
            let g := (List.range (max 1 (w.size / 4))).foldl (fun g i =>
              match g.frame? w.frame with | some f => g.writeV f (w.dst + i) (LaneSet.one l) (.g (fun _ => 0)) | none => g) g
            g.updLane l (fun x => { x with run := .running, deferred := x.deferred ++ [{ op := none, id := g.nextId, code := 0x13, fpc := x.pc - 4, faddr := w.va, detail := BitVec.ofNat 32 w.size.log2, rs := false }] }))
        else
          match s.readUnit g (LaneSet.one l) g.nextId w.scope key w.size with
          | none => s
          | some (bs, seq) =>
            (s.updGroup core slot (fun g => { g.readBy (LaneSet.one l) g.nextId key w.size seq with nextId := g.nextId + 1 })).settleWait core slot l w key bs
    | _ => s

/-- The time waits that end with a lane's: every one, of any group, whose target has come (R320, R325). -/
def State.timeDue (s : State) (core slot l : Nat) : State :=
  let due (x : Lane) : Bool := match x.run with | .time t => decide (t ≤ s.ptime.toNat) | _ => false
  if (s.group? core slot).any (fun g => due (g.lane l)) then
    { s with groups := s.groups.map (fun g => { g with lanes := g.lanes.map (fun x => if due x then { x with run := .running } else x) }) }
  else s

/-! ## Deferred faults and handler entry (R338, R342) -/

/-- The first deferred fault that a lane has to take now: those of accesses before the entry of a handler for a deferred fault wait until
it has left that handler. -/
def Group.dueFault (g : Group) (l : Nat) : Option Deferred :=
  let since := (g.stack l).foldl (fun n f => match f.handler with | some h => if h.deferred then max n h.since else n | none => n) 0
  ((g.lane l).deferred.filter (fun d => decide (since ≤ d.id))).foldl (fun (b : Option Deferred) d =>
    match b with | none => some d | some x => if d.id < x.id then some d else b) none

/-- The lane stands at a chain boundary: no chain that has begun holds it, and no sys.cinv. -/
def Group.atBoundary (g : Group) (l : Nat) : Bool :=
  !g.chains.any (fun c => !c.fresh && c.lanes.has l) && !g.arrivals.any (fun a => a.bar == 20 && a.lanes.has l)

/-- DEFERRED_FAULT_RAISE: the lanes of the path of a lane that have a fault to take at this boundary take it; those with one code and one
frame enter one handler frame (R338, R342). -/
def State.raiseDeferred (s : State) (core slot l : Nat) : State :=
  match s.group? core slot with
  | none => s
  | some g =>
    let x := g.lane l
    if !x.run.runnable || !g.atBoundary l || g.wideHeld (LaneSet.one l) || s.stopped core slot then s
    else
      let ls := (List.range g.w).filter (fun k => (g.lane k).run.runnable && (g.lane k).pc == x.pc && (g.lane k).fd == x.fd && g.atBoundary k &&
        !g.wideHeld (LaneSet.one k))
      let fs := ls.filterMap (fun k => (g.dueFault k).map (fun d => (k, d)))
      if !fs.any (fun y => y.1 == l) then s
      else
        let key (y : Nat × Deferred) : Nat × Nat := (y.2.code, (g.lane y.1).frame)
        let keys := fs.foldl (fun ks y => if ks.contains (key y) then ks else ks ++ [key y]) []
        let s := s.updGroup core slot (fun g => g.updLanes (fs.foldl (fun m y => m ||| LaneSet.one y.1) 0) (fun k x =>
          { x with deferred := match fs.find? (fun y => y.1 == k) with | some (_, d) => x.deferred.erase d | none => x.deferred }))
        keys.foldl (fun s k =>
          s.takeTrap core slot
            { code := k.1, kind := 1, more := false, frame := k.2, nested := false, entry := none,
              lanes := (fs.filter (fun y => key y == k)).map (fun (j, d) =>
                let log := ((g.ops.find? (fun o => d.op == some o.id)).bind Op.log).getD 0
                { lane := j, tcode := tcodeOf d.code 1 d.rs false (if d.rs then log else 0), fpc := d.fpc, faddr := d.faddr, detail := d.detail,
                  resume := (g.lane j).pc, op := if d.rs then d.op else none }) }) s

/-- TRAP_HANDLER_ENTRY: the first fault of a group that waits to enter its handler and has room enters it. -/
def State.trapEnter (s : State) (core slot : Nat) : State :=
  match s.group? core slot with
  | none => s
  | some g =>
    match g.traps.find? (fun t =>
      match t.entry with
      | some e => s.roomFor core slot (((t.lanes.head?).map TrapLane.fpc).getD 0) t.laneSet (t.rows g.perReg) ((e.nv + 3) / 4)
      | none => false) with
    | some t => match t.entry with | some e => s.enterTrap core slot t e | none => s
    | none => s

/-! ## Translation (R336, R369) -/

/-- TRANSLATION_COMPLETE: the parts of the access in a log entry that belong to lanes of a set pass, or are found to fault. -/
def State.translateLanes (s : State) (core slot entry : Nat) (m : LaneSet) : State :=
  match s.group? core slot with
  | none => s
  | some g =>
    match g.ops.find? (fun o => o.log == some entry) with
    | none => s
    | some o =>
      ((List.range o.parts.length).foldl (fun s i =>
        if (o.parts[i]?).any (fun p => p.lanes &&& m != 0) then s.translated core slot o.id i else s) s).refuseWide core slot o.id

/-! ## Stops (R170, R171) -/

/-- DSTOP.STOP: partitions stop, in ascending order; not in recovery, where the register is not there (R412). -/
def State.dstopStop (s : State) (core : Nat) (parts : BitVec 8) : State :=
  if s.fwState = 2 then s else
  (List.range 8).foldl (fun s p => if parts.getLsbD p then s.stopPartition core p 1 else s) s

/-! ## The steps -/

/-- ILLEGAL_PACKET (R199). -/
def execIllegalPacket (addr : DWord) (slot : Nat) (kind : Nat) : State → Host.Outcome State Fault Refusal :=
  fun s => .next (s.raisePath 0x02 addr 0 (BitVec.ofNat 32 (slot % 4 + 4 * (kind % 4))))

/-- ILLEGAL_WORD (R210). -/
def execIllegalWord (addr : DWord) (w : Word) : State → Host.Outcome State Fault Refusal :=
  fun s => .next (s.illegal addr w)

/-- FETCH_FAULT (R214). -/
def execFetchFault (code : BitVec 8) (addr : DWord) (detail : Word) : State → Host.Outcome State Fault Refusal :=
  fun s => .next (s.fetchFault code.toNat addr detail)

/-- BREAKPOINT_STOP (R171). -/
def execBreakpointStop  : State → Host.Outcome State Fault Refusal :=
  fun s => .next (s.breakStop)

/-- SF_DRAIN (R122). -/
def execSfDrain (core : Nat) (slot : Nat) : State → Host.Outcome State Fault Refusal :=
  fun s => .next (s.drain core slot)

/-- PROPAGATE (R122). -/
def execPropagate (core : Nat) (idx : Nat) : State → Host.Outcome State Fault Refusal :=
  fun s => .next (s.propagate core idx)

/-- LOAD_PRESENT (R123). -/
def execLoadPresent (core : Nat) (slot : Nat) (op : Nat) (elem : Nat) : State → Host.Outcome State Fault Refusal :=
  fun s => .next (s.present core slot op elem)

/-- LOAD_BIND (R123). -/
def execLoadBind (core : Nat) (slot : Nat) (op : Nat) (elem : Nat) : State → Host.Outcome State Fault Refusal :=
  fun s => .next (s.bind core slot op elem)

/-- ATOMIC_PERFORM (R126). -/
def execAtomicPerform (core : Nat) (slot : Nat) : State → Host.Outcome State Fault Refusal :=
  fun s => .next (s.perform core slot)

/-- COPY_TAKE (R131). -/
def execCopyTake (core : Nat) : State → Host.Outcome State Fault Refusal :=
  fun s => .next (s.copyTake core)

/-- COPY_COMPLETE (R109). -/
def execCopyComplete (core : Nat) (idx : Nat) (n : Nat) : State → Host.Outcome State Fault Refusal :=
  fun s => .next (s.copyComplete core idx n)

/-- GRANULE_GRANT (R73). -/
def execGranuleGrant (core : Nat) : State → Host.Outcome State Fault Refusal :=
  fun s => .next (s.grantRows core)

/-- TAG_QUAD_GRANT (R360). -/
def execTagQuadGrant (core : Nat) : State → Host.Outcome State Fault Refusal :=
  fun s => .next (s.grantQuads core)

/-- ESCAPE_SPILL (R79). -/
def execEscapeSpill (core : Nat × BitVec 64) : State → Host.Outcome State Fault Refusal :=
  fun s => .next (s.escapeSpill core.1 core.2)

/-- REFILL_COMPLETE (R81). -/
def execRefillComplete (core : Nat) (slot : Nat) (frame : Nat) (reg : Nat × BitVec 64 × BitVec 64) : State → Host.Outcome State Fault Refusal :=
  fun s => .next (s.refill core slot frame reg.1 reg.2)

/-- WTA_WAKE (R115). -/
def execWtaWake (core : Nat) (slot : Nat) (lane : Nat) : State → Host.Outcome State Fault Refusal :=
  fun s => .next (s.rereadWait core slot lane true false)

/-- WTA_POLL (R116). -/
def execWtaPoll (core : Nat) (slot : Nat) (lane : Nat) : State → Host.Outcome State Fault Refusal :=
  fun s => .next (s.rereadWait core slot lane false false)

/-- WTA_TIMEOUT (R115). -/
def execWtaTimeout (core : Nat) (slot : Nat) (lane : Nat) : State → Host.Outcome State Fault Refusal :=
  fun s => .next (s.rereadWait core slot lane false true)

/-- TIME_WAIT_EXPIRY (R320). -/
def execTimeWaitExpiry (core : Nat) (slot : Nat) (lane : Nat) : State → Host.Outcome State Fault Refusal :=
  fun s => .next (s.timeDue core slot lane)

/-- TRIAL_DELAY_END (R169). -/
def execTrialDelayEnd (core : Nat) (slot : Nat) : State → Host.Outcome State Fault Refusal :=
  fun s => .next (s.updGroup core slot (fun g => { g with delay := 0 }))

/-- DEFERRED_FAULT_RAISE (R338). -/
def execDeferredFaultRaise (core : Nat) (slot : Nat) (lane : Nat) : State → Host.Outcome State Fault Refusal :=
  fun s => .next (s.raiseDeferred core slot lane)

/-- TRAP_HANDLER_ENTRY (R342). -/
def execTrapHandlerEntry (core : Nat) (slot : Nat) : State → Host.Outcome State Fault Refusal :=
  fun s => .next (s.trapEnter core slot)

/-- TRANSLATION_COMPLETE (R336). -/
def execTranslationComplete (core : Nat) (slot : Nat) (entry : Nat) (lanes : BitVec 64) : State → Host.Outcome State Fault Refusal :=
  fun s => .next (s.translateLanes core slot entry lanes)

/-- DSTOP_STOP (R171). -/
def execDstopStop (core : Nat) (parts : BitVec 8) : State → Host.Outcome State Fault Refusal :=
  fun s => .next (s.dstopStop core parts)

end Sys2Proof.Machine
end

