-- ==== Sys2Proof/Machine/Cut.lean ====
section
/-! DEFINITION. Sys2Proof/Machine/Cut.lean: cutting a grid into teams (R22, R23, R26 to R34, R39 to R42), placing them (R35 to R37, R102,
R137, R158 to R160), and what a finished team leaves (R30, R31, R159). -/

namespace Sys2Proof.Machine

/-! ## Tiling (R27, R28) -/

/-- A rectangular region of a space. -/
structure Box where
  ox : Nat
  oy : Nat
  oz : Nat
  nx : Nat
  ny : Nat
  nz : Nat
  deriving DecidableEq, Repr

/-- A quotient rounded up. -/
def ceilDiv (a b : Nat) : Nat := (a + b - 1) / b

/-- The even bits of a number, k of them. -/
def evenBits : Nat → Nat → Nat
  | 0, _ => 0
  | k + 1, m => m % 2 + 2 * evenBits k (m / 4)

/-- The team indices (tx, ty) of one tz in an order: 0 ROW, 1 COL, 2 MORTON (R28). -/
def traversal (order cx cy : Nat) : List (Nat × Nat) :=
  match order with
  | 1 => (List.range cx).flatMap (fun x => (List.range cy).map (fun y => (x, y)))
  | 2 =>
    let k := (max cx cy).log2 + 1
    ((List.range (4 ^ k)).map (fun m => (evenBits k m, evenBits k (m / 2)))).filter (fun p => decide (p.1 < cx) && decide (p.2 < cy))
  | _ => (List.range cy).flatMap (fun y => (List.range cx).map (fun x => (x, y)))

/-- A region tiled by a shape, its teams in dispatch order (R27, R28). -/
def tile (region : Nat) (b : Box) (qx qy qz order : Nat) : List TeamBox :=
  (List.range (ceilDiv b.nz qz)).flatMap (fun tz =>
    (traversal order (ceilDiv b.nx qx) (ceilDiv b.ny qy)).map (fun (tx, ty) =>
      let ex := min qx (b.nx - tx * qx)
      let ey := min qy (b.ny - ty * qy)
      let ez := min qz (b.nz - tz * qz)
      { region := region, tx := tx, ty := ty, tz := tz, ox := b.ox + tx * qx, oy := b.oy + ty * qy, oz := b.oz + tz * qz, ex := ex, ey := ey,
        ez := ez, clipped := decide (ex < qx) || decide (ey < qy) || decide (ez < qz) }))

/-! ## The probe shape and the allotments (R26, R39, R40, R137) -/

/-- A value clipped to a range. -/
def clip (lo hi x : Nat) : Nat := min hi (max lo x)
/-- The probe shape P (R26): TPREF clipped axis by axis. Where that gives more than TTHR threads the record is accepted and the probe is cut by P all
the same: R26 names no other limit for it (DESIGN CHOICE, log 25). -/
def LaunchRecord.px (r : LaunchRecord) : Nat := clip r.tminx r.tmaxx r.tprefx
/-- P on y. -/
def LaunchRecord.py (r : LaunchRecord) : Nat := clip r.tminy r.tmaxy r.tprefy
/-- P on z, the z extent of every team (R26). -/
def LaunchRecord.pz (r : LaunchRecord) : Nat := clip r.tminz r.tmaxz r.tprefz
/-- Teams of a probe set and a window; 0 selects 4 (R26). -/
def LaunchRecord.probeTeams (r : LaunchRecord) : Nat := if r.probe = 0 then 4 else r.probe
/-- The cores of a die in a placement mask (R135). -/
def LaunchRecord.masked (r : LaunchRecord) (core : Nat) : Bool := r.pmask.getLsbD core
/-- The cores of a die. -/
def dieCores (die : Nat) : List Nat := (List.range Config.coresPerDie).map (fun i => die * Config.coresPerDie + i)
/-- A die has a masked core. -/
def LaunchRecord.masksDie (r : LaunchRecord) (die : Nat) : Bool := (dieCores die).any r.masked
/-- The slowest non-unit axis (R39). -/
def LaunchRecord.slowAxis (r : LaunchRecord) : Nat := if 1 < r.sz then 2 else if 1 < r.sy then 1 else 0
/-- The space's extent on an axis. -/
def LaunchRecord.extent (r : LaunchRecord) (a : Nat) : Nat := if a = 2 then r.sz else if a = 1 then r.sy else r.sx

/-- The allotments of a space, ascending along its axis: one whole, or rows of height H for D dies (R39). -/
def LaunchRecord.allotments (r : LaunchRecord) (whole : Bool) (d : Nat) : List (Nat × Nat) :=
  let a := r.slowAxis
  let sa := r.extent a
  if whole then [(0, sa)]
  else
    let pa := if a = 2 then r.pz else if a = 1 then r.py else r.px
    let h := pa * max 1 (sa / (pa * 8 * d))
    (List.range (ceilDiv sa h)).map (fun i => (i * h, min h (sa - i * h)))

/-- The box of an allotment. -/
def LaunchRecord.boxOf (r : LaunchRecord) (x : Nat × Nat) : Box :=
  match r.slowAxis with
  | 2 => ⟨0, 0, x.1, r.sx, r.sy, x.2⟩
  | 1 => ⟨0, x.1, 0, r.sx, x.2, r.sz⟩
  | _ => ⟨x.1, 0, 0, x.2, r.sy, r.sz⟩

/-- A die's cut before any allotment. -/
def LaunchRecord.newCut (r : LaunchRecord) (takes : Bool) : DieCut :=
  { takes := takes, allots := [], begun := false, todo := [], nextRegion := 0, qx := r.px, qy := r.py, order := r.order, recuts := 0,
    window := [], wsize := r.probeTeams, chosen := none, moving := [], last := none, teams := 0, requested := false, ended := !takes,
    cls := r.opclass }

/-- The requests for an allotment stand in the order in which they were made; two of one step by die (R40). -/
def Grid.noteAsks (g : Grid) : Grid :=
  let asks (d : Nat) : Bool := (g.cuts[d]?).any DieCut.requested
  let old := g.askers.filter asks
  { g with askers := old ++ [0, 1].filter (fun d => asks d && !old.contains d) }

/-- A released grid is dealt out: the first allotments of its dies, all of them when it is resident, and what the dispatcher keeps
(R40, R137). A die that receives none asks for one. -/
def State.deal (s : State) (g : Grid) : Grid :=
  let r := g.record
  let dies := [0, 1].filter (fun d => ((g.cuts[d]?).map DieCut.takes).getD false)
  let nd := dies.length
  let devs := if r.reach = 2 then r.devices s.members else [s.dev]
  let me := (devs.findIdx? (· == s.dev)).getD 0
  let per := if r.reach = 2 then 2 * nd else nd
  let all := r.allotments (r.reach == 0 || (r.reach == 1 && nd == 1)) (nd * devs.length)
  let first := if r.resident then all else all.take (per * devs.length)
  let mine := (first.zipIdx.filter (fun (_, j) => decide (j / per % devs.length = me))).map Prod.fst
  let give (k : Nat) : List (Nat × Nat) := (mine.zipIdx.filter (fun (_, j) => decide (j % nd = k))).map Prod.fst
  let cuts := g.cuts.mapIdx (fun d c =>
    match dies.findIdx? (· == d) with
    | some k => { c with allots := give k, requested := (give k).isEmpty && !r.resident, ended := r.resident }
    | none => c)
  ({ g with released := true, cuts := cuts, pool := if r.resident then [] else all.drop (per * devs.length) } : Grid).noteAsks

/-! ## Windows and re-cutting (R29 to R34) -/

/-- Dispatch stops at the end of a window while re-cuts are left (R31). -/
def DieCut.holding (r : LaunchRecord) (c : DieCut) : Bool := decide (c.recuts < r.recutmax)
/-- No team is left to dispatch in what the die holds. -/
def DieCut.empty (c : DieCut) : Bool := c.todo.isEmpty && c.allots.isEmpty
/-- The die has ended its dispatch (R40). -/
def DieCut.dispatchOver (c : DieCut) : Bool := !c.takes || (c.ended && c.empty && c.chosen.isNone)

/-- The next allotment held is begun once no begun region has a team left: it is tiled with the shape and order in force; the first
gives the probe set; the last one held makes the die ask for another (R29, R40, R41). -/
def DieCut.begin (r : LaunchRecord) (c : DieCut) : DieCut :=
  match c.todo, c.allots with
  | [], a :: rest =>
    let ts := tile c.nextRegion (r.boxOf a) c.qx c.qy r.pz c.order
    { c with begun := true, allots := rest, todo := ts, nextRegion := c.nextRegion + 1, requested := c.requested || (rest.isEmpty && !c.ended),
             wsize := if c.begun then c.wsize else min r.probeTeams ts.length }
  | _, _ => c

/-- The next team is chosen (R31, R42); its number, and its place in the window. -/
def DieCut.choose (r : LaunchRecord) (c : DieCut) : DieCut :=
  if c.chosen.isSome || (c.holding r && decide (c.wsize ≤ c.window.length)) then c
  else
    let c := c.begin r
    match c.todo with
    | [] => c
    | b :: rest =>
      let m : Measured := { team := c.teams, ox := b.ox, oy := b.oy, oz := b.oz, clipped := b.clipped, finished := false, dv := 0, cy := 0, lr := none }
      { c with todo := rest, chosen := some (b, c.cls, c.teams), teams := c.teams + 1, window := if c.holding r then c.window ++ [m] else c.window }

/-- Difference of two numbers either way. -/
def absDiff (a b : Nat) : Nat := (a - b) + (b - a)

/-- The decision of a closed window: the new x and y shape and order (R32). -/
def DieCut.decision (r : LaunchRecord) (c : DieCut) : Nat × Nat × Nat :=
  let keep := (c.qx, c.qy, c.order)
  match c.window with
  | [] => keep
  | f :: _ =>
    let row := (c.window.filter (fun m => m.oy == f.oy && m.oz == f.oz)).map Measured.dv
    let dx := row.foldl max 0 - row.foldl min f.dv
    let dy := match c.window.find? (fun m => m.oy != f.oy) with | some u => absDiff f.dv u.dv | none => 0
    let whole := (c.window.filter (fun m => !m.clipped)).map Measured.cy
    let lrs := c.window.filterMap Measured.lr
    let growX := min r.tmaxx (ceilDiv (5 * c.qx) 4)
    let growX := if growX * c.qy * r.pz ≤ r.tthr then growX else c.qx
    let growY := min r.tmaxy (ceilDiv (5 * c.qy) 4)
    let growY := if growX * growY * r.pz ≤ r.tthr then growY else c.qy
    if 32 ≤ dx ∧ dy ≤ dx ∧ r.tminx * r.pz ≤ r.tthr then (r.tminx, min r.tmaxy (r.tthr / (r.tminx * r.pz)), 1)
    else if 32 ≤ dy ∧ dx < dy ∧ r.tminy * r.pz ≤ r.tthr then (min r.tmaxx (r.tthr / (r.tminy * r.pz)), r.tminy, 0)
    else if 2 ≤ whole.length ∧ 2 * whole.foldl min (whole.headD 0) ≤ whole.foldl max 0 ∧ (r.tminx < c.qx ∨ r.tminy < c.qy) then
      if r.tminx < c.qx ∧ (c.qy ≤ c.qx ∨ ¬ r.tminy < c.qy) then (max r.tminx (ceilDiv c.qx 2), c.qy, c.order)
      else (c.qx, max r.tminy (ceilDiv c.qy 2), c.order)
    else if lrs ≠ [] ∧ lrs.foldl (· + ·) 0 < 64 * lrs.length ∧ c.order ≤ 1 then (c.qx, c.qy, 2)
    else (growX, growY, c.order)

/-- A band as it is built: its region, its tz, the last team row and the last tx in it, and its rectangle. -/
structure Band where
  region : Nat
  tz : Nat
  ty : Nat
  tx : Nat
  box : Box
  deriving DecidableEq, Repr

/-- Insertion into a list in order. -/
def insertSorted {α : Type} (lt : α → α → Bool) (x : α) : List α → List α
  | [] => [x]
  | y :: r => if lt x y then x :: y :: r else y :: insertSorted lt x r
/-- A list in order. -/
def sorted {α : Type} (lt : α → α → Bool) (l : List α) : List α := l.foldl (fun acc x => insertSorted lt x acc) []
/-- Lexicographic order of lists of numbers. -/
def lexLt : List Nat → List Nat → Bool
  | a :: r, b :: q => decide (a < b) || (a == b && lexLt r q)
  | _, _ => false

/-- Undispatched teams as rectangles: the maximal runs in tx of each team row of each region (R34 step 1). -/
def bandRuns (ts : List TeamBox) : List Band :=
  (sorted (fun a b : TeamBox => lexLt [a.region, a.tz, a.ty, a.tx] [b.region, b.tz, b.ty, b.tx]) ts).foldl (fun (acc : List Band) t =>
    match acc.getLast? with
    | some b =>
      if b.region == t.region && b.tz == t.tz && b.ty == t.ty && b.tx + 1 == t.tx then
        acc.dropLast ++ [{ b with tx := t.tx, box := { b.box with nx := b.box.nx + t.ex } }]
      else acc ++ [⟨t.region, t.tz, t.ty, t.tx, ⟨t.ox, t.oy, t.oz, t.ex, t.ey, t.ez⟩⟩]
    | none => [⟨t.region, t.tz, t.ty, t.tx, ⟨t.ox, t.oy, t.oz, t.ex, t.ey, t.ez⟩⟩]) []

/-- Rectangles of consecutive team rows of one region with one x range are one band (R34 step 2). -/
def mergeRuns (rs : List Band) : List Band :=
  rs.foldl (fun (acc : List Band) r =>
    let joins (b : Band) : Bool := b.region == r.region && b.tz == r.tz && b.ty + 1 == r.ty && b.box.ox == r.box.ox && b.box.nx == r.box.nx
    if acc.any joins then acc.map (fun b => if joins b then { b with ty := r.ty, box := { b.box with ny := b.box.ny + r.box.ny } } else b)
    else acc ++ [r]) []

/-- The bands of the remainder, sorted by their origins in y, then z, then x (R34 step 3). -/
def bands (ts : List TeamBox) : List Box :=
  sorted (fun a b => lexLt [a.oy, a.oz, a.ox] [b.oy, b.oz, b.ox]) ((mergeRuns (bandRuns ts)).map Band.box)

/-- A re-cut: the tiled regions' remainder as bands under the new shape and order, each a region of its own (R34). -/
def DieCut.recut (r : LaunchRecord) (c : DieCut) (q : Nat × Nat × Nat) : DieCut :=
  let bs := bands c.todo
  { c with
    qx := q.1, qy := q.2.1, order := q.2.2, recuts := c.recuts + 1
    todo := bs.zipIdx.flatMap (fun (b, i) => tile (c.nextRegion + i) b q.1 q.2.1 r.pz q.2.2), nextRegion := c.nextRegion + bs.length }

/-- A window that is over closes with its decision; one without a change, or without a remainder, is not counted (R31, R33). -/
def DieCut.close (r : LaunchRecord) (c : DieCut) : DieCut :=
  let all := !c.window.isEmpty && c.window.all Measured.finished
  if c.holding r && all && (c.window.length == c.wsize || c.empty) then
    let q := c.decision r
    let c := if q = (c.qx, c.qy, c.order) ∨ c.empty then c else c.recut r q
    { c with window := [], wsize := r.probeTeams }
  else c

/-- A grid's cut on a die changed. -/
def State.updCut (s : State) (grid : Word) (die : Nat) (f : DieCut → DieCut) : State :=
  s.updGrid grid (fun g => ({ g with cuts := g.cuts.modify die f } : Grid).noteAsks)

/-! ## Room on a core (R36, R37, R68, R102) -/

/-- The lowest offset at which a range of a size fits whole beside the ranges in use (R102). -/
def lowestFree (rs : List ScratchRange) (size : Nat) : Option Nat :=
  let ok (o : Nat) : Bool := decide (o + size ≤ Config.scratchBytes) && rs.all (fun r => decide (o + size ≤ r.base) || decide (r.base + r.size ≤ o))
  ((0 :: rs.map (fun r => r.base + r.size)).filter ok).foldl (fun b o => match b with | some x => some (min x o) | none => some o) none

/-- A circular buffer descriptor: slots and slot size in bytes (R101). -/
def LaunchRecord.cbd (r : LaunchRecord) (n : Nat) : Option (Nat × Nat) :=
  let d := leNat ((r.scratch.drop (4 * n)).take 4)
  if d / 2 ^ 31 = 1 then some (d / 2 ^ 23 % 256 + 1, 64 * (d % 2048)) else none
/-- CACHEL of the scratch layout record. -/
def LaunchRecord.cachel (r : LaunchRecord) : Nat := leNat ((r.scratch.drop 0x40).take 2)
/-- TAGN. -/
def LaunchRecord.tagn (r : LaunchRecord) : Nat := leNat ((r.scratch.drop 0x42).take 2)
/-- STAGE. -/
def LaunchRecord.stage (r : LaunchRecord) : Nat := leNat ((r.scratch.drop 0x44).take 1)
/-- Bytes of the declared circular buffers. -/
def LaunchRecord.bufBytes (r : LaunchRecord) : Nat := (List.range 16).foldl (fun n i => match r.cbd i with | some (a, b) => n + a * b | none => n) 0
/-- Bytes of the grid regions (R101). -/
def LaunchRecord.regionBytes (r : LaunchRecord) : Nat := r.bufBytes + 256 * r.cachel + 4096 * r.stage

/-- The grid needs its regions taken on a core (R102). -/
def State.needsRegion (s : State) (g : Grid) (core : Nat) : Bool := g.record.scrl != 0 && (s.region? core g.num).isNone
/-- Bytes of a team's window (R36). -/
def windowBytes (ss : Nat) : Nat := 64 * ceilDiv ss 64

/-- A core has room for n groups of a grid and a window of SS (R37, R102). -/
def State.coreFits (s : State) (g : Grid) (core n ss : Nat) : Bool :=
  let r := g.record
  let here := s.onCore core
  let nt (x : Group) : Nat := ((s.grid? x.grid).map (fun y => y.record.nt)).getD 0
  let na (x : Group) : Nat := ((s.grid? x.grid).map (fun y => y.record.nac)).getD 0
  let rs := (s.core core).ranges
  let tags := (s.core core).regions.foldl (fun k x => k + x.tags.length) 0
  decide (here.length + n ≤ Config.partitions * Config.slotsPerPartition) && decide (n * ceilDiv r.nv 4 ≤ s.freeQuads core) &&
    decide (here.foldl (fun k x => k + nt x) 0 + n * r.nt ≤ Config.tiles) && decide (here.foldl (fun k x => k + na x) 0 + n * r.nac ≤ Config.accumulators) &&
    (let reg := s.needsRegion g core
     let size := r.regionBytes
     (!reg || decide (tags + r.tagn ≤ Config.tagEntries)) &&
       (match (if reg && size != 0 then (lowestFree rs size).map (fun o => ScratchRange.mk o size 0 g.num none :: rs) else some rs) with
        | none => false
        | some rs => ss == 0 || (lowestFree rs (windowBytes ss)).isSome))

/-! ## Where a team goes (R35, R37, R158) -/

/-- The cores of a die counted cyclically from the one after the last team's (R37). -/
def cyclicCores (die : Nat) (last : Option Nat) : List Nat :=
  let base := die * Config.coresPerDie
  let start := match last with | some l => l + 1 - base | none => 0
  (List.range Config.coresPerDie).map (fun i => base + (start + i) % Config.coresPerDie)

/-- The even cores of a die's twins, counted cyclically from the twin after the last team's. -/
def cyclicTwins (die : Nat) (last : Option Nat) : List Nat :=
  let n := Config.coresPerDie / 2
  let start := match last with | some l => (l - die * Config.coresPerDie) / 2 + 1 | none => 0
  (List.range n).map (fun i => die * Config.coresPerDie + 2 * ((start + i) % n))

/-- A plan: the cores that take groups, each with the groups' indices in the team. -/
abbrev Plan := List (Nat × List Nat)

/-- A team spans a twin (R35). -/
def LaunchRecord.spansTwin (r : LaunchRecord) (tn : Nat) : Bool := r.barrier && (decide (64 * r.w < tn) || decide (4096 < tn))

/-- The cores a team's groups go to among those that satisfy `ok` (R35, R37). -/
def State.plan (s : State) (g : Grid) (die : Nat) (last : Option Nat) (tn gcnt ss : Nat) (ok : Nat → Bool) : Option Plan :=
  let may (c : Nat) : Bool := g.record.masked c && ok c
  if g.record.spansTwin tn then
    let lo := ceilDiv gcnt 2
    ((cyclicTwins die last).find? (fun c => may c && may (c + 1) && s.coreFits g c lo ss && s.coreFits g (c + 1) (gcnt - lo) ss)).map (fun c =>
      [(c, List.range lo), (c + 1, (List.range (gcnt - lo)).map (· + lo))])
  else
    match (cyclicCores die last).find? (fun c => may c && s.coreFits g c gcnt ss) with
    | some c => some [(c, List.range gcnt)]
    | none =>
      if g.record.barrier then none
      else
        let (p, left) := ((cyclicCores die last).filter may).foldl (fun ((p, left) : Plan × Nat) c =>
          match ((List.range (min left 64 + 1)).reverse.filter (0 < ·)).find? (fun n => s.coreFits g c n ss) with
          | some n => (p ++ [(c, (List.range n).map (fun i => gcnt - left + i))], left - n)
          | none => (p, left)) ([], gcnt)
        if left = 0 then some p else none

/-- A cluster has a resident team. -/
def State.clusterUsed (s : State) (n : Nat) : Bool := s.groups.any (fun g => clusterOf g.core == n)

/-- What the placement of a team finds: cores, empty clusters to move to its pool first, or no room (R158). -/
inductive Placing where
  | cores (p : Plan)
  | move (clusters : List Nat)
  | wait
  deriving DecidableEq

/-- The placement of a team of class k, by the candidate sets of R158 in order, one set at a time: a team that goes to several cores joins no two
of them (log 25). -/
def State.placing (s : State) (g : Grid) (die : Nat) (last : Option Nat) (tn gcnt ss k : Nat) : Placing :=
  let free (c : Nat) : Bool := (s.cluster (clusterOf c)).move.isNone || s.clusterUsed (clusterOf c)
  let inPool (j c : Nat) : Bool := (s.cluster (clusterOf c)).pool == j && free c
  match s.plan g die last tn gcnt ss (inPool k) with
  | some p => .cores p
  | none =>
    match s.plan g die last tn gcnt ss (fun c => !s.clusterUsed (clusterOf c) && (s.cluster (clusterOf c)).move.isNone) with
    | some p => .move (p.foldl (fun acc x => if acc.contains (clusterOf x.1) then acc else acc ++ [clusterOf x.1]) [])
    | none =>
      match ((List.range 8).filter (fun j => decide (k < j))).findSome? (fun j => s.plan g die last tn gcnt ss (inPool j)) with
      | some p => .cores p
      | none => .wait

/-! ## Taking what a team needs (R23, R36, R37, R68, R102) -/

/-- A range of scratch taken: its old contents are gone (R102). -/
def State.takeRange (s : State) (core size : Nat) (grid : Word) (team : Option Nat) : State × Nat :=
  match lowestFree (s.core core).ranges size with
  | none => (s, 0)
  | some o =>
    let k := scratchKey core o
    let s' : State := { s with
      scratchGen := s.scratchGen + 1
      scratch := s.scratch.filter (fun x => decide (x.1 < k) || decide (k + size ≤ x.1))
      writes := s.writes.filter (fun w => decide (w.unit < k) || decide (k + size ≤ w.unit)) }
    (s'.updCore core (fun c => { c with ranges := c.ranges ++ [{ base := o, size := size, gen := s.scratchGen + 1, grid := grid, team := team }] }), o)

/-- The grid's regions and tag entries taken on a core: every buffer empty, every entry invalid (R102, R103). -/
def State.takeRegion (s : State) (g : Grid) (core : Nat) : State :=
  if !s.needsRegion g core then s
  else
    let r := g.record
    let size := r.regionBytes
    let (s, base) := if size = 0 then (s, 0) else s.takeRange core size g.num none
    let (bufs, at_) := (List.range 16).foldl (fun ((bs, o) : List CBuf × Nat) n =>
      match r.cbd n with
      | some (slots, sz) =>
        (bs ++ [{ num := n, base := o, slots := slots, size := sz, pi := 0, ci := 0, ri := 0, free := slots, filled := 0,
                  state := List.replicate slots 0, committing := [], popping := 0 }], o + slots * sz)
      | none => (bs, o)) ([], base)
    s.updCore core (fun c => { c with regions := c.regions ++
      [{ grid := g.num, base := base, size := size, bufs := bufs, cacheBase := at_, cachel := r.cachel, stageBase := at_ + 256 * r.cachel,
         stage := r.stage, tags := List.replicate r.tagn { valid := false, la := 0, sl := 0 } }] })

/-- The partition with the most free slots, the lowest on a tie, and its lowest free slot (R37). -/
def State.freeSlot (s : State) (core : Nat) : Nat :=
  let used (i : Nat) : Bool := s.groups.any (fun g => g.core == core && g.slot == i)
  let room (p : Nat) : Nat := ((List.range 8).filter (fun j => !used (8 * p + j))).length
  let best := (List.range 8).foldl (fun b p => if room b < room p then p else b) 0
  8 * best + ((List.range 8).find? (fun j => !used (8 * best + j))).getD 0

/-- A lane of a new group (R23, R68): its iteration, at the body's entry, in the kernel frame. -/
def newLane (r : LaunchRecord) (b : TeamBox) (tn k : Nat) : Lane :=
  if tn ≤ k then Lane.absent
  else
    { run := .running, pc := r.entry, fd := 0, frame := 0, phases := List.replicate 19 0, preds := 0, k := k,
      ix := BitVec.ofNat 32 (b.ox + k % b.ex), iy := BitVec.ofNat 32 (b.oy + k / b.ex % b.ey), iz := BitVec.ofNat 32 (b.oz + k / (b.ex * b.ey)),
      floors := [], seen := [], deferred := [] }

/-- A new group of a team (R43, R68). -/
def newGroup (grid : Word) (r : LaunchRecord) (b : TeamBox) (die team tn core slot gix : Nat) : Group :=
  let lanes := (List.range r.w).map (fun l => newLane r b tn (gix * r.w + l))
  let owners := LaneSet.ofPred r.w (fun l => decide (gix * r.w + l < tn))
  { core := core, slot := slot, grid := grid, team := teamKey die team, die := die, gix := gix, w := r.w, lanes := lanes,
    frames := [{ id := 0, owners := owners, depth := 0, rpc := 0, caller := none, na := 0, nv := r.nv, ns := r.ns, v := List.replicate r.nv (.u 0),
                 s := List.replicate r.ns 0, recSpilled := false, handler := none }],
    sets := [], fmode := 0, fflags := 0, rank := 0, gp := List.replicate 19 0, arrivedAt := List.replicate 19 0, exitAt := none, twinCopies := [], ld := 0, st := 0, cp := 0,
    tl := 0, ops := [], sf := [], holds := [], arrivals := [], heldFault := none, traps := [], tiles := [], accs := [], chains := [], delay := 0,
    stalls := [], evicting := none, moved := false, bad := [], badState := none, lost := 0, nextId := 1 }

/-- A team placed by a plan: regions and windows on each core, then its groups in ascending index (R36, R37, R102). -/
def State.placeTeam (s : State) (g : Grid) (die : Nat) (b : TeamBox) (team cls : Nat) (p : Plan) : State :=
  let r := g.record
  let tn := b.ex * b.ey * b.ez
  let ss := r.sf + r.si * tn
  let (s, ws) := p.foldl (fun ((s, ws) : State × List (Nat × Nat)) (core, _) =>
    let s := s.takeRegion g core
    if ss = 0 then (s, ws ++ [(core, 0)])
    else
      let (s, o) := s.takeRange core (windowBytes ss) g.num (some (teamKey die team))
      (s, ws ++ [(core, o)])) (s, [])
  let s := p.foldl (fun s (core, is) =>
    is.foldl (fun (s : State) i => { s with groups := s.groups ++ [newGroup g.num r b die team tn core (s.freeSlot core) i] }) s) s
  { s with
    stamp := s.stamp + 1
    teams := s.teams ++
      [{ grid := g.num, num := teamKey die team, die := die, box := b, tn := tn, gcnt := ceilDiv tn r.w, ss := ss, windows := ws, tp := List.replicate 19 0,
         ncnt := List.replicate 16 1, eAll := 0, eSub := 0, sectors := [], qAll := 0, qHit := 0, cyStart := none, cyEnd := none, cls := cls,
         timer := none, evicted := false, age := s.stamp + 1 }] }

/-! ## Dispatch -/

/-- A cluster that holds teams of lower classes only drops to the pool of the highest of them (R159). -/
def State.poolDrop (s : State) (n : Nat) : State :=
  let cls := s.teams.filterMap (fun t => if s.groups.any (fun g => g.grid == t.grid && g.team == t.num && clusterOf g.core == n) then some t.cls else none)
  match cls with
  | [] => s
  | _ =>
    let m := cls.foldl max 0
    if m < (s.cluster n).pool ∧ ((s.cluster n).move).isNone then s.updCluster n (fun c => { c with pool := m, move := some m }) else s
/-- The clusters of cores drop so. -/
def State.poolDrops (s : State) (cores : List Nat) : State :=
  (cores.foldl (fun acc k => if acc.contains (clusterOf k) then acc else acc ++ [clusterOf k]) []).foldl State.poolDrop s

/-- The clusters start to move to a pool (R159). -/
def State.startMoves (s : State) (cls : List Nat) (k : Nat) : State :=
  cls.foldl (fun s n => s.updCluster n (fun c => { c with move := some k })) s

/-- The team that is chosen is placed, or its clusters start to move, or it waits; none of its clusters may be moving still (R37, R42,
R158, R160). -/
def State.placeChosen (s : State) (grid : Word) (die : Nat) : State :=
  match s.grid? grid with
  | none => s
  | some g =>
    match g.cuts[die]? with
    | none => s
    | some c =>
      match c.chosen with
      | none => s
      | some (b, cls, n) =>
        if c.moving.any (fun m => (s.cluster m).move.isSome) then s
        else
          let tn := b.ex * b.ey * b.ez
          let gcnt := ceilDiv tn g.record.w
          let ss := g.record.sf + g.record.si * tn
          let k := min cls s.cap
          let put (p : Plan) : State :=
            ((s.placeTeam g die b n k p).poolDrops (p.map Prod.fst)).updCut grid die (fun c => { c with chosen := none, moving := [], last := p.getLast?.map Prod.fst })
          match s.plan g die c.last tn gcnt ss (fun x => c.moving.contains (clusterOf x) && (s.cluster (clusterOf x)).pool == k) with
          | some p => put p
          | none =>
            match s.placing g die c.last tn gcnt ss k with
            | .cores p => put p
            | .move cl => (s.startMoves cl k).updCut grid die (fun c => { c with moving := cl })
            | .wait => s

/-- Choosing and placing team after team until one finds no room or its clusters must move; for a resident grid, whose clusters are taken
as moved. The state then, the moves, and whether every team of the die was placed (R137). -/
def State.placeAll (s : State) (grid : Word) (die : Nat) : Nat → List (Nat × Nat) → State × List (Nat × Nat) × Bool
  | 0, ms => (s, ms, false)
  | fuel + 1, ms =>
    let s := match s.grid? grid with | some g => s.updCut grid die (DieCut.choose g.record) | none => s
    match ((s.grid? grid).bind (fun g => g.cuts[die]?)) with
    | none => (s, ms, false)
    | some c =>
      match c.chosen with
      | none => (s, ms, c.empty)
      | some _ =>
        let s' := s.placeChosen grid die
        let moved := ((s'.grid? grid).bind (fun g => g.cuts[die]?)).map DieCut.moving |>.getD []
        if moved.isEmpty then
          if s'.teams.length = s.teams.length then (s, ms, false) else State.placeAll s' grid die fuel ms
        else
          let k := moved.map (fun n => (n, ((s'.cluster n).move).getD 0))
          let s'' := k.foldl (fun s (n, j) => s.updCluster n (fun c => { c with pool := j, move := none })) s'
          State.placeAll s'' grid die fuel (ms ++ k)

/-- The all-at-once placement of a resident grid has begun: a team of it stands, or clusters move for it (R137, R410). -/
def Grid.placing (g : Grid) : Bool := g.record.resident && g.cuts.any (fun c => decide (0 < c.teams) || !c.moving.isEmpty)

/-- A grid may place teams: its queue is not descheduled, or its all-at-once placement has begun (R150, R410). -/
def State.queueMayPlace (s : State) (g : Grid) : Bool := !(s.queue g.fn g.queue).descheduled || g.placing

/-- The next team of a grid on a die is chosen and placed; every team of a resident grid at once (R37, R137, R150). -/
def State.dispatchOne (s : State) (grid : Word) (die : Nat) : State :=
  match s.grid? grid with
  | none => s
  | some g =>
    match g.cuts[die]? with
    | none => s
    | some c =>
      if !g.released || g.cancelSeen || !c.takes || !s.queueMayPlace g then s
      else if g.record.resident then
        if c.empty || c.moving.any (fun m => (s.cluster m).move.isSome) then s
        else
          let (s', ms, all) := (s.updCut grid die (fun c => { c with moving := [] })).placeAll grid die 65536 []
          if !all then s
          else if ms.isEmpty then s'.updGrid grid (fun g => { g with placedAll := g.cuts.all DieCut.dispatchOver })
          else (s.startMoves (ms.map Prod.fst) ((ms.head?.map Prod.snd).getD 0)).updCut grid die (fun c => { c with moving := ms.map Prod.fst })
      else (s.updCut grid die (DieCut.choose g.record)).placeChosen grid die

/-- A grid of the queue that owns the slice can place a team on the die now (R150). -/
def State.ownerPlaces (s : State) (die : Nat) : Bool :=
  match s.sliceOwner with
  | none => false
  | some (fn, q) => s.grids.any (fun g => g.fn == fn && g.queue == q && decide (s.teams.length < (s.dispatchOne g.num die).teams.length))

/-- Before a new team of a queue is placed, its units that are to be restored are (R394). -/
def State.restoresFirst (s : State) (grid : Word) : Bool :=
  match s.grid? grid with
  | some g => s.units.any (fun u => u.pending && u.fn == g.fn && u.queue == g.queue)
  | none => false

/-- TEAM_DISPATCH: in a slice the owner's teams go first, and before a queue's new teams its evicted units that are to be restored (R150, R394). -/
def State.teamDispatch (s : State) (die : Nat) (grid : Word) : State :=
  let own := match s.grid? grid, s.sliceOwner with | some g, some (fn, q) => g.fn == fn && g.queue == q | _, _ => true
  if s.restoresFirst grid || (!own && s.ownerPlaces die) then s else s.dispatchOne grid die

/-- ALLOTMENT_GRANT: the dispatcher serves the die whose request came first, or that die ends its dispatch; the root serves die d of device n as number
2n + d; a device that is not the root of a pod grid's launch waits for the arrival (R40). -/
def State.allotmentGrant (s : State) (die : Nat) (grid : Word) : State :=
  match s.grid? grid with
  | none => s
  | some g =>
    if g.record.reach = 2 ∧ !s.root ∨ g.cancelSeen then s
    else if die / 2 != s.dev && decide (2 ≤ die) then s.updGrid grid (fun g => { g with pool := g.pool.drop 1 })
    else
      match g.cuts[die % 2]? with
      | none => s
      | some c =>
        if !c.requested || g.askers.head? != some (die % 2) then s
        else
          match g.pool with
          | a :: rest =>
            (s.updGrid grid (fun g => { g with pool := rest })).updCut grid (die % 2) (fun c => { c with allots := c.allots ++ [a], requested := false })
          | [] => s.updCut grid (die % 2) (fun c => { c with requested := false, ended := true })

/-- ALLOTMENT_ARRIVAL: an allotment of a pod grid arrives from the root, or its word that none is left (length 0) (R40, R41). -/
def State.allotmentArrival (s : State) (die : Nat) (grid : Word) (lo len : Nat) : State :=
  match s.grid? grid with
  | none => s
  | some g =>
    match g.cuts[die]? with
    | none => s
    | some c =>
      if g.record.reach != 2 || !c.requested || g.askers.head? != some die || g.cancelSeen then s
      else
        s.updCut grid die (fun c =>
          if len = 0 then { c with requested := false, ended := true } else { c with requested := false, allots := c.allots ++ [(lo, len)] })

/-- CLASS_REQUEST_ARRIVAL: the oldest request on its way to a die sets the class of the teams chosen from now on; one of another device
comes through the root for a pod grid (R161). Requests of different groups reach both dies in the order of their issue (DESIGN CHOICE, log 19). -/
def State.classArrival (s : State) (die : Nat) (remote : Option (Word × Nat)) : State :=
  match remote with
  | some (grid, k) =>
    if ((s.grid? grid).map (fun g => g.record.reach)) = some 2 then s.updCut grid die (fun c => { c with cls := k % 8 }) else s
  | none =>
    match s.classRequests.find? (fun r => r.die == die) with
    | none => s
    | some r => ({ s with classRequests := s.classRequests.erase r } : State).updCut r.grid die (fun c => { c with cls := r.cls })

/-! ## What a finished team leaves (R30, R31, R102, R159) -/

/-- A team's figures (R30). CY counts the clock of its first issue and the clock of its last exit (DEDUCED, log 25). -/
def Team.measured (t : Team) (m : Measured) (now : Nat) : Measured :=
  { m with
    finished := true
    dv := if t.eAll = 0 then 0 else 256 * t.eSub / t.eAll
    cy := (match t.cyStart with | some (_, x) => now - x + 1 | none => 0)
    lr := if t.qAll = 0 then none else some (256 * t.qHit / t.qAll) }

/-- Nothing of a group is outstanding: its slot can be given up. -/
def State.drained (s : State) (g : Group) : Bool :=
  g.ops.isEmpty && g.sf.isEmpty && !(s.core g.core).array.any (fun m => m.slot == g.slot) &&
    !(s.core g.core).engine.any (fun c => c.slot == g.slot && c.grid == g.grid && c.team == g.team && c.cbuf.isNone)

/-- A team is finished: its figures are recorded and its window may close (R30, R31). The clock is that of the cluster of its first issue. -/
def State.finishTeam (s : State) (t : Team) : State :=
  let now := (t.cyStart.map (fun (n, _) => (s.cluster n).cyc10 / 10)).getD 0
  let s := s.updTeam t.grid t.num (fun t => { t with cyEnd := some now })
  match s.grid? t.grid with
  | none => s
  | some g =>
    s.updCut t.grid t.die (fun c =>
      DieCut.close g.record { c with window := c.window.map (fun (m : Measured) => if m.team == t.number then t.measured m now else m) })

/-- A finished team leaves its cores: slots, windows, and the grid's regions on a core that its last team leaves (R102). What a group that has exited
holds is free only then, with the whole team (DESIGN CHOICE, log 25). -/
def State.leaveTeam (s : State) (t : Team) : State :=
  let gs := s.groups.filter (fun g => g.grid == t.grid && g.team == t.num)
  let s := { s with
    groups := s.groups.filter (fun g => !(g.grid == t.grid && g.team == t.num))
    teams := s.teams.filter (fun x => !(x.grid == t.grid && x.num == t.num)) }
  let cores := gs.foldl (fun acc g => if acc.contains g.core then acc else acc ++ [g.core]) []
  let s := cores.foldl (fun (s : State) k =>
    (s.updCore k (fun c =>
      { c with
        requests := c.requests.filter (fun r => !gs.any (fun g => g.core == k && g.slot == r.slot))
        ranges := c.ranges.filter (fun r => !(r.grid == t.grid && r.team == some t.num)) })).dropRegions k) s
  s.poolDrops cores

/-- Every resident team whose groups have all exited finishes, and leaves once nothing of it is outstanding (R30). -/
def State.finishTeams (s : State) : State :=
  s.teams.foldl (fun s t =>
    let gs := s.groups.filter (fun g => g.grid == t.grid && g.team == t.num)
    if t.evicted || gs.isEmpty || !gs.all Group.exited then s
    else
      let s := if t.cyEnd.isNone then s.finishTeam t else s
      if gs.all s.drained then s.leaveTeam t else s) s

/-! ## The steps -/

/-- TEAM_DISPATCH (R37). -/
def execTeamDispatch (die : Nat) (grid : Word) : State → Host.Outcome State Fault Refusal := fun s => .next (s.teamDispatch die grid)

/-- ALLOTMENT_GRANT (R40). -/
def execAllotmentGrant (die : Nat) (grid : Word) : State → Host.Outcome State Fault Refusal := fun s => .next (s.allotmentGrant die grid)

/-- ALLOTMENT_ARRIVAL (R41). -/
def execAllotmentArrival (die : Nat) (grid : Word) (lo len : Nat) : State → Host.Outcome State Fault Refusal :=
  fun s => .next (s.allotmentArrival die grid lo len)

/-- CLASS_REQUEST_ARRIVAL (R161). -/
def execClassRequestArrival (die : Nat × Option (Word × Nat)) : State → Host.Outcome State Fault Refusal :=
  fun s => .next (s.classArrival die.1 die.2)

end Sys2Proof.Machine
end

