-- ==== Sys2Proof/Machine/Frontend.lean ====
section
/-! DEFINITION. Sys2Proof/Machine/Frontend.lean: the front end: launch records (R101, R135 to R139, R330, R348, R398, R399, R430), the
completion of a grid (R139, R401), and kernel graphs (R140 to R147, R409). -/

namespace Sys2Proof.Machine

/-! ## What the front end reads and writes -/

/-- A read of the front end: its bytes, the address at which it fails, or held at a frozen master (R381). -/
inductive FeRead where
  | ok (bs : List Byte)
  | fail (va : DWord)
  | held
  deriving DecidableEq

/-- Virtual bytes read by the front end for a function, as a core sees them at a scope when it reads for one (R330, R377, R381). -/
def State.feRead (s : State) (core : Option Nat) (scope fn : Nat) (va : DWord) (n : Nat) : State × FeRead :=
  match s.locate core fn (0x40 + fn) ⟨false, false, false⟩ va n with
  | (s, .ok ks) =>
    let s := ks.foldl (fun s (k, _, len) => s.noteErrors fn k len) s
    match ks.find? (fun (k, _, len) => s.uncorrectable k len) with
    | some (_, off, _) => (s, .fail (va + BitVec.ofNat 64 off))
    | none => (s, .ok (ks.flatMap (fun (k, _, len) => s.readKey core scope k len)))
  | (s, .error (.forbidden d, _)) => (s.violate d 0xFFFFFFFF 0 0 0 0, .held)
  | (s, .error (.frozen, _)) => (s, .held)
  | (s, .error (_, a)) => (s, .fail a)

/-- A write of the front end takes its place at the point of a scope and goes on to the wider points as any write (R122, R139); `origin` is a
core of the die whose point it is, for die scope. -/
def State.fePut (s : State) (origin : Option Nat) (scope k : Nat) (bs : List Byte) : State :=
  (splitUnits (bs.length + 1) k 0 bs.length).foldl (fun s (off, len) =>
    let s := s.addWrite (k + off) ((bs.drop off).take len) origin [] scope
    if 6 ≤ scope then s
    else { s with feProp := s.feProp ++ [{ mark := none, seq := s.co, unit := unitOf (k + off), reach := scope, last := 6, slot := 0, shown := none }] }) s

/-- Virtual bytes written by the front end, from the point of a scope on; the address at which the write fails, if it does (R381). -/
def State.feStore (s : State) (origin : Option Nat) (scope fn : Nat) (va : DWord) (bs : List Byte) : State × Option DWord :=
  match s.locate none fn (0x40 + fn) ⟨true, false, false⟩ va bs.length with
  | (s, .ok ks) => (ks.foldl (fun s (k, off, len) => s.fePut origin scope k ((bs.drop off).take len)) s, none)
  | (s, .error (.forbidden d, _)) => (s.violate d 0xFFFFFFFF 0 0 0 0, none)
  | (s, .error (.frozen, _)) => (s, none)
  | (s, .error (_, a)) => (s, some a)

/-- A store that an event or a command asks of the front end: an uncorrectable error in what it writes over fails it (R400, R401). -/
def State.feEvent (s : State) (origin : Option Nat) (scope fn : Nat) (va : DWord) (bs : List Byte) : State × Option DWord :=
  match s.storeBad fn (0x40 + fn) va bs.length with
  | (s, true) => (s, some va)
  | (s, false) => s.feStore origin scope fn va bs

/-- A store of the front end at dev. -/
def State.feWrite (s : State) (fn : Nat) (va : DWord) (bs : List Byte) : State × Option DWord := s.feStore none 4 fn va bs

/-- A release fence of the device at a scope: a marker enters the queues of every core, and of the front end, that still propagates
(R139, R142, R154, R403). -/
def State.deviceFence (s : State) (scope : Nat) : State × Nat :=
  let (s, m) := s.newMark
  let put (q : List PropItem) : List PropItem :=
    if q.isEmpty then q else q ++ [{ mark := some m, seq := 0, unit := 0, reach := 1, last := max 2 scope, slot := 0, shown := none }]
  ({ s with cores := s.cores.map (fun c => { c with prop := put c.prop }), feProp := put s.feProp }, m)

/-- A little-endian field of a record. -/
def field (b : List Byte) (off n : Nat) : Nat := leNat ((b.drop off).take n)

/-! ## The launch record (R26, R101, R135) -/

/-- A record's fields, with its scratch layout record. -/
def LaunchRecord.parse (addr : DWord) (b scratch : List Byte) : LaunchRecord :=
  let d (o : Nat) : DWord := BitVec.ofNat 64 (field b o 8)
  let fl := field b 0xA8 4
  { addr := addr, entry := d 0, sx := field b 0x08 4, sy := field b 0x0C 4, sz := field b 0x10 4,
    tminx := field b 0x14 4, tminy := field b 0x18 4, tminz := field b 0x1C 4, tmaxx := field b 0x20 4, tmaxy := field b 0x24 4, tmaxz := field b 0x28 4,
    tprefx := field b 0x2C 4, tprefy := field b 0x30 4, tprefz := field b 0x34 4, tthr := field b 0x38 2, w := field b 0x3A 1,
    probe := field b 0x3B 1, recutmax := field b 0x3C 1 % 8, order := field b 0x3D 1 % 4, nt := field b 0x3E 1, nac := field b 0x3F 1,
    sf := field b 0x40 4, si := field b 0x44 4, nv := field b 0x48 1, ns := field b 0x49 1, opclass := field b 0x4A 1, reach := field b 0x4B 1,
    spillb := d 0x50, spillt := d 0x58, start := d 0x60, args := d 0x68, scrl := d 0x70, evaddr := d 0x78, evval := d 0x80,
    evop := field b 0x88 1, evscope := field b 0x89 1, pmask := BitVec.ofNat 192 (field b 0x90 24), barrier := fl.testBit 0, resident := fl.testBit 1,
    twin := fl.testBit 2, devmask := BitVec.ofNat 128 (field b 0xB0 16), node := d 0xC0, scratch := scratch }

/-- A reserved field of a record is nonzero (cause 0x01). -/
def recordReserved (b : List Byte) : Bool :=
  field b 0x3C 1 / 8 != 0 || field b 0x3D 1 / 4 != 0 || field b 0x4C 4 != 0 || field b 0x8A 6 != 0 || field b 0xA8 4 / 8 != 0 || field b 0xAC 4 != 0 ||
    field b 0xC8 56 != 0

/-- The limits of R21, R26, R80, R135 and R137 hold (cause 0x02). -/
def LaunchRecord.withinLimits (r : LaunchRecord) : Bool :=
  let ax (n : Nat) : Bool := decide (1 ≤ n) && decide (n ≤ 2 ^ 31 - 1)
  let cap := if r.twin then min (128 * r.w) 8192 else 64 * r.w
  ax r.sx && ax r.sy && ax r.sz && decide (r.sx * r.sy * r.sz ≤ 2 ^ 40) &&
    decide (1 ≤ r.tminx) && decide (1 ≤ r.tminy) && decide (1 ≤ r.tminz) && decide (r.tminx ≤ r.tmaxx) && decide (r.tminy ≤ r.tmaxy) &&
    decide (r.tminz ≤ r.tmaxz) && decide (r.tminx * r.tminy * r.tminz ≤ r.tthr) && ax r.tmaxx && ax r.tmaxy && ax r.tmaxz &&
    decide (1 ≤ r.tprefx) && decide (1 ≤ r.tprefy) && decide (1 ≤ r.tprefz) && [16, 32, 64].contains r.w && decide (1 ≤ r.tthr) && decide (r.tthr ≤ cap) &&
    decide (r.probe ≤ 64) && decide (r.order ≤ 2) && decide (r.nt ≤ 8) && decide (r.nac ≤ 4) && decide (r.sf ≤ 524288) && decide (r.si ≤ 524288) &&
    decide (r.sf + r.si * r.tthr ≤ 524288) && decide (1 ≤ r.nv) && decide (r.nv ≤ 32) && decide (r.ns ≤ 32) && decide (r.opclass ≤ 7) &&
    decide (r.reach ≤ 2) && decide (r.spillt.toNat % 256 = 0) && decide (r.evop ≤ 2) && decide (3 ≤ r.evscope) && decide (r.evscope ≤ 6) &&
    r.pmask != 0 && decide (r.entry.toNat % 12 = 0) && !(r.resident && r.recutmax != 0)

/-- The scratch layout record keeps its limits and the total of R101 (cause 0x06). -/
def LaunchRecord.layoutOk (r : LaunchRecord) : Bool :=
  r.scrl == 0 ||
    ((List.range 16).all (fun n =>
        let d := field r.scratch (4 * n) 4
        d / 2 ^ 11 % 2 ^ 12 == 0 && (d / 2 ^ 31 == 0 || (decide (1 ≤ d % 2048) && decide (d % 2048 ≤ 1024)))) &&
      decide (r.cachel ≤ 2048) && decide (r.tagn ≤ 512) && decide (r.stage ≤ 128) && field r.scratch 0x45 59 == 0 &&
      decide (r.regionBytes + r.sf + r.si * r.tthr ≤ 524288))

/-- Devices form a pod with this one. -/
def State.inPod (s : State) : Bool := s.members != BitVec.ofNat 128 (2 ^ s.dev)

/-- Pod reach finds a pod, present devices, and routes to them (cause 0x07). -/
def State.reachOk (s : State) (r : LaunchRecord) : Bool :=
  r.reach != 2 ||
    (s.inPod && (r.devmask == 0 || ((r.devmask &&& ~~~s.members) == 0)) && !(r.devices s.members).isEmpty && !(r.devices s.members).any s.lostPeers.contains)

/-- The dies of this device that a launch goes to (R39, R317). -/
def LaunchRecord.dies (r : LaunchRecord) (core : Option Nat) : List Nat :=
  let ds := [0, 1].filter r.masksDie
  if r.reach = 0 ∧ ds.length = 2 then [match core with | some c => c / Config.coresPerDie | none => 0] else ds

/-- The largest team fits the idle masked cores of each taking-part die, for BARRIER = 0 counted by the sums of their capacities (cause 0x03, R348). -/
def LaunchRecord.demandOk (r : LaunchRecord) (dies : List Nat) : Bool :=
  let g := ceilDiv r.tthr r.w
  let fits (n : Nat) : Bool :=
    decide (n ≤ 64) && decide (n * ceilDiv r.nv 4 ≤ Config.quads) && decide (n * r.nt ≤ Config.tiles) && decide (n * r.nac ≤ Config.accumulators)
  dies.all (fun d =>
    let cs := (dieCores d).filter r.masked
    if r.barrier && !r.spansTwin r.tthr then fits g && !cs.isEmpty
    else if r.barrier then fits (ceilDiv g 2) && cs.any (fun c => c % 2 == 0 && cs.contains (c + 1))
    else decide (g ≤ 64 * cs.length) && decide (g * ceilDiv r.nv 4 ≤ Config.quads * cs.length) && decide (g * r.nt ≤ Config.tiles * cs.length) &&
      decide (g * r.nac ≤ Config.accumulators * cs.length))

/-- A grid at its acceptance. -/
def newGrid (num : Word) (fn queue : Nat) (iss : Issuer) (r : LaunchRecord) (dies : List Nat) : Grid :=
  { num := num, fn := fn, queue := queue, issuer := iss, record := r, released := false, cuts := [r.newCut (dies.contains 0), r.newCut (dies.contains 1)],
    askers := [], pool := [], cancelled := none, cancelSeen := false, asked := none, passed := false, reporters := [], records := 0, others := 0, recorders := [], partDone := false, fenceMarks := [],
    fenced := false, spillOff := false, gridTP := 0, arrivedDevs := [], completing := false, placedAll := false }

/-- Every team of a resident grid is placed at once on the idle device, or on each that takes part (cause 0x04, R137). -/
def State.residentOk (s : State) (r : LaunchRecord) (dies : List Nat) : Bool :=
  if !r.resident then true
  else
    let g := newGrid 0 0 0 (.command 0 0 0) r dies
    let idle : State := { s with
      groups := [], teams := [], cores := List.replicate Config.cores Core.reset, cap := 7, grids := [],
      clusters := List.replicate Config.clusters { Cluster.reset with pool := r.opclass } }
    (if r.reach = 2 then r.devices s.members else [s.dev]).all (fun n =>
      let on : State := { idle with dev := n }
      dies.all (fun d => (State.placeAll { on with grids := [on.deal g] } 0 d 65536 []).2.2))

/-! ## Accepting a launch (R135, R136, R398, R399) -/

/-- The first check a record fails, as its cause and FADDR. -/
def State.refusal (s : State) (r : LaunchRecord) (raw : List Byte) (dies : List Nat) : Option (Nat × DWord) :=
  if recordReserved raw then some (0x01, r.addr)
  else if !r.withinLimits then some (0x02, r.addr)
  else if !r.layoutOk then some (0x06, r.scrl)
  else if !s.reachOk r then some (0x07, r.addr)
  else if !r.demandOk dies then some (0x03, r.addr)
  else if !s.residentOk r dies then some (0x04, r.addr)
  else none

/-- The outcome of reading and checking a launch. -/
inductive Checked where
  | held
  | refused (cause : Nat) (faddr : DWord)
  | ok (r : LaunchRecord)
  deriving DecidableEq

/-- A launch record and its scratch layout record are read whole, for a thread's launch as loads of its core at the scope of the reach
(R135, R330), and checked in the order of R399. -/
def State.checkLaunch (s : State) (core : Option Nat) (fn : Nat) (addr : DWord) : State × Checked :=
  if addr.toNat % 64 ≠ 0 then (s, .refused 0x05 addr)
  else
    match s.feRead core 4 fn addr 256 with
    | (s, .held) => (s, .held)
    | (s, .fail a) => (s, .refused 0x05 a)
    | (s, .ok b) =>
      let scope := if core.isNone then 4 else match (b.getD 0x4B 0).toNat with | 0 => 3 | 1 => 4 | 2 => 5 | _ => 6
      match s.feRead core scope fn addr 256 with
      | (s, .held) => (s, .held)
      | (s, .fail a) => (s, .refused 0x05 a)
      | (s, .ok raw) =>
        let scrl : DWord := BitVec.ofNat 64 (field raw 0x70 8)
        let done (s : State) (layout : List Byte) : State × Checked :=
          let r := LaunchRecord.parse addr raw layout
          match s.refusal r raw (r.dies core) with
          | some (c, a) => (s, .refused c a)
          | none => (s, .ok r)
        if scrl = 0 then done s []
        else if scrl.toNat % 128 ≠ 0 then (s, .refused 0x05 scrl)
        else
          match s.feRead core scope fn scrl 128 with
          | (s, .held) => (s, .held)
          | (s, .fail a) => (s, .refused 0x05 a)
          | (s, .ok layout) => done s layout

/-- The grid number of a launch sequence of this device, which it holds modulo 2^24 (R136). -/
def State.gridNumber (s : State) (q : Nat) : Word := BitVec.ofNat 8 s.dev ++ BitVec.ofNat 24 q

/-- The next launch sequence whose grid number no grid holds (R136). -/
def State.nextSeq (s : State) : Nat → Nat → Nat
  | 0, q => q
  | n + 1, q => if s.grids.any (fun g => g.num == s.gridNumber q) then State.nextSeq s n (q + 1) else q

/-- An entry of a queue comes after another (R148). -/
def entryAfter (a b : Nat) : Bool := (BitVec.ofNat 32 a - BitVec.ofNat 32 b) != 0 && !(BitVec.ofNat 32 a - BitVec.ofNat 32 b).msb

/-- The command entry that set a grid off, itself or by the nodes that it triggered; what a thread starts by lnch, no command starts (R149; DESIGN
CHOICE, log 18). -/
def Issuer.entry : Issuer → Option Nat
  | .command _ _ e => some e
  | .node _ _ e _ => e
  | _ => none
/-- The PC of the issuing lnch word, or 0 (R398). -/
def Issuer.pc : Issuer → DWord
  | .thread _ _ pc .. => pc
  | _ => 0

/-- A grid is accepted: it takes a number; a pod launch goes to the root; another is dealt out at once when its START has come and the release
of its launch, if it still propagates, is complete (R136, R138, R153, R406). -/
def State.takeLaunch (s : State) (fn queue : Nat) (iss : Issuer) (core : Option Nat) (r : LaunchRecord) (mark : Option Nat) : State × Word :=
  let q := s.nextSeq s.grids.length s.launchSeq
  let num := s.gridNumber q
  let g := newGrid num fn queue iss r (if r.reach = 2 ∧ !(r.devices s.members).contains s.dev then [] else r.dies core)
  let s := { s with launchSeq := q + 1, grids := s.grids ++ [{ g with fenceMarks := mark.toList }] }
  if r.reach = 2 then ({ s with podOut := s.podOut ++ [{ start := r.start.toNat, issuer := s.dev, seq := q }] }, num)
  else if r.start.toNat ≤ s.ptime.toNat ∧ !mark.any s.markPending then (s.updGrid num s.deal, num)
  else (s, num)

/-- A record of code launch (R398). -/
def State.launchFault (s : State) (fn : Nat) (grid : Word) (team core lane cause queue : Nat) (fpc faddr : DWord) : State :=
  s.ring fn { grid := grid, team := team, core := core, slot := 0, lane := lane, code := 0x11, kind := 3, flags := 0, queue := queue, fpc := fpc,
              faddr := faddr, detail := BitVec.ofNat 32 cause }

/-- The result of an lnch.rec reaches its register, and its access is complete (R316). -/
def State.answer (s : State) (iss : Issuer) (v : Word) : State :=
  match iss with
  | .thread core slot _ frame d _ op =>
    s.updGroup core slot (fun g =>
      if g.ops.any (fun o => o.id == op) then
        let g := g.setU frame d v
        Group.finishOps { g with ops := g.ops.map (fun (o : Op) => if o.id == op then { o with parts := o.parts.map (fun p => { p with prog := .done }) } else o) }
      else g)
  | _ => s

/-- LAUNCH_ACCEPT: the first request whose issuing release is complete, and before which no request of its core stands, is accepted or
refused (R135, R138, R317, R330, R399); a pod launch is answered when the root has taken or refused it. -/
def State.launchAccept (s : State) : State :=
  let ready (r : LaunchRequest) : Bool := match r.mark with | some m => !s.markPending m | none => true
  match (s.requests.zipIdx).find? (fun (r, i) => ready r && !(s.requests.take i).any (fun x => x.word.isSome && x.word.map LnchWord.core == r.word.map LnchWord.core)) with
  | none => s
  | some (r, i) =>
    match s.checkLaunch (r.word.map LnchWord.core) r.fn r.addr with
    | (s, .held) => s
    | (s, .refused cause a) =>
      let (pc, lane) := match r.issuer with | .thread _ _ pc _ _ lane _ => (pc, lane) | _ => (0, 0)
      ({ s with requests := s.requests.eraseIdx i }.launchFault r.fn 0xFFFFFFFF 0 ((r.word.map LnchWord.core).getD 0xFFFF) lane cause r.queue pc a).answer r.issuer 0xFFFFFFFF
    | (s, .ok rec) =>
      let (s, num) := State.takeLaunch { s with requests := s.requests.eraseIdx i } r.fn r.queue r.issuer (r.word.map LnchWord.core) rec none
      if rec.reach = 2 then s else s.answer r.issuer num

/-- LAUNCH_START_RELEASE (R406). -/
def State.startRelease (s : State) (grid : Word) : State :=
  match s.grid? grid with
  | none => s
  | some g => if g.released || g.record.reach == 2 || g.cancelSeen || decide (s.ptime.toNat < g.record.start.toNat) || g.fenceMarks.any s.markPending then s else s.updGrid grid s.deal

/-! ## Kernel graphs: the Pricking (R140 to R147, R409) -/

/-- A node as it is read. -/
structure Node where
  addr : DWord
  /-- The first node of its table (log 17). -/
  table : DWord
  raw : List Byte
  fn : Nat
  /-- The queue of the signal, and the command that set it off (R149, R430). -/
  queue : Nat
  entry : Option Nat
  deriving DecidableEq

/-- KIND. -/
def Node.kind (n : Node) : Nat := field n.raw 0 1
/-- PRED0. -/
def Node.pred0 (n : Node) : Nat := field n.raw 2 2
/-- PRED. -/
def Node.pred (n : Node) : Nat := field n.raw 4 2
/-- ITER of a LOOP node. -/
def Node.iter (n : Node) : Nat := field n.raw 0x2C 4
/-- A payload of eight bytes. -/
def Node.ptr (n : Node) (off : Nat) : DWord := BitVec.ofNat 64 (field n.raw off 8)
/-- A node of the same table by its index (R140). -/
def Node.sibling (n : Node) (i : Nat) : DWord := n.table + BitVec.ofNat 64 (64 * i)
/-- The addresses of a successor set, in listed order. -/
def Node.successors (n : Node) (b : Bool) : List DWord :=
  let count := min 6 (if b then field n.raw 6 1 / 16 else field n.raw 6 1 % 16)
  (List.range count).map (fun i => n.sibling (field n.raw ((if b then 0x14 else 0x08) + 2 * i) 2))
/-- The first node of the table that holds a node named by its address alone: which node of its table it is, is free (log 17). -/
def tableOf (fn : Nat) (a : DWord) : DWord := a - BitVec.ofNat 64 (64 * (Config.nodeIndex fn a % 4096))

/-- The check of a node as it fires: cause 0x20, then 0x21 (R398). -/
def Node.bad (n : Node) : Option Nat :=
  let zero (o k : Nat) : Bool := field n.raw o k == 0
  let payload : Bool := match n.kind with
    | 0 => zero 0x28 24
    | 1 => zero 0x32 14 && decide (field n.raw 0x30 1 ≤ 5) && decide (field n.raw 0x31 1 ≤ 1)
    | 2 => zero 0x2A 2 && zero 0x30 16
    | 3 => zero 0x28 24
    | 4 => zero 0x34 12
    | 5 => zero 0x30 16
    | _ => false
  let fl := field n.raw 1 1
  let na := field n.raw 6 1 % 16
  let nb := field n.raw 6 1 / 16
  let far (o c : Nat) : Bool := (List.range (min c 6)).any (fun i => decide (4096 ≤ field n.raw (o + 2 * i) 2))
  if !payload || fl / 2 != 0 || (fl != 0 && n.kind != 3) || !zero 7 1 then some 0x20
  else if 6 < na ∨ 6 < nb ∨ far 0x08 na ∨ far 0x14 nb ∨ n.pred0 = 0 ∨ (n.kind = 2 ∧ 4096 ≤ field n.raw 0x28 2) then some 0x21
  else none

/-- A node is abandoned (R409): PRED becomes PRED0 and ITER 0, and a record is written. -/
def State.nodeError (s : State) (n : Node) (cause : Nat) (faddr : DWord) : State :=
  let (s, _) := s.feWrite n.fn (n.addr + 4) (natLe 2 n.pred0)
  let (s, _) := if n.kind = 2 then s.feWrite n.fn (n.addr + 0x2C) (natLe 4 0) else (s, none)
  s.launchFault n.fn 0xFFFFFFFF 0 0xFFFF 0 cause n.queue 0 faddr

/-- Signals to a list of nodes are sent, in order (R143), by a node of their table or from outside it, once the markers of a release are
complete. -/
def State.sendSignals (s : State) (fn queue : Nat) (table : Option DWord) (entry : Option Nat) (marks : List Nat) (as : List DWord) : State :=
  { s with signals := s.signals ++ as.map (fun a =>
      { addr := a, table := table, fn := fn, queue := queue, marks := marks, word := none, entry := entry, pc := 0 }) }

/-- A node of its own table is signalled by a node. -/
def State.signalNode (s : State) (n : Node) (a : DWord) : State := s.sendSignals n.fn n.queue (some n.table) n.entry [] [a]

/-- A successor set of a node is released: a release fence at dev, then the signals (R142). -/
def State.releaseSet (s : State) (n : Node) (b : Bool) : State :=
  let (s, m) := s.deviceFence 4
  s.sendSignals n.fn n.queue (some n.table) n.entry [m] (n.successors b)

/-- KERNEL: the launch is accepted, a release at the scope of its reach (R138, R142). -/
def State.fireKernel (s : State) (n : Node) : State :=
  match s.checkLaunch none n.fn (n.ptr 0x20) with
  | (s, .held) => s
  | (s, .refused cause _) => s.nodeError n (0x23 + 256 * cause) n.addr
  | (s, .ok r) =>
    let (s, m) := s.deviceFence (3 + r.reach)
    (s.takeLaunch n.fn n.queue (.node n.addr n.table n.entry n.raw) none r (some m)).1

/-- v CMPOP CMPV (R141). A word of four bytes is zero-extended for eq and ne, which state no type (DESIGN CHOICE, log 26). -/
def condHolds (op size : Nat) (v c : DWord) : Bool :=
  let sv : DWord := if size = 1 then v else (v.setWidth 32).signExtend 64
  match op with
  | 0 => v == c
  | 1 => v != c
  | 2 => decide (v.toNat < c.toNat)
  | 3 => decide (c.toNat ≤ v.toNat)
  | 4 => decide (sv.toInt < c.toInt)
  | _ => decide (c.toInt ≤ sv.toInt)

/-- COND (R142). -/
def State.fireCond (s : State) (n : Node) : State :=
  let a := n.ptr 0x20
  let size := field n.raw 0x31 1
  let k := if size = 1 then 8 else 4
  if a.toNat % k ≠ 0 then s.nodeError n 0x22 a
  else
    match s.feRead none 4 n.fn a k with
    | (s, .held) => s
    | (s, .fail x) => s.nodeError n 0x22 x
    | (s, .ok bs) => s.releaseSet n (!condHolds (field n.raw 0x30 1) size (BitVec.ofNat 64 (leNat bs)) (n.ptr 0x28))

/-- The run of a LOOP node begins or ends: the queue of the signal that fired it is kept (R430). -/
def State.setLoop (s : State) (n : Node) (on : Bool) : State :=
  let rest := s.loops.filter (fun x => !(x.node == n.addr && x.fn == n.fn))
  { s with loops := if on then { node := n.addr, fn := n.fn, queue := n.queue, entry := n.entry } :: rest else rest }

/-- A node with the queue of the signal that fired it, where it is a LOOP whose run that signal began (R430). -/
def State.loopNode (s : State) (n : Node) : Node :=
  match s.loops.find? (fun x => x.node == n.addr && x.fn == n.fn) with
  | some x => { n with queue := x.queue, entry := x.entry }
  | none => n

/-- LOOP (R142). -/
def State.fireLoop (s : State) (n : Node) : State :=
  let a := n.ptr 0x20
  if a.toNat % 4 ≠ 0 then s.nodeError n 0x22 a
  else
    match s.feRead none 4 n.fn a 4 with
    | (s, .held) => s
    | (s, .fail x) => s.nodeError n 0x22 x
    | (s, .ok bs) =>
      if leNat bs = 0 then s.releaseSet n false
      else
        let (s, _) := s.feWrite n.fn (n.addr + 0x2C) (natLe 4 (leNat bs))
        (s.setLoop n true).signalNode n (n.sibling (field n.raw 0x28 2))

/-- WAIT-TIME (R142). -/
def State.fireWait (s : State) (n : Node) : State :=
  let t := (n.ptr 0x20).toNat + (if field n.raw 1 1 % 2 = 1 then s.ptime.toNat else 0)
  { s with armed := s.armed ++ [{ addr := n.addr, table := n.table, fn := n.fn, queue := n.queue, time := t, entry := n.entry, raw := n.raw }] }

/-- The store of an END node (R142); an EVADDR that is not 8-aligned fails as the store (DESIGN CHOICE, log 24). -/
def State.endStore (s : State) (n : Node) : State :=
  let a := n.ptr 0x20
  if a.toNat % 8 ≠ 0 then s.nodeError n 0x25 a
  else
    match s.feEvent none 4 n.fn a (natLe 8 (n.ptr 0x28).toNat) with
    | (s, none) => s
    | (s, some _) => s.nodeError n 0x25 a

/-- END: its store is made with a release at dev (R142). -/
def State.fireEnd (s : State) (n : Node) : State :=
  if n.ptr 0x20 = 0 then s
  else
    let (s, m) := s.deviceFence 4
    { s with ending := some { node := n.addr, table := n.table, fn := n.fn, queue := n.queue, mark := m, entry := n.entry, raw := n.raw } }

/-- What keeps an address from being HBM5, as engine-copy DETAIL (R147, R343); a request that its access table forbids is the copy's to make. -/
def State.hbmFailure (s : State) (fn : Nat) (a : DWord) : Option Nat :=
  match s.walk fn (s.readEntry none) a with
  | none => none
  | some (_, x) =>
    match s.judge (0x20 + fn) ⟨true, false, false⟩ 1 x with
    | .ok k => if k < 2 ^ 40 then none else some 3
    | .fault 0x0A _ => some 2
    | .fault _ d => some (if d.getLsbD 6 then 4 else 1)
    | _ => none

/-- The copies a PREFETCH node issues, in entry order, one for each expert (R144, R146, R147); the first entry whose place is not in HBM5,
or a read that fails, is the failure. -/
def State.prefetchCopies (s : State) (fn : Nat) (n : Node) (recs : List Byte) : State × List PrefetchCopy × Option Nat × Option DWord :=
  let (s, cs, f, bad, _) := (List.range 16).foldl (fun ((s, cs, f, bad, seen) : State × List PrefetchCopy × Option Nat × Option DWord × List Nat) i =>
    let e := field recs (4 * i) 2
    let cnt := field recs (4 * i + 2) 2
    if bad.isSome || cnt == 0 || decide (cnt < field n.raw 0x32 2) || decide (field n.raw 0x30 2 ≤ e) || seen.contains e then (s, cs, f, bad, seen)
    else
      let a := n.ptr 0x28 + BitVec.ofNat 64 (32 * e)
      match s.feRead none 4 fn a 32 with
      | (s, .ok t) =>
        if field t 0x14 4 % 2 = 1 then (s, cs, f, bad, seen)
        else
          let dst : DWord := BitVec.ofNat 64 (field t 8 8)
          match s.hbmFailure fn dst with
          | some d => (s, cs, (match f with | some x => some x | none => some d), bad, e :: seen)
          | none => (s, cs ++ [{ entry := a, src := BitVec.ofNat 64 (field t 0 8), dst := dst, len := field t 0x10 4, lost := false }], f, bad, e :: seen)
      | (s, .fail x) => (s, cs, f, some x, seen)
      | (s, .held) => (s, cs, f, some a, seen)) (s, [], none, none, [])
  (s, cs, f, bad)

/-- A PREFETCH node is over once its copies are, by its contents as it fired (R147, R409, log 17). -/
def State.prefetchOver (s : State) (p : Prefetch) : State :=
  let n : Node := ⟨p.node, p.table, p.raw, p.fn, p.queue, p.entry⟩
  match p.fail with
  | some d => s.nodeError n (0x24 + 256 * d) p.node
  | none => s.releaseSet n false

/-- PREFETCH (R147); a record that is not 64-aligned fails as a read of it (DESIGN CHOICE, log 24). -/
def State.firePrefetch (s : State) (n : Node) : State :=
  match s.feRead none 4 n.fn (n.ptr 0x20) 8 with
  | (s, .held) => s
  | (s, .fail x) => s.nodeError n 0x22 x
  | (s, .ok p) =>
    let rec_ : DWord := BitVec.ofNat 64 (leNat p)
    if rec_.toNat % 64 ≠ 0 then s.nodeError n 0x22 rec_
    else
      match s.feRead none 4 n.fn rec_ 64 with
      | (s, .held) => s
      | (s, .fail x) => s.nodeError n 0x22 x
      | (s, .ok recs) =>
        match s.prefetchCopies n.fn n recs with
        | (s, _, _, some x) => s.nodeError n 0x22 x
        | (s, cs, f, none) =>
          let p : Prefetch := { node := n.addr, table := n.table, fn := n.fn, queue := n.queue, copies := cs, fail := f, entry := n.entry, raw := n.raw }
          if cs.isEmpty then s.prefetchOver p else { s with prefetches := s.prefetches ++ [p] }

/-- A node fires (R142). -/
def State.fireNode (s : State) (n : Node) : State :=
  match n.bad with
  | some c => s.nodeError n c n.addr
  | none =>
    match n.kind with
    | 0 => s.fireKernel n
    | 1 => s.fireCond n
    | 2 => s.fireLoop n
    | 3 => s.fireWait n
    | 4 => s.firePrefetch n
    | _ => s.fireEnd n

/-- A signal to a node that can be read: a body return of a LOOP, else the node counts it, and fires at the last (R142, R430). -/
def State.signalled (s : State) (n : Node) : State :=
  if n.kind = 2 ∧ 0 < n.iter then
    let (s, _) := s.feWrite n.fn (n.addr + 0x2C) (natLe 4 (n.iter - 1))
    let n' := s.loopNode n
    if 1 < n.iter then s.signalNode n' (n.sibling (field n.raw 0x28 2)) else (s.setLoop n false).releaseSet n' false
  else
    let p := (n.pred + 65535) % 65536
    let (s, _) := s.feWrite n.fn (n.addr + 4) (natLe 2 (if p = 0 then n.pred0 else p))
    if p = 0 then s.fireNode n else s

/-- NODE_SIGNAL: signals are handled one at a time (R143). An END node that has fired makes its store first; else the first signal whose
release is complete is taken (R142); none while the front end's master is frozen (R381). -/
def State.nodeSignal (s : State) : State :=
  match s.ending with
  | some e =>
    if s.markPending e.mark || s.frozen.contains (0x40 + e.fn) then s
    else State.endStore { s with ending := none } ⟨e.node, e.table, e.raw, e.fn, e.queue, e.entry⟩
  | none =>
    match (s.signals.zipIdx).find? (fun (x, _) => !x.marks.any s.markPending && !s.frozen.contains (0x40 + x.fn)) with
    | none => s
    | some (x, i) =>
      let gone (s : State) : State := { s with signals := s.signals.eraseIdx i }
      let core := (x.word.map LnchWord.core).getD 0xFFFF
      if x.addr.toNat % 64 ≠ 0 then (gone s).launchFault x.fn 0xFFFFFFFF 0 core 0 0x26 x.queue x.pc x.addr
      else
        match s.feRead none 4 x.fn x.addr 64 with
        | (s, .held) => s
        | (s, .fail _) => (gone s).launchFault x.fn 0xFFFFFFFF 0 core 0 0x26 x.queue x.pc x.addr
        | (s, .ok raw) => (gone s).signalled ⟨x.addr, x.table.getD (tableOf x.fn x.addr), raw, x.fn, x.queue, x.entry⟩

/-- WAIT_TIME_EXPIRY: the node is read again for the set that it releases; a read that fails abandons it (R142, R398, R409, log 17). -/
def State.waitExpiry (s : State) (i : Nat) : State :=
  match s.armed[i]? with
  | none => s
  | some a =>
    if s.ptime.toNat < a.time || s.frozen.contains (0x40 + a.fn) then s
    else
      match s.feRead none 4 a.fn a.addr 64 with
      | (s, .held) => s
      | (s, .ok raw) => State.releaseSet { s with armed := s.armed.eraseIdx i } ⟨a.addr, a.table, raw, a.fn, a.queue, a.entry⟩ false
      | (s, .fail x) => State.nodeError { s with armed := s.armed.eraseIdx i } ⟨a.addr, a.table, a.raw, a.fn, a.queue, a.entry⟩ 0x22 x

/-- What stops a PREFETCH copy: a failure as engine-copy DETAIL, a request that its access table forbids, or a frozen master. -/
inductive PrefetchStop where
  | fail (detail : Nat)
  | forbidden (d : Denial)
  | frozen
  deriving DecidableEq

/-- What an access that does not pass does to a PREFETCH copy. -/
def Access.prefetchStop : Access → PrefetchStop
  | .fault 0x0A _ => .fail 2
  | .fault _ d => .fail (if d.getLsbD 6 then 4 else 1)
  | .forbidden d => .forbidden d
  | _ => .frozen

/-- The bytes of a range, both of whose ends are reached page by page, or what stops it: all are read and written in one step (DESIGN CHOICE, log
27). -/
def State.prefetchMove (s : State) (fn : Nat) (c : PrefetchCopy) : State × Option PrefetchStop :=
  match s.locate none fn (0x20 + fn) .read c.src c.len with
  | (s, .error (x, _)) => (s, some x.prefetchStop)
  | (s, .ok ks) =>
    if ks.any (fun (k, _, _) => !(decide (2 ^ 40 ≤ k) && decide (k < 3 * 2 ^ 40))) then (s, some (.fail 3))
    else if ks.any (fun (k, _, n) => s.uncorrectable k n) then (ks.foldl (fun s (k, _, n) => s.noteErrors fn k n) s, some (.fail 5))
    else
      let bs := ks.flatMap (fun (k, _, n) => s.readKey none 4 k n)
      match s.locate none fn (0x20 + fn) ⟨true, false, false⟩ c.dst c.len with
      | (s, .error (x, _)) => (s, some x.prefetchStop)
      | (s, .ok ds) =>
        if ds.any (fun (k, _, _) => decide (2 ^ 40 ≤ k)) then (s, some (.fail 3))
        else (ds.foldl (fun s (k, off, n) => s.fePut none 4 k ((bs.drop off).take n)) s, none)

/-- PREFETCH_COPY_COMPLETE: a copy of a fired node completes and sets RES[0], or fails and leaves it; the last one ends the node (R147,
R409). A copy that an access table forbids is gone, and the node does not end (R381, log 26). -/
def State.prefetchComplete (s : State) (i j : Nat) : State :=
  match s.prefetches[i]? with
  | none => s
  | some p =>
    match p.copies[j]? with
    | none => s
    | some c =>
      if c.lost || s.frozen.contains (0x40 + p.fn) then s else
      let finish (s : State) (f : Option Nat) : State :=
        let p := { p with copies := p.copies.eraseIdx j, fail := match p.fail with | some x => some x | none => f }
        if p.copies.isEmpty then { s with prefetches := s.prefetches.eraseIdx i }.prefetchOver p
        else { s with prefetches := s.prefetches.set i p }
      match s.prefetchMove p.fn c with
      | (s, none) => finish (s.feWrite p.fn (c.entry + 0x14) (natLe 4 1)).1 none
      | (s, some (.fail d)) => finish s (some d)
      | (s, some (.forbidden d)) =>
        { s.violate d 0xFFFFFFFF 0 0 0 0 with prefetches := s.prefetches.set i { p with copies := p.copies.set j { c with lost := true } } }
      | (_, some .frozen) => s

/-! ## The completion of a grid (R139, R401) -/

/-- The event of EVOP at EVADDR: performed, to wait for writes of its word that are not at the point yet, or failed (R139, R401). -/
inductive Event where
  | done (s : State)
  | wait (s : State)
  | failed (s : State)

/-- The completion event of a grid, at the point of EVSCOPE (R135, R139): for die scope that of the lowest die that takes part (log 26). -/
def State.completionEvent (s : State) (g : Grid) : Event :=
  let r := g.record
  let origin := if r.evscope = 3 then some (96 * ((g.cuts.findIdx? DieCut.takes).getD 0)) else none
  if r.evop = 0 ∨ r.evaddr = 0 then .done s
  else if s.frozen.contains (0x40 + g.fn) then .wait (s.holdRequest (0x40 + g.fn) g.num)
  else if r.evaddr.toNat % 8 ≠ 0 then .failed s
  else if r.evop = 1 then
    match s.feEvent origin r.evscope g.fn r.evaddr (natLe 8 r.evval.toNat) with
    | (s, none) => .done s
    | (s, some _) => .failed s
  else
    match s.locate none g.fn (0x40 + g.fn) ⟨true, false, true⟩ r.evaddr 8 with
    | (s, .error (.forbidden d, _)) => .done (s.violate d 0xFFFFFFFF 0 0 0 0)
    | (s, .error (.frozen, _)) => .wait (s.holdRequest g.fn g.num)
    | (s, .error _) => .failed s
    | (s, .ok ks) =>
      let k := (ks.head?.map (fun x => x.1)).getD 0
      if s.uncorrectable k 8 then .failed (s.noteErrors g.fn k 8)
      else if s.writes.any (fun w => w.unit == unitOf k && !w.atPoint origin r.evscope) then .wait s
      else .done (s.fePut origin r.evscope k (natLe 8 ((leNat (s.readKey origin r.evscope k 8) + r.evval.toNat) % 2 ^ 64)))

/-- A completed grid is gone (R136). -/
def State.dropGrid (s : State) (grid : Word) : State :=
  { s with grids := s.grids.filter (fun g => g.num != grid), classRequests := s.classRequests.filter (fun r => r.grid != grid) }

/-- Every die has ended its dispatch and no team is left, resident or evicted (R139). -/
def State.gridOver (s : State) (g : Grid) : Bool :=
  (g.released || g.cuts.all (fun c => !c.takes)) && g.cuts.all DieCut.dispatchOver && !s.teams.any (fun t => t.grid == g.num) && !s.units.any (fun u => u.grid == g.num)

/-- The completion after its fence: the event, then NODE or set A of a KERNEL node; a cancelled grid signals nothing (R139, R401, R403). -/
def State.finishGrid (s : State) (g : Grid) (signal : Bool) : State :=
  let tail (s : State) : State :=
    let s := if signal then
        (let s := if g.record.node = 0 then s else s.sendSignals g.fn g.queue none g.issuer.entry [] [g.record.node]
         match g.issuer with
         | .node a t e raw => s.releaseSet ⟨a, t, raw, g.fn, g.queue, e⟩ false
         | _ => s)
      else s
    s.dropGrid g.num
  match s.completionEvent g with
  | .wait s => s
  | .done s => tail s
  | .failed s => tail (s.launchFault g.fn g.num 0 0xFFFF 0 0x15 g.queue g.issuer.pc g.record.evaddr)

/-- GRID_COMPLETE: a finished grid fences at EVSCOPE; once the fence is complete its completion is performed. A grid of pod reach completes
when the root has passed its completion (R139, R154). -/
def State.gridComplete (s : State) (grid : Word) : State :=
  match s.grid? grid with
  | none => s
  | some g =>
    if g.cancelled.isSome then s
    else if g.record.reach = 2 ∧ !g.completing then s
    else if !g.completing && !s.gridOver g then s
    else if !g.fenced then
      let (s, m) := s.deviceFence g.record.evscope
      s.updGrid grid (fun g => { g with completing := true, fenced := true, fenceMarks := [m] })
    else if g.fenceMarks.any s.markPending then s
    else s.finishGrid g true

/-! ## The steps -/

/-- LAUNCH_ACCEPT (R135). -/
def execLaunchAccept : State → Host.Outcome State Fault Refusal := fun s => .next s.launchAccept

/-- LAUNCH_START_RELEASE (R406). -/
def execLaunchStartRelease (grid : Word) : State → Host.Outcome State Fault Refusal := fun s => .next (s.startRelease grid)

/-- GRID_COMPLETE (R139). -/
def execGridComplete (grid : Word) : State → Host.Outcome State Fault Refusal := fun s => .next (s.gridComplete grid)

/-- NODE_SIGNAL (R142). -/
def execNodeSignal : State → Host.Outcome State Fault Refusal := fun s => .next s.nodeSignal

/-- WAIT_TIME_EXPIRY (R142). -/
def execWaitTimeExpiry (idx : Nat) : State → Host.Outcome State Fault Refusal := fun s => .next (s.waitExpiry idx)

/-- PREFETCH_COPY_COMPLETE (R147). -/
def execPrefetchCopyComplete (idx copy : Nat) : State → Host.Outcome State Fault Refusal := fun s => .next (s.prefetchComplete idx copy)

end Sys2Proof.Machine
end

