-- ==== Sys2Proof/Machine/Commands.lean ====
section
/-! DEFINITION. Sys2Proof/Machine/Commands.lean: host command queues (R148, R149, R400) and the slices and budgets of R150 and R410. -/

namespace Sys2Proof.Machine

/-! ## Taking an entry (R148, R149, R400) -/

/-- A command entry as it is read (R149). -/
structure Entry where
  op : Nat
  a : DWord
  b : DWord
  pad : Nat
  deriving DecidableEq

/-- The entry of 64 bytes. -/
def Entry.parse (raw : List Byte) : Entry :=
  { op := field raw 0 1, a := BitVec.ofNat 64 (field raw 8 8), b := BitVec.ofNat 64 (field raw 16 8), pad := field raw 1 7 + field raw 0x18 40 }

/-- The operand bits that an op leaves reserved are 0 and its limits hold (R149, R95, R340). -/
def Entry.legal (e : Entry) : Bool :=
  e.pad == 0 &&
    (match e.op with
     | 1 => e.a.toNat % 2 ^ 20 == 0 && e.b.toNat / 2 == 0
     | 2 | 3 => e.b == 0
     | 4 => e.a.toNat / 2 ^ 32 == 0 && e.b == 0
     | 5 | 6 => e.a.toNat % 8 == 0
     | 7 => e.a.toNat % 64 == 0 && e.a.extractLsb' 56 8 == 0 && e.b == 0
     | 8 => e.a == 0 && e.b == 0
     | _ => false)

/-- The address of the entry at QHEAD (R148). -/
def Queue.entryAddr (x : Queue) : DWord := (x.base &&& ~~~(63#64)) + BitVec.ofNat 64 (64 * (x.head.toNat % 2 ^ x.size.toNat))

/-- An access table forbids the read of the entry at QHEAD (R380). -/
def State.ringForbidden (s : State) (fn q : Nat) : Bool :=
  let x := s.queue fn q
  x.base.getLsbD 0 && s.paPresent x.entryAddr.toNat && (s.forbids (0x40 + fn) x.entryAddr.toNat 64 false).isSome

/-- The queue has an entry to take: its function is ready, it is enabled, not halted, nothing blocks it, its master is not frozen and the device
takes commands (R408). -/
def State.queueReady (s : State) (fn q : Nat) : Bool :=
  let x := s.queue fn q
  !s.fatal && (s.fn fn).ready && x.weight != 0 && !x.halted && x.block == .none && x.tail != x.head && !s.frozen.contains (0x40 + fn)

/-- The queue takes its next entry. -/
def State.queueOpen (s : State) (fn q : Nat) : Bool := s.queueReady fn q && !s.ringForbidden fn q

/-- A queue halts with a record (R400). -/
def State.haltQueue (s : State) (fn q cause team : Nat) (faddr : DWord) : State :=
  (s.updQueue fn q (fun x => { x with halted := true, faulted := true })).launchFault fn 0xFFFFFFFF team 0xFFFF 0 cause q 0 faddr

/-- The entry at QHEAD, read at sys by its physical address, or the address at which that fails (R148, R377, R400). -/
def State.readCommand (s : State) (fn q : Nat) : Except DWord Entry :=
  let x := s.queue fn q
  let a := x.entryAddr.toNat
  let k := if x.base.getLsbD 0 then a else hostKey a
  if x.base.getLsbD 0 && !s.paPresent a then .error x.entryAddr
  else
    match (splitUnits 65 k 0 64).find? (fun (off, len) => s.uncorrectable (k + off) len) with
    | some (off, _) => .error (x.entryAddr + BitVec.ofNat 64 off)
    | none => .ok (Entry.parse (s.readKey none 6 k 64))

/-- A command of an op: the entry at QHEAD is taken and its effect follows, or it breaks its limits and the queue halts. -/
def State.command (s : State) (fn q op : Nat) (body : Entry → Nat → State → State) : State :=
  if !s.queueOpen fn q then s
  else
    match s.readCommand fn q with
    | .error _ => s
    | .ok e =>
      let x := s.queue fn q
      if e.op != op then s
      else if !e.legal then s.haltQueue fn q 0x30 0 x.entryAddr
      else body e x.head.toNat (s.updQueue fn q (fun x => { x with head := x.head + 1 }))

/-- RESERVED_COMMAND_ENTRY: an entry with a reserved op, or that cannot be read, halts the queue (R400); one whose read is forbidden freezes the
front end's master (R381, log 26). -/
def State.reservedEntry (s : State) (fn q : Nat) : State :=
  if !s.queueReady fn q then s
  else if s.ringForbidden fn q then
    s.violate ⟨0x40 + fn, (s.forbids (0x40 + fn) (s.queue fn q).entryAddr.toNat 64 false).getD 0, .read⟩ 0xFFFFFFFF 0 0 0 0
  else
    match s.readCommand fn q with
    | .error a => State.haltQueue (s.noteErrors fn (if (s.queue fn q).base.getLsbD 0 then a.toNat else hostKey a.toNat) 32) fn q 0x31 0 a
    | .ok e => if e.op = 0 ∨ 8 < e.op then s.haltQueue fn q 0x30 0 (s.queue fn q).entryAddr else s

/-- Earlier commands of a queue have grids that are not complete, or have set off what may still start one: a record passed to the front end, a
signal, or a node that waits (R149, log 18). -/
def State.earlierRuns (s : State) (fn q entry : Nat) : Bool :=
  let mine (f k : Nat) (e : Option Nat) : Bool := f == fn && k == q && e.any (entryAfter entry)
  s.grids.any (fun g => mine g.fn g.queue g.issuer.entry) || s.requests.any (fun r => mine r.fn r.queue r.issuer.entry) ||
    s.signals.any (fun x => mine x.fn x.queue x.entry) || s.armed.any (fun x => mine x.fn x.queue x.entry) ||
    s.prefetches.any (fun x => mine x.fn x.queue x.entry) || s.ending.any (fun x => mine x.fn x.queue x.entry)

/-! ## The commands (R149) -/

/-- CTXSET takes effect: the context's table and mode, and no translation held (R95, R96). -/
def State.setContext (s : State) (fn : Nat) (table : DWord) (sva : Bool) : State :=
  (s.updFn fn (fun f => { f with level0 := some table.toNat, sva := sva })).forget fn

/-- CTXSET: taken, it holds the queue until the grids of earlier commands complete; then it takes effect. -/
def State.ctxset (s : State) (fn q : Nat) : State :=
  let free (s : State) : Bool := !s.earlierRuns fn q ((s.queue fn q).head.toNat)
  match (s.queue fn q).block with
  | .ctxset t v => if free s then (s.updQueue fn q (fun x => { x with block := .none })).setContext fn t v else s
  | _ =>
    s.command fn q 1 (fun e _ s =>
      if free s then s.setContext fn e.a (e.b.getLsbD 0) else s.updQueue fn q (fun x => { x with block := .ctxset e.a (e.b.getLsbD 0) }))

/-- LAUNCH: the record goes to the front end as a release at sys of the host (R138). -/
def State.launchCommand (s : State) (fn q : Nat) : State :=
  s.command fn q 2 (fun e n s =>
    { s with requests := s.requests ++ [{ addr := e.a, fn := fn, queue := q, issuer := .command fn q n, word := none, mark := none }] })

/-- TRIGGER. -/
def State.triggerCommand (s : State) (fn q : Nat) : State := s.command fn q 3 (fun e n s => s.sendSignals fn q none (some n) [] [e.a])

/-- CANCEL. -/
def State.cancelCommand (s : State) (fn q : Nat) : State :=
  s.command fn q 4 (fun e _ s =>
    let n : Word := e.a.setWidth 32
    match s.grid? n with
    | some g => if g.fn = fn then s.cancelGrid n 0x10 else s
    | none => s)

/-- The word of a WAITEV, read at sys (R149). -/
def State.readEvent (s : State) (fn : Nat) (a : DWord) : State × FeRead := s.feRead none 6 fn a 8

/-- WAITEV: an entry whose read fails halts the queue and stays at QHEAD (R400). -/
def State.waitev (s : State) (fn q : Nat) : State :=
  let t := s.command fn q 5 (fun e n s =>
    match s.readEvent fn e.a with
    | (s, .ok bs) => if e.b.toNat ≤ leNat bs then s else s.updQueue fn q (fun x => { x with block := .waitev e.a e.b })
    | (s, .fail a) => (s.updQueue fn q (fun x => { x with head := BitVec.ofNat 32 n })).haltQueue fn q 0x33 0 a
    | (s, .held) => s.updQueue fn q (fun x => { x with block := .waitev e.a e.b }))
  t

/-- WAITEV_SATISFIED: the word is read again; the queue goes on once it is at least B. -/
def State.waitevAgain (s : State) (fn q : Nat) : State :=
  match (s.queue fn q).block with
  | .waitev a b =>
    match s.readEvent fn a with
    | (s, .ok bs) => if b.toNat ≤ leNat bs then s.updQueue fn q (fun x => { x with block := .none }) else s
    | (s, .fail x) => (s.updQueue fn q (fun x => { x with block := .none, head := x.head - 1 })).haltQueue fn q 0x33 0 x
    | (s, .held) => s
  | _ => s

/-- SIGNAL: it waits beside the queue. -/
def State.signalCommand (s : State) (fn q : Nat) : State :=
  s.command fn q 6 (fun e n s => s.updQueue fn q (fun x => { x with signals := x.signals ++ [{ entry := n, addr := e.a, value := e.b, mark := none }] }))

/-- SIGNAL_STORE: the first SIGNAL whose grids are complete fences at sys; once every write is at the sys point its value is stored, or the
queue halts (R149, R400). -/
def State.signalStore (s : State) (fn q : Nat) : State :=
  match (s.queue fn q).signals.find? (fun p => !s.earlierRuns fn q p.entry && !p.mark.any s.markPending && !s.frozen.contains (0x40 + fn)) with
  | none => s
  | some p =>
    match p.mark with
    | none =>
      let (s, m) := s.deviceFence 6
      s.updQueue fn q (fun x => { x with signals := x.signals.map (fun y => if y.entry == p.entry then { y with mark := some m } else y) })
    | some _ =>
      let gone (s : State) : State := s.updQueue fn q (fun x => { x with signals := x.signals.filter (fun y => y.entry != p.entry) })
      match s.feEvent none 6 fn p.addr (natLe 8 p.value.toNat) with
      | (s, none) => gone s
      | (s, some a) => (gone s).haltQueue fn q 0x33 p.entry a

/-- TVTSET (R340). -/
def State.tvtset (s : State) (fn q : Nat) : State := s.command fn q 7 (fun e _ s => s.updFn fn (fun f => { f with tvt := e.a }))

/-- CINV: a release at sys, then no later translation of the context uses what was held before; it holds the queue until it is complete
(R149, R323). -/
def State.cinvCommand (s : State) (fn q : Nat) : State :=
  match (s.queue fn q).block with
  | .cinv m => if s.markPending m then s else (s.updQueue fn q (fun x => { x with block := .none })).forget fn
  | _ =>
    s.command fn q 8 (fun _ _ s =>
      let (s, m) := s.deviceFence 6
      if s.markPending m then s.updQueue fn q (fun x => { x with block := .cinv m }) else s.forget fn)

/-! ## Queue registers with behaviour of their own (R148, R400, R413) -/

/-- A queue whose QTAIL runs too far ahead halts, enabled or not (R400). -/
def State.checkTail (s : State) (fn q : Nat) : State :=
  let x := s.queue fn q
  if !x.halted && decide (2 ^ x.size.toNat < (x.tail - x.head).toNat) then s.haltQueue fn q 0x32 0 x.entryAddr else s

/-- QTAIL_WRITE. -/
def State.writeTail (s : State) (fn q : Nat) (v : Word) : State :=
  if (s.fn fn).ready then (s.updQueue fn q (fun x => { x with tail := v })).checkTail fn q else s

/-- QCLR_CLEAR_FAULT. -/
def State.clearFault (s : State) (fn q : Nat) : State :=
  if (s.fn fn).ready then s.updQueue fn q (fun x => { x with faulted := false }) else s

/-- QCLR_RESTART. -/
def State.restartQueue (s : State) (fn q : Nat) : State :=
  if (s.fn fn).ready && (s.queue fn q).halted then (s.updQueue fn q (fun x => { x with halted := false })).checkTail fn q else s

/-! ## Slices and budgets (R150, R410) -/

/-- The queues that receive slices: enabled and not descheduled, with their weights. -/
def State.sliceQueues (s : State) : List (Nat × Nat × Nat) :=
  (List.range Config.functions).flatMap (fun f => ((List.range Config.queues).filter (fun q =>
    (s.fn f).ready && (s.queue f q).weight != 0 && !(s.queue f q).descheduled)).map (fun q => (f, q, (s.queue f q).weight.toNat)))

/-- The next slice of a cycle in which each queue has as many slices in a row as its weight (R150, log 19). -/
def State.nextSlice (s : State) : State :=
  let qs := s.sliceQueues
  let slots := qs.flatMap (fun (f, q, w) => (List.range w).map (fun i => (f, q, i)))
  let next := match s.sliceOwner with
    | none => slots.head?
    | some (f, q) =>
      match slots.find? (fun (a, b, i) => a == f && b == q && i == s.slicePos + 1) with
      | some x => some x
      | none => match slots.find? (fun (a, b, _) => decide (f < a) || (a == f && decide (q < b))) with | some x => some x | none => slots.head?
  match next with
  | none => { s with sliceOwner := none, slicePos := 0 }
  | some (f, q, i) => { s with sliceOwner := some (f, q), slicePos := i }

/-- BUDGET_PERIOD: every charge returns to 0 and every queue may place again (R150). -/
def State.budgetPeriod (s : State) : State :=
  { s with fns := s.fns.map (fun f => { f with queues := f.queues.map (fun q => { q with charge := 0, descheduled := false }) }) }

/-- QUEUE_DESCHEDULE: a charge is recorded; at the budget, if there is one, the queue is descheduled (R148, R150, R410). -/
def State.chargeQueue (s : State) (fn q : Nat) (c : Word) : State :=
  s.updQueue fn q (fun x => { x with charge := c, descheduled := x.descheduled || (x.budget != 0 && decide (x.budget.toNat ≤ c.toNat)) })

/-! ## The steps -/

/-- CTXSET (R149). -/
def execCtxset (fn q : Nat) : State → Host.Outcome State Fault Refusal := fun s => .next (s.ctxset fn q)

/-- LAUNCH (R149). -/
def execLaunch (fn q : Nat) : State → Host.Outcome State Fault Refusal := fun s => .next (s.launchCommand fn q)

/-- TRIGGER (R149). -/
def execTrigger (fn q : Nat) : State → Host.Outcome State Fault Refusal := fun s => .next (s.triggerCommand fn q)

/-- CANCEL (R149). -/
def execCancel (fn q : Nat) : State → Host.Outcome State Fault Refusal := fun s => .next (s.cancelCommand fn q)

/-- WAITEV (R149). -/
def execWaitev (fn q : Nat) : State → Host.Outcome State Fault Refusal := fun s => .next (s.waitev fn q)

/-- WAITEV_SATISFIED (R149). -/
def execWaitevSatisfied (fn q : Nat) : State → Host.Outcome State Fault Refusal := fun s => .next (s.waitevAgain fn q)

/-- SIGNAL (R149). -/
def execSignal (fn q : Nat) : State → Host.Outcome State Fault Refusal := fun s => .next (s.signalCommand fn q)

/-- SIGNAL_STORE (R149). -/
def execSignalStore (fn q : Nat) : State → Host.Outcome State Fault Refusal := fun s => .next (s.signalStore fn q)

/-- TVTSET (R149). -/
def execTvtset (fn q : Nat) : State → Host.Outcome State Fault Refusal := fun s => .next (s.tvtset fn q)

/-- CINV (R149). -/
def execCinv (fn q : Nat) : State → Host.Outcome State Fault Refusal := fun s => .next (s.cinvCommand fn q)

/-- RESERVED_COMMAND_ENTRY (R400). -/
def execReservedCommandEntry (fn q : Nat) : State → Host.Outcome State Fault Refusal := fun s => .next (s.reservedEntry fn q)

/-- QTAIL_WRITE (R148). -/
def execQtailWrite (fn q : Nat) (v : Word) : State → Host.Outcome State Fault Refusal := fun s => .next (s.writeTail fn q v)

/-- QCLR_CLEAR_FAULT (R148). -/
def execQclrClearFault (fn q : Nat) : State → Host.Outcome State Fault Refusal := fun s => .next (s.clearFault fn q)

/-- QCLR_RESTART (R400). -/
def execQclrRestart (fn q : Nat) : State → Host.Outcome State Fault Refusal := fun s => .next (s.restartQueue fn q)

/-- BUDGET_PERIOD (R150). -/
def execBudgetPeriod : State → Host.Outcome State Fault Refusal := fun s => .next s.budgetPeriod

/-- QUEUE_DESCHEDULE (R150). -/
def execQueueDeschedule (fn q : Nat) (charge : Word) : State → Host.Outcome State Fault Refusal := fun s => .next (s.chargeQueue fn q charge)

end Sys2Proof.Machine
end

