-- ==== Sys2Proof/Machine/Pod.lean ====
section
/-! DEFINITION. Sys2Proof/Machine/Pod.lean: pod launches (R151 to R155, R406, R407), their parts and completion (R154), and cancellation
(R402 to R404, R415). -/

namespace Sys2Proof.Machine

/-! ## Pod launches (R153, R155, R406, R407) -/

/-- A key precedes another: start, issuer, sequence (R153). -/
def PodLaunch.before (a b : PodLaunch) : Bool := lexLt [a.start, a.issuer, a.seq] [b.start, b.issuer, b.seq]

/-- The grid number of a pod launch (R136). -/
def PodLaunch.grid (k : PodLaunch) : Word := BitVec.ofNat 32 (k.issuer % 256 * 2 ^ 24 + k.seq % 2 ^ 24)

/-- A grid of another device's launch is known here from its broadcast record, which its issuer has checked (R399), if this device takes part or,
as the root, deals out its allotments (R40); the own one is known already. -/
def State.learn (s : State) (k : PodLaunch) (fn queue : Nat) (raw : List Byte) : State :=
  if (s.grid? k.grid).isSome then s
  else
    let r := LaunchRecord.parse 0 (raw.take 256) (raw.drop 256)
    let takes := (r.devices s.members).contains s.dev
    if r.withinLimits && (takes || s.root) then
      { s with grids := s.grids ++ [newGrid k.grid fn queue (.remote k.issuer) r (if takes then r.dies none else [])] }
    else s

/-- A broadcast launch is accepted, which its issuer sees (R399), and held in key order; one that comes below a launch already released is counted and recorded (R153, R407). A root that
takes no part only deals it out. -/
def State.podReceive (s : State) (k : PodLaunch) (fn queue : Nat) (raw : List Byte) : State :=
  let s := s.learn k fn queue raw
  match s.grid? k.grid with
  | none => s
  | some g =>
    let s := if s.podOut.any (fun x => x.grid == k.grid) then s.answer g.issuer k.grid else s
    let s := { s with podOut := s.podOut.filter (fun x => x.grid != k.grid) }
    if g.released || s.podHeld.contains k || g.cancelSeen then s
    else if !g.cuts.any DieCut.takes then (if s.root then s.updGrid k.grid s.deal else s)
    else
      let s := { s with podHeld := insertSorted PodLaunch.before k s.podHeld }
      match s.podReleased with
      | some p =>
        if k.before p then
          { s with late := if s.late == 0xFFFF then s.late else s.late + 1 }.launchFault 0 k.grid 0 0xFFFF 0 0x14 g.queue g.issuer.pc 0
        else s
      | none => s

/-- An own pod launch may be keyed: it is the first that waits, in sequence, and its release is complete (R138, R155). -/
def State.keyReady (s : State) (seq : Nat) : Bool :=
  match s.podOut.head? with
  | some k => k.seq == seq && !((s.grid? k.grid).map Grid.fenceMarks |>.getD []).any s.markPending
  | none => false

/-- The root refuses a launch of this device: the issuing word, command or node sees the refusal, and no grid is left; the sequence goes back where no
later launch was numbered (R136, R398, R399, log 26). -/
def State.podRefuse (s : State) (k : PodLaunch) (cause : Nat) : State :=
  match s.grid? k.grid with
  | none => s
  | some g =>
    let s : State := { s with
      grids := s.grids.filter (fun x => x.num != k.grid), podOut := s.podOut.filter (fun x => x.grid != k.grid)
      launchSeq := if s.launchSeq = k.seq + 1 then k.seq else s.launchSeq }
    match g.issuer with
    | .node a t e raw => s.nodeError ⟨a, t, raw, g.fn, g.queue, e⟩ (0x23 + 256 * cause) a
    | .thread core _ pc _ _ lane _ => (s.launchFault g.fn 0xFFFFFFFF 0 core lane cause g.queue pc g.record.addr).answer g.issuer 0xFFFFFFFF
    | _ => s.launchFault g.fn 0xFFFFFFFF 0 0xFFFF 0 cause g.queue 0 g.record.addr

/-- POD_LAUNCH_KEY: the root keys a launch: its start is no earlier than the lead or the issuer's previous start; and broadcasts it, to
itself too (R153, R155). A launch that cannot be reached or resident is refused (R137, R399); on another device, of its own launch, the step is that
refusal reaching it, with the cause as the first byte (log 26). -/
def State.podKey (s : State) (issuer seq fn queue : Nat) (raw : List Byte) : State :=
  if !s.inPod then s
  else if !s.root then (match s.podOut.find? (fun k => k.issuer == issuer && k.seq == seq) with | some k => s.podRefuse k (raw.headD 7).toNat | none => s)
  else
    let num : Word := (PodLaunch.mk 0 issuer seq).grid
    let rec_ := match s.grid? num with | some g => some g.record | none => if issuer = s.dev then none else some (LaunchRecord.parse 0 (raw.take 256) (raw.drop 256))
    match rec_ with
    | none => s
    | some r =>
      if issuer = s.dev ∧ !s.keyReady seq then s
      else if !s.reachOk r then s.podRefuse ⟨0, issuer, seq⟩ 0x07
      else if !s.residentOk r (r.dies none) then s.podRefuse ⟨0, issuer, seq⟩ 0x04
      else
        let prev := ((s.podStarts.find? (fun x => x.1 == issuer)).map Prod.snd).getD 0
        let start := max (max r.start.toNat (s.ptime.toNat + 5000)) prev
        let s := { s with podStarts := (issuer, start) :: s.podStarts.filter (fun x => x.1 != issuer) }
        s.podReceive ⟨start, issuer, seq⟩ fn queue raw

/-- The lowest launch held is released and dealt out, once %ptime has reached its start (R153). -/
def State.releaseLowest (s : State) : State :=
  match s.podHeld with
  | [] => s
  | k :: rest =>
    if s.ptime.toNat < k.start then s
    else
      let s := { s with podHeld := rest, podReleased := match s.podReleased with | some p => if p.before k then some k else some p | none => some k }
      s.updGrid k.grid s.deal

/-- POD_LAUNCH_RELEASE: a release on a locked device (R153, R406). -/
def State.podRelease (s : State) : State := if s.lock || s.root then s.releaseLowest else s

/-- A device loses lock: the launches whose start has come are released before (R406, R415). -/
def State.loseLock (s : State) : State :=
  { (if s.lock then (List.range s.podHeld.length).foldl (fun s _ => s.releaseLowest) s else s) with lock := false, syncs := 0 }

/-- A device's report of its part of a grid reaches the root (R154, R403). -/
def Grid.reported (g : Grid) (d : Nat) : Grid := { g with reporters := if g.reporters.contains d then g.reporters else g.reporters ++ [d] }

/-- POD_PART_REPORT: a device whose part is over fences at pod, then reports; another device's report reaches the root (R154). -/
def State.podReport (s : State) (grid : Word) (remote : Option Nat) : State :=
  match s.grid? grid, remote with
  | none, _ => s
  | some g, some d => if g.record.reach == 2 && s.root && d != s.dev && g.cancelled.isNone then s.updGrid grid (fun g => g.reported d) else s
  | some g, none =>
    if g.record.reach != 2 || g.cancelled.isSome || g.partDone || !g.cuts.any DieCut.takes || !s.gridOver g then s
    else if !g.fenced then
      let (s, m) := s.deviceFence 5
      s.updGrid grid (fun g => { g with fenced := true, fenceMarks := [m] })
    else if g.fenceMarks.any s.markPending then s
    else s.updGrid grid (fun g => { g.reported s.dev with partDone := true, fenced := false, fenceMarks := [] })

/-- Every report of a grid is in: at the root those of all taking-part devices but lost ones; elsewhere the own part is over, and the root's word
comes as the event (R154, R408). -/
def State.partsOver (s : State) (g : Grid) : Bool :=
  if g.record.reach = 2 ∧ s.root then (g.record.devices s.members).all (fun d => g.reporters.contains d || s.lostPeers.contains d)
  else g.partDone || g.cuts.all (fun c => !c.takes)

/-- POD_COMPLETION: every report is in and the completion passes to the issuer, of a cancelled grid too where the root is another device; another device
is done with the grid (R154, R403). -/
def State.podCompletion (s : State) (grid : Word) : State :=
  match s.grid? grid with
  | none => s
  | some g =>
    if g.record.reach != 2 || !s.partsOver g then s
    else
      match g.issuer with
      | .remote _ => s.dropGrid grid
      | _ => s.updGrid grid (fun g => if g.cancelled.isNone then { g with completing := true } else if s.root then g else { g with passed := true })

/-! ## Cancellation (R402 to R404) -/

/-- The faulted parts of accesses are given up, and those discarded once their master runs again (R382, R403). -/
def State.giveUp (s : State) (g : Group) : Group :=
  let gone (p : Part) : Bool := p.isFaulted || (p.prog == .discarded && !s.frozen.contains (s.fnOf g.grid))
  ({ g with ops := g.ops.map (fun (o : Op) => { o with parts := o.parts.map (fun p => if gone p then { p with prog := .done } else p) }) } : Group).finishOps

/-- A group of a cancelled grid issues no more and stops waiting; what is in flight goes on (R403). -/
def State.stopWork (s : State) (g : Group) : Group :=
  { s.giveUp g with chains := [], arrivals := [], traps := [], heldFault := none, holds := [], delay := 0, stalls := [], evicting := none, moved := false }

/-- CANCEL_REQUEST: the root, or the device's dispatcher, fixes the cause (R402). -/
def State.cancelRequest (s : State) (grid : Word) (cause : Nat) : State :=
  match s.grid? grid with
  | some g => if g.record.reach = 2 ∧ !s.root then s else s.cancelGrid grid cause
  | none => s

/-- The device takes CANCEL: no dispatch, no held launch, no evicted unit of the grid is left, and its groups stop (R403, R397). The queue of the grid,
where it is of this device, shows a fault for cause 0x11 (R148, R346). -/
def State.stopGrid (s : State) (grid : Word) (cause : Nat) : State :=
  let s := if cause = 0x11 then s.setFaulted grid else s
  let s := match s.grid? grid with | some g => if s.podOut.any (fun k => k.grid == grid) then s.answer g.issuer grid else s | none => s
  let gone := s.units.filter (fun u => u.grid == grid)
  let s := gone.foldl (fun (s : State) u => s.updFn u.fn (fun f => { f with inuse := f.inuse - BitVec.ofNat 32 (u.size / 64) })) s
  let s := s.updGrid grid (fun g =>
    { g with
      cancelled := some cause, cancelSeen := true, pool := [], askers := [], partDone := false, reporters := [], fenced := false, fenceMarks := []
      cuts := g.cuts.map (fun c => { c with allots := [], todo := [], chosen := none, moving := [], requested := false, ended := true }) })
  { s with
    podHeld := s.podHeld.filter (fun k => k.grid != grid)
    podOut := s.podOut.filter (fun k => k.grid != grid)
    units := s.units.filter (fun u => u.grid != grid)
    teams := s.teams.filter (fun t => !(t.grid == grid && t.evicted))
    cores := s.cores.mapIdx (fun i c => { c with requests := c.requests.filter (fun r => !s.groups.any (fun g => g.core == i && g.slot == r.slot && g.grid == grid)) })
    groups := s.groups.map (fun g => if g.grid == grid then s.stopWork g else g) }

/-- CANCEL_RECEIVE. -/
def State.cancelReceive (s : State) (grid : Word) (cause : Nat) : State :=
  match s.grid? grid with
  | none => s
  | some g =>
    let fixed := g.cancelled == some cause
    if g.cancelSeen || g.completing then s
    else if g.record.reach = 2 ∧ !s.root ∧ !s.lostPeers.contains 0 then s.stopGrid grid cause
    else if fixed then s.stopGrid grid cause else s

/-- Groups of cancelled grids give up what faults, and exit once nothing of them is outstanding (R403). -/
def State.exitCancelled (s : State) : State :=
  s.groups.foldl (fun s g =>
    if g.exited || !((s.grid? g.grid).map Grid.cancelSeen).getD false then s
    else
      let g := s.giveUp g
      if s.drained g then s.setGroup (({ g with traps := [], chains := [] } : Group).exitLanes g.live) else s.setGroup g) s

/-- CANCEL_REPORT: once every team has finished the device fences at pod and reports its records; another device's report brings its count
(R403). -/
def State.cancelReport (s : State) (grid : Word) (remote : Option (Nat × Nat)) : State :=
  let add (g : Grid) (d n : Nat) : Grid := { g with recorders := if n = 0 then g.recorders else g.recorders ++ [d] }
  match s.grid? grid, remote with
  | none, _ => s
  | some g, some (d, n) =>
    if g.cancelSeen && g.record.reach == 2 && d != s.dev && !g.reporters.contains d then
      s.updGrid grid (fun g => { (add g d n).reported d with others := g.others + n })
    else s
  | some g, none =>
    if !g.cancelSeen || g.partDone || s.teams.any (fun t => t.grid == grid) || s.units.any (fun u => u.grid == grid) then s
    else if !g.fenced then
      let (s, m) := s.deviceFence 5
      s.updGrid grid (fun g => { g with fenced := true, fenceMarks := [m] })
    else if g.fenceMarks.any s.markPending then s
    else s.updGrid grid (fun g => { (add g s.dev g.records).reported s.dev with partDone := true, fenced := false, fenceMarks := [] })

/-- The completion and the cause of a cancelled grid are with its issuer: the root has them once every report is in, another device once the root has
passed them, or, with the root lost, once its own part has ended (R403, R408). -/
def State.summaryDue (s : State) (g : Grid) : Bool :=
  s.partsOver g && (g.record.reach != 2 || s.root || g.passed || s.lostPeers.contains 0)

/-- CANCEL_SUMMARY: the issuer writes the summary and fences at EVSCOPE, then performs the event; another device is done with the grid
(R403, R404). -/
def State.cancelSummary (s : State) (grid : Word) : State :=
  match s.grid? grid with
  | none => s
  | some g =>
    match g.cancelled, g.issuer with
    | none, _ => s
    | some _, .remote _ => if s.partsOver g then s.dropGrid grid else s
    | some cause, _ =>
      if !s.summaryDue g then s
      else if !g.completing then
        let core := match g.recorders with | [] => 0xFFFF | d :: r => r.foldl min d
        let s := s.ring g.fn
          { grid := g.num, team := g.recorders.length, core := core, slot := 0, lane := 0, code := 0x11, kind := 3, flags := 0, queue := g.queue, fpc := g.issuer.pc,
            faddr := BitVec.ofNat 64 (min (g.records + g.others) (2 ^ 64 - 1)), detail := BitVec.ofNat 32 cause }
        let (s, m) := s.deviceFence g.record.evscope
        s.updGrid grid (fun g => { g with completing := true, fenced := true, fenceMarks := [m] })
      else if g.fenceMarks.any s.markPending then s
      else s.finishGrid g false

/-! ## The steps -/

/-- POD_LAUNCH_KEY (R153). -/
def execPodLaunchKey (issuer seq fn queue : Nat) (raw : List Byte) : State → Host.Outcome State Fault Refusal :=
  fun s => .next (s.podKey issuer seq fn queue raw)

/-- POD_LAUNCH_RECEIVE (R153). -/
def execPodLaunchReceive (start : DWord) (issuer seq fn queue : Nat) (raw : List Byte) : State → Host.Outcome State Fault Refusal :=
  fun s => .next (s.podReceive ⟨start.toNat, issuer, seq⟩ fn queue raw)

/-- POD_LAUNCH_RELEASE (R153). -/
def execPodLaunchRelease : State → Host.Outcome State Fault Refusal := fun s => .next s.podRelease

/-- POD_PART_REPORT (R154). -/
def execPodPartReport (grid : Word × Option Nat) : State → Host.Outcome State Fault Refusal := fun s => .next (s.podReport grid.1 grid.2)

/-- POD_COMPLETION (R154). -/
def execPodCompletion (grid : Word) : State → Host.Outcome State Fault Refusal := fun s => .next (s.podCompletion grid)

/-- CANCEL_REQUEST (R402). -/
def execCancelRequest (grid : Word) (cause : BitVec 8) : State → Host.Outcome State Fault Refusal := fun s => .next (s.cancelRequest grid cause.toNat)

/-- CANCEL_RECEIVE (R403). -/
def execCancelReceive (grid : Word) (cause : BitVec 8) : State → Host.Outcome State Fault Refusal := fun s => .next (s.cancelReceive grid cause.toNat)

/-- CANCEL_REPORT (R403). -/
def execCancelReport (grid : Word × Option (Nat × Nat)) : State → Host.Outcome State Fault Refusal :=
  fun s => .next (s.cancelReport grid.1 grid.2)

/-- CANCEL_SUMMARY (R404). -/
def execCancelSummary (grid : Word) : State → Host.Outcome State Fault Refusal := fun s => .next (s.cancelSummary grid)

end Sys2Proof.Machine
end

