-- ==== Sys2Proof/Machine/Platform.lean ====
section
/-! DEFINITION. Sys2Proof/Machine/Platform.lean: power and clusters (R157 to R163, R410, R411), the time base and the pod (R151, R152, R405),
links (R408), and firmware and bring-up (R412 to R414). -/

namespace Sys2Proof.Machine

/-! ## Power (R160, R162, R163, R411) -/

/-- POWER_PERIOD: DRAWW is measured; CAP moves by the thresholds, periods over the limit are counted, and admission is held or not. -/
def State.powerPeriod (s : State) (draw : Half) : State :=
  let d := draw.toNat
  let above := decide (s.limw < d)
  let run := if above && s.cap == 0 then s.overRun + 1 else 0
  let low := decide (100 * d < 85 * s.limw)
  { s with
    draww := draw
    cap := if 97 * s.limw < 100 * d then s.cap - 1 else if low then min 7 (s.cap + 1) else s.cap
    overPeriods := if above && s.overPeriods != 0xFFFFFFFF then s.overPeriods + 1 else s.overPeriods
    overRun := run
    hold := if low then false else s.hold || decide (10 ≤ run) }

/-- POOL_MOVE_COMPLETE: a move ends, the cluster is in its new pool, and may drop further (R159). -/
def State.poolMoved (s : State) (n : Nat) : State :=
  match (s.cluster n).move with
  | none => s
  | some k => (s.updCluster n (fun c => { c with pool := k, move := none })).poolDrop n

/-- BYTE_BUDGET_INTERVAL: a budget for every cluster, at least 64 each and no more than a die's rate in all (R162, R410). -/
def State.budgetInterval (s : State) (bs : List (BitVec 24)) : State :=
  let sum (l : List (BitVec 24)) : Nat := l.foldl (fun n b => n + b.toNat) 0
  if bs.length == Config.clusters && bs.all (fun b => decide (64 ≤ b.toNat)) && decide (64 * sum (bs.take 12) ≤ 16000000) && decide (64 * sum (bs.drop 12) ≤ 16000000) then
    { s with clusters := s.clusters.mapIdx (fun i c => { c with byb := bs.getD i 64 }) }
  else s

/-- CLUSTER_IDLE: a cluster none of whose groups has issued for 256 clocks, nor it been admitted, is idle (R163). -/
def State.clusterIdle (s : State) (n : Nat) : State :=
  s.updCluster n (fun c => { c with idle := c.idle || decide (256 ≤ c.cyc10 / 10 - c.lastIssue) })

/-- An idle cluster asks for admission: a group on it that is not stopped has a runnable lane, even one that its word would stall, and no move is in
progress (R163; DESIGN CHOICE, log 6). -/
def State.asks (s : State) (n : Nat) : Bool :=
  (s.cluster n).idle && (s.cluster n).move.isNone &&
    s.groups.any (fun g => clusterOf g.core == n && !s.stopped g.core g.slot && g.lanes.any (fun x => x.run.runnable))

/-- SLEW_ADMISSION_WINDOW: in each 100 ns of %ptime up to three waiting clusters are admitted, cyclically after the last one (R163); none while
admission is held (R411). -/
def State.admitClusters (s : State) : State :=
  if s.hold then s
  else
    let w := s.ptime.toNat / 100
    let used := if s.window = w then s.windowed else 0
    let order := (List.range Config.clusters).map (fun i => (s.admitted + 1 + i) % Config.clusters)
    let now := (order.filter s.asks).take (3 - used)
    match now.getLast? with
    | none => s
    | some l =>
      { (now.foldl (fun s n => s.updCluster n (fun c => { c with idle := false, lastIssue := c.cyc10 / 10 })) s) with
        admitted := l, window := w, windowed := used + now.length }

/-! ## The time base (R152, R405) -/

/-- A number as an i32, saturating. -/
def satI32 (n : Int) : Word := BitVec.ofInt 32 (if n < -(2 ^ 31) then -(2 ^ 31) else if 2 ^ 31 - 1 < n then 2 ^ 31 - 1 else n)

/-- SYNC_MESSAGE: OFFS, and lock lost beyond 500 ns or regained after 16 messages within 100 ns; the root is always locked (R405). -/
def State.syncMessage (s : State) (offs : Int) : State :=
  if s.root then s
  else
    let s := { s with offs := satI32 offs }
    if s.lock then (if 500 < offs.natAbs then s.loseLock else s)
    else if offs.natAbs ≤ 100 then (if 16 ≤ s.syncs + 1 then { s with lock := true, syncs := 0 } else { s with syncs := s.syncs + 1 })
    else { s with syncs := 0 }

/-- SYNC_TIMEOUT (R405). -/
def State.syncTimeout (s : State) : State := if s.root then s else s.loseLock

/-- POD_FORMATION: the device's number and the members; %ptime advances to the root's, the root's to the largest; only the root is locked at
once (R151, R152). -/
def State.formPod (s : State) (dev : Nat) (members : BitVec 128) (rootTime : DWord) : State :=
  if decide (dev < 128) && members.getLsbD dev && members.getLsbD 0 then
    { s with
      dev := dev, members := members, root := dev == 0, lock := dev == 0, syncs := 0
      ptime := if s.ptime.toNat < rootTime.toNat then rootTime else s.ptime }
  else s

/-! ## Links (R408) -/

/-- One port changed. -/
def State.updPort (s : State) (n : Nat) (f : Port → Port) : State := { s with ports := s.ports.modify n f }

/-- FLIT_REPLAY: the count saturates. -/
def State.flitReplay (s : State) (n : Nat) : State := s.updPort n (fun p => { p with replay := if p.replay == 0xFFFFFFFF then p.replay else p.replay + 1 })

/-- A device is lost: every pod grid it takes part in, and every one of all when it is the root, is cancelled; with the root lost the device cancels
locally (R408). -/
def State.loseDevice (s : State) (d : Nat) : State :=
  let s := { s with lostPeers := if s.lostPeers.contains d then s.lostPeers else d :: s.lostPeers }
  s.grids.foldl (fun s g =>
    if g.record.reach != 2 then s
    else if d = 0 then s.updGrid g.num (fun g => if g.cancelled.isSome || g.completing then g else { g with cancelled := some 0x13 })
    else if (g.record.devices s.members).contains d then s.cancelGrid g.num 0x13
    else s) s

/-- PORT_DOWN: the port is down and the devices left without a route are lost. -/
def State.portDown (s : State) (n : Nat) (lost : List Nat) : State :=
  (lost.filter (fun d => d != s.dev && s.members.getLsbD d)).foldl State.loseDevice (s.updPort n (fun p => { p with state := 0 }))

/-- PORT_RETRAINING: the port trains, or is up again with its far end, which is no longer lost. -/
def State.portRetrain (s : State) (n : Nat) (up : Bool) (peer pport : Byte) : State :=
  if up then { s.updPort n (fun p => { p with state := 2, peer := peer, pport := pport }) with lostPeers := s.lostPeers.filter (· != peer.toNat) }
  else s.updPort n (fun p => { p with state := 1 })

/-- BRIDGE_REPLAY_FAIL: every grid is cancelled and no command is accepted until a reset (R408). -/
def State.bridgeFail (s : State) : State := { (s.grids.foldl (fun s g => s.cancelGrid g.num 0x13) s) with fatal := true }

/-- THERMAL_TRIP: every cluster's clock stops and the device needs a reset (R411). -/
def State.thermalTrip (s : State) : State := { s with therm := true }

/-! ## Firmware (R412 to R414) -/

/-- The values at bring-up (R158, R414): the physical function is ready, every register that the host writes holds its value of the table or 0, and
nothing runs (log 22). -/
def State.bringUp (s : State) (version : Word) : State :=
  { s with
    fwState := 1, fwErr := 0, fwVersion := version, fwstg := 0, cap := 7, ptime := 0, admitted := 23, window := 0, windowed := 0
    clusters := s.clusters.map (fun c => { c with pool := 6, move := none, cyc10 := 0, idle := false, lastIssue := 0 })
    cores := s.cores.map (fun c => { Core.reset with prop := c.prop })
    groups := [], teams := [], grids := [], requests := [], signals := [], armed := [], prefetches := [], ending := none, loops := [], classRequests := []
    podHeld := [], podReleased := none, podStarts := [], podOut := [], units := [], frozenHeld := [], launchSeq := 0, sliceOwner := none, slicePos := 0
    fns := (List.replicate Config.functions Fn.reset).set 0 { Fn.reset with ready := true } }

/-- FIRMWARE_BOOT: boot code runs the image or enters recovery. -/
def State.boot (s : State) (err : Byte) (version : Word) : State :=
  if s.fwState = 0 then (if err = 0 then s.bringUp version else { s with fwState := 2, fwErr := err }) else s

/-- FWCMD_RUN and FWCMD_FLASH: the staged image of the length given is verified; one that verifies replaces the flash's if that was asked, and runs; one
that fails shows why, and flash and STATE stay (R412, log 22). -/
def State.reload (s : State) (len : Word) (err : Byte) (version : Word) (flash : Bool) : State :=
  if s.fwState = 0 then s
  else if err != 0 then { s with fwErr := err }
  else
    let at_ := hostKey s.fwstg.toNat
    let image : FlashImage :=
      { len := len.toNat, version := version,
        bytes := (s.mem.filter (fun x => decide (at_ ≤ x.1) && decide (x.1 < at_ + len.toNat))).map (fun x => (x.1 - at_, x.2)) }
    State.bringUp (if flash then { s with flash := image } else s) version

/-- FUNCTION_READY: a virtual function starts with the values of R414, and the tables of its masters are written from the memory allotted to it (R380,
R413); with none allotted they stay as they are (log 11). -/
def State.functionReady (s : State) (fn : Nat) (allotted : List (Nat × Nat)) : State :=
  if s.fwState = 1 ∧ 1 ≤ fn ∧ !(s.fn fn).ready then
    let masters := [fn, 0x20 + fn, 0x40 + fn]
    { s.updFn fn (fun _ => { Fn.reset with ready := true }) with
      access := if allotted.isEmpty then s.access
        else s.access.filter (fun r => !masters.contains r.master) ++
          masters.flatMap (fun m => allotted.map (fun (lo, hi) => { master := m, lo := lo, hi := hi, read := true, write := true })) }
  else s

/-- FIRMWARE_CORE_FAIL: FAIL is set for the function alone and its grids are cancelled. -/
def State.coreFail (s : State) (fn : Nat) : State :=
  if fn < Config.functions then
    (s.grids.foldl (fun s g => if g.fn = fn then s.cancelGrid g.num 0x13 else s) (s.updFn fn (fun f => { f with fail := true })))
  else s

/-! ## The steps -/

/-- POWER_PERIOD (R160). -/
def execPowerPeriod (draw : BitVec 16) : State → Host.Outcome State Fault Refusal := fun s => .next (s.powerPeriod draw)

/-- POOL_MOVE_COMPLETE (R159). -/
def execPoolMoveComplete (cluster : Nat) : State → Host.Outcome State Fault Refusal := fun s => .next (s.poolMoved cluster)

/-- BYTE_BUDGET_INTERVAL (R162). -/
def execByteBudgetInterval (grants : List (BitVec 24)) : State → Host.Outcome State Fault Refusal := fun s => .next (s.budgetInterval grants)

/-- CLUSTER_IDLE (R163). -/
def execClusterIdle (cluster : Nat) : State → Host.Outcome State Fault Refusal := fun s => .next (s.clusterIdle cluster)

/-- SLEW_ADMISSION_WINDOW (R163). -/
def execSlewAdmissionWindow : State → Host.Outcome State Fault Refusal := fun s => .next s.admitClusters

/-- THERMAL_TRIP (R411). -/
def execThermalTrip : State → Host.Outcome State Fault Refusal := fun s => .next s.thermalTrip

/-- SYNC_MESSAGE (R405). -/
def execSyncMessage (offs : Int) : State → Host.Outcome State Fault Refusal := fun s => .next (s.syncMessage offs)

/-- SYNC_TIMEOUT (R405). -/
def execSyncTimeout : State → Host.Outcome State Fault Refusal := fun s => .next s.syncTimeout

/-- POD_FORMATION (R152). -/
def execPodFormation (dev : Nat) (members : BitVec 128) (rootTime : DWord) : State → Host.Outcome State Fault Refusal :=
  fun s => .next (s.formPod dev members rootTime)

/-- FLIT_REPLAY (R408). -/
def execFlitReplay (port : Nat) : State → Host.Outcome State Fault Refusal := fun s => .next (s.flitReplay port)

/-- PORT_DOWN (R408). -/
def execPortDown (port : Nat) (lost : List Nat) : State → Host.Outcome State Fault Refusal := fun s => .next (s.portDown port lost)

/-- PORT_RETRAINING (R408). -/
def execPortRetraining (port : Nat) (up : Bool) (peer pport : BitVec 8) : State → Host.Outcome State Fault Refusal :=
  fun s => .next (s.portRetrain port up peer pport)

/-- BRIDGE_REPLAY_FAIL (R408). -/
def execBridgeReplayFail : State → Host.Outcome State Fault Refusal := fun s => .next s.bridgeFail

/-- FIRMWARE_BOOT (R412). -/
def execFirmwareBoot (err : BitVec 8) (version : Word) : State → Host.Outcome State Fault Refusal := fun s => .next (s.boot err version)

/-- FUNCTION_READY (R413). -/
def execFunctionReady (fn : Nat × List (Nat × Nat)) : State → Host.Outcome State Fault Refusal := fun s => .next (s.functionReady fn.1 fn.2)

/-- FIRMWARE_CORE_FAIL (R413). -/
def execFirmwareCoreFail (fn : Nat) : State → Host.Outcome State Fault Refusal := fun s => .next (s.coreFail fn)

/-- FWCMD_RUN (R412). -/
def execFwcmdRun (len : Word) (err : BitVec 8) (version : Word) : State → Host.Outcome State Fault Refusal :=
  fun s => .next (s.reload len err version false)

/-- FWCMD_FLASH (R412). -/
def execFwcmdFlash (len : Word) (err : BitVec 8) (version : Word) : State → Host.Outcome State Fault Refusal :=
  fun s => .next (s.reload len err version true)

end Sys2Proof.Machine
end

