-- ==== Sys2Proof/Machine/Save.lean ====
section
/-! DEFINITION. Sys2Proof/Machine/Save.lean: the save area of a group (R82), the dump (R172, R383), and the debug, census, trial and memory
error registers with behaviour of their own (R166 to R168, R170 to R172, R377 to R382). -/

namespace Sys2Proof.Machine

/-! ## The save area (R82) -/

/-- A length rounded up to 64. -/
def pad64 (n : Nat) : Nat := 64 * ceilDiv n 64
/-- Bytes with the zeroes that bring them to 64. -/
def padded (b : List Byte) : List Byte := b ++ List.replicate (pad64 b.length - b.length) 0

/-- The frames of a group in the order of the area: by depth, then by the lowest owner lane. -/
def Group.saved (g : Group) : List Frame :=
  sorted (fun a b => lexLt [a.depth, ((a.owners.list g.w).head?).getD 64, a.id] [b.depth, ((b.owners.list g.w).head?).getD 64, b.id]) g.frames

/-- The index of a frame in the descriptor list. -/
def Group.savedIndex (g : Group) (id : Nat) : Nat := (g.saved.findIdx? (fun f => f.id == id)).getD 0

/-- A lane record. -/
def Group.laneRecord (g : Group) (l : Nat) : List Byte :=
  let x := g.lane l
  let run := match x.run with | .exited => 2 | .running => 0 | _ => 1
  match x.run with
  | .absent => List.replicate 64 0
  | _ => natLe 8 x.pc.toNat ++ natLe 2 x.fd ++ natLe 1 run ++ [0] ++ natLe 4 (g.savedIndex x.frame) ++ ((List.range 19).flatMap (fun i => natLe 2 (x.phases.getD i 0).toNat)) ++
      List.replicate 10 0

/-- Predicates p0 to p15, W bits each. -/
def Group.predBytes (g : Group) : List Byte :=
  (List.range 16).flatMap (fun p => natLe (g.w / 8) ((List.range g.w).foldl (fun n l => if g.pd p l then n + 2 ^ l else n) 0))

/-- The shape code of a tag (R67). -/
def Tag.code : Tag → Nat
  | .u _ => 0
  | .a .. => 1
  | .g _ => 2
  | .spilled => 3

/-- A frame descriptor. -/
def Group.descriptor (g : Group) (f : Frame) : List Byte :=
  natLe 8 (if f.depth = 0 then 0 else f.rpc.toNat) ++ natLe 4 (match f.caller with | some c => g.savedIndex c | none => 0xFFFFFFFF) ++ natLe 1 f.depth ++
    natLe 1 f.na ++ natLe 1 f.nv ++ natLe 1 f.ns ++ natLe 8 ((List.range f.nv).foldl (fun n j => n + (f.tag j).code * 4 ^ j) 0) ++ natLe 8 f.owners.toNat

/-- The granule sets of the area, each once, in the order of the first register that names it. -/
def Group.savedSets (g : Group) : List Nat :=
  g.saved.foldl (fun acc f => f.v.foldl (fun acc t => match t with | .g id => if acc.contains id then acc else acc ++ [id] | _ => acc) acc) []

/-- A tag word, with the offset of G data. -/
def tagWord (sets : List Nat) (gdo w : Nat) : Tag → Nat
  | .u b => b.toNat
  | .a b d => b.toNat + 2 ^ 32 * d.toNat
  | .g id => gdo + 4 * w * ((sets.findIdx? (· == id)).getD 0)
  | .spilled => 0

/-- The save area of a group whose launch has nt tiles and nac accumulators (R82). -/
def Group.saveArea (g : Group) (nt nac : Nat) : List Byte :=
  let fs := g.saved
  let sets := g.savedSets
  let lanes := (List.range g.w).flatMap g.laneRecord
  let preds := g.predBytes
  let fdo := pad64 (64 + lanes.length + preds.length)
  let descs := fs.flatMap g.descriptor
  let tgo := pad64 (fdo + descs.length)
  let ntags := fs.foldl (fun n f => n + f.nv) 0
  let gdo := pad64 (tgo + 8 * ntags)
  let uno := pad64 (gdo + 4 * g.w * sets.length)
  let unis := fs.flatMap (fun f => f.s.flatMap wordLe)
  let tlo := pad64 (uno + unis.length)
  let aco := tlo + 4096 * nt
  let size := aco + 16384 * nac
  let header := natLe 4 1 ++ natLe 1 g.w ++ natLe 1 g.rank ++ natLe 2 g.gix ++ natLe 2 fs.length ++ natLe 2 ((g.lanes.filter (fun x => x.run != .absent)).length) ++
    natLe 2 g.fmode.toNat ++ natLe 2 g.fflags.toNat ++ natLe 8 size ++ [fdo, tgo, gdo, uno, tlo, aco].flatMap (natLe 4) ++ natLe 1 nt ++ natLe 1 nac ++
    List.replicate 14 0
  padded (header ++ lanes ++ preds) ++ padded descs ++ padded (fs.flatMap (fun f => f.v.flatMap (fun t => natLe 8 (tagWord sets gdo g.w t)))) ++
    padded (sets.flatMap (fun id => (List.range g.w).flatMap (fun l => wordLe ((g.setWords id).getD l 0)))) ++ padded unis ++
    (List.range nt).flatMap g.tile ++ (List.range nac).flatMap (fun a => (g.acc a).flatMap wordLe)

/-- The save area of a group of a launch. -/
def State.saveArea (s : State) (g : Group) : List Byte :=
  match s.grid? g.grid with
  | some x => g.saveArea x.record.nt x.record.nac
  | none => g.saveArea 0 0

/-! ## The dump (R172, R383) -/

/-- An entry of 32 bytes. -/
def dumpEntry (b : List Byte) : List Byte := (b ++ List.replicate 32 0).take 32

/-- The pending register writes of a group: class, number, frame, PC, lanes unwritten. -/
def State.pendingWrites (s : State) (g : Group) : List (List Byte) :=
  let entry (cls n frame : Nat) (pc : DWord) (m : Nat) : List Byte :=
    dumpEntry (natLe 1 1 ++ natLe 1 (32 * cls + n) ++ natLe 2 (g.savedIndex frame) ++ natLe 4 0 ++ natLe 8 pc.toNat ++ natLe 8 m)
  let ofOp (o : Op) : List (List Byte) :=
    let parts := o.parts.filter Part.pending
    let frames := parts.foldl (fun acc (p : Part) => if acc.contains p.frame then acc else acc ++ [p.frame]) []
    let lanes (f : Nat) : Nat := (parts.foldl (fun (m : LaneSet) p => if p.frame == f then m ||| p.lanes else m) 0).toNat
    match o.dest with
    | .vec d c _ => (List.range c).flatMap (fun i => frames.map (fun f => entry 0 (d + i) f o.pc (lanes f)))
    | .uni d c => (List.range c).flatMap (fun i => frames.map (fun f => entry 1 (d + i) f o.pc (lanes f)))
    | .tile t _ => if parts.isEmpty then [] else [entry 2 t 0 o.pc o.lanes.toNat]
    | .wait d => (List.range (max 1 ((o.parts.head?.map Part.size).getD 4 / 4))).flatMap (fun i => frames.map (fun f => entry 0 (d + i) f o.pc (lanes f)))
    | .none => []
  let waiting := (List.range g.w).filterMap (fun l => match (g.lane l).run with
    | .address w => if w.reading then none else some (w.dst, max 1 (w.size / 4), w.frame, (g.lane l).pc - 4, l)
    | _ => none)
  let waits := waiting.foldl (fun acc (d, c, f, pc, _) => if acc.contains (d, c, f, pc) then acc else acc ++ [(d, c, f, pc)]) ([] : List (Nat × Nat × Nat × DWord))
  let ofWait (x : Nat × Nat × Nat × DWord) : List (List Byte) :=
    let m : LaneSet := waiting.foldl (fun m (d, c, f, pc, l) => if (d, c, f, pc) == x then m ||| LaneSet.one l else m) 0
    (List.range x.2.1).map (fun i => entry 0 (x.1 + i) x.2.2.1 x.2.2.2 m.toNat)
  let ofMat (m : MatOp) : List (List Byte) :=
    match m.kind with
    | .mma _ d | .had d | .perm d | .wid d => [entry 3 d 0 m.pc g.live.toNat]
    | .nar d => [entry 2 d 0 m.pc g.live.toNat]
    | .q2 d b | .qe d b => [entry 2 d 0 m.pc g.live.toNat, entry 2 b 0 m.pc g.live.toNat]
  let held := (s.core g.core).completions.filterMap (fun x => match x with | .matrix m => some m | _ => none)
  g.ops.flatMap ofOp ++ waits.flatMap ofWait ++ ((held ++ (s.core g.core).array).filter (fun m => m.slot == g.slot)).flatMap ofMat

/-- Bytes in parts of 16, at least one. -/
def parts16 (b : List Byte) : List (Nat × List Byte) :=
  if b.length ≤ 16 then [(0, b)] else (List.range (ceilDiv b.length 16)).map (fun i => (16 * i, (b.drop (16 * i)).take 16))

/-- The pending stores of a group, head first; an atomic has a write for each lane (R122). -/
def Group.pendingStores (g : Group) : List (List Byte) :=
  g.sf.flatMap (fun i =>
    let lane := lowest i.lanes g.w
    let e (ty size lane : Nat) (a : DWord) (d : List Byte) : List Byte :=
      dumpEntry (natLe 1 2 ++ natLe 1 ty ++ natLe 2 (size + 256 * i.scope) ++ natLe 4 lane ++ natLe 8 a.toNat ++ d)
    match i.kind with
    | .store => (parts16 i.bytes).map (fun (o, b) => e 0 i.bytes.length.log2 lane (g.itemAddr i + BitVec.ofNat 64 o) b)
    | .atomic _ _ ps => ps.flatMap (fun (l, d, _) => (parts16 d).map (fun (o, b) => e 1 d.length.log2 l (g.itemAddr i + BitVec.ofNat 64 o) b))
    | .copy c => [e 2 0 lane c.dst (natLe 8 c.src.toNat ++ natLe 8 c.len)]
    | _ => [e 3 0 lane 0 []])

/-- The operand log entries of a group that hold faulted lanes (R383). -/
def Group.faultedLog (g : Group) : List (List Byte) :=
  g.ops.filterMap (fun o =>
    let ps := o.parts.filter Part.isFaulted
    match o.log with
    | none => none
    | some n =>
      if ps.isEmpty then none
      else
        let m : LaneSet := ps.foldl (fun m p => m ||| p.lanes) 0
        let low := ps.foldl (fun b p => match p.prog with | .faulted _ _ a => (match b with | some x => some (min x a.toNat) | none => some a.toNat) | _ => b) (none : Option Nat)
        some (dumpEntry (natLe 1 4 ++ natLe 1 o.major ++ natLe 2 n ++ natLe 4 (m.list g.w).length ++ natLe 8 o.pc.toNat ++ natLe 8 m.toNat ++ natLe 8 (low.getD 0))))

/-- The record of a group with its entries and save area. -/
def State.dumpGroup (s : State) (g : Group) : List Byte :=
  let pw := s.pendingWrites g
  let ps := g.pendingStores
  let lg := g.faultedLog
  let head := wordLe g.grid ++ natLe 4 g.number ++ natLe 1 g.slot ++ natLe 1 g.w ++ natLe 2 g.gix ++ natLe 2 pw.length ++ natLe 2 ps.length ++
    natLe 1 g.ld ++ natLe 1 g.st ++ natLe 1 g.cp ++ natLe 1 g.tl ++ natLe 2 lg.length
  padded (head ++ List.replicate (64 - head.length) 0) ++ pw.flatten ++ ps.flatten ++ lg.flatten ++ padded (s.saveArea g)

/-- The core record with what stands in Q(c, dev) (R383). -/
def State.dumpQueue (s : State) (core : Nat) : List Byte :=
  let q := (s.core core).prop.filter (fun x => decide (x.reach < 4) && decide (4 ≤ x.last))
  let entry (x : PropItem) : List (List Byte) :=
    let e (ty size scope : Nat) (a : DWord) (d : List Byte) : List Byte :=
      dumpEntry (natLe 1 3 ++ natLe 1 ty ++ natLe 2 (size + 256 * scope) ++ natLe 4 x.slot ++ natLe 8 a.toNat ++ d)
    match x.mark with
    | some _ => [e 3 0 x.last 0 []]
    | none =>
      match x.shown with
      | some d => (parts16 d.data).map (fun (o, b) => e d.ty d.data.length.log2 d.scope (d.va + BitVec.ofNat 64 o) b)
      | none => []
  let es := q.flatMap entry
  let head := natLe 4 0xFFFFFFFF ++ natLe 2 es.length ++ natLe 2 core
  padded (head ++ List.replicate (64 - head.length) 0) ++ es.flatten

/-- The resident groups of the stopped partitions of a core, by slot. -/
def State.stoppedGroups (s : State) (core : Nat) : List Group :=
  (List.range 64).filterMap (fun i => if s.stopped core i then s.group? core i else none)

/-- DUMPA_WRITE: a dump of the stopped partitions to a 64-aligned address of the physical function's context (R172, log 20), also while BUSY is set.
A value that is not 64-aligned changes nothing (R6) and starts no dump (DESIGN CHOICE, log 20); in recovery the register is not there (R412). -/
def State.dumpStart (s : State) (core : Nat) (v : DWord) : State :=
  if v.toNat % 64 ≠ 0 ∨ s.fwState = 2 then s
  else
    let gs := s.stoppedGroups core
    let (s, _) := s.writeVa none 0 0 v (gs.flatMap s.dumpGroup ++ s.dumpQueue core)
    s.updCore core (fun c => { c with dumpa := v, dumpst := BitVec.ofNat 64 (1 + 65536 * (gs.length + 1)) })

/-- DUMP_COMPLETE: BUSY falls. -/
def State.dumpDone (s : State) (core : Nat) : State := s.updCore core (fun c => { c with dumpst := c.dumpst &&& ~~~(1#64) })

/-! ## Census, trials, memory errors, access tables (R166 to R168, R378 to R382) -/

/-- CENSCTL_CLEAR_DIFF; in recovery the register is not there, like the others here (R412). -/
def State.clearDiff (s : State) (fn : Nat) : State := if s.fwState = 2 then s else s.updFn fn (fun f => { f with censctl := f.censctl &&& ~~~(8#64), censdiff := 0 })

/-- TRIALCTL_WRITE. -/
def State.writeTrial (s : State) (fn : Nat) (v : DWord) : State :=
  if s.fwState = 2 then s else
  s.updFn fn (fun f => { f with trialctl := v &&& 0xFFFFFFFFFFFF0001, dlycnt := if v.getLsbD 0 then 0 else f.dlycnt })

/-- MERRCNT_WRITE. -/
def State.clearErrorsCount (s : State) (fn : Nat) : State := if s.fwState = 2 then s else s.updFn fn (fun f => { f with merrUnc := 0, merrCor := 0 })

/-- An access to a unit is pending: one of a group whose unit has not bound, an entry of a store FIFO, or a unit that a copy has yet to read or
write (R378). -/
def State.unitPending (s : State) (u : Nat) : Bool :=
  s.groups.any (fun g =>
    g.sf.any (fun i => unitOf i.key == u) ||
      g.ops.any (fun o => o.parts.any (fun p => p.pending && p.units.any (fun x => unitOf x.key == u && (match x.prog with | .bound .. => false | _ => true))))) ||
    s.cores.any (fun c => c.engine.any (fun x => x.taken && !x.done &&
      (match s.copyPlan x with
       | (_, src, dst, _) =>
         src.units.any (fun (k, o, _) => unitOf k == u && !x.got.any (fun y => y.1 == o)) || dst.units.any (fun (k, o, _) => unitOf k == u && !x.put.contains o))))

/-- SCRUB_READ: the unit of a present location to which no access is pending is read: an uncorrectable error is counted and recorded, else a
correctable one is counted and gone; an access that is pending goes first (R378, R379). -/
def State.scrub (s : State) (pa : Nat) : State :=
  if !s.paPresent pa || s.unitPending (unitOf pa) then s
  else
    let u := unitOf pa
    let hits := s.bitErrors.filter (fun e => decide (u ≤ e.key) && decide (e.key < u + 32))
    if hits.isEmpty then s
    else if hits.any BitError.uncorrectable then
      match hits.find? BitError.uncorrectable with
      | some e => { s.noteErrors 0 u 32 with merrlast := BitVec.ofNat 64 (7 * 2 ^ 60 + e.key % 2 ^ 56) }
      | none => s
    else { s.noteErrors 0 u 32 with bitErrors := s.bitErrors.filter (fun e => !(decide (u ≤ e.key) && decide (e.key < u + 32))) }

/-- ACCESS_VIOLATION: a request of a master that its table forbids (R381); one that the fetch of a path makes is the path's, which it never
reaches. -/
def State.accessViolation (s : State) (master pa : Nat) (kind : BitVec 3) (grid : Word) : State :=
  let k : Want := ⟨kind.getLsbD 0, kind.getLsbD 1, kind.getLsbD 2⟩
  match s.cur with
  | some cu =>
    (s.violate ⟨master, pa, k⟩ grid cu.core cu.slot (lowest cu.path 64) cu.pc).updGroup cu.core cu.slot (fun g => { g with lost := g.lost ||| cu.path })
  | none => if s.permits master pa (k.write || k.atomic) then s else s.violate ⟨master, pa, k⟩ grid 0 0 0 0

/-- A request of a part of an access is held at its frozen master's arbiter (R381). -/
def State.partHeld (s : State) (g : Group) (o : Op) (p : Part) : Bool :=
  p.prog == .untranslated && (match s.translatePart g o p with | (_, .later held) => held | _ => false)

/-- The frozen master that holds what a copy of a function asks: the copy's own, or the one of the function's walks (R380). -/
def State.copyMaster (s : State) (fn : Nat) : Nat := if s.frozen.contains (0x20 + fn) then 0x20 + fn else fn

/-- A request of a copy is held at the arbiter of a frozen master. -/
def State.copyHeld (s : State) (m : Nat) (c : CopyCmd) : Bool :=
  c.taken && !c.done && s.copyMaster c.fn == m && (match s.copyPlan c with | (_, _, _, some (.frozen, _)) => true | _ => false)

/-- A request of a PREFETCH copy is held at the arbiter of a frozen master. -/
def State.prefetchHeld (s : State) (m fn : Nat) (c : PrefetchCopy) : Bool :=
  !c.lost && s.copyMaster fn == m && (match s.prefetchMove fn c with | (_, some .frozen) => true | _ => false)

/-- The master has a request of a grid held at an arbiter: one that met it frozen, or would (R381). -/
def State.heldRequest (s : State) (m : Nat) (g : Grid) : Bool :=
  s.frozenHeld.contains (m, g.num) || s.cores.any (fun c => c.engine.any (fun x => x.grid == g.num && s.copyHeld m x)) ||
    (m == g.fn && s.groups.any (fun x => x.grid == g.num && x.ops.any (fun o => o.parts.any (s.partHeld x o))))

/-- The requests of a frozen master that are held are discarded (R382, R384): those of accesses and copies, whose counters stay, of PREFETCH
copies, and the completion event of a grid. -/
def State.discardHeld (s : State) (m : Nat) : State :=
  { s with
    groups := s.groups.map (fun g =>
      if s.fnOf g.grid == m then
        { g with ops := g.ops.map (fun o => { o with parts := o.parts.map (fun p => if s.partHeld g o p then { p with prog := .discarded } else p) }) }
      else g)
    cores := s.cores.map (fun c => { c with engine := c.engine.filter (fun x => !s.copyHeld m x) })
    prefetches := s.prefetches.map (fun p => { p with copies := p.copies.map (fun c => if s.prefetchHeld m p.fn c then { c with lost := true } else c) })
    grids := s.grids.map (fun g =>
      if g.completing && s.frozenHeld.contains (m, g.num) then { g with record := { g.record with evop := 0 } } else g) }

/-- ACCCTL_WRITE: a frozen master runs again; the grids with a held request of it are cancelled, and the requests are gone (R382). -/
def State.releaseMaster (s : State) (m : Nat) : State :=
  if !s.frozen.contains m || s.fwState = 2 then s
  else
    let held := s.grids.filter (s.heldRequest m)
    let s := held.foldl (fun s g => s.cancelGrid g.num 0x12) (s.discardHeld m)
    { s with frozen := s.frozen.erase m, frozenHeld := s.frozenHeld.filter (fun x => x.1 != m) }

/-- HOST_WRITE: the host writes host memory, or device memory as its access table lets it, at the sys point, request by request: from one that is
forbidden on nothing is written, for a frozen host's writes are dropped (R119, R121, R380, R381). -/
def State.hostWrite (s : State) (key : Nat) (bs : List Byte) : State :=
  if isScratchKey key || bs.isEmpty then s
  else if isHostKey key then s.addBytes key bs none [] 6
  else if !(s.paPresent key && s.paPresent (key + bs.length - 1)) || s.frozen.contains 0x60 then s
  else
    match s.forbids 0x60 key bs.length true with
    | none => s.addBytes key bs none [] 6
    | some pa => ((if pa = key then s else s.addBytes key (bs.take (pa - key)) none [] 6)).violate ⟨0x60, pa, ⟨true, false, false⟩⟩ 0xFFFFFFFF 0 0 0 0

/-- The host's read of device memory: all-ones while its master is frozen, and for a request that its access table forbids and the ones after it, which
freezes the master (R380, R381). -/
def State.hostRead (s : State) (key n : Nat) : State × List Byte :=
  if s.frozen.contains 0x60 then (s, List.replicate n 0xFF)
  else
    match s.forbids 0x60 key n false with
    | none => (s, s.readKey none 6 key n)
    | some pa => (s.violate ⟨0x60, pa, .read⟩ 0xFFFFFFFF 0 0 0 0, s.readKey none 6 key (pa - key) ++ List.replicate (key + n - pa) 0xFF)

/-! ## The steps -/

/-- DUMPA_WRITE (R172). -/
def execDumpaWrite (core : Nat) (v : DWord) : State → Host.Outcome State Fault Refusal := fun s => .next (s.dumpStart core v)

/-- DUMP_COMPLETE (R172). -/
def execDumpComplete (core : Nat) : State → Host.Outcome State Fault Refusal := fun s => .next (s.dumpDone core)

/-- CENSCTL_CLEAR_DIFF (R166). -/
def execCensctlClearDiff (fn : Nat) : State → Host.Outcome State Fault Refusal := fun s => .next (s.clearDiff fn)

/-- CENSCTL_CHK (R167). -/
def execCensctlChk (fn : Nat) : State → Host.Outcome State Fault Refusal := fun s => .next (s.censCheck fn)

/-- TRIALCTL_WRITE (R168). -/
def execTrialctlWrite (fn : Nat) (v : DWord) : State → Host.Outcome State Fault Refusal := fun s => .next (s.writeTrial fn v)

/-- MERRCNT_WRITE (R379). -/
def execMerrcntWrite (fn : Nat) : State → Host.Outcome State Fault Refusal := fun s => .next (s.clearErrorsCount fn)

/-- SCRUB_READ (R378). -/
def execScrubRead (pa : Nat) : State → Host.Outcome State Fault Refusal := fun s => .next (s.scrub pa)

/-- ACCESS_VIOLATION (R381). -/
def execAccessViolation (master pa : Nat) (kind : BitVec 3) (grid : Word) : State → Host.Outcome State Fault Refusal :=
  fun s => .next (s.accessViolation master pa kind grid)

/-- ACCCTL_WRITE (R382). -/
def execAccctlWrite (id : BitVec 8) : State → Host.Outcome State Fault Refusal := fun s => .next (s.releaseMaster id.toNat)

/-- HOST_WRITE (R121). -/
def execHostWrite (addr : Nat) (bytes : List Byte) : State → Host.Outcome State Fault Refusal := fun s => .next (s.hostWrite addr bytes)

end Sys2Proof.Machine
end

