-- ==== Sys2Proof/Machine/Preempt.lean ====
section
/-! DEFINITION. Sys2Proof/Machine/Preempt.lean: pre-emption (R385 to R397): units of eviction and their blocking points, the choice of
victims at a slice boundary, eviction into a context block, waking, and restoring. -/

namespace Sys2Proof.Machine

/-! ## Reading code (R194, R214) -/

/-- The word at an address as a load at dev scope without a floor reads it, when it can be fetched. -/
def State.codeWord (s : State) (core fn : Nat) (pc : DWord) : Option Word :=
  match s.walk fn (s.readEntry (some core)) pc with
  | some (_, x) =>
    match s.judge fn ⟨false, true, false⟩ 4 x with
    | .ok k => some (leWord (s.readKey (some core) 4 k 4))
    | _ => none
  | none => none

/-- The words from an address on to the end of the chain or packet, at most n. -/
def State.codeWords (s : State) (core fn : Nat) : Nat → DWord → List Word
  | 0, _ => []
  | n + 1, pc =>
    match s.codeWord core fn pc with
    | none => []
    | some w => w :: if wordChain w && pc.toNat % 12 / 4 != 2 then s.codeWords core fn n (pc + 4) else []

/-- The words of the chain that begins at an address. -/
def State.codeChain (s : State) (core fn : Nat) (pc : DWord) : List Word := s.codeWords core fn 3 pc

/-- The lanes of a lane's path (R46). -/
def Group.pathOf (g : Group) (l : Nat) : LaneSet :=
  LaneSet.ofPred g.w (fun i => (g.lane i).run.runnable && (g.lane i).pc == (g.lane l).pc && (g.lane i).fd == (g.lane l).fd)

/-- The chain of a lane's path has a cb.res or cb.wait that cannot go on, for FREE or FILLED is 0, and it waits there as a whole (R47, R282). -/
def State.bufferStall (s : State) (g : Group) (l : Nat) : Bool :=
  let stalls (w : Word) : Bool :=
    let r := RawWord.ofWord w
    let p := Rri.ofPay r.pay
    r.op == 0x26 && g.active (g.pathOf l) ⟨false, wordGuard w⟩ != 0 &&
      (match (s.region? g.core g.grid).bind (fun x => x.bufs.find? (fun b => b.num == (p.i.extractLsb' 0 4).toNat)) with
       | some b => (p.f == 0 && b.free == 0) || (p.f == 2 && b.filled == 0)
       | none => false)
  (s.codeChain g.core (s.fnOf g.grid) (g.lane l).pc).any stalls

/-- The lane's path waits under R60 for a load of host space. -/
def Group.loadStall (g : Group) (l : Nat) : Bool :=
  g.stalls.any (fun x => x.lanes.has l && (g.lane l).pc == x.pc && g.ops.any (fun o => o.id == x.op))

/-! ## Units and blocking points (R385, R386) -/

/-- Where a live lane stands: the kinds of R386, and `runnable` for none of them. -/
inductive Blocking where
  | internal
  | external
  | load
  | runnable
  | other
  deriving DecidableEq, Repr

/-- The bar at which a lane is held: a barrier's or regroup's while its release completes, or 20 for a sys.cinv (R44, R130). -/
def Group.heldBar (g : Group) (l : Nat) : Option Nat := (g.arrivals.find? (fun a => a.lanes.has l)).map Arrival.bar

/-- The blocking point of a lane. -/
def State.blocking (s : State) (g : Group) (l : Nat) : Blocking :=
  match (g.lane l).run with
  | .held => (match g.heldBar l with | some 18 | some 20 | none => .other | some _ => .internal)
  | .barrier bar _ => if bar = 18 then .other else .internal
  | .regroup .. => .internal
  | .address _ => .external
  | .running => if g.heldBar l == some 20 then .other else if g.loadStall l then .load else if s.bufferStall g l then .internal else .runnable
  | _ => .other

/-- The live lanes of a group. -/
def Group.liveList (g : Group) : List Nat := g.live.list g.w

/-- A unit of eviction: its grid, die, teams in ascending order and their groups. -/
structure EvictUnit where
  grid : Grid
  die : Nat
  teams : List Nat
  groups : List Group

/-- The groups of some teams of a grid, by team and index. -/
def State.groupsOf (s : State) (grid : Word) (teams : List Nat) : List Group :=
  sorted (fun a b => lexLt [a.team, a.gix] [b.team, b.gix]) (s.groups.filter (fun g => g.grid == grid && teams.contains g.team))

/-- The cores of some groups, ascending. -/
def coresOf (gs : List Group) : List Nat := (List.range Config.cores).filter (fun c => gs.any (fun g => g.core == c))

/-- The teams of a grid on the cores of some of its teams, until no core adds one. -/
def State.teamsTogether (s : State) (grid : Word) : Nat → List Nat → List Nat
  | 0, ts => ts
  | n + 1, ts =>
    let cs := coresOf (s.groupsOf grid ts)
    let more := sorted (fun a b => decide (a < b)) ((s.teams.filter (fun t => t.grid == grid && !t.evicted &&
      s.groups.any (fun g => g.grid == grid && g.team == t.num && cs.contains g.core))).map Team.num)
    if more.length = ts.length then ts else State.teamsTogether s grid n more

/-- The unit of a team (R385). -/
def State.unitOf (s : State) (g : Grid) (t : Team) : EvictUnit :=
  let ts := if g.record.scrl = 0 then [t.num] else s.teamsTogether g.num Config.cores [t.num]
  { grid := g, die := t.die, teams := ts, groups := s.groupsOf g.num ts }

/-- The unit is at a blocking point (R386). -/
def State.atBlocking (s : State) (u : EvictUnit) : Bool :=
  let all := u.groups.flatMap (fun g => g.liveList.map (s.blocking g))
  all.all (fun b => b != .runnable && b != .other) && all.any (fun b => b == .external || b == .load)

/-- Some team of a unit spans a twin. -/
def EvictUnit.twin (u : EvictUnit) : Bool := u.teams.any (fun n =>
  let cs := coresOf (u.groups.filter (fun g => g.team == n))
  u.grid.record.barrier && decide (1 < cs.length))

/-! ## The context block (R392) -/

/-- Scratch bytes of a core from an offset on. -/
def State.scratchBytes (s : State) (core off n : Nat) : List Byte := s.readKey (some core) 1 (scratchKey core off) n

/-- The window sets of a team: the cores that hold its groups. -/
def EvictUnit.sets (u : EvictUnit) (team : Nat) : List Nat := coresOf (u.groups.filter (fun g => g.team == team))

/-- The window images, by team and core. -/
def State.windowImages (s : State) (u : EvictUnit) : List (Nat × Nat × List Byte) :=
  u.teams.flatMap (fun n =>
    match s.team? u.grid.num n with
    | none => []
    | some t => (u.sets n).map (fun c =>
        (n, c, match t.windows.find? (fun x => x.1 == c) with | some (_, b) => s.scratchBytes c b (windowBytes t.ss) | none => [])))

/-- The regions of the unit's grid on its cores, with their bytes. -/
def State.regionImages (s : State) (u : EvictUnit) : List (Nat × Region × List Byte) :=
  if u.grid.record.scrl = 0 then []
  else (coresOf u.groups).filterMap (fun c => (s.region? c u.grid.num).map (fun r => (c, r, s.scratchBytes c r.base u.grid.record.regionBytes)))

/-- The region image of a region. -/
def regionImage (r : Region) (content : List Byte) : List Byte :=
  let buf (n : Nat) : Option CBuf := r.bufs.find? (fun b => b.num == n)
  (List.range 16).flatMap (fun n => match buf n with
    | some b => natLe 1 b.pi ++ natLe 1 b.ci ++ natLe 1 b.ri ++ natLe 1 0 ++ natLe 2 b.free ++ natLe 2 b.filled ++ List.replicate 8 0
    | none => List.replicate 16 0) ++
  (List.range 16).flatMap (fun n => match buf n with
    | some b => (List.range 256).map (fun i => BitVec.ofNat 8 (match b.state.getD i 0 with | 4 => 1 | k => k))
    | none => List.replicate 256 0) ++
  r.tags.flatMap (fun e => natLe 8 e.la ++ natLe 2 e.sl ++ natLe 1 (if e.valid then 1 else 0) ++ List.replicate 5 0) ++ content

/-- The wait record of a lane. -/
def waitRecord (tidx gix lane : Nat) (w : WtaWait) : List Byte :=
  natLe 1 ((if w.acq then 1 else 0) + (if w.size = 8 then 2 else 0)) ++ natLe 1 w.scope ++ natLe 1 w.dst ++ natLe 1 lane ++ natLe 2 tidx ++ natLe 2 gix ++
    natLe 8 w.va.toNat ++ natLe 8 w.cmp.toNat ++ natLe 8 (w.deadline.getD 0) ++ List.replicate 32 0

/-- The offsets of parts laid one after another from an offset. -/
def offsets : Nat → List (List Byte) → List Nat
  | _, [] => []
  | o, b :: r => o :: offsets (o + b.length) r

/-- The block of a unit, and its FL byte. -/
def State.contextBlock (s : State) (u : EvictUnit) (wake : Bool) : List Byte × Nat :=
  let regions := s.regionImages u
  let fl := (if u.twin then 1 else 0) + (if regions.isEmpty then 0 else 2) + (if wake then 4 else 0)
  let wins := s.windowImages u
  let teamsLen := u.teams.foldl (fun n t => n + 128 + 64 * (u.groups.filter (fun g => g.team == t)).length) 0
  let areas := u.groups.map (fun g => padded (s.saveArea g))
  let areaAt := offsets (64 + teamsLen) areas
  let winsFrom := 64 + teamsLen + areas.flatten.length
  let winBytes := wins.map (fun x => padded x.2.2)
  let winAt := offsets winsFrom winBytes
  let regFrom := winsFrom + winBytes.flatten.length
  let regBytes := padded (regions.flatMap (fun x => regionImage x.2.1 x.2.2))
  let waits := u.groups.flatMap (fun g => (List.range g.w).filterMap (fun l =>
    match (g.lane l).run with
    | .address w => some (waitRecord ((u.teams.findIdx? (· == g.team)).getD 0) g.gix l w)
    | _ => none))
  let waitFrom := regFrom + regBytes.length
  let size := waitFrom + 64 * waits.length
  let phases (ps : List Half) : List Byte := (List.range 18).flatMap (fun i => natLe 2 (ps.getD i 0).toNat)
  let team (n : Nat) : List Byte :=
    match s.team? u.grid.num n with
    | none => []
    | some t =>
      let gs := u.groups.zipIdx.filter (fun (g, _) => g.team == n)
      let sets := u.sets n
      let b := t.box
      natLe 4 t.number ++ natLe 4 b.ox ++ natLe 4 b.oy ++ natLe 4 b.oz ++ natLe 4 b.ex ++ natLe 4 b.ey ++ natLe 4 b.ez ++ natLe 4 t.ss ++ natLe 2 t.gcnt ++
        natLe 2 sets.length ++ phases t.tp ++ (List.range 16).flatMap (fun i => natLe 2 (t.ncnt.getD i 1)) ++ List.replicate 24 0 ++
        gs.flatMap (fun (g, i) =>
          let w := (wins.findIdx? (fun x => x.1 == n && x.2.1 == g.core)).getD 0
          natLe 8 (areaAt.getD i 0) ++ phases g.gp ++ natLe 1 ((sets.findIdx? (· == g.core)).getD 0) ++ natLe 1 (g.core % 2) ++
            natLe 2 0 ++ natLe 8 (winAt.getD w 0) ++ List.replicate 8 0)
  let header := natLe 4 0x101 ++ wordLe u.grid.num ++ natLe 2 u.teams.length ++ natLe 2 ((coresOf u.groups).headD 0) ++ natLe 1 fl ++ List.replicate 3 0 ++
    natLe 8 size ++ natLe 8 s.ptime.toNat ++ natLe 8 (if regions.isEmpty then 0 else regFrom) ++ natLe 8 waitFrom ++ natLe 2 waits.length ++ List.replicate 14 0
  (header ++ u.teams.flatMap team ++ areas.flatten ++ winBytes.flatten ++ regBytes ++ waits.flatten, fl)

/-! ## Choosing victims (R387, R389) -/

/-- The pool of a function has room for a block of n bytes (R387, R388). -/
def State.poolRoom (s : State) (fn n : Nat) : Bool :=
  let f := s.fn fn
  f.prepool.getLsbD 0 && decide (n + 64 * f.inuse.toNat ≤ f.presize.toNat % 2 ^ 40)

/-- A unit may be evicted (R387). -/
def State.evictable (s : State) (u : EvictUnit) : Bool :=
  !u.grid.record.resident && !u.grid.cancelSeen && !u.groups.isEmpty &&
    u.groups.all (fun g => !s.stopped g.core g.slot && g.heldFault.isNone && g.evicting.isNone && !g.ops.any (fun o => o.parts.any Part.isFaulted)) &&
    s.poolRoom u.grid.fn (s.contextBlock u false).1.length

/-- What a unit holds is free: slots, and with the groups their tags, granules, tiles and accumulators; windows, regions and waits for
them. Its teams stay, evicted. -/
def State.freeUnit (s : State) (u : EvictUnit) : State :=
  let cores := coresOf u.groups
  let mine (g : Group) : Bool := g.grid == u.grid.num && u.teams.contains g.team
  let s1 : State := { s with
    groups := s.groups.filter (fun g => !mine g)
    teams := s.teams.map (fun t => if t.grid == u.grid.num && u.teams.contains t.num then { t with evicted := true, timer := none } else t) }
  let s2 := cores.foldl (fun (s : State) k =>
    s.updCore k (fun c =>
      { c with
        requests := c.requests.filter (fun r => !u.groups.any (fun g => g.core == k && g.slot == r.slot))
        ranges := c.ranges.filter (fun r => !(r.grid == u.grid.num && (match r.team with | some t => u.teams.contains t | none => true)))
        regions := c.regions.filter (fun r => r.grid != u.grid.num) })) s1
  s2.poolDrops cores

/-- A grid's next team on a die would be placed, or its clusters start to move. -/
def State.placesNow (s : State) (grid : Word) (die : Nat) : Bool :=
  let t := s.dispatchOne grid die
  decide (s.teams.length < t.teams.length) || (((t.grid? grid).bind (fun g => g.cuts[die]?)).map (fun c => !c.moving.isEmpty)).getD false

/-- A grid has a team to place on a die, and it cannot be placed. -/
def State.cannotPlace (s : State) (g : Grid) (die : Nat) : Bool :=
  match g.cuts[die]? with
  | none => false
  | some c =>
    g.released && !g.cancelSeen && c.takes && s.queueMayPlace g && (c.chosen.isSome || ((c.choose g.record).chosen).isSome || (g.record.resident && !c.empty)) &&
      !s.placesNow g.num die

/-- The class that the waiting team of a grid is placed at on a die (R158, R160). -/
def State.waitingClass (s : State) (g : Grid) (die : Nat) : Nat :=
  min ((((g.cuts[die]?).bind (fun c => (DieCut.choose g.record c).chosen)).map (fun x => x.2.1)).getD 0) s.cap

/-- The units of other queues that R389 takes for a team that waits on a die, in its order: those on masked cores of the die whose cluster is in the pool
of the team's class or of a higher one, or can be emptied of its teams (R158). -/
def State.candidates (s : State) (fn q : Nat) (g : Grid) (die : Nat) : List EvictUnit :=
  let units := s.teams.foldl (fun (acc : List EvictUnit) t =>
    match s.grid? t.grid with
    | none => acc
    | some x =>
      if t.evicted || (x.fn == fn && x.queue == q) || acc.any (fun u => u.grid.num == x.num && u.teams.contains t.num) then acc
      else acc ++ [s.unitOf x t]) []
  let age (u : EvictUnit) : Nat := u.teams.foldl (fun n t => max n (((s.team? u.grid.num t).map Team.age).getD 0)) 0
  let fit := units.filter (fun u => s.atBlocking u && s.evictable u)
  let mine (x : Group) : Bool := fit.any (fun u => u.grid.num == x.grid && u.teams.contains x.team)
  let empties (n : Nat) : Bool := s.groups.all (fun x => clusterOf x.core != n || mine x)
  let usable (c : Nat) : Bool :=
    c / Config.coresPerDie == die && g.record.masked c && (decide (s.waitingClass g die ≤ (s.cluster (clusterOf c)).pool) || empties (clusterOf c))
  let fit := fit.filter (fun u => (coresOf u.groups).any usable)
  let top := s.stamp + 1
  sorted (fun a b => lexLt [(s.queue a.grid.fn a.grid.queue).weight.toNat, top - age a] [(s.queue b.grid.fn b.grid.queue).weight.toNat, top - age b]) fit

/-- Units are taken until the waiting team can be placed. -/
def takeVictims (grid : Word) (die : Nat) : List EvictUnit → State → List EvictUnit
  | [], _ => []
  | u :: us, s => if s.placesNow grid die then [] else u :: takeVictims grid die us (s.freeUnit u)

/-- Step 1 of R390: the unit's groups are not ready. -/
def State.markUnit (s : State) (u : EvictUnit) : State :=
  u.groups.foldl (fun s g => s.updGroup g.core g.slot (fun x => { x with evicting := some (LaneSet.ofPred x.w (fun l => x.loadStall l)) })) s

/-! ## Eviction (R390, R391, R397) -/

/-- Step 1 is cleared: the eviction is abandoned. -/
def State.abandonUnit (s : State) (u : EvictUnit) : State :=
  u.groups.foldl (fun s g => s.updGroup g.core g.slot (fun x => { x with evicting := none, moved := false })) s

/-! ## Resuming stopped partitions (R171, R397) -/

/-- A held completion of a core is applied. -/
def State.applyHeld (core : Nat) (s : State) : Completion → State
  | .load slot op elem =>
    match (s.group? core slot).bind (fun g => g.ops.find? (fun o => o.id == op)) with
    | some o => match o.elems[elem]? with | some (i, _) => s.partBound core slot op i | none => s
    | none => s
  | .copy _ id =>
    match (s.core core).engine.find? (fun c => c.id == id && c.done) with
    | some c => s.copyFinish core c
    | none => s
  | .matrix m => s.matrixWrite core m

/-- The slot of a held completion. -/
def Completion.slot : Completion → Nat
  | .load slot _ _ => slot
  | .copy slot _ => slot
  | .matrix m => m.slot

/-- An eviction that a stop of one of its partitions has met is abandoned when the partition goes on (R397). -/
def State.resumeUnit (s : State) (core : Nat) (parts : BitVec 8) : State :=
  (s.groups.filter (fun g => g.core == core && parts.getLsbD (g.slot / 8) && g.evicting.isSome)).foldl (fun s g =>
    match s.grid? g.grid, s.team? g.grid g.team with
    | some x, some t => s.abandonUnit (s.unitOf x t)
    | _, _ => s) s

/-- DSTOP.RES: partitions go on and what was held for their groups is applied in order of arrival (R171); in recovery the register is not there (R412). -/
def State.dstopResume (s : State) (core : Nat) (parts : BitVec 8) : State :=
  if s.fwState = 2 then s else
  let s := s.resumeUnit core (parts &&& (s.core core).dstop)
  let s1 := s.updCore core (fun k => { k with dstop := k.dstop &&& ~~~parts })
  let mine (x : Completion) : Bool := parts.getLsbD (x.slot / 8)
  let due := (s.core core).completions.filter mine
  let s2 := s1.updCore core (fun k => { k with completions := k.completions.filter (fun x => !mine x) })
  due.foldl (State.applyHeld core) s2

/-! ## The steps of an eviction (R390) -/

/-- A copy whose destination lies in a window or region of the unit is in the engine of a core of its twins, or is a group's that has not given it to
the engine yet (R390 step 2). -/
def State.copiesInto (s : State) (u : EvictUnit) : Bool :=
  let cores := coresOf u.groups
  let near (k : Nat) : Bool := cores.any (fun c => c / 2 == k / 2)
  let into (x : CopyCmd) : Bool :=
    x.grid == u.grid.num && x.kind != 1 && x.kind != 4 && ((x.sideCore x.dstHi).map cores.contains).getD false &&
      (u.grid.record.scrl != 0 || u.teams.contains x.team)
  (List.range Config.cores).any (fun k => near k && (s.core k).engine.any into) ||
    s.groups.any (fun g => near g.core &&
      (g.sf.any (fun i => match i.kind with | .copy c => into c | _ => false) || g.ops.any (fun o => match o.kind with | .copy c => into c | _ => false)))

/-- Step 2 is over. -/
def State.unitDrained (s : State) (u : EvictUnit) : Bool :=
  u.groups.all (fun g => s.drained g && g.ld == 0 && g.st == 0 && g.cp == 0 && g.tl == 0) && !s.copiesInto u

/-- A lane of a marked group is runnable or at no blocking point; one whose load bound meanwhile is saved runnable (R390 step 3). -/
def State.groupMoved (s : State) (g : Group) : Bool :=
  g.liveList.any (fun l =>
    match s.blocking g l with
    | .runnable | .other => !((g.evicting.map (fun m => m.has l)).getD false)
    | _ => false)

/-- A lane has become runnable or left an internal blocking point since the unit was marked (R390 step 3). -/
def State.hasMoved (s : State) (u : EvictUnit) : Bool :=
  u.groups.any (fun g => g.moved || s.groupMoved g)

/-- A group of the unit holds a fault: an imprecise one, or an access of a faulted lane (R387). -/
def EvictUnit.faulted (u : EvictUnit) : Bool := u.groups.any (fun g => g.heldFault.isSome || g.ops.any (fun o => o.parts.any Part.isFaulted))

/-- Some lane is saved runnable. -/
def State.savesRunnable (s : State) (u : EvictUnit) : Bool := u.groups.any (fun g => g.liveList.any (fun l => s.blocking g l == .runnable))

/-- The place of a block: 64-aligned within the pool, on no other block of the function (R388). -/
def State.blockPlace (s : State) (fn : Nat) (blk : DWord) (n : Nat) : Bool :=
  let f := s.fn fn
  let base := f.prepool.toNat % 2 ^ 56 / 64 * 64
  let b := blk.toNat
  decide (b % 64 = 0) && decide (base ≤ b) && decide (b + n ≤ base + f.presize.toNat % 2 ^ 40) &&
    s.units.all (fun u => u.fn != fn || decide (b + n ≤ u.block.toNat) || decide (u.block.toNat + u.size ≤ b))

/-- Step 4 of R390: a release fence at dev on each of the unit's cores; its marker. -/
def State.unitFence (s : State) (cores : List Nat) : State × Nat :=
  let (s, m) := s.newMark
  (cores.foldl (fun s k => s.updCore k (fun c =>
    if c.prop.isEmpty then c else { c with prop := c.prop ++ [{ mark := some m, seq := 0, unit := 0, reach := 1, last := 4, slot := 0, shown := none }] })) s, m)

/-- EVICTION: once a marked unit has drained, it is evicted into a block at the address the firmware core chose, or the eviction is
abandoned (R390, R397). -/
def State.evict (s : State) (grid : Word) (team : Nat) (blk : DWord) : State :=
  match s.grid? grid, s.team? grid team with
  | some g, some t =>
    let u := s.unitOf g t
    if !u.groups.any (fun x => x.evicting.isSome) || u.groups.any (fun x => s.stopped x.core x.slot) then s
    else if !u.groups.all (fun x => x.evicting.isSome) || u.faulted then s.abandonUnit u
    else if !s.unitDrained u then s
    else if s.hasMoved u || g.cancelSeen then s.abandonUnit u
    else
      let runs := s.savesRunnable u
      let (bytes, fl) := s.contextBlock u runs
      if !s.poolRoom g.fn bytes.length then s.abandonUnit u
      else if !s.blockPlace g.fn blk bytes.length then s
      else
        let (s1, m) := s.unitFence (coresOf u.groups)
        match s1.storeBad g.fn (0x40 + g.fn) blk bytes.length with
        | (s2, true) => s2.abandonUnit u
        | (s1, false) =>
        match s1.writeVa none g.fn (0x40 + g.fn) blk bytes with
        | (s2, some (.forbidden d, _)) => (s2.violate d 0xFFFFFFFF 0 0 0 0).abandonUnit u
        | (_, some (.frozen, _)) => s
        | (s2, some _) => s2.abandonUnit u
        | (s2, none) =>
          let e : EvictedUnit :=
            { grid := grid, fn := g.fn, queue := g.queue, die := u.die, block := blk, size := bytes.length, fl := fl, teams := u.teams, groups := u.groups,
              windows := s.windowImages u, regions := s.regionImages u, cores := coresOf u.groups, marks := [m], evt := s.ptime.toNat, runnable := runs,
              wake := runs, pending := false, moving := [] }
          let s3 := s2.freeUnit u
          { s3.updFn g.fn (fun f => { f with evicts := f.evicts + 1, inuse := f.inuse + BitVec.ofNat 32 (bytes.length / 64) }) with units := s3.units ++ [e] }
  | _, _ => s

/-! ## Waking (R393) -/

/-- A lane's wait may be over: its time is up, or its word differs; a scratch word cannot change. -/
def State.waitOver (s : State) (fn : Nat) (w : WtaWait) : Bool :=
  (match w.deadline with | some t => decide (t ≤ s.ptime.toNat) | none => false) ||
    (!w.scratch && (match s.readVa none w.scope fn (0x40 + fn) w.va w.size with
      | (_, .ok bs) => BitVec.ofNat 64 (leNat bs) != w.cmp
      | _ => false))

/-- The unit is wakeable (R393). -/
def State.wakeable (s : State) (u : EvictedUnit) : Bool :=
  u.runnable || u.groups.any (fun g => g.lanes.any (fun x => match x.run with | .address w => s.waitOver u.fn w | _ => false))

/-- WAKE_CHECK: the dispatcher reads the watched words of a unit again, and sets FL[2] of its block when the unit has become wakeable. -/
def State.wakeCheck (s : State) (i : Nat) : State :=
  match s.units[i]? with
  | none => s
  | some u =>
    if u.wake || !s.wakeable u then s
    else
      let (s, _) := s.feWrite u.fn (u.block + 0x0C) (natLe 1 (u.fl + 4))
      { s with units := s.units.set i { u with wake := true, fl := u.fl + 4 } }

/-! ## Restoring (R394 to R396) -/

/-- The class of a unit: the highest of its teams'. -/
def State.unitClass (s : State) (u : EvictedUnit) : Nat := u.teams.foldl (fun k n => max k (((s.team? u.grid n).map Team.cls).getD 0)) 0

/-- Granules in use or granted on a core do not exceed Bobbin. -/
def State.rowsFit (s : State) (core : Nat) : Bool :=
  decide ((s.onCore core).foldl (fun n g => n + g.granules) 0 + s.reservedRows core ≤ Config.granules)

/-- Registers of the restored groups of a core are written to their spill regions until the need fits (R395). -/
def State.spillRestored (s : State) (core : Nat) (mine : Group → Bool) : Nat → Option State
  | 0 => none
  | n + 1 =>
    if s.rowsFit core then some s
    else
      match (s.onCore core).find? (fun g => mine g && !(s.spillable g).isEmpty) with
      | none => none
      | some g =>
        match s.spillable g with
        | [] => none
        | x :: _ => State.spillRestored (s.spillOne g x) core mine n

/-- A waiting lane re-executes R115 from its record, its deadline kept (R396). -/
def State.rewait (s : State) (core slot l : Nat) (w : WtaWait) : State :=
  match s.group? core slot with
  | none => s
  | some g =>
    let left := match w.deadline with | none => 0 | some t => max 1 (t - s.ptime.toNat)
    let p : Part := { newPart (LaneSet.one l) l w.frame w.va w.scratch w.size with cmp := natLe w.size w.cmp.toNat, data := natLe 8 left }
    let p := if w.scratch then
        (match s.scratchAt core g.grid g.team (w.va.setWidth 32) w.size with
         | some o => { p with units := scratchUnits core o w.size, prog := .ready }
         | none => p)
      else p
    let o := { newOp ((g.lane l).pc - 4) 0x28 .load (LaneSet.one l) w.scope [p] (.wait w.dst) with acq := w.acq, log := if w.scratch then none else g.logFree }
    let s1 := s.updGroup core slot (fun g =>
      (g.issue o).updLane l (fun x => { x with run := .address { w with key := none, watched := false, reading := true } }))
    if w.scratch then s1 else s1.translated core slot g.nextId 0

/-- One set of a unit is placed on a core that may be used: windows and regions first, then its groups, by R37's partitions (R394, R396). -/
def State.restoreSet (s : State) (u : EvictedUnit) (g : Grid) (usable : Nat → Bool) (old new : Nat) : Option State :=
  let gs := u.groups.filter (fun x => x.core == old)
  let r := g.record
  let here := s.onCore new
  let nt (x : Group) : Nat := ((s.grid? x.grid).map (fun y => y.record.nt)).getD 0
  let na (x : Group) : Nat := ((s.grid? x.grid).map (fun y => y.record.nac)).getD 0
  let room := r.masked new && new / Config.coresPerDie == u.die && usable new &&
    decide (here.length + gs.length ≤ Config.partitions * Config.slotsPerPartition) && decide (gs.foldl (fun n x => n + x.quads) 0 ≤ s.freeQuads new) &&
    decide (here.foldl (fun n x => n + nt x) 0 + gs.length * r.nt ≤ Config.tiles) && decide (here.foldl (fun n x => n + na x) 0 + gs.length * r.nac ≤ Config.accumulators)
  let tags := (s.core new).regions.foldl (fun n x => n + x.tags.length) 0
  let regs := u.regions.filter (fun x => x.1 == old)
  let wins := u.windows.filter (fun x => x.2.1 == old && !x.2.2.isEmpty)
  if !room || decide (!regs.isEmpty ∧ 512 < tags + r.tagn) || (!regs.isEmpty && (s.region? new u.grid).isSome) then none
  else
    let put (s : Option State) (size : Nat) (team : Option Nat) (img : List Byte) (f : State → Nat → State) : Option State :=
      s.bind (fun s =>
        if (lowestFree (s.core new).ranges size).isNone then none
        else
          let (s, o) := s.takeRange new size u.grid team
          some (f ({ s with scratch := Scratch.puts s.scratch (scratchKey new o) img } : State) o))
    let addRegion (x : Region) (s : State) (o : Nat) : State :=
      s.updCore new (fun c => { c with regions := c.regions ++
        [{ x with base := o, cacheBase := o + (x.cacheBase - x.base), stageBase := o + (x.stageBase - x.base),
                  bufs := x.bufs.map (fun b => { b with base := o + (b.base - x.base), state := b.state.map (fun k => if k = 4 then 1 else k) }) }] })
    let s1 := regs.foldl (fun acc (_, x, img) =>
      if img.isEmpty then acc.map (fun s => addRegion x s x.base) else put acc img.length none img (addRegion x)) (some s)
    let s2 := wins.foldl (fun acc (t, _, img) =>
      put acc img.length (some t) img (fun s o => s.updTeam u.grid t (fun t => { t with windows := t.windows ++ [(new, o)] }))) s1
    s2.map (fun s => gs.foldl (fun s x =>
      let slot := s.freeSlot new
      { s with groups := s.groups ++ [{ x with core := new, slot := slot, evicting := none, moved := false, stalls := [] }] }) s)

/-- The cores that the sets of a unit go to when the first goes to `core`: the twin of it, or the next cores that have room. -/
def State.restoreSets (s : State) (u : EvictedUnit) (g : Grid) (usable : Nat → Bool) (core : Nat) : Option State :=
  match u.cores with
  | [] => none
  | c0 :: rest =>
    if u.fl % 2 = 1 then
      if core % 2 ≠ 0 ∨ 2 < u.cores.length then none
      else u.cores.foldl (fun acc c => acc.bind (fun s => s.restoreSet u g usable c (core + c % 2))) (some s)
    else
      (rest.foldl (fun acc c => acc.bind (fun (s, used) =>
        (cyclicCores u.die (some core)).findSome? (fun n => if used.contains n then none else (s.restoreSet u g usable c n).map (fun s => (s, n :: used)))))
        ((s.restoreSet u g usable c0 core).map (fun s => (s, [core])))).map Prod.fst

/-- A unit restored with its first set on a core, when every core may be used and has room (R394, R395, R396). -/
def State.restoreAt (s : State) (u : EvictedUnit) (usable : Nat → Bool) (core : Nat) : Option State :=
  match s.grid? u.grid with
  | none => none
  | some g =>
    let mine (x : Group) : Bool := x.grid == u.grid && u.teams.contains x.team
    let s : State := { s with teams := s.teams.map (fun t => if t.grid == u.grid && u.teams.contains t.num then { t with windows := [] } else t) }
    match s.restoreSets u g usable core with
    | none => none
    | some s1 =>
      let s1 : State := { s1 with teams := s1.teams.map (fun t => if t.grid == u.grid && u.teams.contains t.num then { t with evicted := false, timer := none, windows := if t.ss = 0 then (coresOf ((s1.groups).filter (fun x => x.grid == u.grid && x.team == t.num))).map (fun c => (c, 0)) else t.windows } else t) }
      let cores := coresOf (s1.groups.filter mine)
      match cores.foldl (fun acc c => acc.bind (fun s => State.spillRestored s c mine 16384)) (some s1) with
      | none => none
      | some s2 =>
        some ((s2.groups.filter mine).foldl (fun (s : State) (x : Group) => (List.range x.w).foldl (fun s l =>
          match (x.lane l).run with
          | .address w => s.rewait x.core x.slot l w
          | _ => s) s) (s2.poolDrops cores))

/-- A cluster can take teams now: it is not in a move on its way to its first team (R159). -/
def State.clusterFree (s : State) (n : Nat) : Bool := (s.cluster n).move.isNone || s.clusterUsed n

/-- Where a unit is restored, by R158 with the unit's class, whatever CAP is (DESIGN CHOICE, log 21): in the clusters that moved for it, in its pool, in
empty clusters, which then move first, or in a higher pool, the lowest first. -/
inductive RestoreTier where
  | moved
  | pool (j : Nat)
  | empty
  deriving DecidableEq, Repr

/-- The tiers of a unit of class k, in order. -/
def restoreTiers (k : Nat) : List RestoreTier := [.moved, .pool k, .empty] ++ ((List.range 8).filter (fun j => decide (k < j))).map RestoreTier.pool

/-- The cores of a tier. -/
def State.tierCore (s : State) (u : EvictedUnit) : RestoreTier → Nat → Bool
  | .moved, c => u.moving.contains (clusterOf c) && (s.cluster (clusterOf c)).pool == s.unitClass u && s.clusterFree (clusterOf c)
  | .pool j, c => (s.cluster (clusterOf c)).pool == j && s.clusterFree (clusterOf c)
  | .empty, c => !s.clusterUsed (clusterOf c) && (s.cluster (clusterOf c)).move.isNone

/-- The cores of a unit in a state. -/
def EvictedUnit.coresIn (u : EvictedUnit) (t : State) : List Nat := coresOf (t.groups.filter (fun x => x.grid == u.grid && u.teams.contains x.team))

/-- A unit is resident again, its block gone. -/
def State.restored (t : State) (i : Nat) (u : EvictedUnit) : State :=
  { t.updFn u.fn (fun f => { f with inuse := f.inuse - BitVec.ofNat 32 (u.size / 64) }) with units := t.units.eraseIdx i }

/-- RESTORE: at its queue's slice a wakeable unit, the oldest first, is restored with its first set on a core of the first tier that has room for
it; elsewhere than on the cores it left it waits for the markers of its eviction. A unit that no cores can take waits for the next slice (R158,
R394, R396). -/
def State.restore (s : State) (i core : Nat) : State :=
  match s.units[i]? with
  | none => s
  | some u =>
    let older := (s.units.zipIdx).any (fun (x, j) => x.pending && (decide (x.evt < u.evt) || (x.evt == u.evt && decide (j < i))))
    if !u.pending || older || u.moving.any (fun n => (s.cluster n).move.isSome) then s
    else
      match (restoreTiers (s.unitClass u)).find? (fun x => (dieCores u.die).any (fun c => (s.restoreAt u (s.tierCore u x) c).isSome)) with
      | none => { s with units := s.units.set i { u with pending := false, moving := [] } }
      | some x =>
        match s.restoreAt u (s.tierCore u x) core with
        | none => s
        | some t =>
          if x = .empty then
            let cl := (u.coresIn t).foldl (fun acc c => if acc.contains (clusterOf c) then acc else acc ++ [clusterOf c]) []
            { s.startMoves cl (s.unitClass u) with units := s.units.set i { u with moving := cl } }
          else if !(u.coresIn t).all u.cores.contains && u.marks.any s.markPending then s
          else t.restored i u

/-- The state in which the units that are to be restored have been, the oldest first, each where it can be (R389, R394). -/
def State.restoredAll (s : State) : State :=
  let pending := sorted (fun (a b : EvictedUnit) => decide (a.evt < b.evt)) (s.units.filter EvictedUnit.pending)
  pending.foldl (fun s u =>
    ((restoreTiers (s.unitClass u)).findSome? (fun x => (dieCores u.die).findSome? (s.restoreAt u (s.tierCore u x)))).getD s) s

/-! ## The slice boundary (R150, R389, R393, R394) -/

/-- Victims for every team of the slice's queue that waits, once the units that are to be restored have been (R389, R394). -/
def State.chooseVictims (s : State) : State :=
  match s.sliceOwner with
  | none => s
  | some (fn, q) =>
    let both (x : State × State) (us : List EvictUnit) : State × State := (us.foldl State.markUnit x.1, us.foldl State.markUnit x.2)
    (s.grids.foldl (fun (x : State × State) g =>
      if g.fn != fn || g.queue != q then x
      else [0, 1].foldl (fun x die =>
        match x.2.grid? g.num with
        | some y => if x.2.cannotPlace y die then both x (takeVictims g.num die (x.2.candidates fn q y die) x.2) else x
        | none => x) x) (s, s.restoredAll)).1

/-- SLICE_BOUNDARY: the next queue's slice begins: units are checked, its wakeable ones are to be restored, and victims are chosen for its
teams that wait (R150, R389, R393, R394). -/
def State.sliceBoundary (s : State) : State :=
  let s := s.nextSlice
  let s : State := (List.range s.units.length).foldl State.wakeCheck s
  let s : State := { s with units := s.units.map (fun (u : EvictedUnit) => { u with pending := u.wake && s.sliceOwner == some (u.fn, u.queue) }) }
  s.chooseVictims

/-! ## The steps -/

/-- DSTOP_RESUME (R171). -/
def execDstopResume (core : Nat) (parts : BitVec 8) : State → Host.Outcome State Fault Refusal :=
  fun s => .next (s.dstopResume core parts)

/-- SLICE_BOUNDARY (R150). -/
def execSliceBoundary : State → Host.Outcome State Fault Refusal := fun s => .next s.sliceBoundary

/-- EVICTION (R390). -/
def execEviction (grid : Word) (team : Nat) (blk : DWord) : State → Host.Outcome State Fault Refusal := fun s => .next (s.evict grid team blk)

/-- WAKE_CHECK (R393). -/
def execWakeCheck (idx : Nat) : State → Host.Outcome State Fault Refusal := fun s => .next (s.wakeCheck idx)

/-- RESTORE (R394). -/
def execRestore (idx core : Nat) : State → Host.Outcome State Fault Refusal := fun s => .next (s.restore idx core)

end Sys2Proof.Machine
end

