-- ==== Sys2Proof/Machine/Registers.lean ====
section
/-! DEFINITION. Sys2Proof/Machine/Registers.lean: the registers of the functions' first memory BARs as the host reads and writes them (R6,
R19, R112, R148, R157, R166, R168, R170, R346, R354, R379, R382, R388, R405, R408, R411 to R414), and the team watchdog (R355, R356). -/

namespace Sys2Proof.Machine

/-! ## Reading (R6: a reserved bit reads 0) -/

/-- A Boolean bit. -/
def bit (b : Bool) : Nat := if b then 1 else 0

/-- CLSTn (R157). -/
def State.clst (s : State) (n : Nat) : Nat :=
  let c := s.cluster n
  let teams := (s.teams.filter (fun t => s.groups.any (fun g => g.grid == t.grid && g.team == t.num && clusterOf g.core == n))).length
  c.byb.toNat * 2 ^ 24 + teams % 2 ^ 16 * 2 ^ 8 + bit c.move.isSome * 32 + bit c.idle * 16 + c.pool % 8

/-- The ID of the master of an index (R382). -/
def masterOf (i : Nat) : Nat :=
  if i < 17 then i else if i < 34 then i - 17 + 0x20 else if i < 51 then i - 34 + 0x40 else if i = 51 then 0x60 else i - 52 + 0x70
/-- The frozen masters from an index on, one bit for each. -/
def State.frozenBits (s : State) (lo n : Nat) : Nat := (List.range n).foldl (fun k i => k + bit (s.frozen.contains (masterOf (lo + i))) * 2 ^ i) 0

/-- QSTAT (R148). -/
def Queue.stat (q : Queue) : Nat := bit (q.weight != 0) + 2 * bit q.descheduled + 4 * bit q.faulted + 8 * bit q.halted

/-- A queue's register (R148). -/
def Queue.read (q : Queue) (off : Nat) : Nat :=
  match off with
  | 0x00 => q.base.toNat
  | 0x08 => q.size.toNat
  | 0x0C => q.weight.toNat
  | 0x10 => q.tail.toNat
  | 0x14 => q.head.toNat
  | 0x18 => q.budget.toNat
  | 0x1C => q.stat
  | 0x20 => q.charge.toNat
  | _ => 0

/-- A register of a core's debug block (R170). -/
def Core.readDebug (c : Core) (off : Nat) : Nat :=
  match off with
  | 0x00 => c.dstop.toNat
  | 0x08 => c.dcause.toNat
  | 0x30 => c.dumpa.toNat
  | 0x38 => c.dumpst.toNat
  | _ => if 0x10 ≤ off ∧ off < 0x30 ∧ off % 8 = 0 then (c.bps.getD ((off - 0x10) / 8) 0).toNat else 0

/-- A register that only the physical function has. -/
def State.readPhysical (s : State) (off : Nat) : Nat :=
  match off with
  | 0x0448 => s.merrlast.toNat
  | 0x0460 => s.frozenBits 0 64
  | 0x0470 => s.frozenBits 64 6
  | 0x04E0 => s.fwVersion.toNat * 2 ^ 32 + s.fwErr.toNat * 2 ^ 8 + s.fwState
  | 0x04F0 => s.fwstg.toNat
  | _ =>
    if 0x0500 ≤ off ∧ off < 0x0500 + 8 * Config.ports ∧ off % 8 = 0 then
      match s.ports[(off - 0x0500) / 8]? with
      | some p => p.replay.toNat * 2 ^ 32 + p.peer.toNat * 2 ^ 16 + p.pport.toNat * 2 ^ 8 + p.state.toNat
      | none => 0
    else if 0x8000 ≤ off ∧ off < 0x8000 + 0x100 * Config.cores then (s.core ((off - 0x8000) / 0x100)).readDebug (off % 0x100)
    else 0

/-- The register at an offset of a function's BAR as the host reads it; an offset without a register, and a reserved bit, read 0 (R6). In
recovery only DEVID, DEVCAP, FWST and FWSTG of the physical function are there (R412). -/
def State.readRegister (s : State) (fn off : Nat) : Nat :=
  let f := s.fn fn
  if s.fwState = 2 ∧ !(fn == 0 && [0x0000, 0x0008, 0x04E0, 0x04F0].contains off) then 0
  else
    match off with
    | 0x0000 => s.devid.toNat
    | 0x0008 => s.devcap.toNat
    | 0x0010 => memcap.toNat
    | 0x0180 => s.pwrst.toNat
    | 0x0188 => s.overPeriods.toNat * 2 ^ 32 + bit s.therm * 2 + bit s.hold
    | 0x0300 => f.censbase.toNat
    | 0x0308 => f.censref.toNat
    | 0x0310 => f.censctl.toNat
    | 0x0318 => f.censdiff.toNat
    | 0x0340 => f.trialctl.toNat
    | 0x0348 => f.triallo.toNat
    | 0x0350 => f.trialhi.toNat
    | 0x0358 => f.dlycnt.toNat
    | 0x0400 => f.fltbase.toNat
    | 0x0408 => f.fltctl.toNat
    | 0x0410 => f.flthead.toNat
    | 0x0414 => f.flttail.toNat
    | 0x0418 => f.fltlost.toNat
    | 0x0420 => f.wdctl.toNat
    | 0x0440 => f.merrUnc.toNat * 2 ^ 32 + f.merrCor.toNat
    | 0x0480 => f.prepool.toNat
    | 0x0488 => f.presize.toNat
    | 0x0490 => f.evicts.toNat * 2 ^ 32 + f.inuse.toNat
    | 0x04C0 => s.offs.toNat * 2 ^ 32 + s.late.toNat * 2 ^ 16 + bit s.root * 2 + bit s.lock
    | 0x04E8 => bit f.ready + 2 * bit f.fail
    | _ =>
      if 0x0100 ≤ off ∧ off < 0x0140 ∧ off % 8 = 0 then
        (Config.classMillivolts ((off - 0x0100) / 8)).toNat * 2 ^ 16 + (1200 + 300 * ((off - 0x0100) / 8))
      else if 0x0200 ≤ off ∧ off < 0x0200 + 8 * Config.clusters ∧ off % 8 = 0 then s.clst ((off - 0x0200) / 8)
      else if 0x0380 ≤ off ∧ off < 0x0400 ∧ off % 8 = 0 then (f.progs.getD ((off - 0x0380) / 8) 0).toNat
      else if 0x1000 ≤ off ∧ off < 0x1200 then (s.queue fn ((off - 0x1000) / 0x40)).read (off % 0x40)
      else if fn = 0 then s.readPhysical off
      else 0

/-! ## Writing a register that has no behaviour of its own (R6, R166, R168, R346, R354, R388, R412, R413) -/

/-- A ring address with its low flag: bits [5:1] are reserved. -/
def ringBits (v : DWord) : DWord := v &&& 0xFFFFFFFFFFFFFFC1

/-- A queue's register. QSIZE outside 4 to 16 is out of range. -/
def State.writeQueue (s : State) (fn q off : Nat) (v : DWord) : State :=
  if !(s.fn fn).ready then s
  else
    match off with
    | 0x00 => s.updQueue fn q (fun x => { x with base := ringBits v })
    | 0x08 =>
      let n := v.toNat % 32
      if 4 ≤ n ∧ n ≤ 16 then (s.updQueue fn q (fun x => { x with size := BitVec.ofNat 5 n })).checkTail fn q else s
    | 0x0C => (s.updQueue fn q (fun x => { x with weight := v.setWidth 8 })).checkTail fn q
    | 0x18 => s.updQueue fn q (fun x => { x with budget := v.setWidth 32 })
    | _ => s

/-- BP0 to BP3 of a core (R170). -/
def State.writeBreakpoint (s : State) (core off : Nat) (v : DWord) : State :=
  if 0x10 ≤ off ∧ off < 0x30 ∧ off % 8 = 0 then
    s.updCore core (fun c => { c with bps := c.bps.set ((off - 0x10) / 8) (v &&& 0x00FFFFFFFFFFFFFD) })
  else s

/-- A value that CENSBASE and CENSREF take: 64-aligned, bits [63:56] clear (R166). -/
def bufferAddr (v : DWord) : Bool := v.toNat % 64 == 0 && v.extractLsb' 56 8 == 0

/-- A register of any function. FLTCTL outside 4 to 12, MODE 3, a census buffer off its alignment and a PRESIZE that is no multiple of 64 are
out of range and change nothing (R6). -/
def State.writeContext (s : State) (fn off : Nat) (v : DWord) : State :=
  match off with
  | 0x0300 => if bufferAddr v then s.updFn fn (fun f => { f with censbase := v }) else s
  | 0x0308 => if bufferAddr v then s.updFn fn (fun f => { f with censref := v }) else s
  | 0x0310 => s.updFn fn (fun f =>
      let mode := if v.toNat % 4 = 3 then f.censctl &&& 3 else v &&& 3
      { f with censctl := (v &&& 0xFFFFFFFF00000000) ||| (f.censctl &&& 8) ||| mode })
  | 0x0348 => s.updFn fn (fun f => { f with triallo := v })
  | 0x0350 => s.updFn fn (fun f => { f with trialhi := v })
  | 0x0400 => s.updFn fn (fun f => { f with fltbase := ringBits v })
  | 0x0408 => if 4 ≤ v.toNat % 32 ∧ v.toNat % 32 ≤ 12 then s.updFn fn (fun f => { f with fltctl := BitVec.ofNat 64 (v.toNat % 32) }) else s
  | 0x0410 => s.updFn fn (fun f => { f with flthead := v.setWidth 32 })
  | 0x0420 => s.updFn fn (fun f => { f with wdctl := v &&& 0xFFFFFFFF })
  | 0x0480 => s.updFn fn (fun f => { f with prepool := v &&& 0x00FFFFFFFFFFFFC1 })
  | 0x0488 => if v.toNat % 64 = 0 then s.updFn fn (fun f => { f with presize := v &&& 0xFFFFFFFFFF }) else s
  | _ =>
    if 0x0380 ≤ off ∧ off < 0x0400 ∧ off % 8 = 0 then s.updFn fn (fun f => { f with progs := f.progs.set ((off - 0x0380) / 8) v })
    else if 0x1000 ≤ off ∧ off < 0x1200 then s.writeQueue fn ((off - 0x1000) / 0x40) (off % 0x40) v
    else if fn = 0 ∧ 0x8000 ≤ off ∧ off < 0x8000 + 0x100 * Config.cores then s.writeBreakpoint ((off - 0x8000) / 0x100) (off % 0x100) v
    else s

/-- REGISTER_WRITE: the non-reserved bits that are in range take the value; a read-only register, and one whose write is a step of its own,
do not change here. Only FWSTG can be written before the firmware runs (R412). -/
def State.writeRegister (s : State) (fn off : Nat) (v : DWord) : State :=
  if fn = 0 ∧ off = 0x04F0 then (if v.toNat % 4096 = 0 then { s with fwstg := v } else s)
  else if s.fwState != 1 then s
  else s.writeContext fn off v

/-! ## The team watchdog (R355, R356) -/

/-- How a lane of a group is stalled, as DETAIL of R356: a request held behind an earlier one waits for rows when it asks for any. -/
def State.laneStall (s : State) (g : Group) (l : Nat) : Option Nat :=
  match (g.lane l).run with
  | .barrier bar _ => some (if bar = 18 then 1 else 0)
  | .regroup .. => some 2
  | .held => (match g.heldBar l with | some 18 => some 1 | some 19 => some 2 | some 20 | none => none | some _ => some 0)
  | r =>
    if !r.live then none
    else
      match (s.core g.core).requests.find? (fun x => x.slot == g.slot && !x.granted && (x.lanes.has l || x.lanes == 0)) with
      | some x => some (if x.rows = 0 ∨ (x.rows ≤ s.freeRows g.core ∧ s.freeQuads g.core < x.quads) then 4 else 3)
      | none => none

/-- A group waits for rows or tag quads. -/
def State.groupWaits (s : State) (g : Group) : Bool := (s.core g.core).requests.any (fun x => x.slot == g.slot && !x.granted)

/-- A resident team is stalled (R355). -/
def State.stalled (s : State) (t : Team) : Bool :=
  let gs := s.teamGroups t.grid t.num
  !t.evicted && gs.any (fun g => !g.exited) &&
    gs.all (fun g => s.groupWaits g || (List.range g.w).all (fun l => !(g.lane l).run.live || (s.laneStall g l).isSome))

/-- The team's timer is held by a stop (R355). -/
def State.timerHeld (s : State) (t : Team) : Bool :=
  let gs := s.teamGroups t.grid t.num
  let atGrid := gs.any (fun g => (List.range g.w).any (fun l => s.laneStall g l == some 1))
  gs.any (fun g => s.stopped g.core g.slot) || (atGrid && s.groups.any (fun g => g.grid == t.grid && s.stopped g.core g.slot))

/-- The timers after an event: a timer holds the time at which its stall began. -/
def State.runTimers (s : State) : State :=
  { s with teams := s.teams.map (fun t =>
      { t with timer := if s.stalled t && !s.timerHeld t then (match t.timer with | some x => some x | none => some s.ptime.toNat) else none }) }

/-- A team's timer has reached TLIM; `2^64` is the mark of one that has fired. -/
def State.watchdogDue (s : State) (t : Team) : Bool :=
  let lim := (s.fn (s.fnOf t.grid)).wdctl.toNat % 2 ^ 32
  lim != 0 && (match t.timer with | some x => decide (x + 1000 * lim ≤ s.ptime.toNat) | none => false)

/-- WATCHDOG_EXPIRY: a record for the team, its queue shows the fault, and its grid is cancelled (R356). -/
def State.watchdog (s : State) (grid : Word) (team : Nat) : State :=
  match s.grid? grid, s.team? grid team with
  | some g, some t =>
    if !s.watchdogDue t then s
    else
      let gs := sorted (fun a b : Group => lexLt [a.core, a.slot] [b.core, b.slot]) (s.teamGroups t.grid t.num)
      let hit := gs.findSome? (fun x => (List.range x.w).findSome? (fun l => (s.laneStall x l).map (fun d => (x, l, d))))
      let s := s.updTeam grid team (fun t => { t with timer := some (2 ^ 64) })
      match hit with
      | none => s
      | some (x, l, d) =>
        let s := s.ring g.fn
          { grid := grid, team := team / 2, core := x.core, slot := x.slot, lane := l, code := 0x14, kind := 3, flags := 0, queue := g.queue,
            fpc := (x.lane l).pc, faddr := 0, detail := BitVec.ofNat 32 d }
        (s.setFaulted grid).cancelGrid grid 0x11
  | _, _ => s

/-! ## The steps -/

/-- WATCHDOG_EXPIRY (R356). -/
def execWatchdogExpiry (grid : Word) (team : Nat) : State → Host.Outcome State Fault Refusal := fun s => .next (s.watchdog grid team)

/-- REGISTER_WRITE (R6). -/
def execRegisterWrite (fn off : Nat) (v : DWord) : State → Host.Outcome State Fault Refusal := fun s => .next (s.writeRegister fn off v)

end Sys2Proof.Machine
end

