-- ==== Sys2Proof/Machine/Dispatch.lean ====
section
/-! DEFINITION. Sys2Proof/Machine/Dispatch.lean: the meaning of every instruction of the opcode table. -/

namespace Sys2Proof.Machine

/-- The meaning of an instruction in a state. -/
def exec (i : Instr) (s : State) : Host.Outcome State Fault Refusal :=
  match i with
  | .illegalPacket addr slot kind => Sys2Proof.Machine.execIllegalPacket addr slot kind s
  | .breakpointStop => Sys2Proof.Machine.execBreakpointStop s
  | .sfDrain core slot => Sys2Proof.Machine.execSfDrain core slot s
  | .propagate core idx => Sys2Proof.Machine.execPropagate core idx s
  | .loadPresent core slot op elem => Sys2Proof.Machine.execLoadPresent core slot op elem s
  | .loadBind core slot op elem => Sys2Proof.Machine.execLoadBind core slot op elem s
  | .atomicPerform core slot => Sys2Proof.Machine.execAtomicPerform core slot s
  | .tileStoreRowEnter core slot => Sys2Proof.Machine.execTileStoreRowEnter core slot s
  | .copyTake core => Sys2Proof.Machine.execCopyTake core s
  | .copyComplete core idx units => Sys2Proof.Machine.execCopyComplete core idx units s
  | .matrixOpComplete core => Sys2Proof.Machine.execMatrixOpComplete core s
  | .barrierArrival core slot bar => Sys2Proof.Machine.execBarrierArrival core slot bar s
  | .regroup grid team => Sys2Proof.Machine.execRegroup grid team s
  | .granuleGrant core => Sys2Proof.Machine.execGranuleGrant core s
  | .tagQuadGrant core => Sys2Proof.Machine.execTagQuadGrant core s
  | .escapeSpill core => Sys2Proof.Machine.execEscapeSpill core s
  | .refillComplete core slot frame reg => Sys2Proof.Machine.execRefillComplete core slot frame reg s
  | .wtaWake core slot lane => Sys2Proof.Machine.execWtaWake core slot lane s
  | .wtaPoll core slot lane => Sys2Proof.Machine.execWtaPoll core slot lane s
  | .wtaTimeout core slot lane => Sys2Proof.Machine.execWtaTimeout core slot lane s
  | .timeWaitExpiry core slot lane => Sys2Proof.Machine.execTimeWaitExpiry core slot lane s
  | .trialDelayEnd core slot => Sys2Proof.Machine.execTrialDelayEnd core slot s
  | .deferredFaultRaise core slot lane => Sys2Proof.Machine.execDeferredFaultRaise core slot lane s
  | .trapHandlerEntry core slot => Sys2Proof.Machine.execTrapHandlerEntry core slot s
  | .accessViolation master pa kind grid => Sys2Proof.Machine.execAccessViolation master pa kind grid s
  | .scrubRead pa => Sys2Proof.Machine.execScrubRead pa s
  | .watchdogExpiry grid team => Sys2Proof.Machine.execWatchdogExpiry grid team s
  | .launchAccept => Sys2Proof.Machine.execLaunchAccept s
  | .teamDispatch die grid => Sys2Proof.Machine.execTeamDispatch die grid s
  | .allotmentGrant die grid => Sys2Proof.Machine.execAllotmentGrant die grid s
  | .allotmentArrival die grid lo len => Sys2Proof.Machine.execAllotmentArrival die grid lo len s
  | .gridComplete grid => Sys2Proof.Machine.execGridComplete grid s
  | .classRequestArrival die => Sys2Proof.Machine.execClassRequestArrival die s
  | .nodeSignal => Sys2Proof.Machine.execNodeSignal s
  | .waitTimeExpiry idx => Sys2Proof.Machine.execWaitTimeExpiry idx s
  | .prefetchCopyComplete idx copy => Sys2Proof.Machine.execPrefetchCopyComplete idx copy s
  | .podLaunchKey issuer seq fn queue rec => Sys2Proof.Machine.execPodLaunchKey issuer seq fn queue rec s
  | .podLaunchReceive start issuer seq fn queue rec => Sys2Proof.Machine.execPodLaunchReceive start issuer seq fn queue rec s
  | .podLaunchRelease => Sys2Proof.Machine.execPodLaunchRelease s
  | .podPartReport grid => Sys2Proof.Machine.execPodPartReport grid s
  | .podCompletion grid => Sys2Proof.Machine.execPodCompletion grid s
  | .cancelRequest grid cause => Sys2Proof.Machine.execCancelRequest grid cause s
  | .cancelReceive grid cause => Sys2Proof.Machine.execCancelReceive grid cause s
  | .cancelReport grid => Sys2Proof.Machine.execCancelReport grid s
  | .cancelSummary grid => Sys2Proof.Machine.execCancelSummary grid s
  | .sliceBoundary => Sys2Proof.Machine.execSliceBoundary s
  | .budgetPeriod => Sys2Proof.Machine.execBudgetPeriod s
  | .queueDeschedule fn q charge => Sys2Proof.Machine.execQueueDeschedule fn q charge s
  | .eviction grid team blk => Sys2Proof.Machine.execEviction grid team blk s
  | .wakeCheck idx => Sys2Proof.Machine.execWakeCheck idx s
  | .restore idx core => Sys2Proof.Machine.execRestore idx core s
  | .powerPeriod draw => Sys2Proof.Machine.execPowerPeriod draw s
  | .poolMoveComplete cluster => Sys2Proof.Machine.execPoolMoveComplete cluster s
  | .byteBudgetInterval grants => Sys2Proof.Machine.execByteBudgetInterval grants s
  | .clusterIdle cluster => Sys2Proof.Machine.execClusterIdle cluster s
  | .slewAdmissionWindow => Sys2Proof.Machine.execSlewAdmissionWindow s
  | .thermalTrip => Sys2Proof.Machine.execThermalTrip s
  | .syncMessage offs => Sys2Proof.Machine.execSyncMessage offs s
  | .syncTimeout => Sys2Proof.Machine.execSyncTimeout s
  | .podFormation dev members rootTime => Sys2Proof.Machine.execPodFormation dev members rootTime s
  | .flitReplay port => Sys2Proof.Machine.execFlitReplay port s
  | .portDown port lost => Sys2Proof.Machine.execPortDown port lost s
  | .bridgeReplayFail => Sys2Proof.Machine.execBridgeReplayFail s
  | .firmwareBoot err version => Sys2Proof.Machine.execFirmwareBoot err version s
  | .functionReady fn => Sys2Proof.Machine.execFunctionReady fn s
  | .firmwareCoreFail fn => Sys2Proof.Machine.execFirmwareCoreFail fn s
  | .ctxset fn q => Sys2Proof.Machine.execCtxset fn q s
  | .launch fn q => Sys2Proof.Machine.execLaunch fn q s
  | .trigger fn q => Sys2Proof.Machine.execTrigger fn q s
  | .cancel fn q => Sys2Proof.Machine.execCancel fn q s
  | .waitev fn q => Sys2Proof.Machine.execWaitev fn q s
  | .waitevSatisfied fn q => Sys2Proof.Machine.execWaitevSatisfied fn q s
  | .signal fn q => Sys2Proof.Machine.execSignal fn q s
  | .signalStore fn q => Sys2Proof.Machine.execSignalStore fn q s
  | .tvtset fn q => Sys2Proof.Machine.execTvtset fn q s
  | .cinv fn q => Sys2Proof.Machine.execCinv fn q s
  | .qtailWrite fn q v => Sys2Proof.Machine.execQtailWrite fn q v s
  | .qclrClearFault fn q => Sys2Proof.Machine.execQclrClearFault fn q s
  | .qclrRestart fn q => Sys2Proof.Machine.execQclrRestart fn q s
  | .censctlClearDiff fn => Sys2Proof.Machine.execCensctlClearDiff fn s
  | .censctlChk fn => Sys2Proof.Machine.execCensctlChk fn s
  | .trialctlWrite fn v => Sys2Proof.Machine.execTrialctlWrite fn v s
  | .dstopStop core parts => Sys2Proof.Machine.execDstopStop core parts s
  | .dstopResume core parts => Sys2Proof.Machine.execDstopResume core parts s
  | .dumpaWrite core v => Sys2Proof.Machine.execDumpaWrite core v s
  | .dumpComplete core => Sys2Proof.Machine.execDumpComplete core s
  | .merrcntWrite fn => Sys2Proof.Machine.execMerrcntWrite fn s
  | .accctlWrite id => Sys2Proof.Machine.execAccctlWrite id s
  | .fwcmdRun len err version => Sys2Proof.Machine.execFwcmdRun len err version s
  | .fwcmdFlash len err version => Sys2Proof.Machine.execFwcmdFlash len err version s
  | .registerWrite fn off v => Sys2Proof.Machine.execRegisterWrite fn off v s
  | .illegalWord addr w => Sys2Proof.Machine.execIllegalWord addr w s
  | .fetchFault code addr detail => Sys2Proof.Machine.execFetchFault code addr detail s
  | .translationComplete core slot entry lanes => Sys2Proof.Machine.execTranslationComplete core slot entry lanes s
  | .hostWrite addr bytes => Sys2Proof.Machine.execHostWrite addr bytes s
  | .launchStartRelease grid => Sys2Proof.Machine.execLaunchStartRelease grid s
  | .reservedCommandEntry fn q => Sys2Proof.Machine.execReservedCommandEntry fn q s
  | .portRetraining port up peer pport => Sys2Proof.Machine.execPortRetraining port up peer pport s
  | .nop h => Sys2Proof.Machine.execNop h s
  | .ctlExit h => Sys2Proof.Machine.execCtlExit h s
  | .ctlJr h a => Sys2Proof.Machine.execCtlJr h a s
  | .ctlPc h d => Sys2Proof.Machine.execCtlPc h d s
  | .wait h l t p k => Sys2Proof.Machine.execWait h l t p k s
  | .brLane h o => Sys2Proof.Machine.execBrLane h o s
  | .brAll h o => Sys2Proof.Machine.execBrAll h o s
  | .brAny h o => Sys2Proof.Machine.execBrAny h o s
  | .jmp c o => Sys2Proof.Machine.execJmp c o s
  | .call h a v n x => Sys2Proof.Machine.execCall h a v n x s
  | .callp c v n x o => Sys2Proof.Machine.execCallp c v n x o s
  | .retPop h imm => Sys2Proof.Machine.execRetPop h imm s
  | .retUnwind h d imm => Sys2Proof.Machine.execRetUnwind h d imm s
  | .retUnwindr h a imm => Sys2Proof.Machine.execRetUnwindr h a imm s
  | .barTeam h => Sys2Proof.Machine.execBarTeam h s
  | .barTwin h => Sys2Proof.Machine.execBarTwin h s
  | .barNwait h a n => Sys2Proof.Machine.execBarNwait h a n s
  | .barNarrive h a n => Sys2Proof.Machine.execBarNarrive h a n s
  | .barGrid h => Sys2Proof.Machine.execBarGrid h s
  | .voteBallot h d a => Sys2Proof.Machine.execVoteBallot h d a s
  | .voteAny h d a => Sys2Proof.Machine.execVoteAny h d a s
  | .voteAll h d a => Sys2Proof.Machine.execVoteAll h d a s
  | .votePopc h d a => Sys2Proof.Machine.execVotePopc h d a s
  | .voteFirst h d a => Sys2Proof.Machine.execVoteFirst h d a s
  | .votePeers h d a => Sys2Proof.Machine.execVotePeers h d a s
  | .voteRank h d a => Sys2Proof.Machine.execVoteRank h d a s
  | .voteAct h d => Sys2Proof.Machine.execVoteAct h d s
  | .grpSort h d imm => Sys2Proof.Machine.execGrpSort h d imm s
  | .viAdd h d a b => Sys2Proof.Machine.execViAdd h d a b s
  | .viSub h d a b => Sys2Proof.Machine.execViSub h d a b s
  | .viMul h d a b => Sys2Proof.Machine.execViMul h d a b s
  | .viMulhs h d a b => Sys2Proof.Machine.execViMulhs h d a b s
  | .viMulhu h d a b => Sys2Proof.Machine.execViMulhu h d a b s
  | .viAnd h d a b => Sys2Proof.Machine.execViAnd h d a b s
  | .viOr h d a b => Sys2Proof.Machine.execViOr h d a b s
  | .viXor h d a b => Sys2Proof.Machine.execViXor h d a b s
  | .viShl h d a b => Sys2Proof.Machine.execViShl h d a b s
  | .viShr h d a b => Sys2Proof.Machine.execViShr h d a b s
  | .viSra h d a b => Sys2Proof.Machine.execViSra h d a b s
  | .viMin h d a b => Sys2Proof.Machine.execViMin h d a b s
  | .viMax h d a b => Sys2Proof.Machine.execViMax h d a b s
  | .viMinu h d a b => Sys2Proof.Machine.execViMinu h d a b s
  | .viMaxu h d a b => Sys2Proof.Machine.execViMaxu h d a b s
  | .viAndn h d a b => Sys2Proof.Machine.execViAndn h d a b s
  | .siAdd h d a b => Sys2Proof.Machine.execSiAdd h d a b s
  | .siSub h d a b => Sys2Proof.Machine.execSiSub h d a b s
  | .siMul h d a b => Sys2Proof.Machine.execSiMul h d a b s
  | .siMulhs h d a b => Sys2Proof.Machine.execSiMulhs h d a b s
  | .siMulhu h d a b => Sys2Proof.Machine.execSiMulhu h d a b s
  | .siAnd h d a b => Sys2Proof.Machine.execSiAnd h d a b s
  | .siOr h d a b => Sys2Proof.Machine.execSiOr h d a b s
  | .siXor h d a b => Sys2Proof.Machine.execSiXor h d a b s
  | .siShl h d a b => Sys2Proof.Machine.execSiShl h d a b s
  | .siShr h d a b => Sys2Proof.Machine.execSiShr h d a b s
  | .siSra h d a b => Sys2Proof.Machine.execSiSra h d a b s
  | .siMin h d a b => Sys2Proof.Machine.execSiMin h d a b s
  | .siMax h d a b => Sys2Proof.Machine.execSiMax h d a b s
  | .siMinu h d a b => Sys2Proof.Machine.execSiMinu h d a b s
  | .siMaxu h d a b => Sys2Proof.Machine.execSiMaxu h d a b s
  | .siAndn h d a b => Sys2Proof.Machine.execSiAndn h d a b s
  | .viiAdd h d a imm => Sys2Proof.Machine.execViiAdd h d a imm s
  | .viiMul h d a imm => Sys2Proof.Machine.execViiMul h d a imm s
  | .viiAnd h d a imm => Sys2Proof.Machine.execViiAnd h d a imm s
  | .viiOr h d a imm => Sys2Proof.Machine.execViiOr h d a imm s
  | .viiXor h d a imm => Sys2Proof.Machine.execViiXor h d a imm s
  | .viiShl h d a imm => Sys2Proof.Machine.execViiShl h d a imm s
  | .viiShr h d a imm => Sys2Proof.Machine.execViiShr h d a imm s
  | .viiSra h d a imm => Sys2Proof.Machine.execViiSra h d a imm s
  | .siiAdd h d a imm => Sys2Proof.Machine.execSiiAdd h d a imm s
  | .siiMul h d a imm => Sys2Proof.Machine.execSiiMul h d a imm s
  | .siiAnd h d a imm => Sys2Proof.Machine.execSiiAnd h d a imm s
  | .siiOr h d a imm => Sys2Proof.Machine.execSiiOr h d a imm s
  | .siiXor h d a imm => Sys2Proof.Machine.execSiiXor h d a imm s
  | .siiShl h d a imm => Sys2Proof.Machine.execSiiShl h d a imm s
  | .siiShr h d a imm => Sys2Proof.Machine.execSiiShr h d a imm s
  | .siiSra h d a imm => Sys2Proof.Machine.execSiiSra h d a imm s
  | .vmNeg h d a => Sys2Proof.Machine.execVmNeg h d a s
  | .vmAbs h d a => Sys2Proof.Machine.execVmAbs h d a s
  | .vmAdds h d a b => Sys2Proof.Machine.execVmAdds h d a b s
  | .vmAddu h d a b => Sys2Proof.Machine.execVmAddu h d a b s
  | .vmSubs h d a b => Sys2Proof.Machine.execVmSubs h d a b s
  | .vmSubu h d a b => Sys2Proof.Machine.execVmSubu h d a b s
  | .vmMov h d a => Sys2Proof.Machine.execVmMov h d a s
  | .vmClz h d a => Sys2Proof.Machine.execVmClz h d a s
  | .vmPopc h d a => Sys2Proof.Machine.execVmPopc h d a s
  | .vmBrev h d a => Sys2Proof.Machine.execVmBrev h d a s
  | .vmSext8 h d a => Sys2Proof.Machine.execVmSext8 h d a s
  | .vmSext16 h d a => Sys2Proof.Machine.execVmSext16 h d a s
  | .vmSati8 h d a => Sys2Proof.Machine.execVmSati8 h d a s
  | .vmSati16 h d a => Sys2Proof.Machine.execVmSati16 h d a s
  | .vmSatn8 h d a => Sys2Proof.Machine.execVmSatn8 h d a s
  | .vmSatn16 h d a => Sys2Proof.Machine.execVmSatn16 h d a s
  | .vcEq h d a b => Sys2Proof.Machine.execVcEq h d a b s
  | .vcNe h d a b => Sys2Proof.Machine.execVcNe h d a b s
  | .vcLt h d a b => Sys2Proof.Machine.execVcLt h d a b s
  | .vcLe h d a b => Sys2Proof.Machine.execVcLe h d a b s
  | .vcLtu h d a b => Sys2Proof.Machine.execVcLtu h d a b s
  | .vcLeu h d a b => Sys2Proof.Machine.execVcLeu h d a b s
  | .scEq h d a b => Sys2Proof.Machine.execScEq h d a b s
  | .scNe h d a b => Sys2Proof.Machine.execScNe h d a b s
  | .scLt h d a b => Sys2Proof.Machine.execScLt h d a b s
  | .scLe h d a b => Sys2Proof.Machine.execScLe h d a b s
  | .scLtu h d a b => Sys2Proof.Machine.execScLtu h d a b s
  | .scLeu h d a b => Sys2Proof.Machine.execScLeu h d a b s
  | .scBlen h d a => Sys2Proof.Machine.execScBlen h d a s
  | .scSeq h d a b => Sys2Proof.Machine.execScSeq h d a b s
  | .scSne h d a b => Sys2Proof.Machine.execScSne h d a b s
  | .scSlt h d a b => Sys2Proof.Machine.execScSlt h d a b s
  | .scSle h d a b => Sys2Proof.Machine.execScSle h d a b s
  | .scSltu h d a b => Sys2Proof.Machine.execScSltu h d a b s
  | .scSleu h d a b => Sys2Proof.Machine.execScSleu h d a b s
  | .vpSel h d a b => Sys2Proof.Machine.execVpSel h d a b s
  | .vpAnd h d a b => Sys2Proof.Machine.execVpAnd h d a b s
  | .vpOr h d a b => Sys2Proof.Machine.execVpOr h d a b s
  | .vpXor h d a b => Sys2Proof.Machine.execVpXor h d a b s
  | .vpAndn h d a b => Sys2Proof.Machine.execVpAndn h d a b s
  | .vpNot h d a => Sys2Proof.Machine.execVpNot h d a s
  | .vpGet h d a => Sys2Proof.Machine.execVpGet h d a s
  | .vpSet h d a => Sys2Proof.Machine.execVpSet h d a s
  | .vpMvu h d a => Sys2Proof.Machine.execVpMvu h d a s
  | .vxIdx h d a b => Sys2Proof.Machine.execVxIdx h d a b s
  | .vxUp h d a b => Sys2Proof.Machine.execVxUp h d a b s
  | .vxDown h d a b => Sys2Proof.Machine.execVxDown h d a b s
  | .vxXor h d a b => Sys2Proof.Machine.execVxXor h d a b s
  | .vxBcast h d a b => Sys2Proof.Machine.execVxBcast h d a b s
  | .sliLo c d imm => Sys2Proof.Machine.execSliLo c d imm s
  | .sliHi c d imm => Sys2Proof.Machine.execSliHi c d imm s
  | .sliSx c d imm => Sys2Proof.Machine.execSliSx c d imm s
  | .sliVsx c d imm => Sys2Proof.Machine.execSliVsx c d imm s
  | .srRdv h d imm => Sys2Proof.Machine.execSrRdv h d imm s
  | .srRds h d imm => Sys2Proof.Machine.execSrRds h d imm s
  | .srWrs h d imm => Sys2Proof.Machine.execSrWrs h d imm s
  | .srRdp h d imm => Sys2Proof.Machine.execSrRdp h d imm s
  | .adAdd h d a b => Sys2Proof.Machine.execAdAdd h d a b s
  | .adSub h d a b => Sys2Proof.Machine.execAdSub h d a b s
  | .adAddx h d a b => Sys2Proof.Machine.execAdAddx h d a b s
  | .adAddz h d a b => Sys2Proof.Machine.execAdAddz h d a b s
  | .adShl h d a b => Sys2Proof.Machine.execAdShl h d a b s
  | .adShr h d a b => Sys2Proof.Machine.execAdShr h d a b s
  | .adMulw h d a b => Sys2Proof.Machine.execAdMulw h d a b s
  | .adMov h d a => Sys2Proof.Machine.execAdMov h d a s
  | .adAnd h d a b => Sys2Proof.Machine.execAdAnd h d a b s
  | .adMul h d a b => Sys2Proof.Machine.execAdMul h d a b s
  | .adEq h d a b => Sys2Proof.Machine.execAdEq h d a b s
  | .adLtu h d a b => Sys2Proof.Machine.execAdLtu h d a b s
  | .adLt h d a b => Sys2Proof.Machine.execAdLt h d a b s
  | .shpSq h d => Sys2Proof.Machine.execShpSq h d s
  | .shpExp h d => Sys2Proof.Machine.execShpExp h d s
  | .shpShape h d a => Sys2Proof.Machine.execShpShape h d a s
  | .shpRdx h d a => Sys2Proof.Machine.execShpRdx h d a s
  | .shpWrx h d a => Sys2Proof.Machine.execShpWrx h d a s
  | .vf32Add h d a b => Sys2Proof.Machine.execVf32Add h d a b s
  | .vf32Sub h d a b => Sys2Proof.Machine.execVf32Sub h d a b s
  | .vf32Mul h d a b => Sys2Proof.Machine.execVf32Mul h d a b s
  | .vf32Fma h d a b => Sys2Proof.Machine.execVf32Fma h d a b s
  | .vf32Fms h d a b => Sys2Proof.Machine.execVf32Fms h d a b s
  | .vf32Min h d a b => Sys2Proof.Machine.execVf32Min h d a b s
  | .vf32Max h d a b => Sys2Proof.Machine.execVf32Max h d a b s
  | .vf32Abs h d a => Sys2Proof.Machine.execVf32Abs h d a s
  | .vf32Neg h d a => Sys2Proof.Machine.execVf32Neg h d a s
  | .vf32Cpsgn h d a b => Sys2Proof.Machine.execVf32Cpsgn h d a b s
  | .vf32Rint h d a => Sys2Proof.Machine.execVf32Rint h d a s
  | .vf16Add h d a b => Sys2Proof.Machine.execVf16Add h d a b s
  | .vf16Sub h d a b => Sys2Proof.Machine.execVf16Sub h d a b s
  | .vf16Mul h d a b => Sys2Proof.Machine.execVf16Mul h d a b s
  | .vf16Fma h d a b => Sys2Proof.Machine.execVf16Fma h d a b s
  | .vf16Min h d a b => Sys2Proof.Machine.execVf16Min h d a b s
  | .vf16Max h d a b => Sys2Proof.Machine.execVf16Max h d a b s
  | .vf16Neg h d a => Sys2Proof.Machine.execVf16Neg h d a s
  | .vf16Abs h d a => Sys2Proof.Machine.execVf16Abs h d a s
  | .vf16Badd h d a b => Sys2Proof.Machine.execVf16Badd h d a b s
  | .vf16Bsub h d a b => Sys2Proof.Machine.execVf16Bsub h d a b s
  | .vf16Bmul h d a b => Sys2Proof.Machine.execVf16Bmul h d a b s
  | .vf16Bfma h d a b => Sys2Proof.Machine.execVf16Bfma h d a b s
  | .vf16Bmin h d a b => Sys2Proof.Machine.execVf16Bmin h d a b s
  | .vf16Bmax h d a b => Sys2Proof.Machine.execVf16Bmax h d a b s
  | .vf16Bneg h d a => Sys2Proof.Machine.execVf16Bneg h d a s
  | .vf16Babs h d a => Sys2Proof.Machine.execVf16Babs h d a s
  | .vfxDiv h d a b => Sys2Proof.Machine.execVfxDiv h d a b s
  | .vfxSqrt h d a => Sys2Proof.Machine.execVfxSqrt h d a s
  | .vfxRcp h d a => Sys2Proof.Machine.execVfxRcp h d a s
  | .vfxRsq h d a => Sys2Proof.Machine.execVfxRsq h d a s
  | .vfxExp2 h d a => Sys2Proof.Machine.execVfxExp2 h d a s
  | .vfxLog2 h d a => Sys2Proof.Machine.execVfxLog2 h d a s
  | .vfxSinpi h d a => Sys2Proof.Machine.execVfxSinpi h d a s
  | .vfxCospi h d a => Sys2Proof.Machine.execVfxCospi h d a s
  | .vcvF32i h d a => Sys2Proof.Machine.execVcvF32i h d a s
  | .vcvF32n h d a => Sys2Proof.Machine.execVcvF32n h d a s
  | .vcvI32f h d a => Sys2Proof.Machine.execVcvI32f h d a s
  | .vcvN32f h d a => Sys2Proof.Machine.execVcvN32f h d a s
  | .vcvPkh h d a b => Sys2Proof.Machine.execVcvPkh h d a b s
  | .vcvPkb h d a b => Sys2Proof.Machine.execVcvPkb h d a b s
  | .vcvUhl h d a => Sys2Proof.Machine.execVcvUhl h d a s
  | .vcvUhh h d a => Sys2Proof.Machine.execVcvUhh h d a s
  | .vcvUbl h d a => Sys2Proof.Machine.execVcvUbl h d a s
  | .vcvUbh h d a => Sys2Proof.Machine.execVcvUbh h d a s
  | .vcvIe4 h d a b => Sys2Proof.Machine.execVcvIe4 h d a b s
  | .vcvIe5 h d a b => Sys2Proof.Machine.execVcvIe5 h d a b s
  | .vcvXe4 h d a b => Sys2Proof.Machine.execVcvXe4 h d a b s
  | .vcvXe5 h d a b => Sys2Proof.Machine.execVcvXe5 h d a b s
  | .vfcEq h d a b => Sys2Proof.Machine.execVfcEq h d a b s
  | .vfcNe h d a b => Sys2Proof.Machine.execVfcNe h d a b s
  | .vfcLt h d a b => Sys2Proof.Machine.execVfcLt h d a b s
  | .vfcLe h d a b => Sys2Proof.Machine.execVfcLe h d a b s
  | .vfcUn h d a b => Sys2Proof.Machine.execVfcUn h d a b s
  | .vfcClass h d a => Sys2Proof.Machine.execVfcClass h d a s
  | .vqQ16 h d a b => Sys2Proof.Machine.execVqQ16 h d a b s
  | .vqQ32 h d a b => Sys2Proof.Machine.execVqQ32 h d a b s
  | .vqPk4 h d a => Sys2Proof.Machine.execVqPk4 h d a s
  | .vqDq4 h d a b => Sys2Proof.Machine.execVqDq4 h d a b s
  | .vqQe16 h d a b => Sys2Proof.Machine.execVqQe16 h d a b s
  | .vqQe32 h d a b => Sys2Proof.Machine.execVqQe32 h d a b s
  | .vqPk8 h d a => Sys2Proof.Machine.execVqPk8 h d a s
  | .vqDq8 h d a b => Sys2Proof.Machine.execVqDq8 h d a b s
  | .ld h d a o z q => Sys2Proof.Machine.execLd h d a o z q s
  | .ldImm h d a imm z q => Sys2Proof.Machine.execLdImm h d a imm z q s
  | .st h d a o z q => Sys2Proof.Machine.execSt h d a o z q s
  | .stImm h d a imm z q => Sys2Proof.Machine.execStImm h d a imm z q s
  | .ldu h d a o z q => Sys2Proof.Machine.execLdu h d a o z q s
  | .lduImm h d a imm z q => Sys2Proof.Machine.execLduImm h d a imm z q s
  | .stu h d a o z q => Sys2Proof.Machine.execStu h d a o z q s
  | .stuImm h d a imm z q => Sys2Proof.Machine.execStuImm h d a imm z q s
  | .atmAdd c d a y q => Sys2Proof.Machine.execAtmAdd c d a y q s
  | .atmMin c d a y q => Sys2Proof.Machine.execAtmMin c d a y q s
  | .atmMax c d a y q => Sys2Proof.Machine.execAtmMax c d a y q s
  | .atmAnd c d a y q => Sys2Proof.Machine.execAtmAnd c d a y q s
  | .atmOr c d a y q => Sys2Proof.Machine.execAtmOr c d a y q s
  | .atmXor c d a y q => Sys2Proof.Machine.execAtmXor c d a y q s
  | .atmExch c d a y q => Sys2Proof.Machine.execAtmExch c d a y q s
  | .atmCas c d a y q => Sys2Proof.Machine.execAtmCas c d a y q s
  | .fenceRel h k => Sys2Proof.Machine.execFenceRel h k s
  | .fenceAcq h k => Sys2Proof.Machine.execFenceAcq h k s
  | .fenceFull h k => Sys2Proof.Machine.execFenceFull h k s
  | .fenceOprRel h => Sys2Proof.Machine.execFenceOprRel h s
  | .fenceOprAcq h => Sys2Proof.Machine.execFenceOprAcq h s
  | .lds h d a f imm => Sys2Proof.Machine.execLds h d a f imm s
  | .sts h d a f imm => Sys2Proof.Machine.execSts h d a f imm s
  | .stagLook h d a => Sys2Proof.Machine.execStagLook h d a s
  | .stagSet h d a b => Sys2Proof.Machine.execStagSet h d a b s
  | .stagInv h d => Sys2Proof.Machine.execStagInv h d s
  | .stagClr h => Sys2Proof.Machine.execStagClr h s
  | .cbRes h d n => Sys2Proof.Machine.execCbRes h d n s
  | .cbCom h a n => Sys2Proof.Machine.execCbCom h a n s
  | .cbWait h d n => Sys2Proof.Machine.execCbWait h d n s
  | .cbPop h n => Sys2Proof.Machine.execCbPop h n s
  | .cbSa h d a n => Sys2Proof.Machine.execCbSa h d a n s
  | .cpG2s h d a b => Sys2Proof.Machine.execCpG2s h d a b s
  | .cpS2g h d a b => Sys2Proof.Machine.execCpS2g h d a b s
  | .cpS2s h d a b => Sys2Proof.Machine.execCpS2s h d a b s
  | .cpGat h d a b => Sys2Proof.Machine.execCpGat h d a b s
  | .cpT2h h d a b => Sys2Proof.Machine.execCpT2h h d a b s
  | .wta h d a b r z w => Sys2Proof.Machine.execWta h d a b r z w s
  | .tcfgSet h d a => Sys2Proof.Machine.execTcfgSet h d a s
  | .tcfgRows h d a => Sys2Proof.Machine.execTcfgRows h d a s
  | .tcfgCols h d a => Sys2Proof.Machine.execTcfgCols h d a s
  | .tcfgKext h d a => Sys2Proof.Machine.execTcfgKext h d a s
  | .tcfgStg h d a => Sys2Proof.Machine.execTcfgStg h d a s
  | .tcfgFl h d a => Sys2Proof.Machine.execTcfgFl h d a s
  | .tld h d a o z q => Sys2Proof.Machine.execTld h d a o z q s
  | .tldImm h d a imm z q => Sys2Proof.Machine.execTldImm h d a imm z q s
  | .tst h d a o z q => Sys2Proof.Machine.execTst h d a o z q s
  | .tstImm h d a imm z q => Sys2Proof.Machine.execTstImm h d a imm z q s
  | .mmaAcc h d a b k => Sys2Proof.Machine.execMmaAcc h d a b k s
  | .mmaSet h d a b k => Sys2Proof.Machine.execMmaSet h d a b k s
  | .mxHad h d a b => Sys2Proof.Machine.execMxHad h d a b s
  | .mxPerm h d a b => Sys2Proof.Machine.execMxPerm h d a b s
  | .accZero h d => Sys2Proof.Machine.execAccZero h d s
  | .accRd h d a b => Sys2Proof.Machine.execAccRd h d a b s
  | .accWr h d a b => Sys2Proof.Machine.execAccWr h d a b s
  | .accWid h d a b => Sys2Proof.Machine.execAccWid h d a b s
  | .accNar h d a b => Sys2Proof.Machine.execAccNar h d a b s
  | .accQ2 h d a b => Sys2Proof.Machine.execAccQ2 h d a b s
  | .accQe h d a b => Sys2Proof.Machine.execAccQe h d a b s
  | .lnchRec h d a => Sys2Proof.Machine.execLnchRec h d a s
  | .lnchTrig h a => Sys2Proof.Machine.execLnchTrig h a s
  | .lnchCncl h a => Sys2Proof.Machine.execLnchCncl h a s
  | .pwrReq h d => Sys2Proof.Machine.execPwrReq h d s
  | .pwrCls h d => Sys2Proof.Machine.execPwrCls h d s
  | .pwrPool h d => Sys2Proof.Machine.execPwrPool h d s
  | .tmWtill h a => Sys2Proof.Machine.execTmWtill h a s
  | .tmWrel h a => Sys2Proof.Machine.execTmWrel h a s
  | .tmRd h d => Sys2Proof.Machine.execTmRd h d s
  | .dbgBrk h => Sys2Proof.Machine.execDbgBrk h s
  | .dbgProg h d n => Sys2Proof.Machine.execDbgProg h d n s
  | .sysRdid h d a => Sys2Proof.Machine.execSysRdid h d a s
  | .sysTret h => Sys2Proof.Machine.execSysTret h s
  | .sysCinv h => Sys2Proof.Machine.execSysCinv h s
  | .sysTvt h a => Sys2Proof.Machine.execSysTvt h a s

end Sys2Proof.Machine
end

