-- ==== Sys2Proof/Machine/Issue.lean ====
section
/-! DEFINITION. Sys2Proof/Machine/Issue.lean: what a step does: fetching a chain (R194, R198, R199, R214, R420), the choice of a group and
its paths (R45 to R49), the issue of chains (R47, R200, R418, R419), the events that follow of themselves, and what is settled after
each step. -/

namespace Sys2Proof.Machine

/-! ## Fetching a chain (R194, R198, R199, R420) -/

/-- What a fetch finds: the words of a chain, a fault at an address, a request that an access table forbids, or not yet. -/
inductive Fetched where
  | words (ws : List Word)
  | fault (code : Nat) (addr : DWord) (detail : Word)
  | forbidden (d : Denial)
  | later
  deriving DecidableEq, Repr

/-- The slot of a word in its packet (R198). -/
def slotOf (pc : DWord) : Nat := pc.toNat % 12 / 4

/-- The words from an address on to the end of the chain or packet, at most n, fetched for lanes of a group: the walks are loads of theirs (R370). -/
def State.fetchFrom (s : State) (g : Group) (lanes : LaneSet) : Nat → DWord → State × Fetched
  | 0, _ => (s, .words [])
  | n + 1, pc =>
    let fn := s.fnOf g.grid
    let held (s : State) : State := if s.frozen.contains fn && !s.loadHeld g lanes g.nextId then s.holdRequest fn g.grid else s
    match State.laneWalk g.core g.slot lanes g.nextId s pc with
    | none => (held s, .later)
    | some (s, x) =>
      match s.judge fn ⟨false, true, false⟩ 4 x with
      | .fault code d => (s, .fault code pc d)
      | .forbidden d => (s, .forbidden d)
      | .frozen => (held s, .later)
      | .ok k =>
        let s := s.noteErrors fn k 4
        if s.uncorrectable k 4 then (s, .fault 0x13 pc 2)
        else
          let w := leWord (s.readKey (some g.core) 4 k 4)
          if wordChain w && slotOf pc != 2 then
            match s.fetchFrom g lanes n (pc + 4) with
            | (s, .words ws) => (s, .words (w :: ws))
            | r => r
          else (s, .words [w])

/-- The chain that begins at an address, fetched for lanes. -/
def State.fetchChain (s : State) (g : Group) (lanes : LaneSet) (pc : DWord) : State × Fetched := s.fetchFrom g lanes 3 pc

/-! ## The checks of a chain (R199, R214, R418, R419) -/

/-- The first offending word of an illegal chain: its place in the chain and its kind (R419). `seen`: the classes of the words before. -/
def chainFault (slot : Nat) : List Pipe → List Word → Nat → Option (Nat × Nat)
  | _, [], _ => none
  | seen, w :: ws, i =>
    let cls := wordClass w
    if wordChain w && slot + i == 2 then some (i, 0)
    else if (cls.map seen.contains).getD false then some (i, 1)
    else if cls == some .C && !ws.isEmpty then some (i, 2)
    else chainFault slot (cls.toList ++ seen) ws (i + 1)

/-- The instruction that a word executes as: what it decodes to, or the illegal word. -/
noncomputable def instrOf (pc : DWord) (w : Word) : Instr :=
  match decode w with
  | .ok i => i
  | .error _ => .illegalWord pc w

/-- The register bounds that a word breaks, by its register fields and its count fields; of grp, those of the kernel frame (R204, R358). -/
def Ctx.fieldBounds (c : Ctx) (i : Instr) : List (Nat × Nat × DWord × Word) :=
  match i with
  | .grpSort _ d n => c.sortBounds d.toNat n.toNat
  | .call _ _ v _ x => c.bounds i.uses ++ c.callBounds (v.toNat + 1) x.toNat
  | .callp _ v _ x _ => c.bounds i.uses ++ c.callBounds (v.toNat + 1) x.toNat
  | .retPop _ n => c.bounds i.uses ++ c.countBounds true n.toNat
  | .retUnwind _ _ n => c.bounds i.uses ++ c.countBounds false n.toNat
  | .retUnwindr _ _ n => c.bounds i.uses ++ c.countBounds false n.toNat
  | _ => c.bounds i.uses

/-- mma with a B other than 0 under BST of its configuration, which no transfer is writing (R313). -/
def Ctx.stagedB (c : Ctx) : Instr → Bool
  | .mmaAcc _ _ _ b k | .mmaSet _ _ _ b k =>
    b != 0 && !c.s.tileBound c.g k.toNat && ((c.readTile k.toNat).getD 4 0).getLsbD 2
  | _ => false

/-- The path in `cur` would fault at a word before its chain takes effect: an illegal word or a field beyond a bound, for a lane active
under the word's guard as its chain would issue (R214 step 3, R418, R420; log 24). -/
noncomputable def State.wordFaults (s : State) (w : Word) : Bool :=
  match s.cur with
  | none => false
  | some cu =>
    match decode w with
    | .error _ =>
      (match s.group? cu.core cu.slot, wordGuard w with
       | some g, some gd => g.active cu.path ⟨false, some gd⟩ != 0
       | _, _ => true)
    | .ok i =>
      (match s.ctx? i.head with
       | none => false
       | some c => c.act != 0 && (!(c.fieldBounds i).isEmpty || c.stagedB i))

/-- The first vector register and the count of each operand of a word (R79). -/
def vectorsOf (i : Instr) : List (Nat × Nat) := (i.uses.filter (fun u => u.cls == .v)).map (fun u => (u.reg, u.count))

/-- A path: the address, the frame depth, its lanes. -/
structure Path where
  pc : DWord
  fd : Nat
  lanes : LaneSet
  deriving DecidableEq, Repr

/-- How a chain can issue (R47): the requests put aside for the words that its own accesses delay, the places that its words take, and how many of
them execute in the clock of the issue. -/
structure Means where
  kept : List Request
  places : List (List Place)
  prompt : Nat

/-- The chain of a path as it issues. -/
noncomputable def State.chainOf (s : State) (g : Group) (p : Path) (ws : List Word) (m : Means := ⟨[], [], 0⟩) : Chain :=
  { since := g.nextId, ptime := s.ptime, cyc := s.clocks g.core, tvt := (s.fn (s.fnOf g.grid)).tvt, lanes := p.lanes, first := p.pc, pc := p.pc,
    words := ws, names := ws.flatMap (fun w => vectorsOf (instrOf p.pc w)), places := m.places, prompt := m.prompt, fresh := true, raised := none }

/-- The next word of a chain is the one being executed, in the places kept for it; a fault resumes at the chain's first word until a word of it has
executed, then at the word (R214, R335). -/
def State.enter (s : State) (g : Group) (c : Chain) : State :=
  let late := !c.fresh && c.prompt == 0
  { s.updGroup g.core g.slot (fun x =>
      { x with chains := x.chains.map (fun k => if k.lanes == c.lanes && k.since == c.since then { k with places := k.places.set 0 [] } else k) }) with
    cur := some { since := c.since, ptime := c.ptime, cyc := c.cyc, tvt := if late then (s.fn (s.fnOf g.grid)).tvt else c.tvt, mid := !c.fresh,
                  late := late, core := g.core, slot := g.slot, path := c.lanes, pc := c.pc, first := if c.fresh then c.first else c.pc } }

/-- A path stands at an address of its chain. -/
noncomputable def State.at_ (s : State) (g : Group) (p : Path) (pc : DWord) : State :=
  s.enter g { s.chainOf g p [] with pc := pc }

/-! ## Whether a chain issues (R47, R58 to R60, R200, R375) -/

/-- The state after an instruction. -/
def State.after (s : State) (i : Instr) : State :=
  match exec i s with
  | .next t => t
  | _ => s

/-- A branch or jump never waits, though it may lead to itself. -/
def State.alwaysMoves (s : State) (i : Instr) : Bool :=
  match i with
  | .brLane .. | .brAll .. | .brAny .. | .jmp .. => true
  | .ctlJr h _ => (match s.ctx? h with | some c => !i.uses.any (c.s.useBusy c.g c.act) | none => false)
  | _ => false

/-- A word took effect: some lane of its path is no longer as it was, or the word never waits. -/
def State.moved (s t : State) (i : Instr) : Bool :=
  match s.cur with
  | none => false
  | some cu =>
    s.alwaysMoves i ||
      (match s.group? cu.core cu.slot, t.group? cu.core cu.slot with
       | some g, some g' => (cu.path.list g.w).any (fun l => (g'.lane l).pc != (g.lane l).pc || (g'.lane l).run != (g.lane l).run || (g'.lane l).fd != (g.lane l).fd)
       | _, _ => true)

/-- What the accesses of a group numbered from n on, and the array forms of its core's queue numbered so, have added to its counters. -/
def State.ownCounts (s : State) (g : Group) (n : Nat) : Nat × Nat × Nat × Nat :=
  let own := g.ops.filter (fun o => decide (n ≤ o.id))
  let k (f : Op → Bool) : Nat := (own.filter f).length
  (k Op.ldc, k Op.stc, k (fun o => match o.kind with | .copy c => c.cbuf.isNone | _ => false),
    k Op.tlc + ((s.core g.core).array.filter (fun m => m.slot == g.slot && decide (n ≤ m.op))).length)

/-- A state in which the accesses and array forms of a group numbered from n on bind nothing, as though their elements had been written and their
counters had fallen; their places in the log and the queues stay taken: what a word of a chain is tried in, so that no access of its own chain, of the kind
that it waits for or another, stalls it at issue (R47, R200; DEDUCED, log 3). -/
def State.lifted (s : State) (core slot n : Nat) : State :=
  match s.group? core slot with
  | none => s
  | some g =>
    let (a, b, c, d) := s.ownCounts g n
    let own := g.ops.filter (fun o => decide (n ≤ o.id))
    let g := own.foldl (fun (g : Group) (o : Op) => o.parts.foldl (fun g p => g.zeroDest o p) g) g
    let idle (o : Op) : Op := if n ≤ o.id then { o with acq := false, rel := none, dest := .none, parts := o.parts.map (fun p => { p with lanes := 0 }) } else o
    (s.setGroup { g with ops := g.ops.map idle, ld := g.ld - a, st := g.st - b, cp := g.cp - c, tl := g.tl - d }).updCore core (fun k =>
      { k with array := k.array.map (fun m => if m.slot == slot && decide (n ≤ m.op) then { m with kind := .had (Config.accumulators + 64) } else m) })

/-- The state t, which follows a lifted one, with what `lifted` took from s put back. -/
def State.putBack (t s : State) (core slot n : Nat) : State :=
  match s.group? core slot with
  | none => t
  | some g =>
    let (a, b, c, d) := s.ownCounts g n
    (t.updGroup core slot (fun x =>
      { x with
        ops := x.ops.map (fun o => (g.ops.find? (fun y => y.id == o.id && decide (n ≤ y.id))).getD o)
        ld := x.ld + a, st := x.st + b, cp := x.cp + c, tl := x.tl + d })).updCore core (fun k =>
      { k with array := k.array.map (fun m => ((s.core core).array.find? (fun y => y.slot == slot && y.op == m.op && decide (n ≤ y.op))).getD m) })

/-- The places that a word took between two states of its core (R47). -/
def State.placesTaken (s t : State) (core slot : Nat) : List Place :=
  match s.group? core slot, t.group? core slot with
  | some g, some g' =>
    let k (p : Place) (m n : Nat) : List Place := List.replicate (n - m) p
    let bufs (x : State) : List (Nat × Nat × Nat) := ((x.region? core g.grid).map (fun r => r.bufs.map (fun b => (b.num, b.pi, b.ci)))).getD []
    k (.counter 0) g.ld g'.ld ++ k (.counter 1) g.st g'.st ++ k (.counter 2) g.cp g'.cp ++ k (.counter 3) g.tl g'.tl ++
      k .log g.logUsed.length g'.logUsed.length ++ [.requests (t.outstanding core - s.outstanding core)] ++
      k .copy (s.copiesHeld core) (t.copiesHeld core) ++ k .array (s.core core).array.length (t.core core).array.length ++
      ((bufs s).zip (bufs t)).flatMap (fun (x, y) => (if x.2.1 == y.2.1 then [] else [Place.reserve x.1]) ++ (if x.2.2 == y.2.2 then [] else [Place.claim x.1]))
  | _, _ => []

/-- A core with no granule and no quad free. -/
def State.fullCore (s : State) (core : Nat) : State :=
  s.updCore core (fun c => { c with requests := c.requests ++
    [{ slot := Config.partitions * Config.slotsPerPartition, pc := 0, lanes := 0, rows := Config.granules, quads := Config.quads, granted := true, since := 0,
       need := none }] })

/-- The requests of a word of a path. -/
def Core.requestsOf (c : Core) (slot : Nat) (pc : DWord) (m : LaneSet) : List Request :=
  c.requests.filter (fun r => r.slot == slot && r.pc == pc && r.lanes &&& m != 0)

/-- The requests that the word in `cur` makes where nothing is free. -/
def State.wants (s : State) (i : Instr) : List Request :=
  match s.cur with
  | none => []
  | some cu => (((s.fullCore cu.core).after i).core cu.core).requestsOf cu.slot cu.pc cu.path

/-- Requests made in a core, those that stand there renewed in place. -/
def Core.record (c : Core) (rs : List Request) : Core :=
  rs.foldl (fun c r =>
    if (c.request? r.slot r.pc r.lanes).isSome then
      { c with requests := c.requests.map (fun x => if x.mine r.slot r.pc r.lanes then { r with since := x.since } else x) }
    else { c with requests := c.requests ++ [r] }) c

/-- The lanes of a path that go on to the next word of their chain. -/
def goOn (g g' : Group) (path : LaneSet) (pc : DWord) : LaneSet :=
  path &&& LaneSet.ofPred g.w (fun l => (g'.lane l).run.runnable && (g'.lane l).pc == pc + 4 && (g'.lane l).fd == (g.lane l).fd)

/-- Trying a chain: it issues, with the state that its words leave and how; or the requests of the word that waits. -/
inductive Tried where
  | issues (s : State) (m : Means)
  | waits (rs : List Request)

/-- A word tried, n being the group's count before its chain (R47, R200): the state it leaves, with what has to be put aside for it when its own
chain's accesses delay it; or the requests it makes, when it would stall at issue. The stalls are those of a state in which the chain's own
accesses hold nothing: no word of the chain counts for another's stall (log 3). -/
def State.tryWord (s : State) (n : Nat) (i : Instr) : Except (List Request) (State × Option (List Request)) :=
  match s.cur with
  | none => .ok (s, none)
  | some cu =>
    let t := s.after i
    let asks (x : State) : List Request := (x.core cu.core).requestsOf cu.slot cu.pc cu.path
    if !cu.mid then (if s.moved t i then .ok (t, none) else .error (asks t))
    else
      let l := s.lifted cu.core cu.slot n
      let free := { l with cur := some { cu with mid := false } }
      let v := free.after i
      if !free.moved v i then .error (if (asks t).isEmpty then asks v else asks t)
      else if s.moved t i then .ok (t, none)
      else .ok ((l.after i).putBack s cu.core cu.slot n, some ((l.wants i).map (fun r => { r with granted := true })))

/-- The words of a chain tried one after another; n is the group's count before the chain. Once a word is delayed, or a wide atomic holds the path
(R375), the words after it are. -/
noncomputable def tryWords (n : Nat) : State → List Word → Means → Bool → Tried
  | s, [], m, _ => .issues s m
  | s, w :: ws, m, late =>
    match s.cur with
    | none => .issues s m
    | some cu =>
      match s.tryWord n (instrOf cu.pc w) with
      | .error rs => .waits rs
      | .ok (t, ks) =>
        let late := late || ks.isSome
        let m : Means := { kept := m.kept ++ ks.getD [], places := m.places ++ [s.placesTaken t cu.core cu.slot], prompt := m.prompt + if late then 0 else 1 }
        match s.group? cu.core cu.slot, t.group? cu.core cu.slot with
        | some g, some g' =>
          let x := goOn g g' cu.path cu.pc
          let held := g'.wideHeld x
          if x == 0 then .issues t m
          else tryWords n { t with cur := some { cu with path := x, pc := cu.pc + 4, mid := true, late := late || held } } ws m (late || held)
        | _, _ => .issues t m

/-- A group may issue (R45, R163, R169, R171, R390, R403, R411). -/
def State.mayIssue (s : State) (g : Group) : Bool :=
  !s.therm && !g.exited && !s.stopped g.core g.slot && g.evicting.isNone && g.delay == 0 && !(s.cluster (clusterOf g.core)).idle &&
    !((s.grid? g.grid).map Grid.cancelSeen).getD false

/-- The paths of a group's runnable lanes, in key order (R44, R46). -/
def Group.paths (g : Group) : List Path :=
  let free := (List.range g.w).filter (fun l => (g.lane l).run.runnable)
  sorted (fun a b => lexLt [a.pc.toNat, 255 - a.fd] [b.pc.toNat, 255 - b.fd])
    (free.foldl (fun (ps : List Path) l =>
      let x := g.lane l
      if ps.any (fun p => p.pc == x.pc && p.fd == x.fd) then
        ps.map (fun p => if p.pc == x.pc && p.fd == x.fd then { p with lanes := p.lanes ||| LaneSet.one l } else p)
      else ps ++ [⟨x.pc, x.fd, LaneSet.one l⟩]) [])

/-- A path that can issue nothing now: a chain of it has issued and is not over (R200), it stalls in a sys.cinv (R323), or a fetch of it was
discarded (R381). -/
def Group.busy (g : Group) (m : LaneSet) : Bool :=
  g.chains.any (fun c => c.lanes &&& m != 0) || g.arrivals.any (fun a => a.bar == 20 && a.lanes &&& m != 0) || g.lost &&& m != 0

/-- What a step executes: a word or an event, in a state made ready for it, or only a request that is made. -/
inductive Choice where
  | word (w : Word) (s : State)
  | event (i : Instr) (s : State)
  | wait (s : State)

/-- A path looked at, with the state after the fetch: the fault of its chain, as the chain that is executed for it; its words that issue, with how
they can and the state they would leave; a breakpoint; a request that an access table forbids; or a wait, with the requests made. -/
inductive Ready where
  | fault (c : Chain) (s : State)
  | issues (ws : List Word) (m : Means) (left s : State)
  | stops (c : Choice)
  | waits (rs : List Request) (s : State)

/-- The first word of a chain that faults before the chain takes effect, as what is executed for it. -/
noncomputable def State.firstFault (s : State) (g : Group) (p : Path) : List Word → Nat → Option Chain
  | [], _ => none
  | w :: ws, i =>
    let pc := p.pc + BitVec.ofNat 64 (4 * i)
    if (s.at_ g p pc).wordFaults w then some { s.chainOf g p [w] with pc := pc, raised := some .word } else State.firstFault s g p ws (i + 1)

/-- What is executed for a chain, in the state given: its next word, or the event that it raises. -/
noncomputable def State.begin (s : State) (g : Group) (c : Chain) : Choice :=
  match c.raised with
  | some (.event i) => .event i (s.enter g c)
  | _ => .word (c.words.headD 0) (s.enter g c)

/-- An enabled breakpoint of the core matches an address (R170, R171). -/
def State.breaks (s : State) (core : Nat) (pc : DWord) : Bool :=
  (s.core core).bps.any (fun b => b.getLsbD 0 && (b.toNat % 2 ^ 56) / 4 * 4 == pc.toNat)

/-- The chain of a path (R47, R171, R214, R418, R419), tried in a state that follows: the group's, or the one that another path's chain of
the same issue leaves. -/
noncomputable def State.look (s : State) (g : Group) (p : Path) (from_ : State → State) : Ready :=
  if g.busy p.lanes || g.wideHeld p.lanes then .waits [] s
  else
    let raise (t : State) (i : Instr) : Ready := .fault { t.chainOf g p [] with raised := some (.event i) } t
    match s.fetchChain g p.lanes p.pc with
    | (t, .later) => .waits [] t
    | (t, .fault code a d) => raise t (.fetchFault (BitVec.ofNat 8 code) a d)
    | (t, .forbidden d) => .stops (.event (.accessViolation d.master d.pa d.want.code g.grid) (t.at_ g p p.pc))
    | (t, .words ws) =>
      match chainFault (slotOf p.pc) [] ws 0 with
      | some (i, k) => raise t (.illegalPacket (p.pc + BitVec.ofNat 64 (4 * i)) (slotOf p.pc + i) k)
      | none =>
        match t.firstFault g p ws 0 with
        | some c => .fault c t
        | none =>
          let u := from_ t
          match tryWords (((u.group? g.core g.slot).map Group.nextId).getD g.nextId) (u.enter g (t.chainOf g p ws)) ws ⟨[], [], 0⟩ false with
          | .waits rs => .waits rs t
          | .issues v m => if s.breaks g.core p.pc then .stops (.event .breakpointStop (t.at_ g p p.pc)) else .issues ws m v t

/-! ## Issue events (R30, R49, R70, R169, R341) -/

/-- The shape of a register source: 0 U, 1 A, 2 G. -/
def Val.shape : Val → Nat
  | .u _ => 0
  | .a .. => 1
  | .g _ => 2

/-- The pipe that a word of class V or X runs on for a path: S when its result is U or A by rows 1 to 7 of R70, else its class. -/
def Group.shapedPipe (g : Group) (lanes : LaneSet) (i : Instr) (c : Pipe) : Pipe :=
  let act := g.active lanes i.head
  let shapes := (g.framesOf act).map (fun (f, m) => (i.uses.filter (fun u => !u.write)).map (fun u =>
    match u.cls with
    | .v => (g.readV f u.reg).shape
    | .p => let ls := m.list g.w; if ls.all (fun l => g.pd u.reg l == g.pd u.reg (ls.headD 0)) then 0 else 2
    | _ => 0))
  let affine (xs : List Nat) : Bool :=
    match i with
    | .viAdd .. | .viSub .. | .viiAdd .. | .vmNeg .. | .vmMov .. | .viiMul .. | .viiShl .. => xs.all (· ≤ 1)
    | .viMul .. => xs.all (· ≤ 1) && decide (xs.foldl (· + ·) 0 ≤ 1)
    | .viShl .. => xs.all (· ≤ 1) && xs.getD 1 0 == 0
    | _ => false
  if shapes.all (fun xs => xs.all (· == 0) || affine xs) then .S else c

/-- The pipe that a word runs on for a path (R70, R200): its class, or what its family's table names (R215, R234, R241, R247). -/
def Group.runsOn (g : Group) (lanes : LaneSet) (i : Instr) (c : Pipe) : Pipe :=
  let spread (h : Head) (reg : Frame → Nat) : Bool := (g.framesOf (g.active lanes h)).any (fun (f, _) => (g.readV f (reg f)).shape == 2)
  match i with
  | .ctlPc .. | .shpShape .. => .S
  | .votePeers .. | .voteRank .. => .X
  | .shpSq .. | .shpExp .. | .vpAnd .. | .vpOr .. | .vpXor .. | .vpAndn .. | .vpNot .. => .V
  | .shpRdx h _ a => if spread h (fun f => (f.U a.toNat).toNat) then .V else .S
  | .shpWrx h _ a => if spread h (fun _ => a.toNat) then .V else .S
  | _ => if c == .V || c == .X then g.shapedPipe lanes i c else c

/-- The pipes that a word needs for a path: its static class and the pipe it runs on (R47). -/
noncomputable def Group.pipesOf (g : Group) (lanes : LaneSet) (w : Word) : List Pipe :=
  match wordClass w, decode w with
  | some c, .ok i => [c, g.runsOn lanes i c]
  | c, _ => c.toList

/-- The issue event of a path's chain: it is counted for the team and for a trial, and entry to a handler is over (R30, R169, R341). -/
def State.issueEvent (s : State) (g : Group) (p : Path) : State :=
  let now := (clusterOf g.core, s.clocks g.core)
  let s := s.updCluster now.1 (fun c => { c with lastIssue := now.2 })
  let s := s.updTeam g.grid g.team (fun t =>
    { t with
      eAll := t.eAll + 1
      eSub := t.eSub + (if p.lanes == g.live then 0 else 1)
      cyStart := match t.cyStart with | some x => some x | none => some now })
  let fn := s.fnOf g.grid
  let f := s.fn fn
  let trial := f.trialctl.getLsbD 0 && (f.trialctl.extractLsb' 32 32 == 0xFFFFFFFF || f.trialctl.extractLsb' 32 32 == g.grid) &&
    !(decide (f.triallo.toNat ≤ p.pc.toNat) && decide (p.pc.toNat < f.trialhi.toNat))
  let s := if trial then s.updFn fn (fun f => { f with dlycnt := f.dlycnt + 1 }) else s
  s.updGroup g.core g.slot (fun g =>
    { g with
      delay := if trial then g.delay + (f.trialctl.extractLsb' 16 16).toNat else g.delay
      frames := g.frames.map (fun fr =>
        match fr.handler with
        | some h => if h.entering && (p.lanes.list g.w).any (fun l => (g.lane l).frame == fr.id) then { fr with handler := some { h with entering := false } } else fr
        | none => fr) })

/-- A path's chain stands issued in its group, with what is put aside for its words. -/
noncomputable def State.addChain (s : State) (g : Group) (p : Path) (ws : List Word) (m : Means) : State :=
  ((s.issueEvent g p).updCore g.core (fun c => c.record m.kept)).updGroup g.core g.slot (fun x => { x with chains := x.chains ++ [s.chainOf g p ws m] })

/-- A chain that faults stands after the one that it was looked at with; it is no issue event (R424). -/
def State.addFault (s : State) (g : Group) (c : Chain) : State := s.updGroup g.core g.slot (fun x => { x with chains := x.chains ++ [c] })

/-- The next word of a chain of a group, when it goes ahead, or the requests it makes; a chain issued together with another waits for that
one's words (R47), and a wide atomic of the chain holds its later words (R375). -/
noncomputable def State.continueChain (s : State) (g : Group) (c : Chain) : Option Choice :=
  if (g.chains.takeWhile (fun x => x.lanes != c.lanes)).any (fun x => x.since == c.since) then none
  else if c.raised.isSome then some (s.begin g c)
  else if !c.fresh && g.wideHeld c.lanes then none
  else
    match c.words with
    | [] => none
    | w :: _ =>
      let t := s.enter g c
      let i := instrOf c.pc w
      let u := t.after i
      let rs := (u.core g.core).requestsOf g.slot c.pc c.lanes
      let asked := s.updCore g.core (fun k => k.record rs)
      if t.moved u i then some (.word w t)
      else if asked.cores == s.cores then none
      else some (.wait asked)

/-- The two chains may issue in one clock: four words at most, and no pipe that words of both need (R47). -/
noncomputable def Group.together (g : Group) (p q : Path) (ws vs : List Word) : Bool :=
  decide (ws.length + vs.length ≤ 4) &&
    (let ps := ws.flatMap (g.pipesOf p.lanes)
     vs.all (fun v => !(g.pipesOf q.lanes v).any ps.contains))

/-- The second path's chain when the primary's cannot issue: it issues, faults, or makes its requests. -/
noncomputable def State.startSecond (s : State) (g : Group) (q : Path) : Option Choice :=
  match s.look g q id with
  | .fault c t => some (t.begin g c)
  | .stops c => some c
  | .issues vs m _ t => some ((t.addChain g q vs m).begin g (t.chainOf g q vs m))
  | .waits rs t => some (.wait (t.updCore g.core (fun k => k.record rs)))

/-- The paths of a group that issue: the primary, the second, or both; a fault of a chain is raised in place of its issue, and the other path issues or
faults in the same clock, after the primary (R46, R47, R424). The second path's chain is tried in the state that the primary's leaves, and its
requests come after the primary's (R78). -/
noncomputable def State.startChains (s : State) (g : Group) : Option Choice :=
  let kept (c : Option Choice) : Option Choice :=
    match c with
    | some (.wait t) => if t.cores == s.cores && t.frozenHeld == s.frozenHeld then none else c
    | c => c
  match g.paths with
  | [] => none
  | p :: qs =>
    match s.look g p id with
    | .stops c => some c
    | .fault c t =>
      match qs with
      | [] => some (t.begin g c)
      | q :: _ =>
        match t.look g q id with
        | .issues vs n _ u => some ((u.addChain g q vs n).begin g c)
        | .fault d u => some ((u.addFault g d).begin g c)
        | .waits rs u => some ((u.updCore g.core (fun k => k.record rs)).begin g c)
        | .stops _ => some (t.begin g c)
    | .waits rs t =>
      let t := t.updCore g.core (fun k => k.record rs)
      kept (match qs with | [] => some (.wait t) | q :: _ => t.startSecond g q)
    | .issues ws m left t =>
      let first := t.chainOf g p ws m
      let alone := t.addChain g p ws m
      match qs with
      | [] => some (alone.begin g first)
      | q :: _ =>
        match t.look g q (fun _ => left) with
        | .issues vs n _ u => if g.together p q ws vs then some (((u.addChain g p ws m).addChain g q vs n).begin g first) else some (alone.begin g first)
        | .waits rs _ => some ((alone.updCore g.core (fun k => k.record rs)).begin g first)
        | .fault d u => some (((u.addChain g p ws m).addFault g d).begin g first)
        | .stops _ => some (alone.begin g first)

/-- A group whose chain can go on: the first such chain's next word. -/
noncomputable def State.goingOn (s : State) (g : Group) : Option Choice :=
  if s.therm || s.stopped g.core g.slot then none else g.chains.findSome? (s.continueChain g)

/-- What a group does: a deferred fault at a chain boundary, then its paths (R45, R200, R338). -/
noncomputable def State.groupChoice (s : State) (g : Group) : Option Choice :=
  if !s.mayIssue g then none
  else
    match (List.range g.w).find? (fun l => (g.lane l).run.runnable && g.atBoundary l && !g.chains.any (fun c => c.lanes.has l) && !g.wideHeld (LaneSet.one l) &&
        (g.dueFault l).isSome) with
    | some l => some (.event (.deferredFaultRaise g.core g.slot l) s)
    | none => s.startChains g

/-! ## The events that follow of themselves -/

/-- The events of a group. -/
def State.groupEvents (s : State) (g : Group) : List Instr :=
  let c := g.core
  let n := g.slot
  (if g.traps.isEmpty then [] else [.trapHandlerEntry c n]) ++
    g.ops.flatMap (fun o =>
      (match o.log with | some e => if o.parts.any (fun p => p.prog == .untranslated) then [Instr.translationComplete c n e (~~~0)] else [] | none => []) ++
      (if o.kind == .load then
        (o.elems.zipIdx).filterMap (fun ((i, j), k) =>
          match ((o.parts[i]?).bind (fun p => p.units[j]?)).map AccUnit.prog with
          | some .issued => some (.loadPresent c n o.id k)
          | some (.presented ..) => some (.loadBind c n o.id k)
          | _ => none)
       else [])) ++
    (match g.sf with | [] => [] | h :: _ => match h.kind with | .atomic .. => [.atomicPerform c n] | _ => [.sfDrain c n]) ++
    (g.ops.filter (fun o => o.kind == .tileStore)).map (fun o => .tileStoreRowEnter c (n, o.id)) ++
    g.arrivals.map (fun a => .barrierArrival c n (a.bar, none)) ++
    (if g.delay = 0 then [] else [.trialDelayEnd c n]) ++
    (List.range g.w).flatMap (fun l =>
      match (g.lane l).run with
      | .regroup .. => [.regroup g.grid g.team]
      | .address w => [.wtaTimeout c n l, if w.watched then .wtaWake c n l else .wtaPoll c n l]
      | .time t => if t ≤ s.ptime.toNat then [.timeWaitExpiry c n l] else []
      | _ => [])

/-- The spilled registers that a word of a path needs, by frame (R81): shp.shape needs none, a call its arguments, a return its values and what
it writes below, sys.tret its record, shp.rdx and shp.wrx the register named, a block operation what its block holds (R259, R260). -/
def Ctx.spilledFor (c : Ctx) (i : Instr) : List (Nat × Nat) :=
  let gone (f : Frame) (m : LaneSet) (u : Use) : List (Nat × Nat) :=
    ((List.range u.count).filter (fun j => f.tag (u.reg + j) == .spilled && !(u.write && LaneSet.subset f.owners m))).map (fun j => (f.id, u.reg + j))
  let named : List (Nat × Nat) := c.frames.flatMap (fun (f, m) => (i.uses.filter (fun u => u.cls == .v)).flatMap (gone f m))
  let indexed (a : Nat) : List (Nat × Nat) := c.frames.filterMap (fun (f, _) =>
    let n := (f.U a).toNat
    if n < f.nv ∧ f.tag n = .spilled then some (f.id, n) else none)
  match i with
  | .shpShape .. | .shpExp .. => []
  | .shpSq _ d => (c.g.framesOf c.path).flatMap (fun (f, _) => if f.tag d.toNat == .spilled then [(f.id, d.toNat)] else [])
  | .call _ _ _ _ x | .callp _ _ _ x _ => named ++ c.argsSpilled x.toNat
  | .retPop _ n => c.retSpilled (fun _ => 1) n.toNat
  | .retUnwind _ d n => c.retSpilled (fun _ => d.toNat) n.toNat
  | .retUnwindr _ a n => named ++ c.retSpilled (fun f => (f.U a.toNat).toNat) n.toNat
  | .ctlExit _ => c.retSpilled Frame.depth 0
  | .sysTret _ => c.tretSpilled
  | .shpRdx _ _ a => named ++ indexed a.toNat
  | .shpWrx _ d _ => named ++ indexed d.toNat
  | .vqQ16 _ _ a _ | .vqQe16 _ _ a _ => named ++ c.lentSpilled a.toNat (c.blockLanes 16)
  | .vqQ32 _ _ a _ | .vqQe32 _ _ a _ => named ++ c.lentSpilled a.toNat (c.blockLanes 32)
  | .vqPk4 _ _ a => named ++ c.lentSpilled a.toNat (c.packLanes 8)
  | .vqPk8 _ _ a => named ++ c.lentSpilled a.toNat (c.packLanes 4)
  | .ld _ d a o z q => named ++ c.destGone (c.loadAccess d z q (fun l => c.base a l + (c.g.laneV o.toNat l).setWidth 64) (fun f => (c.g.readV f o.toNat).isU))
  | .ldImm _ d a i z q => named ++ c.destGone (c.loadAccess d z q (fun l => c.base a l + immOffset i z) (fun _ => true))
  | .lds _ d a f i => named ++ c.destGone (c.scratchLoadAccess d a f i)
  | .wta _ d a b r z w => named ++ c.destGone (c.waitAccess d a b r z w)
  | _ => named

/-- The spilled registers that the words of a chain need, each with its word and the word's lanes (R81): every word reads what the earlier ones
leave; one that cannot go on yet leaves the state as it is. -/
noncomputable def chainNeeds (n : Nat) : State → List Word → List (Nat × Nat × DWord × LaneSet)
  | _, [] => []
  | s, w :: ws =>
    match s.cur with
    | none => []
    | some cu =>
      let i := instrOf cu.pc w
      let whole := match i with | .shpSq .. => true | _ => false
      let mine := match s.ctx? i.head with
        | some x => if x.act == 0 && !whole then [] else (x.spilledFor i).map (fun (f, r) => (f, r, cu.pc, if x.act == 0 then x.path else x.act))
        | none => []
      let t := match s.tryWord n i with | .ok (t, _) => t | .error _ => s
      let m : LaneSet := match s.tryWord n i, s.group? cu.core cu.slot, t.group? cu.core cu.slot with
        | .ok _, some g, some g' => goOn g g' cu.path cu.pc
        | _, _, _ => cu.path
      mine ++ chainNeeds n { t with cur := some { cu with path := m, pc := cu.pc + 4, mid := true } } ws

/-- The destination registers of a wait on address that is to read its word: it reads now, has no watch entry, or its time is up. -/
def State.waitNeeds (s : State) (g : Group) (x : Lane) : List (Nat × Nat) :=
  match x.run with
  | .address w =>
    let due := match w.deadline with | some t => decide (t ≤ s.ptime.toNat) | none => false
    if (w.reading || !w.watched || due) && g.waitSpilled w.frame w.dst w.size then
      match g.frame? w.frame with
      | some f => ((List.range (max 1 (w.size / 4))).filter (fun i => f.tag (w.dst + i) == .spilled)).map (fun i => (w.frame, w.dst + i))
      | none => []
    else []
  | _ => []

/-- The spilled registers of a group that are needed back, by frame, with the word and its lanes (R81): those of the words its paths and chains are
at, of the regroup that is due, and of waits on address. -/
noncomputable def State.refills (s : State) (g : Group) : List (Nat × Nat × DWord × LaneSet) :=
  if !g.frames.any (fun f => f.v.contains .spilled) then []
  else
    let ahead : List Chain := ((g.paths.take 2).filter (fun p => !g.busy p.lanes)).filterMap (fun p =>
      match s.fetchChain g p.lanes p.pc with
      | (_, .words ws) => some (s.chainOf g p ws)
      | _ => none)
    (g.chains ++ ahead).flatMap (fun c => chainNeeds c.since (s.enter g c) c.words) ++
      (g.lanes.zipIdx).flatMap (fun (x, l) => (s.waitNeeds g x).map (fun (f, r) => (f, r, x.wordAt, LaneSet.one l))) ++
      (match s.regroupDue g.grid g.team with
       | some ([pc], _, _) =>
         ((s.regroupSpilled g.grid g.team).filter (fun x => x.1 == g.core && x.2.1 == g.slot)).map (fun x => (x.2.2.1, x.2.2.2, pc, g.live))
       | _ => [])

/-- The refills of a group. -/
noncomputable def State.refillEvents (s : State) (g : Group) : List Instr :=
  (s.refills g).map (fun x => Instr.refillComplete g.core g.slot x.1 x.2)

/-- The slots of a core whose groups are ready: one of their two lowest paths can issue (R45). -/
noncomputable def State.readySlots (s : State) (n : Nat) : BitVec 64 :=
  (s.onCore n).foldl (fun m g =>
    match s.groupChoice g with
    | some (.word ..) | some (.event ..) => m ||| BitVec.ofNat 64 (2 ^ g.slot)
    | _ => m) 0

/-- The events of a core. -/
noncomputable def State.coreEvents (s : State) (n : Nat) (c : Core) : List Instr :=
  (List.range c.prop.length).map (Instr.propagate n) ++ (if c.engine.any (fun x => !x.taken) then [.copyTake n] else []) ++
    (c.engine.zipIdx).filterMap (fun (x, i) => if x.taken && !x.done then some (.copyComplete n i 0) else none) ++
    (if c.array.isEmpty then [] else [.matrixOpComplete n]) ++
    (if c.requests.any (fun r => !r.granted) then [.granuleGrant n, .tagQuadGrant n, .escapeSpill (n, s.readySlots n)] else []) ++
    (if c.dumpst.getLsbD 0 then [.dumpComplete n] else [])

/-- The events of a grid (R37, R40, R139, R154, R403, R404, R406). -/
def State.gridEvents (s : State) (g : Grid) : List Instr :=
  match g.cancelled with
  | some c =>
    if g.cancelSeen then [.cancelReport (g.num, none), .cancelSummary g.num]
    else if g.record.reach ≠ 2 ∨ s.root ∨ s.lostPeers.contains 0 then [.cancelReceive g.num (BitVec.ofNat 8 c)] else []
  | none =>
    [.launchStartRelease g.num, .teamDispatch 0 g.num, .teamDispatch 1 g.num, .allotmentGrant 0 g.num, .allotmentGrant 1 g.num,
      .podPartReport (g.num, none), .gridComplete g.num] ++ (if s.root ∧ g.record.reach = 2 then [.podCompletion g.num] else [])

/-- The events of a queue (R148, R149). -/
def State.queueEvents (s : State) (f q : Nat) : List Instr :=
  let x := s.queue f q
  (match x.block with | .none => [] | .ctxset .. => [.ctxset f q] | .waitev .. => [.waitevSatisfied f q] | .cinv _ => [.cinv f q]) ++
    (if x.signals.isEmpty then [] else [.signalStore f q]) ++
    (if s.queueReady f q then [.launch f q, .trigger f q, .cancel f q, .waitev f q, .signal f q, .ctxset f q, .tvtset f q, .cinv f q, .reservedCommandEntry f q] else [])

/-- Places for a block: the pool's start and the end of each block of the function (R388). -/
def State.blockPlaces (s : State) (fn : Nat) : List DWord :=
  BitVec.ofNat 64 ((s.fn fn).prepool.toNat % 2 ^ 56 / 64 * 64) :: (s.units.filter (fun u => u.fn == fn)).map (fun u => u.block + BitVec.ofNat 64 u.size)

/-- The events of the firmware core and the dispatchers that no clock decides (R394, R393, R390). -/
def State.unitEvents (s : State) : List Instr :=
  (s.groups.filter (fun g => g.evicting.isSome)).flatMap (fun g => (s.blockPlaces (s.fnOf g.grid)).map (fun b => Instr.eviction g.grid g.team b)) ++
    (s.units.zipIdx).flatMap (fun (u, i) =>
      (if u.wake then [] else [Instr.wakeCheck i]) ++ (if u.pending then (u.cores ++ dieCores u.die).map (fun c => Instr.restore i c) else []))

/-- The root's keying of the pod launches that it has issued itself (R153). -/
def State.keyEvents (s : State) : List Instr :=
  if s.root then
    (s.podOut.filter (fun k => k.issuer == s.dev)).map (fun k =>
      .podLaunchKey k.issuer k.seq ((s.grid? k.grid).map Grid.fn |>.getD 0) ((s.grid? k.grid).map Grid.queue |>.getD 0) [])
  else []

/-- The candidates, in order; what several grids do at one time goes by ascending grid number (R143). -/
noncomputable def State.events (s : State) : List Instr :=
  s.groups.flatMap s.groupEvents ++ s.groups.flatMap s.refillEvents ++ (s.cores.zipIdx).flatMap (fun (c, n) => s.coreEvents n c) ++
    (List.range s.feProp.length).map (Instr.propagate s.cores.length) ++
    (s.clusters.zipIdx).flatMap (fun (c, n) => if c.move.isSome then [Instr.poolMoveComplete n] else []) ++
    (if s.clusters.any Cluster.idle then [.slewAdmissionWindow] else []) ++
    (sorted (fun a b => lexLt [a.number, a.grid.toNat, a.num] [b.number, b.grid.toNat, b.num]) (s.teams.filter s.watchdogDue)).map (fun t => .watchdogExpiry t.grid t.num) ++
    (if s.requests.isEmpty then [] else [.launchAccept]) ++ (List.range s.prefetches.length).map (fun i => .prefetchCopyComplete i 0) ++
    (List.range s.armed.length).map Instr.waitTimeExpiry ++ (if s.signals.isEmpty && s.ending.isNone then [] else [.nodeSignal]) ++
    s.classRequests.map (fun r => Instr.classRequestArrival (r.die, none)) ++ s.keyEvents ++
    (if s.podHeld.isEmpty then [] else [.podLaunchRelease]) ++ (sorted (fun a b => decide (a.num.toNat < b.num.toNat)) s.grids).flatMap s.gridEvents ++
    (List.range Config.functions).flatMap (fun f => if (s.fn f).ready then (List.range Config.queues).flatMap (s.queueEvents f) else []) ++ s.unitEvents

/-- The core whose clock an event needs (R411). -/
def coreOf? : Instr → Option Nat
  | .sfDrain c _ | .propagate c _ | .loadPresent c _ _ _ | .loadBind c _ _ _ | .atomicPerform c _ | .tileStoreRowEnter c _ | .copyTake c
  | .copyComplete c _ _ | .matrixOpComplete c | .barrierArrival c _ (_, none) | .granuleGrant c | .tagQuadGrant c | .escapeSpill (c, _)
  | .refillComplete c _ _ _ | .wtaWake c _ _ | .wtaPoll c _ _ | .wtaTimeout c _ _ | .timeWaitExpiry c _ _ | .trialDelayEnd c _
  | .deferredFaultRaise c _ _ | .trapHandlerEntry c _ | .translationComplete c _ _ _ => some c
  | .regroup .. => some 0
  | _ => none

/-- After the thermal trip every cluster's clock stands still, and no event of a core takes place (R411). -/
def State.clockStopped (s : State) (i : Instr) : Bool := s.therm && (coreOf? i).any (fun c => decide (c < s.cores.length))

/-- An event changes the machine. -/
def State.changes (s : State) (i : Instr) : Bool := !s.clockStopped i && s.after i != s

/-- The first event that changes the machine. -/
noncomputable def State.nextEvent (s : State) : Option Instr := s.events.find? s.changes

/-! ## The choice of a step (log 3) -/

/-- The partition of a group. -/
def Group.partition (g : Group) : Nat := g.core * Config.partitions + g.slot / Config.slotsPerPartition

/-- Some groups by partition, then as R45 orders those of one partition: lower rank, older team, lower slot. -/
def State.inOrder (s : State) (gs : List Group) : List Group :=
  let age (g : Group) : Nat := ((s.team? g.grid g.team).map Team.age).getD 0
  sorted (fun a b => lexLt [a.partition, a.rank, age a, a.slot] [b.partition, b.rank, age b, b.slot]) gs

/-- The choice of the first group of a list that has one; the partition after it is next. -/
noncomputable def State.firstChoice (s : State) (gs : List Group) : Option Choice :=
  (s.inOrder gs).findSome? (fun g => State.groupChoice { s with turn := g.partition + 1 } g)

/-- What each partition would issue (R45), and the events that change the machine: what a move of the agenda may pick. -/
noncomputable def State.choices (s : State) : List Choice :=
  let parts := (s.groups.map Group.partition).foldl (fun acc p => if acc.contains p then acc else acc ++ [p]) []
  parts.filterMap (fun p => s.firstChoice (s.groups.filter (fun g => g.partition == p))) ++
    (s.events.filter s.changes).map (fun i => Choice.event i s)

/-- What the machine does without a move of the agenda: a group of the partitions from `turn` on, then the events, one by one, then a
group of the partitions before `turn`. -/
noncomputable def State.choose (s : State) : Option Choice :=
  match s.firstChoice (s.groups.filter (fun g => decide (s.turn ≤ g.partition))) with
  | some c => some c
  | none =>
    match s.nextEvent with
    | some i => some (.event i s)
    | none => s.firstChoice (s.groups.filter (fun g => decide (g.partition < s.turn)))

/-- The next word of a chain that has issued, which goes before anything else. -/
noncomputable def State.ongoing (s : State) : Option Choice := s.groups.findSome? s.goingOn

/-! ## After a step -/

/-- The chain whose word has executed moves on with the lanes that go on, or is over. -/
def State.afterWord (s t : State) : State :=
  match s.cur with
  | none => t
  | some cu =>
    match s.group? cu.core cu.slot, t.group? cu.core cu.slot with
    | some g, some g' =>
      let m := goOn g g' cu.path cu.pc
      let here (c : Chain) : Bool := c.lanes == cu.path && c.pc == cu.pc
      let step (c : Chain) : Option Chain :=
        if here c then
          match c.words with
          | _ :: w :: ws =>
            if m == 0 || c.raised.isSome then none
            else some { c with lanes := m, pc := c.pc + 4, words := w :: ws, places := c.places.drop 1, prompt := c.prompt - 1, fresh := false }
          | _ => none
        else some c
      t.updGroup cu.core cu.slot (fun g => { g with chains := g'.chains.filterMap step })
    | _, _ => t

/-- Lanes that no longer stand at their chain's next word have left it; an error in a register of a frame that is gone is gone. -/
def Group.trimChains (g : Group) : Group :=
  { g with bad := g.bad.filter (fun b => decide (1 < b.cls) || g.frames.any (fun f => f.id == b.frame)), chains := g.chains.filterMap (fun c =>
      let m := c.lanes &&& LaneSet.ofPred g.w (fun l => (g.lane l).run.runnable && (g.lane l).pc == if c.raised.isSome then c.first else c.pc)
      if m == 0 then none else some { c with lanes := m }) }

/-- The paths that wait under R60 for a load of host space (R386). -/
noncomputable def State.stallsOf (s : State) (g : Group) : List Stall :=
  let host (o : Op) : Bool := o.kind == .load && o.parts.any (fun p => p.pending && p.units.any (fun u => isHostKey u.key))
  if !g.ops.any host then []
  else
    (g.paths.filter (fun p => !g.busy p.lanes)).flatMap (fun p =>
      let us := (s.codeChain g.core (s.fnOf g.grid) p.pc).flatMap (fun w => (instrOf p.pc w).uses)
      (g.ops.filter host).filterMap (fun o =>
        if us.any (fun u => (g.framesOf p.lanes).any (fun (f, m) => o.blocks u.cls f.id u.reg u.count m)) then
          some { pc := p.pc, lanes := p.lanes, op := o.id }
        else none))

/-- Phases of the barriers of every team and grid that have become complete are released (R54, R56). -/
def State.releaseAll (s : State) : State :=
  let s := s.teams.foldl (fun s t => if t.evicted then s else (List.range 18).foldl (fun s b => s.releasePhases t.grid t.num b 64) s) s
  s.grids.foldl (fun s g => if g.record.resident then s.releasePhases g.num 0 18 64 else s) s

/-- A group that has exited has the stamp of its exit (R52, R56). -/
def State.stampExits (s : State) : State :=
  s.groups.foldl (fun s g =>
    if g.exited && g.exitAt.isNone then { (s.setGroup { g with exitAt := some s.stamp }) with stamp := s.stamp + 1 } else s) s

/-- A request by lanes still has what it was made for: a lane in the vote at its word or before it in the packet, in a chain before it, in a
handler's entry or a regroup there, or a load that has not bound. -/
def Group.stillAsks (g : Group) (r : Request) : Bool :=
  let near (pc : DWord) : Bool := decide (pc.toNat ≤ r.pc.toNat) && decide (r.pc.toNat < pc.toNat + 12)
  (r.lanes.list g.w).any (fun l =>
    match (g.lane l).run with
    | .running => near (g.lane l).pc
    | .trapping => g.traps.any (fun t => t.laneSet.has l && t.lanes.any (fun x => x.fpc == r.pc))
    | .regroup pc _ _ => pc == r.pc
    | _ => false) ||
    g.ops.any (fun o => o.kind == .load && o.pc == r.pc && o.parts.any (fun p => p.pending && p.lanes &&& r.lanes != 0))

/-- Requests that nothing waits for any more are given up, with their grants (R73). -/
noncomputable def State.pruneRequests (s : State) : State :=
  let keeps (n : Nat) (r : Request) : Bool :=
    match s.group? n r.slot with
    | none => false
    | some g => if r.lanes == 0 then (s.refills g).any (fun x => refillKey x.1 x.2.1 == r.pc) else g.stillAsks r
  if s.cores.all (fun c => c.requests.isEmpty) then s
  else { s with cores := s.cores.mapIdx (fun n c => { c with requests := c.requests.filter (keeps n) }) }

/-- What follows at once of every event: what may enter a store FIFO enters, fences lift, invalidations end, errors in groups' state are
reported, retired writes become the base, finished teams leave, phases are released, timers run (R122, R128, R129, R323, R377, R30, R54,
R355). -/
noncomputable def State.settle (s : State) : State :=
  let s : State := { s with cur := none }
  let s : State := s.groups.foldl (fun (s : State) (g : Group) => s.setGroup (s.liftHolds (s.enterAll g.trimChains))) s
  let s : State := s.endInvalidations.reportBad.retireAll.dropWatches.exitCancelled.stampExits.releaseAll.pruneRequests.finishTeams
  let s : State := { s with groups := s.groups.map (fun g => { g with stalls := s.stallsOf g }) }
  State.runTimers { s with groups := s.groups.map (fun g => if g.evicting.isSome && s.groupMoved g then { g with moved := true } else g) }

/-- Time passes: ns nanoseconds of %ptime, and, until the thermal trip, the clocks of each cluster at its pool's class; a cluster that has not
issued for 256 of them is idle (R152, R156, R163, R411). -/
def State.elapse (s : State) (ns : Nat) : State :=
  if ns = 0 then s
  else
    let s : State := { s with ptime := s.ptime + BitVec.ofNat 64 ns }
    if s.therm then s
    else
      let s : State := { s with clusters := s.clusters.map (fun c => { c with cyc10 := c.cyc10 + ns * (12 + 3 * c.pool) }) }
      (List.range s.clusters.length).foldl State.clusterIdle s

end Sys2Proof.Machine
end

