-- ==== Sys2Proof/Machine/Step.lean ====
section
/-! DEFINITION. Sys2Proof/Machine/Step.lean: one step of the device, and an instruction placed where the next step fetches it. -/

namespace Sys2Proof.Machine

/-- A state as a step sees it, after the time that its clock input gives has passed (log 4). -/
def State.clocked (s : State) : State :=
  match s.clockIn with
  | [] => s
  | ns :: rest => { s.elapse ns with clockIn := rest }

/-- What follows an instruction that was executed in s. -/
noncomputable def State.finish (s : State) : Host.Outcome State Fault Refusal → Host.Outcome State Fault Refusal
  | .next t => .next (s.afterWord t).settle
  | .fault f => .fault f
  | .refused r => .refused r

/-- What is chosen is executed; with nothing to do a nanosecond passes. -/
noncomputable def State.execute (s : State) : Option Choice → Host.Outcome State Fault Refusal
  | some (.word w t) => t.finish (exec (instrOf ((t.cur.map Cur.pc).getD 0) w) t)
  | some (.event i t) => t.finish (exec i t)
  | some (.wait t) => .next t.settle
  | none => .next (s.elapse 1).settle

/-- ONE STEP: the next word of a chain that has issued, for as long as one can go on (R47); else, after the time that the clock input gives,
the next move of the agenda, an event or the pick of one of the choices, or what the machine chooses itself (log 3). An event of a core whose
clock has stopped does not take place (R411). -/
noncomputable def step (s : State) : Host.Outcome State Fault Refusal :=
  match s.ongoing with
  | some c => s.execute (some c)
  | none =>
    let s := s.clocked
    match s.agenda with
    | [] => s.execute s.choose
    | .event e :: rest =>
      let t := { s with agenda := rest, cur := none }
      if t.clockStopped e then .next t.settle else t.finish (exec e t)
    | .pick n :: rest =>
      let t := { s with agenda := rest, cur := none }
      t.execute (t.choices[n]?)

/-! ## An instruction placed (log 3) -/

/-- The address of the placed instruction. -/
def placedPc : DWord := 0x10000080

/-- The launch record of the placed grid: 32 vector and 32 uniform registers, 8 tiles, 4 accumulators, W = 16. -/
def placedRecord : LaunchRecord :=
  { addr := 0, entry := placedPc, sx := 16, sy := 1, sz := 1, tminx := 16, tminy := 1, tminz := 1, tmaxx := 16, tmaxy := 1, tmaxz := 1, tprefx := 16,
    tprefy := 1, tprefz := 1, tthr := 16, w := 16, probe := 1, recutmax := 0, order := 0, nt := 8, nac := 4, sf := 0, si := 0, nv := 32, ns := 32,
    opclass := 6, reach := 0, spillb := 0, spillt := 0, start := 0, args := 0, scrl := 0, evaddr := 0, evval := 0, evop := 0, evscope := 3, pmask := 1,
    barrier := true, resident := false, twin := false, devmask := 0, node := 0, scratch := [] }

/-- Its one team. -/
def placedBox : TeamBox :=
  { region := 0, tx := 0, ty := 0, tz := 0, ox := 0, oy := 0, oz := 0, ex := 16, ey := 1, ez := 1, clipped := false }

/-- The grid. -/
def placedGrid : Grid :=
  { newGrid 0 0 0 (.command 0 0 0) placedRecord [0] with
    released := true, cuts := [{ placedRecord.newCut true with begun := true, requested := false, ended := true, teams := 1, nextRegion := 1 }, { placedRecord.newCut false with ended := true }] }

/-- The team. -/
def placedTeam : Team :=
  { grid := 0, num := 0, die := 0, box := placedBox, tn := 16, gcnt := 1, ss := 0, windows := [(0, 0)], tp := List.replicate 19 0, ncnt := List.replicate 16 1,
    eAll := 0, eSub := 0, sectors := [], qAll := 0, qHit := 0, cyStart := none, cyEnd := none, cls := 6, timer := none, evicted := false, age := 0 }

/-- An instruction placed at the program counter of the only path: one group of one team on core 0, and a context whose tables map virtual
address 0 to device address 0. -/
def State.withFetchWord (s : State) (nbits w : Nat) : State :=
  let m := Memory.writes s.mem 0x100000 (natLe 8 (0x200000 + 1))
  let m := Memory.writes m 0x200000 (natLe 8 0xF)
  let m := Memory.writes m 0x10000080 (tableBytes nbits w)
  { s with
    agenda := [], turn := 0, cur := none, clockIn := [], therm := false, mem := m, writes := [], bitErrors := [], tlb := [], access := [], frozen := []
    groups := [newGroup 0 placedRecord placedBox 0 0 16 0 0 0], cores := s.cores.set 0 Core.reset, clusters := s.clusters.set 0 Cluster.reset
    teams := [placedTeam], grids := [placedGrid], fns := s.fns.set 0 { Fn.reset with ready := true, level0 := some 0x100000 } }

end Sys2Proof.Machine
end

