-- ==== Sys2Proof/Safety.lean ====
section
/-! DEFINITION. Sys2Proof/Safety.lean: what a safe state and a safe run are, in the terms that claims use: memory and scratch are canonical
(R5, R102), the registers of a group are well formed (R66 to R69, R75), a word is ready to execute (R51, R60, R204, R214), and what a word
that writes registers leaves as it was. -/

namespace Sys2Proof.Machine

/-! ## Memory and outcomes -/

/-- Memory and scratch are in canonical form. -/
def State.MemOk (s : State) : Prop := Memory.wf s.mem = true ∧ Scratch.wfFrom 0 s.scratch = true

/-- The outcome of a step is a next state that satisfies a predicate. -/
def NextWith (P : State → Prop) : Host.Outcome State Fault Refusal → Prop
  | .next t => P t
  | _ => False

/-- An outcome is a next state. -/
def Completes (o : Host.Outcome State Fault Refusal) : Prop := NextWith (fun _ => True) o

/-! ## Registers of a group -/

/-- The granule set that a tag names. -/
def Tag.set? : Tag → Option Nat
  | .g n => some n
  | _ => none

/-- The registers of a group are well formed: one lane for each lane of its width (R65), frames with their own references and as many
registers as they declare (R66), granule sets with a word for each lane, and every general register with a granule set that only registers of its own
number share (R68, R75): a callee's argument may share its caller's (R74). Tiles and accumulators list their cells in rising order. -/
structure Group.Wf (g : Group) : Prop where
  width : g.w ≤ 64
  lanes : g.lanes.length = g.w
  ids : (g.frames.map Frame.id).Nodup
  regs : ∀ f ∈ g.frames, f.v.length = f.nv ∧ f.s.length = f.ns
  sets : (g.sets.map GSet.id).Nodup
  words : ∀ x ∈ g.sets, x.words.length = g.w
  held : ∀ f ∈ g.frames, ∀ r ∈ List.range f.nv, ∀ n ∈ (f.tag r).set?.toList, n ∈ g.sets.map GSet.id
  once : ∀ f ∈ g.frames, ∀ k ∈ g.frames, ∀ r ∈ List.range f.nv, ∀ q ∈ List.range k.nv, f.tag r = k.tag q → (f.tag r).set?.isSome = true → r = q
  tiles : (g.tiles.map Prod.fst).Pairwise (· < ·)
  accs : (g.accs.map Prod.fst).Pairwise (· < ·)

/-- Every live lane stands in a frame of its group, and owns every frame of its stack (R69). -/
def Group.Owned (g : Group) : Prop :=
  ∀ l ∈ List.range g.w, (g.lane l).run.live = true →
    (∃ f ∈ g.frames, f.id = (g.lane l).frame ∧ f.owners.has l = true) ∧ ∀ f ∈ g.stack l, f.owners.has l = true

/-! ## A word that is ready to execute -/

/-- A word's path and operands let it execute: an active lane, and active lanes that are live; every register that its fields name lies
within the bounds (R204), is free (R60; of a chain that has begun, from all but the accesses of other lanes) and reads without error (R377); and no
access under R337 holds the lanes. -/
structure Ctx.Ready (c : Ctx) (us : List Use) (cls : OrdClass) : Prop where
  active : c.act.list c.g.w ≠ []
  live : ∀ l ∈ c.act.list c.g.w, (c.g.lane l).run.live = true
  bounds : c.bounds us = []
  free : us.any (c.s.useBusy c.blockers c.act) = false
  held : (c.act.list c.g.w).any (fun l => c.g.held337 c.since l cls) = false
  good : c.badSource us = []

/-- The word may take rows and tag quads: so many are free and, if it takes any, no request made before its own waits (R73, R360). -/
structure Ctx.Free (c : Ctx) (r q : Nat) : Prop where
  rows : r ≤ c.s.freeRows c.core
  quads : q ≤ c.s.freeQuads c.core
  first : r + q ≠ 0 → (c.s.core c.core).earlier c.slot c.pc c.act = []

/-- Every frame of the active lanes may take n granule sets (R73). -/
def Ctx.Room (c : Ctx) (n : Nat) : Prop := n = 0 ∨ c.Free (n * c.g.perReg * c.frames.length) 0

/-- The word i, with head h and ordering class cls, executes: its path and operands let it, the registers of its group are well formed,
and there is room for it to write `sets` vector registers. -/
structure Executes (i : Instr) (h : Head) (cls : OrdClass) (sets : Nat) (s : State) (c : Ctx) : Prop where
  ctx : s.ctx? h = some c
  ready : c.Ready i.uses cls
  wf : c.g.Wf
  owned : c.g.Owned
  room : c.Room sets

/-! ## What a word that writes registers leaves as it was -/

/-- Between two states only one group, and the requests of cores for rows and tag quads, differ: memory, scratch, every other group, every
grid and team, every register of a function, cluster or core, and all the rest are as they were. -/
structure OnlyGroup (s t : State) (core slot : Nat) : Prop where
  rest : t = { s with groups := t.groups, cores := t.cores }
  cores : ∀ k, t.core k = { s.core k with requests := (t.core k).requests }
  others : ∀ j k, ¬(j = core ∧ k = slot) → t.group? j k = s.group? j k

/-- Of a group only its registers, predicates and %fflags may differ: %fmode, tiles, accumulators, counters, accesses in flight, barriers,
holds and held faults are as they were, and every lane keeps all but its predicates. -/
structure OnlyRegs (g g' : Group) : Prop where
  rest : g' = { g with lanes := g'.lanes, frames := g'.frames, sets := g'.sets, fflags := g'.fflags }
  lanes : ∀ l, g'.lane l = { g.lane l with preds := (g'.lane l).preds }

/-- What a word leaves of the frames beneath a lane's current one: each stands as it was, with its uniform registers where no active lane stands in
it, and every vector register holds its value for the lane, but one that shares its granule set with a register that the word wrote there (R71, R74). -/
def Ctx.KeepsBelow (c : Ctx) (wrote : Nat → Nat → Prop) (g' : Group) : Prop :=
  ∀ l ∈ List.range c.g.w, (c.g.lane l).run.live = true → ∀ f ∈ (c.g.stack l).drop 1, f.id ≠ (c.g.lane l).frame → ∃ f', g'.frame? f.id = some f' ∧ f' = { f with v := f'.v, s := f'.s } ∧
    ((∀ k ∈ c.act.list c.g.w, (c.g.lane k).frame ≠ f.id) → f'.s = f.s) ∧
    ∀ r, ¬(wrote r l ∧ (f.tag r).set?.isSome = true ∧ f.tag r = (c.g.frm l).tag r) → (g'.readV f' r).lane l = (c.g.readV f r).lane l

/-- After a word whose path is past it, as `c` has it, vector register `d l` holds `val l` in every active lane l, and every other vector
register of every live lane, every uniform register, every predicate, %fflags but for `fl` and the frames beneath are unchanged. -/
def Ctx.WroteV (c : Ctx) (d : Nat → Nat) (val : Nat → Word) (fl : FFlags) (t : State) : Prop :=
  OnlyGroup c.s0 t c.core c.slot ∧ ∃ g', t.group? c.core c.slot = some g' ∧ OnlyRegs c.g g' ∧
    (∀ l ∈ c.act.list c.g.w, g'.laneV (d l) l = val l) ∧
    (∀ l ∈ List.range c.g.w, (c.g.lane l).run.live = true → ∀ r, ¬(r = d l ∧ c.act.has l = true) → g'.laneV r l = c.g.laneV r l) ∧
    (∀ l r, (g'.frm l).U r = (c.g.frm l).U r) ∧ g'.lanes = c.g.lanes ∧ g'.fflags = c.g.fflags ||| fl.setWidth 16 ∧
    c.KeepsBelow (fun r l => r = d l ∧ c.act.has l = true) g'

/-- The active lanes that stand in the frame of a lane. -/
def Ctx.mates (c : Ctx) (l : Nat) : LaneSet := c.act &&& LaneSet.ofPred c.g.w (fun j => (c.g.lane j).frame == (c.g.lane l).frame)

/-- After a word, uniform registers d onwards of the frame of every active lane l hold the words `val l`, and every other register, every
predicate, %fflags and the frames beneath are unchanged. -/
def Ctx.WroteU (c : Ctx) (d : Nat) (val : Nat → List Word) (t : State) : Prop :=
  OnlyGroup c.s0 t c.core c.slot ∧ ∃ g', t.group? c.core c.slot = some g' ∧ OnlyRegs c.g g' ∧
    (∀ l ∈ c.act.list c.g.w, ∀ i w, (val l)[i]? = some w → (g'.frm l).U (d + i) = w) ∧
    (∀ l r, (∀ k ∈ c.act.list c.g.w, (c.g.lane k).frame = (c.g.lane l).frame → ¬(d ≤ r ∧ r < d + (val k).length)) →
      (g'.frm l).U r = (c.g.frm l).U r) ∧
    (∀ l r, g'.laneV r l = c.g.laneV r l) ∧ g'.lanes = c.g.lanes ∧ g'.fflags = c.g.fflags ∧ c.KeepsBelow (fun _ _ => False) g'

/-- After a word, predicate d holds `val l` in every active lane l, and every other predicate, every other register, %fflags but for
`fl` and the frames beneath are unchanged. -/
def Ctx.WroteP (c : Ctx) (d : Nat) (val : Nat → Bool) (fl : FFlags) (t : State) : Prop :=
  OnlyGroup c.s0 t c.core c.slot ∧ ∃ g', t.group? c.core c.slot = some g' ∧ OnlyRegs c.g g' ∧
    (∀ l ∈ c.act.list c.g.w, g'.pd d l = val l) ∧
    (∀ l n, ¬(n = d ∧ c.act.has l = true) → n < 16 → g'.pd n l = c.g.pd n l) ∧
    (∀ l r, g'.laneV r l = c.g.laneV r l) ∧ (∀ l r, (g'.frm l).U r = (c.g.frm l).U r) ∧ g'.fflags = c.g.fflags ||| fl.setWidth 16 ∧
    c.KeepsBelow (fun _ _ => False) g'

/-! ## What the integer words compute (R236 to R241), with numbers in place of words where the tables speak of numbers -/

/-- A vector word with two vector sources. -/
abbrev Form3 := Head → BitVec 5 → BitVec 5 → BitVec 5 → Instr
/-- A word with one source. -/
abbrev Form2 := Head → BitVec 5 → BitVec 5 → Instr

/-- i32 and n32 products, comparisons and shifts of R236 and R238. -/
def mulHighS (x y : Word) : Word := BitVec.ofInt 32 (x.toInt * y.toInt / 2 ^ 32)
/-- The high word of the product of two n32. -/
def mulHighU (x y : Word) : Word := BitVec.ofNat 32 (x.toNat * y.toNat / 2 ^ 32)
/-- A left shift: 0 for amounts of 32 and more (R238). -/
def shiftLeft (x y : Word) : Word := BitVec.ofNat 32 (if y.toNat < 32 then x.toNat * 2 ^ y.toNat else 0)
/-- A logical right shift: 0 for amounts of 32 and more. -/
def shiftRight (x y : Word) : Word := BitVec.ofNat 32 (if y.toNat < 32 then x.toNat / 2 ^ y.toNat else 0)
/-- An arithmetic right shift: the sign for amounts of 32 and more. -/
def shiftArith (x y : Word) : Word := if y.toNat < 32 then BitVec.ofInt 32 (x.toInt / 2 ^ y.toNat) else if x.toInt < 0 then 0xFFFFFFFF else 0

/-- vi and what each form computes (R236). -/
def viRows : List (Form3 × (Word → Word → Word)) :=
  [(.viAdd, fun x y => BitVec.ofInt 32 (x.toInt + y.toInt)), (.viSub, fun x y => BitVec.ofInt 32 (x.toInt - y.toInt)),
   (.viMul, fun x y => BitVec.ofInt 32 (x.toInt * y.toInt)), (.viMulhs, mulHighS), (.viMulhu, mulHighU), (.viAnd, fun x y => x &&& y),
   (.viOr, fun x y => x ||| y), (.viXor, fun x y => x ^^^ y), (.viShl, shiftLeft), (.viShr, shiftRight), (.viSra, shiftArith),
   (.viMin, fun x y => if x.toInt ≤ y.toInt then x else y), (.viMax, fun x y => if x.toInt ≤ y.toInt then y else x),
   (.viMinu, fun x y => if x.toNat ≤ y.toNat then x else y), (.viMaxu, fun x y => if x.toNat ≤ y.toNat then y else x),
   (.viAndn, fun x y => x &&& ~~~y)]
/-- si and what each form computes. -/
def siRows : List (Form3 × (Word → Word → Word)) :=
  [(.siAdd, fun x y => BitVec.ofInt 32 (x.toInt + y.toInt)), (.siSub, fun x y => BitVec.ofInt 32 (x.toInt - y.toInt)),
   (.siMul, fun x y => BitVec.ofInt 32 (x.toInt * y.toInt)), (.siMulhs, mulHighS), (.siMulhu, mulHighU), (.siAnd, fun x y => x &&& y),
   (.siOr, fun x y => x ||| y), (.siXor, fun x y => x ^^^ y), (.siShl, shiftLeft), (.siShr, shiftRight), (.siSra, shiftArith),
   (.siMin, fun x y => if x.toInt ≤ y.toInt then x else y), (.siMax, fun x y => if x.toInt ≤ y.toInt then y else x),
   (.siMinu, fun x y => if x.toNat ≤ y.toNat then x else y), (.siMaxu, fun x y => if x.toNat ≤ y.toNat then y else x),
   (.siAndn, fun x y => x &&& ~~~y)]
/-- The forms of vii with a signed immediate of six bits (R237). -/
def viiRows : List ((Head → BitVec 5 → BitVec 5 → BitVec 6 → Instr) × (Word → Int → Word)) :=
  [(.viiAdd, fun x i => BitVec.ofInt 32 (x.toInt + i)), (.viiMul, fun x i => BitVec.ofInt 32 (x.toInt * i)),
   (.viiAnd, fun x i => x &&& BitVec.ofInt 32 i), (.viiOr, fun x i => x ||| BitVec.ofInt 32 i), (.viiXor, fun x i => x ^^^ BitVec.ofInt 32 i)]
/-- The forms of sii with a signed immediate. -/
def siiRows : List ((Head → BitVec 5 → BitVec 5 → BitVec 6 → Instr) × (Word → Int → Word)) :=
  [(.siiAdd, fun x i => BitVec.ofInt 32 (x.toInt + i)), (.siiMul, fun x i => BitVec.ofInt 32 (x.toInt * i)),
   (.siiAnd, fun x i => x &&& BitVec.ofInt 32 i), (.siiOr, fun x i => x ||| BitVec.ofInt 32 i), (.siiXor, fun x i => x ^^^ BitVec.ofInt 32 i)]
/-- The shifts of vii, by 0 to 31. -/
def viiShifts : List ((Head → BitVec 5 → BitVec 5 → BitVec 5 → Instr) × (Word → Nat → Word)) :=
  [(.viiShl, fun x n => BitVec.ofNat 32 (x.toNat * 2 ^ n)), (.viiShr, fun x n => BitVec.ofNat 32 (x.toNat / 2 ^ n)),
   (.viiSra, fun x n => BitVec.ofInt 32 (x.toInt / 2 ^ n))]
/-- The shifts of sii. -/
def siiShifts : List ((Head → BitVec 5 → BitVec 5 → BitVec 5 → Instr) × (Word → Nat → Word)) :=
  [(.siiShl, fun x n => BitVec.ofNat 32 (x.toNat * 2 ^ n)), (.siiShr, fun x n => BitVec.ofNat 32 (x.toNat / 2 ^ n)),
   (.siiSra, fun x n => BitVec.ofInt 32 (x.toInt / 2 ^ n))]
/-- A number clamped to a range. -/
def clamp (lo hi x : Int) : Int := max lo (min hi x)
/-- The forms of vm with two sources (R239). -/
def vm2Rows : List (Form3 × (Word → Word → Word)) :=
  [(.vmAdds, fun x y => BitVec.ofInt 32 (clamp (-2147483648) 2147483647 (x.toInt + y.toInt))),
   (.vmAddu, fun x y => BitVec.ofInt 32 (clamp 0 4294967295 ((x.toNat : Int) + y.toNat))),
   (.vmSubs, fun x y => BitVec.ofInt 32 (clamp (-2147483648) 2147483647 (x.toInt - y.toInt))),
   (.vmSubu, fun x y => BitVec.ofInt 32 (clamp 0 4294967295 ((x.toNat : Int) - y.toNat)))]
/-- The one bits of a word. -/
def onesOf (x : Word) : Nat := ((List.range 32).filter x.getLsbD).length
/-- The forms of vm with one source (R239): what their result is, bit by bit or as a number. -/
def vm1Rows : List (Form2 × (Word → Word → Prop)) :=
  [(.vmNeg, fun x r => r = BitVec.ofInt 32 (-x.toInt)), (.vmAbs, fun x r => r = BitVec.ofInt 32 (if x.toInt < 0 then -x.toInt else x.toInt)),
   (.vmMov, fun x r => r = x),
   (.vmClz, fun x r => r.toNat ≤ 32 ∧ (∀ i, 32 - r.toNat ≤ i → x.getLsbD i = false) ∧ (r.toNat < 32 → x.getLsbD (31 - r.toNat) = true)),
   (.vmPopc, fun x r => r.toNat = onesOf x), (.vmBrev, fun x r => ∀ i < 32, r.getLsbD i = x.getLsbD (31 - i)),
   (.vmSext8, fun x r => r.toInt = (x.setWidth 8).toInt), (.vmSext16, fun x r => r.toInt = (x.setWidth 16).toInt),
   (.vmSati8, fun x r => r.toInt = clamp (-128) 127 x.toInt), (.vmSati16, fun x r => r.toInt = clamp (-32768) 32767 x.toInt),
   (.vmSatn8, fun x r => (r.toNat : Int) = clamp 0 255 x.toNat), (.vmSatn16, fun x r => (r.toNat : Int) = clamp 0 65535 x.toNat)]
/-- The relations of R240. -/
def relEq (x y : Word) : Bool := decide (x = y)
/-- Unequal. -/
def relNe (x y : Word) : Bool := decide (x ≠ y)
/-- Less, as i32. -/
def relLt (x y : Word) : Bool := decide (x.toInt < y.toInt)
/-- Less or equal, as i32. -/
def relLe (x y : Word) : Bool := decide (x.toInt ≤ y.toInt)
/-- Less, as n32. -/
def relLtu (x y : Word) : Bool := decide (x.toNat < y.toNat)
/-- Less or equal, as n32. -/
def relLeu (x y : Word) : Bool := decide (x.toNat ≤ y.toNat)
/-- vc and its relations (R240). -/
def vcRows : List (Form3 × (Word → Word → Bool)) :=
  [(.vcEq, relEq), (.vcNe, relNe), (.vcLt, relLt), (.vcLe, relLe), (.vcLtu, relLtu), (.vcLeu, relLeu)]
/-- sc to a predicate. -/
def scRows : List (Form3 × (Word → Word → Bool)) :=
  [(.scEq, relEq), (.scNe, relNe), (.scLt, relLt), (.scLe, relLe), (.scLtu, relLtu), (.scLeu, relLeu)]
/-- sc to a uniform register. -/
def scSetRows : List (Form3 × (Word → Word → Bool)) :=
  [(.scSeq, relEq), (.scSne, relNe), (.scSlt, relLt), (.scSle, relLe), (.scSltu, relLtu), (.scSleu, relLeu)]
/-- The forms of vp on two predicates (R241). -/
def vpRows : List (Form3 × (Bool → Bool → Bool)) :=
  [(.vpAnd, fun x y => x && y), (.vpOr, fun x y => x || y), (.vpXor, fun x y => x ^^ y), (.vpAndn, fun x y => x && !y)]
/-- The forms of ad that compute a pair from two pairs (R246). -/
def adPairRows : List (Form3 × (DWord → DWord → DWord)) :=
  [(.adAdd, fun x y => x + y), (.adSub, fun x y => x - y), (.adAnd, fun x y => x &&& y), (.adMul, fun x y => BitVec.ofNat 64 (x.toNat * y.toNat))]
/-- The forms of ad that compute a pair from a pair and a word. -/
def adWordRows : List (Form3 × (DWord → Word → DWord)) :=
  [(.adAddx, fun x y => x + BitVec.ofInt 64 y.toInt), (.adAddz, fun x y => x + BitVec.ofNat 64 y.toNat),
   (.adShl, fun x y => if y.toNat < 64 then BitVec.ofNat 64 (x.toNat * 2 ^ y.toNat) else 0),
   (.adShr, fun x y => if y.toNat < 64 then BitVec.ofNat 64 (x.toNat / 2 ^ y.toNat) else 0)]
/-- The compares of ad. -/
def adCmpRows : List (Form3 × (DWord → DWord → Bool)) :=
  [(.adEq, fun x y => decide (x = y)), (.adLtu, fun x y => decide (x.toNat < y.toNat)), (.adLt, fun x y => decide (x.toInt < y.toInt))]
/-- The two words of a pair, low first. -/
def halves (x : DWord) : List Word := [x.extractLsb' 0 32, x.extractLsb' 32 32]
/-- Where a lane of vx takes its value from, in lanes of the group (R242): none where the lane named does not exist. -/
def vxRows : List (Form3 × (Nat → Nat → Nat → Option Nat)) :=
  [(.vxUp, fun _ l n => if n ≤ l then some (l - n) else none), (.vxDown, fun w l n => if l + n < w then some (l + n) else none),
   (.vxXor, fun w l n => some (l ^^^ n % w)), (.vxBcast, fun w _ n => some (n % w))]

/-! ## Registers read by a lane of the word -/

/-- V(r, L) before the word. -/
def Ctx.v (c : Ctx) (r : BitVec 5) (l : Nat) : Word := c.g.laneV r.toNat l
/-- U(r) of a lane's frame before the word. -/
def Ctx.u (c : Ctx) (r : BitVec 5) (l : Nat) : Word := (c.g.frm l).U r.toNat
/-- UP(r) of a lane's frame before the word. -/
def Ctx.up (c : Ctx) (r : BitVec 5) (l : Nat) : DWord := (c.g.frm l).UP r.toNat
/-- Pd(n, L) before the word. -/
def Ctx.p (c : Ctx) (r : BitVec 5) (l : Nat) : Bool := c.g.pd r.toNat l

/-! ## What the floating-point words compute (R250 to R262) -/

/-- The flags that the active lanes of a word set, each as its own computation does (R250). -/
def Ctx.flags (c : Ctx) (f : Nat → FFlags) : FFlags := (c.act.list c.g.w).foldl (fun a l => a ||| f l) 0

/-- vf32, vf16, vfx.div and the packing conversions: a result and flags from two sources, under the rounding mode. -/
noncomputable def float2Rows : List (Form3 × (RMode → Word → Word → Word × FFlags)) :=
  [(.vf32Add, fun rm x y => f32op rm .add x y 0), (.vf32Sub, fun rm x y => f32op rm .sub x y 0), (.vf32Mul, fun rm x y => f32op rm .mul x y 0),
   (.vf32Min, fun rm x y => f32op rm .min x y 0), (.vf32Max, fun rm x y => f32op rm .max x y 0), (.vf32Cpsgn, fun rm x y => f32op rm .cpsgn x y 0),
   (.vf16Add, fun rm x y => f16op .f16 rm .add x y 0), (.vf16Sub, fun rm x y => f16op .f16 rm .sub x y 0), (.vf16Mul, fun rm x y => f16op .f16 rm .mul x y 0),
   (.vf16Min, fun rm x y => f16op .f16 rm .min x y 0), (.vf16Max, fun rm x y => f16op .f16 rm .max x y 0),
   (.vf16Badd, fun rm x y => f16op .bf16 rm .add x y 0), (.vf16Bsub, fun rm x y => f16op .bf16 rm .sub x y 0), (.vf16Bmul, fun rm x y => f16op .bf16 rm .mul x y 0),
   (.vf16Bmin, fun rm x y => f16op .bf16 rm .min x y 0), (.vf16Bmax, fun rm x y => f16op .bf16 rm .max x y 0),
   (.vfxDiv, f32div), (.vcvPkh, fun rm x y => pack2 .f16 rm x y), (.vcvPkb, fun rm x y => pack2 .bf16 rm x y)]
/-- The fused forms: the third source is vD. -/
noncomputable def float3Rows : List (Form3 × (RMode → Word → Word → Word → Word × FFlags)) :=
  [(.vf32Fma, fun rm x y z => f32op rm .fma x y z), (.vf32Fms, fun rm x y z => f32op rm .fms x y z),
   (.vf16Fma, fun rm x y z => f16op .f16 rm .fma x y z), (.vf16Bfma, fun rm x y z => f16op .bf16 rm .fma x y z)]
/-- The forms with one source. -/
noncomputable def float1Rows : List (Form2 × (RMode → Word → Word × FFlags)) :=
  [(.vf32Abs, fun rm x => f32op rm .abs x 0 0), (.vf32Neg, fun rm x => f32op rm .neg x 0 0), (.vf32Rint, fun rm x => f32op rm .rint x 0 0),
   (.vf16Neg, fun rm x => f16op .f16 rm .neg x 0 0), (.vf16Abs, fun rm x => f16op .f16 rm .abs x 0 0),
   (.vf16Bneg, fun rm x => f16op .bf16 rm .neg x 0 0), (.vf16Babs, fun rm x => f16op .bf16 rm .abs x 0 0),
   (.vfxSqrt, f32sqrt), (.vfxRcp, fun _ x => f32bounded .rcp x), (.vfxRsq, fun _ x => f32bounded .rsq x), (.vfxExp2, fun _ x => f32bounded .exp2 x),
   (.vfxLog2, fun _ x => f32bounded .log2 x), (.vfxSinpi, fun _ x => f32bounded .sinpi x), (.vfxCospi, fun _ x => f32bounded .cospi x),
   (.vcvF32i, fun _ x => ofInt32 x.toInt), (.vcvF32n, fun _ x => ofInt32 x.toNat),
   (.vcvI32f, fun rm x => toInt32 rm (-(2 ^ 31)) (2 ^ 31 - 1) x), (.vcvN32f, fun rm x => toInt32 rm 0 (2 ^ 32 - 1) x),
   (.vcvUhl, fun rm x => widen .f16 rm (x.toNat % 2 ^ 16)), (.vcvUhh, fun rm x => widen .f16 rm (x.toNat / 2 ^ 16)),
   (.vcvUbl, fun rm x => widen .bf16 rm (x.toNat % 2 ^ 16)), (.vcvUbh, fun rm x => widen .bf16 rm (x.toNat / 2 ^ 16)),
   (.vfcClass, fun _ x => (f32class x, 0))]
/-- The forms whose second source is a uniform register, of the lane's frame. -/
noncomputable def floatURows : List (Form3 × (RMode → Word → Word → Word → Word × FFlags)) :=
  [(.vcvXe4, fun rm x u _ => widen .e4m3 rm (x.toNat / 256 ^ (u.toNat % 4) % 256)), (.vcvXe5, fun rm x u _ => widen .e5m2 rm (x.toNat / 256 ^ (u.toNat % 4) % 256)),
   (.vqDq4, fun rm x u _ => scaleTo rm (e2m1Dec (x.toNat / 2 ^ 24) (x.toNat % 16)) (scaleVal (u.toNat % 2) (x.toNat / 2 ^ 16 % 256))),
   (.vqDq8, fun rm x u _ => scaleTo rm (Fmt.e4m3.dec (x.toNat % 256)) (scaleVal (u.toNat % 2) (x.toNat / 2 ^ 16 % 256)))]
/-- The forms that put a byte into vD. -/
noncomputable def floatByteRows : List (Form3 × Fmt) := [(.vcvIe4, .e4m3), (.vcvIe5, .e5m2)]
/-- The compares of vfc. -/
noncomputable def floatCmpRows : List (Form3 × FCmp) := [(.vfcEq, .eq), (.vfcNe, .ne), (.vfcLt, .lt), (.vfcLe, .le), (.vfcUn, .un)]
/-- The quantising forms of vq: block length, whether to e4m3, and whether a census site. -/
noncomputable def quantRows : List (Form3 × Nat × Bool) := [(.vqQ16, 16, false), (.vqQ32, 32, false), (.vqQe16, 16, true), (.vqQe32, 32, true)]
/-- The packing forms of vq: codes in a word, and bits of a code. -/
noncomputable def packRows : List (Form2 × Nat × Nat) := [(.vqPk4, 8, 4), (.vqPk8, 4, 8)]

/-- The q-word of a lane after a block form with blocks of n lanes (R259): the block's header and the lane's code. -/
def Ctx.qword (c : Ctx) (a b : BitVec 5) (n : Nat) (e4 : Bool) (l : Nat) : Word :=
  let q := c.block a.toNat n e4 ((c.u b (lowest (c.act &&& LaneSet.ofPred c.g.w (fun k => k / n == l / n)) c.g.w)).toNat % 2) (l / n)
  BitVec.ofNat 32 (q.header * 65536 + q.codes.getD (l % n) 0)

/-- The code a packing form takes from lane m (R260). -/
def Ctx.codeOf (c : Ctx) (a : BitVec 5) (z m : Nat) : Nat :=
  (match (if m < c.g.w then c.lentV a.toNat m else none), c.oneBase a.toNat (List.range c.g.w) with
   | some v, _ => v.toNat
   | none, some b => b.toNat
   | none, none => 0) % 2 ^ z

/-! ## Rounding (R87, R89) -/

/-- a ≤ b. -/
def Dy.le (a b : Dy) : Bool := decide (0 ≤ (b.add ⟨-a.n, a.e⟩).n)
/-- |a|. -/
def Dy.mag (a : Dy) : Dy := ⟨a.n.natAbs, a.e⟩
/-- |a − b|. -/
def Dy.dist (a b : Dy) : Dy := (a.add ⟨-b.n, b.e⟩).mag
/-- The number a code stands for. -/
def Fmt.num (f : Fmt) (c : Nat) : Dy := (f.dec c).dy
/-- A code of a finite number. -/
def Fmt.Finite (f : Fmt) (c : Nat) : Prop := c < 2 ^ (f.magBits + 1) ∧ ∃ n m e, f.dec c = .fin n m e
/-- Code c is what number x rounds to in a format under a mode, x within its finite range: of the finite codes, the nearest, at a tie the one
whose last bit is 0; or the nearest towards zero, towards +∞, or towards −∞. -/
def Fmt.RoundsTo (f : Fmt) (rm : RMode) (x : Dy) (c : Nat) : Prop :=
  f.Finite c ∧ ∀ k, f.Finite k →
    match rm with
    | .rne => Dy.le (x.dist (f.num c)) (x.dist (f.num k)) = true ∧
        (Dy.le (x.dist (f.num k)) (x.dist (f.num c)) = true → (Dy.dist (f.num k) (f.num c)).n = 0 ∨ c % 2 = 0)
    | .rz => Dy.le (f.num c).mag x.mag = true ∧ (Dy.le (f.num k).mag x.mag = true → Dy.le (f.num k).mag (f.num c).mag = true)
    | .ru => Dy.le x (f.num c) = true ∧ (Dy.le x (f.num k) = true → Dy.le (f.num c) (f.num k) = true)
    | .rd => Dy.le (f.num c) x = true ∧ (Dy.le (f.num k) x = true → Dy.le (f.num k) (f.num c) = true)

/-- −a. -/
def Dy.neg (a : Dy) : Dy := ⟨-a.n, a.e⟩
/-- The exact result of an arithmetic form on codes of finite numbers (R252). -/
def Fmt.exact (f : Fmt) (o : FOp) (a b d : Nat) : Dy :=
  match o with
  | .add => (f.num a).add (f.num b)
  | .sub => (f.num a).add (f.num b).neg
  | .mul => (f.num a).mul (f.num b)
  | .fma => (f.num d).add ((f.num a).mul (f.num b))
  | .fms => (f.num d).add ((f.num a).mul (f.num b)).neg
  | _ => ⟨0, 0⟩
/-- The sign of an exact zero result (R87, R252): a product's own, that of two zeros of one sign, else negative under RD alone. -/
def Fmt.zeroNeg (f : Fmt) (rm : RMode) (o : FOp) (a b d : Nat) : Bool :=
  let z (c : Nat) : Bool := (f.dec c).isZero
  let n (c : Nat) : Bool := (f.dec c).neg?
  let sum (zs : Bool) (p q : Bool) : Bool := if zs && p == q then p else rm == .rd
  match o with
  | .add => sum (z a && z b) (n a) (n b)
  | .sub => sum (z a && z b) (n a) (!n b)
  | .fma => sum (z d && (z a || z b)) (n d) (n a != n b)
  | .fms => sum (z d && (z a || z b)) (n d) (n a == n b)
  | _ => n a != n b
/-- Where a code that is no NaN stands in the order of R88: an infinity lies beyond every finite number. -/
def Fmt.line (f : Fmt) (c : Nat) : Dy :=
  match f.dec c with
  | .inf n => ⟨if n then -1 else 1, f.B + 1⟩
  | v => v.dy
/-- The bit of the class mask that an f32 word sets, from its fields (R257). -/
def classBit (a : Word) : Nat :=
  let neg := a.getLsbD 31
  let e := (a.extractLsb' 23 8).toNat
  let m := (a.extractLsb' 0 23).toNat
  if e = 255 then (if m = 0 then (if neg then 0 else 7) else if m < 2 ^ 22 then 8 else 9)
  else if e = 0 then (if m = 0 then (if neg then 3 else 4) else if neg then 2 else 5)
  else if neg then 1 else 6
/-- The formats of vf32 and vf16. -/
def Fmt.vector : List Fmt := [.f32, .f16, .bf16]

/-! ## Blocks and sums (R85, R90, R259) -/

/-- Of some codes, c is one whose value is nearest to q; at a tie its last bit is 0, or the values are equal. -/
def Q.Nearest (q : Q) (codes : List Nat) (val : Nat → Q) (c : Nat) : Prop :=
  c ∈ codes ∧ ∀ k ∈ codes, (q.dist (val k)).lt (q.dist (val c)) = false ∧
    ((q.dist (val c)).lt (q.dist (val k)) = false → c % 2 = 0 ∨ (val k).same (val c) = true)
/-- The codes of e2m1 but the special, and what each stands for (R83). -/
def e2m1Codes : List Nat := (List.range 16).filter (· ≠ 8)
/-- The value of an e2m1 code. -/
def e2m1Q (c : Nat) : Q := ⟨(if c < 8 then 1 else -1) * ([0, 1, 2, 3, 4, 6, 8, 12].getD (c % 8) 0 : Nat), 2⟩
/-- The value of an e4m3 code. -/
def e4m3Q (c : Nat) : Q := Q.ofDy (Fmt.e4m3.num c)
/-- The finite codes of e4m3. -/
def e4m3Codes : List Nat := (List.range 256).filter (fun c => c % 128 ≠ 127)
/-- What an f32 word of a block is. -/
def blockVal (w : Word) : FVal := Fmt.f32.dec w.toNat
/-- A block's element over its scale, 0 for no scale. -/
def quotient (scale : Q) (w : Word) : Q := if scale.n = 0 then ⟨0, 1⟩ else (Q.ofDy (blockVal w).dy).div scale
/-- The exact sum of finite values. -/
def sumOf (ps : List FVal) : Dy := ps.foldl (fun s p => s.add p.dy) ⟨0, 0⟩
/-- A finite value. -/
def FVal.Fin (v : FVal) : Prop := ∃ n m e, v = .fin n m e

/-- The floating-point formats that results are rounded to. -/
def Fmt.all : List Fmt := [.f32, .f16, .bf16, .e4m3, .e5m2]

/-! ## Control words (R198, R201, R217 to R232) -/

/-- The first word of the packet that holds an address (R198): a multiple of 12 bytes. -/
def packetOf (a : DWord) : DWord := BitVec.ofNat 64 (a.toNat / 12 * 12)

/-- After a word only the pcs of lanes of its group differ: lane l is at the address `at_ l` gives, or where the word left it. -/
def Ctx.Moved (c : Ctx) (at_ : Nat → Option DWord) (t : State) : Prop :=
  OnlyGroup c.s0 t c.core c.slot ∧ ∃ g', t.group? c.core c.slot = some g' ∧ g' = { c.g with lanes := g'.lanes } ∧
    ∀ l ∈ List.range c.g.w, g'.lane l = match at_ l with | some a => { c.g.lane l with pc := a } | none => c.g.lane l

/-- An address that a lane may go to (R421): a multiple of 4 with bits [63:56] zero. -/
def GoodTarget (a : DWord) : Prop := a.toNat % 4 = 0 ∧ a.toNat < 2 ^ 56

/-- The lanes of the word keep everything; the others too. -/
def Ctx.Stays (c : Ctx) (t : State) : Prop := c.Moved (fun _ => none) t

/-- After a call the active lanes of each frame stand in a new frame of their own, at their target, with the caller's first registers as
arguments and every other register 0; no other live lane notices (R74). A caller all of whose lanes call loses its arguments. -/
structure Ctx.Called (c : Ctx) (nv ns na : Nat) (target : Nat → DWord) (t : State) (g' : Group) : Prop where
  only : OnlyGroup c.s0 t c.core c.slot
  group : t.group? c.core c.slot = some g'
  rest : g' = { c.g with lanes := g'.lanes, frames := g'.frames, sets := g'.sets }
  lanes : ∀ l ∈ c.act.list c.g.w, g'.lane l = { c.g.lane l with pc := target l, fd := (c.g.lane l).fd + 1, frame := (g'.lane l).frame }
  frames : ∀ l ∈ c.act.list c.g.w, ∃ f, g'.frame? (g'.lane l).frame = some f ∧ f.owners = c.mates l ∧ f.depth = (c.g.frm l).depth + 1 ∧
    f.rpc = c.pc + 4 ∧ f.caller = some (c.g.lane l).frame ∧ f.na = na ∧ f.nv = nv ∧ f.ns = ns ∧ f.handler = none ∧ ∀ r < ns, f.U r = 0
  args : ∀ l ∈ c.act.list c.g.w, ∀ r < nv, g'.laneV r l = if r < na then c.g.laneV r l else 0
  dropped : ∀ l ∈ c.act.list c.g.w, LaneSet.subset (c.g.frm l).owners (c.mates l) = true →
    ∃ f, g'.frame? (c.g.lane l).frame = some f ∧ ∀ r < na, f.tag r = .u 0
  callers : ∀ l ∈ c.act.list c.g.w, ∃ f, g'.frame? (c.g.lane l).frame = some f ∧ f = { c.g.frm l with v := f.v } ∧
    ∀ r, na ≤ r → (g'.readV f r).lane l = c.g.laneV r l
  below : c.KeepsBelow (fun _ _ => False) g'
  others : ∀ l ∈ List.range c.g.w, c.act.has l = false → g'.lane l = c.g.lane l ∧ ((c.g.lane l).run.live = true → ∀ r, g'.laneV r l = c.g.laneV r l ∧ (g'.frm l).U r = (c.g.frm l).U r)

/-- The k topmost frames of a lane, and the frame below them, exist; the lower frame declares the value and argument registers. -/
def Ctx.Returns (c : Ctx) (k nb : Nat) (l : Nat) : Prop :=
  0 < k ∧ k ≤ (c.g.lane l).fd ∧ ∃ low below, (c.g.popped l k).1.getLast? = some low ∧ (c.g.popped l k).2 = some below ∧ max nb low.na ≤ below.nv

/-- After a return of k frames with NB values the active lanes stand in the frame below, at the lowest popped frame's return PC (R76, R77). -/
def Ctx.Returned (c : Ctx) (k : Nat → Nat) (t : State) (g' : Group) : Prop :=
  t.group? c.core c.slot = some g' ∧
  (∀ l ∈ c.act.list c.g.w, ∃ low below, (c.g.popped l (k l)).1.getLast? = some low ∧ (c.g.popped l (k l)).2 = some below ∧
    g'.lane l = { c.g.lane l with pc := low.rpc, fd := (c.g.lane l).fd - k l, frame := below.id }) ∧
  ∀ l ∈ List.range c.g.w, c.act.has l = false → g'.lane l = c.g.lane l

/-- The values of a return: registers below NB are the callee's, those up to the lowest popped frame's NA are 0, the others the lower
frame's own. -/
def Ctx.ReturnedValues (c : Ctx) (k : Nat → Nat) (nb : Nat) (g' : Group) : Prop :=
  ∀ l ∈ c.act.list c.g.w, ∀ low below, (c.g.popped l (k l)).1.getLast? = some low → (c.g.popped l (k l)).2 = some below →
    ∀ r < below.nv, g'.laneV r l = if r < nb then c.g.laneV r l else if r < low.na then 0 else (c.g.readV below r).lane l

/-- Between two states one group differs, the requests of cores, the count that numbers release markers, and the sector figures of teams
(R30): what a word that issues an access may change. -/
structure OnlyIssue (s t : State) (core slot : Nat) : Prop where
  rest : t = { s with groups := t.groups, cores := t.cores, stamp := t.stamp, teams := t.teams }
  cores : ∀ k, t.core k = { s.core k with requests := (t.core k).requests }
  others : ∀ j k, ¬(j = core ∧ k = slot) → t.group? j k = s.group? j k
  stamp : s.stamp ≤ t.stamp
  teams : t.teams.map (fun x => { x with qAll := 0, qHit := 0, sectors := [] }) = s.teams.map (fun x => { x with qAll := 0, qHit := 0, sectors := [] })

/-- The active lanes of a barrier word whose phase is ahead of the released phase once it has risen (R54). -/
def Ctx.ahead (c : Ctx) (bar l : Nat) : Bool :=
  c.act.has l && decide (0 < ((c.g.lane l).phases.getD bar 0 + 1 - c.s.barTP c.g.grid c.g.team bar).toInt)

/-- After a barrier word: every active lane's phase has risen by one, lanes ahead of the released phase are held with a release under way
and an arrival that names them, the others go on behind an acquire (R54, R57, R130). -/
structure Ctx.Arrived (c : Ctx) (bar : Nat) (waits : Bool) (count : Nat) (t : State) (g' : Group) : Prop where
  only : OnlyIssue c.s0 t c.core c.slot
  group : t.group? c.core c.slot = some g'
  rest : g' = { c.g with lanes := g'.lanes, ops := g'.ops, arrivals := g'.arrivals, holds := g'.holds, nextId := g'.nextId }
  lanes : ∀ l ∈ List.range c.g.w, g'.lane l = if c.act.has l then { c.g.lane l with
    phases := (c.g.lane l).phases.set bar ((c.g.lane l).phases.getD bar 0 + 1), run := if c.ahead bar l then .held else (c.g.lane l).run } else c.g.lane l
  release : (∃ l ∈ List.range c.g.w, c.ahead bar l = true) → ∃ a o, g'.arrivals = c.g.arrivals ++ [a] ∧ g'.ops = c.g.ops ++ [o] ∧ a.bar = bar ∧
    a.waits = waits ∧ a.count = count ∧ (∀ l ∈ List.range c.g.w, a.lanes.has l = c.ahead bar l) ∧ o.kind = .marker ∧ o.rel = some a.mark ∧ o.lanes = a.lanes ∧
    o.scope = c.s.barScope c.g.grid c.g.team bar
  passed : (∀ l ∈ List.range c.g.w, c.ahead bar l = false) → g'.arrivals = c.g.arrivals ∧ g'.ops = c.g.ops
  acquire : (∃ l ∈ c.act.list c.g.w, c.ahead bar l = false) →
    ∃ h, g'.holds = c.g.holds ++ [h] ∧ ∀ l ∈ List.range c.g.w, h.lanes.has l = (c.act.has l && !c.ahead bar l)

/-- A group counts toward the phase after TP of a barrier: it has exited, or has arrived for that phase or a later one (R54, R56, R350). -/
def Group.counts (g : Group) (bar : Nat) (tp : Half) : Bool := g.exited || decide (0 < (g.gp.getD bar 0 - tp).toInt)
/-- The phase after TP of a barrier is complete (R53, R55, R56, R350): of the groups that it is of, some has arrived, and enough count. The grid barrier
asks for every group placed and to come, here and on every device that takes part; the team barrier and, on two cores with the scratch-to-scratch
copies issued before each arrival complete, the twin barrier for all of the team; a named barrier for its count. -/
def State.PhaseDone (s : State) (grid : Word) (team bar : Nat) : Prop :=
  let tp := s.barTP grid team bar
  let gs := s.groups.filter (fun g => g.grid == grid && (bar == 18 || g.team == team))
  let n := gs.countP (fun g => g.counts bar tp)
  (∃ g ∈ gs, 0 < (g.gp.getD bar 0 - tp).toInt) ∧
    if bar = 18 then n = gs.length ∧ ∃ gr, s.grid? grid = some gr ∧ gr.placedAll = true ∧
      (gr.record.reach = 2 → ∀ d ∈ gr.record.devices s.members, d ≠ s.dev → (d, tp + 1) ∈ gr.arrivedDevs)
    else ∃ x, s.team? grid team = some x ∧
      if bar = 0 then x.gcnt ≤ n
      else if bar = 1 then x.gcnt ≤ n ∧ ((∃ g ∈ gs, ∃ k ∈ gs, g.core ≠ k.core) →
        ∀ g ∈ gs, ∀ y ∈ s.copiesOf g.core g.slot, g.exited = false ∧ y ∉ g.twinCopies)
      else max 1 (x.ncnt.getD (bar - 2) 1) ≤ n

/-- A thread in a lane: what R62 moves with it, its floors by unit and write, its first n vector registers last. -/
def threadOf (g : Group) (n l : Nat) : Nat × Word × Word × Word × List Half × Half × List (Nat × Nat) × List (Nat × Nat) × List Word :=
  let x := g.lane l
  (x.k, x.ix, x.iy, x.iz, x.phases, x.preds, x.floors.map (fun f => (f.unit, f.seq)), x.seen, (List.range n).map (fun r => g.laneV r l))
/-- The groups of a team that have not exited, in ascending order of their number in the team. -/
def State.groupsInTeam (s : State) (grid : Word) (team : Nat) : List Group :=
  let gs := s.groups.filter (fun g => g.grid == grid && g.team == team && !g.exited)
  (List.range 256).filterMap (fun i => gs.find? (fun g => g.gix == i))
/-- The live threads of groups in order, each with its key in register d. -/
def keyed (gs : List Group) (d n : Nat) : List (Nat × (Nat × Word × Word × Word × List Half × Half × List (Nat × Nat) × List (Nat × Nat) × List Word)) :=
  gs.flatMap (fun g => (g.live.list g.w).map (fun l => ((g.laneV d l).toNat % 65536, threadOf g n l)))

/-- After a word, vector register d is of shape G in the frame of every active lane. -/
def Ctx.InG (c : Ctx) (d : Nat) (t : State) : Prop :=
  ∀ l ∈ c.act.list c.g.w, ∃ g' n, t.group? c.core c.slot = some g' ∧ (g'.frm l).tag d = .g n

/-! ## Memory words (R265 to R289) -/

/-- The number that registers hold together, the first lowest (R268). -/
def blockNat (f : Nat → Word) (n : Nat) : Nat := (List.range n).foldr (fun i x => (f i).toNat * 2 ^ (32 * i) + x) 0

/-- One lane's, or frame's, share of an access as it issues: its lanes, its address, its bytes, its store data, its compare data, and its offset in a tile. -/
structure Share where
  lanes : LaneSet
  va : DWord
  size : Nat
  data : List Byte
  cmp : List Byte
  off : Nat
  deriving DecidableEq

/-- A share for each active lane, in ascending order. -/
def Ctx.perLane (c : Ctx) (va : Nat → DWord) (n : Nat) (data cmp : Nat → List Byte) : List Share :=
  (c.act.list c.g.w).map (fun l => ⟨LaneSet.one l, va l, n, data l, cmp l, 0⟩)
/-- A share for each frame of the active lanes. -/
def Ctx.perFrame (c : Ctx) (va : Frame → LaneSet → DWord) (n : Nat) (data : Frame → List Byte) : List Share :=
  c.frames.map (fun x => ⟨x.2, va x.1 x.2, n, data x.1, [], 0⟩)

/-- How an access counts and where its result goes (R58, R269 to R275). -/
structure AccessForm where
  kind : OpKind
  scope : Nat
  acq : Bool
  rel : Bool
  dest : Dest
  ld : Bool
  st : Bool
  scratch : Bool
  tl : Bool

/-- After a memory word: its access, and nothing else, stands behind the group's earlier ones, with its shares; the counters it names have
risen; every register, predicate and lane reads as before, and memory and scratch are as they were. -/
structure Ctx.Issued (c : Ctx) (f : AccessForm) (shares : List Share) (t : State) (g' : Group) : Prop where
  only : OnlyIssue c.s0 t c.core c.slot
  group : t.group? c.core c.slot = some g'
  rest : g' = { c.g with
    lanes := g'.lanes, frames := g'.frames, sets := g'.sets, ops := g'.ops, ld := c.g.ld + f.ld.toNat, st := c.g.st + f.st.toNat
    tl := c.g.tl + f.tl.toNat, nextId := c.g.nextId + 1 }
  op : ∃ o, g'.ops = c.g.ops ++ [o] ∧ o.id = c.g.nextId ∧ o.pc = c.pc ∧ o.kind = f.kind ∧ o.scope = f.scope ∧ o.acq = f.acq ∧ o.rel.isSome = f.rel ∧
    o.dest = f.dest ∧ o.ldc = f.ld ∧ o.stc = f.st ∧ o.tlc = f.tl ∧
    o.parts.map (fun p => (⟨p.lanes, p.va, p.size, p.data, p.cmp, p.off⟩ : Share)) = shares ∧
    ∀ p ∈ o.parts, p.issue = c.g.nextId ∧ p.scratch = f.scratch ∧ (f.scratch = false → p.prog = .untranslated ∧ p.units = []) ∧
      (f.scratch = true → p.prog = .ready ∧ ∃ off, c.s.scratchOff c.g (p.va.setWidth 32) p.size = some off ∧
        (p.units.head?.map AccUnit.key) = some (scratchKey c.core off))
  regs : ∀ l ∈ List.range c.g.w, (c.g.lane l).run.live = true → ∀ r, g'.laneV r l = c.g.laneV r l
  uniform : ∀ l r, (g'.frm l).U r = (c.g.frm l).U r

/-- The lanes are as the word left them. -/
def Ctx.LanesStay (c : Ctx) (g' : Group) : Prop := g'.lanes = c.g.lanes

/-- The address of MEM and MEMI in a lane (R269): the base pair, plus the offset register as n32 or the signed count of accesses. -/
def Ctx.memAddr (c : Ctx) (a : BitVec 4) (off : Nat → Nat) (l : Nat) : DWord :=
  BitVec.ofNat 64 (((c.g.frm l).UP (2 * a.toNat)).toNat + off l)
/-- The signed offset of MEMI, as a number to add modulo 2^64. -/
def immOff (i : BitVec 5) (n : Nat) : Nat := (BitVec.ofInt 64 (i.toInt * n)).toNat
/-- The scope and ordering that SC gives a load or store (R268): 0 plain at dev; 1 dev, 2 pod, 3 sys, ordered. -/
def scopeOf (q : BitVec 2) : Nat := if q.toNat = 2 then 5 else if q.toNat = 3 then 6 else 4
/-- Every active lane's address is a multiple of the access size (R266). -/
def Ctx.Aligned (c : Ctx) (va : Nat → DWord) (n : Nat) : Prop := ∀ l ∈ c.act.list c.g.w, (va l).toNat % n = 0
/-- Every active lane's scratch address lies in its region and range and is aligned (R100, R266). -/
def Ctx.InScratch (c : Ctx) (sa : Nat → Word) (n : Nat) : Prop :=
  ∀ l ∈ c.act.list c.g.w, (c.s.scratchOff c.g (sa l) n).isSome = true ∧ (sa l).toNat % n = 0

/-- The forms of atm, by function code. -/
noncomputable def atmRows : List ((Bool → BitVec 5 → BitVec 5 → BitVec 3 → BitVec 4 → Instr) × Nat) :=
  [(.atmAdd, 0), (.atmMin, 1), (.atmMax, 2), (.atmAnd, 3), (.atmOr, 4), (.atmXor, 5), (.atmExch, 6), (.atmCas, 7)]
/-- The word as it would be for a set of its lanes alone. -/
def Ctx.under (c : Ctx) (m : LaneSet) : Ctx := { c with act := m }
/-- The fault of a lane whose address is no multiple of n, a power of two (R289, R343). -/
def alignOf (va : Nat → DWord) (n l : Nat) : Option (Nat × Nat × DWord × Word) :=
  if (va l).toNat % n = 0 then none else some (l, 0x0B, va l, BitVec.ofNat 32 n.log2)
/-- The fault of a lane at a scratch address: outside its region or range, then its alignment (R100, R374). -/
def Ctx.scratchOf (c : Ctx) (sa : Nat → Word) (n l : Nat) : Option (Nat × Nat × DWord × Word) :=
  if (c.s.scratchOff c.g (sa l) n).isNone then some (l, 0x06, (sa l).setWidth 64, BitVec.ofNat 32 (n.log2 + 16 * ((sa l).toNat / 2 ^ 30)))
  else alignOf (fun l => (sa l).setWidth 64) n l
/-- A memory word as it issues: its ordering class, the registers it writes, the access as the model has it, its counters and destination, what it
issues for a set of passing lanes, the fault of each lane at issue, and whether its lanes then wait. -/
structure MemForm where
  cls : OrdClass
  sets : Nat
  word : MemWord
  form : AccessForm
  shares : LaneSet → List Share
  fault : Nat → Option (Nat × Nat × DWord × Word)
  waits : Bool
/-- ld (R269). -/
def Ctx.loadForm (c : Ctx) (d : BitVec 5) (z q : BitVec 2) (va : Nat → DWord) (offU : Frame → Bool) : MemForm :=
  let u := c.frames.all (fun x => offU x.1)
  { cls := if q = 0 then .load else .acquire, sets := blk64 z, word := c.loadAccess d z q va offU
    form := ⟨.load, scopeOf q, q != 0, false, .vec d.toNat (blk64 z) u, true, false, false, false⟩
    shares := fun m => if u then (c.under m).perFrame (fun _ x => va (lowest x c.g.w)) (2 ^ z.toNat) (fun _ => [])
      else (c.under m).perLane va (2 ^ z.toNat) (fun _ => []) (fun _ => [])
    fault := alignOf va (2 ^ z.toNat), waits := false }
/-- st (R270). -/
def Ctx.storeForm (c : Ctx) (d : BitVec 5) (z q : BitVec 2) (va : Nat → DWord) : MemForm :=
  { cls := if q = 0 then .store else .release, sets := 0, word := c.storeAccess d z q va
    form := ⟨.store, scopeOf q, false, q != 0, .none, false, true, false, false⟩
    shares := fun m => (c.under m).perLane va (2 ^ z.toNat) (fun l => natLe (2 ^ z.toNat) (blockNat (fun k => c.g.laneV (d.toNat + k) l) (blk64 z))) (fun _ => [])
    fault := alignOf va (2 ^ z.toNat), waits := false }
/-- ldu (R271): a frame's lanes pass or fail together. -/
def Ctx.loadUniForm (c : Ctx) (d : BitVec 5) (z q : BitVec 2) (va : Frame → DWord) : MemForm :=
  { cls := if q = 0 then .load else .acquire, sets := 0, word := c.uniLoadAccess d z q va
    form := ⟨.load, scopeOf q, q != 0, false, .uni d.toNat (blk64 z), true, false, false, false⟩
    shares := fun m => (c.under m).perFrame (fun f _ => va f) (2 ^ z.toNat) (fun _ => [])
    fault := alignOf (fun l => va (c.g.frm l)) (2 ^ z.toNat), waits := false }
/-- stu (R271). -/
def Ctx.storeUniForm (c : Ctx) (d : BitVec 5) (z q : BitVec 2) (va : Frame → DWord) : MemForm :=
  { cls := if q = 0 then .store else .release, sets := 0, word := c.uniStoreAccess d z q va
    form := ⟨.store, scopeOf q, false, q != 0, .none, false, true, false, false⟩
    shares := fun m => (c.under m).perFrame (fun f _ => va f) (2 ^ z.toNat) (fun f => natLe (2 ^ z.toNat) (blockNat (fun k => f.U (d.toNat + k)) (blk64 z)))
    fault := alignOf (fun l => va (c.g.frm l)) (2 ^ z.toNat), waits := false }
/-- The scratch address of lds and sts in a lane (R278). -/
def Ctx.ldsAddr (c : Ctx) (a : BitVec 5) (f : BitVec 3) (i : BitVec 6) (l : Nat) : Word := c.v a l + BitVec.ofInt 32 (i.toInt * (2 ^ f.toNat : Nat))
/-- lds (R278). -/
def Ctx.ldsForm (c : Ctx) (d a : BitVec 5) (f : BitVec 3) (i : BitVec 6) : MemForm :=
  let u := c.frames.all (fun x => (c.g.readV x.1 a.toNat).isU)
  let sa := c.ldsAddr a f i
  { cls := .load, sets := ldsRegs f, word := c.scratchLoadAccess d a f i
    form := ⟨.load, 1, false, false, .vec d.toNat (ldsRegs f) u, true, false, true, false⟩
    shares := fun m => if u then (c.under m).perFrame (fun _ x => (sa (lowest x c.g.w)).setWidth 64) (2 ^ f.toNat) (fun _ => [])
      else (c.under m).perLane (fun l => (sa l).setWidth 64) (2 ^ f.toNat) (fun _ => []) (fun _ => [])
    fault := c.scratchOf sa (2 ^ f.toNat), waits := false }
/-- sts (R278). -/
def Ctx.stsForm (c : Ctx) (d a : BitVec 5) (f : BitVec 3) (i : BitVec 6) : MemForm :=
  let sa := c.ldsAddr a f i
  { cls := .store, sets := 0, word := c.scratchStoreAccess d a f i
    form := ⟨.store, 1, false, false, .none, false, true, true, false⟩
    shares := fun m => (c.under m).perLane (fun l => (sa l).setWidth 64) (2 ^ f.toNat)
      (fun l => natLe (2 ^ f.toNat) (blockNat (fun k => c.g.laneV (d.toNat + k) l) (ldsRegs f))) (fun _ => [])
    fault := c.scratchOf sa (2 ^ f.toNat), waits := false }
/-- The address of a lane of atm or wta: a scratch address in one register, or a pair of registers. -/
def Ctx.pairAddr (c : Ctx) (a : BitVec 5) (scr : Bool) (l : Nat) : DWord :=
  if scr then (c.g.laneV a.toNat l).setWidth 64 else c.g.laneV (a.toNat + 1) l ++ c.g.laneV a.toNat l
/-- atm (R272 to R275): in scratch, only of the team window and the cache region. -/
def Ctx.atmForm (c : Ctx) (d a : BitVec 5) (y : BitVec 3) (q : BitVec 4) (f : Nat) : MemForm :=
  let n := if y = 5 then 2 else 4 * atmRegs y
  let scr := q.toNat % 8 == 6
  let opnd (k l : Nat) : List Byte := natLe n (blockNat (fun i => c.g.laneV (k + i) l) (atmRegs y))
  { cls := .atomic, sets := atmRegs y, word := c.atomicAccess d a y q f
    form := ⟨.atomic f y.toNat, if scr then 1 else q.toNat % 8 + 1, decide (8 ≤ q.toNat), decide (8 ≤ q.toNat), .vec d.toNat (atmRegs y) false, true, true, scr, false⟩
    shares := fun m => (c.under m).perLane (c.pairAddr a scr) n (fun l => if f = 7 then opnd (d.toNat + atmRegs y) l else opnd d.toNat l)
      (fun l => if f = 7 then opnd d.toNat l else [])
    fault := fun l => if scr then (match c.scratchOf (c.g.laneV a.toNat) n l with
        | some x => some x
        | none => if (c.g.laneV a.toNat l).toNat / 2 ^ 30 % 2 = 1 then some (l, 0x0C, (c.g.laneV a.toNat l).setWidth 64, y.setWidth 32) else none)
      else alignOf (c.pairAddr a false) n l
    waits := false }
/-- wta (R286): in scratch, only of the team window. -/
def Ctx.wtaForm (c : Ctx) (d a b : BitVec 5) (r z : BitVec 1) (w : BitVec 2) : MemForm :=
  let n := if z = 1 then 8 else 4
  let scr := decide (w = 0)
  let sa := c.g.laneV a.toNat
  { cls := if r = 1 then .acquire else .load, sets := blk64w z, word := c.waitAccess d a b r z w
    form := ⟨.load, if w = 0 then 1 else w.toNat + 3, decide (r = 1), false, .wait d.toNat, false, false, scr, false⟩
    shares := fun m => (c.under m).perLane (c.pairAddr a scr) n (fun l => natLe 8 ((c.g.laneV (b.toNat + blk64w z) l).toNat))
      (fun l => natLe n (blockNat (fun k => c.g.laneV (b.toNat + k) l) (blk64w z)))
    fault := fun l => if scr then (if (sa l).toNat / 2 ^ 30 ≠ 0 then some (l, 0x06, (sa l).setWidth 64, BitVec.ofNat 32 (n.log2 + 16 * ((sa l).toNat / 2 ^ 30)))
        else c.scratchOf sa n l)
      else alignOf (c.pairAddr a false) n l
    waits := true }
/-- What each memory word issues, from the fields that name its address. -/
inductive Ctx.HasForm (c : Ctx) (h : Head) : Instr → MemForm → Prop where
  | ld (d : BitVec 5) (a : BitVec 4) (o : BitVec 5) (z q : BitVec 2) :
    HasForm c h (.ld h d a o z q) (c.loadForm d z q (c.memAddr a (fun l => (c.v o l).toNat)) (fun f => (c.g.readV f o.toNat).isU))
  | ldImm (d : BitVec 5) (a : BitVec 4) (i : BitVec 5) (z q : BitVec 2) :
    HasForm c h (.ldImm h d a i z q) (c.loadForm d z q (c.memAddr a (fun _ => immOff i (2 ^ z.toNat))) (fun _ => true))
  | st (d : BitVec 5) (a : BitVec 4) (o : BitVec 5) (z q : BitVec 2) : HasForm c h (.st h d a o z q) (c.storeForm d z q (c.memAddr a (fun l => (c.v o l).toNat)))
  | stImm (d : BitVec 5) (a : BitVec 4) (i : BitVec 5) (z q : BitVec 2) :
    HasForm c h (.stImm h d a i z q) (c.storeForm d z q (c.memAddr a (fun _ => immOff i (2 ^ z.toNat))))
  | ldu (d : BitVec 5) (a : BitVec 4) (o : BitVec 5) (z q : BitVec 2) :
    HasForm c h (.ldu h d a o z q) (c.loadUniForm d z q (fun f => BitVec.ofNat 64 ((f.UP (2 * a.toNat)).toNat + (f.U o.toNat).toNat)))
  | lduImm (d : BitVec 5) (a : BitVec 4) (i : BitVec 5) (z q : BitVec 2) :
    HasForm c h (.lduImm h d a i z q) (c.loadUniForm d z q (fun f => BitVec.ofNat 64 ((f.UP (2 * a.toNat)).toNat + immOff i (2 ^ z.toNat))))
  | stu (d : BitVec 5) (a : BitVec 4) (o : BitVec 5) (z q : BitVec 2) :
    HasForm c h (.stu h d a o z q) (c.storeUniForm d z q (fun f => BitVec.ofNat 64 ((f.UP (2 * a.toNat)).toNat + (f.U o.toNat).toNat)))
  | stuImm (d : BitVec 5) (a : BitVec 4) (i : BitVec 5) (z q : BitVec 2) :
    HasForm c h (.stuImm h d a i z q) (c.storeUniForm d z q (fun f => BitVec.ofNat 64 ((f.UP (2 * a.toNat)).toNat + immOff i (2 ^ z.toNat))))
  | lds (d a : BitVec 5) (f : BitVec 3) (i : BitVec 6) : f.toNat ≤ 4 → HasForm c h (.lds h d a f i) (c.ldsForm d a f i)
  | sts (d a : BitVec 5) (f : BitVec 3) (i : BitVec 6) : f.toNat ≤ 4 → HasForm c h (.sts h d a f i) (c.stsForm d a f i)
  | wta (d a b : BitVec 5) (r z : BitVec 1) (w : BitVec 2) : HasForm c h (.wta h d a b r z w) (c.wtaForm d a b r z w)
  | atm (r : (Bool → BitVec 5 → BitVec 5 → BitVec 3 → BitVec 4 → Instr) × Nat) (ch : Bool) (d a : BitVec 5) (y : BitVec 3) (q : BitVec 4) :
    r ∈ atmRows → h = ⟨ch, none⟩ → HasForm c h (r.1 ch d a y q) (c.atmForm d a y q r.2)
/-- The kinds of cp. -/
noncomputable def cpRows : List (Form3 × Nat) := [(.cpG2s, 0), (.cpS2g, 1), (.cpS2s, 2), (.cpGat, 3), (.cpT2h, 4)]

/-- The regions of a core put back: what else a word changed shows in the state that is left. -/
def State.withRegions (t : State) (core : Nat) (rs : List Region) : State := t.updCore core (fun k => { k with regions := rs })
/-- The holds and the issue count of a group put back. -/
def State.withHolds (t : State) (core slot : Nat) (g : Group) : State := t.updGroup core slot (fun x => { x with holds := g.holds, nextId := g.nextId })

/-! ## Matrix and tile words (R290 to R313) -/

/-- The direct forms of tcfg (R294, R295): the tile byte each writes first, and how many. -/
noncomputable def tcfgRows : List (Form2 × Nat × Nat) := [(.tcfgRows, 5, 1), (.tcfgCols, 6, 1), (.tcfgKext, 7, 1), (.tcfgFl, 4, 1), (.tcfgStg, 8, 2)]

/-- The 64 rows of a tile transfer (R297): their addresses and tile offsets. -/
def tileRowsOf (base pitch : DWord) (scr : Bool) (first rb : Nat) : List (DWord × Nat) :=
  (List.range 64).map (fun r =>
    let a := base + BitVec.ofNat 64 r * pitch
    (if scr then BitVec.ofNat 64 (a.toNat % 2 ^ 32) else a, first + rb * r))
/-- The shares of a tile transfer: one for each row, of every lane, with the tile's bytes when it stores. -/
def Ctx.rowShares (c : Ctx) (rb : Nat) (src : Option (List Byte)) (rows : List (DWord × Nat)) : List Share :=
  rows.map (fun r => ⟨c.act, r.1, rb, match src with | some t => (t.drop r.2).take rb | none => [], [], r.2⟩)

/-- A configuration that mma accepts (R293): types, block length and scale format, flags, extents, reserved bytes, table. -/
structure ValidConfig (cfg : List Byte) (tileIsSource : Bool) : Prop where
  apart : tileIsSource = false
  ta : (cfg.getD 0 0).toNat ≤ 6
  pair : cfg.getD 0 0 = cfg.getD 1 0 ∨ (cfg.getD 0 0).toNat ∈ [1, 2] ∧ (cfg.getD 1 0).toNat ∈ [1, 2]
  blk : (cfg.getD 0 0).toNat = 0 ∧ (cfg.getD 2 0).toNat ∈ [1, 2] ∨ (cfg.getD 0 0).toNat ∈ [1, 2] ∧ (cfg.getD 2 0).toNat ≤ 2 ∨ (cfg.getD 2 0).toNat = 0 ∧ 2 < (cfg.getD 0 0).toNat
  sfmt : (cfg.getD 3 0).toNat ≤ 1
  fl : (cfg.getD 4 0).toNat < 8
  ma : 1 ≤ (cfg.getD 5 0).toNat ∧ (cfg.getD 5 0).toNat ≤ 64
  nb : 1 ≤ (cfg.getD 6 0).toNat ∧ (cfg.getD 6 0).toNat ≤ 64
  kx : 1 ≤ (cfg.getD 7 0).toNat ∧ (cfg.getD 7 0).toNat ≤ (if (cfg.getD 0 0).toNat < 5 then 64 else 32)
  whole : (cfg.getD 2 0).toNat = 1 ∧ (cfg.getD 7 0).toNat % 16 = 0 ∨ (cfg.getD 2 0).toNat = 2 ∧ (cfg.getD 7 0).toNat % 32 = 0 ∨ (cfg.getD 2 0).toNat = 0
  reserved : ∀ o, 0x0A ≤ o → o < 0x40 → cfg.getD o 0 = 0
  table : (cfg.getD 4 0).toNat % 4 ≠ 0 → (∀ i < 64, (cfg.getD (0x40 + i) 0).toNat < 64) ∧
    (∀ i < (cfg.getD 7 0).toNat, (cfg.getD (0x40 + i) 0).toNat < (cfg.getD 7 0).toNat) ∧
    ∀ i < (cfg.getD 7 0).toNat, ∀ j < (cfg.getD 7 0).toNat, cfg.getD (0x40 + i) 0 = cfg.getD (0x40 + j) 0 → i = j

/-- A word of the matrix array as it may execute (R301 to R311): the operation, and the sources that it takes along: configuration tile,
operand tiles, source accumulator, code. -/
inductive Ctx.ArrayForm (c : Ctx) (h : Head) : Instr → MatKind → List Byte → List Byte → List Byte → List Word → Word → Prop where
  | mma (z : Bool) (d a b : BitVec 5) (k : BitVec 3) : ValidConfig (c.g.tile k.toNat) (decide (k.toNat = a.toNat) || decide (k.toNat = b.toNat)) →
      (c.g.tile k.toNat).getD 4 0 &&& 4 = 0 →
      ArrayForm c h (if z then .mmaSet h d a b k else .mmaAcc h d a b k) (.mma z d.toNat) (c.g.tile k.toNat) (c.g.tile a.toNat) (c.g.tile b.toNat) [] 0
  | had (d a b : BitVec 5) : (c.low.U b.toNat).toNat % 4 ≠ 3 → ArrayForm c h (.mxHad h d a b) (.had d.toNat) [] [] [] (c.g.acc a.toNat) (c.low.U b.toNat)
  | perm (d a b : BitVec 5) : permFail (c.g.tile b.toNat) = none → ArrayForm c h (.mxPerm h d a b) (.perm d.toNat) (c.g.tile b.toNat) [] [] (c.g.acc a.toNat) 0
  | wid (d a b : BitVec 5) : (c.low.U b.toNat).toNat % 4 = 2 ∨ (c.low.U b.toNat).toNat % 4 ≠ 3 ∧ (c.low.U b.toNat).toNat / 4 % 4 < 2 →
      ArrayForm c h (.accWid h d a b) (.wid d.toNat) [] (c.g.tile a.toNat) [] [] (c.low.U b.toNat)
  | nar (d a b : BitVec 5) : (c.low.U b.toNat).toNat % 4 = 2 ∨ (c.low.U b.toNat).toNat % 4 ≠ 3 ∧ (c.low.U b.toNat).toNat / 4 % 4 < 2 →
      ArrayForm c h (.accNar h d a b) (.nar d.toNat) [] [] [] (c.g.acc a.toNat) (c.low.U b.toNat)
  | quant (q2 : Bool) (d a b : BitVec 5) : d ≠ b → ((c.g.tile b.toNat).getD 2 0).toNat ∈ [1, 2] → ((c.g.tile b.toNat).getD 3 0).toNat ≤ 1 →
      ArrayForm c h (if q2 then .accQ2 h d a b else .accQe h d a b) (if q2 then .q2 d.toNat b.toNat else .qe d.toNat b.toNat) (c.g.tile b.toNat) [] [] (c.g.acc a.toNat) 0

/-- After an array form: its operation stands last in the queue of the core's array, with its sources as they were, the tl counter has risen,
and nothing else has changed, but the counts of an uncorrectable source (R379). -/
def Ctx.QueuedMat (c : Ctx) (kind : MatKind) (cfg a b : List Byte) (acc : List Word) (code : Word) (v : State) : Prop :=
  ∃ t m g', v = { t with fns := v.fns, merrlast := v.merrlast } ∧ (c.g.bad = [] → v = t) ∧ (t.core c.core).array = (c.s.core c.core).array ++ [m] ∧ m.slot = c.slot ∧ m.pc = c.pc ∧ m.kind = kind ∧ m.cfg = cfg ∧ m.a = a ∧ m.b = b ∧
    m.acc = acc ∧ m.code = code ∧ (c.g.bad = [] → m.bad = false) ∧ OnlyGroup c.s0 (t.updCore c.core (fun k => { k with array := (c.s.core c.core).array })) c.core c.slot ∧
    t.group? c.core c.slot = some g' ∧ g' = { c.g with tl := c.g.tl + 1, nextId := c.g.nextId + 1 }

/-- An element that acc.wid or acc.nar names (R310): e of row r in a section of m elements a row, in the accumulator. -/
def sectionWord (code : Word) (r e : Nat) : Nat := 64 * r + (if code.toNat % 4 = 2 then 16 else 32) * (code.toNat / 4 % 4) + e

/-- What an array operation leaves in its destination (R302, R306, R307, R310, R311), from the sources it took along and, for mma, the
accumulator as it is. -/
def MatOp.Leaves (m : MatOp) (g g' : Group) : Prop :=
  match m.kind with
  | .mma z d => ∀ i < 64, ∀ j < 64, (g'.acc d).getD (64 * i + j) 0 =
      if i < (m.cfg.getD 5 0).toNat ∧ j < (m.cfg.getD 6 0).toNat then
        let ints := decide ((m.cfg.getD 0 0).toNat = 3 ∨ (m.cfg.getD 0 0).toNat = 4)
        let blk := blkLen (m.cfg.getD 2 0).toNat
        let fl := (m.cfg.getD 4 0).toNat
        let kx := (m.cfg.getD 7 0).toNat
        let av := rowVals m.cfg (m.cfg.getD 0 0).toNat blk (m.cfg.getD 3 0).toNat 0x200 (fl % 2 = 1) kx i m.a
        let bv := rowVals m.cfg (m.cfg.getD 1 0).toNat blk (m.cfg.getD 3 0).toNat 0x400 (fl / 2 % 2 = 1) kx j m.b
        let ai := rowInts m.cfg (m.cfg.getD 0 0).toNat (fl % 2 = 1) kx i m.a
        let bi := rowInts m.cfg (m.cfg.getD 1 0).toNat (fl / 2 % 2 = 1) kx j m.b
        (mmaElem ints (if blk = 0 then 32 else blk) (if z then 0 else (g.acc d).getD (64 * i + j) 0) av bv ai bi).1
      else (g.acc d).getD (64 * i + j) 0
  | .had d => let n := 16 * 2 ^ (m.code.toNat % 4)
      ∀ q e, e < n → n * q < 4096 → (g'.acc d).getD (n * q + e) 0 = ((hadamard (m.code.toNat / 16 % 16) ((m.acc.drop (n * q)).take n)).getD e (0, false)).1
  | .perm d => ∀ i < 64, ∀ k < 64, (g'.acc d).getD (64 * i + k) 0 =
      m.acc.getD (64 * i + (if k < (m.cfg.getD 7 0).toNat then (m.cfg.getD (0x40 + k) 0).toNat % 64 else k)) 0
  | .wid d => (∀ r < 64, ∀ e < (if m.code.toNat % 4 = 2 then 16 else 32), (g'.acc d).getD (sectionWord m.code r e) 0 =
        if m.code.toNat % 4 = 2 then leWord ((m.a.drop (64 * r + 4 * e)).take 4)
        else (widen (if m.code.toNat % 4 = 0 then .f16 else .bf16) .rne (tileHalf m.a (64 * r + 2 * e))).1) ∧
      ∀ n < 4096, (∀ r < 64, ∀ e < (if m.code.toNat % 4 = 2 then 16 else 32), n ≠ sectionWord m.code r e) → (g'.acc d).getD n 0 = (g.acc d).getD n 0
  | .nar d => ∀ r < 64, ∀ e < (if m.code.toNat % 4 = 2 then 16 else 32),
      ((g'.tile d).drop (64 * r + (if m.code.toNat % 4 = 2 then 4 else 2) * e)).take (if m.code.toNat % 4 = 2 then 4 else 2) =
        if m.code.toNat % 4 = 2 then wordLe (m.acc.getD (sectionWord m.code r e) 0)
        else natLe 2 (cvtFloat .f32 (if m.code.toNat % 4 = 0 then .f16 else .bf16) .rne true (m.acc.getD (sectionWord m.code r e) 0).toNat).1
  | .q2 d b => ∀ r < 64, ∀ q, let l := blkLen (m.cfg.getD 2 0).toNat
      let k := quantQB ((m.acc.drop (64 * r + l * q)).take l) (m.cfg.getD 3 0).toNat
      l * q < 64 → tileHalf (g'.tile b) (0x200 + 8 * r + 2 * q) = k.header % 2 ^ 16 ∧
        ∀ e < l, rowElem 0 (((g'.tile d).drop (64 * r)).take 64) (l * q + e) = k.codes.getD e 0
  | .qe d b => ∀ r < 64, ∀ q, let l := blkLen (m.cfg.getD 2 0).toNat
      let k := quantQE ((m.acc.drop (64 * r + l * q)).take l) (m.cfg.getD 3 0).toNat
      l * q < 64 → tileHalf (g'.tile b) (0x200 + 8 * r + 2 * q) = k.header % 2 ^ 16 ∧ ∀ e < l, ((g'.tile d).getD (64 * r + l * q + e) 0).toNat = k.codes.getD e 0

/-- The accumulators and tiles that an array operation writes (R298). -/
def MatKind.dests : MatKind → List Nat × List Nat
  | .mma _ d | .had d | .perm d | .wid d => ([d], [])
  | .nar d => ([], [d])
  | .q2 d b | .qe d b => ([], [d, b])
/-- An operation whose sources have the sizes of tiles and accumulators, and a configuration and code that its word let through. -/
def MatOp.Sound (m : MatOp) : Prop :=
  match m.kind with
  | .mma .. => ValidConfig m.cfg false
  | .had _ => m.acc.length = 4096 ∧ m.code.toNat % 4 ≠ 3
  | .perm _ => m.acc.length = 4096 ∧ permFail m.cfg = none
  | .wid _ => m.code.toNat % 4 = 2 ∨ m.code.toNat % 4 ≠ 3 ∧ m.code.toNat / 4 % 4 < 2
  | .nar _ => m.acc.length = 4096 ∧ (m.code.toNat % 4 = 2 ∨ m.code.toNat % 4 ≠ 3 ∧ m.code.toNat / 4 % 4 < 2)
  | .q2 d b | .qe d b => m.acc.length = 4096 ∧ d ≠ b ∧ (m.cfg.getD 2 0).toNat ∈ [1, 2] ∧ (m.cfg.getD 3 0).toNat ≤ 1

/-! ## Launch requests, system words and handlers (R314 to R347) -/

/-- The state with the translation caches and the memory error registers of another put back: what a read leaves besides its value. -/
def State.withReads (t s : State) : State := { t with tlb := s.tlb, fns := s.fns, merrlast := s.merrlast }

/-- A group after lanes m have read page tables for an address, as `g1` has it: nothing differs but what they have bound, and who has read the entries of
its store FIFO (R123, R127). -/
structure Group.WalkedBy (g : Group) (m : LaneSet) (g1 : Group) : Prop where
  rest : g1 = { g with lanes := g1.lanes, sf := g1.sf }
  lanes : ∀ l ∈ List.range g.w, g1.lane l = if m.has l then { g.lane l with floors := (g1.lane l).floors, seen := (g1.lane l).seen } else g.lane l
  sf : g1.sf.map (fun i => { i with readers := [] }) = g.sf.map (fun i => { i with readers := [] })

/-- What the active lanes of a word find on top of their stacks when they return from a handler: a handler frame that was entered for no
access of theirs, with a frame below it, and in v7:v6 an address to resume at (R344). -/
def Ctx.InHandlers (c : Ctx) : Prop :=
  ∀ l ∈ c.act.list c.g.w, ∃ hd below, (c.g.frm l).handler = some hd ∧ hd.ops.find? (fun x => x.1 == l) = none ∧ (c.g.frm l).na = 0 ∧
    (c.g.stack l)[1]? = some below ∧ (c.g.laneV 0 l).getLsbD 10 = false ∧ GoodTarget (c.g.laneV 7 l ++ c.g.laneV 6 l)

/-- A fault that lanes of one frame take together, as its code reads: what each lane reports (R343). -/
structure Report where
  tcode : Word
  fpc : DWord
  faddr : DWord
  detail : Word
  resume : DWord

/-- The lanes m, all in one frame, have entered the handler e: a frame of their own above the one they stood in, with the resume PC as return
PC and no arguments, its first registers the record of each lane; every other lane of the group keeps what it had (R342, R343). -/
structure Group.EntersHandler (g : Group) (e : TrapEntry) (m : LaneSet) (r : Nat → Report) (g' : Group) : Prop where
  lanes : ∀ l ∈ m.list g.w, g'.lane l = { g.lane l with run := .running, pc := e.handler, fd := (g.lane l).fd + 1, frame := (g'.lane l).frame }
  frame : ∀ l ∈ m.list g.w, ∃ f, g'.frame? (g'.lane l).frame = some f ∧ f.owners = m ∧ f.depth = (g.frm l).depth + 1 ∧ f.caller = some (g.lane l).frame ∧
    f.na = 0 ∧ f.nv = e.nv ∧ f.ns = e.ns ∧ f.handler.isSome = true ∧ (∀ k ∈ m.list g.w, (g'.lane k).frame = (g'.lane l).frame) ∧ (∀ i < e.ns, f.U i = 0) ∧
    ∀ i, 8 ≤ i → i < e.nv → g'.laneV i l = 0
  record : ∀ l ∈ m.list g.w, g'.laneV 0 l = (r l).tcode ∧ g'.laneV 2 l ++ g'.laneV 1 l = (r l).fpc ∧ g'.laneV 4 l ++ g'.laneV 3 l = (r l).faddr ∧
    g'.laneV 5 l = (r l).detail ∧ g'.laneV 7 l ++ g'.laneV 6 l = (r l).resume
  others : ∀ l ∈ List.range g.w, m.has l = false → g'.lane l = g.lane l ∧ ((g.lane l).run.live = true → ∀ i, g'.laneV i l = g.laneV i l)

/-- The lanes m of a group may enter a handler now: they stand in one frame, not during an entry and below FD 255, and the rows and quads of
the new frame are free, with no request before that of the word or entry at `pc` (R73, R341, R342). -/
structure State.Handles (s : State) (core slot : Nat) (g : Group) (m : LaneSet) (e : TrapEntry) (pc : DWord) : Prop where
  group : s.group? core slot = some g
  wf : g.Wf
  owned : g.Owned
  some : m.list g.w ≠ []
  inGroup : ∀ l, m.has l = true → l < g.w
  live : ∀ l ∈ m.list g.w, (g.lane l).run.live = true
  one : ∀ l ∈ m.list g.w, ∀ k ∈ m.list g.w, (g.lane l).frame = (g.lane k).frame
  fd : ∀ l ∈ m.list g.w, (g.lane l).fd < 255
  calm : ∀ l ∈ m.list g.w, ∀ h, (g.frm l).handler = Option.some h → h.entering = false
  nv : 8 ≤ e.nv
  room : 1 + 8 * g.perReg ≤ s.freeRows core ∧ (e.nv + 3) / 4 ≤ s.freeQuads core
  first : (s.core core).earlier slot pc m = []

/-! ## The steps of the ordering machine, the copy engine and the dispatchers (R22 to R42, R73 to R81, R107 to R126, R135 to R155) -/

/-- A state with the writes in flight, their count and the propagation queue of a core put back. -/
def State.withWrites (t s : State) (core : Nat) : State :=
  { t.updCore core (fun k => { k with prop := (s.core core).prop }) with
    writes := s.writes
    co := s.co }

/-- A write of bytes within one unit by a core, as it enters coherence order: the unit's other bytes keep the values of the write before it
(R119). -/
def State.newWrite (s : State) (core key : Nat) (bytes : List Byte) (reach : Nat) : WriteRec :=
  { seq := s.co + 1, unit := Machine.unitOf key, bytes := overlay (s.unitBytes (Machine.unitOf key) (s.latest (Machine.unitOf key) (fun _ => true))) (key - Machine.unitOf key) bytes,
    origin := some core, cmps := [core], reach := reach }

/-- The entry of the propagation queue for a write, with what a dump shows of it. -/
def propOf (s : State) (key reach slot : Nat) (shown : Drained) : List PropItem :=
  if isScratchKey key then [] else [{ mark := none, seq := s.co + 1, unit := unitOf key, reach := reach, last := 6, slot := slot, shown := some shown }]

/-- The bytes at a key, within one unit, of the co-latest write to its unit among those a condition names. -/
def State.unitRead (s : State) (key n : Nat) (p : WriteRec → Bool) : List Byte :=
  ((s.unitBytes (Machine.unitOf key) (s.latest (Machine.unitOf key) p)).drop (key - Machine.unitOf key)).take n

/-- A part of an access of lanes that stand in its frame, with as many registers as it names from `d` on. -/
structure Group.Targets (g : Group) (p : Part) (d n : Nat) (uni : Bool) : Prop where
  wf : g.Wf
  frame : ∃ f, g.frame? p.frame = some f ∧ (if uni then d + n ≤ f.ns else d + n ≤ f.nv)
  lanes : ∀ l, p.lanes.has l = true → l < g.w ∧ (g.lane l).frame = p.frame

/-- The registers from `d` on, in the lanes of a part or in its frame, hold the words that bytes make (R268). -/
def Group.Holds (g' : Group) (p : Part) (d : Nat) (uni : Bool) (bs : List Byte) : Prop :=
  ∀ i x, (regWords bs)[i]? = some x →
    if uni then ∃ f, g'.frame? p.frame = some f ∧ f.U (d + i) = x else ∀ l, p.lanes.has l = true → g'.laneV (d + i) l = x

/-! ## The dispatchers, the front end and the command queues (R22 to R42, R135 to R155, R398 to R409) -/

/-- A record of code launch (R398): no thread's, in a queue's function. -/
def launchRecordOf (grid : Word) (team core lane cause queue : Nat) (fpc faddr : DWord) : RingRecord :=
  { grid := grid, team := team, core := core, slot := 0, lane := lane, code := 0x11, kind := 3, flags := 0, queue := queue, fpc := fpc, faddr := faddr,
    detail := BitVec.ofNat 32 cause }

/-- The grid g of a die's cut c can choose a team now: released, not cancelled, its queue placing, nothing of its queue to restore first and no
slice owner before it, and a team b is next (R31, R40, R137, R150, R394). -/
structure State.NextTeam (s : State) (die : Nat) (g : Grid) (c : DieCut) (b : TeamBox) : Prop where
  grid : s.grid? g.num = some g
  cut : g.cuts[die]? = some c
  released : g.released = true
  going : g.cancelSeen = false
  takes : c.takes = true
  loose : g.record.resident = false
  places : s.queueMayPlace g = true
  slices : s.sliceOwner = none
  units : s.units = []
  fixed : g.record.recutmax ≤ c.recuts
  free : c.chosen = none
  still : c.moving = []
  next : ∃ rest, c.todo = b :: rest
  some : 0 < b.ex * b.ey * b.ez ∧ 0 < g.record.w

/-- A new group of a team (R22, R23): its lanes run the iterations from gix·W on in x, then y, then z order from the team's origin, at the
kernel's entry, up to the team's threads; every register is 0. -/
structure Group.Fresh (x : Group) (g : Grid) (b : TeamBox) (die team core gix : Nat) : Prop where
  place : x.grid = g.num ∧ x.team = team ∧ x.die = die ∧ x.core = core ∧ x.gix = gix ∧ x.w = g.record.w
  thread : ∀ l < x.w, gix * x.w + l < b.ex * b.ey * b.ez → let k := gix * x.w + l
    (x.lane l).run = .running ∧ (x.lane l).pc = g.record.entry ∧ (x.lane l).fd = 0 ∧ (x.lane l).k = k ∧ (x.lane l).ix = BitVec.ofNat 32 (b.ox + k % b.ex) ∧
      (x.lane l).iy = BitVec.ofNat 32 (b.oy + k / b.ex % b.ey) ∧ (x.lane l).iz = BitVec.ofNat 32 (b.oz + k / (b.ex * b.ey)) ∧ (x.lane l).preds = 0
  absent : ∀ l < x.w, b.ex * b.ey * b.ez ≤ gix * x.w + l → (x.lane l).run = .absent
  regs : ∀ l r, x.laneV r l = 0 ∧ (x.frm l).U r = 0
  modes : x.fmode = 0 ∧ x.fflags = 0 ∧ x.ld = 0 ∧ x.st = 0 ∧ x.cp = 0 ∧ x.tl = 0

/-- A command queue has an entry of an op to take, within its limits (R148, R149). -/
structure State.Takes (s : State) (fn q op : Nat) (e : Entry) : Prop where
  opened : s.queueOpen fn q = true
  read : s.readCommand fn q = .ok e
  op : e.op = op
  legal : e.legal = true

/-- The queue's head moves past the entry. -/
def State.headMoved (s : State) (fn q : Nat) : State := s.updQueue fn q (fun x => { x with head := x.head + 1 })
/-- A queue halts for a cause: QSTAT shows the halt and the fault, and a record names it (R400). -/
def State.halts (s : State) (fn q cause : Nat) (faddr : DWord) : State :=
  (s.updQueue fn q (fun x =>
    { x with
      halted := true
      faulted := true })).ring fn (launchRecordOf 0xFFFFFFFF 0 0xFFFF 0 cause q 0 faddr)

/-! ## Pods, cancellation, power, links and firmware (R151 to R163, R402 to R414) -/

/-- The key of a pod launch comes before another's: by START, then the issuing device, then its sequence (R153). -/
def PodLaunch.Precedes (a b : PodLaunch) : Prop := a.start < b.start ∨ a.start = b.start ∧ (a.issuer < b.issuer ∨ a.issuer = b.issuer ∧ a.seq < b.seq)

/-- A launch enters the launches held, in key order. -/
def InsertsLaunch (k : PodLaunch) (before after : List PodLaunch) : Prop :=
  ∃ a b, before = a ++ b ∧ after = a ++ [k] ++ b ∧ (∀ x ∈ a, ¬k.Precedes x) ∧ ∀ x, b.head? = some x → k.Precedes x

/-- Of a state only grids may differ, and of these only one. -/
structure OnlyGrid (s t : State) (num : Word) : Prop where
  rest : t = { s with grids := t.grids }
  others : ∀ n, n ≠ num → t.grid? n = s.grid? n

/-- A release fence of the device at a scope: a marker behind what the queue of each core and that of the front end hold (R139, R154, R403). -/
structure Fenced (s t : State) (last : Nat) : Prop where
  stamp : t.stamp = s.stamp + 1
  cores : ∀ k < s.cores.length, t.core k = { s.core k with
    prop := if (s.core k).prop = [] then [] else (s.core k).prop ++ [{ mark := some (s.stamp + 1), seq := 0, unit := 0, reach := 1, last := max 2 last, slot := 0, shown := none }] }
  front : t.feProp = if s.feProp = [] then [] else s.feProp ++ [{ mark := some (s.stamp + 1), seq := 0, unit := 0, reach := 1, last := max 2 last, slot := 0, shown := none }]
  rest : t = { s with stamp := t.stamp, cores := t.cores, feProp := t.feProp, grids := t.grids }

/-- A grid that is cancelled for a cause, unless one is fixed or the completion stands (R402, R415). -/
def Grid.cancel (g : Grid) (cause : Nat) : Grid := if g.cancelled.isSome || g.completing then g else { g with cancelled := some cause }

/-- A grid that this device cancels for a cause: under pod reach a device that is not the root only asks the root (R402). -/
def State.cancels (s : State) (g : Grid) (cause : Nat) : Grid :=
  if g.cancelled.isSome || g.completing then g
  else if g.record.reach = 2 ∧ s.root = false then { g with asked := some (g.asked.getD cause) } else { g with cancelled := some cause }

/-- The result v of a launch has reached who issued it: the uniform register of an lnch.rec, whose access is over; a command or node takes none (R316). -/
structure Answered (s t : State) (iss : Issuer) (v : Word) : Prop where
  none : (∀ core slot pc fr d l op, iss ≠ .thread core slot pc fr d l op) → t.groups = s.groups
  thread : ∀ core slot pc fr d l op g f, iss = .thread core slot pc fr d l op → s.group? core slot = some g → (∃ o ∈ g.ops, o.id = op) → g.frame? fr = some f →
    d < f.s.length → ∃ g' f', t.group? core slot = some g' ∧ g'.frame? fr = some f' ∧ f'.U d = v ∧ (∀ r, r ≠ d → f'.U r = f.U r) ∧ f'.v = f.v ∧ g'.sets = g.sets ∧
      g'.lanes = g.lanes ∧ g'.sf = g.sf ∧ ∀ o ∈ g'.ops, o.id ≠ op ∧ o ∈ g.ops
  others : ∀ c j, (∀ pc fr d l op, iss ≠ .thread c j pc fr d l op) → t.group? c j = s.group? c j

/-- A launch of this device that waits for the root is answered with its number; of any other, nothing is. -/
def State.AnswersPod (s t : State) (num : Word) (iss : Issuer) : Prop :=
  ((∃ x ∈ s.podOut, x.grid = num) → Answered s t iss num) ∧ ((∀ x ∈ s.podOut, x.grid ≠ num) → t.groups = s.groups)

/-- A device loses lock: of the launches that it holds, those whose start has come are released before (R405, R415). -/
structure State.LosesLock (s t : State) : Prop where
  rest : t = { s with lock := false, syncs := 0, podHeld := t.podHeld, podReleased := t.podReleased, grids := t.grids }
  still : s.lock = false ∨ (∀ k ∈ s.podHeld, s.ptime.toNat < k.start) → t.podHeld = s.podHeld ∧ t.podReleased = s.podReleased ∧ t.grids = s.grids
  due : s.lock = true → s.podHeld.Pairwise (fun a b => a.start ≤ b.start) → t.podHeld = s.podHeld.filter (fun k => decide (s.ptime.toNat < k.start)) ∧
    ∀ k ∈ s.podHeld, k.start ≤ s.ptime.toNat → ∀ g, s.grid? k.grid = some g → ∃ g', t.grid? k.grid = some g' ∧ g'.released = true ∧ g'.record = g.record

/-- Every report of a pod grid is in: at the root those of all taking-part devices that are not lost, elsewhere its own (R154, R403, R408). -/
def State.Reported (s : State) (g : Grid) : Prop :=
  (g.record.reach = 2 ∧ s.root = true → ∀ d ∈ g.record.devices s.members, d ∈ g.reporters ∨ d ∈ s.lostPeers) ∧
    (¬(g.record.reach = 2 ∧ s.root = true) → g.partDone = true ∨ ∀ c ∈ g.cuts, c.takes = false)

/-- A team has a group on a cluster. -/
def State.On (s : State) (x : Team) (n : Nat) : Prop := ∃ g ∈ s.groups, g.grid = x.grid ∧ g.team = x.num ∧ g.core / 8 = n
/-- The highest class of the teams resident on a cluster. -/
def State.Highest (s : State) (n m : Nat) : Prop := (∃ x ∈ s.teams, s.On x n ∧ x.cls = m) ∧ ∀ x ∈ s.teams, s.On x n → x.cls ≤ m
/-- A device is lost to this one by a list of devices that have no route (R408). -/
def State.Lost (s : State) (lost : List Nat) (d : Nat) : Prop := d ∈ lost ∧ d ≠ s.dev ∧ s.members.getLsbD d = true
/-- The values of bring-up (R158, R414); nothing of what ran before is left (log 22). -/
def State.BroughtUp (s : State) (version : Word) (t : State) : Prop :=
  t = { s with
      fwState := 1, fwErr := 0, fwVersion := version, fwstg := 0, cap := 7, ptime := 0, admitted := 23, window := 0, windowed := 0, groups := [], teams := [], grids := []
      requests := [], signals := [], armed := [], prefetches := [], ending := none, loops := [], classRequests := [], podHeld := [], podReleased := none, podStarts := []
      podOut := [], units := [], frozenHeld := [], launchSeq := 0, sliceOwner := none, slicePos := 0, clusters := t.clusters, cores := t.cores, fns := t.fns } ∧
    (∀ n < s.clusters.length, t.cluster n = { s.cluster n with pool := 6, move := none, cyc10 := 0, idle := false, lastIssue := 0 }) ∧
    (∀ n < s.cores.length, t.core n = { Core.reset with prop := (s.core n).prop }) ∧ t.fns.length = 17 ∧ t.fn 0 = { Fn.reset with ready := true } ∧ ∀ k, k ≠ 0 → t.fn k = Fn.reset

/-! ## Save areas, registers and pre-emption (R6, R82, R148, R166 to R172, R346, R354, R377 to R397) -/

/-- A function's writable registers without behaviour of their own, with their bits that are not reserved (R166, R168, R346, R354, R388). -/
def contextRegisters : List (Nat × DWord) :=
  [(0x0348, 0xFFFFFFFFFFFFFFFF), (0x0350, 0xFFFFFFFFFFFFFFFF), (0x0400, 0xFFFFFFFFFFFFFFC1),
   (0x0410, 0x00000000FFFFFFFF), (0x0420, 0x00000000FFFFFFFF), (0x0480, 0x00FFFFFFFFFFFFC1)]
/-- A queue's, by offset from the queue's first register (R148). -/
def queueRegisters : List (Nat × DWord) := [(0x00, 0xFFFFFFFFFFFFFFC1), (0x18, 0x00000000FFFFFFFF)]
/-- Registers that only read (R6). -/
def readOnlyRegisters : List Nat := [0x0000, 0x0008, 0x0010, 0x0180, 0x0188, 0x0318, 0x0358, 0x0414, 0x0418, 0x0448, 0x0490, 0x04C0, 0x04E0, 0x04E8]

/-- Of a state only a function's registers may differ. -/
structure OnlyFn (s t : State) (fn : Nat) : Prop where
  rest : t = { s with fns := t.fns }
  others : ∀ k, k ≠ fn → t.fn k = s.fn k

/-- The bit errors of the 32 bytes that hold a device physical address. -/
def State.errorsAt (s : State) (pa : Nat) : List BitError := s.bitErrors.filter (fun e => decide (Machine.unitOf pa ≤ e.key) && decide (e.key < Machine.unitOf pa + 32))

/-- The access table of a master forbids a read or write of a device physical address: one has been written for it, and no range of it admits the
request (R380, log 11). -/
def State.Forbids (s : State) (master pa : Nat) (write : Bool) : Prop :=
  (∃ r ∈ s.access, r.master = master) ∧ ∀ r ∈ s.access, r.master = master → r.lo ≤ pa → pa ≤ r.hi → (if write then r.write else r.read) = false

/-- The queues that receive slices, in order, each as many times as its weight (R150, log 19). -/
def State.slices (s : State) : List (Nat × Nat × Nat) :=
  (List.range 17).flatMap (fun f => (List.range 8).flatMap (fun q =>
    if (s.fn f).ready = true ∧ (s.queue f q).weight ≠ 0 ∧ (s.queue f q).descheduled = false then (List.range (s.queue f q).weight.toNat).map (fun i => (f, q, i)) else []))

/-- A lane's wait on address may end: its time is up, or its word, read again, differs (R393). -/
def State.MayWake (s : State) (fn : Nat) (w : WtaWait) : Prop :=
  (∃ d, w.deadline = some d ∧ d ≤ s.ptime.toNat) ∨
    (w.scratch = false ∧ ∃ s1 bs, s.readVa none w.scope fn (0x40 + fn) w.va w.size = (s1, .ok bs) ∧ BitVec.ofNat 64 (leNat bs) ≠ w.cmp)

/-- A unit can be restored on some core of a kind, and on none of the kinds before it (R158, R394). -/
def State.FirstTier (s : State) (u : EvictedUnit) (x : RestoreTier) : Prop :=
  ∃ a b, restoreTiers (s.unitClass u) = a ++ x :: b ∧ (∃ c ∈ dieCores u.die, (s.restoreAt u (s.tierCore u x) c).isSome = true) ∧
    ∀ y ∈ a, ∀ c ∈ dieCores u.die, s.restoreAt u (s.tierCore u y) c = none

/-- The windows that the teams of a unit had, given up. -/
def State.windowsLeft (s : State) (u : EvictedUnit) : State :=
  { s with teams := s.teams.map (fun t => if t.grid == u.grid && u.teams.contains t.num then { t with windows := [] } else t) }

/-! ## What every step keeps, and what a step does (R65, R66, R68, R75, R119, R414) -/

/-- The writes of the device stand in coherence order, each with a number of its own that has been given out (R119). -/
def State.InCoherenceOrder (s : State) : Prop := (s.writes.map WriteRec.seq).Pairwise (· < ·) ∧ ∀ w ∈ s.writes, w.seq ≤ s.co

/-- Every group that stands on a core, and every group of an evicted unit, has well-formed registers, and no grid has more than 64 lanes to a
group (R65). -/
structure State.GroupsWf (s : State) : Prop where
  resident : ∀ g ∈ s.groups, g.Wf
  evicted : ∀ u ∈ s.units, ∀ g ∈ u.groups, g.Wf
  width : ∀ g ∈ s.grids, g.record.w ≤ 64

/-- A write covers one whole single-copy atomic unit (R111, R119). -/
def WriteRec.Whole (w : WriteRec) : Prop := Machine.unitOf w.unit = w.unit ∧ w.bytes.length = unitSize w.unit

/-- The values of R414 by offset: every queue's registers, and the function's writable registers, those that the table does not list among them. -/
def bringUpRegisters : List (Nat × Nat) :=
  (List.range 8).flatMap (fun q => [(0x00, 0), (0x08, 4), (0x0C, 0), (0x10, 0), (0x14, 0), (0x18, 0), (0x1C, 0), (0x20, 0)].map (fun x => (0x1000 + 0x40 * q + x.1, x.2))) ++
    [(0x0400, 0), (0x0410, 0), (0x0408, 4), (0x0420, 0x000F4240), (0x0480, 0), (0x0488, 0), (0x0310, 0), (0x0300, 0), (0x0308, 0), (0x0340, 0),
     (0x0348, 0), (0x0350, 0), (0x0358, 0), (0x0440, 0)] ++ (List.range 16).map (fun n => (0x0380 + 8 * n, 0))
/-- The writable registers of a core's debug block: DSTOP, BP0 to BP3 and DUMPA. -/
def debugRegisters (core : Nat) : List Nat := [0x00, 0x10, 0x18, 0x20, 0x28, 0x30].map (0x8000 + 0x100 * core + ·)

/-- What a step executes next: the word of a chain that goes on; with none, what the agenda picks or, with an empty agenda, what the machine
chooses. -/
inductive State.Next (s : State) : Option Choice → Prop where
  | goesOn (c : Choice) (h : s.ongoing = some c) : State.Next s (some c)
  | chosen (c : Option Choice) (h : s.ongoing = none) (a : s.clocked.agenda = []) (k : s.clocked.choose = c) : State.Next s c
  | picked (c : Option Choice) (n : Nat) (rest : List Move) (h : s.ongoing = none) (a : s.clocked.agenda = .pick n :: rest)
    (k : (State.choices { s.clocked with
      agenda := rest
      cur := none })[n]? = c) : State.Next s c

/-- The machine issues the one-word chain of the one path of its only group: nothing is in the agenda and no time passes, the group may issue and
its partition has its turn, no deferred fault is due and neither an atomic nor a sys.cinv holds the path, the chain is fetched and its word w raises no
fault before it takes effect, no breakpoint stands there, and the word goes ahead, as `m` has it. `t` is the state after the fetch. -/
structure State.Issues (s : State) (g : Group) (p : Path) (w : Word) (m : Means) (t : State) : Prop where
  clock : s.clockIn = []
  agenda : s.agenda = []
  only : s.groups = [g]
  turn : s.turn ≤ g.partition
  may : State.mayIssue { s with turn := g.partition + 1 } g = true
  boundary : g.chains = []
  path : g.paths = [p]
  due : ∀ l ∈ List.range g.w, g.dueFault l = none
  free : g.busy p.lanes = false ∧ g.wideHeld p.lanes = false
  fetch : State.fetchChain { s with turn := g.partition + 1 } g p.lanes p.pc = (t, .words [w])
  last : wordChain w = false
  clean : (t.at_ g p p.pc).wordFaults w = false
  unbroken : State.breaks { s with turn := g.partition + 1 } g.core p.pc = false
  ahead : ∃ v, tryWords (((t.group? g.core g.slot).map Group.nextId).getD g.nextId) (t.enter g (t.chainOf g p [w])) [w] ⟨[], [], 0⟩ false = .issues v m

end Sys2Proof.Machine
end

