-- ==== Sys2Proof/Certificates/Slice0/Obligations.lean ====
section
/-! DEFINITION. Sys2Proof/Certificates/Slice0/Obligations.lean: the statements for the provers, family by family of the opcode table, then the
events, the encodings, the step, memory, reset and what every step keeps. -/

open Sys2Proof Sys2Proof.Machine

/-! ## Integer, uniform, predicate, address and shape words (R234 to R248) -/

/-- R236 to R238, R239: every form of vi and vii completes, and gives every active lane its operation of the sources as they were before the
word; every other register of every live lane, and all else but the path's position, is unchanged. Every form of vm completes with its
result in every active lane, and changes no flag and no other register. -/
def Obligations.VectorIntegerAndMiscResults : Prop :=
  ((∀ r ∈ viRows, ∀ h d a b s c, Executes (r.1 h d a b) h .none 1 s c →
    ∃ t, exec (r.1 h d a b) s = .next t ∧ c.WroteV (fun _ => d.toNat) (fun l => r.2 (c.v a l) (c.v b l)) 0 t) ∧
  (∀ r ∈ viiRows, ∀ h d a i s c, Executes (r.1 h d a i) h .none 1 s c →
    ∃ t, exec (r.1 h d a i) s = .next t ∧ c.WroteV (fun _ => d.toNat) (fun l => r.2 (c.v a l) i.toInt) 0 t) ∧
  ∀ r ∈ viiShifts, ∀ h d a i s c, Executes (r.1 h d a i) h .none 1 s c →
    ∃ t, exec (r.1 h d a i) s = .next t ∧ c.WroteV (fun _ => d.toNat) (fun l => r.2 (c.v a l) i.toNat) 0 t) ∧
  ((∀ r ∈ vm2Rows, ∀ h d a b s c, Executes (r.1 h d a b) h .none 1 s c →
    ∃ t, exec (r.1 h d a b) s = .next t ∧ c.WroteV (fun _ => d.toNat) (fun l => r.2 (c.v a l) (c.v b l)) 0 t) ∧
  ∀ r ∈ vm1Rows, ∀ h d a s c, Executes (r.1 h d a) h .none 1 s c →
    ∃ t, ∃ f : Word → Word, exec (r.1 h d a) s = .next t ∧ c.WroteV (fun _ => d.toNat) (fun l => f (c.v a l)) 0 t ∧ ∀ x, r.2 x (f x))

/-- R236 to R238, R240: every form of si and sii, sc to a uniform register and sc.blen complete, write once for each frame of the active lanes,
from that frame's own sources, and change nothing else. -/
def Obligations.UniformIntegerResults : Prop :=
  (∀ r ∈ siRows, ∀ h d a b s c, Executes (r.1 h d a b) h .none 0 s c →
    ∃ t, exec (r.1 h d a b) s = .next t ∧ c.WroteU d.toNat (fun l => [r.2 (c.u a l) (c.u b l)]) t) ∧
  (∀ r ∈ siiRows, ∀ h d a i s c, Executes (r.1 h d a i) h .none 0 s c →
    ∃ t, exec (r.1 h d a i) s = .next t ∧ c.WroteU d.toNat (fun l => [r.2 (c.u a l) i.toInt]) t) ∧
  (∀ r ∈ siiShifts, ∀ h d a i s c, Executes (r.1 h d a i) h .none 0 s c →
    ∃ t, exec (r.1 h d a i) s = .next t ∧ c.WroteU d.toNat (fun l => [r.2 (c.u a l) i.toNat]) t) ∧
  (∀ r ∈ scSetRows, ∀ h d a b s c, Executes (r.1 h d a b) h .none 0 s c →
    ∃ t, exec (r.1 h d a b) s = .next t ∧ c.WroteU d.toNat (fun l => [if r.2 (c.u a l) (c.u b l) then 1 else 0]) t) ∧
  ∀ h d a s c, Executes (.scBlen h d a) h .none 0 s c →
    ∃ t, ∃ f : Word → Word, exec (.scBlen h d a) s = .next t ∧ c.WroteU d.toNat (fun l => [f (c.u a l)]) t ∧
      ∀ x : Word, ((f x).toNat = 0 ↔ x = 0) ∧ (∀ i, (f x).toNat ≤ i → x.getLsbD i = false) ∧ ((f x).toNat ≠ 0 → x.getLsbD ((f x).toNat - 1) = true)

/-- R240, R241, R246: the words that write a predicate complete: vc and sc compares, the predicate forms of vp, and the compares of ad give
every active lane its bit and change nothing else. -/
def Obligations.PredicateResults : Prop :=
  (∀ r ∈ vcRows, ∀ h d a b s c, d.toNat < 16 → Executes (r.1 h d a b) h .none 0 s c →
    ∃ t, exec (r.1 h d a b) s = .next t ∧ c.WroteP d.toNat (fun l => r.2 (c.v a l) (c.v b l)) 0 t) ∧
  (∀ r ∈ scRows, ∀ h d a b s c, d.toNat < 16 → Executes (r.1 h d a b) h .none 0 s c →
    ∃ t, exec (r.1 h d a b) s = .next t ∧ c.WroteP d.toNat (fun l => r.2 (c.u a l) (c.u b l)) 0 t) ∧
  (∀ r ∈ vpRows, ∀ h d a b s c, d.toNat < 16 → Executes (r.1 h d a b) h .none 0 s c →
    ∃ t, exec (r.1 h d a b) s = .next t ∧ c.WroteP d.toNat (fun l => r.2 (c.p a l) (c.p b l)) 0 t) ∧
  (∀ h d a s c, d.toNat < 16 → Executes (.vpNot h d a) h .none 0 s c →
    ∃ t, exec (.vpNot h d a) s = .next t ∧ c.WroteP d.toNat (fun l => !c.p a l) 0 t) ∧
  (∀ h d a s c, d.toNat < 16 → Executes (.vpSet h d a) h .none 0 s c →
    ∃ t, exec (.vpSet h d a) s = .next t ∧ c.WroteP d.toNat (fun l => decide (c.v a l ≠ 0)) 0 t) ∧
  ∀ r ∈ adCmpRows, ∀ h d a b s c, d.toNat < 16 → Executes (r.1 h d a b) h .none 0 s c →
    ∃ t, exec (r.1 h d a b) s = .next t ∧ c.WroteP d.toNat (fun l => r.2 (c.up a l) (c.up b l)) 0 t

/-- R241 to R243: vp.sel, vp.get and vp.mvu, every form of vx, and sli.vsx complete with their value in every active lane. A lane of vx whose
source does not exist or is not active receives its own vA. Which frame vA is read through for a source in another frame follows log 14. -/
def Obligations.SelectAndExchangeResults : Prop :=
  (∀ h d a b s c, Executes (.vpSel h d a b) h .none 1 s c →
    ∃ t, exec (.vpSel h d a b) s = .next t ∧ c.WroteV (fun _ => d.toNat) (fun l => if c.p b l then c.v a l else c.v d l) 0 t) ∧
  (∀ h d a s c, Executes (.vpGet h d a) h .none 1 s c →
    ∃ t, exec (.vpGet h d a) s = .next t ∧ c.WroteV (fun _ => d.toNat) (fun l => if c.p a l then 1 else 0) 0 t) ∧
  (∀ h d a s c, Executes (.vpMvu h d a) h .none 1 s c →
    ∃ t, exec (.vpMvu h d a) s = .next t ∧ c.WroteV (fun _ => d.toNat) (fun l => c.u a l) 0 t) ∧
  (∀ h d a b s c, Executes (.vxIdx h d a b) h .none 1 s c →
    ∃ t, exec (.vxIdx h d a b) s = .next t ∧ c.WroteV (fun _ => d.toNat)
      (fun l => if c.act.has ((c.v b l).toNat % c.g.w) then c.v a ((c.v b l).toNat % c.g.w) else c.v a l) 0 t) ∧
  (∀ r ∈ vxRows, ∀ h d a b s c, Executes (r.1 h d a b) h .none 1 s c →
    ∃ t, exec (r.1 h d a b) s = .next t ∧ c.WroteV (fun _ => d.toNat) (fun l =>
      match r.2 c.g.w l (c.u b l).toNat with
      | some k => if c.act.has k then c.v a k else c.v a l
      | none => c.v a l) 0 t) ∧
  ∀ ch d i s c, Executes (.sliVsx ch d i) ⟨ch, none⟩ .none 1 s c →
    ∃ t, exec (.sliVsx ch d i) s = .next t ∧ c.WroteV (fun _ => d.toNat) (fun _ => BitVec.ofInt 32 i.toInt) 0 t

/-- R243, R246: sli to a uniform register and the pair forms of ad complete and write once for each frame of the active lanes, from that frame's
own sources. -/
def Obligations.UniformAndAddressResults : Prop :=
  (∀ ch d i s c, Executes (.sliLo ch d i) ⟨ch, none⟩ .none 0 s c →
    ∃ t, exec (.sliLo ch d i) s = .next t ∧ c.WroteU d.toNat (fun _ => [BitVec.ofNat 32 i.toNat]) t) ∧
  (∀ ch d i s c, Executes (.sliHi ch d i) ⟨ch, none⟩ .none 0 s c →
    ∃ t, exec (.sliHi ch d i) s = .next t ∧ c.WroteU d.toNat (fun l => [BitVec.ofNat 32 (i.toNat * 2 ^ 16 + (c.u d l).toNat % 2 ^ 16)]) t) ∧
  (∀ ch d i s c, Executes (.sliSx ch d i) ⟨ch, none⟩ .none 0 s c →
    ∃ t, exec (.sliSx ch d i) s = .next t ∧ c.WroteU d.toNat (fun _ => [BitVec.ofInt 32 i.toInt]) t) ∧
  (∀ r ∈ adPairRows, ∀ h d a b s c, Executes (r.1 h d a b) h .none 0 s c →
    ∃ t, exec (r.1 h d a b) s = .next t ∧ c.WroteU d.toNat (fun l => halves (r.2 (c.up a l) (c.up b l))) t) ∧
  (∀ r ∈ adWordRows, ∀ h d a b s c, Executes (r.1 h d a b) h .none 0 s c →
    ∃ t, exec (r.1 h d a b) s = .next t ∧ c.WroteU d.toNat (fun l => halves (r.2 (c.up a l) (c.u b l))) t) ∧
  (∀ h d a b s c, Executes (.adMulw h d a b) h .none 0 s c →
    ∃ t, exec (.adMulw h d a b) s = .next t ∧ c.WroteU d.toNat (fun l => halves (BitVec.ofNat 64 ((c.u a l).toNat * (c.u b l).toNat))) t) ∧
  ∀ h d a s c, Executes (.adMov h d a) h .none 0 s c →
    ∃ t, exec (.adMov h d a) s = .next t ∧ c.WroteU d.toNat (fun l => halves (c.up a l)) t

/-- R244, R245: a read of a special register completes with the register's value, per lane for sr.rdv, and that of the lowest active lane of
each frame for sr.rds and sr.rdp; the registers that belong to a lane are its own, those of a team are its box, sizes and scratch window on
the core, those of the grid its number and space; sr.wrs writes %fmode or %fflags, less the reserved bits of R86, and nothing else of the
group. -/
def Obligations.SpecialRegisterResults : Prop :=
  (∀ h d i r s c, SReg.ofCode i = some r → Executes (.srRdv h d i) h .none 1 s c →
    ∃ t, exec (.srRdv h d i) s = .next t ∧ c.WroteV (fun _ => d.toNat)
      (fun l => if r = .ix ∨ r = .iy ∨ r = .iz ∨ r = .tix ∨ r = .lane then (c.sregOf r l).setWidth 32 else (c.sregOf r (lowest c.act c.g.w)).setWidth 32) 0 t) ∧
  (∀ h d i r s c, SReg.ofCode i = some r → Executes (.srRds h d i) h .none 0 s c →
    ∃ t, exec (.srRds h d i) s = .next t ∧ c.WroteU d.toNat (fun l => [(c.sregOf r (lowest (c.mates l) c.g.w)).setWidth 32]) t) ∧
  (∀ h d i r s c, SReg.ofCode i = some r → Executes (.srRdp h d i) h .none 0 s c →
    ∃ t, exec (.srRdp h d i) s = .next t ∧ c.WroteU d.toNat (fun l => halves (c.sregOf r (lowest (c.mates l) c.g.w))) t) ∧
  (∀ h d s c, Executes (.srWrs h d 0x038) h .none 0 s c → ∃ t, exec (.srWrs h d 0x038) s = .next t ∧ OnlyGroup s t c.core c.slot ∧
    t.group? c.core c.slot = some { c.g with fmode := (c.u d (lowest c.act c.g.w)).setWidth 16 &&& 3 }) ∧
  (∀ h d s c, Executes (.srWrs h d 0x039) h .none 0 s c → ∃ t, exec (.srWrs h d 0x039) s = .next t ∧ OnlyGroup s t c.core c.slot ∧
    t.group? c.core c.slot = some { c.g with fflags := (c.u d (lowest c.act c.g.w)).setWidth 16 &&& 31 }) ∧
  (∀ (c : Ctx) (l : Nat) (x : Team) (gr : Grid), c.s.team? c.g.grid c.g.team = some x → c.s.grid? c.g.grid = some gr →
    c.sregOf .ox l = BitVec.ofNat 64 x.box.ox ∧ c.sregOf .oy l = BitVec.ofNat 64 x.box.oy ∧ c.sregOf .oz l = BitVec.ofNat 64 x.box.oz ∧
    c.sregOf .ex l = BitVec.ofNat 64 x.box.ex ∧ c.sregOf .ey l = BitVec.ofNat 64 x.box.ey ∧ c.sregOf .ez l = BitVec.ofNat 64 x.box.ez ∧
    c.sregOf .sx l = BitVec.ofNat 64 gr.record.sx ∧ c.sregOf .sy l = BitVec.ofNat 64 gr.record.sy ∧ c.sregOf .sz l = BitVec.ofNat 64 gr.record.sz ∧
    c.sregOf .tn l = BitVec.ofNat 64 x.tn ∧ c.sregOf .gcnt l = BitVec.ofNat 64 x.gcnt ∧ c.sregOf .ss l = BitVec.ofNat 64 x.ss ∧
    c.sregOf .sb l = BitVec.ofNat 64 ((x.windows.lookup c.core).getD 0)) ∧
  ∀ (c : Ctx) (l : Nat), c.sregOf .gix l = BitVec.ofNat 64 c.g.gix ∧ c.sregOf .team l = BitVec.ofNat 64 (c.g.team / 2) ∧
    c.sregOf .grid l = c.g.grid.setWidth 64 ∧ c.sregOf .dev l = BitVec.ofNat 64 c.s.dev ∧ c.sregOf .lane l = BitVec.ofNat 64 l ∧ c.sregOf .tix l = BitVec.ofNat 64 (c.g.lane l).k ∧
    c.sregOf .ix l = (c.g.lane l).ix.setWidth 64 ∧ c.sregOf .iy l = (c.g.lane l).iy.setWidth 64 ∧ c.sregOf .iz l = (c.g.lane l).iz.setWidth 64 ∧
    c.sregOf .core l = BitVec.ofNat 64 c.core ∧ c.sregOf .die l = BitVec.ofNat 64 (c.core / 96) ∧ c.sregOf .ptime l = c.ptime ∧ c.sregOf .cyc l = BitVec.ofNat 64 c.cyc ∧
    c.sregOf .fmode l = c.g.fmode.setWidth 64 ∧ c.sregOf .fflags l = c.g.fflags.setWidth 64

/-- R72, R247: the shape words complete. shp.sq and shp.exp keep the value of every register in every live lane and of the frames beneath,
whatever the guard; after shp.exp the register holds granules in every frame of the path where it was not spilled. shp.shape reads the shape
code. shp.rdx and shp.wrx read and write the register that each frame's index names, when every active frame has it. -/
def Obligations.ShapeResults : Prop :=
  (∀ h d s c, s.ctx? h = some c → c.Ready [.v d 1] .none → c.g.Wf → c.g.Owned → c.s.useBusy c.g c.path (.v d 1) = false →
    ∃ t g', exec (.shpSq h d) s = .next t ∧ t.group? c.core c.slot = some g' ∧ OnlyGroup s t c.core c.slot ∧ OnlyRegs c.g g' ∧
      (∀ l ∈ List.range c.g.w, (c.g.lane l).run.live = true → ∀ r, g'.laneV r l = c.g.laneV r l) ∧ c.KeepsBelow (fun _ _ => False) g') ∧
  (∀ h d s c, s.ctx? h = some c → c.Ready [] .none → c.bounds [.v d 1] = [] → c.g.Wf → c.g.Owned →
    (c.g.framesOf c.path).any (fun x => c.g.scoreboarded .v x.1.id d.toNat 1 x.2) = false →
    c.Free ((c.g.framesOf c.path).length * c.g.perReg) 0 →
    ∃ t g', exec (.shpExp h d) s = .next t ∧ t.group? c.core c.slot = some g' ∧ OnlyGroup s t c.core c.slot ∧ OnlyRegs c.g g' ∧
      (∀ l ∈ List.range c.g.w, (c.g.lane l).run.live = true → ∀ r, g'.laneV r l = c.g.laneV r l) ∧ c.KeepsBelow (fun _ _ => False) g' ∧
      (∀ l ∈ c.path.list c.g.w, d.toNat < (c.g.frm l).nv → (c.g.frm l).tag d.toNat ≠ .spilled → (g'.frm l).notG d.toNat = false)) ∧
  (∀ h d a s c, s.ctx? h = some c → c.Ready [.sw d 1] .none → c.bounds [.sw d 1, .v a 1] = [] → c.g.Wf →
    c.frames.any (fun x => c.g.scoreboarded .v x.1.id a.toNat 1 x.2) = false →
    ∃ t, exec (.shpShape h d a) s = .next t ∧
      c.WroteU d.toNat (fun l => [match (c.g.frm l).tag a.toNat with | .u _ => 0 | .a .. => 1 | .g _ => 2 | .spilled => 2]) t) ∧
  (∀ h d a s c, Executes (.shpRdx h d a) h .none 1 s c → c.indexBusy a.toNat = false →
    (∀ l ∈ c.act.list c.g.w, (c.u a l).toNat < (c.g.frm l).nv) →
    ∃ t, exec (.shpRdx h d a) s = .next t ∧ c.WroteV (fun _ => d.toNat) (fun l => c.g.laneV (c.u a l).toNat l) 0 t) ∧
  ∀ h d a s c, Executes (.shpWrx h d a) h .none 1 s c → c.indexBusy d.toNat = false →
    (∀ l ∈ c.act.list c.g.w, (c.u d l).toNat < (c.g.frm l).nv) →
    ∃ t, exec (.shpWrx h d a) s = .next t ∧ c.WroteV (fun l => (c.u d l).toNat) (fun l => c.v a l) 0 t

/-! ## Floating point and quantisation (R250 to R262) -/

/-- R87, R250, R87, R88, R252, R253, R257: every word of vf32, vf16, vfx, vcv and vfc.class, and vq.dq4 and vq.dq8, completes with its result in
every active lane, sets the flags of its active lanes, and changes nothing else. The fused and byte forms read vD as it was. The vfc
compares complete: they write their predicate for the active lanes and set the flags of the active lanes. Of the computations named there:
add, sub, mul, fma and fms of finite numbers are the exact result rounded once, with the sign of an exact zero, and an infinity or the
largest finite number by the mode from twice the largest power of two on; a NaN gives the canonical NaN; ∞ − ∞ and 0 · ∞ are invalid; min
and max order every number with −0 below +0; the compares follow the order of numbers; the class mask is the word's by its fields. vfx
results that R250 only bounds are free values (log 7). -/
def Obligations.FloatAndFloatCompareResults : Prop :=
  ((∀ r ∈ float2Rows, ∀ h d a b s c, Executes (r.1 h d a b) h .none 1 s c →
    ∃ t, exec (r.1 h d a b) s = .next t ∧ c.WroteV (fun _ => d.toNat) (fun l => (r.2 c.g.rmode (c.v a l) (c.v b l)).1)
      (c.flags (fun l => (r.2 c.g.rmode (c.v a l) (c.v b l)).2)) t) ∧
  (∀ r ∈ float3Rows, ∀ h d a b s c, Executes (r.1 h d a b) h .none 1 s c →
    ∃ t, exec (r.1 h d a b) s = .next t ∧ c.WroteV (fun _ => d.toNat) (fun l => (r.2 c.g.rmode (c.v a l) (c.v b l) (c.v d l)).1)
      (c.flags (fun l => (r.2 c.g.rmode (c.v a l) (c.v b l) (c.v d l)).2)) t) ∧
  (∀ r ∈ float1Rows, ∀ h d a s c, Executes (r.1 h d a) h .none 1 s c →
    ∃ t, exec (r.1 h d a) s = .next t ∧ c.WroteV (fun _ => d.toNat) (fun l => (r.2 c.g.rmode (c.v a l)).1)
      (c.flags (fun l => (r.2 c.g.rmode (c.v a l)).2)) t) ∧
  (∀ r ∈ floatURows, ∀ h d a b s c, Executes (r.1 h d a b) h .none 1 s c →
    ∃ t, exec (r.1 h d a b) s = .next t ∧ c.WroteV (fun _ => d.toNat) (fun l => (r.2 c.g.rmode (c.v a l) (c.u b l) 0).1)
      (c.flags (fun l => (r.2 c.g.rmode (c.v a l) (c.u b l) 0).2)) t) ∧
  ∀ r ∈ floatByteRows, ∀ h d a b s c, Executes (r.1 h d a b) h .none 1 s c →
    ∃ t val, exec (r.1 h d a b) s = .next t ∧
      c.WroteV (fun _ => d.toNat) val (c.flags (fun l => (cvtFloat .f32 r.2 c.g.rmode true (c.v a l).toNat).2)) t ∧
      ∀ l k, k < 4 → (val l).extractLsb' (8 * k) 8 = if k = (c.u b l).toNat % 4 then BitVec.ofNat 8 (cvtFloat .f32 r.2 c.g.rmode true (c.v a l).toNat).1
        else (c.v d l).extractLsb' (8 * k) 8) ∧
  ((∀ r ∈ floatCmpRows, ∀ h d a b s c, d.toNat < 16 → Executes (r.1 h d a b) h .none 0 s c →
    ∃ t, exec (r.1 h d a b) s = .next t ∧
      c.WroteP d.toNat (fun l => (f32cmp r.2 (c.v a l) (c.v b l)).1) (c.flags (fun l => (f32cmp r.2 (c.v a l) (c.v b l)).2)) t) ∧
  (∀ f ∈ Fmt.vector, ∀ o ∈ [FOp.add, .sub, .mul, .fma, .fms], ∀ rm a b d, f.Finite a → f.Finite b → (o ∈ [FOp.fma, .fms] → f.Finite d) →
    let x := f.exact o a b d
    let r := f.op rm o a b d
    (x.n ≠ 0 → Dy.le x.mag (f.num f.maxCode) = true →
      f.RoundsTo rm x r.1 ∧ (r.1 / 2 ^ f.magBits % 2 = 1 ↔ x.n < 0) ∧ (r.2.getLsbD 4 = true ↔ (x.dist (f.num r.1)).n ≠ 0) ∧ r.2 &&& 0b00111 = 0) ∧
    (x.n = 0 → r = (f.sign (f.zeroNeg rm o a b d) 0, 0)) ∧
    (Dy.le ⟨1, f.B + 1⟩ x.mag = true → r.2 = 0b10100 ∧ r.1 = f.sign (decide (x.n < 0))
      (if (match rm with | .rne => true | .rz => false | .ru => decide (0 < x.n) | .rd => decide (x.n < 0)) then f.infCode else f.maxCode))) ∧
  (∀ f ∈ Fmt.vector, ∀ o ∈ [FOp.add, .sub, .mul, .fma, .fms, .min, .max, .cpsgn], ∀ rm a b d,
    let ns := if o ∈ [FOp.fma, .fms] then [a, b, d] else [a, b]
    (∃ c ∈ ns, (f.dec c).isNan = true) → (f.op rm o a b d).1 = f.nanCode ∧ (f.op rm o a b d).2 &&& 0b11110 = 0 ∧
      ((∃ c ∈ ns, (f.dec c).isSig = true) → (f.op rm o a b d).2.getLsbD 0 = true)) ∧
  (∀ f ∈ Fmt.vector, ∀ rm a b d m, f.dec a = .inf m → (f.dec b).isNan = false →
    f.op rm .add a b d = (if f.dec b = .inf (!m) then (f.nanCode, 1) else (f.sign m f.infCode, 0)) ∧
    f.op rm .mul a b d = (if (f.dec b).isZero then (f.nanCode, 1) else (f.sign (m != (f.dec b).neg?) f.infCode, 0))) ∧
  (∀ f ∈ Fmt.vector, ∀ rm a b d, a < 2 ^ (f.magBits + 1) → b < 2 ^ (f.magBits + 1) → (f.dec a).isNan = false → (f.dec b).isNan = false →
    let lo := (f.op rm .min a b d).1
    let hi := (f.op rm .max a b d).1
    (lo = a ∧ hi = b ∨ lo = b ∧ hi = a ∨ a = b ∧ lo = a ∧ hi = a) ∧ Dy.le (f.line lo) (f.line hi) = true ∧
      ((f.dec hi).neg? = true → (f.dec lo).neg? = true) ∧ (f.op rm .min a b d).2 = 0 ∧ (f.op rm .max a b d).2 = 0) ∧
  (∀ a b : Word,
    let x := Fmt.f32.dec a.toNat
    let y := Fmt.f32.dec b.toNat
    let un := x.isNan || y.isNan
    let le := Dy.le (Fmt.f32.line a.toNat) (Fmt.f32.line b.toNat)
    let ge := Dy.le (Fmt.f32.line b.toNat) (Fmt.f32.line a.toNat)
    let quiet : FFlags := if x.isSig || y.isSig then 1 else 0
    let loud : FFlags := if un then 1 else 0
    f32cmp .eq a b = (!un && (le && ge), quiet) ∧ f32cmp .ne a b = (un || !(le && ge), quiet) ∧ f32cmp .lt a b = (!un && !ge, loud) ∧
      f32cmp .le a b = (!un && le, loud) ∧ f32cmp .un a b = (un, quiet)) ∧
  ∀ a : Word, f32class a = BitVec.ofNat 32 (2 ^ classBit a))

/-- R259, R260: the block forms complete when the group is as wide as a block, and give each active lane the header of its block and its code;
vq.q16 and vq.q32 add to the census besides, which no register shows. On a narrower group they raise illegal-word in every active lane. The
packing forms complete with the codes of consecutive lanes in each word. -/
def Obligations.QuantisationResults : Prop :=
  (∀ r ∈ quantRows, ∀ h d a b s c, Executes (r.1 h d a b) h .none 1 s c → c.blockBusy a.toNat (c.blockLanes r.2.1) = false → r.2.1 ≤ c.g.w →
    ∃ t t', exec (r.1 h d a b) s = .next t' ∧ c.WroteV (fun _ => d.toNat) (c.qword a b r.2.1 r.2.2) 0 t ∧
      (r.2.2 = true → t' = t) ∧ (r.2.2 = false → ∃ n, t' = t.census c.g.grid c.pc n)) ∧
  (∀ r ∈ quantRows, ∀ h d a b s c, Executes (r.1 h d a b) h .none 1 s c → c.blockBusy a.toNat (c.blockLanes r.2.1) = false → c.g.w < r.2.1 →
    ∃ w, exec (r.1 h d a b) s = .next (c.raise c.s ((c.act.list c.g.w).map (fun l => (l, 0x01, 0, w)))) ∧ encode (r.1 h d a b) = some w) ∧
  ∀ r ∈ packRows, ∀ h d a s c, Executes (r.1 h d a) h .none 1 s c → c.blockBusy a.toNat (c.packLanes r.2.1) = false →
    ∃ t, exec (r.1 h d a) s = .next t ∧ c.WroteV (fun _ => d.toNat) (fun l => BitVec.ofNat 32
      ((List.range r.2.1).foldl (fun n i => n + c.codeOf a r.2.2 (r.2.1 * (l % (c.g.w / r.2.1)) + i) * 2 ^ (r.2.2 * i)) 0)) 0 t

/-- R83, R87, R88, R89, R85: rounding is correct in every format and mode: a nonzero exact number within the finite range of the format rounds
to the code that the mode asks for, keeps its sign, sets NX exactly when the result differs from it, and sets none of OF, DZ and NV; UF is
set only with NX. A code that a format holds is not changed by rounding to that format, whatever the mode, and sets no flag; a conversion
from a narrower floating-point format to f32 is exact, gives the canonical NaN for every NaN and keeps an infinity. The e8m0 scale of a
block is the power of two with the smallest exponent from −127 to 127 that keeps every magnitude within 6, and its code is that exponent
plus 127; a ue4m3 scale is the smallest that keeps them within the bound, or 448. Of QB each code is the nearest e2m1 code, or the special
where that is strictly nearer, the special being the e4m3 code nearest to the first element of the largest error; QE's codes are the nearest
e4m3 codes. A sum of R90 takes its chunks in order: each is summed exactly, rounded to nearest, and added with one rounding; one of R91
saturates. -/
def Obligations.RoundingAndScalesAreCorrect : Prop :=
  ((∀ f ∈ Fmt.all, ∀ rm sat n (m : Nat) e, 0 < m → Dy.le ⟨m, e⟩ (f.num f.maxCode) = true →
    let r := f.rnd rm sat (.fin n m e)
    f.RoundsTo rm (FVal.fin n m e).dy r.1 ∧ (r.1 / 2 ^ f.magBits % 2 = 1 ↔ n = true) ∧
    (r.2.getLsbD 4 = true ↔ ((FVal.fin n m e).dy.dist (f.num r.1)).n ≠ 0) ∧ r.2 &&& 0b00111 = 0 ∧ (r.2.getLsbD 3 = true → r.2.getLsbD 4 = true)) ∧
  ((∀ f ∈ Fmt.all, ∀ rm c, f.Finite c → f.rnd rm false (f.dec c) = (c, 0)) ∧
  ∀ f ∈ Fmt.all, ∀ rm c, c < 2 ^ (f.magBits + 1) →
    (f.Finite c → (widen f rm c).2 = 0 ∧ (Dy.dist (Fmt.f32.num (widen f rm c).1.toNat) (f.num c)).n = 0 ∧
      (Fmt.f32.dec (widen f rm c).1.toNat).neg? = (f.dec c).neg?) ∧
    ((f.dec c).isNan = true → (widen f rm c).1 = 0x7FC00000) ∧
    (∀ n, f.dec c = .inf n → widen f rm c = (if n then 0xFF800000 else 0x7F800000, 0)))) ∧
  ((∀ (bound n d : Nat), 0 < bound → 0 < d → 0 < n →
    ∃ e : Int, -127 ≤ e ∧ e ≤ 127 ∧ (blockScale bound 0 ⟨n, d⟩).2 = (e + 127).toNat ∧ (blockScale bound 0 ⟨n, d⟩).1 = Q.ofDy ⟨1, e⟩ ∧
      (∀ k : Int, -127 ≤ k → k < e → (Q.scale bound (Q.ofDy ⟨1, k⟩)).lt ⟨n, d⟩ = true) ∧
      ((Q.scale bound (Q.ofDy ⟨1, 127⟩)).lt ⟨n, d⟩ = false → (Q.scale bound (Q.ofDy ⟨1, e⟩)).lt ⟨n, d⟩ = false)) ∧
  (∀ (bound n d : Nat), 0 < bound → 0 < d → 0 < n →
    ∃ c ≤ 126, blockScale bound 1 ⟨n, d⟩ = (e4m3Q c, c) ∧ (∀ k < c, (Q.scale bound (e4m3Q k)).lt ⟨n, d⟩ = true) ∧
      (c < 126 → (Q.scale bound (e4m3Q c)).lt ⟨n, d⟩ = false)) ∧
  (∀ vs : List Word, (∀ w ∈ vs, ∀ n m e, blockVal w = .fin n m e → (blockMax (vs.map blockVal)).lt (Q.ofDy ⟨m, e⟩) = false) ∧
    ((∃ w ∈ vs, ∃ n m e, blockVal w = .fin n m e ∧ (blockMax (vs.map blockVal)).same (Q.ofDy ⟨m, e⟩) = true) ∨ blockMax (vs.map blockVal) = ⟨0, 1⟩)) ∧
  (∀ (vs : List Word) (fmt : Nat), fmt < 2 →
    let k := quantQB vs fmt
    let sc := blockScale 6 fmt (blockMax (vs.map blockVal))
    let spc := k.header / 256
    k.header % 256 = sc.2 ∧ k.codes.length = vs.length ∧ spc ≠ 128 ∧
    (∀ i w, vs[i]? = some w →
      let c := k.codes.getD i 0
      let q := quotient sc.1 w
      match blockVal w with
      | .nan _ => c = 0
      | .inf n => c = if n then 15 else 7
      | .fin .. => (c ≠ 8 → q.Nearest e2m1Codes e2m1Q c ∧ (q.dist (e4m3Q spc)).lt (q.dist (e2m1Q c)) = false) ∧
          (c = 8 → ∀ x ∈ e2m1Codes, (q.dist (e4m3Q spc)).lt (q.dist (e2m1Q x)) = true)) ∧
    ∃ err : Nat → Q, (∀ i w, vs[i]? = some w → (blockVal w).Fin → ∃ x, (quotient sc.1 w).Nearest e2m1Codes e2m1Q x ∧ err i = (quotient sc.1 w).dist (e2m1Q x)) ∧
      ((∀ i w, vs[i]? = some w → (blockVal w).Fin → (err i).n = 0) → spc = 0) ∧
      ∀ j w, vs[j]? = some w → (blockVal w).Fin → (err j).n ≠ 0 → (∀ i v, vs[i]? = some v → (blockVal v).Fin → (err j).lt (err i) = false ∧ (i < j → (err i).lt (err j) = true)) →
        (quotient sc.1 w).Nearest e4m3Codes e4m3Q spc) ∧
  (∀ (vs : List Word) (fmt : Nat), fmt < 2 →
    let k := quantQE vs fmt
    let sc := blockScale 448 fmt (blockMax (vs.map blockVal))
    k.header = sc.2 ∧ k.codes.length = vs.length ∧ ∀ i w, vs[i]? = some w →
      match blockVal w with
      | .nan _ => k.codes.getD i 0 = 0x7F
      | .inf n => k.codes.getD i 0 = if n then 0xFE else 0x7E
      | .fin .. => (quotient sc.1 w).Nearest e4m3Codes e4m3Q (k.codes.getD i 0)) ∧
  (∀ (acc : Word) (ps : List FVal), Fmt.f32.Finite acc.toNat → (∀ p ∈ ps, p.Fin) → Dy.le (sumOf ps).mag (Fmt.f32.num Fmt.f32.maxCode) = true →
    ∃ t, Fmt.f32.RoundsTo .rne (sumOf ps) t ∧
      (Dy.le ((Fmt.f32.num acc.toNat).add (Fmt.f32.num t)).mag (Fmt.f32.num Fmt.f32.maxCode) = true →
        Fmt.f32.RoundsTo .rne ((Fmt.f32.num acc.toNat).add (Fmt.f32.num t)) (chunkF32 acc ps).1.toNat)) ∧
  (∀ (acc : Word) (ps : List FVal), ((Fmt.f32.dec acc.toNat).isNan = true ∨ (∃ p ∈ ps, p.isNan = true) ∨ (FVal.inf true ∈ ps ∧ FVal.inf false ∈ ps) →
      (chunkF32 acc ps).1 = 0x7FC00000) ∧
    ∀ n, FVal.inf n ∈ ps → FVal.inf (!n) ∉ ps → (∀ p ∈ ps, p.isNan = false) → (Fmt.f32.dec acc.toNat).isNan = false →
      (chunkF32 acc ps).1 = if Fmt.f32.dec acc.toNat = .inf (!n) then 0x7FC00000 else if n then 0xFF800000 else 0x7F800000) ∧
  (∀ (acc : Word) (ps : List Int), (chunkI32 acc ps).1 = BitVec.ofInt 32 (clamp (-(2 ^ 31)) (2 ^ 31 - 1) (acc.toInt + ps.sum))) ∧
  ∀ (ints : Bool) (l : Nat) (acc : Word) (a b : List FVal) (x y : List Int), 0 < l → a.length ≤ 64 → b.length = a.length → x.length = a.length → y.length = a.length →
    (mmaElem ints l acc a b x y).1 =
      if a = [] then acc
      else (mmaElem ints l (if ints then (chunkI32 acc (((x.zip y).take l).map (fun p => p.1 * p.2))).1
        else (chunkF32 acc (((a.zip b).take l).map (fun p => (p.1.mul p.2).1))).1) (a.drop l) (b.drop l) (x.drop l) (y.drop l)).1)

/-! ## Control, calls, barriers, votes and the regroup (R198 to R233) -/

/-- R51, R201: the context in which a word executes: the lanes of its path are past the word, a lane is active when its guard predicate is set,
or clear for a negated guard, and every lane of the path is active without a guard; the rest of the machine is as it was. A word with no
active lane executes and does nothing but leave its path past it, whatever it would stall on; shp.sq and shp.exp alone act whatever the
guard (R247). -/
def Obligations.WordContext : Prop :=
  (∀ (i : Instr) (s : State) (c : Ctx), (encode i).isSome = true → (∀ h d, i ≠ .shpSq h d ∧ i ≠ .shpExp h d) → s.ctx? i.head = some c → c.act = 0 →
    exec i s = .next c.s) ∧
  ∀ (s : State) (h : Head) (cu : Cur) (g : Group), s.cur = some cu → s.group? cu.core cu.slot = some g → g.lanes.length = g.w → g.w ≤ 64 →
    ∃ c, s.ctx? h = some c ∧ c.s0 = s ∧ c.pc = cu.pc ∧ c.path = cu.path ∧ OnlyGroup s c.s cu.core cu.slot ∧ c.s.group? cu.core cu.slot = some c.g ∧
      c.g = { g with lanes := c.g.lanes } ∧
      (∀ l ∈ List.range g.w, c.g.lane l = if cu.path.has l then { g.lane l with pc := cu.pc + 4 } else g.lane l) ∧
      ∀ l ∈ List.range g.w, c.act.has l = (cu.path.has l && match h.guard with | none => true | some gd => (g.lane l).preds.getLsbD gd.pred.toNat != gd.sense)

/-- R217 to R220, R421: nop, wait at its limits, the branches, jmp and ctl.jr complete, and move the lanes they name to the target: br.lane the
active lanes, br.all the path when every lane of it is active, br.any and jmp the path; each address counts words from the packet of the
branch. -/
def Obligations.BranchResults : Prop :=
  (∀ h s c, Executes (.nop h) h .none 0 s c → ∃ t, exec (.nop h) s = .next t ∧ c.Stays t) ∧
  (∀ h l p k m s c, Executes (.wait h l p k m) h .none 0 s c → (∀ x ∈ [(c.g.ld, l), (c.g.st, p), (c.g.cp, k), (c.g.tl, m)], x.2.toNat = 15 ∨ x.1 ≤ x.2.toNat) →
    (l = 0 ∧ p = 0 ∧ k = 0 ∧ m = 0 → c.g.heldFault = none) → ∃ t, exec (.wait h l p k m) s = .next t ∧ c.Stays t) ∧
  (∀ h o s c, Executes (.brLane h o) h .none 0 s c → ∃ t, exec (.brLane h o) s = .next t ∧
    c.Moved (fun l => if c.act.has l then some (packetOf c.pc + BitVec.ofInt 64 (4 * o.toInt)) else none) t) ∧
  (∀ h o s c, Executes (.brAll h o) h .none 0 s c → ∃ t, exec (.brAll h o) s = .next t ∧
    c.Moved (fun l => if c.act = c.path ∧ c.path.has l = true then some (packetOf c.pc + BitVec.ofInt 64 (4 * o.toInt)) else none) t) ∧
  (∀ h o s c, Executes (.brAny h o) h .none 0 s c → ∃ t, exec (.brAny h o) s = .next t ∧
    c.Moved (fun l => if c.path.has l then some (packetOf c.pc + BitVec.ofInt 64 (4 * o.toInt)) else none) t) ∧
  (∀ ch o s c, Executes (.jmp ch o) ⟨ch, none⟩ .none 0 s c → ∃ t, exec (.jmp ch o) s = .next t ∧
    c.Moved (fun l => if c.path.has l then some (packetOf c.pc + BitVec.ofInt 64 (4 * o.toInt)) else none) t) ∧
  (∀ h a s c, Executes (.ctlJr h a) h .none 0 s c → (∀ l ∈ c.act.list c.g.w, GoodTarget (c.up a l)) → ∃ t, exec (.ctlJr h a) s = .next t ∧
    c.Moved (fun l => if c.act.has l then some (c.up a l) else none) t) ∧
  ∀ h d s c, Executes (.ctlPc h d) h .none 0 s c → ∃ t, exec (.ctlPc h d) s = .next t ∧ c.WroteU d.toNat (fun _ => halves c.pc) t

/-- R217, R218, R339: ctl.exit with every counter at zero and no fault held ends its active lanes and no other; with a fault held it, and wait
0, 0, 0, 0, take that fault instead, ctl.exit to execute again. A word of either whose counters are above its limits leaves the machine as
it is, unless earlier words of its chain have executed, with which it issued (log 3). -/
def Obligations.ExitAndExceptionFence : Prop :=
  (∀ h s c, Executes (.ctlExit h) h .none 0 s c → c.g.ld = 0 → c.g.st = 0 → c.g.cp = 0 → c.g.tl = 0 → c.g.heldFault = none →
    c.retBusy Frame.depth 0 = false →
    c.Free (c.g.unwinds (c.frames.filter (fun x => x.1.depth ≠ 0)) Frame.depth 0).2 0 →
    ∃ t g', exec (.ctlExit h) s = .next t ∧ OnlyGroup s t c.core c.slot ∧ t.group? c.core c.slot = some g' ∧
      ∀ l ∈ List.range c.g.w, g'.lane l = if c.act.has l
        then { c.g.lane l with run := .exited, fd := 0, deferred := [], pc := (g'.lane l).pc, frame := (g'.lane l).frame } else c.g.lane l) ∧
  (∀ h s c x, Executes (.ctlExit h) h .none 0 s c → c.g.ld = 0 → c.g.st = 0 → c.g.cp = 0 → c.g.tl = 0 → c.g.heldFault = some x →
    c.retBusy Frame.depth 0 = false → exec (.ctlExit h) s = .next (c.takeHeld x c.pc)) ∧
  (∀ h s c x, Executes (.wait h 0 0 0 0) h .none 0 s c → c.g.ld = 0 → c.g.st = 0 → c.g.cp = 0 → c.g.tl = 0 → c.g.heldFault = some x →
    exec (.wait h 0 0 0 0) s = .next (c.takeHeld x (c.pc + 4))) ∧
  (∀ h s c, Executes (.ctlExit h) h .none 0 s c → c.mid = false → ¬(c.g.ld = 0 ∧ c.g.st = 0 ∧ c.g.cp = 0 ∧ c.g.tl = 0) → exec (.ctlExit h) s = .next s) ∧
  ∀ h l p k m s c, Executes (.wait h l p k m) h .none 0 s c → c.mid = false → (∃ x ∈ [(c.g.ld, l), (c.g.st, p), (c.g.cp, k), (c.g.tl, m)], x.2.toNat ≠ 15 ∧ x.2.toNat < x.1) →
    exec (.wait h l p k m) s = .next s

/-- R74, R221 to R223, R421, R422: call and callp complete when every active lane is below FD 255, NA is within both frames, rows and tag quads
are free, no request of the core waits for its grant and, for call, the target is good: each frame's active lanes enter a frame of their
own. The caller's frame keeps its uniform registers and its registers from NA on, and the frames beneath keep theirs. -/
def Obligations.CallResults : Prop :=
  (∀ h a v n x s c, Executes (.call h a v n x) h .none 0 s c → c.callBounds (v.toNat + 1) x.toNat = [] → c.argsBusy x.toNat = false →
    (∀ l ∈ c.act.list c.g.w, (c.g.lane l).fd < 255 ∧ GoodTarget (c.up a l)) → c.frames.length ≤ c.s.freeRows c.core →
    c.frames.length * ((v.toNat + 4) / 4) ≤ c.s.freeQuads c.core → (∀ r ∈ (c.s.core c.core).requests, r.granted = true) →
    ∃ t g', exec (.call h a v n x) s = .next t ∧ c.Called (v.toNat + 1) n.toNat x.toNat (fun l => c.up a l) t g') ∧
  ∀ ch v n x o s c, Executes (.callp ch v n x o) ⟨ch, none⟩ .none 0 s c → c.callBounds (v.toNat + 1) x.toNat = [] → c.argsBusy x.toNat = false →
    (∀ l ∈ c.act.list c.g.w, (c.g.lane l).fd < 255) →
    c.frames.length ≤ c.s.freeRows c.core → c.frames.length * ((v.toNat + 4) / 4) ≤ c.s.freeQuads c.core →
    (∀ r ∈ (c.s.core c.core).requests, r.granted = true) →
    ∃ t g', exec (.callp ch v n x o) s = .next t ∧ c.Called (v.toNat + 1) n.toNat x.toNat (fun _ => packetOf c.pc + BitVec.ofInt 64 (4 * o.toInt)) t g'

/-- R76, R77, R225: ret.pop, ret.unwind and ret.unwindr complete when the frames they leave exist, the lower frame has room for the values and
no register of theirs is in use: the active lanes stand in the lower frame at the return PC; and, when no frame left is a handler's, the
values are passed and nothing but the group changes. -/
def Obligations.ReturnResults : Prop :=
  ∀ (i : Instr) (h : Head) (k : Frame → Nat) (nb : BitVec 6) (s : State) (c : Ctx),
    ((i = .retPop h nb ∧ ∀ f, k f = 1) ∨ (∃ d, i = .retUnwind h d nb ∧ ∀ f, k f = d.toNat) ∨ (∃ a, i = .retUnwindr h a nb ∧ ∀ f, k f = (f.U a.toNat).toNat)) →
    Executes i h .none 0 s c → c.countBounds (match i with | .retPop .. => true | _ => false) nb.toNat = [] → c.retBusy k nb.toNat = false →
    (∀ l ∈ c.act.list c.g.w, c.Returns (k (c.g.frm l)) nb.toNat l) →
    (∀ l ∈ c.act.list c.g.w, c.retFault k nb.toNat (match i with | .retPop .. => true | _ => false) l = none) →
    c.Free (c.g.unwinds c.frames k nb.toNat).2 0 →
    ∃ t g', exec i s = .next t ∧ c.Returned (fun l => k (c.g.frm l)) t g' ∧
      ((∀ l ∈ c.act.list c.g.w, ∀ f ∈ (c.g.popped l (k (c.g.frm l))).1, f.handler = none) → OnlyGroup s t c.core c.slot ∧ c.ReturnedValues (fun l => k (c.g.frm l)) nb.toNat g')

/-- R54, R226, R227, R349: the barrier words complete inside a launch that has barriers: bar.team, bar.twin, the named barriers and bar.grid. A
barrier word outside the launches it is for raises priv (0x12) in its active lanes, and nothing of the barrier takes place. -/
def Obligations.BarrierResultsAndTraps : Prop :=
  ((∀ h s c, Executes (.barTeam h) h .sync 0 s c → c.barFaults 0 = [] → ∃ t g', exec (.barTeam h) s = .next t ∧ c.Arrived 0 true 0 t g') ∧
  (∀ h s c, Executes (.barTwin h) h .sync 0 s c → c.barFaults 1 = [] → ∃ t g', exec (.barTwin h) s = .next t ∧ c.Arrived 1 true 0 t g') ∧
  (∀ h a n s c, Executes (.barNwait h a n) h .sync 0 s c → c.barFaults (2 + n.toNat) = [] → ∃ t g', exec (.barNwait h a n) s = .next t ∧
    c.Arrived (2 + n.toNat) true (c.barCount a.toNat) t g') ∧
  (∀ h a n s c, Executes (.barNarrive h a n) h .sync 0 s c → c.barFaults (2 + n.toNat) = [] → ∃ t g', exec (.barNarrive h a n) s = .next t ∧
    c.Arrived (2 + n.toNat) false (c.barCount a.toNat) t g') ∧
  ∀ h s c, Executes (.barGrid h) h .sync 0 s c → c.barFaults 18 = [] → ∃ t g', exec (.barGrid h) s = .next t ∧ c.Arrived 18 true 0 t g') ∧
  (∀ (i : Instr) (h : Head) (bar : Nat) (s : State) (c : Ctx) (gr : Grid),
    ((i = .barTeam h ∧ bar = 0) ∨ (i = .barTwin h ∧ bar = 1) ∨ (∃ a n, i = .barNwait h a n ∧ bar = 2 + n.toNat) ∨
      (∃ a n, i = .barNarrive h a n ∧ bar = 2 + n.toNat) ∨ (i = .barGrid h ∧ bar = 18)) →
    Executes i h .sync 0 s c → s.grid? c.g.grid = some gr → (if bar = 18 then gr.record.resident else gr.record.barrier) = false →
    exec i s = .next (c.s.raisePrecise c.core c.slot c.pc c.pc ((c.act.list c.g.w).map (fun l => (l, 0x12, 0, 0)))))

/-- R53 to R57, R350: the arrival of a barrier whose release has completed is taken away: its group arrives for its lanes' phase, the first
arrival of a named phase names its count, its held lanes wait at the barrier, or run on when the word only arrives or, behind an acquire,
when their phase was released meanwhile; then every phase that is complete is released. A phase is complete when the groups that have exited
or have arrived for it or a later one are as many as its barrier asks, at least one of them having arrived (log 23). A phase released raises
TP by one, and the lanes that wait for it run behind an acquire. An arrival whose release has not completed changes nothing. Another
device's report of its arrivals for a phase of a pod grid's barrier is kept, and every phase of that barrier that is complete is released. -/
def Obligations.BarrierArrivalResults : Prop :=
  (∀ (s : State) (core slot bar : Nat) (g : Group) (a : Arrival), s.group? core slot = some g → g.lanes.length = g.w → g.w ≤ 64 →
    g.arrivals.find? (fun a => a.bar == bar && !s.markPending a.mark) = some a →
    let tp := s.barTP g.grid g.team bar
    let phase (l : Nat) : Half := (g.lane l).phases.getD bar 0
    let Held (l : Nat) : Prop := l < g.w ∧ a.lanes.has l = true ∧ (g.lane l).run = .held
    let Ahead (x : Half) : Prop := 0 < (x - tp).toInt
    ∃ (s1 : State) (g' : Group), exec (.barrierArrival core slot (bar, none)) s = .next (s1.releasePhases g.grid g.team bar 64) ∧
      s1 = { s with groups := s1.groups, teams := s1.teams, stamp := s.stamp + 1 } ∧ s1.group? core slot = some g' ∧
      (∀ j k, ¬(j = core ∧ k = slot) → s1.group? j k = s.group? j k) ∧
      g' = { g with
        lanes := g'.lanes, arrivals := g.arrivals.erase a, gp := g'.gp, arrivedAt := g'.arrivedAt, twinCopies := g'.twinCopies, holds := g'.holds
        nextId := g'.nextId } ∧
      (∀ l ∈ List.range g.w, (Held l → g'.lane l = { g.lane l with run := (g'.lane l).run } ∧ (a.waits = true ∧ Ahead (phase l) → (g'.lane l).run = .barrier bar (phase l)) ∧
        (¬(a.waits = true ∧ Ahead (phase l)) → (g'.lane l).run = .running)) ∧ (¬Held l → g'.lane l = g.lane l)) ∧
      (∀ k, k ≠ bar → g'.gp.getD k 0 = g.gp.getD k 0) ∧
      (∀ ph, (∃ l, Held l ∧ Ahead (phase l)) → (∀ l, Held l → Ahead (phase l) → phase l = ph) → g'.gp = g.gp.set bar ph ∧
        (ph ≠ g.gp.getD bar 0 → g'.arrivedAt = g.arrivedAt.set bar s.stamp ∧ (bar = 1 → g'.twinCopies = s.copiesOf core slot))) ∧
      ((∀ l, Held l → ¬Ahead (phase l)) → g'.gp = g.gp ∧ g'.arrivedAt = g.arrivedAt ∧ g'.twinCopies = g.twinCopies) ∧
      ((∃ l, Held l ∧ ¬Ahead (phase l)) → ∃ h, g'.holds = g.holds ++ [h] ∧ ∀ l, h.lanes.has l = true ↔ Held l ∧ ¬Ahead (phase l)) ∧
      ((∀ l, Held l → Ahead (phase l)) → g'.holds = g.holds) ∧
      ∀ gd k, (gd = g.grid ∧ k = g.team ∧ 2 ≤ bar ∧ bar ≤ 17 ∧ (∃ l, Held l ∧ Ahead (phase l) ∧ phase l ≠ g.gp.getD bar 0) ∧
          (∀ x ∈ s.groups, x.grid = g.grid → x.team = g.team → ¬Ahead (x.gp.getD bar 0)) →
          s1.team? gd k = (s.team? gd k).map (fun t => { t with ncnt := t.ncnt.set (bar - 2) a.count })) ∧
        (¬(gd = g.grid ∧ k = g.team ∧ 2 ≤ bar ∧ bar ≤ 17 ∧ (∃ l, Held l ∧ Ahead (phase l) ∧ phase l ≠ g.gp.getD bar 0) ∧
          (∀ x ∈ s.groups, x.grid = g.grid → x.team = g.team → ¬Ahead (x.gp.getD bar 0))) → s1.team? gd k = s.team? gd k)) ∧
  (∀ (s : State) (core slot bar : Nat) (g : Group), s.group? core slot = some g →
    (∀ a ∈ g.arrivals, a.bar = bar → s.markPending a.mark = true) → exec (.barrierArrival core slot (bar, none)) s = .next s) ∧
  (∀ (s : State) (core slot bar dev : Nat) (grid : Word) (phase : Half), ∃ s1 : State, s1 = { s with grids := s1.grids } ∧
    exec (.barrierArrival core slot (bar, some (grid, dev, phase))) s = .next (s1.releasePhases grid 0 18 64) ∧
    s1.grids.map Grid.num = s.grids.map Grid.num ∧ ∀ gr, s.grid? grid = some gr → ∃ gr', s1.grid? grid = some gr' ∧ (dev, phase) ∈ gr'.arrivedDevs ∧
      gr' = { gr with arrivedDevs := gr'.arrivedDevs } ∧ ∀ x ∈ gr.arrivedDevs, x ∈ gr'.arrivedDevs) ∧
  (∀ (s : State) (grid : Word) (team bar n : Nat), (s.PhaseDone grid team bar → s.releasePhases grid team bar (n + 1) = (s.releasePhase grid team bar).releasePhases grid team bar n) ∧
    (¬s.PhaseDone grid team bar → s.releasePhases grid team bar n = s)) ∧
  ∀ (s : State) (grid : Word) (team : Nat) (gr : Grid) (tm : Team) (bar : Nat), s.grid? grid = some gr → s.team? grid team = some tm →
    (bar < tm.tp.length ∧ bar < 18 ∨ bar = 18) → (s.groups.map (fun x => (x.core, x.slot))).Nodup →
    let t := s.releasePhase grid team bar
    t = { s with groups := t.groups, teams := t.teams, grids := t.grids } ∧ t.barTP grid team bar = s.barTP grid team bar + 1 ∧
    (∀ gd k b, ¬(gd = grid ∧ b = bar ∧ (bar = 18 ∨ k = team)) → t.barTP gd k b = s.barTP gd k b) ∧
    ∀ (core slot : Nat) (g : Group), s.group? core slot = some g → g.lanes.length = g.w → g.w ≤ 64 →
      let Waits (l : Nat) : Prop := l < g.w ∧ (g.lane l).run = .barrier bar (s.barTP grid team bar + 1)
      (¬(g.grid = grid ∧ (bar = 18 ∨ g.team = team)) → t.group? core slot = some g) ∧
      (g.grid = grid → (bar = 18 ∨ g.team = team) → ∃ g', t.group? core slot = some g' ∧
        g' = { g with lanes := g'.lanes, holds := g'.holds, nextId := g'.nextId, rank := g'.rank } ∧ (1 < bar → g'.rank = g.rank) ∧
        (∀ l ∈ List.range g.w, (Waits l → g'.lane l = { g.lane l with run := .running }) ∧ (¬Waits l → g'.lane l = g.lane l)) ∧
        ((∃ l, Waits l) → ∃ h, g'.holds = g.holds ++ [h] ∧ ∀ l, h.lanes.has l = true ↔ Waits l) ∧ ((∀ l, ¬Waits l) → g'.holds = g.holds))

/-- R230: the vote words complete: ballot, popc, first and act give each frame of the path the votes of its own active lanes; any and all
combine every active lane; peers and rank count the active lanes with the lane's value, all of them or those below it, into a register of
shape G. -/
def Obligations.VoteResults : Prop :=
  (∀ h d a s c, Executes (.voteBallot h d a) h .none 0 s c → ∃ t, ∃ val : Nat → DWord, exec (.voteBallot h d a) s = .next t ∧ c.WroteU d.toNat (fun l => halves (val l)) t ∧
    ∀ l k, k < 64 → (val l).getLsbD k = (decide (k ∈ c.act.list c.g.w) && decide ((c.g.lane k).frame = (c.g.lane l).frame) && c.p a k)) ∧
  (∀ h d a s c, d.toNat < 16 → Executes (.voteAny h d a) h .none 0 s c → ∃ t, exec (.voteAny h d a) s = .next t ∧
    c.WroteP d.toNat (fun _ => (c.act.list c.g.w).any (c.p a)) 0 t) ∧
  (∀ h d a s c, d.toNat < 16 → Executes (.voteAll h d a) h .none 0 s c → ∃ t, exec (.voteAll h d a) s = .next t ∧
    c.WroteP d.toNat (fun _ => (c.act.list c.g.w).all (c.p a)) 0 t) ∧
  (∀ h d a s c, Executes (.votePopc h d a) h .none 0 s c → ∃ t, exec (.votePopc h d a) s = .next t ∧
    c.WroteU d.toNat (fun l => [BitVec.ofNat 32 (((c.mates l).list c.g.w).filter (c.p a)).length]) t) ∧
  (∀ h d a s c, Executes (.voteFirst h d a) h .none 0 s c → ∃ t, exec (.voteFirst h d a) s = .next t ∧
    c.WroteU d.toNat (fun l => [match ((c.mates l).list c.g.w).find? (c.p a) with | some k => BitVec.ofNat 32 k | none => 0xFFFFFFFF]) t) ∧
  (∀ h d a s c, Executes (.votePeers h d a) h .none 1 s c → ∃ t, exec (.votePeers h d a) s = .next t ∧
    c.WroteV (fun _ => d.toNat) (fun l => BitVec.ofNat 32 ((c.act.list c.g.w).filter (fun k => c.v a k == c.v a l)).length) 0 t ∧ c.InG d.toNat t) ∧
  (∀ h d a s c, Executes (.voteRank h d a) h .none 1 s c → ∃ t, exec (.voteRank h d a) s = .next t ∧
    c.WroteV (fun _ => d.toNat) (fun l => BitVec.ofNat 32 ((c.act.list c.g.w).filter (fun k => c.v a k == c.v a l && decide (k < l))).length) 0 t ∧ c.InG d.toNat t) ∧
  ∀ h d s c, Executes (.voteAct h d) h .none 0 s c → ∃ t, ∃ val : Nat → DWord, exec (.voteAct h d) s = .next t ∧ c.WroteU d.toNat (fun l => halves (val l)) t ∧
    ∀ l k, k < 64 → (val l).getLsbD k = (decide (k ∈ c.act.list c.g.w) && decide ((c.g.lane k).frame = (c.g.lane l).frame))

/-- R61, R63, R232: grp.sort completes, with every counter at zero, in a launch with barriers and with no active lane in a called frame: its
active lanes wait at the word, with a release under way. R62: once every live lane of the team waits at one grp.sort and the releases have
completed, and no register that it needs is spilled and there are rows, the regroup packs the threads, in ascending order of key and then of
team index: with lanes W to a group, thread j stands in lane j mod W of the team's group j div W of those that had not exited, in ascending
%gix, keeps its indices, phases, predicates and first n registers, and runs on at the next word behind an acquire; every lane past the last
thread, so every lane of an emptied group, has exited; the n registers moved are of shape G where a thread stands, every other vector
register is U 0, also in the groups that had exited before; uniform registers, tiles, accumulators and all else of each group, and every
other group, stay. -/
def Obligations.RegroupResults : Prop :=
  (∀ h d n s c, Executes (.grpSort h d n) h .sync 0 s c → c.sortBounds d.toNat n.toNat = [] → c.sortFaults = [] →
    c.g.ld = 0 → c.g.st = 0 → c.g.cp = 0 → c.g.tl = 0 →
    ∃ t g', exec (.grpSort h d n) s = .next t ∧ OnlyIssue s t c.core c.slot ∧ t.group? c.core c.slot = some g' ∧
      g' = { c.g with lanes := g'.lanes, ops := g'.ops, arrivals := g'.arrivals, nextId := g'.nextId } ∧
      (∀ l ∈ List.range c.g.w, g'.lane l = if c.act.has l then { c.g.lane l with run := .regroup c.pc d.toNat n.toNat } else c.g.lane l) ∧
      ∃ a o, g'.arrivals = c.g.arrivals ++ [a] ∧ a.bar = 19 ∧ a.lanes = c.act ∧ g'.ops = c.g.ops ++ [o] ∧ o.kind = .marker ∧ o.rel = some a.mark ∧
        o.scope = c.s.barScope c.g.grid c.g.team 0) ∧
  ∀ (s : State) (grid : Word) (team w : Nat) (pc : DWord) (d n : Nat),
    (s.groups.map (fun x => (x.core, x.slot))).Nodup → (∀ g ∈ s.groups, g.Wf ∧ g.Owned ∧ g.gix < 256) →
    (∀ g ∈ s.groups, ∀ k ∈ s.groups, g.grid = grid → k.grid = grid → g.team = team → k.team = team → g.gix = k.gix → g = k) →
    (∀ g ∈ s.groupsInTeam grid team, g.w = w ∧ (∃ f ∈ g.frames, f.depth = 0 ∧ d < f.nv ∧ n ≤ f.nv ∧ ∀ l ∈ g.live.list g.w, (g.lane l).frame = f.id) ∧
      (g.frames.filter (fun f => f.depth == 0)).length = 1) →
    (∀ g ∈ s.groupsInTeam grid team, (∀ f ∈ g.frames, Tag.spilled ∉ f.v) ∧ (s.core g.core).earlier g.slot pc g.live = []) →
    s.groupsInTeam grid team ≠ [] →
    (∀ g ∈ s.groupsInTeam grid team, (∀ l ∈ g.live.list g.w, (g.lane l).run = .regroup pc d n) ∧ ∀ a ∈ g.arrivals, a.bar = 19 → s.markPending a.mark = false) →
    (∀ g ∈ s.groupsInTeam grid team, (s.groupsInTeam grid team).length * n * g.perReg ≤ s.freeRows g.core) →
    ∃ t order, exec (.regroup grid team) s = .next t ∧ (keyed (s.groupsInTeam grid team) d n).Perm order ∧
      order.Pairwise (fun x y => x.1 < y.1 ∨ x.1 = y.1 ∧ x.2.1 ≤ y.2.1) ∧
      t = { s with groups := t.groups, cores := t.cores } ∧ (∀ k, t.core k = { s.core k with requests := (t.core k).requests }) ∧
      (∀ j k g, s.group? j k = some g → ¬(g.grid = grid ∧ g.team = team) → t.group? j k = some g) ∧
      (∀ j k g, s.group? j k = some g → g.grid = grid → g.team = team → g.exited = true → ∃ g', t.group? j k = some g' ∧
        g' = { g with frames := g'.frames, sets := [] } ∧ g'.frames = g.frames.map (fun f => { f with v := List.replicate f.v.length (.u 0) })) ∧
      ∀ i g, (s.groupsInTeam grid team)[i]? = some g → ∃ g' f f', t.group? g.core g.slot = some g' ∧
        g' = { g with lanes := g'.lanes, frames := [f'], sets := g'.sets, arrivals := g.arrivals.filter (fun a => a.bar != 19), holds := g'.holds, nextId := g'.nextId } ∧
        f ∈ g.frames ∧ f.depth = 0 ∧ f' = { f with v := f'.v, owners := f'.owners } ∧ (∀ l < w, f'.owners.has l = decide (w * i + l < order.length)) ∧
        (∀ r < f.nv, if r < n ∧ w * i < order.length then ∃ m, f'.tag r = .g m else f'.tag r = .u 0) ∧
        (∀ l < w, match order[w * i + l]? with
          | some x => threadOf g' n l = x.2 ∧ (g'.lane l).run = .running ∧ (g'.lane l).pc = pc + 4 ∧ (g'.lane l).fd = 0 ∧ (g'.lane l).frame = f.id
          | none => g'.lane l = if (g.lane l).run = .absent then g.lane l else { g.lane l with run := .exited }) ∧
        (w * i < order.length → ∃ h, g'.holds = g.holds ++ [h] ∧ ∀ l, h.lanes.has l = true ↔ l < w ∧ w * i + l < order.length) ∧
        (order.length ≤ w * i → g'.holds = g.holds)

/-! ## Memory words (R265 to R289) -/

/-- R268 to R271: ld, st, ldu and stu complete on aligned addresses when no counter, log entry or request limit holds them: each issues one
access, with a share for each active lane in ascending order, or one for each frame (ldu and stu always, ld when every offset is U), the
data of a store as they stand, and nothing reaches memory yet. -/
def Obligations.LoadAndStoreIssue : Prop :=
  (∀ h d a o z q s c, let va := c.memAddr a (fun l => (c.v o l).toNat)
    Executes (.ld h d a o z q) h (if q = 0 then .load else .acquire) (blk64 z) s c → c.Aligned va (2 ^ z.toNat) →
    c.memStall (c.loadAccess d z q va (fun f => (c.g.readV f o.toNat).isU)) = false →
    ∃ t g', exec (.ld h d a o z q) s = .next t ∧ c.LanesStay g' ∧
      c.Issued ⟨.load, scopeOf q, q != 0, false, .vec d.toNat (blk64 z) (c.frames.all (fun x => (c.g.readV x.1 o.toNat).isU)), true, false, false, false⟩
        (if c.frames.all (fun x => (c.g.readV x.1 o.toNat).isU) then c.perFrame (fun _ m => va (lowest m c.g.w)) (2 ^ z.toNat) (fun _ => [])
         else c.perLane va (2 ^ z.toNat) (fun _ => []) (fun _ => [])) t g') ∧
  (∀ h d a i z q s c, let va := c.memAddr a (fun _ => immOff i (2 ^ z.toNat))
    Executes (.ldImm h d a i z q) h (if q = 0 then .load else .acquire) (blk64 z) s c → c.Aligned va (2 ^ z.toNat) →
    c.memStall (c.loadAccess d z q va (fun _ => true)) = false →
    ∃ t g', exec (.ldImm h d a i z q) s = .next t ∧ c.LanesStay g' ∧
      c.Issued ⟨.load, scopeOf q, q != 0, false, .vec d.toNat (blk64 z) true, true, false, false, false⟩
        (c.perFrame (fun _ m => va (lowest m c.g.w)) (2 ^ z.toNat) (fun _ => [])) t g') ∧
  (∀ h d a o z q s c, let va := c.memAddr a (fun l => (c.v o l).toNat)
    Executes (.st h d a o z q) h (if q = 0 then .store else .release) 0 s c → c.Aligned va (2 ^ z.toNat) →
    c.memStall (c.storeAccess d z q va) = false →
    ∃ t g', exec (.st h d a o z q) s = .next t ∧ c.LanesStay g' ∧ c.Issued ⟨.store, scopeOf q, false, q != 0, .none, false, true, false, false⟩
      (c.perLane va (2 ^ z.toNat) (fun l => natLe (2 ^ z.toNat) (blockNat (fun k => c.g.laneV (d.toNat + k) l) (blk64 z))) (fun _ => [])) t g') ∧
  (∀ h d a i z q s c, let va := c.memAddr a (fun _ => immOff i (2 ^ z.toNat))
    Executes (.stImm h d a i z q) h (if q = 0 then .store else .release) 0 s c → c.Aligned va (2 ^ z.toNat) →
    c.memStall (c.storeAccess d z q va) = false →
    ∃ t g', exec (.stImm h d a i z q) s = .next t ∧ c.LanesStay g' ∧ c.Issued ⟨.store, scopeOf q, false, q != 0, .none, false, true, false, false⟩
      (c.perLane va (2 ^ z.toNat) (fun l => natLe (2 ^ z.toNat) (blockNat (fun k => c.g.laneV (d.toNat + k) l) (blk64 z))) (fun _ => [])) t g') ∧
  ∀ (i : Instr) (h : Head) (d : BitVec 5) (a : BitVec 4) (z q : BitVec 2) (st : Bool) (off : Frame → Nat) (s : State) (c : Ctx),
    ((∃ o, (i = if st then .stu h d a o z q else .ldu h d a o z q) ∧ off = fun f => (f.U o.toNat).toNat) ∨
      ∃ m, (i = if st then .stuImm h d a m z q else .lduImm h d a m z q) ∧ off = fun _ => immOff m (2 ^ z.toNat)) →
    let va := fun (f : Frame) => BitVec.ofNat 64 ((f.UP (2 * a.toNat)).toNat + off f)
    Executes i h (if st then (if q = 0 then .store else .release) else if q = 0 then .load else .acquire) 0 s c →
    (∀ x ∈ c.frames, (va x.1).toNat % 2 ^ z.toNat = 0) →
    c.memStall (if st then c.uniStoreAccess d z q va else c.uniLoadAccess d z q va) = false →
    ∃ t g', exec i s = .next t ∧ c.LanesStay g' ∧
      c.Issued (if st then ⟨.store, scopeOf q, false, q != 0, .none, false, true, false, false⟩ else ⟨.load, scopeOf q, q != 0, false, .uni d.toNat (blk64 z), true, false, false, false⟩)
        (c.perFrame (fun f _ => va f) (2 ^ z.toNat) (fun f => if st then natLe (2 ^ z.toNat) (blockNat (fun k => f.U (d.toNat + k)) (blk64 z)) else [])) t g'

/-- R272 to R275: every form of atm completes, in device memory on aligned addresses, or in the team window or cache region of scratch: one
access, acquire and release for the ar codes, with its operands as read, and the compare operand for cas. -/
def Obligations.AtomicIssue : Prop :=
  ∀ r ∈ atmRows, ∀ (ch : Bool) (d a : BitVec 5) (y : BitVec 3) (q : BitVec 4) (s : State) (c : Ctx),
    let n := if y = 5 then 2 else 4 * atmRegs y
    let scr := q.toNat % 8 == 6
    let va : Nat → DWord := fun l => if scr then (c.g.laneV a.toNat l).setWidth 64 else c.g.laneV (a.toNat + 1) l ++ c.g.laneV a.toNat l
    let opnd : Nat → Nat → List Byte := fun k l => natLe n (blockNat (fun i => c.g.laneV (k + i) l) (atmRegs y))
    Executes (r.1 ch d a y q) ⟨ch, none⟩ .atomic (atmRegs y) s c →
    (scr = false → c.Aligned va n) →
    (scr = true → c.InScratch (fun l => c.g.laneV a.toNat l) n ∧ ∀ l ∈ c.act.list c.g.w, (c.g.laneV a.toNat l).toNat / 2 ^ 30 % 2 = 0) →
    c.memStall (c.atomicAccess d a y q r.2) = false →
    ∃ t g', exec (r.1 ch d a y q) s = .next t ∧ c.LanesStay g' ∧
      c.Issued ⟨.atomic r.2 y.toNat, if scr then 1 else q.toNat % 8 + 1, decide (8 ≤ q.toNat), decide (8 ≤ q.toNat), .vec d.toNat (atmRegs y) false, true, true, scr, false⟩
        (c.perLane va n (fun l => if r.2 = 7 then opnd (d.toNat + atmRegs y) l else opnd d.toNat l) (fun l => if r.2 = 7 then opnd d.toNat l else [])) t g'

/-- R127 to R129, R133, R276: the fences complete: a release fence puts a release marker of its scope into the order of the group's accesses, an
acquire fence holds the later accesses of its lanes, a full fence does both and holds the later loads of its lanes until its marker has gone
through, or, at core scope and below, until the writes that the group's store FIFO held have drained; the parts of the operand-ready fence
act as release and acquire at core scope. -/
def Obligations.FenceResults : Prop :=
  ∀ (i : Instr) (h : Head) (k : Nat) (rel acq opr : Bool) (s : State) (c : Ctx),
    ((∃ x : BitVec 3, i = .fenceRel h x ∧ k = max 1 x.toNat ∧ rel = true ∧ acq = false ∧ opr = false) ∨
     (∃ x : BitVec 3, i = .fenceAcq h x ∧ rel = false ∧ acq = true ∧ opr = false) ∨
     (∃ x : BitVec 3, i = .fenceFull h x ∧ k = max 1 x.toNat ∧ rel = true ∧ acq = true ∧ opr = false) ∨
     (i = .fenceOprRel h ∧ k = 1 ∧ rel = true ∧ acq = false ∧ opr = true) ∨ (i = .fenceOprAcq h ∧ rel = false ∧ acq = true ∧ opr = false)) →
    Executes i h .fence 0 s c →
    ∃ t g', exec i s = .next t ∧ OnlyIssue s t c.core c.slot ∧ t.group? c.core c.slot = some g' ∧
      g' = { c.g with ops := g'.ops, holds := g'.holds, nextId := g'.nextId } ∧
      (rel = false → g'.ops = c.g.ops) ∧ (acq = false → g'.holds = c.g.holds) ∧
      (rel = true → ∃ o m, g'.ops = c.g.ops ++ [o] ∧ o.id = c.g.nextId ∧ o.kind = .marker ∧ o.lanes = c.act ∧ o.scope = k ∧ o.rel = some m ∧ o.acq = opr ∧
        (acq = true → ∃ x, g'.holds = c.g.holds ++ [x] ∧ x.lanes = c.act ∧ x.mark = (if k ≤ 1 then none else some m) ∧
          x.before = if k ≤ 1 then some (c.g.nextId + 1) else none)) ∧
      (rel = false → acq = true → ∃ x, g'.holds = c.g.holds ++ [x] ∧ x.lanes = c.act ∧ x.mark = none ∧ x.before = none)

/-- R100, R278: lds and sts complete when every active lane's scratch address lies in its region and range and is aligned: one access at core
scope, with the keys of the core's own scratchpad. -/
def Obligations.ScratchWordIssue : Prop :=
  (∀ h d a (f : BitVec 3) i s c, let n : Nat := 2 ^ f.toNat
    let sa := fun l => c.v a l + BitVec.ofInt 32 (i.toInt * n)
    Executes (.lds h d a f i) h .load (ldsRegs f) s c → f.toNat ≤ 4 → c.InScratch sa n → c.memStall (c.scratchLoadAccess d a f i) = false →
    ∃ t g', exec (.lds h d a f i) s = .next t ∧ c.LanesStay g' ∧
      c.Issued ⟨.load, 1, false, false, .vec d.toNat (ldsRegs f) (c.frames.all (fun x => (c.g.readV x.1 a.toNat).isU)), true, false, true, false⟩
        (if c.frames.all (fun x => (c.g.readV x.1 a.toNat).isU) then c.perFrame (fun _ m => (sa (lowest m c.g.w)).setWidth 64) n (fun _ => [])
         else c.perLane (fun l => (sa l).setWidth 64) n (fun _ => []) (fun _ => [])) t g') ∧
  ∀ h d a (f : BitVec 3) i s c, let n : Nat := 2 ^ f.toNat
    let sa := fun l => c.v a l + BitVec.ofInt 32 (i.toInt * n)
    Executes (.sts h d a f i) h .store 0 s c → f.toNat ≤ 4 → c.InScratch sa n → c.memStall (c.scratchStoreAccess d a f i) = false →
    ∃ t g', exec (.sts h d a f i) s = .next t ∧ c.LanesStay g' ∧ c.Issued ⟨.store, 1, false, false, .none, false, true, true, false⟩
      (c.perLane (fun l => (sa l).setWidth 64) n (fun l => natLe n (blockNat (fun k => c.g.laneV (d.toNat + k) l) (ldsRegs f))) (fun _ => [])) t g'

/-- R115, R286, R287: wta completes: every active lane leaves the vote, each with its address, compare value and time limit, and one access
reads the words; nothing is waited for yet. -/
def Obligations.WaitAddressIssue : Prop :=
  ∀ h d a b (r z : BitVec 1) (w : BitVec 2) s c, let n := if z = 1 then 8 else 4
    let scr := decide (w = 0)
    let va : Nat → DWord := fun l => if scr then (c.g.laneV a.toNat l).setWidth 64 else c.g.laneV (a.toNat + 1) l ++ c.g.laneV a.toNat l
    let cmp : Nat → Nat := fun l => blockNat (fun k => c.g.laneV (b.toNat + k) l) (blk64w z)
    Executes (.wta h d a b r z w) h (if r = 1 then .acquire else .load) (blk64w z) s c →
    (scr = false → c.Aligned va n) → (scr = true → c.InScratch (fun l => c.g.laneV a.toNat l) n ∧ ∀ l ∈ c.act.list c.g.w, (c.g.laneV a.toNat l).toNat / 2 ^ 30 = 0) →
    c.memStall (c.waitAccess d a b r z w) = false →
    ∃ t g', exec (.wta h d a b r z w) s = .next t ∧
      c.Issued ⟨.load, if w = 0 then 1 else w.toNat + 3, decide (r = 1), false, .wait d.toNat, false, false, scr, false⟩
        (c.perLane va n (fun l => natLe 8 ((c.g.laneV (b.toNat + blk64w z) l).toNat)) (fun l => natLe n (cmp l))) t g' ∧
      ∀ l ∈ List.range c.g.w, if c.act.has l then ∃ x, g'.lane l = { c.g.lane l with run := .address x } ∧ x.va = va l ∧ x.size = n ∧ x.cmp.toNat = cmp l ∧
          x.acq = decide (r = 1) ∧ x.reading = true ∧ x.dst = d.toNat ∧
          x.deadline = (if c.g.laneV (b.toNat + blk64w z) l = 0 then none else some (c.s.ptime.toNat + (c.g.laneV (b.toNat + blk64w z) l).toNat))
        else g'.lane l = c.g.lane l

/-- R105, R106, R279, R280, R376, R103, R104, R281, R282, R376: the software cache words complete. stag.look gives each active lane the cache
line of its address, or all ones; stag.set, stag.inv and stag.clr write entries of the tag table of the grid on its core, and nothing else.
An entry index outside the declared numbers is tag-misuse (0x07) in every active lane, with the index; a line at or above CACHEL, where the
index is good, with CACHEL and the line's sum. The circular buffer words complete. cb.res reserves slot PI and cb.wait claims slot CI, each
giving the slot's index to the active frames, cb.wait as an acquire; cb.com and cb.pop enter the order of the group's accesses as releases
at core scope, and act on the buffer when they drain; cb.sa computes a slot's scratch address from the lowest active lane's frame, for every
active frame. An undeclared buffer, cb.com of a slot that no cb.res holds reserved or that commits already, and cb.pop with no claimed slot
to come, are cbuf-misuse (0x08) in every active lane, with the buffer's number. -/
def Obligations.TagTableAndCircularBufferResults : Prop :=
  ((∀ h d a s c, Executes (.stagLook h d a) h .none 1 s c → ∃ t, exec (.stagLook h d a) s = .next t ∧ c.WroteV (fun _ => d.toNat)
    (fun l => match c.tags.find? (fun e => e.valid && decide (e.la = (c.g.laneV (a.toNat + 1) l ++ c.g.laneV a.toNat l).toNat / 256 % 2 ^ 48)) with
      | some e => BitVec.ofNat 32 e.sl | none => 0xFFFFFFFF) 0 t) ∧
  (∀ (i : Instr) (h : Head) (s : State) (c : Ctx) (r : Region) (e : Nat) (new : TagEntry → TagEntry), c.s.region? c.core c.g.grid = some r →
    c.core < c.s.cores.length → Executes i h .none 0 s c →
    ((∃ d a b, i = .stagSet h d a b ∧ e = (c.u d (lowest c.act c.g.w)).toNat ∧ (c.u b (lowest c.act c.g.w)).toNat < r.cachel ∧ new =
      fun _ => ⟨true, (c.up a (lowest c.act c.g.w)).toNat / 256 % 2 ^ 48, (c.u b (lowest c.act c.g.w)).toNat⟩) ∨
     ∃ d, i = .stagInv h d ∧ e = (c.u d (lowest c.act c.g.w)).toNat ∧ new = fun x => { x with valid := false }) →
    (e < r.tags.length → ∃ t r', exec i s = .next t ∧ t.region? c.core c.g.grid = some r' ∧ r' = { r with tags := r.tags.modify e new } ∧
      c.Stays (t.withRegions c.core (c.s.core c.core).regions)) ∧
    (r.tags.length ≤ e → exec i s = .next (c.s.raisePrecise c.core c.slot c.pc c.pc ((c.act.list c.g.w).map (fun l => (l, 0x07, 0, BitVec.ofNat 32 e)))))) ∧
  (∀ h d a b s c r, let e := (c.u d (lowest c.act c.g.w)).toNat
    let sl := (c.u b (lowest c.act c.g.w)).toNat
    c.s.region? c.core c.g.grid = some r → Executes (.stagSet h d a b) h .none 0 s c → r.cachel ≤ sl →
    exec (.stagSet h d a b) s = .next (c.s.raisePrecise c.core c.slot c.pc c.pc
      ((c.act.list c.g.w).map (fun l => (l, 0x07, 0, BitVec.ofNat 32 (if r.tags.length ≤ e then e else r.cachel + sl)))))) ∧
  (∀ (i : Instr) h s c e, c.s.region? c.core c.g.grid = none → Executes i h .none 0 s c →
    ((∃ d a b, i = .stagSet h d a b ∧ e = (c.u d (lowest c.act c.g.w)).toNat) ∨ ∃ d, i = .stagInv h d ∧ e = (c.u d (lowest c.act c.g.w)).toNat) →
    exec i s = .next (c.s.raisePrecise c.core c.slot c.pc c.pc ((c.act.list c.g.w).map (fun l => (l, 0x07, 0, BitVec.ofNat 32 e))))) ∧
  ∀ h s c r, c.s.region? c.core c.g.grid = some r → c.core < c.s.cores.length → Executes (.stagClr h) h .none 0 s c →
    ∃ t r', exec (.stagClr h) s = .next t ∧ t.region? c.core c.g.grid = some r' ∧ r' = { r with tags := r.tags.map (fun x => { x with valid := false }) } ∧
      c.Stays (t.withRegions c.core (c.s.core c.core).regions)) ∧
  ((∀ h d (n : BitVec 4) s c b, Executes (.cbRes h d n) h .none 0 s c → c.buf? n.toNat = some b → (c.mid = true ∨ 0 < (c.bufLeft b).free) → c.core < c.s.cores.length →
    ∃ t c' b', exec (.cbRes h d n) s = .next t ∧ c.WroteU d.toNat (fun _ => [BitVec.ofNat 32 b.pi]) (t.withRegions c.core (c.s.core c.core).regions) ∧
      c' = { c with s := t } ∧ c'.buf? n.toNat = some b' ∧ b' = { b with state := b.state.set b.pi 1, pi := (b.pi + 1) % b.slots, free := b.free - 1 }) ∧
  (∀ h d (n : BitVec 4) s c b, Executes (.cbWait h d n) h .acquire 0 s c → c.buf? n.toNat = some b → (c.mid = true ∨ 0 < (c.bufLeft b).filled) → c.core < c.s.cores.length →
    ∃ t c' b' g' x, exec (.cbWait h d n) s = .next t ∧
      c.WroteU d.toNat (fun _ => [BitVec.ofNat 32 b.ci]) ((t.withRegions c.core (c.s.core c.core).regions).withHolds c.core c.slot c.g) ∧
      c' = { c with s := t } ∧ c'.buf? n.toNat = some b' ∧ b' = { b with state := b.state.set b.ci 3, ci := (b.ci + 1) % b.slots, filled := b.filled - 1 } ∧
      t.group? c.core c.slot = some g' ∧ g'.holds = c.g.holds ++ [x] ∧ x.lanes = c.act ∧ x.mark = none) ∧
  (∀ (i : Instr) (h : Head) (n : BitVec 4) (k : OpKind) (b nb : CBuf) (s : State) (c : Ctx), Executes i h .release 0 s c → c.buf? n.toNat = some b →
    c.core < c.s.cores.length →
    ((∃ a m, i = .cbCom h a n ∧ m = (c.u a (lowest c.act c.g.w)).toNat ∧ m < b.slots ∧ b.state.getD m 0 = 1 ∧ m ∉ b.committing ∧ k = .cbCommit n.toNat m ∧
        nb = { b with committing := m :: b.committing }) ∨
     (i = .cbPop h n ∧ b.popping < b.slots ∧ b.state.getD ((b.ri + b.popping) % b.slots) 0 = 3 ∧ k = .cbPop n.toNat ∧ nb = { b with popping := b.popping + 1 })) →
    ∃ t c' g' o, exec i s = .next t ∧ OnlyIssue s (t.withRegions c.core (c.s.core c.core).regions) c.core c.slot ∧ c' = { c with s := t } ∧ c'.buf? n.toNat = some nb ∧
      t.group? c.core c.slot = some g' ∧ g' = { c.g with ops := g'.ops, nextId := g'.nextId } ∧ g'.ops = c.g.ops ++ [o] ∧ o.kind = k ∧ o.scope = 1 ∧ o.rel.isSome = true ∧ o.lanes = c.act) ∧
  (∀ (i : Instr) (h : Head) (n : BitVec 4) (cls : OrdClass) (s : State) (c : Ctx), Executes i h cls 0 s c → c.buf? n.toNat = none →
    ((∃ d, i = .cbRes h d n ∧ cls = .none) ∨ (∃ d, i = .cbWait h d n ∧ cls = .acquire) ∨ (∃ a, i = .cbCom h a n ∧ cls = .release) ∨ (i = .cbPop h n ∧ cls = .release)) →
    exec i s = .next (c.s.raisePrecise c.core c.slot c.pc c.pc ((c.act.list c.g.w).map (fun l => (l, 0x08, 0, BitVec.ofNat 32 n.toNat))))) ∧
  (∀ (i : Instr) (h : Head) (n : BitVec 4) (b : CBuf) (s : State) (c : Ctx), Executes i h .release 0 s c → c.buf? n.toNat = some b →
    ((∃ a m, i = .cbCom h a n ∧ m = (c.u a (lowest c.act c.g.w)).toNat ∧ (b.slots ≤ m ∨ b.state.getD m 0 ≠ 1 ∨ m ∈ b.committing)) ∨
     (i = .cbPop h n ∧ (b.slots ≤ b.popping ∨ b.state.getD ((b.ri + b.popping) % b.slots) 0 ≠ 3))) →
    exec i s = .next (c.s.raisePrecise c.core c.slot c.pc c.pc ((c.act.list c.g.w).map (fun l => (l, 0x08, 0, BitVec.ofNat 32 n.toNat))))) ∧
  ∀ h d a (n : BitVec 4) s c, Executes (.cbSa h d a n) h .none 0 s c →
    ∃ t, exec (.cbSa h d a n) s = .next t ∧ c.WroteU d.toNat (fun _ => [BitVec.ofNat 32 (2 ^ 30 + n.toNat * 2 ^ 24 + (c.u a (lowest c.act c.g.w)).toNat % 256 * 2 ^ 16)]) t)

/-- R283 to R285: every kind of cp completes when the core's engine has room and the copy counter is below 255: one copy command, with the
operands of the lowest active lane's frame, beside what chains that have issued are sure of, enters the order of the group's accesses; the
counter rises unless the destination is a buffer slot. Nothing is copied yet. -/
def Obligations.CopyIssue : Prop :=
  ∀ r ∈ cpRows, ∀ h d a b s c, let f := c.g.frm (lowest c.act c.g.w)
    let toS := r.2 == 0 || r.2 == 2 || r.2 == 3
    let buf := toS && (f.U d.toNat).toNat / 2 ^ 30 == 1
    Executes (r.1 h d a b) h .copy 0 s c → (c.mid = true ∨ c.s.copiesHeld c.core + c.s.keptOn c.core (fun _ => true) Place.copy.is < 64 ∧ (buf = false → c.counterFull 2 c.g.cp = false)) →
    ∃ t g' o x, exec (r.1 h d a b) s = .next t ∧ OnlyIssue s t c.core c.slot ∧ t.group? c.core c.slot = some g' ∧
      g' = { c.g with ops := g'.ops, nextId := g'.nextId, cp := c.g.cp + (if buf then 0 else 1) } ∧ g'.ops = c.g.ops ++ [o] ∧ o.kind = .copy x ∧ o.once = true ∧
      x.issue = c.g.nextId ∧ x.kind = r.2 ∧ x.core = c.core ∧ x.slot = c.slot ∧ x.pc = c.pc ∧ x.dst = (if toS then (f.U d.toNat).setWidth 64 else f.UP d.toNat) ∧
      x.src = (if r.2 == 1 || r.2 == 2 then (f.U a.toNat).setWidth 64 else f.UP a.toNat) ∧
      x.len = (if r.2 = 3 then (f.U b.toNat).toNat * (f.U (b.toNat + 1)).toNat else (f.U b.toNat).toNat) ∧
      x.cbuf = (if buf then some ((f.U d.toNat).toNat / 2 ^ 24 % 16) else none) ∧ x.taken = false ∧
      (r.2 = 3 → x.esize = (f.U b.toNat).toNat ∧ x.count = (f.U (b.toNat + 1)).toNat ∧ x.stride = (f.U (b.toNat + 2)).toNat ∧ x.index = (f.U (b.toNat + 3)).toNat)

/-- R266, R274, R286, R289, R374, R290, R313: a memory word some of whose active lanes fail their check at issue: each of them takes its fault,
align (0x0B) with its address and the size's exponent, scratch-bound (0x06) with the space beside it, or for an atomic of a buffer slot or
tile staging its own; where none passes nothing issues, else the word issues for the lanes that pass, of ldu and stu for the frames that
pass, as it would for them alone. A word that executes once for the group, cp apart, raises convergence (0x03) in every active lane when
some live lane is not active, with the number of those lanes, and has no effect. -/
def Obligations.AlignmentScopeAndConvergenceTraps : Prop :=
  (∀ (i : Instr) (h : Head) (f : MemForm) (s : State) (c : Ctx), c.HasForm h i f → Executes i h f.cls f.sets s c → (∃ l ∈ c.act.list c.g.w, f.fault l ≠ none) →
    let fs := (c.act.list c.g.w).filterMap f.fault
    ((∀ l ∈ c.act.list c.g.w, f.fault l ≠ none) → exec i s = .next (c.s.raisePrecise c.core c.slot c.pc c.pc fs)) ∧
    ∀ m : LaneSet, (∀ l, m.has l = true ↔ l ∈ c.act.list c.g.w ∧ f.fault l = none) → m ≠ 0 → c.memStall f.word = false → c.destGone f.word = [] →
      ∃ u g', exec i s = .next (u.raisePrecise c.core c.slot c.pc c.pc fs) ∧ (c.under m).Issued f.form (f.shares m) u g' ∧
        ∀ l ∈ List.range c.g.w, if f.waits && m.has l then ∃ x, g'.lane l = { c.g.lane l with run := .address x } else g'.lane l = c.g.lane l) ∧
  (∀ (i : Instr) (h : Head) (cls : OrdClass) (s : State) (c : Ctx),
    ((∃ r ∈ tcfgRows, ∃ d a, i = r.1 h d a ∧ cls = .none) ∨ (∃ d, i = .accZero h d ∧ cls = .none) ∨
      (∃ d a, i = .tcfgSet h d a ∧ cls = .load ∧ c.memStall (c.cfgLoad d.toNat a.toNat) = false) ∨
      (∃ d a z q st po, ((∃ o, i = (if st then .tst h d a o z q else .tld h d a o z q) ∧ po = ((c.low.U o.toNat).setWidth 64, 0)) ∨
        ∃ m, i = (if st then .tstImm h d a m z q else .tldImm h d a m z q) ∧ po = (BitVec.ofNat 64 (partBytes z), BitVec.ofInt 64 (m.toInt * (64 * partBytes z)))) ∧
        cls = (if st then .store else .load) ∧ c.memStall (c.tileRows d a z q st po) = false) ∨
      (c.arrayStall = false ∧ cls = .matrix ∧ ((∃ d a b, i = .mxHad h d a b ∨ i = .mxPerm h d a b ∨ i = .accWid h d a b ∨ i = .accNar h d a b ∨
        i = .accQ2 h d a b ∨ i = .accQe h d a b) ∨ ∃ d a b k, (i = .mmaAcc h d a b k ∨ i = .mmaSet h d a b k) ∧ (c.g.tile k.toNat).getD 4 0 &&& 4 = 0))) →
    Executes i h cls 0 s c → c.act ≠ c.g.live →
    exec i s = .next (c.s.raisePrecise c.core c.slot c.pc c.pc
      ((c.act.list c.g.w).map (fun l => (l, 0x03, 0, BitVec.ofNat 32 (((List.range c.g.w).filter (fun k => (c.g.lane k).run.live && !c.act.has k)).length))))))

/-! ## Matrix and tile words (R290 to R313) -/

/-- R294, R295, R309: the direct forms of tcfg complete when every live lane is active: they write the low bytes of their uniform register into
the configuration record of their tile, and change no other byte of any tile and nothing else. Acc.zero clears its accumulator; acc.rd gives
each active lane the word that its index names; acc.wr writes the words that the active lanes' indices name, the highest lane's at an index
that several name; each completes and changes nothing else. -/
def Obligations.TileAndAccumulatorWordResults : Prop :=
  (∀ r ∈ tcfgRows, ∀ h d a s c, Executes (r.1 h d a) h .none 0 s c → c.act = c.g.live →
    ∃ t g', exec (r.1 h d a) s = .next t ∧ OnlyGroup s t c.core c.slot ∧ t.group? c.core c.slot = some g' ∧ g' = { c.g with tiles := g'.tiles } ∧
      (∀ o < 4096, (g'.tile d.toNat).getD o 0 = if r.2.1 ≤ o ∧ o < r.2.1 + r.2.2 then BitVec.ofNat 8 ((c.low.U a.toNat).toNat / 256 ^ (o - r.2.1)) else (c.g.tile d.toNat).getD o 0) ∧
      ∀ k, k ≠ d.toNat → g'.tile k = c.g.tile k) ∧
  ((∀ h d s c, Executes (.accZero h d) h .none 0 s c → c.act = c.g.live →
    ∃ t g', exec (.accZero h d) s = .next t ∧ OnlyGroup s t c.core c.slot ∧ t.group? c.core c.slot = some g' ∧ g' = { c.g with accs := g'.accs } ∧
      g'.acc d.toNat = List.replicate 4096 0 ∧ ∀ k, k ≠ d.toNat → g'.acc k = c.g.acc k) ∧
  (∀ h d a b s c, Executes (.accRd h d a b) h .none 1 s c →
    ∃ t, exec (.accRd h d a b) s = .next t ∧ c.WroteV (fun _ => d.toNat) (fun l => (c.g.acc a.toNat).getD ((c.v b l).toNat % 4096) 0) 0 t) ∧
  ∀ h d a b s c, Executes (.accWr h d a b) h .none 0 s c →
    ∃ t g', exec (.accWr h d a b) s = .next t ∧ OnlyGroup s t c.core c.slot ∧ t.group? c.core c.slot = some g' ∧ g' = { c.g with accs := g'.accs } ∧
      (∀ n < 4096, (g'.acc d.toNat).getD n 0 = match (c.act.list c.g.w).reverse.find? (fun l => (c.v b l).toNat % 4096 == n) with
        | some l => c.v a l | none => (c.g.acc d.toNat).getD n 0) ∧ ∀ k, k ≠ d.toNat → g'.acc k = c.g.acc k)

/-- R295 to R297: tcfg.set, tld and tst complete when every live lane is active and every row's address is aligned and, for scratch, in its
region: one access with a share for each row, in ascending order, its bytes read at issue when it stores; the tl counter rises. -/
def Obligations.TileTransferIssue : Prop :=
  (∀ h d a s c, let base := c.low.UP a.toNat
    Executes (.tcfgSet h d a) h .load 0 s c → c.act = c.g.live → base.toNat % 64 = 0 → c.memStall (c.cfgLoad d.toNat a.toNat) = false →
    ∃ t g', exec (.tcfgSet h d a) s = .next t ∧ c.LanesStay g' ∧
      c.Issued ⟨.load, 1, false, false, .tile d.toNat 0, false, false, false, true⟩ (c.rowShares 64 none [(base, 0), (base + 64, 64)]) t g') ∧
  ∀ (i : Instr) (h : Head) (d : BitVec 5) (a : BitVec 4) (z q : BitVec 2) (st : Bool) (pitch off : DWord) (s : State) (c : Ctx),
    let rb := if z = 0 then 64 else 8
    let scr := decide (q ≠ 0)
    ((∃ o, i = (if st then .tst h d a o z q else .tld h d a o z q) ∧ pitch = (c.low.U o.toNat).setWidth 64 ∧ off = 0) ∨
      ∃ m, i = (if st then .tstImm h d a m z q else .tldImm h d a m z q) ∧ pitch = BitVec.ofNat 64 rb ∧ off = BitVec.ofInt 64 (m.toInt * (64 * rb))) →
    let base : DWord := if scr then (c.low.U (2 * a.toNat)).setWidth 64 else c.low.UP (2 * a.toNat)
    let rows := tileRowsOf (base + off) pitch scr (if z = 0 then 0 else if z = 1 then 0x200 else 0x400) rb
    Executes i h (if st then .store else .load) 0 s c → c.act = c.g.live →
    (∀ r ∈ rows, r.1.toNat % rb = 0 ∧ (scr = true → (c.s.scratchOff c.g (r.1.setWidth 32) rb).isSome = true)) →
    c.memStall (c.tileRows d a z q st (pitch, off)) = false →
    ∃ t g', exec i s = .next t ∧ c.LanesStay g' ∧
      c.Issued ⟨if st then .tileStore else .load, 1, false, false, if st then .none else .tile d.toNat 0, false, false, scr, true⟩
        (c.rowShares rb (if st then some (c.g.tile d.toNat) else none) rows) t g'

/-- R300 to R311, R293: every array form completes when every live lane is active, its configuration and code are valid, and the array's queue
and the tl counter have room: its operation enters the queue with the sources as they stand. mma with B from tile staging takes the 4 KiB
unit that the configuration names, as a load at core scope that its active lanes bind at issue. A configuration passes the check of mma
exactly when it is valid. -/
def Obligations.MatrixIssueAndConfigurations : Prop :=
  ((∀ i h kind cfg a b acc code s c, Ctx.ArrayForm c h i kind cfg a b acc code → Executes i h .matrix 0 s c → c.act = c.g.live → c.arrayStall = false →
    c.core < c.s.cores.length → ∃ t, exec i s = .next t ∧ c.QueuedMat kind cfg a b acc code t) ∧
  ∀ (z : Bool) h d a b (k : BitVec 3) s c r, let i : Instr := if z then .mmaSet h d a b k else .mmaAcc h d a b k
    Executes i h .matrix 0 s c → c.act = c.g.live → c.arrayStall = false → c.core < c.s.cores.length →
    (c.g.tile k.toNat).getD 4 0 &&& 4 ≠ 0 → b = 0 → ValidConfig (c.g.tile k.toNat) (decide (k.toNat = a.toNat)) →
    c.s.region? c.core c.g.grid = some r → tileHalf (c.g.tile k.toNat) 8 < r.stage →
    ∀ bytes ws, c.stagingRead (scratchKey c.core (r.stageBase + 4096 * tileHalf (c.g.tile k.toNat) 8)) 4096 = some (bytes, ws) →
    ∃ t u m g', exec i s = .next t ∧ t = { u with fns := t.fns, merrlast := t.merrlast } ∧ (c.g.bad = [] → c.s.bitErrors = [] → t = u) ∧
      (u.core c.core).array = (c.s.core c.core).array ++ [m] ∧ m.kind = .mma z d.toNat ∧ m.cfg = c.g.tile k.toNat ∧
      m.a = c.g.tile a.toNat ∧ m.b = bytes ∧ (c.g.bad = [] → c.s.bitErrors = [] → c.s.lostPeers = [] → m.bad = false) ∧
      OnlyGroup s (u.updCore c.core (fun x => { x with array := (c.s.core c.core).array })) c.core c.slot ∧
      u.group? c.core c.slot = some g' ∧ g' = { c.g with tl := c.g.tl + 1, nextId := c.g.nextId + 1, lanes := g'.lanes, sf := g'.sf } ∧
      g'.sf.map (fun x => { x with readers := [] }) = c.g.sf.map (fun x => { x with readers := [] }) ∧
      ∀ l ∈ List.range c.g.w, g'.lane l = { c.g.lane l with floors := (g'.lane l).floors, seen := (g'.lane l).seen } ∧
        (c.act.has l = false → g'.lane l = c.g.lane l) ∧ ∀ w ∈ ws, w.2.2 ≠ 0 → c.act.has l = true →
          w.2.2 ≤ (g'.lane l).floor (unitOf w.1) (c.g.nextId + 1) ∧ ∃ j ≤ c.g.nextId, (w.2.2, j) ∈ (g'.lane l).seen) ∧
  (∀ (cfg : List Byte) (same : Bool), cfgFail cfg same = none ↔ ValidConfig cfg same)

/-- R300, R302 to R311, R339, R122, R297, R337: MATRIX_OP_COMPLETE takes the head of a core's array: it writes its result whole, its group's tl
falls, no other accumulator or tile changes, and only the census sees it besides; an operation with an uncorrectable source writes nothing
and its group holds matrix-unit (0x0F). TILE_STORE_ROW_ENTER puts the next row of a tile store that may enter at the tail of the group's
store order, an entry for each unit in ascending address; every row of that store has passed translation, and every earlier row has entered. -/
def Obligations.MatrixAndTileStoreSteps : Prop :=
  ((∀ (s : State) (core : Nat) (m : MatOp) (rest : List MatOp) (g : Group), (s.core core).array = m :: rest → core < s.cores.length → s.stopped core m.slot = false →
    s.group? core m.slot = some g → m.bad = false → g.Wf → m.Sound →
    ∃ (t : State) (g' : Group) (n : Counts), exec (.matrixOpComplete core) s = .next (t.census g.grid m.pc n) ∧ (t.core core).array = rest ∧
      OnlyGroup s (t.updCore core (fun k => { k with array := (s.core core).array })) core m.slot ∧ t.group? core m.slot = some g' ∧
      g' = { g with accs := g'.accs, tiles := g'.tiles, tl := g.tl - 1 } ∧ m.Leaves g g' ∧
      (∀ a, a ∉ m.kind.dests.1 → g'.acc a = g.acc a) ∧ ∀ a, a ∉ m.kind.dests.2 → g'.tile a = g.tile a) ∧
  ∀ (s : State) (core : Nat) (m : MatOp) (rest : List MatOp) (g : Group), (s.core core).array = m :: rest → core < s.cores.length → s.stopped core m.slot = false →
    s.group? core m.slot = some g → m.bad = true → g.heldFault = none →
    ∃ t g', exec (.matrixOpComplete core) s = .next t ∧ (t.core core).array = rest ∧ t.group? core m.slot = some g' ∧
      OnlyGroup s (t.updCore core (fun k => { k with array := (s.core core).array })) core m.slot ∧
      g' = { g with heldFault := some { code := 0x0F, fpc := m.pc, faddr := 0, detail := 5, more := false }, tl := g.tl - 1 }) ∧
  (∀ (s : State) (core slot : Nat) (g : Group) (o : Op) (p : Part) (i : Nat), s.group? core slot = some g → (g.ops.map Op.id).Nodup → s.nextRow g o = some (i, p) →
    o ∈ g.ops →
    ∃ t g', exec (.tileStoreRowEnter core (slot, o.id)) s = .next t ∧ OnlyGroup s t core slot ∧ t.group? core slot = some g' ∧ o.parts[i]? = some p ∧
      (∀ q ∈ o.parts, q.prog ≠ .untranslated ∧ q.prog ≠ .discarded ∧ q.isFaulted = false) ∧ (∀ j < i, ∀ q, o.parts[j]? = some q → q.prog = .entered ∨ q.prog = .done) ∧
      g'.sf = g.sf ++ p.units.map (fun u =>
        { op := o.id, part := i, issue := p.issue, kind := .store, lanes := p.lanes, key := u.key, bytes := (p.data.drop u.off).take u.len, scope := o.scope, rel := o.rel,
          enter := g.nextId, readers := [], pc := o.pc }) ∧
      g' = { g with sf := g'.sf, nextId := g.nextId + 1, ops := g.ops.map (fun x => if x.id == o.id then { x with parts := x.parts.set i { p with prog := .entered } } else x) })

/-! ## Launch requests, system words and handlers (R314 to R347) -/

/-- R316, R317: lnch.trig and lnch.cncl complete while fewer than 16 lnch words of the core wait for the front end: one request for each frame
of the active lanes, a release at dev, behind the group's earlier accesses. lnch.rec completes when the REACH byte of its record can be
read: after that read, by its lanes, one request, a release at the scope of the reach, whose answer goes to its uniform register. Of the
words of one chain only the first waits for room (log 3). Nothing is launched yet. -/
def Obligations.LaunchRequestIssue : Prop :=
  (∀ (i : Instr) (h : Head) (a : BitVec 5) (r : Frame → LnchReq) (s : State) (c : Ctx),
    ((i = .lnchTrig h a ∧ r = fun f => .trigger c.g.nextId (f.UP a.toNat)) ∨ (i = .lnchCncl h a ∧ r = fun f => .cancel (f.U a.toNat))) →
    Executes i h .launch 0 s c → c.mid = true ∨ (s.lnchWords c.core).length < 16 →
    ∃ t g' os, exec i s = .next t ∧ OnlyIssue s t c.core c.slot ∧ t.group? c.core c.slot = some g' ∧
      g' = { c.g with ops := c.g.ops ++ os, nextId := c.g.nextId + os.length } ∧
      os.map (fun o => (o.kind, o.lanes)) = c.frames.map (fun x => (OpKind.lnch (r x.1), x.2)) ∧
      ∀ o ∈ os, o.pc = c.pc ∧ o.scope = 4 ∧ o.rel.isSome = true ∧ o.dest = .none) ∧
  ∀ h d a s s1 c f m b key seq, Executes (.lnchRec h d a) h .launch 0 s c → c.mid = true ∨ (s.lnchWords c.core).length < 16 →
    c.frames = [(f, m)] → c.reach c.s m (f.UP a.toNat) = (s1, .reach b key seq false) →
    ∃ t g1 g' o, exec (.lnchRec h d a) s = .next t ∧ OnlyIssue s (t.withReads s) c.core c.slot ∧ s1.group? c.core c.slot = some g1 ∧ c.g.WalkedBy m g1 ∧
      t.group? c.core c.slot = some g' ∧ g' = { g1.readBy m c.g.nextId key 1 seq with ops := c.g.ops ++ [o], nextId := c.g.nextId + 2 } ∧
      o.kind = .lnch (.record c.g.nextId (f.UP a.toNat) f.id d.toNat (lowest m c.g.w)) ∧ o.id = c.g.nextId + 1 ∧
      o.pc = c.pc ∧ o.lanes = m ∧ o.rel.isSome = true ∧ o.dest = .uni d.toNat 1 ∧ o.scope = (if b = 0 then 3 else if b = 1 then 4 else if b = 2 then 5 else 6)

/-- R161, R318 to R321, R323: the power, time, measurement and identity words complete. pwr.req sends the class to both dies, once for each
frame; pwr.cls and pwr.pool read the team's class and the cluster's pool; tm.rd reads %ptime once the group is quiet, of one chain the first
word alone waiting (log 3); tm.wtill and tm.wrel leave a lane waiting outside the vote until its time, if that has not come; dbg.brk stops
the group's partition with cause 3; dbg.prog adds to its progress register; sys.rdid reads the identity registers. -/
def Obligations.SystemWordResults : Prop :=
  (∀ h d s c, Executes (.pwrReq h d) h .none 0 s c → ∃ t, exec (.pwrReq h d) s = .next t ∧
    t.classRequests = s.classRequests ++ c.frames.flatMap (fun x => [0, 1].map (fun die => ⟨die, c.g.grid, (x.1.U d.toNat).toNat % 8⟩)) ∧
    c.Stays { t with classRequests := s.classRequests }) ∧
  (∀ h d s c x, Executes (.pwrCls h d) h .none 0 s c → s.team? c.g.grid c.g.team = some x →
    ∃ t, exec (.pwrCls h d) s = .next t ∧ c.WroteU d.toNat (fun _ => [BitVec.ofNat 32 x.cls]) t) ∧
  (∀ h d s c x, Executes (.pwrPool h d) h .none 0 s c → s.clusters[c.core / 8]? = some x →
    ∃ t, exec (.pwrPool h d) s = .next t ∧ c.WroteU d.toNat (fun _ => [BitVec.ofNat 32 x.pool]) t) ∧
  (∀ h d s c, Executes (.tmRd h d) h .none 0 s c → c.mid = true ∨ (c.g.ld = 0 ∧ c.g.st = 0 ∧ c.g.cp = 0 ∧ c.g.tl = 0) →
    ∃ t, exec (.tmRd h d) s = .next t ∧ c.WroteU d.toNat (fun _ => halves c.now) t) ∧
  (∀ (i : Instr) (h : Head) (a : BitVec 5) (due : Nat → DWord) (s : State) (c : Ctx),
    ((i = .tmWtill h a ∧ due = fun l => c.up a l) ∨ (i = .tmWrel h a ∧ due = fun l => c.now + (c.u a l).setWidth 64)) → Executes i h .none 0 s c →
    ∃ t g', exec i s = .next t ∧ OnlyGroup s t c.core c.slot ∧ t.group? c.core c.slot = some g' ∧ g' = { c.g with lanes := g'.lanes } ∧
      ∀ l ∈ List.range c.g.w, g'.lane l = if c.act.has l ∧ c.now.toNat < (due l).toNat then { c.g.lane l with run := .time (due l).toNat } else c.g.lane l) ∧
  (∀ h s c, Executes (.dbgBrk h) h .none 0 s c → c.core < s.cores.length → c.slot < 64 → ∃ t, exec (.dbgBrk h) s = .next t ∧
    (t.core c.core).dstop = (s.core c.core).dstop ||| BitVec.ofNat 8 (2 ^ (c.slot / 8)) ∧ (t.core c.core).dcause.toNat = 3 + 8 * (c.slot / 8) ∧
    c.Stays (t.updCore c.core (fun k => { k with dstop := (s.core c.core).dstop, dcause := (s.core c.core).dcause }))) ∧
  (∀ h d n s c, Executes (.dbgProg h d n) h .none 0 s c → s.fnOf c.g.grid < s.fns.length → ∃ t, exec (.dbgProg h d n) s = .next t ∧
    (t.fn (s.fnOf c.g.grid)).progs = (s.fn (s.fnOf c.g.grid)).progs.modify n.toNat (· + c.frames.foldl (fun k x => k + (x.1.U d.toNat).setWidth 64) 0) ∧
    c.Stays (t.updFn (s.fnOf c.g.grid) (fun f => { f with progs := (s.fn (s.fnOf c.g.grid)).progs }))) ∧
  ∀ h d a s c, Executes (.sysRdid h d a) h .none 0 s c → s.form = 1 ∨ s.form = 2 → s.cap < 8 →
    ∃ (t : State) (val : Nat → DWord), exec (.sysRdid h d a) s = .next t ∧ c.WroteU d.toNat (fun l => halves (val l)) t ∧ ∀ l ∈ c.act.list c.g.w,
      ((c.u a l).toNat = 0 → (val l).toNat = 0x0F40 * 65536 + 256 * s.step.toNat + s.form) ∧
      ((c.u a l).toNat = 1 → (val l).toNat = (if s.form = 2 then 32 else 0) * 2 ^ 40 + 8 * 2 ^ 32 + 128 * 2 ^ 24 + 96 * 2 ^ 16 + 2 * 2 ^ 8 + 18) ∧
      ((c.u a l).toNat = 2 → (val l).toNat = 512 * 2 ^ 40 + 64 * 2 ^ 32 + 16 * 2 ^ 24 + 6 * 2 ^ 20 + 5 * 2 ^ 16 + 3 * 2 ^ 12 + 5 * 2 ^ 8 + 7) ∧
      ((c.u a l).toNat = 3 → (val l).toNat = s.draww.toNat * 2 ^ 32 + (if s.form = 2 then 2800 else 2600) * 2 ^ 16 + s.cap) ∧
      (3 < (c.u a l).toNat → val l = 0)

/-- R96, R323, R324: the privileged words complete in a grid of the physical function. sys.cinv holds its lanes behind a release at dev, as its
arrival names them; once the release has left every queue, the translation caches hold no entry of the context and the lanes go on behind an
acquire. sys.tvt sets the vector table to a 64-aligned address and takes align for another. In a grid of any other function they raise priv
(0x12) in every active lane and do nothing. -/
def Obligations.PrivilegedWords : Prop :=
  (∀ h s c, Executes (.sysCinv h) h .fence 0 s c → s.fnOf c.g.grid = 0 → ∃ t g' o a, exec (.sysCinv h) s = .next t ∧
    OnlyIssue s t c.core c.slot ∧ t.group? c.core c.slot = some g' ∧
    g' = { c.g with ops := c.g.ops ++ [o], arrivals := c.g.arrivals ++ [a], nextId := g'.nextId } ∧
    o.kind = .marker ∧ o.scope = 4 ∧ o.rel = some a.mark ∧ o.lanes = c.act ∧ a.lanes = c.act ∧ a.bar = 20) ∧
  (∀ (s : State) (core slot : Nat) (g : Group) (a : Arrival), s.group? core slot = some g →
    g.arrivals.find? (fun a => a.bar == 20 && !s.markPending a.mark) = some a →
    ∃ g' x, (s.endInvalidation g).tlb = s.tlb.filter (fun e => e.1 != s.fnOf g.grid) ∧ (s.endInvalidation g).group? core slot = some g' ∧
      g' = { g with arrivals := g.arrivals.erase a, holds := g.holds ++ [x], nextId := g'.nextId } ∧ x.lanes = a.lanes) ∧
  (∀ h a s c, Executes (.sysTvt h a) h .none 0 s c → s.fnOf c.g.grid = 0 → 0 < s.fns.length → (c.up a (lowest c.act c.g.w)).toNat % 64 = 0 →
    ∃ t, exec (.sysTvt h a) s = .next t ∧ (t.fn 0).tvt = c.up a (lowest c.act c.g.w) ∧ c.Stays (t.updFn 0 (fun f => { f with tvt := (s.fn 0).tvt }))) ∧
  (∀ h a s c, Executes (.sysTvt h a) h .none 0 s c → s.fnOf c.g.grid = 0 → (c.up a (lowest c.act c.g.w)).toNat % 64 ≠ 0 →
    exec (.sysTvt h a) s = .next (c.s.raisePrecise c.core c.slot c.pc c.pc ((c.act.list c.g.w).map (fun l => (l, 0x0B, c.up a (lowest c.act c.g.w), 6))))) ∧
  ∀ (i : Instr) (h : Head) (cls : OrdClass) (s : State) (c : Ctx), ((i = .sysCinv h ∧ cls = .fence) ∨ ∃ a, i = .sysTvt h a ∧ cls = .none) →
    Executes i h cls 0 s c → s.fnOf c.g.grid ≠ 0 →
    exec i s = .next (c.s.raisePrecise c.core c.slot c.pc c.pc ((c.act.list c.g.w).map (fun l => (l, 0x12, 0, 0))))

/-- R344, R345: sys.tret completes in handler frames: each active lane leaves its handler frame for the frame below, whose registers it finds as
they were, and goes on at the address in v7:v6. The access that a lane's handler was entered for is issued again when RS of v0 is set, as a
new issue, and is given up when it is clear; an access of which nothing is left to translate leaves the log (R336). Outside a handler frame
every active lane takes priv (0x12). What becomes of the access is said of one lane. -/
def Obligations.TrapReturnResults : Prop :=
  (∀ h s c, Executes (.sysTret h) h .none 0 s c → c.tretBusy = false → c.InHandlers →
    ∃ t g', exec (.sysTret h) s = .next t ∧ OnlyGroup s t c.core c.slot ∧ t.group? c.core c.slot = some g' ∧
      (∀ l ∈ c.act.list c.g.w, ∃ below, (c.g.stack l)[1]? = some below ∧
        g'.lane l = { c.g.lane l with pc := c.g.laneV 7 l ++ c.g.laneV 6 l, fd := (c.g.lane l).fd - 1, frame := below.id } ∧
        ∀ r < below.nv, g'.laneV r l = (c.g.readV below r).lane l) ∧
      ∀ l ∈ List.range c.g.w, c.act.has l = false → g'.lane l = c.g.lane l ∧ ((c.g.lane l).run.live = true → ∀ r, g'.laneV r l = c.g.laneV r l)) ∧
  (∀ h s c l hd o op p below, Executes (.sysTret h) h .none 0 s c → c.tretBusy = false → c.act.list c.g.w = [l] → c.act = LaneSet.one l →
    (c.g.frm l).handler = some hd → hd.ops.find? (fun x => x.1 == l) = some (l, o) → (c.g.frm l).na = 0 → (c.g.stack l)[1]? = some below →
    GoodTarget (c.g.laneV 7 l ++ c.g.laneV 6 l) → (c.g.ops.map Op.id).Nodup → op ∈ c.g.ops → op.id = o → op.parts = [p] → p.lanes = LaneSet.one l → p.isFaulted = true →
    p.leftRestart = 0 → p.leftAbandon = false → op.whole = false → (∀ d, op.dest ≠ .wait d) → (∀ x ∈ c.g.ops, x.finished = false) →
    ∃ t g', exec (.sysTret h) s = .next t ∧ t.group? c.core c.slot = some g' ∧ (g'.lane l).pc = c.g.laneV 7 l ++ c.g.laneV 6 l ∧ (g'.lane l).frame = below.id ∧
      ((c.g.laneV 0 l).getLsbD 10 = true → g'.ops = (Group.freeLog { c.g with ops := c.g.ops.map (fun x => if x.id == o then { x with parts := [p.again c.g.nextId] } else x) }).ops) ∧
      ((c.g.laneV 0 l).getLsbD 10 = false → g'.ops = (Group.freeLog { c.g with ops := c.g.ops.filter (fun x => x.id != o) }).ops)) ∧
  ∀ h s c, Executes (.sysTret h) h .none 0 s c → c.tretBusy = false → (∀ l ∈ c.act.list c.g.w, (c.g.frm l).handler = none) →
    exec (.sysTret h) s = .next (c.s.raisePrecise c.core c.slot c.pc c.pc ((c.act.list c.g.w).map (fun l => (l, 0x12, 0, 0))))

/-- R199, R210, R214, R335, R340 to R343, R418, R346: a chain's fault, a deferred fault and a fault whose lanes waited for rows take their lanes
into the handler that the context's table names: ILLEGAL_PACKET, ILLEGAL_WORD, FETCH_FAULT, DEFERRED_FAULT_RAISE and TRAP_HANDLER_ENTRY, in
the case that all the lanes stand in one frame and the handler's frame has room. A fault with no valid table entry exits its lanes, records
the lowest of them in its function's ring with NOTAB, shows the fault in its queue and cancels its grid with cause 0x11. -/
def Obligations.HandledAndUnhandledFaults : Prop :=
  ((∀ (i : Instr) (code : Nat) (fpc faddr : DWord) (detail : Word) (s s1 : State) (cu : Cur) (g : Group) (e : TrapEntry), s.cur = some cu →
    ((∃ addr sl k, i = .illegalPacket addr sl k ∧ sl < 4 ∧ k < 4 ∧ code = 0x02 ∧ fpc = addr ∧ faddr = 0 ∧ detail.toNat = sl + 4 * k) ∨
     (∃ addr w, i = .illegalWord addr w ∧ wordGuard w = none ∧ cu.mid = false ∧ code = 0x01 ∧ fpc = addr ∧ faddr = 0 ∧ detail = w) ∨
     (∃ x addr d, i = .fetchFault x addr d ∧ code = x.toNat ∧ fpc = (if (s.pageStart (s.fnOf g.grid) addr).toNat ≤ cu.first.toNat then cu.first else s.pageStart (s.fnOf g.grid) addr) ∧
      faddr = addr ∧ detail = d)) →
    s.Handles cu.core cu.slot g cu.path e fpc → s.trapEntry (s.fnOf g.grid) cu.core code = (s1, .valid e) →
    ∃ t g', exec i s = .next t ∧ OnlyGroup s1 t cu.core cu.slot ∧ t.group? cu.core cu.slot = some g' ∧
      g.EntersHandler e cu.path (fun _ => ⟨BitVec.ofNat 32 code, fpc, faddr, detail, cu.first⟩) g') ∧
  (∀ (s s1 : State) (core slot l : Nat) (g : Group) (d : Deferred) (e : TrapEntry), s.Handles core slot g (LaneSet.one l) e d.fpc → s.trapEntry (s.fnOf g.grid) core d.code = (s1, .valid e) →
    (g.lane l).run = .running → g.atBoundary l = true → g.wideHeld (LaneSet.one l) = false → s.stopped core slot = false → g.dueFault l = some d → d.rs = false →
    (∀ k ∈ List.range g.w, k ≠ l → g.dueFault k = none) →
    ∃ t g', exec (.deferredFaultRaise core slot l) s = .next t ∧ t.group? core slot = some g' ∧
      ({ g with lanes := g.lanes.modify l (fun x => { x with deferred := x.deferred.erase d }) } : Group).EntersHandler e (LaneSet.one l)
        (fun _ => ⟨BitVec.ofNat 32 (d.code + 256), d.fpc, d.faddr, d.detail, (g.lane l).pc⟩) g') ∧
  ∀ (s : State) (core slot : Nat) (g : Group) (tr : Trap) (e : TrapEntry), s.group? core slot = some g → g.traps = [tr] → tr.entry = some e →
    s.Handles core slot g tr.laneSet e ((tr.lanes.head?.map TrapLane.fpc).getD 0) → (∀ l ∈ tr.laneSet.list g.w, (g.lane l).frame = tr.frame) →
    ∃ t g', exec (.trapHandlerEntry core slot) s = .next t ∧ t.group? core slot = some g' ∧ g'.traps = [] ∧
      g.EntersHandler e tr.laneSet (fun l => ⟨(tr.look l).tcode, (tr.look l).fpc, (tr.look l).faddr, (tr.look l).detail, (tr.look l).resume⟩) g') ∧
  (∀ (s s1 : State) (cu : Cur) (g : Group) (gr : Grid) (addr : DWord) (w : Word) (l : Nat), s.cur = some cu → s.group? cu.core cu.slot = some g →
    s.grid? g.grid = some gr → s.trapEntry gr.fn cu.core 0x01 = (s1, .invalid) → wordGuard w = none → cu.mid = false → g.Wf → g.Owned → g.traps = [] →
    cu.path.list g.w = [l] → cu.path = LaneSet.one l → (g.lane l).run = .running → (∀ h, (g.frm l).handler = some h → h.entering = false) →
    ∃ s2 g', s2.group? cu.core cu.slot = some g' ∧ (g'.lane l).run = .exited ∧ (∀ k ∈ List.range g.w, k ≠ l → (g'.lane k).run = (g.lane k).run) ∧ OnlyGroup s1 s2 cu.core cu.slot ∧
      exec (.illegalWord addr w) s = .next (((s2.ring gr.fn
        { grid := g.grid, team := g.number, core := cu.core, slot := cu.slot, lane := l, code := 0x01, kind := 0, flags := 1, queue := gr.queue, fpc := addr, faddr := 0, detail := w }).setFaulted
          g.grid).cancelGrid g.grid 0x11))

/-! ## The ordering machine (R113, R118 to R126, R336) -/

/-- R119 to R122, R126: SF_DRAIN takes the head of a group's store order: a plain store enters coherence order and the core's memory point and
takes its place in the propagation queues, a marker of a scope above the core takes its place there; memory itself does not change.
PROPAGATE moves an entry of a core's queues, or of the front end's, that may leave its queue to its next point. ATOMIC_PERFORM reads the
co-latest write visible at the atomic's scope, writes the new value at the end of coherence order, present at the point of that scope, and
gives the old value to its registers. The atomic is one of one lane, alone in its entry. That the atomics of one word to one address perform
in one step is the reading of log 23. -/
def Obligations.StoreSteps : Prop :=
  (∀ (s : State) (core slot : Nat) (g : Group) (h : SfItem) (rest : List SfItem), s.group? core slot = some g → g.sf = h :: rest → h.kind = .store → h.rel = none →
    s.stopped core slot = false → g.drainHeld h h.enter = false → s.bitErrors = [] → core < s.cores.length →
    ∃ t g', exec (.sfDrain core slot) s = .next t ∧ t.writes = s.writes ++ [s.newWrite core h.key h.bytes 1] ∧ t.co = s.co + 1 ∧
      (t.core core).prop = (s.core core).prop ++ propOf s h.key 1 slot ⟨0, h.scope, g.itemAddr h, h.bytes⟩ ∧ OnlyGroup s (t.withWrites s core) core slot ∧ t.group? core slot = some g' ∧ g'.sf = rest ∧
      g'.frames = g.frames ∧ g'.sets = g.sets) ∧
  (∀ (s : State) (core slot m : Nat) (g : Group) (h : SfItem) (rest : List SfItem), s.group? core slot = some g → g.sf = h :: rest → h.kind = .marker → h.rel = some m →
    s.stopped core slot = false → 1 < h.scope → core < s.cores.length →
    ∃ t g', exec (.sfDrain core slot) s = .next t ∧ (t.core core).prop = (s.core core).prop ++ [{ mark := some m, seq := 0, unit := 0, reach := 1, last := h.scope, slot := slot, shown := none }] ∧
      OnlyGroup s (t.withWrites s core) core slot ∧ t.writes = s.writes ∧ t.group? core slot = some g' ∧ g'.sf = rest ∧ g'.frames = g.frames) ∧
  (∀ (s : State) (core i : Nat) (x : PropItem), core < s.cores.length → (s.core core).prop[i]? = some x → mayPropagate (s.core core).prop i x = true →
    exec (.propagate core i) s = .next { s with
      writes := if x.mark.isSome then s.writes else s.writes.map (fun w => if w.seq = x.seq ∧ w.reach < x.reach + 1 then { w with reach := x.reach + 1 } else w)
      cores := s.cores.modify core (fun c => { c with prop := if x.reach + 1 = x.last then c.prop.eraseIdx i else c.prop.set i { x with reach := x.reach + 1 } }) }) ∧
  (∀ (s : State) (core i : Nat) (x : PropItem), s.cores.length ≤ core → s.feProp[i]? = some x → mayPropagate s.feProp i x = true →
    exec (.propagate core i) s = .next { s with
      writes := if x.mark.isSome then s.writes else s.writes.map (fun w => if w.seq = x.seq ∧ w.reach < x.reach + 1 then { w with reach := x.reach + 1 } else w)
      feProp := if x.reach + 1 = x.last then s.feProp.eraseIdx i else s.feProp.set i { x with reach := x.reach + 1 } }) ∧
  (∀ (s : State) (core slot f ty l d n : Nat) (g : Group) (h : SfItem) (rest : List SfItem) (o : Op) (p : Part) (x cmp : List Byte), s.group? core slot = some g → g.sf = h :: rest →
    h.kind = .atomic f ty [(l, x, cmp)] → h.rel = none → s.stopped core slot = false → g.drainHeld h h.issue = false → s.mayPerform core h.scope (unitOf h.key) = true →
    s.bitErrors = [] → core < s.cores.length → g.ops.find? (fun y => y.id == h.op) = some o → o.parts = [p] → p.lead = l → p.issue = h.issue → l < g.w → p.lanes = LaneSet.one l → p.prog = .entered →
    o.dest = .vec d n false → g.Targets p d n false → (h.bytes.length ≤ 4 ∧ n = 1 ∨ h.bytes.length = 4 * n) → h.key + h.bytes.length ≤ unitOf h.key + unitSize h.key →
    (∀ w ∈ s.writes, w.bytes.length = unitSize w.unit) →
    let old := s.unitRead h.key h.bytes.length (fun w => w.visible (some core) h.scope)
    let new := atomicValue f ty old x cmp
    ∃ t g', exec (.atomicPerform core slot) s = .next t ∧ t.writes = s.writes ++ [s.newWrite core h.key new (max 1 h.scope)] ∧ t.co = s.co + 1 ∧
      (t.core core).prop = (s.core core).prop ++ (if 6 ≤ max 1 h.scope then [] else propOf s h.key (max 1 h.scope) slot ⟨1, h.scope, p.va, new⟩) ∧ OnlyGroup s (t.withWrites s core) core slot ∧
      t.group? core slot = some g' ∧ g'.sf = rest ∧ g'.Holds p d false old) ∧
  ∀ (f ty : Nat) (old x c : List Byte), old.length = 4 → x.length = 4 → c.length = 4 → ty ≤ 1 → f ≤ 7 → leNat (atomicValue f ty old x c) =
    let v := leNat old
    let y := leNat x
    let lt := if ty = 0 then (BitVec.ofNat 32 y).toInt < (BitVec.ofNat 32 v).toInt else y < v
    match f with
    | 0 => (v + y) % 2 ^ 32 | 1 => if lt then y else v | 2 => if lt ∨ v = y then v else y | 3 => v &&& y | 4 => v ||| y | 5 => v ^^^ y | 6 => y | _ => if v = leNat c then y else v

/-- R123, R124, R336, R338: LOAD_PRESENT records what the core's memory point holds and where coherence order stands, when nothing of the
group's own store order is to be forwarded; LOAD_BIND gives the registers the bytes of the co-latest write among that one, those at the
points the load's scope consults without later writes of its own core, and its lanes' floors; TRANSLATION_COMPLETE makes a part ready with
its units and gives back the log entry, or finds its fault and gives it to its lanes. The binding is said of an access of one part and one
unit, the translation of a load of one part. The candidates are those of log 23. -/
def Obligations.LoadSteps : Prop :=
  (∀ (s : State) (core slot e i j : Nat) (g : Group) (o : Op) (p : Part) (u : AccUnit), s.group? core slot = some g → g.ops.find? (fun x => x.id == o.id) = some o →
    o.kind = .load → o.elems[e]? = some (i, j) → o.parts[i]? = some p → p.units[j]? = some u → u.prog = .issued → s.mayPresent g o p u = true → g.destSpilled o p = false → g.forwardFrom p u = none →
    ∃ t g' k, exec (.loadPresent core slot o.id e) s = .next t ∧ OnlyGroup s t core slot ∧ t.group? core slot = some g' ∧
      g' = g.setPart o.id i { p with units := p.units.set j { u with prog := .presented k s.co } } ∧
      k = ((s.latest (unitOf u.key) (fun w => w.cmps.contains core)).map WriteRec.seq).getD 0) ∧
  (∀ (s : State) (core slot d n k stamp : Nat) (uni : Bool) (g : Group) (o : Op) (p : Part) (u : AccUnit), s.group? core slot = some g → g.ops.find? (fun x => x.id == o.id) = some o →
    o.kind = .load → (g.ops.map Op.id).Nodup → o.parts = [p] → p.units = [u] → u.off = 0 → u.len = p.size → u.prog = .presented k stamp → o.dest = (if uni then .uni d n else .vec d n false) →
    g.Targets p d n uni → p.lanes ≠ 0 → (p.size ≤ 4 ∧ n = 1 ∨ p.size = 4 * n) → 0 < p.size → s.stopped core slot = false → s.bitErrors = [] →
    u.key + u.len ≤ unitOf u.key + unitSize u.key → (∀ w ∈ s.writes, w.bytes.length = unitSize w.unit) →
    let floor := (p.lanes.list g.w).foldl (fun m l => max m ((g.lane l).floor (unitOf u.key) p.issue)) 0
    ∃ t g', exec (.loadBind core slot o.id 0) s = .next t ∧ OnlyGroup s t core slot ∧ t.group? core slot = some g' ∧
      g'.Holds p d uni (s.unitRead u.key u.len (fun w => w.seq == k || w.seq == floor || (w.atPoint (some core) o.scope && !(w.origin == some core && decide (stamp < w.seq))))) ∧
      g'.ops.all (fun x => x.id != o.id) = true) ∧
  (∀ (s s1 : State) (core slot e : Nat) (g : Group) (o : Op) (p : Part) (us : List AccUnit), s.group? core slot = some g → (g.ops.map Op.id).Nodup → g.ops.find? (fun x => x.log == some e) = some o →
    o.kind = .load → o.whole = false → o.parts = [p] → p.prog = .untranslated → p.lanes ≠ 0 → s.translatePart g o p = (s1, .units us) →
    ∃ t g', exec (.translationComplete core slot e (~~~0)) s = .next t ∧ OnlyGroup s1 t core slot ∧ t.group? core slot = some g' ∧
      g'.ops.find? (fun x => x.id == o.id) = some { o with parts := [{ p with prog := .ready, units := us }], log := none }) ∧
  ∀ (s s1 : State) (core slot e code : Nat) (detail : Word) (fa : DWord) (g : Group) (o : Op) (p : Part), s.group? core slot = some g → (g.ops.map Op.id).Nodup →
    g.ops.find? (fun x => x.log == some e) = some o → o.kind = .load → o.whole = false → o.parts = [p] → p.prog = .untranslated → p.lanes ≠ 0 →
    (∀ l, p.lanes.has l = true → l < g.lanes.length) → s.translatePart g o p = (s1, .fault code detail fa) →
    ∃ t g', exec (.translationComplete core slot e (~~~0)) s = .next t ∧ OnlyGroup s1 t core slot ∧ t.group? core slot = some g' ∧
      g'.ops.find? (fun x => x.id == o.id) = some { o with parts := [{ p with prog := .faulted code detail fa }] } ∧
      ∀ l, p.lanes.has l = true → (g'.lane l).deferred = (g.lane l).deferred ++ [{ op := some o.id, id := p.issue, code := code, fpc := o.pc, faddr := fa, detail := detail, rs := true }]

/-! ## What a core does between words (R73, R79 to R81, R107 to R116, R131, R169 to R171, R320, R355, R356) -/

/-- R73, R79 to R81, R103, R107 to R109, R131, R360: COPY_TAKE takes the engine's next command and marks where coherence order stands, or waits
for a free slot of its buffer; a step of COPY_COMPLETE reads one unit of the source, and its last writes the bytes into the core's scratch,
as a write of that core, and its group's copy counter falls; a grant goes to the oldest request once its rows and quads are free;
ESCAPE_SPILL, when every group of the core waits or a request has waited for 2,048 clocks, writes a victim's register to the spill region of
its thread and leaves it spilled; REFILL_COMPLETE reads it back into granules of its own. The last step is said of a copy into one unit of
scratch, the spill and the refill of a register with one owner. The units of a copy are read and written as log 27 says, and the lanes of a
refilled register that own nothing hold free values (logs 9 and 27). -/
def Obligations.CoreEngineSteps : Prop :=
  (∀ (s : State) (core : Nat) (c : CopyCmd), (s.core core).engine.find? (fun x => !x.taken) = some c → c.cbuf = none → c.kind ≠ 3 → c.len ≠ 0 →
    exec (.copyTake core) s = .next { s with cores := s.cores.modify core (fun k => { k with engine := k.engine.map (fun x => if x.id == c.id then
      { c with
        taken := true
        stamp := s.co
        cbSlot := 0
        indices := []
        fault := none } else x) }) }) ∧
  (∀ (s : State) (core n k : Nat) (c : CopyCmd) (r : Region) (b : CBuf), (s.core core).engine.find? (fun x => !x.taken) = some c → c.cbuf = some n → c.sideCore c.dstHi = some k →
    s.region? k c.grid = some r →
    r.bufs.find? (fun x => x.num == n) = some b → b.free = 0 → exec (.copyTake core) s = .next s) ∧
  (∀ (s s1 s2 : State) (core i k : Nat) (c : CopyCmd) (g : Group) (runs : List (Nat × Nat × Nat)), (s.core core).engine[i]? = some c → c.taken = true → c.done = false → c.cbuf = none →
    c.kind = 0 → c.fault = none → c.got = [] → c.put = [] → s.stopped core c.slot = false → s.bitErrors = [] → s.copySource c = (s1, ⟨runs, []⟩) → s1.copyDest c = (s2, ⟨[(k, 0, c.len)], []⟩) → isScratchKey k = true →
    0 < c.len → k + c.len ≤ unitOf k + unitSize k → s.group? core c.slot = some g → g.grid = c.grid → g.team = c.team →
    ∃ t g', exec (.copyComplete core i 0) s = .next t ∧ t.writes = s.writes ++ [s.newWrite (c.keyCore k) k (s2.copyBytes c (CopySide.units ⟨runs, []⟩) 0 c.len) 1] ∧ t.co = s.co + 1 ∧
      t.mem = s.mem ∧ t.scratch = s.scratch ∧ (t.core core).engine = (s.core core).engine.filter (fun x => x.id != c.id) ∧
      t.group? core c.slot = some g' ∧ g' = { g with cp := g.cp - 1 } ∧ ∀ a b, ¬(a = core ∧ b = c.slot) → t.group? a b = s.group? a b) ∧
  (∀ (i : Instr) (s : State) (core : Nat) (r : Request), (s.core core).requests.find? (fun x => !x.granted) = some r → r.rows ≤ s.freeRows core → r.quads ≤ s.freeQuads core →
    ((i = .granuleGrant core ∧ 0 < r.rows) ∨ (i = .tagQuadGrant core ∧ 0 < r.quads)) →
    exec i s = .next { s with cores := s.cores.modify core (fun c => { c with requests := c.requests.map (fun x =>
      if x.slot = r.slot ∧ x.pc = r.pc ∧ x.lanes = r.lanes then { x with granted := true } else x) }) }) ∧
  (∀ (s : State) (core i m o l k : Nat) (c : CopyCmd) (s1 s2 : State) (src dst : CopySide), (s.core core).engine[i]? = some c → c.taken = true → c.done = false → s.bitErrors = [] →
    s.copySource c = (s1, src) → src.stops = [] → s1.copyDest c = (s2, dst) → dst.stops = [] → (∀ x ∈ src.units, x.2.1 + x.2.2 ≤ c.len) → src.units[m]? = some (k, o, l) →
    (∀ x ∈ c.got, x.1 ≠ o) → exec (.copyComplete core i (2 * m + 1)) s = .next (s2.updCopy core { c with got := c.got ++ [(o, s2.copyRead c k l)] })) ∧
  (∀ (s s1 s2 : State) (core l reg : Nat) (ready : BitVec 64) (r : Request) (g v : Group) (f : Frame) (gr : Grid) (more : List (Nat × Option Nat)) (ks : List (Nat × Nat × Nat)),
    (s.core core).requests.find? (fun x => !x.granted) = some r → s.group? core r.slot = some g → s.freeRows core < r.rows → s.coreIdle core = true ∨ s.longWait core = true →
    s.victim core ready g.grid g.team = some v → s.spillable v = (f.id, some reg) :: more → v.frame? f.id = some f → s.grid? v.grid = some gr → f.owners.list v.w = [l] →
    let a := gr.record.spillb + BitVec.ofNat 64 (((v.lane l).ix.toNat + gr.record.sx * ((v.lane l).iy.toNat +
      gr.record.sy * (v.lane l).iz.toNat)) * gr.record.spillt.toNat + 256 * f.depth) + BitVec.ofNat 64 (4 * reg)
    v.bad = [] → s.bitErrors = [] →
    ({ s with freeCtr := s.freeCtr + 1 } : State).locateBy (State.laneWalk v.core v.slot (LaneSet.one l) v.nextId) gr.fn ⟨true, false, false⟩ a 4 = (s1, .ok ks) →
    s2 = s1.putRuns ks (wordLe ((v.readV f reg).lane l)) → r.rows ≤ (s2.updGroup v.core v.slot (fun x => (x.setTag f.id reg .spilled).collect)).freeRows core →
    exec (.escapeSpill (core, ready)) s = .next (s2.updGroup v.core v.slot (fun x => (x.setTag f.id reg .spilled).collect))) ∧
  ∀ (s s1 : State) (core slot reg l k : Nat) (need : BitVec 64 × BitVec 64) (g : Group) (f : Frame) (gr : Grid), s.group? core slot = some g → g.Wf → g.frame? f.id = some f → s.grid? g.grid = some gr →
    f.tag reg = .spilled → reg < f.nv → g.perReg ≤ s.freeRows core → (s.core core).earlier slot (refillKey f.id reg) 0 = [] → f.owners.list g.w = [l] → s.bitErrors = [] →
    s.locateBy (State.laneWalk core slot (LaneSet.one l) g.nextId) gr.fn ⟨false, false, false⟩ ((g.lane l).spillBase gr.record f.depth + BitVec.ofNat 64 (4 * reg)) 4 = (s1, .ok [(k, 0, 4)]) →
    ∃ t g' f' id, exec (.refillComplete core slot f.id (reg, need)) s = .next t ∧ t.group? core slot = some g' ∧ OnlyGroup s1 { t with freeCtr := s1.freeCtr } core slot ∧
      g'.frame? f.id = some f' ∧ f'.tag reg = .g id ∧ (g'.setWords id).getD l 0 = leWord (s1.readKey (some core) 4 k 4) ∧ (∀ r, r ≠ reg → f'.tag r = f.tag r) ∧ f'.s = f.s

/-- R115, R116, R169 to R171, R320, R355, R356: a wait on address ends when its word, read again, differs from the compare value or its time is
up, and its lane goes on with the word; a time wait ends when its time has come, with every other that is due; a trial delay ends; a
breakpoint, and DSTOP.STOP, stop partitions with their cause, and DSTOP.RES lets them go on and applies the completion that was held; a
watchdog that has run out records the first stalled thread of the team, shows the fault in the grid's queue and cancels the grid. -/
def Obligations.WaitAndStopSteps : Prop :=
  (∀ (i : Instr) (s : State) (core slot l key seq : Nat) (g : Group) (w : WtaWait) (f : Frame) (bs : List Byte), s.group? core slot = some g → g.Wf → l < g.w → (g.lane l).run = .address w →
    w.key = some key → w.reading = false → s.stopped core slot = false → s.bitErrors = [] → g.waitSpilled w.frame w.dst w.size = false →
    s.readUnit g (LaneSet.one l) g.nextId w.scope key w.size = some (bs, seq) →
    g.frame? w.frame = some f → (g.lane l).frame = w.frame → w.dst + (regWords bs).length ≤ f.nv →
    (let differs := leDWord (bs ++ List.replicate (8 - bs.length) 0) ≠ w.cmp
     (i = .wtaWake core slot l ∧ w.watched = true ∧ differs) ∨ (i = .wtaPoll core slot l ∧ w.watched = false ∧ differs) ∨
      (i = .wtaTimeout core slot l ∧ ∃ d, w.deadline = some d ∧ d ≤ s.ptime.toNat)) →
    ∃ t g', exec i s = .next t ∧ OnlyGroup s t core slot ∧ t.group? core slot = some g' ∧ (g'.lane l).run = .running ∧ (g'.lane l).pc = (g.lane l).pc ∧
      (∀ j x, (regWords bs)[j]? = some x → g'.laneV (w.dst + j) l = x) ∧ ∀ k, k ≠ l → g'.lane k = g.lane k) ∧
  (∀ (s : State) (core slot l d : Nat) (g : Group), s.group? core slot = some g → (g.lane l).run = .time d → d ≤ s.ptime.toNat →
    exec (.timeWaitExpiry core slot l) s = .next { s with groups := s.groups.map (fun y => { y with
      lanes := y.lanes.map (fun x => match x.run with | .time n => if n ≤ s.ptime.toNat then { x with run := .running } else x | _ => x) }) }) ∧
  (∀ (s : State) (core slot : Nat) (g : Group), s.group? core slot = some g →
    ∃ t, exec (.trialDelayEnd core slot) s = .next t ∧ OnlyGroup s t core slot ∧ t.group? core slot = some { g with delay := 0 }) ∧
  (∀ (s : State) (cu : Cur), s.cur = some cu → exec .breakpointStop s = .next { s with cores := s.cores.modify cu.core (fun k =>
    { k with
      dstop := k.dstop ||| BitVec.ofNat 8 (2 ^ (cu.slot / 8))
      dcause := BitVec.ofNat 64 (2 + 8 * (cu.slot / 8)) }) }) ∧
  (∀ (s : State) (core p : Nat) (parts : BitVec 8), s.fwState ≠ 2 → p < 8 → parts.getLsbD p = true → (∀ q, p < q → parts.getLsbD q = false) →
    exec (.dstopStop core parts) s = .next { s with cores := s.cores.modify core (fun k =>
      { k with
        dstop := k.dstop ||| parts
        dcause := BitVec.ofNat 64 (1 + 8 * p) }) }) ∧
  (∀ (s : State) (core : Nat) (parts : BitVec 8), s.fwState ≠ 2 → (∀ g ∈ s.groups, g.evicting = none) → (s.core core).completions = [] →
    exec (.dstopResume core parts) s = .next { s with cores := s.cores.modify core (fun k => { k with dstop := k.dstop &&& ~~~parts }) }) ∧
  (∀ (s : State) (core : Nat) (parts : BitVec 8) (c : CopyCmd) (g : Group), s.fwState ≠ 2 → (∀ x ∈ s.groups, x.evicting = none) → core < s.cores.length →
    (s.core core).completions = [.copy c.slot c.id] → (s.core core).engine = [c] → c.done = true → c.cbuf = none → c.fault = none → parts.getLsbD (c.slot / 8) = true →
    s.group? core c.slot = some g → g.grid = c.grid → g.team = c.team →
    ∃ t, exec (.dstopResume core parts) s = .next t ∧ t.group? core c.slot = some { g with cp := g.cp - 1 } ∧
      t.core core = { s.core core with
        dstop := (s.core core).dstop &&& ~~~parts
        completions := []
        engine := []
        regions := (t.core core).regions
        ranges := (t.core core).ranges }) ∧
  ∀ (s : State) (gr : Grid) (tm : Team) (y : Group) (k : Nat), s.grid? gr.num = some gr → s.team? gr.num tm.num = some tm → s.watchdogDue tm = true → y ∈ s.groups → y.grid = gr.num →
    y.team = tm.num → tm.grid = gr.num → k < y.w → (s.laneStall y k).isSome = true →
    ∃ x l d, x ∈ s.groups ∧ x.grid = gr.num ∧ x.team = tm.num ∧ s.laneStall x l = some d ∧
      (∀ z ∈ s.groups, z.grid = gr.num → z.team = tm.num → ∀ j < z.w, (s.laneStall z j).isSome = true → lexLt [z.core, z.slot] [x.core, x.slot] = false) ∧
      (∀ j < l, s.laneStall x j = none) ∧
      exec (.watchdogExpiry gr.num tm.num) s = .next ((((s.updTeam gr.num tm.num (fun v => { v with timer := some (2 ^ 64) })).ring gr.fn
        { grid := gr.num, team := tm.number, core := x.core, slot := x.slot, lane := l, code := 0x14, kind := 3, flags := 0, queue := gr.queue, fpc := (x.lane l).pc, faddr := 0,
          detail := BitVec.ofNat 32 d }).setFaulted gr.num).cancelGrid gr.num 0x11)

/-! ## Dispatch, launches, command queues and kernel graphs (R22 to R42, R135 to R150, R161, R398 to R410) -/

/-- R22, R23, R36, R37, R40, R41, R158, R161: TEAM_DISPATCH places the next team of a grid on the cores found for its class: a team record, and
its groups with their threads at the kernel's entry; ALLOTMENT_GRANT serves the die whose request came first from the pool, or ends its
dispatch, and no other die; ALLOTMENT_ARRIVAL gives a die an allotment of the root, or its word that none is left; and
CLASS_REQUEST_ARRIVAL, of this device or through the root of another, sets the class of the teams chosen from then on. A group takes the
lowest free slot of its partition (log 25). -/
def Obligations.DispatchSteps : Prop :=
  (∀ (s s1 : State) (die : Nat) (g g1 : Grid) (c : DieCut) (b : TeamBox) (p : Plan), s.NextTeam die g c b → s1 = s.updCut g.num die (DieCut.choose g.record) → s1.grid? g.num = some g1 →
    s1.placing g1 die c.last (b.ex * b.ey * b.ez) (ceilDiv (b.ex * b.ey * b.ez) g.record.w) (g.record.sf + g.record.si * (b.ex * b.ey * b.ez)) (min c.cls s.cap) = .cores p →
    ∃ t x gs, exec (.teamDispatch die g.num) s = .next t ∧ t.mem = s.mem ∧ t.grids.length = s.grids.length ∧ t.teams = s.teams ++ [x] ∧ x.grid = g.num ∧ x.num = teamKey die c.teams ∧ x.box = b ∧
      x.die = die ∧ x.tn = b.ex * b.ey * b.ez ∧ x.gcnt = ceilDiv (b.ex * b.ey * b.ez) g.record.w ∧ x.ss = g.record.sf + g.record.si * (b.ex * b.ey * b.ez) ∧
      x.cls = min c.cls s.cap ∧ t.groups = s.groups ++ gs ∧ gs.map (fun y => (y.core, y.gix)) = p.flatMap (fun y => y.2.map (fun i => (y.1, i))) ∧
      ∀ y ∈ gs, y.Fresh g b die (teamKey die c.teams) y.core y.gix) ∧
  (∀ (s : State) (die : Nat) (g : Grid) (c : DieCut), s.grid? g.num = some g → die < 2 → g.cuts[die]? = some c → g.record.reach ≠ 2 → g.cancelSeen = false → c.requested = true →
    g.askers.head? = some die → exec (.allotmentGrant die g.num) s = .next (match g.pool with
      | a :: rest => (s.updGrid g.num (fun x => { x with pool := rest })).updCut g.num die (fun y => { y with allots := y.allots ++ [a], requested := false })
      | [] => s.updCut g.num die (fun y => { y with requested := false, ended := true }))) ∧
  (∀ (s : State) (die : Nat) (g : Grid) (c : DieCut), s.grid? g.num = some g → die < 2 → g.cuts[die]? = some c → g.record.reach ≠ 2 →
    c.requested = false ∨ g.askers.head? ≠ some die → exec (.allotmentGrant die g.num) s = .next s) ∧
  (∀ (s : State) (die lo len : Nat) (g : Grid) (c : DieCut), s.grid? g.num = some g → g.cuts[die]? = some c → g.record.reach = 2 → g.cancelSeen = false → c.requested = true →
    g.askers.head? = some die → exec (.allotmentArrival die g.num lo len) s = .next (s.updCut g.num die (fun y =>
      if len = 0 then { y with requested := false, ended := true } else { y with requested := false, allots := y.allots ++ [(lo, len)] }))) ∧
  (∀ (s : State) (die : Nat) (r : ClassRequest), s.classRequests.find? (fun x => x.die == die) = some r →
    exec (.classRequestArrival (die, none)) s = .next (({ s with classRequests := s.classRequests.erase r } : State).updCut r.grid die (fun y => { y with cls := r.cls }))) ∧
  ∀ (s : State) (die k : Nat) (g : Grid), s.grid? g.num = some g → g.record.reach = 2 →
    exec (.classRequestArrival (die, some (g.num, k))) s = .next (s.updCut g.num die (fun y => { y with cls := k % 8 }))

/-- R39, R135, R136, R139, R142, R143, R147, R398, R399, R406: LAUNCH_ACCEPT turns a request whose record passes the checks into a grid with the
next number, dealt out when its START has come, or refuses it with a record of the cause; LAUNCH_START_RELEASE deals out a grid whose START
has come, whole to the one die of a grid of die reach; GRID_COMPLETE fences, and after the fence performs the event and drops the grid;
NODE_SIGNAL counts a node's predecessors and fires it at the last, and makes the store of an END node, by its bytes as it fired (log 17),
once its release is complete; WAIT_TIME_EXPIRY releases the node's successors, behind a release at dev; PREFETCH_COPY_COMPLETE sets RES and
counts a copy off. The request and the signal are the only ones that wait; the event is that of EVOP 1, without a NODE. Checks whose order
R138 leaves open are made as log 26 says. -/
def Obligations.LaunchSteps : Prop :=
  (∀ (s s1 : State) (r : LaunchRequest) (rec : LaunchRecord), s.requests = [r] → r.mark = none → s.checkLaunch (r.word.map LnchWord.core) r.fn r.addr = (s1, .ok rec) → rec.reach ≠ 2 →
    (∀ g ∈ s.grids, g.num ≠ BitVec.ofNat 8 s.dev ++ BitVec.ofNat 24 s.launchSeq) →
    ∃ t g, exec .launchAccept s = .next t ∧ t.requests = [] ∧ t.grids = s.grids ++ [g] ∧ g.num = BitVec.ofNat 8 s.dev ++ BitVec.ofNat 24 s.launchSeq ∧ g.fn = r.fn ∧ g.queue = r.queue ∧ g.issuer = r.issuer ∧
      g.record = rec ∧ (g.released = true ↔ rec.start.toNat ≤ s.ptime.toNat) ∧ t.launchSeq = s.launchSeq + 1 ∧ t.groups.length = s.groups.length) ∧
  (∀ (s s1 : State) (r : LaunchRequest) (cause : Nat) (a : DWord) (f q k : Nat), s.requests = [r] → r.mark = none → r.issuer = .command f q k → r.word = none →
    s.checkLaunch none r.fn r.addr = (s1, .refused cause a) →
    exec .launchAccept s = .next (({ s1 with requests := [] } : State).ring r.fn (launchRecordOf 0xFFFFFFFF 0 0xFFFF 0 cause r.queue 0 a))) ∧
  (∀ (s : State) (g : Grid) (c0 c1 : DieCut), s.grid? g.num = some g → g.released = false → g.record.reach = 0 → g.cancelSeen = false → g.record.start.toNat ≤ s.ptime.toNat → (∀ m ∈ g.fenceMarks, s.markPending m = false) →
    g.cuts = [c0, c1] → c0.takes = true → c1.takes = false →
    ∃ t g', exec (.launchStartRelease g.num) s = .next t ∧ t = { s with grids := t.grids } ∧ t.grid? g.num = some g' ∧ g'.released = true ∧ g'.pool = [] ∧ (g'.cuts[1]?).map DieCut.allots = some c1.allots ∧
      (g'.cuts[0]?).map DieCut.allots = some [(0, if 1 < g.record.sz then g.record.sz else if 1 < g.record.sy then g.record.sy else g.record.sx)]) ∧
  (∀ (s : State) (g : Grid), s.grid? g.num = some g → g.cancelled = none → g.record.reach ≠ 2 → s.gridOver g = true → g.fenced = false →
    ∃ t, exec (.gridComplete g.num) s = .next t ∧ t.grid? g.num = some
        { g with
          completing := true
          fenced := true
          fenceMarks := [s.stamp + 1] } ∧
      t.feProp = (if s.feProp = [] then [] else s.feProp ++ [{ mark := some (s.stamp + 1), seq := 0, unit := 0, reach := 1, last := max 2 g.record.evscope, slot := 0, shown := none }]) ∧
      ∀ k < s.cores.length, (t.core k).prop = if (s.core k).prop = [] then [] else (s.core k).prop ++ [{ mark := some (s.stamp + 1), seq := 0, unit := 0, reach := 1, last := max 2 g.record.evscope, slot := 0, shown := none }]) ∧
  (∀ (s s0 s1 : State) (g : Grid) (f q k : Nat), s.grid? g.num = some g → g.cancelled = none → g.record.reach ≠ 2 → g.completing = true → g.fenced = true → (∀ m ∈ g.fenceMarks, s.markPending m = false) →
    g.record.evop = 1 → g.record.evaddr ≠ 0 → g.record.evaddr.toNat % 8 = 0 → s.frozen.contains (0x40 + g.fn) = false →
    s.storeBad g.fn (0x40 + g.fn) g.record.evaddr 8 = (s0, false) →
    s0.feStore (if g.record.evscope = 3 then some (96 * ((g.cuts.findIdx? DieCut.takes).getD 0)) else none) g.record.evscope g.fn g.record.evaddr (natLe 8 g.record.evval.toNat) = (s1, none) → g.record.node = 0 → g.issuer = .command f q k →
    ∃ t, exec (.gridComplete g.num) s = .next t ∧ t.grids = s1.grids.filter (fun x => x.num != g.num) ∧ t.writes = s1.writes ∧ t.signals = s1.signals) ∧
  (∀ (s s1 s2 : State) (x : Signal) (raw : List Byte), s.ending = none → s.frozen.contains (0x40 + x.fn) = false → s.signals = [x] → (∀ m ∈ x.marks, s.markPending m = false) → x.addr.toNat % 64 = 0 → s.feRead none 4 x.fn x.addr 64 = (s1, .ok raw) →
    ¬(field raw 0 1 = 2 ∧ 0 < field raw 0x2C 4) → 2 ≤ field raw 4 2 → ({ s1 with signals := [] } : State).feWrite x.fn (x.addr + 4) (natLe 2 (field raw 4 2 - 1)) = (s2, none) →
    exec .nodeSignal s = .next s2) ∧
  (∀ (s s1 s2 : State) (x : Signal) (raw : List Byte) (tb : DWord), s.ending = none → s.frozen.contains (0x40 + x.fn) = false → s.signals = [x] → (∀ m ∈ x.marks, s.markPending m = false) → x.table = some tb → x.addr.toNat % 64 = 0 → s.feRead none 4 x.fn x.addr 64 = (s1, .ok raw) →
    field raw 0 1 = 3 → field raw 4 2 = 1 → (⟨x.addr, tb, raw, x.fn, x.queue, x.entry⟩ : Node).bad = none →
    ({ s1 with signals := [] } : State).feWrite x.fn (x.addr + 4) (natLe 2 (field raw 2 2)) = (s2, none) →
    exec .nodeSignal s = .next { s2 with armed := s2.armed ++ [{ addr := x.addr, table := tb, fn := x.fn, queue := x.queue, time := field raw 0x20 8 + (if field raw 1 1 % 2 = 1 then s2.ptime.toNat else 0), entry := x.entry, raw := raw }] }) ∧
  (∀ (s s1 : State) (i : Nat) (a : Armed) (raw : List Byte), s.armed[i]? = some a → a.time ≤ s.ptime.toNat → s.frozen.contains (0x40 + a.fn) = false →
    s.feRead none 4 a.fn a.addr 64 = (s1, .ok raw) → field raw 6 1 % 16 ≤ 6 →
    exec (.waitTimeExpiry i) s = .next { (s1.deviceFence 4).1 with armed := s1.armed.eraseIdx i, signals := s1.signals ++ (List.range (field raw 6 1 % 16)).map (fun j =>
      { addr := a.table + BitVec.ofNat 64 (64 * field raw (8 + 2 * j) 2), table := some a.table, fn := a.fn, queue := a.queue, marks := [(s1.deviceFence 4).2], word := none,
        entry := a.entry, pc := 0 }) }) ∧
  (∀ (s s1 s2 : State) (e : Ending), s.ending = some e → s.markPending e.mark = false → s.frozen.contains (0x40 + e.fn) = false → let a : DWord := BitVec.ofNat 64 (field e.raw 0x20 8)
    a.toNat % 8 = 0 → ({ s with ending := none } : State).storeBad e.fn (0x40 + e.fn) a 8 = (s1, false) →
    s1.feStore none 4 e.fn a (natLe 8 (field e.raw 0x28 8)) = (s2, none) → exec .nodeSignal s = .next s2) ∧
  ∀ (s s1 s2 : State) (i : Nat) (p : Prefetch) (c d : PrefetchCopy) (more : List PrefetchCopy), s.prefetches[i]? = some p → p.copies = c :: d :: more → c.lost = false → s.frozen.contains (0x40 + p.fn) = false → s.prefetchMove p.fn c = (s1, none) →
    s1.feWrite p.fn (c.entry + 0x14) (natLe 4 1) = (s2, none) →
    exec (.prefetchCopyComplete i 0) s = .next { s2 with prefetches := s2.prefetches.set i { p with copies := d :: more } }

/-- R148 to R150, R323, R340, R400, R410: each command is taken from its queue and has its effect: the context's table and mode, a launch record
for the front end, a signal to a node, a cancellation, a wait for a word, a value to store once its grids are done, a vector table, empty
translation caches behind a release at sys; an entry that breaks its op's limits, a reserved op and an entry that cannot be read halt the
queue with a record, and one whose read the access table forbids freezes the front end's master. The queue's own registers, the budget
period and the charge do what their rules say. Which grids a SIGNAL waits for is the choice of log 18. -/
def Obligations.CommandSteps : Prop :=
  (∀ s fn q e, s.Takes fn q 1 e → (s.queue fn q).block = .none → (s.headMoved fn q).earlierRuns fn q ((s.headMoved fn q).queue fn q).head.toNat = false →
    exec (.ctxset fn q) s = .next { (s.headMoved fn q).updFn fn (fun f =>
      { f with
        level0 := some e.a.toNat
        sva := e.b.getLsbD 0 }) with tlb := s.tlb.filter (fun x => x.1 != fn) }) ∧
  (∀ s fn q e, s.Takes fn q 2 e → exec (.launch fn q) s = .next { s.headMoved fn q with
    requests := s.requests ++ [{ addr := e.a, fn := fn, queue := q, issuer := .command fn q (s.queue fn q).head.toNat, word := none, mark := none }] }) ∧
  (∀ s fn q e, s.Takes fn q 3 e → exec (.trigger fn q) s = .next { s.headMoved fn q with signals := s.signals ++
    [{ addr := e.a, table := none, fn := fn, queue := q, marks := [], word := none, entry := some (s.queue fn q).head.toNat, pc := 0 }] }) ∧
  (∀ s fn q e g, s.Takes fn q 4 e → s.grid? (e.a.setWidth 32) = some g →
    exec (.cancel fn q) s = .next (if g.fn = fn then (s.headMoved fn q).cancelGrid (e.a.setWidth 32) 0x10 else s.headMoved fn q)) ∧
  (∀ s s1 fn q e bs, s.Takes fn q 5 e → (s.headMoved fn q).feRead none 6 fn e.a 8 = (s1, .ok bs) →
    exec (.waitev fn q) s = .next (if e.b.toNat ≤ leNat bs then s1 else s1.updQueue fn q (fun x => { x with block := .waitev e.a e.b }))) ∧
  (∀ s s1 fn q a b bs, (s.queue fn q).block = .waitev a b → s.feRead none 6 fn a 8 = (s1, .ok bs) → b.toNat ≤ leNat bs →
    exec (.waitevSatisfied fn q) s = .next (s1.updQueue fn q (fun x => { x with block := .none }))) ∧
  (∀ s fn q e, s.Takes fn q 6 e → exec (.signal fn q) s = .next ((s.headMoved fn q).updQueue fn q (fun x =>
    { x with signals := x.signals ++ [{ entry := (s.queue fn q).head.toNat, addr := e.a, value := e.b, mark := none }] }))) ∧
  (∀ s s0 s1 fn q (p : PendingSignal) m, (s.queue fn q).signals = [p] → s.earlierRuns fn q p.entry = false → p.mark = some m → s.markPending m = false →
    s.frozen.contains (0x40 + fn) = false → s.storeBad fn (0x40 + fn) p.addr 8 = (s0, false) → s0.feStore none 6 fn p.addr (natLe 8 p.value.toNat) = (s1, none) →
    exec (.signalStore fn q) s = .next (s1.updQueue fn q (fun x => { x with signals := x.signals.filter (fun y => y.entry != p.entry) }))) ∧
  (∀ s fn q e, s.Takes fn q 7 e → exec (.tvtset fn q) s = .next ((s.headMoved fn q).updFn fn (fun f => { f with tvt := e.a }))) ∧
  (∀ s fn q e, s.Takes fn q 8 e → (s.queue fn q).block = .none → let r := (s.headMoved fn q).deviceFence 6
    exec (.cinv fn q) s = .next (if r.1.markPending r.2 then r.1.updQueue fn q (fun x => { x with block := .cinv r.2 }) else { r.1 with tlb := s.tlb.filter (fun x => x.1 != fn) })) ∧
  (∀ s fn q m, (s.queue fn q).block = .cinv m → s.markPending m = false →
    exec (.cinv fn q) s = .next { s.updQueue fn q (fun x => { x with block := .none }) with tlb := s.tlb.filter (fun x => x.1 != fn) }) ∧
  (∀ s fn q, s.queueOpen fn q = true →
    (∀ e, s.readCommand fn q = .ok e → e.op = 0 ∨ 8 < e.op → exec (.reservedCommandEntry fn q) s = .next (s.halts fn q 0x30 (s.queue fn q).entryAddr)) ∧
    (∀ a, s.readCommand fn q = .error a → exec (.reservedCommandEntry fn q) s =
      .next ((s.noteErrors fn (if (s.queue fn q).base.getLsbD 0 then a.toNat else hostKey a.toNat) 32).halts fn q 0x31 a))) ∧
  (∀ s fn q, s.queueReady fn q = true → s.ringForbidden fn q = true → ∃ t, exec (.reservedCommandEntry fn q) s = .next t ∧ t.frozen.contains (0x40 + fn) = true ∧
    t.queue fn q = s.queue fn q ∧ ∀ op body, t.command fn q op body = t) ∧
  (∀ s fn q e, s.queueOpen fn q = true → s.readCommand fn q = .ok e → e.op = 2 → e.b ≠ 0 → exec (.launch fn q) s = .next (s.halts fn q 0x30 (s.queue fn q).entryAddr)) ∧
  (∀ s fn q v, fn < s.fns.length → q < (s.fn fn).queues.length → (s.fn fn).ready = true → (s.queue fn q).halted = false →
    exec (.qtailWrite fn q v) s = .next (if 2 ^ (s.queue fn q).size.toNat < (v - (s.queue fn q).head).toNat
      then (s.updQueue fn q (fun x => { x with tail := v })).halts fn q 0x32 (s.queue fn q).entryAddr else s.updQueue fn q (fun x => { x with tail := v }))) ∧
  (∀ s fn q, (s.fn fn).ready = true → exec (.qclrClearFault fn q) s = .next (s.updQueue fn q (fun x => { x with faulted := false }))) ∧
  (∀ s fn q, (s.fn fn).ready = true → (s.queue fn q).halted = true → ((s.queue fn q).tail - (s.queue fn q).head).toNat ≤ 2 ^ (s.queue fn q).size.toNat →
    exec (.qclrRestart fn q) s = .next (s.updQueue fn q (fun x => { x with halted := false }))) ∧
  (∀ s, exec .budgetPeriod s = .next { s with fns := s.fns.map (fun f => { f with queues := f.queues.map (fun x =>
    { x with
      charge := 0
      descheduled := false }) }) }) ∧
  ∀ s fn q ch, exec (.queueDeschedule fn q ch) s = .next (s.updQueue fn q (fun x =>
    { x with
      charge := ch
      descheduled := x.descheduled || (decide (x.budget ≠ 0) && decide (x.budget.toNat ≤ ch.toNat)) }))

/-! ## Pods, cancellation, power, links and firmware (R151 to R163, R402 to R414) -/

/-- R151 to R155, R402 to R404, R406, R407: the root keys a launch no earlier than its START, the lead and the issuer's launch before it, and
every device holds launches in key order; a launch below one already released is counted and recorded; the lowest is released when its start
has come. A launch of the device is answered when the root has taken it. A part that is over fences at pod and reports; its completion
passes to the issuer. The first cause of a cancellation stays, and a device that is not the root asks the root; a device that takes it drops
what is not dispatched, its groups issue no more, and for cause 0x11 its queue shows the fault; once they are gone it fences and reports;
the issuer, once the root has passed the completion, writes the summary record, fences, and drops the grid. What other devices send stands
in the agenda (log 15). -/
def Obligations.PodSteps : Prop :=
  (∀ (s : State) (seq fn queue : Nat) (raw : List Byte) (g : Grid), s.root = true → s.inPod = true → s.grid? (PodLaunch.mk 0 s.dev seq).grid = some g → s.reachOk g.record = true →
    s.keyReady seq = true → s.residentOk g.record (g.record.dies none) = true → g.released = false → g.cancelSeen = false → g.cuts.any DieCut.takes = true → s.podReleased = none → (∀ x ∈ s.podHeld, x.grid ≠ (PodLaunch.mk 0 s.dev seq).grid) → (∀ x ∈ s.podOut, x.issuer = s.dev) →
    ∃ t start, exec (.podLaunchKey s.dev seq fn queue raw) s = .next t ∧ t = { s with podHeld := t.podHeld, podStarts := t.podStarts, podOut := t.podOut, groups := t.groups } ∧
      Answered s t g.issuer g.num ∧
      start = max (max g.record.start.toNat (s.ptime.toNat + 5000)) (((s.podStarts.find? (fun x => x.1 == s.dev)).map Prod.snd).getD 0) ∧
      InsertsLaunch ⟨start, s.dev, seq⟩ s.podHeld t.podHeld ∧ t.podStarts.find? (fun x => x.1 == s.dev) = some (s.dev, start) ∧ t.podOut = s.podOut.filter (fun x => x.grid != g.num)) ∧
  (∀ (s : State) (start : DWord) (issuer seq fn queue : Nat) (raw : List Byte) (g : Grid), let k : PodLaunch := ⟨start.toNat, issuer, seq⟩
    s.grid? k.grid = some g → g.released = false → g.cancelSeen = false → g.cuts.any DieCut.takes = true → k ∉ s.podHeld →
    ((∀ p, s.podReleased = some p → ¬k.Precedes p) → ∃ t, exec (.podLaunchReceive start issuer seq fn queue raw) s = .next t ∧
      t = { s with podHeld := t.podHeld, podOut := s.podOut.filter (fun x => x.grid != k.grid), groups := t.groups } ∧ s.AnswersPod t k.grid g.issuer ∧
      InsertsLaunch k s.podHeld t.podHeld) ∧
    ∀ p, s.podReleased = some p → k.Precedes p → ∃ u l, InsertsLaunch k s.podHeld l ∧ s.AnswersPod u k.grid g.issuer ∧
      exec (.podLaunchReceive start issuer seq fn queue raw) s = .next (({ s with
        podHeld := l
        groups := u.groups
        podOut := s.podOut.filter (fun x => x.grid != k.grid)
        late := if s.late = 0xFFFF then 0xFFFF else s.late + 1 } : State).ring 0 (launchRecordOf k.grid 0 0xFFFF 0 0x14 g.queue g.issuer.pc 0))) ∧
  (∀ (s : State) (k : PodLaunch) (rest : List PodLaunch) (g : Grid), s.podHeld = k :: rest → s.lock = true ∨ s.root = true → k.start ≤ s.ptime.toNat → s.grid? k.grid = some g →
    ∃ t g', exec .podLaunchRelease s = .next t ∧ t = { s with podHeld := rest, podReleased := t.podReleased, grids := t.grids } ∧ t.grid? k.grid = some g' ∧ g'.released = true ∧
      g'.record = g.record ∧ ∃ r, t.podReleased = some r ∧ (r = k ∨ s.podReleased = some r) ∧ ¬r.Precedes k ∧ ∀ p, s.podReleased = some p → ¬r.Precedes p) ∧
  (∀ (s : State) (g : Grid), s.grid? g.num = some g → g.record.reach = 2 → g.cancelled = none →
    (∀ d, s.root = true → d ≠ s.dev → exec (.podPartReport (g.num, some d)) s = .next (s.updGrid g.num (fun g => g.reported d))) ∧
    (g.partDone = false → g.cuts.any DieCut.takes = true → g.fenced = false → s.gridOver g = true → ∃ t, exec (.podPartReport (g.num, none)) s = .next t ∧ Fenced s t 5 ∧ t.grid? g.num = some { g with fenced := true, fenceMarks := [s.stamp + 1] }) ∧
    (g.partDone = false → g.cuts.any DieCut.takes = true → g.fenced = true → s.gridOver g = true → (∀ m ∈ g.fenceMarks, s.markPending m = false) →
      ∃ t, exec (.podPartReport (g.num, none)) s = .next t ∧ OnlyGrid s t g.num ∧
      t.grid? g.num = some { g.reported s.dev with partDone := true, fenced := false, fenceMarks := [] })) ∧
  (∀ (s : State) (g : Grid), s.grid? g.num = some g → g.record.reach = 2 → s.Reported g →
    (∀ d, g.issuer = .remote d → ∃ t, exec (.podCompletion g.num) s = .next t ∧ t.grids = s.grids.filter (fun x => x.num != g.num) ∧ t.groups = s.groups) ∧
    ((∀ d, g.issuer ≠ .remote d) → g.cancelled = none → ∃ t, exec (.podCompletion g.num) s = .next t ∧ OnlyGrid s t g.num ∧ t.grid? g.num = some { g with completing := true }) ∧
    ((∀ d, g.issuer ≠ .remote d) → g.cancelled ≠ none → ∃ t, exec (.podCompletion g.num) s = .next t ∧ OnlyGrid s t g.num ∧
      t.grid? g.num = some (if s.root then g else { g with passed := true }))) ∧
  (∀ (s : State) (g : Grid) (cause : Nat), s.grid? g.num = some g → OnlyGrid s (s.cancelGrid g.num cause) g.num ∧ (s.cancelGrid g.num cause).grid? g.num = some (s.cancels g cause)) ∧
  (∀ (s : State) (g : Grid) (cause : BitVec 8), s.grid? g.num = some g → g.record.reach ≠ 2 ∨ s.root = true →
    ∃ t, exec (.cancelRequest g.num cause) s = .next t ∧ OnlyGrid s t g.num ∧ t.grid? g.num = some (g.cancel cause.toNat)) ∧
  (∀ (s : State) (g : Grid) (cause : BitVec 8), s.grid? g.num = some g → g.cancelled = some cause.toNat ∨ g.record.reach = 2 ∧ s.root = false ∧ 0 ∉ s.lostPeers → g.cancelSeen = false →
    g.completing = false →
    ∃ t, exec (.cancelReceive g.num cause) s = .next t ∧ t.mem = s.mem ∧ t.writes = s.writes ∧ t.podHeld = s.podHeld.filter (fun k => k.grid != g.num) ∧
      t.podOut = s.podOut.filter (fun k => k.grid != g.num) ∧ t.units = s.units.filter (fun u => u.grid != g.num) ∧
      t.grid? g.num = some { g with
        cancelled := some cause.toNat, cancelSeen := true, pool := [], askers := [], partDone := false, reporters := [], fenced := false, fenceMarks := [], cuts := g.cuts.map (fun c =>
        { c with allots := [], todo := [], chosen := none, moving := [], requested := false, ended := true }) } ∧
      (cause = 0x11 → (∀ d, g.issuer ≠ .remote d) → g.fn < s.fns.length → g.queue < (s.fn g.fn).queues.length → (t.queue g.fn g.queue).faulted = true) ∧
      ∀ core slot x, s.group? core slot = some x → (∀ k ∈ s.podOut, k.grid ≠ g.num) ∨ (∀ pc f d l o, g.issuer ≠ .thread core slot pc f d l o) →
        (x.grid ≠ g.num → t.group? core slot = some x) ∧
        (x.grid = g.num → ∃ y, t.group? core slot = some y ∧ y.chains = [] ∧ y.arrivals = [] ∧ y.traps = [] ∧ y.heldFault = none ∧ y.holds = [] ∧ y.sf = x.sf ∧ y.lanes = x.lanes ∧
          y.frames = x.frames ∧ y.sets = x.sets)) ∧
  (∀ (s : State) (g : Grid), s.grid? g.num = some g → g.cancelSeen = true →
    (∀ d n, g.record.reach = 2 → d ≠ s.dev → d ∉ g.reporters → exec (.cancelReport (g.num, some (d, n))) s = .next (s.updGrid g.num (fun g =>
      { g with
        recorders := if n = 0 then g.recorders else g.recorders ++ [d]
        reporters := g.reporters ++ [d]
        others := g.others + n }))) ∧
    (g.partDone = false → (∀ t ∈ s.teams, t.grid ≠ g.num) → (∀ u ∈ s.units, u.grid ≠ g.num) → g.fenced = false → ∃ t, exec (.cancelReport (g.num, none)) s = .next t ∧ Fenced s t 5 ∧ t.grid? g.num = some { g with fenced := true, fenceMarks := [s.stamp + 1] }) ∧
    (g.partDone = false → (∀ t ∈ s.teams, t.grid ≠ g.num) → (∀ u ∈ s.units, u.grid ≠ g.num) → g.fenced = true → (∀ m ∈ g.fenceMarks, s.markPending m = false) →
      ∃ t, exec (.cancelReport (g.num, none)) s = .next t ∧ OnlyGrid s t g.num ∧ t.grid? g.num = some { g.reported s.dev with
        partDone := true, recorders := if g.records = 0 then g.recorders else g.recorders ++ [s.dev], fenced := false, fenceMarks := [] })) ∧
  ∀ (s : State) (g : Grid) (cause : Nat), s.grid? g.num = some g → g.cancelled = some cause → (∀ d, g.issuer ≠ .remote d) → s.Reported g →
    g.record.reach ≠ 2 ∨ s.root = true ∨ g.passed = true ∨ 0 ∈ s.lostPeers →
    (g.completing = false → ∃ t s1, exec (.cancelSummary g.num) s = .next t ∧
      s1 = s.ring g.fn (launchRecordOf g.num g.recorders.length (g.recorders.foldl min (g.recorders.headD 0xFFFF)) 0 cause g.queue g.issuer.pc (BitVec.ofNat 64 (min (g.records + g.others) (2 ^ 64 - 1)))) ∧ Fenced s1 t g.record.evscope ∧
      t.grid? g.num = (s1.grid? g.num).map (fun x => { x with completing := true, fenced := true, fenceMarks := [s1.stamp + 1] })) ∧
    (g.completing = true → g.record.evop = 0 ∨ g.record.evaddr = 0 → (∀ m ∈ g.fenceMarks, s.markPending m = false) →
      ∃ t, exec (.cancelSummary g.num) s = .next t ∧ t.grids = s.grids.filter (fun x => x.num != g.num) ∧ t.signals = s.signals ∧ t.mem = s.mem)

/-- R151, R152, R157 to R163, R405, R410, R411: a power period sets DRAWW and moves CAP by the thresholds, counts periods over the limit, and
holds admission after ten in a row; a move ends in its pool, or drops further to the highest class that is resident; byte budgets change
together, within their limits; an idle cluster is admitted with at most two others in a window, in cyclic order; a thermal trip needs a
reset; a synchronisation message sets OFFS and loses or regains lock, its lack loses it, and the launches whose start has come are released
before; a pod that forms numbers its device, and %ptime only advances. The pool of a cluster that drops changes at the start of the drop
(log 25). -/
def Obligations.PowerAndTimeSteps : Prop :=
  (∀ (s : State) (draw : BitVec 16), exec (.powerPeriod draw) s = .next (
    let d := draw.toNat
    let lim := if s.form = 2 then 2800 else 2600
    let run := if lim < d ∧ s.cap = 0 then s.overRun + 1 else 0
    { s with
      draww := draw
      cap := if 97 * lim < 100 * d then s.cap - 1 else if 100 * d < 85 * lim then min 7 (s.cap + 1) else s.cap
      overPeriods := if lim < d ∧ s.overPeriods ≠ 0xFFFFFFFF then s.overPeriods + 1 else s.overPeriods
      overRun := run
      hold := if 100 * d < 85 * lim then false else s.hold || decide (10 ≤ run) })) ∧
  (∀ (s : State) (n k : Nat), n < s.clusters.length → (s.cluster n).move = some k →
    ((∀ m, s.Highest n m → k ≤ m) → exec (.poolMoveComplete n) s = .next (s.updCluster n (fun c => { c with pool := k, move := none }))) ∧
    ∀ m, s.Highest n m → m < k → exec (.poolMoveComplete n) s = .next (s.updCluster n (fun c => { c with pool := m, move := some m }))) ∧
  (∀ (s : State) (bs : List (BitVec 24)), bs.length = 24 → (∀ b ∈ bs, 64 ≤ b.toNat) → 64 * ((bs.take 12).map BitVec.toNat).sum ≤ 16000000 → 64 * ((bs.drop 12).map BitVec.toNat).sum ≤ 16000000 →
    ∃ t, exec (.byteBudgetInterval bs) s = .next t ∧ t = { s with clusters := t.clusters } ∧ ∀ n < s.clusters.length, t.cluster n = { s.cluster n with byb := bs.getD n 64 }) ∧
  (∀ (s : State) (n : Nat), exec (.clusterIdle n) s = .next (s.updCluster n (fun c => if 256 ≤ c.cyc10 / 10 - c.lastIssue then { c with idle := true } else c))) ∧
  (∀ (s : State), s.hold = true → exec .slewAdmissionWindow s = .next s) ∧
  (∀ (s : State), s.hold = false → let now := s.ptime.toNat / 100
    let used := if s.window = now then s.windowed else 0
    let l := (((List.range 24).map (fun i => (s.admitted + 1 + i) % 24)).filter s.asks).take (3 - used)
    (l = [] → exec .slewAdmissionWindow s = .next s) ∧
    (l ≠ [] → s.clusters.length = 24 → ∃ t, exec .slewAdmissionWindow s = .next t ∧
      t = { s with clusters := t.clusters, admitted := l.getLastD s.admitted, window := now, windowed := used + l.length } ∧
      ∀ n, t.cluster n = if n ∈ l then { s.cluster n with idle := false, lastIssue := (s.cluster n).cyc10 / 10 } else s.cluster n)) ∧
  (∀ (s : State), exec .thermalTrip s = .next { s with therm := true }) ∧
  (∀ (s : State) (offs : Int), s.root = false → ∃ t, exec (.syncMessage offs) s = .next t ∧
    (s.lock = true → t.lock = false → State.LosesLock { s with offs := t.offs } t) ∧ (s.lock = false ∨ t.lock = true → t = { s with offs := t.offs, lock := t.lock, syncs := t.syncs }) ∧
    t.offs.toInt = max (-2147483648) (min 2147483647 offs) ∧
    (s.lock = true → (t.lock = false ↔ offs < -500 ∨ 500 < offs)) ∧
    (s.lock = false → (t.lock = true ↔ (-100 ≤ offs ∧ offs ≤ 100) ∧ 15 ≤ s.syncs) ∧ (t.lock = false → t.syncs = if -100 ≤ offs ∧ offs ≤ 100 then s.syncs + 1 else 0))) ∧
  (∀ (s : State), s.root = true → exec .syncTimeout s = .next s) ∧ (∀ (s : State), s.root = false → ∃ t, exec .syncTimeout s = .next t ∧ s.LosesLock t) ∧
  ∀ (s : State) (dev : Nat) (members : BitVec 128) (time : DWord), dev < 128 → members.getLsbD dev = true → members.getLsbD 0 = true →
    ∃ t, exec (.podFormation dev members time) s = .next t ∧ t = { s with dev := dev, members := members, root := dev == 0, lock := dev == 0, syncs := 0, ptime := t.ptime } ∧
      t.ptime.toNat = max s.ptime.toNat time.toNat

/-- R412 to R414, R408: a flit that is sent again is counted; a port that goes down loses the devices without a route, and the pod grids they
take part in are cancelled, on the device itself where the root is lost; a port trains and comes up with its far end; a bridge that fails
cancels every grid and needs a reset. Boot code runs a good image, or enters recovery with the error; the host has a staged image run that
verifies, which replaces the flash's if that is asked; bring-up leaves the values of R414; a function becomes ready with them, and with the
access tables of the memory allotted to it; a firmware core that fails sets FAIL and cancels its function's grids. What the flash holds
follows log 22. -/
def Obligations.LinkAndFirmwareSteps : Prop :=
  (∀ (s : State) (n : Nat), exec (.flitReplay n) s = .next { s with ports := s.ports.modify n (fun p => { p with replay := if p.replay = 0xFFFFFFFF then 0xFFFFFFFF else p.replay + 1 }) }) ∧
  (∀ (s : State) (n : Nat) (lost : List Nat), (s.grids.map Grid.num).Nodup → ∃ t, exec (.portDown n lost) s = .next t ∧ t = { s with ports := t.ports, grids := t.grids, lostPeers := t.lostPeers } ∧
    t.ports = s.ports.modify n (fun p => { p with state := 0 }) ∧ (∀ d, d ∈ t.lostPeers ↔ d ∈ s.lostPeers ∨ s.Lost lost d) ∧ t.grids.length = s.grids.length ∧
    ∀ (i : Nat) (g : Grid), s.grids[i]? = some g →
      (g.record.reach = 2 → s.Lost lost 0 → ∃ a, t.grids[i]? = some { g.cancel 0x13 with asked := a }) ∧
      (g.record.reach = 2 → ¬s.Lost lost 0 → (∃ d, s.Lost lost d ∧ d ∈ g.record.devices s.members) → t.grids[i]? = some (s.cancels g 0x13)) ∧
      (¬(g.record.reach = 2 ∧ ∃ d, s.Lost lost d ∧ (d = 0 ∨ d ∈ g.record.devices s.members)) → t.grids[i]? = some g)) ∧
  (∀ (s : State) (n : Nat) (peer pport : BitVec 8), exec (.portRetraining n false peer pport) s = .next { s with ports := s.ports.modify n (fun p => { p with state := 1 }) } ∧
    exec (.portRetraining n true peer pport) s = .next { s with
      ports := s.ports.modify n (fun p =>
        { p with
          state := 2
          peer := peer
          pport := pport })
      lostPeers := s.lostPeers.filter (fun d => d != peer.toNat) }) ∧
  (∀ (s : State), exec .bridgeReplayFail s = .next { s with grids := s.grids.map (fun g => s.cancels g 0x13), fatal := true }) ∧
  (∀ (s : State) (err : BitVec 8) (version : Word), s.fwState = 0 →
    (err = 0 → ∃ t, exec (.firmwareBoot err version) s = .next t ∧ s.BroughtUp version t) ∧
    (err ≠ 0 → exec (.firmwareBoot err version) s = .next { s with fwState := 2, fwErr := err })) ∧
  (∀ (s : State) (len : Word) (err : BitVec 8) (version : Word) (i : Instr), i = .fwcmdRun len err version ∨ i = .fwcmdFlash len err version →
    (s.fwState = 0 → exec i s = .next s) ∧ (s.fwState ≠ 0 → err ≠ 0 → exec i s = .next { s with fwErr := err })) ∧
  (∀ (s : State) (len version : Word), s.fwState ≠ 0 → (∃ t, exec (.fwcmdRun len 0 version) s = .next t ∧ s.BroughtUp version t) ∧
    (Memory.wf s.mem = true → ∃ t img, exec (.fwcmdFlash len 0 version) s = .next t ∧ State.BroughtUp { s with flash := img } version t ∧ img.len = len.toNat ∧ img.version = version ∧
      ∀ i < len.toNat, Memory.read img.bytes i = Memory.read s.mem (hostKey s.fwstg.toNat + i))) ∧
  (∀ (s : State) (fn : Nat) (allotted : List (Nat × Nat)), s.fwState = 1 → 1 ≤ fn → (s.fn fn).ready = false → ∃ t, exec (.functionReady (fn, allotted)) s = .next t ∧
    t = { s.updFn fn (fun _ => { Fn.reset with ready := true }) with access := t.access } ∧ (allotted = [] → t.access = s.access) ∧
    (allotted ≠ [] → ∀ r, r ∈ t.access ↔ if r.master = fn ∨ r.master = 0x20 + fn ∨ r.master = 0x40 + fn then (r.lo, r.hi) ∈ allotted ∧ r.read = true ∧ r.write = true else r ∈ s.access)) ∧
  ∀ (s : State) (fn : Nat), fn < 17 → (s.grids.map Grid.num).Nodup → exec (.firmwareCoreFail fn) s = .next { s with
    fns := s.fns.modify fn (fun f => { f with fail := true })
    grids := s.grids.map (fun g => if g.fn = fn then s.cancels g 0x13 else g) }

/-! ## Save areas, registers and pre-emption (R6, R82, R148, R166 to R172, R346, R354, R377 to R397) -/

/-- R82, R170, R172, R383: DUMPA_WRITE writes the stopped groups of a core and what stands in its dev queue to memory and shows BUSY, until
DUMP_COMPLETE, also while an earlier dump runs; for an address that is not 64-aligned it changes nothing (the model's, log 20); a group's
save area says its own size, width and index. Where a dump goes, what DUMPST counts, and that an address off its alignment starts no dump,
follow log 20. -/
def Obligations.DumpAndSaveAreas : Prop :=
  (∀ (s s1 : State) (core : Nat) (v : DWord), v.toNat % 64 = 0 → s.fwState ≠ 2 →
    s.writeVa none 0 0 v ((s.stoppedGroups core).flatMap s.dumpGroup ++ s.dumpQueue core) = (s1, none) →
    exec (.dumpaWrite core v) s = .next (s1.updCore core (fun c =>
      { c with
        dumpa := v
        dumpst := BitVec.ofNat 64 (1 + 65536 * ((s.stoppedGroups core).length + 1)) }))) ∧
  (∀ (s : State) (core : Nat) (v : DWord), v.toNat % 64 ≠ 0 ∨ s.fwState = 2 → exec (.dumpaWrite core v) s = .next s) ∧
  (∀ (s : State) (core : Nat), exec (.dumpComplete core) s = .next (s.updCore core (fun c => { c with dumpst := c.dumpst &&& 0xFFFFFFFFFFFFFFFE }))) ∧
  ∀ (s : State) (g : Group), g.Wf → (s.saveArea g).length < 2 ^ 32 → (s.saveArea g).length % 64 = 0 ∧ field (s.saveArea g) 0x00 4 = 1 ∧ field (s.saveArea g) 0x04 1 = g.w ∧
    field (s.saveArea g) 0x06 2 = g.gix % 65536 ∧ field (s.saveArea g) 0x0C 2 = g.fmode.toNat ∧ field (s.saveArea g) 0x0E 2 = g.fflags.toNat ∧
    field (s.saveArea g) 0x10 8 = (s.saveArea g).length

/-- R166 to R168, R378 to R382: SCRUB_READ of a unit to which no access is pending counts a correctable error in COR and mends it, and counts an
uncorrectable one in UNC and names it in MERRLAST with SRC 7; MERRCNT_WRITE clears the counts. A request that the access table forbids
freezes its master, with a record in the physical function's ring of code 0x0A and KIND 3 that names the grid, the address and, in DETAIL,
the request and the master, or, without a ring, counted in FLTLOST; ACCCTL_WRITE lets the master run, its held requests gone and their grids
cancelled; a write of the host enters memory at the sys point, while its own master is not frozen and its table lets it. CENSCTL_CLEAR_DIFF,
CENSCTL_CHK and TRIALCTL_WRITE change the census and trial registers; in recovery all these registers ignore writes. An empty access table
permits everything (log 11). -/
def Obligations.ErrorAndCensusSteps : Prop :=
  (∀ (s : State) (fn : Nat), s.fwState ≠ 2 → exec (.merrcntWrite fn) s = .next (s.updFn fn (fun f =>
    { f with
      merrUnc := 0
      merrCor := 0 }))) ∧
  (∀ (s : State) (i : Instr) (fn : Nat) (v : DWord), i = .merrcntWrite fn ∨ i = .censctlClearDiff fn ∨ i = .censctlChk fn ∨ i = .trialctlWrite fn v →
    s.fwState = 2 → exec i s = .next s) ∧
  (∀ (s : State) (pa : Nat), s.errorsAt pa = [] ∨ s.paPresent pa = false ∨ s.unitPending (Machine.unitOf pa) = true → exec (.scrubRead pa) s = .next s) ∧
  (∀ (s : State) (pa : Nat), s.paPresent pa = true → s.unitPending (Machine.unitOf pa) = false → s.errorsAt pa ≠ [] → (∀ e ∈ s.errorsAt pa, e.uncorrectable = false) → s.fns ≠ [] →
    ∃ t, exec (.scrubRead pa) s = .next t ∧ t.errorsAt pa = [] ∧ OnlyFn s { t with bitErrors := s.bitErrors } 0 ∧ (∀ e ∈ s.bitErrors, e ∉ s.errorsAt pa → e ∈ t.bitErrors) ∧
      t.fn 0 = { s.fn 0 with merrCor := if (s.fn 0).merrCor = 0xFFFFFFFF then 0xFFFFFFFF else (s.fn 0).merrCor + 1 } ∧ t.merrlast = s.merrlast) ∧
  (∀ (s : State) (pa : Nat) (e : BitError), s.paPresent pa = true → s.unitPending (Machine.unitOf pa) = false → (s.errorsAt pa).find? BitError.uncorrectable = some e → s.fns ≠ [] →
    ∃ t, exec (.scrubRead pa) s = .next t ∧ t = { s with fns := t.fns, merrlast := BitVec.ofNat 64 (7 * 2 ^ 60 + e.key % 2 ^ 56) } ∧
      (t.fn 0).merrUnc = if (s.fn 0).merrUnc = 0xFFFF then 0xFFFF else (s.fn 0).merrUnc + 1) ∧
  (∀ (s : State) (master pa : Nat) (kind : BitVec 3) (grid : Word), s.cur = none → ¬s.Forbids master pa (kind.getLsbD 0 || kind.getLsbD 2) →
    exec (.accessViolation master pa kind grid) s = .next s) ∧
  (∀ (s : State) (master pa : Nat) (kind : BitVec 3) (grid : Word), s.cur = none → s.Forbids master pa (kind.getLsbD 0 || kind.getLsbD 2) → (s.fn 0).fltbase.getLsbD 0 = false →
    s.frozen.contains master = false →
    exec (.accessViolation master pa kind grid) s = .next ({ s with frozen := master :: s.frozen }.updFn 0 (fun f => { f with fltlost := f.fltlost + 1 }))) ∧
  (∀ (s s1 : State) (master pa : Nat) (kind : BitVec 3) (grid : Word), s.cur = none → s.Forbids master pa (kind.getLsbD 0 || kind.getLsbD 2) → (s.fn 0).fltbase.getLsbD 0 = true →
    s.frozen.contains master = false → master < 256 → pa < 2 ^ 56 →
    let n := 2 ^ ((s.fn 0).fltctl.toNat % 32)
    let va := ((s.fn 0).fltbase &&& 0xFFFFFFFFFFFFFFC0) + BitVec.ofNat 64 (64 * ((s.fn 0).flttail.toNat % n))
    let num : Word := if master < 0x40 then grid else 0xFFFFFFFF
    ((s.fn 0).flttail - (s.fn 0).flthead).toNat ≠ n → ({ s with frozen := master :: s.frozen } : State).storeBad 0 0x40 va 64 = (s1, false) →
    ∃ bs : List Byte, bs.length = 64 ∧ field bs 0x00 4 = num.toNat ∧ (0x40 ≤ master → field bs 0x04 4 = 0 ∧ field bs 0x0F 1 = 0) ∧ field bs 0x0C 1 = 0x0A ∧ field bs 0x0D 1 = 3 ∧
      field bs 0x0E 1 = 0 ∧ field bs 0x18 8 = pa ∧ field bs 0x20 4 = kind.toNat + 8 * 6 + 256 * master ∧ field bs 0x28 8 = s.ptime.toNat ∧
      ∀ s2, s1.writeVa none 0 0x40 va bs = (s2, none) → exec (.accessViolation master pa kind grid) s =
        .next ((s2.updFn 0 (fun f => { f with flttail := f.flttail + 1 })).updGrid num (fun g => { g with records := g.records + 1 }))) ∧
  (∀ (s : State) (cu : Cur) (g : Group) (master pa : Nat) (kind : BitVec 3) (grid : Word), s.cur = some cu → s.group? cu.core cu.slot = some g →
    ∃ t g', exec (.accessViolation master pa kind grid) s = .next t ∧ t.frozen.contains master = true ∧ t.group? cu.core cu.slot = some g' ∧ g' = { g with lost := g.lost ||| cu.path }) ∧
  (∀ (s : State) (id : BitVec 8), s.frozen.contains id.toNat = false ∨ s.fwState = 2 → exec (.accctlWrite id) s = .next s) ∧
  (∀ (s : State) (id : BitVec 8), s.frozen.contains id.toNat = true → s.fwState ≠ 2 → (s.grids.map Grid.num).Nodup → ∃ t, exec (.accctlWrite id) s = .next t ∧
    t = { s with
      frozen := s.frozen.erase id.toNat
      frozenHeld := s.frozenHeld.filter (fun x => x.1 != id.toNat)
      groups := t.groups
      cores := t.cores
      prefetches := t.prefetches
      grids := t.grids } ∧
    (∀ (j : Nat) (g : Grid), s.grids[j]? = some g → (s.heldRequest id.toNat g = false → t.grids[j]? = some g) ∧
      (s.heldRequest id.toNat g = true → ∃ r, t.grids[j]? = some { s.cancels g 0x12 with record := r } ∧ (g.completing = false → r = g.record))) ∧
    (∀ k, t.core k = { s.core k with engine := (s.core k).engine.filter (fun x => !s.copyHeld id.toNat x) }) ∧
    ∀ core slot g, s.group? core slot = some g → ∃ g', t.group? core slot = some g' ∧ g' = { g with ops := g'.ops } ∧ (s.fnOf g.grid ≠ id.toNat → g' = g) ∧
      ∀ o ∈ g'.ops, ∀ p ∈ o.parts, p.prog = .untranslated → ∃ o' ∈ g.ops, p ∈ o'.parts ∧ (s.fnOf g.grid = id.toNat → s.partHeld g o' p = false)) ∧
  (∀ (s : State) (key : Nat) (bs : List Byte), bs ≠ [] → isHostKey key = true → isHostKey (key + bs.length) = true → (∀ w ∈ s.writes, w.bytes.length = unitSize w.unit) →
    ∃ t, exec (.hostWrite key bs) s = .next t ∧ t.readKey none 6 key bs.length = bs ∧ t = { s with co := t.co, writes := t.writes } ∧
      ∀ k, k + 1 ≤ key ∨ key + bs.length ≤ k → (∀ w ∈ s.writes, w.visible none 6 = true) → t.readKey none 6 k 1 = s.readKey none 6 k 1) ∧
  (∀ (s : State) (key : Nat) (bs : List Byte), bs ≠ [] → s.paPresent key = true → s.paPresent (key + bs.length - 1) = true → (∀ w ∈ s.writes, w.bytes.length = unitSize w.unit) →
    (0x60 ∈ s.frozen → exec (.hostWrite key bs) s = .next s) ∧
    (0x60 ∉ s.frozen → (∀ r ∈ s.access, r.master ≠ 0x60) → ∃ t, exec (.hostWrite key bs) s = .next t ∧ t.readKey none 6 key bs.length = bs) ∧
    (0x60 ∉ s.frozen → s.Forbids 0x60 key true → (s.fn 0).fltbase.getLsbD 0 = false →
      exec (.hostWrite key bs) s = .next ({ s with frozen := 0x60 :: s.frozen }.updFn 0 (fun f => { f with fltlost := f.fltlost + 1 })))) ∧
  (∀ (s : State) (fn : Nat), s.fwState ≠ 2 → exec (.censctlClearDiff fn) s = .next (s.updFn fn (fun f =>
    { f with
      censctl := f.censctl &&& 0xFFFFFFFFFFFFFFF7
      censdiff := 0 }))) ∧
  (∀ (s : State) (fn i : Nat) (a b : List Byte), s.fwState ≠ 2 → i < (s.fn fn).censctl.toNat / 2 ^ 32 → s.censEntry fn (s.fn fn).censbase i = some a → s.censEntry fn (s.fn fn).censref i = some b →
    a ≠ b → (∀ j < i, ∀ x y, s.censEntry fn (s.fn fn).censbase j = some x → s.censEntry fn (s.fn fn).censref j = some y → x = y) →
    exec (.censctlChk fn) s = .next (s.updFn fn (fun f =>
      if f.censctl.getLsbD 3 then f
      else
        { f with
          censctl := f.censctl ||| 8
          censdiff := 0xFFFFFFFF#32 ++ BitVec.ofNat 32 i }))) ∧
  (∀ (s : State) (fn : Nat), (∀ i < (s.fn fn).censctl.toNat / 2 ^ 32, ∀ x y, s.censEntry fn (s.fn fn).censbase i = some x →
    s.censEntry fn (s.fn fn).censref i = some y → x = y) → exec (.censctlChk fn) s = .next s) ∧
  ∀ (s : State) (fn : Nat) (v : DWord), s.fwState ≠ 2 → exec (.trialctlWrite fn v) s = .next (s.updFn fn (fun f =>
    { f with
      trialctl := v &&& 0xFFFFFFFFFFFF0001
      dlycnt := if v.getLsbD 0 then 0 else f.dlycnt }))

/-- R6, R112, R148, R166, R168, R170, R346, R354, R388, R412, R413: a register without behaviour of its own takes the bits that are not
reserved, which then read back, a reserved bit reads 0, and no other register of any function changes; a value out of range changes nothing;
a register that only reads keeps its value; breakpoints of a core and the progress registers take theirs; before the firmware runs only
FWSTG can be written. -/
def Obligations.RegisterResults : Prop :=
  (∀ (s : State) (fn : Nat) (v : DWord) (x : Nat × DWord), x ∈ contextRegisters → s.fwState = 1 → fn < s.fns.length →
    ∃ t, exec (.registerWrite fn x.1 v) s = .next t ∧ OnlyFn s t fn ∧ t.readRegister fn x.1 = (v &&& x.2).toNat ∧ ∀ off, off ≠ x.1 → t.readRegister fn off = s.readRegister fn off) ∧
  (∀ (s : State) (fn q : Nat) (v : DWord) (x : Nat × DWord), x ∈ queueRegisters → s.fwState = 1 → fn < s.fns.length → q < 8 → q < (s.fn fn).queues.length → (s.fn fn).ready = true →
    ∃ t, exec (.registerWrite fn (0x1000 + 0x40 * q + x.1) v) s = .next t ∧ OnlyFn s t fn ∧ t.readRegister fn (0x1000 + 0x40 * q + x.1) = (v &&& x.2).toNat ∧
      ∀ off, off ≠ 0x1000 + 0x40 * q + x.1 → t.readRegister fn off = s.readRegister fn off) ∧
  (∀ (s : State) (fn q : Nat) (v : DWord), s.fwState = 1 → fn < s.fns.length → q < 8 → q < (s.fn fn).queues.length → (s.fn fn).ready = true →
    (v.toNat % 32 < 4 ∨ 16 < v.toNat % 32 → exec (.registerWrite fn (0x1008 + 0x40 * q) v) s = .next s) ∧
    (4 ≤ v.toNat % 32 → v.toNat % 32 ≤ 16 → (s.queue fn q).halted = true → ∃ t, exec (.registerWrite fn (0x1008 + 0x40 * q) v) s = .next t ∧ OnlyFn s t fn ∧
      t.readRegister fn (0x1008 + 0x40 * q) = v.toNat % 32)) ∧
  (∀ (s : State) (fn n : Nat) (v : DWord), n < 16 → s.fwState = 1 → fn < s.fns.length → n < (s.fn fn).progs.length →
    ∃ t, exec (.registerWrite fn (0x0380 + 8 * n) v) s = .next t ∧ OnlyFn s t fn ∧ t.readRegister fn (0x0380 + 8 * n) = v.toNat) ∧
  (∀ (s : State) (core n : Nat) (v : DWord), n < 4 → core < 192 → core < s.cores.length → n < (s.core core).bps.length → s.fwState = 1 →
    ∃ t, exec (.registerWrite 0 (0x8010 + 0x100 * core + 8 * n) v) s = .next t ∧ t = { s with cores := t.cores } ∧ (∀ k, k ≠ core → t.core k = s.core k) ∧
      t.readRegister 0 (0x8010 + 0x100 * core + 8 * n) = (v &&& 0x00FFFFFFFFFFFFFD).toNat) ∧
  (∀ (s : State) (fn : Nat) (v : DWord), s.fwState = 1 → (v.toNat % 32 < 4 ∨ 12 < v.toNat % 32 → exec (.registerWrite fn 0x0408 v) s = .next s) ∧
    (v.toNat % 64 ≠ 0 → exec (.registerWrite fn 0x0488 v) s = .next s) ∧
    (∀ off ∈ ([0x0300, 0x0308] : List Nat), v.toNat % 64 ≠ 0 ∨ 2 ^ 56 ≤ v.toNat → exec (.registerWrite fn off v) s = .next s) ∧ ∀ off ∈ readOnlyRegisters, exec (.registerWrite fn off v) s = .next s) ∧
  (∀ (s : State) (fn : Nat) (v : DWord), s.fwState = 1 → fn < s.fns.length →
    (4 ≤ v.toNat % 32 → v.toNat % 32 ≤ 12 → ∃ t, exec (.registerWrite fn 0x0408 v) s = .next t ∧ OnlyFn s t fn ∧ t.readRegister fn 0x0408 = v.toNat % 32) ∧
    (v.toNat % 64 = 0 → ∃ t, exec (.registerWrite fn 0x0488 v) s = .next t ∧ OnlyFn s t fn ∧ t.readRegister fn 0x0488 = v.toNat % 2 ^ 40) ∧
    ∀ off ∈ ([0x0300, 0x0308] : List Nat), v.toNat % 64 = 0 → v.toNat < 2 ^ 56 → ∃ t, exec (.registerWrite fn off v) s = .next t ∧ OnlyFn s t fn ∧
      t.readRegister fn off = v.toNat) ∧
  (∀ (s : State) (v : DWord), (v.toNat % 4096 = 0 → exec (.registerWrite 0 0x04F0 v) s = .next { s with fwstg := v }) ∧ (v.toNat % 4096 ≠ 0 → exec (.registerWrite 0 0x04F0 v) s = .next s)) ∧
  ∀ (s : State) (fn off : Nat) (v : DWord), s.fwState ≠ 1 → ¬(fn = 0 ∧ off = 0x04F0) → exec (.registerWrite fn off v) s = .next s

/-- R150, R385 to R397: the slice passes to the next queue in turn, each for as many slices as its weight, and takes for eviction only groups
that R387 and R389 let it take; a marked unit that has drained is written into a block of the pool and leaves its cores, or the eviction is
abandoned when a lane has moved or a group holds a fault; a unit wakes when a watched word differs or its time is up; at its queue's slice
it is restored with the registers and places that its groups had, on cores of the first kind by R158 that has room, and empty clusters move
to its class first. The restoring is said of a unit of one core whose lanes wait on no address. The order of slices, the victims and the
places of blocks and restored sets that the rules leave open follow logs 19 and 21. -/
def Obligations.PreemptionSteps : Prop :=
  (∀ (s : State) (j f q i f' q' i' : Nat), s.units = [] → s.slices[j]? = some (f, q, i) → s.sliceOwner = some (f, q) → s.slicePos = i →
    s.slices[(j + 1) % s.slices.length]? = some (f', q', i') → (∀ g ∈ s.grids, ¬(g.fn = f' ∧ g.queue = q')) →
    exec .sliceBoundary s = .next { s with
      sliceOwner := some (f', q')
      slicePos := i' }) ∧
  (∀ (s : State) (core slot : Nat) (g : Group), s.units = [] → (s.groups.map (fun x => (x.core, x.slot))).Nodup → s.group? core slot = some g →
    ∃ t g', exec .sliceBoundary s = .next t ∧ t.group? core slot = some g' ∧ g' = { g with evicting := g'.evicting } ∧
      (g' ≠ g → g'.evicting.isSome = true ∧ g.evicting = none ∧ g.heldFault = none ∧ s.stopped core slot = false ∧
        ∃ x, s.grid? g.grid = some x ∧ x.record.resident = false ∧ x.cancelSeen = false ∧ t.sliceOwner ≠ some (x.fn, x.queue))) ∧
  (∀ (s s0 s1 s2 : State) (g : Grid) (x : Team) (u : EvictUnit) (blk : DWord) (bytes : List Byte) (fl m : Nat), s.grid? g.num = some g → s.team? g.num x.num = some x → u = s.unitOf g x → u.groups ≠ [] →
    (∀ y ∈ u.groups, y.evicting.isSome = true ∧ s.stopped y.core y.slot = false) → u.faulted = false → s.unitDrained u = true → s.hasMoved u = false → g.cancelSeen = false →
    s.contextBlock u (s.savesRunnable u) = (bytes, fl) → s.poolRoom g.fn bytes.length = true → s.blockPlace g.fn blk bytes.length = true → s.unitFence (coresOf u.groups) = (s0, m) →
    s0.storeBad g.fn (0x40 + g.fn) blk bytes.length = (s1, false) → s1.writeVa none g.fn (0x40 + g.fn) blk bytes = (s2, none) → g.fn < s2.fns.length →
    ∃ t e, exec (.eviction g.num x.num blk) s = .next t ∧ t.units = s2.units ++ [e] ∧ e.grid = g.num ∧ e.block = blk ∧ e.size = bytes.length ∧ e.groups = u.groups ∧ e.teams = u.teams ∧
      e.evt = s.ptime.toNat ∧ e.marks = [m] ∧ t.groups = s2.groups.filter (fun y => !(y.grid == g.num && u.teams.contains y.team)) ∧ t.mem = s2.mem ∧ t.writes = s2.writes ∧
      (t.fn g.fn).evicts = (s2.fn g.fn).evicts + 1 ∧ (t.fn g.fn).inuse = (s2.fn g.fn).inuse + BitVec.ofNat 32 (bytes.length / 64)) ∧
  (∀ (s : State) (g : Grid) (x : Team) (u : EvictUnit) (blk : DWord), s.grid? g.num = some g → s.team? g.num x.num = some x → u = s.unitOf g x → u.groups ≠ [] →
    (∀ y ∈ u.groups, y.evicting.isSome = true ∧ s.stopped y.core y.slot = false) → u.faulted = true ∨ s.unitDrained u = true ∧ s.hasMoved u = true →
    ∃ t, exec (.eviction g.num x.num blk) s = .next t ∧ t = { s with groups := t.groups } ∧
      ∀ core slot y, s.group? core slot = some y → (∀ z ∈ u.groups, ¬(z.core = core ∧ z.slot = slot)) ∧ t.group? core slot = some y ∨
        (∃ z ∈ u.groups, z.core = core ∧ z.slot = slot) ∧ t.group? core slot = some { y with evicting := none, moved := false }) ∧
  (∀ (s : State) (g : Grid) (x : Team) (wake : Bool) (bytes : List Byte) (fl : Nat), s.grid? g.num = some g → s.team? g.num x.num = some x →
    s.contextBlock (s.unitOf g x) wake = (bytes, fl) → bytes.length < 2 ^ 32 →
    field bytes 0x00 4 = 0x101 ∧ field bytes 0x04 4 = g.num.toNat ∧ field bytes 0x0C 1 = fl ∧ (fl / 4 % 2 = 1 ↔ wake = true) ∧ field bytes 0x10 8 = bytes.length ∧ field bytes 0x18 8 = s.ptime.toNat ∧
      bytes.length % 64 = 0) ∧
  (∀ (s s1 : State) (i : Nat) (u : EvictedUnit), s.units[i]? = some u → u.wake = false →
    u.runnable = true ∨ (∃ g ∈ u.groups, ∃ x ∈ g.lanes, ∃ w, x.run = .address w ∧ s.MayWake u.fn w) → s.feWrite u.fn (u.block + 0x0C) [BitVec.ofNat 8 (u.fl + 4)] = (s1, none) →
    exec (.wakeCheck i) s = .next { s1 with units := s1.units.set i { u with wake := true, fl := u.fl + 4 } }) ∧
  (∀ (s : State) (i : Nat) (u : EvictedUnit), s.units[i]? = some u → u.runnable = false → (∀ g ∈ u.groups, ∀ x ∈ g.lanes, ∀ w, x.run = .address w → ¬s.MayWake u.fn w) →
    exec (.wakeCheck i) s = .next s) ∧
  (∀ (s s1 : State) (i core c0 : Nat) (u : EvictedUnit) (g : Grid) (x : RestoreTier), s.units[i]? = some u → u.pending = true → s.grid? u.grid = some g → u.cores = [c0] → u.fl % 2 = 0 →
    u.moving = [] → x ≠ .empty → s.FirstTier u x →
    (∀ (j : Nat) (x : EvictedUnit), s.units[j]? = some x → x.pending = true → u.evt < x.evt ∨ (u.evt = x.evt ∧ i ≤ j)) → (∀ x ∈ s.groups, ¬(x.grid = u.grid ∧ x.team ∈ u.teams)) →
    (∀ x ∈ u.groups, x.core = c0 ∧ x.grid = u.grid ∧ x.team ∈ u.teams ∧ ∀ l ∈ x.lanes, ∀ w, l.run ≠ .address w) → (s.windowsLeft u).restoreSet u g (s.tierCore u x) c0 core = some s1 → s1.rowsFit core = true →
    core = c0 ∨ (∀ m ∈ u.marks, s.markPending m = false) →
    ∃ t zs, exec (.restore i core) s = .next t ∧ t.units = s.units.eraseIdx i ∧ t.groups = s.groups ++ zs ∧
      zs.map (fun z => { z with slot := 0 }) = u.groups.map (fun y =>
        { y with
          core := core
          slot := 0
          evicting := none
          moved := false
          stalls := [] }) ∧
      ∀ x ∈ t.teams, x.grid = u.grid → x.num ∈ u.teams → x.evicted = false) ∧
  (∀ (s : State) (i core : Nat) (u : EvictedUnit), s.units[i]? = some u → u.pending = true → u.moving = [] →
    (∀ (j : Nat) (x : EvictedUnit), s.units[j]? = some x → x.pending = true → u.evt < x.evt ∨ (u.evt = x.evt ∧ i ≤ j)) → s.FirstTier u .empty →
    (∀ x ∈ s.groups, ¬(x.grid = u.grid ∧ x.team ∈ u.teams)) →
    (s.restoreAt u (s.tierCore u .empty) core).isSome = true →
    ∃ cl, exec (.restore i core) s = .next { s.startMoves cl (s.unitClass u) with units := s.units.set i { u with moving := cl } } ∧ ∀ n ∈ cl, s.clusterUsed n = false ∧ (s.cluster n).move = none) ∧
  ∀ (s : State) (i core : Nat) (u : EvictedUnit), s.units[i]? = some u → u.pending = true → (∀ n ∈ u.moving, (s.cluster n).move = none) →
    (∀ (j : Nat) (x : EvictedUnit), s.units[j]? = some x → x.pending = true → u.evt < x.evt ∨ (u.evt = x.evt ∧ i ≤ j)) →
    (∀ y ∈ restoreTiers (s.unitClass u), ∀ c, s.restoreAt u (s.tierCore u y) c = none) →
    exec (.restore i core) s = .next { s with units := s.units.set i { u with pending := false, moving := [] } }

/-! ## Encodings, the step, memory, reset and what every step keeps -/

/-- R196, R197, R202 to R210, R417: every well-formed instruction word has an encoding, and the decoder reads the instruction back from it,
every operand at every value that the encoding admits. -/
def Obligations.EncodingRoundTrip : Prop :=
  ∀ i : Instr, i.WellFormed → ∃ w, encode i = some w ∧ decode w = .ok i

/-- R196, R197, R202 to R210, R417: what the decoder reads from a word is a well-formed instruction whose encoding is that word: no two words
mean one instruction, and no bit of a word is passed over. -/
def Obligations.DecodingIsExact : Prop :=
  ∀ (w : Word) (i : Instr), decode w = .ok i → i.WellFormed ∧ encode i = some w

/-- R196, R197, R202, R209: words written out field by field from the encoding tables decode to the instructions that they stand for; a reserved
major, a guard on a long word and an odd pair are no instruction. -/
def Obligations.DecodedWords : Prop :=
  (∀ r ∈ ([
    -- C E GGGG S OOOOOO, then D A B F: vi.add v3, v2, v1
    (0b0_0_0000_0_001010_00011_00010_00001_0000#32, .viAdd ⟨false, none⟩ 3 2 1),
    -- E = 1, G = 2, S = 0, then F and OFF: ?p2 br.lane, 24 words on
    (0b0_1_0010_0_000010_00_00000000000011000#32, .brLane ⟨false, some ⟨2, false⟩⟩ 24),
    -- long: D, F, I16 with the top five bits of L in X: sli.lo s5, 0x1234, chained
    (0b1_0_0010_1_010010_000_0001001000110100#32, .sliLo true 5 0x1234),
    -- MEM: D, BA (bit 0 clear), OF, SZ, SC: ld.b32.rlx v2, s4:s5, v1
    (0b0_0_0000_0_011101_00010_00100_00001_10_00#32, .ld ⟨false, none⟩ 2 2 1 2 0),
    -- MEMI: BA bit 0 set, I: st.b32.relsys v3, s6:s7, 1
    (0b0_0_0000_0_011110_00011_00111_00001_10_11#32, .stImm ⟨false, none⟩ 3 3 1 2 3),
    -- AT: D, A, F, TY, SC in L: atm.cas.n64.ardev v8, v2
    (0b0_0_0100_0_100001_00010_111_011_1011_0000#32, .atmCas false 8 2 3 11),
    -- RI: D, F, I: sr.wrs s1, %fmode
    (0b0_0_0000_0_010100_00001_10_000000111000#32, .srWrs ⟨false, none⟩ 1 0x038),
    -- WAIT: LD, ST, CP, TL: wait 15, 0, 3, 1
    (0b0_0_0000_0_000001_1111_0000_0011_0001_000#32, .wait ⟨false, none⟩ 15 0 3 1)] : List (Word × Instr)), decode r.1 = .ok r.2) ∧
  decode 0b0_0_0000_0_110100_0000000000000000000#32 = .error (.reservedMajor 0x34) ∧
  decode 0b0_1_0000_0_000011_0000000000000000000#32 = .error .guardOnLong ∧
  decode 0b0_0_0000_0_010101_00101_00100_00010_0011#32 = .error (.oddPair 5)

/-- R45, R47, R194, R198 to R200: a step goes on with a chain that has issued while one can; else it takes the next move of the agenda, an event
or the pick of a choice, or executes the word or event that the machine chooses: a word executes as the instruction that it decodes to, or
as an illegal word; what follows of itself is settled after it. The words of a chain are those at its addresses. The only path of an only
group issues the word at its address when nothing holds it. The order of choice and the agenda are the model's (log 3). -/
def Obligations.StepRunsDecoded : Prop :=
  (∀ (s t : State) (w : Word), s.Next (some (.word w t)) → (∀ i, decode w = .ok i → step s = t.finish (exec i t)) ∧
    ∀ r, decode w = .error r → step s = t.finish (exec (.illegalWord ((t.cur.map Cur.pc).getD 0) w) t)) ∧
  (∀ (s t : State) (i : Instr), s.Next (some (.event i t)) → step s = t.finish (exec i t)) ∧
  (∀ (s t : State), s.Next (some (.wait t)) → step s = .next t.settle) ∧
  (∀ (s : State), s.Next none → step s = .next (({ s.clocked with
    agenda := s.clocked.agenda.drop 1
    cur := if s.clocked.agenda = [] then s.clocked.cur else none }.elapse 1).settle)) ∧
  (∀ (s : State) (e : Instr) (rest : List Move), s.ongoing.isNone = true → s.clocked.agenda = .event e :: rest → let t : State := { s.clocked with agenda := rest, cur := none }
    (t.clockStopped e = false → step s = t.finish (exec e t)) ∧ (t.clockStopped e = true → step s = .next t.settle)) ∧
  (∀ (s r : State) (g : Group) (m : LaneSet) (n : Nat) (pc : DWord) (x : Xlat) (k : Nat), s.bitErrors = [] → s.lostPeers = [] →
    State.laneWalk g.core g.slot m g.nextId s pc = some (r, x) → r.judge (s.fnOf g.grid) ⟨false, true, false⟩ 4 x = .ok k →
    let w := leWord (s.readKey (some g.core) 4 k 4)
    (wordChain w = false ∨ pc.toNat % 12 / 4 = 2 → s.fetchFrom g m (n + 1) pc = (r, .words [w])) ∧
    ∀ t ws, wordChain w = true → pc.toNat % 12 / 4 ≠ 2 → r.fetchFrom g m n (pc + 4) = (t, .words ws) → s.fetchFrom g m (n + 1) pc = (t, .words (w :: ws))) ∧
  ∀ (s t : State) (g : Group) (p : Path) (w : Word) (m : Means) (i : Instr), s.Issues g p w m t → decode w = .ok i →
    let v := (t.addChain g p [w] m).enter g (t.chainOf g p [w] m)
    step s = v.finish (exec i v)

/-- R210, R334, R340, R346, R381, R400, R411: nothing that the machine executes ends its run: every instruction word and every event answers a
next state, in every state; a fault is one of threads, a refused command one of its queue, and a failure of the device one of its registers. -/
def Obligations.EveryInstructionCompletes : Prop :=
  ∀ (i : Instr) (s : State), ∃ t, exec i s = .next t

/-- R5, R118 to R121: a byte written reads back, and no other byte changes; a core sees the whole of a write that has reached it, and no write
changes what is read outside its unit; a write that becomes the base of its unit changes nothing that is read. That an unlisted byte of
memory reads 0 is the choice of log 1. -/
def Obligations.MemoryReadsWrites : Prop :=
  (∀ (m : List Host.Cell) (a b : Nat) (v : Byte), Memory.wf m = true →
    Memory.wf (Memory.write m a v) = true ∧ Memory.read (Memory.write m a v) b = if b = a then v else Memory.read m b) ∧
  (∀ (m : List Host.Cell) (a b : Nat) (v : Byte), Scratch.wfFrom 0 m = true →
    Scratch.wfFrom 0 (Scratch.put m a v) = true ∧ Scratch.get (Scratch.put m a v) b = if b = a then some v else Scratch.get m b) ∧
  (∀ (s : State) (k : Nat) (bs : List Byte) (origin : Option Nat) (cmps : List Nat) (reach c scope : Nat), (∀ w ∈ s.writes, w.Whole) → bs ≠ [] →
    k % unitSize k + bs.length ≤ unitSize k → c ∈ cmps → (s.addWrite k bs origin cmps reach).readKey (some c) scope k bs.length = bs) ∧
  (∀ (s : State) (k j n : Nat) (bs : List Byte) (origin core : Option Nat) (cmps : List Nat) (reach scope : Nat),
    (∀ x, j ≤ x → x < j + n → Machine.unitOf x ≠ Machine.unitOf k) → (s.addWrite k bs origin cmps reach).readKey core scope j n = s.readKey core scope j n) ∧
  ∀ (s : State) (w : WriteRec) (core : Option Nat) (scope k n : Nat), s.InCoherenceOrder → Memory.wf s.mem = true → (∀ x ∈ s.writes, x.Whole) → w ∈ s.writes →
    s.retirable w = true → isScratchKey w.unit = false → scope ≤ 6 → (s.retire w).readKey core scope k n = s.readKey core scope k n

/-- R158, R340, R412 to R414: at reset, at the physical function's bring-up and when a virtual function becomes ready, the function's registers
hold the values of R414, and 0 where its table lists none; at reset and bring-up DSTOP, BP0 to BP3 and DUMPA of every core and FWSTG hold 0,
PWRST.CAP reads 7, every cluster is in pool 6 and no trap vector table is set. -/
def Obligations.BringUpValues : Prop :=
  (∀ fn < 17, (∀ r ∈ bringUpRegisters, State.reset.readRegister fn r.1 = r.2) ∧ (State.reset.fn fn).tvt = 0) ∧
  (∀ core < 192, ∀ r ∈ debugRegisters core, State.reset.readRegister 0 r = 0) ∧ State.reset.readRegister 0 0x04F0 = 0 ∧
  State.reset.readRegister 0 0x0180 % 2 ^ 16 = 7 ∧ (∀ n < 24, (State.reset.cluster n).pool = 6) ∧
  (∀ (s : State) (version : Word), s.fwState = 0 → ∃ t, exec (.firmwareBoot 0 version) s = .next t ∧
    (∀ r ∈ bringUpRegisters, t.readRegister 0 r.1 = r.2) ∧ (∀ core < 192, ∀ r ∈ debugRegisters core, t.readRegister 0 r = 0) ∧ t.readRegister 0 0x04F0 = 0 ∧
    (∀ fn < 17, (t.fn fn).tvt = 0) ∧ t.readRegister 0 0x0180 % 2 ^ 16 = 7 ∧ ∀ n < s.clusters.length, (t.cluster n).pool = 6) ∧
  ∀ (s : State) (fn : Nat) (allotted : List (Nat × Nat)), s.fwState = 1 → 1 ≤ fn → fn < s.fns.length → (s.fn fn).ready = false →
    ∃ t, exec (.functionReady (fn, allotted)) s = .next t ∧ (∀ r ∈ bringUpRegisters, t.readRegister fn r.1 = r.2) ∧ (t.fn fn).tvt = 0

/-- R66, R119: the state after reset has memory and scratch in canonical form, the writes in coherence order, and no group whose registers are
not well formed. -/
def Obligations.ResetIsWellFormed : Prop :=
  State.reset.MemOk ∧ State.reset.InCoherenceOrder ∧ State.reset.GroupsWf

/-- R5, R119: every step keeps memory and scratch in their canonical form, and the writes of the device in coherence order. The canonical form
is the model's (logs 1 and 2). -/
def Obligations.MemoryStaysCanonical : Prop :=
  ∀ s t : State, s.MemOk → s.InCoherenceOrder → step s = .next t → t.MemOk ∧ t.InCoherenceOrder

/-- R65, R66, R68, R74, R75: every step keeps every group's registers well formed: one lane for each lane of its width, frames with as many
registers as they declare, and each granule set with a word for each lane and named only by registers of one number. -/
def Obligations.GroupsStayWellFormed : Prop :=
  ∀ s t : State, s.GroupsWf → step s = .next t → t.GroupsWf
end

