-- ==== Sys2Proof/Laws/Lanes.lean ====
section
/-! SUPPORT. Sys2Proof/Laws/Lanes.lean: sets of lanes, and the frames of a set of lanes. -/

open Sys2Proof Sys2Proof.Machine

namespace Sys2Proof.Laws

theorem mem_list (m : LaneSet) (w l : Nat) : l ∈ m.list w ↔ l < w ∧ m.has l = true := by
  simp [LaneSet.list, LaneSet.has]

theorem getLsbD_one (l j : Nat) : (LaneSet.one l).getLsbD j = (decide (j < 64) && decide (l = j)) := by
  show (BitVec.ofNat 64 (2 ^ l)).getLsbD j = _
  rw [BitVec.getLsbD_ofNat, Nat.testBit_two_pow]

theorem one_has (l j : Nat) : (LaneSet.one l).has j = (decide (j < 64) && decide (l = j)) := getLsbD_one l j

theorem or_has (a b : LaneSet) (j : Nat) : (a ||| b).has j = (a.has j || b.has j) := by simp [LaneSet.has]
theorem and_has (a b : LaneSet) (j : Nat) : (a &&& b).has j = (a.has j && b.has j) := by simp [LaneSet.has]

theorem ofPred_has (w : Nat) (p : Nat → Bool) (j : Nat) (hw : w ≤ 64) : (LaneSet.ofPred w p).has j = (decide (j < w) && p j) := by
  unfold LaneSet.ofPred
  induction w with
  | zero => simp [LaneSet.has]
  | succ n ih =>
    have ih := ih (by omega)
    simp only [List.range_succ, List.foldl_append, List.foldl_cons, List.foldl_nil]
    split
    · rw [or_has, ih, one_has]; by_cases h : n = j
      · subst h; simp [*]; omega
      · have : (j < n + 1) ↔ j < n := by omega
        simp [h, this]
    · rw [ih]; by_cases h : j = n
      · subst h; simp [*]
      · have : (j < n + 1) ↔ j < n := by omega
        simp [this]

theorem subset_iff (a b : LaneSet) : LaneSet.subset a b = true ↔ ∀ l, a.has l = true → b.has l = true := by
  simp only [LaneSet.subset, LaneSet.has, beq_iff_eq]
  constructor
  · intro h l ha
    have := congrArg (fun x => x.getLsbD l) h
    simp [ha] at this
    by_cases hl : l < 64
    · simpa [hl] using this
    · simp [BitVec.getLsbD_of_ge _ _ (by omega : 64 ≤ l)] at ha
  · intro h
    apply BitVec.eq_of_getLsbD_eq
    intro i hi
    simp [hi]
    intro ha; exact h i ha

theorem find_some_of_mem {fs : List Frame} (hn : (fs.map Frame.id).Nodup) {f : Frame} (hf : f ∈ fs) :
    fs.find? (fun x => x.id == f.id) = some f := by
  induction fs with
  | nil => cases hf
  | cons a r ih =>
    simp only [List.map_cons, List.nodup_cons] at hn
    simp only [List.find?_cons]
    rcases List.mem_cons.1 hf with rfl | h
    · simp
    · have : (a.id == f.id) = false := by simpa using fun e : a.id = f.id => hn.1 (e ▸ List.mem_map_of_mem h)
      simp [this, ih hn.2 h]

theorem frame?_of_mem {g : Group} (hw : g.Wf) {f : Frame} (hf : f ∈ g.frames) : g.frame? f.id = some f := find_some_of_mem hw.ids hf

theorem mem_of_frame? {g : Group} {id : Nat} {f : Frame} (h : g.frame? id = some f) : f ∈ g.frames ∧ f.id = id := by
  unfold Group.frame? at h
  exact ⟨List.mem_of_find?_eq_some h, by simpa using List.find?_some h⟩


/-- The step of framesOf. -/
def addLane (g : Group) (acc : List (Frame × LaneSet)) (l : Nat) : List (Frame × LaneSet) :=
    let id := (g.lane l).frame
    if acc.any (fun (x : Frame × LaneSet) => x.1.id == id) then acc.map (fun x => if x.1.id == id then (x.1, x.2 ||| LaneSet.one l) else x)
    else match g.frame? id with
      | some f => acc ++ [(f, LaneSet.one l)]
      | Option.none => acc

structure Grouped (g : Group) (L : List Nat) (acc : List (Frame × LaneSet)) : Prop where
  frames : ∀ x ∈ acc, g.frame? x.1.id = some x.1
  lanes : ∀ x ∈ acc, ∀ j, x.2.has j = true ↔ j ∈ L ∧ (g.lane j).frame = x.1.id
  ids : (acc.map (fun x => x.1.id)).Nodup
  nonempty : ∀ x ∈ acc, ∃ j, x.2.has j = true
  all : ∀ l ∈ L, ∀ f, g.frame? (g.lane l).frame = some f → ∃ m, (f, m) ∈ acc

theorem grouped_add {g : Group} {L : List Nat} {acc : List (Frame × LaneSet)} {l : Nat} (hl : l < 64) (h : Grouped g L acc) :
    Grouped g (L ++ [l]) (addLane g acc l) := by
  unfold addLane
  simp only
  by_cases ha : acc.any (fun (x : Frame × LaneSet) => x.1.id == (g.lane l).frame) = true
  · rw [if_pos ha]
    have hid : (acc.map (fun x => if x.1.id == (g.lane l).frame then (x.1, x.2 ||| LaneSet.one l) else x)).map (fun x => x.1.id) =
        acc.map (fun x => x.1.id) := by
      rw [List.map_map]; apply List.map_congr_left; intro x _; simp only [Function.comp]; split <;> rfl
    refine ⟨?_, ?_, hid ▸ h.ids, ?_, ?_⟩
    · intro x hx
      obtain ⟨y, hy, rfl⟩ := List.mem_map.1 hx
      have := h.frames y hy
      split <;> simpa using this
    · intro x hx j
      obtain ⟨y, hy, rfl⟩ := List.mem_map.1 hx
      have := h.lanes y hy j
      by_cases hc : (y.1.id == (g.lane l).frame) = true
      · simp only [hc, if_true, or_has, one_has, Bool.or_eq_true, this, List.mem_append, List.mem_singleton, Bool.and_eq_true, decide_eq_true_eq]
        simp only [beq_iff_eq] at hc
        constructor
        · rintro (⟨a, b⟩ | ⟨a, rfl⟩)
          · exact ⟨.inl a, b⟩
          · exact ⟨.inr rfl, hc.symm⟩
        · rintro ⟨a | rfl, b⟩
          · exact .inl ⟨a, b⟩
          · exact .inr ⟨hl, rfl⟩
      · simp only [hc, if_false, Bool.false_eq_true, this, List.mem_append, List.mem_singleton]
        simp only [beq_iff_eq] at hc
        constructor
        · rintro ⟨a, b⟩; exact ⟨.inl a, b⟩
        · rintro ⟨a | rfl, b⟩
          · exact ⟨a, b⟩
          · exact absurd b.symm hc
    · intro x hx
      obtain ⟨y, hy, rfl⟩ := List.mem_map.1 hx
      obtain ⟨j, hj⟩ := h.nonempty y hy
      split
      · exact ⟨j, by rw [or_has, hj]; rfl⟩
      · exact ⟨j, hj⟩
    · intro j hj f hf
      rcases List.mem_append.1 hj with hj | hj
      · obtain ⟨m, hm⟩ := h.all j hj f hf
        by_cases hc : (f.id == (g.lane l).frame) = true
        · exact ⟨m ||| LaneSet.one l, List.mem_map.2 ⟨(f, m), hm, by simp [hc]⟩⟩
        · exact ⟨m, List.mem_map.2 ⟨(f, m), hm, by simp [hc]⟩⟩
      · simp only [List.mem_singleton] at hj; subst hj
        obtain ⟨x, hx, hc⟩ := List.any_eq_true.1 ha
        have h1 := h.frames x hx
        rw [beq_iff_eq] at hc
        rw [hc, hf] at h1
        cases h1
        exact ⟨x.2 ||| LaneSet.one j, List.mem_map.2 ⟨x, hx, by simp [hc]⟩⟩
  · rw [if_neg ha]
    have hne : ∀ x ∈ acc, x.1.id ≠ (g.lane l).frame := by
      intro x hx e; exact ha (List.any_eq_true.2 ⟨x, hx, by simpa using e⟩)
    have old : ∀ x ∈ acc, ∀ j, x.2.has j = true ↔ j ∈ L ++ [l] ∧ (g.lane j).frame = x.1.id := by
      intro x hx j
      rw [h.lanes x hx j, List.mem_append, List.mem_singleton]
      constructor
      · rintro ⟨a, b⟩; exact ⟨.inl a, b⟩
      · rintro ⟨a | rfl, b⟩
        · exact ⟨a, b⟩
        · exact absurd b.symm (hne x hx)
    cases hf : g.frame? (g.lane l).frame with
    | none =>
      refine ⟨h.frames, old, h.ids, h.nonempty, ?_⟩
      intro j hj f hfj
      rcases List.mem_append.1 hj with hj | hj
      · exact h.all j hj f hfj
      · simp only [List.mem_singleton] at hj; subst hj; rw [hf] at hfj; cases hfj
    | some f =>
      have hfid := (mem_of_frame? hf).2
      -- no lane before l is in f
      have hno : ∀ j ∈ L, (g.lane j).frame ≠ f.id := by
        intro j hj e
        obtain ⟨m, hm⟩ := h.all j hj f (by rw [e, hfid]; exact hf)
        exact hne _ hm hfid
      refine ⟨?_, ?_, ?_, ?_, ?_⟩
      · intro x hx
        rcases List.mem_append.1 hx with hx | hx
        · exact h.frames x hx
        · simp only [List.mem_singleton] at hx; subst hx; simpa [hfid] using hf
      · intro x hx j
        rcases List.mem_append.1 hx with hx | hx
        · exact old x hx j
        · simp only [List.mem_singleton] at hx; subst hx
          simp only [one_has, Bool.and_eq_true, decide_eq_true_eq, List.mem_append, List.mem_singleton]
          constructor
          · rintro ⟨_, rfl⟩; exact ⟨.inr rfl, hfid.symm⟩
          · rintro ⟨a | rfl, b⟩
            · exact absurd b (hno j a)
            · exact ⟨hl, rfl⟩
      · simp only [List.map_append, List.map_cons, List.map_nil]
        refine List.nodup_append.2 ⟨h.ids, by simp, ?_⟩
        intro a ha b hb
        obtain ⟨x, hx, rfl⟩ := List.mem_map.1 ha
        simp only [List.mem_singleton] at hb
        subst hb
        rw [hfid]; exact hne x hx
      · intro x hx
        rcases List.mem_append.1 hx with hx | hx
        · exact h.nonempty x hx
        · simp only [List.mem_singleton] at hx; subst hx; exact ⟨l, by rw [one_has]; simp [hl]⟩
      · intro j hj k hk
        rcases List.mem_append.1 hj with hj | hj
        · obtain ⟨m, hm⟩ := h.all j hj k hk; exact ⟨m, List.mem_append_left _ hm⟩
        · simp only [List.mem_singleton] at hj; subst hj; rw [hf] at hk; cases hk; exact ⟨_, List.mem_append_right _ (List.mem_singleton.2 rfl)⟩

theorem framesOf_grouped (g : Group) (m : LaneSet) (hw : g.w ≤ 64) : Grouped g (m.list g.w) (g.framesOf m) := by
  have key : ∀ (R L : List Nat) (acc : List (Frame × LaneSet)), (∀ l ∈ R, l < 64) → Grouped g L acc → Grouped g (L ++ R) (R.foldl (addLane g) acc) := by
    intro R
    induction R with
    | nil => intro L acc _ h; simpa using h
    | cons a r ih =>
      intro L acc hR h
      have := ih (L ++ [a]) (addLane g acc a) (fun l hl => hR l (List.mem_cons_of_mem _ hl)) (grouped_add (hR a List.mem_cons_self) h)
      simpa using this
  have := key (m.list g.w) [] [] (fun l hl => by have := ((mem_list m g.w l).1 hl).1; omega) ⟨by simp, by simp, by simp, by simp, by simp⟩
  rw [List.nil_append] at this
  exact this

end Sys2Proof.Laws
end

