-- ==== Sys2Proof/Laws/Memory.lean ====
section
/-! SUPPORT. Sys2Proof/Laws/Memory.lean: memory, scratch and sparse lists keep their canonical form under every operation on them, a byte
written reads back, and the writes of the device keep coherence order. -/

namespace Sys2Proof.Machine

/-! ## Memory -/

theorem Memory.wfFrom_mono {m : List Host.Cell} {a b : Nat} (h : a ≤ b) (hm : Memory.wfFrom b m = true) : Memory.wfFrom a m = true := by
  cases m with
  | nil => rfl
  | cons x r =>
    simp only [Memory.wfFrom, Bool.and_eq_true, decide_eq_true_eq] at hm ⊢
    exact ⟨⟨Nat.le_trans h hm.1.1, hm.1.2⟩, hm.2⟩

theorem Memory.read_of_lt {m : List Host.Cell} {lo a : Nat} (hm : Memory.wfFrom lo m = true) (h : a < lo) : Memory.read m a = 0 := by
  cases m with
  | nil => rfl
  | cons x r =>
    simp only [Memory.wfFrom, Bool.and_eq_true, decide_eq_true_eq] at hm
    have : a < x.1 := Nat.lt_of_lt_of_le h hm.1.1
    simp [Memory.read, Nat.ne_of_lt this, this]

theorem Memory.wfFrom_write {m : List Host.Cell} {lo a : Nat} (v : Byte) (hm : Memory.wfFrom lo m = true) (h : lo ≤ a) :
    Memory.wfFrom lo (Memory.write m a v) = true := by
  induction m generalizing lo with
  | nil => unfold Memory.write; split <;> simp_all [Memory.wfFrom]
  | cons x r ih =>
    obtain ⟨b, w⟩ := x
    simp only [Memory.wfFrom, Bool.and_eq_true, decide_eq_true_eq, bne_iff_ne] at hm
    unfold Memory.write
    split
    · split
      · simp_all [Memory.wfFrom]
      · simp_all [Memory.wfFrom] <;> omega
    · split
      · split
        · exact Memory.wfFrom_mono (Nat.le_succ_of_le hm.1.1) hm.2
        · simp_all [Memory.wfFrom]
      · simp only [Memory.wfFrom, Bool.and_eq_true, decide_eq_true_eq, bne_iff_ne]
        exact ⟨hm.1, ih hm.2 (by omega)⟩

/-- A write keeps the canonical form. -/
theorem Memory.wf_write {m : List Host.Cell} (a : Nat) (v : Byte) (hm : Memory.wf m = true) : Memory.wf (Memory.write m a v) = true :=
  Memory.wfFrom_write v hm (Nat.zero_le a)

theorem Memory.read_write_from {m : List Host.Cell} {lo : Nat} (hm : Memory.wfFrom lo m = true) (a b : Nat) (v : Byte) :
    Memory.read (Memory.write m a v) b = if b = a then v else Memory.read m b := by
  induction m generalizing lo with
  | nil =>
    unfold Memory.write
    split
    · simp_all [Memory.read]
    · simp only [Memory.read]; split <;> simp_all
  | cons x r ih =>
    obtain ⟨c, w⟩ := x
    simp only [Memory.wfFrom, Bool.and_eq_true, decide_eq_true_eq, bne_iff_ne] at hm
    unfold Memory.write
    split
    · rename_i h1
      split
      · rename_i hv
        by_cases hb : b = a
        · subst hb; simp [Memory.read, Nat.ne_of_lt h1, h1, hv]
        · simp [hb]
      · simp only [Memory.read]
        by_cases hb : b = a
        · simp [hb]
        · by_cases hl : b < a
          · have : b < c := Nat.lt_trans hl h1
            simp [hb, hl, Nat.ne_of_lt this, this]
          · simp [hb, hl]
    · split
      · rename_i h1 h2
        subst h2
        split
        · rename_i hv
          by_cases hb : b = a
          · subst hb; simp [Memory.read_of_lt hm.2 (Nat.lt_succ_self b), hv]
          · simp only [Memory.read, hb, if_false]
            by_cases hl : b < a
            · simp [hl, Memory.read_of_lt hm.2 (Nat.lt_succ_of_lt hl)]
            · simp [hl]
        · simp only [Memory.read]
          by_cases hb : b = a <;> simp [hb]
      · rename_i h1 h2
        simp only [Memory.read]
        rw [ih hm.2]
        by_cases hb : b = a
        · subst hb; simp [h1, h2]
        · simp [hb]

/-- A byte written reads back, and no other byte changes. -/
theorem Memory.read_write {m : List Host.Cell} (hm : Memory.wf m = true) (a b : Nat) (v : Byte) :
    Memory.read (Memory.write m a v) b = if b = a then v else Memory.read m b := Memory.read_write_from hm a b v

theorem Memory.wf_writes (m : List Host.Cell) (a : Nat) (vs : List Byte) (hm : Memory.wf m = true) : Memory.wf (Memory.writes m a vs) = true := by
  induction vs generalizing m a with
  | nil => exact hm
  | cons v vs ih => exact ih _ _ (Memory.wf_write a v hm)

/-- Bytes written read back, and no other byte changes. -/
theorem Memory.read_writes (m : List Host.Cell) (a b : Nat) (vs : List Byte) (hm : Memory.wf m = true) :
    Memory.read (Memory.writes m a vs) b = if a ≤ b ∧ b < a + vs.length then vs.getD (b - a) 0 else Memory.read m b := by
  induction vs generalizing m a with
  | nil => simp [Memory.writes] <;> omega
  | cons v vs ih =>
    rw [Memory.writes, ih _ _ (Memory.wf_write a v hm), Memory.read_write hm]
    by_cases h1 : a + 1 ≤ b ∧ b < a + 1 + vs.length
    · have h2 : a ≤ b ∧ b < a + (v :: vs).length := by simp only [List.length_cons]; omega
      have e : b - a = (b - (a + 1)) + 1 := by omega
      rw [if_pos h1, if_pos h2, e, List.getD_cons_succ]
    · rw [if_neg h1]
      by_cases h3 : b = a
      · subst h3; simp
      · have h2 : ¬(a ≤ b ∧ b < a + (v :: vs).length) := by simp only [List.length_cons]; omega
        rw [if_neg h3, if_neg h2]

/-! ## Scratch -/

theorem Scratch.wfFrom_mono {m : List Host.Cell} {a b : Nat} (h : a ≤ b) (hm : Scratch.wfFrom b m = true) : Scratch.wfFrom a m = true := by
  cases m with
  | nil => rfl
  | cons x r =>
    simp only [Scratch.wfFrom, Bool.and_eq_true, decide_eq_true_eq] at hm ⊢
    exact ⟨Nat.le_trans h hm.1, hm.2⟩

theorem Scratch.get_of_lt {m : List Host.Cell} {lo a : Nat} (hm : Scratch.wfFrom lo m = true) (h : a < lo) : Scratch.get m a = none := by
  cases m with
  | nil => rfl
  | cons x r =>
    simp only [Scratch.wfFrom, Bool.and_eq_true, decide_eq_true_eq] at hm
    have : a < x.1 := Nat.lt_of_lt_of_le h hm.1
    simp [Scratch.get, Nat.ne_of_lt this, this]

/-- A write keeps the form. -/
theorem Scratch.wfFrom_put {m : List Host.Cell} {lo a : Nat} (v : Byte) (hm : Scratch.wfFrom lo m = true) (h : lo ≤ a) :
    Scratch.wfFrom lo (Scratch.put m a v) = true := by
  induction m generalizing lo with
  | nil => simp [Scratch.put, Scratch.wfFrom, h]
  | cons x r ih =>
    obtain ⟨b, w⟩ := x
    simp only [Scratch.wfFrom, Bool.and_eq_true, decide_eq_true_eq] at hm
    unfold Scratch.put
    split
    · simp_all [Scratch.wfFrom] <;> omega
    · split
      · simp_all [Scratch.wfFrom]
      · simp only [Scratch.wfFrom, Bool.and_eq_true, decide_eq_true_eq]
        exact ⟨hm.1, ih hm.2 (by omega)⟩

/-- A byte written reads back, and no other byte changes. -/
theorem Scratch.get_put {m : List Host.Cell} (a b : Nat) (v : Byte) : Scratch.get (Scratch.put m a v) b = if b = a then some v else Scratch.get m b := by
  induction m with
  | nil => simp only [Scratch.put, Scratch.get]; split <;> simp_all
  | cons x r ih =>
    obtain ⟨c, w⟩ := x
    unfold Scratch.put
    split
    · rename_i h1
      simp only [Scratch.get]
      by_cases hb : b = a
      · simp [hb]
      · by_cases hl : b < a
        · have : b < c := Nat.lt_trans hl h1
          simp [hb, hl, Nat.ne_of_lt this, this]
        · simp [hb, hl]
    · split
      · rename_i h1 h2
        subst h2
        simp only [Scratch.get]
        by_cases hb : b = a <;> simp [hb]
      · rename_i h1 h2
        simp only [Scratch.get]
        rw [ih]
        by_cases hb : b = a
        · subst hb; simp [h1, h2]
        · simp [hb]

theorem Scratch.wfFrom_puts (m : List Host.Cell) (a : Nat) (vs : List Byte) (hm : Scratch.wfFrom 0 m = true) : Scratch.wfFrom 0 (Scratch.puts m a vs) = true := by
  induction vs generalizing m a with
  | nil => exact hm
  | cons v vs ih => exact ih _ _ (Scratch.wfFrom_put v hm (Nat.zero_le a))

theorem Scratch.wfFrom_filter {m : List Host.Cell} {lo : Nat} (p : Host.Cell → Bool) (hm : Scratch.wfFrom lo m = true) : Scratch.wfFrom lo (m.filter p) = true := by
  induction m generalizing lo with
  | nil => rfl
  | cons x r ih =>
    simp only [Scratch.wfFrom, Bool.and_eq_true, decide_eq_true_eq] at hm
    by_cases hp : p x = true
    · simp only [List.filter_cons, hp, if_true, Scratch.wfFrom, Bool.and_eq_true, decide_eq_true_eq]
      exact ⟨hm.1, ih hm.2⟩
    · simp only [List.filter_cons, hp]
      exact Scratch.wfFrom_mono (Nat.le_succ_of_le hm.1) (ih hm.2)

/-! ## Sparse lists: tiles and accumulators -/

/-- Entries replaced keep the order of a list whose indices rise. -/
theorem sparseSplice_rising {α : Type} [BEq α] (z : α) (m : List (Nat × α)) (a : Nat) (vs : List α) (h : (m.map Prod.fst).Pairwise (· < ·)) :
    ((sparseSplice z m a vs).map Prod.fst).Pairwise (· < ·) := by
  have hz : ((vs.zipIdx.filterMap (fun (x : α × Nat) => if x.1 == z then none else some (a + x.2, x.1))).map Prod.fst).Pairwise (· < ·) ∧
      ∀ k ∈ (vs.zipIdx.filterMap (fun (x : α × Nat) => if x.1 == z then none else some (a + x.2, x.1))).map Prod.fst, a ≤ k ∧ k < a + vs.length := by
    have : ∀ (n : Nat) (vs : List α), ((vs.zipIdx n).filterMap (fun (x : α × Nat) => if x.1 == z then none else some (a + x.2, x.1))).map Prod.fst |>.Pairwise (· < ·) := by
      intro n vs
      induction vs generalizing n with
      | nil => simp
      | cons v vs ih =>
        have hin : ∀ k ∈ (((vs.zipIdx (n + 1)).filterMap (fun (x : α × Nat) => if x.1 == z then none else some (a + x.2, x.1))).map Prod.fst), a + n < k := by
          intro k hk
          simp only [List.mem_map, List.mem_filterMap] at hk
          obtain ⟨y, ⟨x, hx, he⟩, rfl⟩ := hk
          have := List.le_snd_of_mem_zipIdx hx
          split at he <;> simp_all
          subst he
          simp; omega
        simp only [List.zipIdx_cons, List.filterMap_cons]
        by_cases hv : v == z
        · simp only [hv, if_true]; exact ih (n + 1)
        · simp only [hv, Bool.false_eq_true, if_false, List.map_cons, List.pairwise_cons]
          exact ⟨hin, ih (n + 1)⟩
    refine ⟨this 0 vs, ?_⟩
    intro k hk
    simp only [List.mem_map, List.mem_filterMap] at hk
    obtain ⟨y, ⟨x, hx, he⟩, rfl⟩ := hk
    have := List.snd_lt_of_mem_zipIdx hx
    split at he <;> simp_all
    subst he
    simp; omega
  have take : ∀ k ∈ (m.takeWhile (fun x => decide (x.1 < a))).map Prod.fst, k < a := by
    clear hz h
    induction m with
    | nil => simp
    | cons x r ih =>
      by_cases hx : x.1 < a
      · simp only [List.takeWhile_cons, hx, decide_true, if_true, List.map_cons, List.mem_cons]
        rintro k (rfl | hk)
        · exact hx
        · exact ih k hk
      · simp [hx]
  have drop : ∀ k ∈ (m.dropWhile (fun x => decide (x.1 < a + vs.length))).map Prod.fst, a + vs.length ≤ k := by
    clear take hz
    induction m with
    | nil => simp
    | cons x r ih =>
      simp only [List.map_cons, List.pairwise_cons] at h
      by_cases hx : x.1 < a + vs.length
      · simp only [List.dropWhile_cons, hx, decide_true, if_true]; exact ih h.2
      · simp only [List.dropWhile_cons, hx, decide_false, Bool.false_eq_true, if_false, List.map_cons, List.mem_cons]
        rintro k (rfl | hk)
        · omega
        · have := h.1 k hk; omega
  unfold sparseSplice
  rw [List.map_append, List.map_append, List.append_assoc]
  refine List.pairwise_append.2 ⟨?_, List.pairwise_append.2 ⟨hz.1, ?_, ?_⟩, ?_⟩
  · exact (List.Pairwise.sublist ((List.takeWhile_sublist _).map Prod.fst) h)
  · exact (List.Pairwise.sublist ((List.dropWhile_sublist _).map Prod.fst) h)
  · intro x hx y hy; have := hz.2 x hx; have := drop y hy; omega
  · intro x hx y hy
    have := take x hx
    rcases List.mem_append.1 hy with hy | hy
    · have := hz.2 y hy; omega
    · have := drop y hy; omega

/-! ## The state -/

theorem reset_memOk : State.reset.MemOk := ⟨rfl, rfl⟩

/-- A write that becomes the base keeps the canonical forms. -/
theorem retire_memOk {s : State} (h : s.MemOk) (w : WriteRec) : (s.retire w).MemOk := by
  unfold State.retire
  split
  · exact ⟨h.1, Scratch.wfFrom_puts _ _ _ h.2⟩
  · exact ⟨Memory.wf_writes _ _ _ h.1, h.2⟩

theorem retireAll_memOk {s : State} (h : s.MemOk) : s.retireAll.MemOk := by
  unfold State.retireAll
  generalize s.writes = ws
  induction ws generalizing s with
  | nil => exact h
  | cons w ws ih =>
    simp only [List.foldl_cons]
    split
    · exact ih (retire_memOk h w)
    · exact ih h

theorem addWrite_order {s : State} (h : s.InCoherenceOrder) (k : Nat) (bs : List Byte) (o : Option Nat) (cs : List Nat) (r : Nat) :
    (s.addWrite k bs o cs r).InCoherenceOrder := by
  refine ⟨?_, ?_⟩
  · simp only [State.addWrite, List.map_append, List.map_cons, List.map_nil]
    refine List.pairwise_append.2 ⟨h.1, by simp, ?_⟩
    intro x hx y hy
    obtain ⟨w, hw, rfl⟩ := List.mem_map.1 hx
    have := h.2 w hw
    simp at hy; omega
  · intro w hw
    simp only [State.addWrite, List.mem_append, List.mem_singleton] at hw ⊢
    rcases hw with hw | rfl
    · exact Nat.le_succ_of_le (h.2 w hw)
    · exact Nat.le_refl _

theorem retire_order {s : State} (h : s.InCoherenceOrder) (w : WriteRec) : (s.retire w).InCoherenceOrder := by
  have key : ∀ p : WriteRec → Bool, ((s.writes.filter p).map WriteRec.seq).Pairwise (· < ·) ∧ ∀ x ∈ s.writes.filter p, x.seq ≤ s.co := fun p =>
    ⟨List.Pairwise.sublist (List.filter_sublist.map _) h.1, fun x hx => h.2 x (List.mem_filter.1 hx).1⟩
  unfold State.retire
  split <;> exact key _

end Sys2Proof.Machine
end

