-- ==== Sys2Proof/Laws/State.lean ====
section
/-! SUPPORT. Sys2Proof/Laws/State.lean: what each update of a part of the state, and of a part of a group, leaves as it was, a lemma for each
field, and what a part reads after an update. -/

namespace Sys2Proof.Machine

/-! State.setGroup changes only `groups` -/

@[simp] theorem State.setGroup_agenda (s : State) (g : Group) : (s.setGroup g).agenda = s.agenda := rfl
@[simp] theorem State.setGroup_turn (s : State) (g : Group) : (s.setGroup g).turn = s.turn := rfl
@[simp] theorem State.setGroup_cur (s : State) (g : Group) : (s.setGroup g).cur = s.cur := rfl
@[simp] theorem State.setGroup_clockIn (s : State) (g : Group) : (s.setGroup g).clockIn = s.clockIn := rfl
@[simp] theorem State.setGroup_stamp (s : State) (g : Group) : (s.setGroup g).stamp = s.stamp := rfl
@[simp] theorem State.setGroup_freeCtr (s : State) (g : Group) : (s.setGroup g).freeCtr = s.freeCtr := rfl
@[simp] theorem State.setGroup_mem (s : State) (g : Group) : (s.setGroup g).mem = s.mem := rfl
@[simp] theorem State.setGroup_scratch (s : State) (g : Group) : (s.setGroup g).scratch = s.scratch := rfl
@[simp] theorem State.setGroup_writes (s : State) (g : Group) : (s.setGroup g).writes = s.writes := rfl
@[simp] theorem State.setGroup_co (s : State) (g : Group) : (s.setGroup g).co = s.co := rfl
@[simp] theorem State.setGroup_bitErrors (s : State) (g : Group) : (s.setGroup g).bitErrors = s.bitErrors := rfl
@[simp] theorem State.setGroup_tlb (s : State) (g : Group) : (s.setGroup g).tlb = s.tlb := rfl
@[simp] theorem State.setGroup_cores (s : State) (g : Group) : (s.setGroup g).cores = s.cores := rfl
@[simp] theorem State.setGroup_clusters (s : State) (g : Group) : (s.setGroup g).clusters = s.clusters := rfl
@[simp] theorem State.setGroup_teams (s : State) (g : Group) : (s.setGroup g).teams = s.teams := rfl
@[simp] theorem State.setGroup_grids (s : State) (g : Group) : (s.setGroup g).grids = s.grids := rfl
@[simp] theorem State.setGroup_fns (s : State) (g : Group) : (s.setGroup g).fns = s.fns := rfl
@[simp] theorem State.setGroup_requests (s : State) (g : Group) : (s.setGroup g).requests = s.requests := rfl
@[simp] theorem State.setGroup_signals (s : State) (g : Group) : (s.setGroup g).signals = s.signals := rfl
@[simp] theorem State.setGroup_armed (s : State) (g : Group) : (s.setGroup g).armed = s.armed := rfl
@[simp] theorem State.setGroup_prefetches (s : State) (g : Group) : (s.setGroup g).prefetches = s.prefetches := rfl
@[simp] theorem State.setGroup_ending (s : State) (g : Group) : (s.setGroup g).ending = s.ending := rfl
@[simp] theorem State.setGroup_loops (s : State) (g : Group) : (s.setGroup g).loops = s.loops := rfl
@[simp] theorem State.setGroup_feProp (s : State) (g : Group) : (s.setGroup g).feProp = s.feProp := rfl
@[simp] theorem State.setGroup_classRequests (s : State) (g : Group) : (s.setGroup g).classRequests = s.classRequests := rfl
@[simp] theorem State.setGroup_launchSeq (s : State) (g : Group) : (s.setGroup g).launchSeq = s.launchSeq := rfl
@[simp] theorem State.setGroup_scratchGen (s : State) (g : Group) : (s.setGroup g).scratchGen = s.scratchGen := rfl
@[simp] theorem State.setGroup_form (s : State) (g : Group) : (s.setGroup g).form = s.form := rfl
@[simp] theorem State.setGroup_step (s : State) (g : Group) : (s.setGroup g).step = s.step := rfl
@[simp] theorem State.setGroup_dev (s : State) (g : Group) : (s.setGroup g).dev = s.dev := rfl
@[simp] theorem State.setGroup_members (s : State) (g : Group) : (s.setGroup g).members = s.members := rfl
@[simp] theorem State.setGroup_ptime (s : State) (g : Group) : (s.setGroup g).ptime = s.ptime := rfl
@[simp] theorem State.setGroup_offs (s : State) (g : Group) : (s.setGroup g).offs = s.offs := rfl
@[simp] theorem State.setGroup_late (s : State) (g : Group) : (s.setGroup g).late = s.late := rfl
@[simp] theorem State.setGroup_lock (s : State) (g : Group) : (s.setGroup g).lock = s.lock := rfl
@[simp] theorem State.setGroup_root (s : State) (g : Group) : (s.setGroup g).root = s.root := rfl
@[simp] theorem State.setGroup_syncs (s : State) (g : Group) : (s.setGroup g).syncs = s.syncs := rfl
@[simp] theorem State.setGroup_podHeld (s : State) (g : Group) : (s.setGroup g).podHeld = s.podHeld := rfl
@[simp] theorem State.setGroup_podReleased (s : State) (g : Group) : (s.setGroup g).podReleased = s.podReleased := rfl
@[simp] theorem State.setGroup_podStarts (s : State) (g : Group) : (s.setGroup g).podStarts = s.podStarts := rfl
@[simp] theorem State.setGroup_podOut (s : State) (g : Group) : (s.setGroup g).podOut = s.podOut := rfl
@[simp] theorem State.setGroup_cap (s : State) (g : Group) : (s.setGroup g).cap = s.cap := rfl
@[simp] theorem State.setGroup_draww (s : State) (g : Group) : (s.setGroup g).draww = s.draww := rfl
@[simp] theorem State.setGroup_overPeriods (s : State) (g : Group) : (s.setGroup g).overPeriods = s.overPeriods := rfl
@[simp] theorem State.setGroup_overRun (s : State) (g : Group) : (s.setGroup g).overRun = s.overRun := rfl
@[simp] theorem State.setGroup_therm (s : State) (g : Group) : (s.setGroup g).therm = s.therm := rfl
@[simp] theorem State.setGroup_hold (s : State) (g : Group) : (s.setGroup g).hold = s.hold := rfl
@[simp] theorem State.setGroup_admitted (s : State) (g : Group) : (s.setGroup g).admitted = s.admitted := rfl
@[simp] theorem State.setGroup_window (s : State) (g : Group) : (s.setGroup g).window = s.window := rfl
@[simp] theorem State.setGroup_windowed (s : State) (g : Group) : (s.setGroup g).windowed = s.windowed := rfl
@[simp] theorem State.setGroup_sliceOwner (s : State) (g : Group) : (s.setGroup g).sliceOwner = s.sliceOwner := rfl
@[simp] theorem State.setGroup_slicePos (s : State) (g : Group) : (s.setGroup g).slicePos = s.slicePos := rfl
@[simp] theorem State.setGroup_units (s : State) (g : Group) : (s.setGroup g).units = s.units := rfl
@[simp] theorem State.setGroup_access (s : State) (g : Group) : (s.setGroup g).access = s.access := rfl
@[simp] theorem State.setGroup_frozen (s : State) (g : Group) : (s.setGroup g).frozen = s.frozen := rfl
@[simp] theorem State.setGroup_frozenHeld (s : State) (g : Group) : (s.setGroup g).frozenHeld = s.frozenHeld := rfl
@[simp] theorem State.setGroup_merrlast (s : State) (g : Group) : (s.setGroup g).merrlast = s.merrlast := rfl
@[simp] theorem State.setGroup_ports (s : State) (g : Group) : (s.setGroup g).ports = s.ports := rfl
@[simp] theorem State.setGroup_lostPeers (s : State) (g : Group) : (s.setGroup g).lostPeers = s.lostPeers := rfl
@[simp] theorem State.setGroup_fwState (s : State) (g : Group) : (s.setGroup g).fwState = s.fwState := rfl
@[simp] theorem State.setGroup_fwErr (s : State) (g : Group) : (s.setGroup g).fwErr = s.fwErr := rfl
@[simp] theorem State.setGroup_fwVersion (s : State) (g : Group) : (s.setGroup g).fwVersion = s.fwVersion := rfl
@[simp] theorem State.setGroup_fwstg (s : State) (g : Group) : (s.setGroup g).fwstg = s.fwstg := rfl
@[simp] theorem State.setGroup_flash (s : State) (g : Group) : (s.setGroup g).flash = s.flash := rfl
@[simp] theorem State.setGroup_fatal (s : State) (g : Group) : (s.setGroup g).fatal = s.fatal := rfl

/-! State.updGroup changes only `groups` -/

@[simp] theorem State.updGroup_agenda (s : State) (c n : Nat) (f : Group → Group) : (s.updGroup c n f).agenda = s.agenda := rfl
@[simp] theorem State.updGroup_turn (s : State) (c n : Nat) (f : Group → Group) : (s.updGroup c n f).turn = s.turn := rfl
@[simp] theorem State.updGroup_cur (s : State) (c n : Nat) (f : Group → Group) : (s.updGroup c n f).cur = s.cur := rfl
@[simp] theorem State.updGroup_clockIn (s : State) (c n : Nat) (f : Group → Group) : (s.updGroup c n f).clockIn = s.clockIn := rfl
@[simp] theorem State.updGroup_stamp (s : State) (c n : Nat) (f : Group → Group) : (s.updGroup c n f).stamp = s.stamp := rfl
@[simp] theorem State.updGroup_freeCtr (s : State) (c n : Nat) (f : Group → Group) : (s.updGroup c n f).freeCtr = s.freeCtr := rfl
@[simp] theorem State.updGroup_mem (s : State) (c n : Nat) (f : Group → Group) : (s.updGroup c n f).mem = s.mem := rfl
@[simp] theorem State.updGroup_scratch (s : State) (c n : Nat) (f : Group → Group) : (s.updGroup c n f).scratch = s.scratch := rfl
@[simp] theorem State.updGroup_writes (s : State) (c n : Nat) (f : Group → Group) : (s.updGroup c n f).writes = s.writes := rfl
@[simp] theorem State.updGroup_co (s : State) (c n : Nat) (f : Group → Group) : (s.updGroup c n f).co = s.co := rfl
@[simp] theorem State.updGroup_bitErrors (s : State) (c n : Nat) (f : Group → Group) : (s.updGroup c n f).bitErrors = s.bitErrors := rfl
@[simp] theorem State.updGroup_tlb (s : State) (c n : Nat) (f : Group → Group) : (s.updGroup c n f).tlb = s.tlb := rfl
@[simp] theorem State.updGroup_cores (s : State) (c n : Nat) (f : Group → Group) : (s.updGroup c n f).cores = s.cores := rfl
@[simp] theorem State.updGroup_clusters (s : State) (c n : Nat) (f : Group → Group) : (s.updGroup c n f).clusters = s.clusters := rfl
@[simp] theorem State.updGroup_teams (s : State) (c n : Nat) (f : Group → Group) : (s.updGroup c n f).teams = s.teams := rfl
@[simp] theorem State.updGroup_grids (s : State) (c n : Nat) (f : Group → Group) : (s.updGroup c n f).grids = s.grids := rfl
@[simp] theorem State.updGroup_fns (s : State) (c n : Nat) (f : Group → Group) : (s.updGroup c n f).fns = s.fns := rfl
@[simp] theorem State.updGroup_requests (s : State) (c n : Nat) (f : Group → Group) : (s.updGroup c n f).requests = s.requests := rfl
@[simp] theorem State.updGroup_signals (s : State) (c n : Nat) (f : Group → Group) : (s.updGroup c n f).signals = s.signals := rfl
@[simp] theorem State.updGroup_armed (s : State) (c n : Nat) (f : Group → Group) : (s.updGroup c n f).armed = s.armed := rfl
@[simp] theorem State.updGroup_prefetches (s : State) (c n : Nat) (f : Group → Group) : (s.updGroup c n f).prefetches = s.prefetches := rfl
@[simp] theorem State.updGroup_ending (s : State) (c n : Nat) (f : Group → Group) : (s.updGroup c n f).ending = s.ending := rfl
@[simp] theorem State.updGroup_loops (s : State) (c n : Nat) (f : Group → Group) : (s.updGroup c n f).loops = s.loops := rfl
@[simp] theorem State.updGroup_feProp (s : State) (c n : Nat) (f : Group → Group) : (s.updGroup c n f).feProp = s.feProp := rfl
@[simp] theorem State.updGroup_classRequests (s : State) (c n : Nat) (f : Group → Group) : (s.updGroup c n f).classRequests = s.classRequests := rfl
@[simp] theorem State.updGroup_launchSeq (s : State) (c n : Nat) (f : Group → Group) : (s.updGroup c n f).launchSeq = s.launchSeq := rfl
@[simp] theorem State.updGroup_scratchGen (s : State) (c n : Nat) (f : Group → Group) : (s.updGroup c n f).scratchGen = s.scratchGen := rfl
@[simp] theorem State.updGroup_form (s : State) (c n : Nat) (f : Group → Group) : (s.updGroup c n f).form = s.form := rfl
@[simp] theorem State.updGroup_step (s : State) (c n : Nat) (f : Group → Group) : (s.updGroup c n f).step = s.step := rfl
@[simp] theorem State.updGroup_dev (s : State) (c n : Nat) (f : Group → Group) : (s.updGroup c n f).dev = s.dev := rfl
@[simp] theorem State.updGroup_members (s : State) (c n : Nat) (f : Group → Group) : (s.updGroup c n f).members = s.members := rfl
@[simp] theorem State.updGroup_ptime (s : State) (c n : Nat) (f : Group → Group) : (s.updGroup c n f).ptime = s.ptime := rfl
@[simp] theorem State.updGroup_offs (s : State) (c n : Nat) (f : Group → Group) : (s.updGroup c n f).offs = s.offs := rfl
@[simp] theorem State.updGroup_late (s : State) (c n : Nat) (f : Group → Group) : (s.updGroup c n f).late = s.late := rfl
@[simp] theorem State.updGroup_lock (s : State) (c n : Nat) (f : Group → Group) : (s.updGroup c n f).lock = s.lock := rfl
@[simp] theorem State.updGroup_root (s : State) (c n : Nat) (f : Group → Group) : (s.updGroup c n f).root = s.root := rfl
@[simp] theorem State.updGroup_syncs (s : State) (c n : Nat) (f : Group → Group) : (s.updGroup c n f).syncs = s.syncs := rfl
@[simp] theorem State.updGroup_podHeld (s : State) (c n : Nat) (f : Group → Group) : (s.updGroup c n f).podHeld = s.podHeld := rfl
@[simp] theorem State.updGroup_podReleased (s : State) (c n : Nat) (f : Group → Group) : (s.updGroup c n f).podReleased = s.podReleased := rfl
@[simp] theorem State.updGroup_podStarts (s : State) (c n : Nat) (f : Group → Group) : (s.updGroup c n f).podStarts = s.podStarts := rfl
@[simp] theorem State.updGroup_podOut (s : State) (c n : Nat) (f : Group → Group) : (s.updGroup c n f).podOut = s.podOut := rfl
@[simp] theorem State.updGroup_cap (s : State) (c n : Nat) (f : Group → Group) : (s.updGroup c n f).cap = s.cap := rfl
@[simp] theorem State.updGroup_draww (s : State) (c n : Nat) (f : Group → Group) : (s.updGroup c n f).draww = s.draww := rfl
@[simp] theorem State.updGroup_overPeriods (s : State) (c n : Nat) (f : Group → Group) : (s.updGroup c n f).overPeriods = s.overPeriods := rfl
@[simp] theorem State.updGroup_overRun (s : State) (c n : Nat) (f : Group → Group) : (s.updGroup c n f).overRun = s.overRun := rfl
@[simp] theorem State.updGroup_therm (s : State) (c n : Nat) (f : Group → Group) : (s.updGroup c n f).therm = s.therm := rfl
@[simp] theorem State.updGroup_hold (s : State) (c n : Nat) (f : Group → Group) : (s.updGroup c n f).hold = s.hold := rfl
@[simp] theorem State.updGroup_admitted (s : State) (c n : Nat) (f : Group → Group) : (s.updGroup c n f).admitted = s.admitted := rfl
@[simp] theorem State.updGroup_window (s : State) (c n : Nat) (f : Group → Group) : (s.updGroup c n f).window = s.window := rfl
@[simp] theorem State.updGroup_windowed (s : State) (c n : Nat) (f : Group → Group) : (s.updGroup c n f).windowed = s.windowed := rfl
@[simp] theorem State.updGroup_sliceOwner (s : State) (c n : Nat) (f : Group → Group) : (s.updGroup c n f).sliceOwner = s.sliceOwner := rfl
@[simp] theorem State.updGroup_slicePos (s : State) (c n : Nat) (f : Group → Group) : (s.updGroup c n f).slicePos = s.slicePos := rfl
@[simp] theorem State.updGroup_units (s : State) (c n : Nat) (f : Group → Group) : (s.updGroup c n f).units = s.units := rfl
@[simp] theorem State.updGroup_access (s : State) (c n : Nat) (f : Group → Group) : (s.updGroup c n f).access = s.access := rfl
@[simp] theorem State.updGroup_frozen (s : State) (c n : Nat) (f : Group → Group) : (s.updGroup c n f).frozen = s.frozen := rfl
@[simp] theorem State.updGroup_frozenHeld (s : State) (c n : Nat) (f : Group → Group) : (s.updGroup c n f).frozenHeld = s.frozenHeld := rfl
@[simp] theorem State.updGroup_merrlast (s : State) (c n : Nat) (f : Group → Group) : (s.updGroup c n f).merrlast = s.merrlast := rfl
@[simp] theorem State.updGroup_ports (s : State) (c n : Nat) (f : Group → Group) : (s.updGroup c n f).ports = s.ports := rfl
@[simp] theorem State.updGroup_lostPeers (s : State) (c n : Nat) (f : Group → Group) : (s.updGroup c n f).lostPeers = s.lostPeers := rfl
@[simp] theorem State.updGroup_fwState (s : State) (c n : Nat) (f : Group → Group) : (s.updGroup c n f).fwState = s.fwState := rfl
@[simp] theorem State.updGroup_fwErr (s : State) (c n : Nat) (f : Group → Group) : (s.updGroup c n f).fwErr = s.fwErr := rfl
@[simp] theorem State.updGroup_fwVersion (s : State) (c n : Nat) (f : Group → Group) : (s.updGroup c n f).fwVersion = s.fwVersion := rfl
@[simp] theorem State.updGroup_fwstg (s : State) (c n : Nat) (f : Group → Group) : (s.updGroup c n f).fwstg = s.fwstg := rfl
@[simp] theorem State.updGroup_flash (s : State) (c n : Nat) (f : Group → Group) : (s.updGroup c n f).flash = s.flash := rfl
@[simp] theorem State.updGroup_fatal (s : State) (c n : Nat) (f : Group → Group) : (s.updGroup c n f).fatal = s.fatal := rfl

/-! State.updCore changes only `cores` -/

@[simp] theorem State.updCore_agenda (s : State) (c : Nat) (f : Core → Core) : (s.updCore c f).agenda = s.agenda := rfl
@[simp] theorem State.updCore_turn (s : State) (c : Nat) (f : Core → Core) : (s.updCore c f).turn = s.turn := rfl
@[simp] theorem State.updCore_cur (s : State) (c : Nat) (f : Core → Core) : (s.updCore c f).cur = s.cur := rfl
@[simp] theorem State.updCore_clockIn (s : State) (c : Nat) (f : Core → Core) : (s.updCore c f).clockIn = s.clockIn := rfl
@[simp] theorem State.updCore_stamp (s : State) (c : Nat) (f : Core → Core) : (s.updCore c f).stamp = s.stamp := rfl
@[simp] theorem State.updCore_freeCtr (s : State) (c : Nat) (f : Core → Core) : (s.updCore c f).freeCtr = s.freeCtr := rfl
@[simp] theorem State.updCore_mem (s : State) (c : Nat) (f : Core → Core) : (s.updCore c f).mem = s.mem := rfl
@[simp] theorem State.updCore_scratch (s : State) (c : Nat) (f : Core → Core) : (s.updCore c f).scratch = s.scratch := rfl
@[simp] theorem State.updCore_writes (s : State) (c : Nat) (f : Core → Core) : (s.updCore c f).writes = s.writes := rfl
@[simp] theorem State.updCore_co (s : State) (c : Nat) (f : Core → Core) : (s.updCore c f).co = s.co := rfl
@[simp] theorem State.updCore_bitErrors (s : State) (c : Nat) (f : Core → Core) : (s.updCore c f).bitErrors = s.bitErrors := rfl
@[simp] theorem State.updCore_tlb (s : State) (c : Nat) (f : Core → Core) : (s.updCore c f).tlb = s.tlb := rfl
@[simp] theorem State.updCore_groups (s : State) (c : Nat) (f : Core → Core) : (s.updCore c f).groups = s.groups := rfl
@[simp] theorem State.updCore_clusters (s : State) (c : Nat) (f : Core → Core) : (s.updCore c f).clusters = s.clusters := rfl
@[simp] theorem State.updCore_teams (s : State) (c : Nat) (f : Core → Core) : (s.updCore c f).teams = s.teams := rfl
@[simp] theorem State.updCore_grids (s : State) (c : Nat) (f : Core → Core) : (s.updCore c f).grids = s.grids := rfl
@[simp] theorem State.updCore_fns (s : State) (c : Nat) (f : Core → Core) : (s.updCore c f).fns = s.fns := rfl
@[simp] theorem State.updCore_requests (s : State) (c : Nat) (f : Core → Core) : (s.updCore c f).requests = s.requests := rfl
@[simp] theorem State.updCore_signals (s : State) (c : Nat) (f : Core → Core) : (s.updCore c f).signals = s.signals := rfl
@[simp] theorem State.updCore_armed (s : State) (c : Nat) (f : Core → Core) : (s.updCore c f).armed = s.armed := rfl
@[simp] theorem State.updCore_prefetches (s : State) (c : Nat) (f : Core → Core) : (s.updCore c f).prefetches = s.prefetches := rfl
@[simp] theorem State.updCore_ending (s : State) (c : Nat) (f : Core → Core) : (s.updCore c f).ending = s.ending := rfl
@[simp] theorem State.updCore_loops (s : State) (c : Nat) (f : Core → Core) : (s.updCore c f).loops = s.loops := rfl
@[simp] theorem State.updCore_feProp (s : State) (c : Nat) (f : Core → Core) : (s.updCore c f).feProp = s.feProp := rfl
@[simp] theorem State.updCore_classRequests (s : State) (c : Nat) (f : Core → Core) : (s.updCore c f).classRequests = s.classRequests := rfl
@[simp] theorem State.updCore_launchSeq (s : State) (c : Nat) (f : Core → Core) : (s.updCore c f).launchSeq = s.launchSeq := rfl
@[simp] theorem State.updCore_scratchGen (s : State) (c : Nat) (f : Core → Core) : (s.updCore c f).scratchGen = s.scratchGen := rfl
@[simp] theorem State.updCore_form (s : State) (c : Nat) (f : Core → Core) : (s.updCore c f).form = s.form := rfl
@[simp] theorem State.updCore_step (s : State) (c : Nat) (f : Core → Core) : (s.updCore c f).step = s.step := rfl
@[simp] theorem State.updCore_dev (s : State) (c : Nat) (f : Core → Core) : (s.updCore c f).dev = s.dev := rfl
@[simp] theorem State.updCore_members (s : State) (c : Nat) (f : Core → Core) : (s.updCore c f).members = s.members := rfl
@[simp] theorem State.updCore_ptime (s : State) (c : Nat) (f : Core → Core) : (s.updCore c f).ptime = s.ptime := rfl
@[simp] theorem State.updCore_offs (s : State) (c : Nat) (f : Core → Core) : (s.updCore c f).offs = s.offs := rfl
@[simp] theorem State.updCore_late (s : State) (c : Nat) (f : Core → Core) : (s.updCore c f).late = s.late := rfl
@[simp] theorem State.updCore_lock (s : State) (c : Nat) (f : Core → Core) : (s.updCore c f).lock = s.lock := rfl
@[simp] theorem State.updCore_root (s : State) (c : Nat) (f : Core → Core) : (s.updCore c f).root = s.root := rfl
@[simp] theorem State.updCore_syncs (s : State) (c : Nat) (f : Core → Core) : (s.updCore c f).syncs = s.syncs := rfl
@[simp] theorem State.updCore_podHeld (s : State) (c : Nat) (f : Core → Core) : (s.updCore c f).podHeld = s.podHeld := rfl
@[simp] theorem State.updCore_podReleased (s : State) (c : Nat) (f : Core → Core) : (s.updCore c f).podReleased = s.podReleased := rfl
@[simp] theorem State.updCore_podStarts (s : State) (c : Nat) (f : Core → Core) : (s.updCore c f).podStarts = s.podStarts := rfl
@[simp] theorem State.updCore_podOut (s : State) (c : Nat) (f : Core → Core) : (s.updCore c f).podOut = s.podOut := rfl
@[simp] theorem State.updCore_cap (s : State) (c : Nat) (f : Core → Core) : (s.updCore c f).cap = s.cap := rfl
@[simp] theorem State.updCore_draww (s : State) (c : Nat) (f : Core → Core) : (s.updCore c f).draww = s.draww := rfl
@[simp] theorem State.updCore_overPeriods (s : State) (c : Nat) (f : Core → Core) : (s.updCore c f).overPeriods = s.overPeriods := rfl
@[simp] theorem State.updCore_overRun (s : State) (c : Nat) (f : Core → Core) : (s.updCore c f).overRun = s.overRun := rfl
@[simp] theorem State.updCore_therm (s : State) (c : Nat) (f : Core → Core) : (s.updCore c f).therm = s.therm := rfl
@[simp] theorem State.updCore_hold (s : State) (c : Nat) (f : Core → Core) : (s.updCore c f).hold = s.hold := rfl
@[simp] theorem State.updCore_admitted (s : State) (c : Nat) (f : Core → Core) : (s.updCore c f).admitted = s.admitted := rfl
@[simp] theorem State.updCore_window (s : State) (c : Nat) (f : Core → Core) : (s.updCore c f).window = s.window := rfl
@[simp] theorem State.updCore_windowed (s : State) (c : Nat) (f : Core → Core) : (s.updCore c f).windowed = s.windowed := rfl
@[simp] theorem State.updCore_sliceOwner (s : State) (c : Nat) (f : Core → Core) : (s.updCore c f).sliceOwner = s.sliceOwner := rfl
@[simp] theorem State.updCore_slicePos (s : State) (c : Nat) (f : Core → Core) : (s.updCore c f).slicePos = s.slicePos := rfl
@[simp] theorem State.updCore_units (s : State) (c : Nat) (f : Core → Core) : (s.updCore c f).units = s.units := rfl
@[simp] theorem State.updCore_access (s : State) (c : Nat) (f : Core → Core) : (s.updCore c f).access = s.access := rfl
@[simp] theorem State.updCore_frozen (s : State) (c : Nat) (f : Core → Core) : (s.updCore c f).frozen = s.frozen := rfl
@[simp] theorem State.updCore_frozenHeld (s : State) (c : Nat) (f : Core → Core) : (s.updCore c f).frozenHeld = s.frozenHeld := rfl
@[simp] theorem State.updCore_merrlast (s : State) (c : Nat) (f : Core → Core) : (s.updCore c f).merrlast = s.merrlast := rfl
@[simp] theorem State.updCore_ports (s : State) (c : Nat) (f : Core → Core) : (s.updCore c f).ports = s.ports := rfl
@[simp] theorem State.updCore_lostPeers (s : State) (c : Nat) (f : Core → Core) : (s.updCore c f).lostPeers = s.lostPeers := rfl
@[simp] theorem State.updCore_fwState (s : State) (c : Nat) (f : Core → Core) : (s.updCore c f).fwState = s.fwState := rfl
@[simp] theorem State.updCore_fwErr (s : State) (c : Nat) (f : Core → Core) : (s.updCore c f).fwErr = s.fwErr := rfl
@[simp] theorem State.updCore_fwVersion (s : State) (c : Nat) (f : Core → Core) : (s.updCore c f).fwVersion = s.fwVersion := rfl
@[simp] theorem State.updCore_fwstg (s : State) (c : Nat) (f : Core → Core) : (s.updCore c f).fwstg = s.fwstg := rfl
@[simp] theorem State.updCore_flash (s : State) (c : Nat) (f : Core → Core) : (s.updCore c f).flash = s.flash := rfl
@[simp] theorem State.updCore_fatal (s : State) (c : Nat) (f : Core → Core) : (s.updCore c f).fatal = s.fatal := rfl

/-! State.updCluster changes only `clusters` -/

@[simp] theorem State.updCluster_agenda (s : State) (c : Nat) (f : Cluster → Cluster) : (s.updCluster c f).agenda = s.agenda := rfl
@[simp] theorem State.updCluster_turn (s : State) (c : Nat) (f : Cluster → Cluster) : (s.updCluster c f).turn = s.turn := rfl
@[simp] theorem State.updCluster_cur (s : State) (c : Nat) (f : Cluster → Cluster) : (s.updCluster c f).cur = s.cur := rfl
@[simp] theorem State.updCluster_clockIn (s : State) (c : Nat) (f : Cluster → Cluster) : (s.updCluster c f).clockIn = s.clockIn := rfl
@[simp] theorem State.updCluster_stamp (s : State) (c : Nat) (f : Cluster → Cluster) : (s.updCluster c f).stamp = s.stamp := rfl
@[simp] theorem State.updCluster_freeCtr (s : State) (c : Nat) (f : Cluster → Cluster) : (s.updCluster c f).freeCtr = s.freeCtr := rfl
@[simp] theorem State.updCluster_mem (s : State) (c : Nat) (f : Cluster → Cluster) : (s.updCluster c f).mem = s.mem := rfl
@[simp] theorem State.updCluster_scratch (s : State) (c : Nat) (f : Cluster → Cluster) : (s.updCluster c f).scratch = s.scratch := rfl
@[simp] theorem State.updCluster_writes (s : State) (c : Nat) (f : Cluster → Cluster) : (s.updCluster c f).writes = s.writes := rfl
@[simp] theorem State.updCluster_co (s : State) (c : Nat) (f : Cluster → Cluster) : (s.updCluster c f).co = s.co := rfl
@[simp] theorem State.updCluster_bitErrors (s : State) (c : Nat) (f : Cluster → Cluster) : (s.updCluster c f).bitErrors = s.bitErrors := rfl
@[simp] theorem State.updCluster_tlb (s : State) (c : Nat) (f : Cluster → Cluster) : (s.updCluster c f).tlb = s.tlb := rfl
@[simp] theorem State.updCluster_groups (s : State) (c : Nat) (f : Cluster → Cluster) : (s.updCluster c f).groups = s.groups := rfl
@[simp] theorem State.updCluster_cores (s : State) (c : Nat) (f : Cluster → Cluster) : (s.updCluster c f).cores = s.cores := rfl
@[simp] theorem State.updCluster_teams (s : State) (c : Nat) (f : Cluster → Cluster) : (s.updCluster c f).teams = s.teams := rfl
@[simp] theorem State.updCluster_grids (s : State) (c : Nat) (f : Cluster → Cluster) : (s.updCluster c f).grids = s.grids := rfl
@[simp] theorem State.updCluster_fns (s : State) (c : Nat) (f : Cluster → Cluster) : (s.updCluster c f).fns = s.fns := rfl
@[simp] theorem State.updCluster_requests (s : State) (c : Nat) (f : Cluster → Cluster) : (s.updCluster c f).requests = s.requests := rfl
@[simp] theorem State.updCluster_signals (s : State) (c : Nat) (f : Cluster → Cluster) : (s.updCluster c f).signals = s.signals := rfl
@[simp] theorem State.updCluster_armed (s : State) (c : Nat) (f : Cluster → Cluster) : (s.updCluster c f).armed = s.armed := rfl
@[simp] theorem State.updCluster_prefetches (s : State) (c : Nat) (f : Cluster → Cluster) : (s.updCluster c f).prefetches = s.prefetches := rfl
@[simp] theorem State.updCluster_ending (s : State) (c : Nat) (f : Cluster → Cluster) : (s.updCluster c f).ending = s.ending := rfl
@[simp] theorem State.updCluster_loops (s : State) (c : Nat) (f : Cluster → Cluster) : (s.updCluster c f).loops = s.loops := rfl
@[simp] theorem State.updCluster_feProp (s : State) (c : Nat) (f : Cluster → Cluster) : (s.updCluster c f).feProp = s.feProp := rfl
@[simp] theorem State.updCluster_classRequests (s : State) (c : Nat) (f : Cluster → Cluster) : (s.updCluster c f).classRequests = s.classRequests := rfl
@[simp] theorem State.updCluster_launchSeq (s : State) (c : Nat) (f : Cluster → Cluster) : (s.updCluster c f).launchSeq = s.launchSeq := rfl
@[simp] theorem State.updCluster_scratchGen (s : State) (c : Nat) (f : Cluster → Cluster) : (s.updCluster c f).scratchGen = s.scratchGen := rfl
@[simp] theorem State.updCluster_form (s : State) (c : Nat) (f : Cluster → Cluster) : (s.updCluster c f).form = s.form := rfl
@[simp] theorem State.updCluster_step (s : State) (c : Nat) (f : Cluster → Cluster) : (s.updCluster c f).step = s.step := rfl
@[simp] theorem State.updCluster_dev (s : State) (c : Nat) (f : Cluster → Cluster) : (s.updCluster c f).dev = s.dev := rfl
@[simp] theorem State.updCluster_members (s : State) (c : Nat) (f : Cluster → Cluster) : (s.updCluster c f).members = s.members := rfl
@[simp] theorem State.updCluster_ptime (s : State) (c : Nat) (f : Cluster → Cluster) : (s.updCluster c f).ptime = s.ptime := rfl
@[simp] theorem State.updCluster_offs (s : State) (c : Nat) (f : Cluster → Cluster) : (s.updCluster c f).offs = s.offs := rfl
@[simp] theorem State.updCluster_late (s : State) (c : Nat) (f : Cluster → Cluster) : (s.updCluster c f).late = s.late := rfl
@[simp] theorem State.updCluster_lock (s : State) (c : Nat) (f : Cluster → Cluster) : (s.updCluster c f).lock = s.lock := rfl
@[simp] theorem State.updCluster_root (s : State) (c : Nat) (f : Cluster → Cluster) : (s.updCluster c f).root = s.root := rfl
@[simp] theorem State.updCluster_syncs (s : State) (c : Nat) (f : Cluster → Cluster) : (s.updCluster c f).syncs = s.syncs := rfl
@[simp] theorem State.updCluster_podHeld (s : State) (c : Nat) (f : Cluster → Cluster) : (s.updCluster c f).podHeld = s.podHeld := rfl
@[simp] theorem State.updCluster_podReleased (s : State) (c : Nat) (f : Cluster → Cluster) : (s.updCluster c f).podReleased = s.podReleased := rfl
@[simp] theorem State.updCluster_podStarts (s : State) (c : Nat) (f : Cluster → Cluster) : (s.updCluster c f).podStarts = s.podStarts := rfl
@[simp] theorem State.updCluster_podOut (s : State) (c : Nat) (f : Cluster → Cluster) : (s.updCluster c f).podOut = s.podOut := rfl
@[simp] theorem State.updCluster_cap (s : State) (c : Nat) (f : Cluster → Cluster) : (s.updCluster c f).cap = s.cap := rfl
@[simp] theorem State.updCluster_draww (s : State) (c : Nat) (f : Cluster → Cluster) : (s.updCluster c f).draww = s.draww := rfl
@[simp] theorem State.updCluster_overPeriods (s : State) (c : Nat) (f : Cluster → Cluster) : (s.updCluster c f).overPeriods = s.overPeriods := rfl
@[simp] theorem State.updCluster_overRun (s : State) (c : Nat) (f : Cluster → Cluster) : (s.updCluster c f).overRun = s.overRun := rfl
@[simp] theorem State.updCluster_therm (s : State) (c : Nat) (f : Cluster → Cluster) : (s.updCluster c f).therm = s.therm := rfl
@[simp] theorem State.updCluster_hold (s : State) (c : Nat) (f : Cluster → Cluster) : (s.updCluster c f).hold = s.hold := rfl
@[simp] theorem State.updCluster_admitted (s : State) (c : Nat) (f : Cluster → Cluster) : (s.updCluster c f).admitted = s.admitted := rfl
@[simp] theorem State.updCluster_window (s : State) (c : Nat) (f : Cluster → Cluster) : (s.updCluster c f).window = s.window := rfl
@[simp] theorem State.updCluster_windowed (s : State) (c : Nat) (f : Cluster → Cluster) : (s.updCluster c f).windowed = s.windowed := rfl
@[simp] theorem State.updCluster_sliceOwner (s : State) (c : Nat) (f : Cluster → Cluster) : (s.updCluster c f).sliceOwner = s.sliceOwner := rfl
@[simp] theorem State.updCluster_slicePos (s : State) (c : Nat) (f : Cluster → Cluster) : (s.updCluster c f).slicePos = s.slicePos := rfl
@[simp] theorem State.updCluster_units (s : State) (c : Nat) (f : Cluster → Cluster) : (s.updCluster c f).units = s.units := rfl
@[simp] theorem State.updCluster_access (s : State) (c : Nat) (f : Cluster → Cluster) : (s.updCluster c f).access = s.access := rfl
@[simp] theorem State.updCluster_frozen (s : State) (c : Nat) (f : Cluster → Cluster) : (s.updCluster c f).frozen = s.frozen := rfl
@[simp] theorem State.updCluster_frozenHeld (s : State) (c : Nat) (f : Cluster → Cluster) : (s.updCluster c f).frozenHeld = s.frozenHeld := rfl
@[simp] theorem State.updCluster_merrlast (s : State) (c : Nat) (f : Cluster → Cluster) : (s.updCluster c f).merrlast = s.merrlast := rfl
@[simp] theorem State.updCluster_ports (s : State) (c : Nat) (f : Cluster → Cluster) : (s.updCluster c f).ports = s.ports := rfl
@[simp] theorem State.updCluster_lostPeers (s : State) (c : Nat) (f : Cluster → Cluster) : (s.updCluster c f).lostPeers = s.lostPeers := rfl
@[simp] theorem State.updCluster_fwState (s : State) (c : Nat) (f : Cluster → Cluster) : (s.updCluster c f).fwState = s.fwState := rfl
@[simp] theorem State.updCluster_fwErr (s : State) (c : Nat) (f : Cluster → Cluster) : (s.updCluster c f).fwErr = s.fwErr := rfl
@[simp] theorem State.updCluster_fwVersion (s : State) (c : Nat) (f : Cluster → Cluster) : (s.updCluster c f).fwVersion = s.fwVersion := rfl
@[simp] theorem State.updCluster_fwstg (s : State) (c : Nat) (f : Cluster → Cluster) : (s.updCluster c f).fwstg = s.fwstg := rfl
@[simp] theorem State.updCluster_flash (s : State) (c : Nat) (f : Cluster → Cluster) : (s.updCluster c f).flash = s.flash := rfl
@[simp] theorem State.updCluster_fatal (s : State) (c : Nat) (f : Cluster → Cluster) : (s.updCluster c f).fatal = s.fatal := rfl

/-! State.updFn changes only `fns` -/

@[simp] theorem State.updFn_agenda (s : State) (n : Nat) (f : Fn → Fn) : (s.updFn n f).agenda = s.agenda := rfl
@[simp] theorem State.updFn_turn (s : State) (n : Nat) (f : Fn → Fn) : (s.updFn n f).turn = s.turn := rfl
@[simp] theorem State.updFn_cur (s : State) (n : Nat) (f : Fn → Fn) : (s.updFn n f).cur = s.cur := rfl
@[simp] theorem State.updFn_clockIn (s : State) (n : Nat) (f : Fn → Fn) : (s.updFn n f).clockIn = s.clockIn := rfl
@[simp] theorem State.updFn_stamp (s : State) (n : Nat) (f : Fn → Fn) : (s.updFn n f).stamp = s.stamp := rfl
@[simp] theorem State.updFn_freeCtr (s : State) (n : Nat) (f : Fn → Fn) : (s.updFn n f).freeCtr = s.freeCtr := rfl
@[simp] theorem State.updFn_mem (s : State) (n : Nat) (f : Fn → Fn) : (s.updFn n f).mem = s.mem := rfl
@[simp] theorem State.updFn_scratch (s : State) (n : Nat) (f : Fn → Fn) : (s.updFn n f).scratch = s.scratch := rfl
@[simp] theorem State.updFn_writes (s : State) (n : Nat) (f : Fn → Fn) : (s.updFn n f).writes = s.writes := rfl
@[simp] theorem State.updFn_co (s : State) (n : Nat) (f : Fn → Fn) : (s.updFn n f).co = s.co := rfl
@[simp] theorem State.updFn_bitErrors (s : State) (n : Nat) (f : Fn → Fn) : (s.updFn n f).bitErrors = s.bitErrors := rfl
@[simp] theorem State.updFn_tlb (s : State) (n : Nat) (f : Fn → Fn) : (s.updFn n f).tlb = s.tlb := rfl
@[simp] theorem State.updFn_groups (s : State) (n : Nat) (f : Fn → Fn) : (s.updFn n f).groups = s.groups := rfl
@[simp] theorem State.updFn_cores (s : State) (n : Nat) (f : Fn → Fn) : (s.updFn n f).cores = s.cores := rfl
@[simp] theorem State.updFn_clusters (s : State) (n : Nat) (f : Fn → Fn) : (s.updFn n f).clusters = s.clusters := rfl
@[simp] theorem State.updFn_teams (s : State) (n : Nat) (f : Fn → Fn) : (s.updFn n f).teams = s.teams := rfl
@[simp] theorem State.updFn_grids (s : State) (n : Nat) (f : Fn → Fn) : (s.updFn n f).grids = s.grids := rfl
@[simp] theorem State.updFn_requests (s : State) (n : Nat) (f : Fn → Fn) : (s.updFn n f).requests = s.requests := rfl
@[simp] theorem State.updFn_signals (s : State) (n : Nat) (f : Fn → Fn) : (s.updFn n f).signals = s.signals := rfl
@[simp] theorem State.updFn_armed (s : State) (n : Nat) (f : Fn → Fn) : (s.updFn n f).armed = s.armed := rfl
@[simp] theorem State.updFn_prefetches (s : State) (n : Nat) (f : Fn → Fn) : (s.updFn n f).prefetches = s.prefetches := rfl
@[simp] theorem State.updFn_ending (s : State) (n : Nat) (f : Fn → Fn) : (s.updFn n f).ending = s.ending := rfl
@[simp] theorem State.updFn_loops (s : State) (n : Nat) (f : Fn → Fn) : (s.updFn n f).loops = s.loops := rfl
@[simp] theorem State.updFn_feProp (s : State) (n : Nat) (f : Fn → Fn) : (s.updFn n f).feProp = s.feProp := rfl
@[simp] theorem State.updFn_classRequests (s : State) (n : Nat) (f : Fn → Fn) : (s.updFn n f).classRequests = s.classRequests := rfl
@[simp] theorem State.updFn_launchSeq (s : State) (n : Nat) (f : Fn → Fn) : (s.updFn n f).launchSeq = s.launchSeq := rfl
@[simp] theorem State.updFn_scratchGen (s : State) (n : Nat) (f : Fn → Fn) : (s.updFn n f).scratchGen = s.scratchGen := rfl
@[simp] theorem State.updFn_form (s : State) (n : Nat) (f : Fn → Fn) : (s.updFn n f).form = s.form := rfl
@[simp] theorem State.updFn_step (s : State) (n : Nat) (f : Fn → Fn) : (s.updFn n f).step = s.step := rfl
@[simp] theorem State.updFn_dev (s : State) (n : Nat) (f : Fn → Fn) : (s.updFn n f).dev = s.dev := rfl
@[simp] theorem State.updFn_members (s : State) (n : Nat) (f : Fn → Fn) : (s.updFn n f).members = s.members := rfl
@[simp] theorem State.updFn_ptime (s : State) (n : Nat) (f : Fn → Fn) : (s.updFn n f).ptime = s.ptime := rfl
@[simp] theorem State.updFn_offs (s : State) (n : Nat) (f : Fn → Fn) : (s.updFn n f).offs = s.offs := rfl
@[simp] theorem State.updFn_late (s : State) (n : Nat) (f : Fn → Fn) : (s.updFn n f).late = s.late := rfl
@[simp] theorem State.updFn_lock (s : State) (n : Nat) (f : Fn → Fn) : (s.updFn n f).lock = s.lock := rfl
@[simp] theorem State.updFn_root (s : State) (n : Nat) (f : Fn → Fn) : (s.updFn n f).root = s.root := rfl
@[simp] theorem State.updFn_syncs (s : State) (n : Nat) (f : Fn → Fn) : (s.updFn n f).syncs = s.syncs := rfl
@[simp] theorem State.updFn_podHeld (s : State) (n : Nat) (f : Fn → Fn) : (s.updFn n f).podHeld = s.podHeld := rfl
@[simp] theorem State.updFn_podReleased (s : State) (n : Nat) (f : Fn → Fn) : (s.updFn n f).podReleased = s.podReleased := rfl
@[simp] theorem State.updFn_podStarts (s : State) (n : Nat) (f : Fn → Fn) : (s.updFn n f).podStarts = s.podStarts := rfl
@[simp] theorem State.updFn_podOut (s : State) (n : Nat) (f : Fn → Fn) : (s.updFn n f).podOut = s.podOut := rfl
@[simp] theorem State.updFn_cap (s : State) (n : Nat) (f : Fn → Fn) : (s.updFn n f).cap = s.cap := rfl
@[simp] theorem State.updFn_draww (s : State) (n : Nat) (f : Fn → Fn) : (s.updFn n f).draww = s.draww := rfl
@[simp] theorem State.updFn_overPeriods (s : State) (n : Nat) (f : Fn → Fn) : (s.updFn n f).overPeriods = s.overPeriods := rfl
@[simp] theorem State.updFn_overRun (s : State) (n : Nat) (f : Fn → Fn) : (s.updFn n f).overRun = s.overRun := rfl
@[simp] theorem State.updFn_therm (s : State) (n : Nat) (f : Fn → Fn) : (s.updFn n f).therm = s.therm := rfl
@[simp] theorem State.updFn_hold (s : State) (n : Nat) (f : Fn → Fn) : (s.updFn n f).hold = s.hold := rfl
@[simp] theorem State.updFn_admitted (s : State) (n : Nat) (f : Fn → Fn) : (s.updFn n f).admitted = s.admitted := rfl
@[simp] theorem State.updFn_window (s : State) (n : Nat) (f : Fn → Fn) : (s.updFn n f).window = s.window := rfl
@[simp] theorem State.updFn_windowed (s : State) (n : Nat) (f : Fn → Fn) : (s.updFn n f).windowed = s.windowed := rfl
@[simp] theorem State.updFn_sliceOwner (s : State) (n : Nat) (f : Fn → Fn) : (s.updFn n f).sliceOwner = s.sliceOwner := rfl
@[simp] theorem State.updFn_slicePos (s : State) (n : Nat) (f : Fn → Fn) : (s.updFn n f).slicePos = s.slicePos := rfl
@[simp] theorem State.updFn_units (s : State) (n : Nat) (f : Fn → Fn) : (s.updFn n f).units = s.units := rfl
@[simp] theorem State.updFn_access (s : State) (n : Nat) (f : Fn → Fn) : (s.updFn n f).access = s.access := rfl
@[simp] theorem State.updFn_frozen (s : State) (n : Nat) (f : Fn → Fn) : (s.updFn n f).frozen = s.frozen := rfl
@[simp] theorem State.updFn_frozenHeld (s : State) (n : Nat) (f : Fn → Fn) : (s.updFn n f).frozenHeld = s.frozenHeld := rfl
@[simp] theorem State.updFn_merrlast (s : State) (n : Nat) (f : Fn → Fn) : (s.updFn n f).merrlast = s.merrlast := rfl
@[simp] theorem State.updFn_ports (s : State) (n : Nat) (f : Fn → Fn) : (s.updFn n f).ports = s.ports := rfl
@[simp] theorem State.updFn_lostPeers (s : State) (n : Nat) (f : Fn → Fn) : (s.updFn n f).lostPeers = s.lostPeers := rfl
@[simp] theorem State.updFn_fwState (s : State) (n : Nat) (f : Fn → Fn) : (s.updFn n f).fwState = s.fwState := rfl
@[simp] theorem State.updFn_fwErr (s : State) (n : Nat) (f : Fn → Fn) : (s.updFn n f).fwErr = s.fwErr := rfl
@[simp] theorem State.updFn_fwVersion (s : State) (n : Nat) (f : Fn → Fn) : (s.updFn n f).fwVersion = s.fwVersion := rfl
@[simp] theorem State.updFn_fwstg (s : State) (n : Nat) (f : Fn → Fn) : (s.updFn n f).fwstg = s.fwstg := rfl
@[simp] theorem State.updFn_flash (s : State) (n : Nat) (f : Fn → Fn) : (s.updFn n f).flash = s.flash := rfl
@[simp] theorem State.updFn_fatal (s : State) (n : Nat) (f : Fn → Fn) : (s.updFn n f).fatal = s.fatal := rfl

/-! State.updQueue changes only `fns` -/

@[simp] theorem State.updQueue_agenda (s : State) (n q : Nat) (f : Queue → Queue) : (s.updQueue n q f).agenda = s.agenda := rfl
@[simp] theorem State.updQueue_turn (s : State) (n q : Nat) (f : Queue → Queue) : (s.updQueue n q f).turn = s.turn := rfl
@[simp] theorem State.updQueue_cur (s : State) (n q : Nat) (f : Queue → Queue) : (s.updQueue n q f).cur = s.cur := rfl
@[simp] theorem State.updQueue_clockIn (s : State) (n q : Nat) (f : Queue → Queue) : (s.updQueue n q f).clockIn = s.clockIn := rfl
@[simp] theorem State.updQueue_stamp (s : State) (n q : Nat) (f : Queue → Queue) : (s.updQueue n q f).stamp = s.stamp := rfl
@[simp] theorem State.updQueue_freeCtr (s : State) (n q : Nat) (f : Queue → Queue) : (s.updQueue n q f).freeCtr = s.freeCtr := rfl
@[simp] theorem State.updQueue_mem (s : State) (n q : Nat) (f : Queue → Queue) : (s.updQueue n q f).mem = s.mem := rfl
@[simp] theorem State.updQueue_scratch (s : State) (n q : Nat) (f : Queue → Queue) : (s.updQueue n q f).scratch = s.scratch := rfl
@[simp] theorem State.updQueue_writes (s : State) (n q : Nat) (f : Queue → Queue) : (s.updQueue n q f).writes = s.writes := rfl
@[simp] theorem State.updQueue_co (s : State) (n q : Nat) (f : Queue → Queue) : (s.updQueue n q f).co = s.co := rfl
@[simp] theorem State.updQueue_bitErrors (s : State) (n q : Nat) (f : Queue → Queue) : (s.updQueue n q f).bitErrors = s.bitErrors := rfl
@[simp] theorem State.updQueue_tlb (s : State) (n q : Nat) (f : Queue → Queue) : (s.updQueue n q f).tlb = s.tlb := rfl
@[simp] theorem State.updQueue_groups (s : State) (n q : Nat) (f : Queue → Queue) : (s.updQueue n q f).groups = s.groups := rfl
@[simp] theorem State.updQueue_cores (s : State) (n q : Nat) (f : Queue → Queue) : (s.updQueue n q f).cores = s.cores := rfl
@[simp] theorem State.updQueue_clusters (s : State) (n q : Nat) (f : Queue → Queue) : (s.updQueue n q f).clusters = s.clusters := rfl
@[simp] theorem State.updQueue_teams (s : State) (n q : Nat) (f : Queue → Queue) : (s.updQueue n q f).teams = s.teams := rfl
@[simp] theorem State.updQueue_grids (s : State) (n q : Nat) (f : Queue → Queue) : (s.updQueue n q f).grids = s.grids := rfl
@[simp] theorem State.updQueue_requests (s : State) (n q : Nat) (f : Queue → Queue) : (s.updQueue n q f).requests = s.requests := rfl
@[simp] theorem State.updQueue_signals (s : State) (n q : Nat) (f : Queue → Queue) : (s.updQueue n q f).signals = s.signals := rfl
@[simp] theorem State.updQueue_armed (s : State) (n q : Nat) (f : Queue → Queue) : (s.updQueue n q f).armed = s.armed := rfl
@[simp] theorem State.updQueue_prefetches (s : State) (n q : Nat) (f : Queue → Queue) : (s.updQueue n q f).prefetches = s.prefetches := rfl
@[simp] theorem State.updQueue_ending (s : State) (n q : Nat) (f : Queue → Queue) : (s.updQueue n q f).ending = s.ending := rfl
@[simp] theorem State.updQueue_loops (s : State) (n q : Nat) (f : Queue → Queue) : (s.updQueue n q f).loops = s.loops := rfl
@[simp] theorem State.updQueue_feProp (s : State) (n q : Nat) (f : Queue → Queue) : (s.updQueue n q f).feProp = s.feProp := rfl
@[simp] theorem State.updQueue_classRequests (s : State) (n q : Nat) (f : Queue → Queue) : (s.updQueue n q f).classRequests = s.classRequests := rfl
@[simp] theorem State.updQueue_launchSeq (s : State) (n q : Nat) (f : Queue → Queue) : (s.updQueue n q f).launchSeq = s.launchSeq := rfl
@[simp] theorem State.updQueue_scratchGen (s : State) (n q : Nat) (f : Queue → Queue) : (s.updQueue n q f).scratchGen = s.scratchGen := rfl
@[simp] theorem State.updQueue_form (s : State) (n q : Nat) (f : Queue → Queue) : (s.updQueue n q f).form = s.form := rfl
@[simp] theorem State.updQueue_step (s : State) (n q : Nat) (f : Queue → Queue) : (s.updQueue n q f).step = s.step := rfl
@[simp] theorem State.updQueue_dev (s : State) (n q : Nat) (f : Queue → Queue) : (s.updQueue n q f).dev = s.dev := rfl
@[simp] theorem State.updQueue_members (s : State) (n q : Nat) (f : Queue → Queue) : (s.updQueue n q f).members = s.members := rfl
@[simp] theorem State.updQueue_ptime (s : State) (n q : Nat) (f : Queue → Queue) : (s.updQueue n q f).ptime = s.ptime := rfl
@[simp] theorem State.updQueue_offs (s : State) (n q : Nat) (f : Queue → Queue) : (s.updQueue n q f).offs = s.offs := rfl
@[simp] theorem State.updQueue_late (s : State) (n q : Nat) (f : Queue → Queue) : (s.updQueue n q f).late = s.late := rfl
@[simp] theorem State.updQueue_lock (s : State) (n q : Nat) (f : Queue → Queue) : (s.updQueue n q f).lock = s.lock := rfl
@[simp] theorem State.updQueue_root (s : State) (n q : Nat) (f : Queue → Queue) : (s.updQueue n q f).root = s.root := rfl
@[simp] theorem State.updQueue_syncs (s : State) (n q : Nat) (f : Queue → Queue) : (s.updQueue n q f).syncs = s.syncs := rfl
@[simp] theorem State.updQueue_podHeld (s : State) (n q : Nat) (f : Queue → Queue) : (s.updQueue n q f).podHeld = s.podHeld := rfl
@[simp] theorem State.updQueue_podReleased (s : State) (n q : Nat) (f : Queue → Queue) : (s.updQueue n q f).podReleased = s.podReleased := rfl
@[simp] theorem State.updQueue_podStarts (s : State) (n q : Nat) (f : Queue → Queue) : (s.updQueue n q f).podStarts = s.podStarts := rfl
@[simp] theorem State.updQueue_podOut (s : State) (n q : Nat) (f : Queue → Queue) : (s.updQueue n q f).podOut = s.podOut := rfl
@[simp] theorem State.updQueue_cap (s : State) (n q : Nat) (f : Queue → Queue) : (s.updQueue n q f).cap = s.cap := rfl
@[simp] theorem State.updQueue_draww (s : State) (n q : Nat) (f : Queue → Queue) : (s.updQueue n q f).draww = s.draww := rfl
@[simp] theorem State.updQueue_overPeriods (s : State) (n q : Nat) (f : Queue → Queue) : (s.updQueue n q f).overPeriods = s.overPeriods := rfl
@[simp] theorem State.updQueue_overRun (s : State) (n q : Nat) (f : Queue → Queue) : (s.updQueue n q f).overRun = s.overRun := rfl
@[simp] theorem State.updQueue_therm (s : State) (n q : Nat) (f : Queue → Queue) : (s.updQueue n q f).therm = s.therm := rfl
@[simp] theorem State.updQueue_hold (s : State) (n q : Nat) (f : Queue → Queue) : (s.updQueue n q f).hold = s.hold := rfl
@[simp] theorem State.updQueue_admitted (s : State) (n q : Nat) (f : Queue → Queue) : (s.updQueue n q f).admitted = s.admitted := rfl
@[simp] theorem State.updQueue_window (s : State) (n q : Nat) (f : Queue → Queue) : (s.updQueue n q f).window = s.window := rfl
@[simp] theorem State.updQueue_windowed (s : State) (n q : Nat) (f : Queue → Queue) : (s.updQueue n q f).windowed = s.windowed := rfl
@[simp] theorem State.updQueue_sliceOwner (s : State) (n q : Nat) (f : Queue → Queue) : (s.updQueue n q f).sliceOwner = s.sliceOwner := rfl
@[simp] theorem State.updQueue_slicePos (s : State) (n q : Nat) (f : Queue → Queue) : (s.updQueue n q f).slicePos = s.slicePos := rfl
@[simp] theorem State.updQueue_units (s : State) (n q : Nat) (f : Queue → Queue) : (s.updQueue n q f).units = s.units := rfl
@[simp] theorem State.updQueue_access (s : State) (n q : Nat) (f : Queue → Queue) : (s.updQueue n q f).access = s.access := rfl
@[simp] theorem State.updQueue_frozen (s : State) (n q : Nat) (f : Queue → Queue) : (s.updQueue n q f).frozen = s.frozen := rfl
@[simp] theorem State.updQueue_frozenHeld (s : State) (n q : Nat) (f : Queue → Queue) : (s.updQueue n q f).frozenHeld = s.frozenHeld := rfl
@[simp] theorem State.updQueue_merrlast (s : State) (n q : Nat) (f : Queue → Queue) : (s.updQueue n q f).merrlast = s.merrlast := rfl
@[simp] theorem State.updQueue_ports (s : State) (n q : Nat) (f : Queue → Queue) : (s.updQueue n q f).ports = s.ports := rfl
@[simp] theorem State.updQueue_lostPeers (s : State) (n q : Nat) (f : Queue → Queue) : (s.updQueue n q f).lostPeers = s.lostPeers := rfl
@[simp] theorem State.updQueue_fwState (s : State) (n q : Nat) (f : Queue → Queue) : (s.updQueue n q f).fwState = s.fwState := rfl
@[simp] theorem State.updQueue_fwErr (s : State) (n q : Nat) (f : Queue → Queue) : (s.updQueue n q f).fwErr = s.fwErr := rfl
@[simp] theorem State.updQueue_fwVersion (s : State) (n q : Nat) (f : Queue → Queue) : (s.updQueue n q f).fwVersion = s.fwVersion := rfl
@[simp] theorem State.updQueue_fwstg (s : State) (n q : Nat) (f : Queue → Queue) : (s.updQueue n q f).fwstg = s.fwstg := rfl
@[simp] theorem State.updQueue_flash (s : State) (n q : Nat) (f : Queue → Queue) : (s.updQueue n q f).flash = s.flash := rfl
@[simp] theorem State.updQueue_fatal (s : State) (n q : Nat) (f : Queue → Queue) : (s.updQueue n q f).fatal = s.fatal := rfl

/-! State.updGrid changes only `grids` -/

@[simp] theorem State.updGrid_agenda (s : State) (n : Word) (f : Grid → Grid) : (s.updGrid n f).agenda = s.agenda := rfl
@[simp] theorem State.updGrid_turn (s : State) (n : Word) (f : Grid → Grid) : (s.updGrid n f).turn = s.turn := rfl
@[simp] theorem State.updGrid_cur (s : State) (n : Word) (f : Grid → Grid) : (s.updGrid n f).cur = s.cur := rfl
@[simp] theorem State.updGrid_clockIn (s : State) (n : Word) (f : Grid → Grid) : (s.updGrid n f).clockIn = s.clockIn := rfl
@[simp] theorem State.updGrid_stamp (s : State) (n : Word) (f : Grid → Grid) : (s.updGrid n f).stamp = s.stamp := rfl
@[simp] theorem State.updGrid_freeCtr (s : State) (n : Word) (f : Grid → Grid) : (s.updGrid n f).freeCtr = s.freeCtr := rfl
@[simp] theorem State.updGrid_mem (s : State) (n : Word) (f : Grid → Grid) : (s.updGrid n f).mem = s.mem := rfl
@[simp] theorem State.updGrid_scratch (s : State) (n : Word) (f : Grid → Grid) : (s.updGrid n f).scratch = s.scratch := rfl
@[simp] theorem State.updGrid_writes (s : State) (n : Word) (f : Grid → Grid) : (s.updGrid n f).writes = s.writes := rfl
@[simp] theorem State.updGrid_co (s : State) (n : Word) (f : Grid → Grid) : (s.updGrid n f).co = s.co := rfl
@[simp] theorem State.updGrid_bitErrors (s : State) (n : Word) (f : Grid → Grid) : (s.updGrid n f).bitErrors = s.bitErrors := rfl
@[simp] theorem State.updGrid_tlb (s : State) (n : Word) (f : Grid → Grid) : (s.updGrid n f).tlb = s.tlb := rfl
@[simp] theorem State.updGrid_groups (s : State) (n : Word) (f : Grid → Grid) : (s.updGrid n f).groups = s.groups := rfl
@[simp] theorem State.updGrid_cores (s : State) (n : Word) (f : Grid → Grid) : (s.updGrid n f).cores = s.cores := rfl
@[simp] theorem State.updGrid_clusters (s : State) (n : Word) (f : Grid → Grid) : (s.updGrid n f).clusters = s.clusters := rfl
@[simp] theorem State.updGrid_teams (s : State) (n : Word) (f : Grid → Grid) : (s.updGrid n f).teams = s.teams := rfl
@[simp] theorem State.updGrid_fns (s : State) (n : Word) (f : Grid → Grid) : (s.updGrid n f).fns = s.fns := rfl
@[simp] theorem State.updGrid_requests (s : State) (n : Word) (f : Grid → Grid) : (s.updGrid n f).requests = s.requests := rfl
@[simp] theorem State.updGrid_signals (s : State) (n : Word) (f : Grid → Grid) : (s.updGrid n f).signals = s.signals := rfl
@[simp] theorem State.updGrid_armed (s : State) (n : Word) (f : Grid → Grid) : (s.updGrid n f).armed = s.armed := rfl
@[simp] theorem State.updGrid_prefetches (s : State) (n : Word) (f : Grid → Grid) : (s.updGrid n f).prefetches = s.prefetches := rfl
@[simp] theorem State.updGrid_ending (s : State) (n : Word) (f : Grid → Grid) : (s.updGrid n f).ending = s.ending := rfl
@[simp] theorem State.updGrid_loops (s : State) (n : Word) (f : Grid → Grid) : (s.updGrid n f).loops = s.loops := rfl
@[simp] theorem State.updGrid_feProp (s : State) (n : Word) (f : Grid → Grid) : (s.updGrid n f).feProp = s.feProp := rfl
@[simp] theorem State.updGrid_classRequests (s : State) (n : Word) (f : Grid → Grid) : (s.updGrid n f).classRequests = s.classRequests := rfl
@[simp] theorem State.updGrid_launchSeq (s : State) (n : Word) (f : Grid → Grid) : (s.updGrid n f).launchSeq = s.launchSeq := rfl
@[simp] theorem State.updGrid_scratchGen (s : State) (n : Word) (f : Grid → Grid) : (s.updGrid n f).scratchGen = s.scratchGen := rfl
@[simp] theorem State.updGrid_form (s : State) (n : Word) (f : Grid → Grid) : (s.updGrid n f).form = s.form := rfl
@[simp] theorem State.updGrid_step (s : State) (n : Word) (f : Grid → Grid) : (s.updGrid n f).step = s.step := rfl
@[simp] theorem State.updGrid_dev (s : State) (n : Word) (f : Grid → Grid) : (s.updGrid n f).dev = s.dev := rfl
@[simp] theorem State.updGrid_members (s : State) (n : Word) (f : Grid → Grid) : (s.updGrid n f).members = s.members := rfl
@[simp] theorem State.updGrid_ptime (s : State) (n : Word) (f : Grid → Grid) : (s.updGrid n f).ptime = s.ptime := rfl
@[simp] theorem State.updGrid_offs (s : State) (n : Word) (f : Grid → Grid) : (s.updGrid n f).offs = s.offs := rfl
@[simp] theorem State.updGrid_late (s : State) (n : Word) (f : Grid → Grid) : (s.updGrid n f).late = s.late := rfl
@[simp] theorem State.updGrid_lock (s : State) (n : Word) (f : Grid → Grid) : (s.updGrid n f).lock = s.lock := rfl
@[simp] theorem State.updGrid_root (s : State) (n : Word) (f : Grid → Grid) : (s.updGrid n f).root = s.root := rfl
@[simp] theorem State.updGrid_syncs (s : State) (n : Word) (f : Grid → Grid) : (s.updGrid n f).syncs = s.syncs := rfl
@[simp] theorem State.updGrid_podHeld (s : State) (n : Word) (f : Grid → Grid) : (s.updGrid n f).podHeld = s.podHeld := rfl
@[simp] theorem State.updGrid_podReleased (s : State) (n : Word) (f : Grid → Grid) : (s.updGrid n f).podReleased = s.podReleased := rfl
@[simp] theorem State.updGrid_podStarts (s : State) (n : Word) (f : Grid → Grid) : (s.updGrid n f).podStarts = s.podStarts := rfl
@[simp] theorem State.updGrid_podOut (s : State) (n : Word) (f : Grid → Grid) : (s.updGrid n f).podOut = s.podOut := rfl
@[simp] theorem State.updGrid_cap (s : State) (n : Word) (f : Grid → Grid) : (s.updGrid n f).cap = s.cap := rfl
@[simp] theorem State.updGrid_draww (s : State) (n : Word) (f : Grid → Grid) : (s.updGrid n f).draww = s.draww := rfl
@[simp] theorem State.updGrid_overPeriods (s : State) (n : Word) (f : Grid → Grid) : (s.updGrid n f).overPeriods = s.overPeriods := rfl
@[simp] theorem State.updGrid_overRun (s : State) (n : Word) (f : Grid → Grid) : (s.updGrid n f).overRun = s.overRun := rfl
@[simp] theorem State.updGrid_therm (s : State) (n : Word) (f : Grid → Grid) : (s.updGrid n f).therm = s.therm := rfl
@[simp] theorem State.updGrid_hold (s : State) (n : Word) (f : Grid → Grid) : (s.updGrid n f).hold = s.hold := rfl
@[simp] theorem State.updGrid_admitted (s : State) (n : Word) (f : Grid → Grid) : (s.updGrid n f).admitted = s.admitted := rfl
@[simp] theorem State.updGrid_window (s : State) (n : Word) (f : Grid → Grid) : (s.updGrid n f).window = s.window := rfl
@[simp] theorem State.updGrid_windowed (s : State) (n : Word) (f : Grid → Grid) : (s.updGrid n f).windowed = s.windowed := rfl
@[simp] theorem State.updGrid_sliceOwner (s : State) (n : Word) (f : Grid → Grid) : (s.updGrid n f).sliceOwner = s.sliceOwner := rfl
@[simp] theorem State.updGrid_slicePos (s : State) (n : Word) (f : Grid → Grid) : (s.updGrid n f).slicePos = s.slicePos := rfl
@[simp] theorem State.updGrid_units (s : State) (n : Word) (f : Grid → Grid) : (s.updGrid n f).units = s.units := rfl
@[simp] theorem State.updGrid_access (s : State) (n : Word) (f : Grid → Grid) : (s.updGrid n f).access = s.access := rfl
@[simp] theorem State.updGrid_frozen (s : State) (n : Word) (f : Grid → Grid) : (s.updGrid n f).frozen = s.frozen := rfl
@[simp] theorem State.updGrid_frozenHeld (s : State) (n : Word) (f : Grid → Grid) : (s.updGrid n f).frozenHeld = s.frozenHeld := rfl
@[simp] theorem State.updGrid_merrlast (s : State) (n : Word) (f : Grid → Grid) : (s.updGrid n f).merrlast = s.merrlast := rfl
@[simp] theorem State.updGrid_ports (s : State) (n : Word) (f : Grid → Grid) : (s.updGrid n f).ports = s.ports := rfl
@[simp] theorem State.updGrid_lostPeers (s : State) (n : Word) (f : Grid → Grid) : (s.updGrid n f).lostPeers = s.lostPeers := rfl
@[simp] theorem State.updGrid_fwState (s : State) (n : Word) (f : Grid → Grid) : (s.updGrid n f).fwState = s.fwState := rfl
@[simp] theorem State.updGrid_fwErr (s : State) (n : Word) (f : Grid → Grid) : (s.updGrid n f).fwErr = s.fwErr := rfl
@[simp] theorem State.updGrid_fwVersion (s : State) (n : Word) (f : Grid → Grid) : (s.updGrid n f).fwVersion = s.fwVersion := rfl
@[simp] theorem State.updGrid_fwstg (s : State) (n : Word) (f : Grid → Grid) : (s.updGrid n f).fwstg = s.fwstg := rfl
@[simp] theorem State.updGrid_flash (s : State) (n : Word) (f : Grid → Grid) : (s.updGrid n f).flash = s.flash := rfl
@[simp] theorem State.updGrid_fatal (s : State) (n : Word) (f : Grid → Grid) : (s.updGrid n f).fatal = s.fatal := rfl

/-! State.updTeam changes only `teams` -/

@[simp] theorem State.updTeam_agenda (s : State) (w : Word) (n : Nat) (f : Team → Team) : (s.updTeam w n f).agenda = s.agenda := rfl
@[simp] theorem State.updTeam_turn (s : State) (w : Word) (n : Nat) (f : Team → Team) : (s.updTeam w n f).turn = s.turn := rfl
@[simp] theorem State.updTeam_cur (s : State) (w : Word) (n : Nat) (f : Team → Team) : (s.updTeam w n f).cur = s.cur := rfl
@[simp] theorem State.updTeam_clockIn (s : State) (w : Word) (n : Nat) (f : Team → Team) : (s.updTeam w n f).clockIn = s.clockIn := rfl
@[simp] theorem State.updTeam_stamp (s : State) (w : Word) (n : Nat) (f : Team → Team) : (s.updTeam w n f).stamp = s.stamp := rfl
@[simp] theorem State.updTeam_freeCtr (s : State) (w : Word) (n : Nat) (f : Team → Team) : (s.updTeam w n f).freeCtr = s.freeCtr := rfl
@[simp] theorem State.updTeam_mem (s : State) (w : Word) (n : Nat) (f : Team → Team) : (s.updTeam w n f).mem = s.mem := rfl
@[simp] theorem State.updTeam_scratch (s : State) (w : Word) (n : Nat) (f : Team → Team) : (s.updTeam w n f).scratch = s.scratch := rfl
@[simp] theorem State.updTeam_writes (s : State) (w : Word) (n : Nat) (f : Team → Team) : (s.updTeam w n f).writes = s.writes := rfl
@[simp] theorem State.updTeam_co (s : State) (w : Word) (n : Nat) (f : Team → Team) : (s.updTeam w n f).co = s.co := rfl
@[simp] theorem State.updTeam_bitErrors (s : State) (w : Word) (n : Nat) (f : Team → Team) : (s.updTeam w n f).bitErrors = s.bitErrors := rfl
@[simp] theorem State.updTeam_tlb (s : State) (w : Word) (n : Nat) (f : Team → Team) : (s.updTeam w n f).tlb = s.tlb := rfl
@[simp] theorem State.updTeam_groups (s : State) (w : Word) (n : Nat) (f : Team → Team) : (s.updTeam w n f).groups = s.groups := rfl
@[simp] theorem State.updTeam_cores (s : State) (w : Word) (n : Nat) (f : Team → Team) : (s.updTeam w n f).cores = s.cores := rfl
@[simp] theorem State.updTeam_clusters (s : State) (w : Word) (n : Nat) (f : Team → Team) : (s.updTeam w n f).clusters = s.clusters := rfl
@[simp] theorem State.updTeam_grids (s : State) (w : Word) (n : Nat) (f : Team → Team) : (s.updTeam w n f).grids = s.grids := rfl
@[simp] theorem State.updTeam_fns (s : State) (w : Word) (n : Nat) (f : Team → Team) : (s.updTeam w n f).fns = s.fns := rfl
@[simp] theorem State.updTeam_requests (s : State) (w : Word) (n : Nat) (f : Team → Team) : (s.updTeam w n f).requests = s.requests := rfl
@[simp] theorem State.updTeam_signals (s : State) (w : Word) (n : Nat) (f : Team → Team) : (s.updTeam w n f).signals = s.signals := rfl
@[simp] theorem State.updTeam_armed (s : State) (w : Word) (n : Nat) (f : Team → Team) : (s.updTeam w n f).armed = s.armed := rfl
@[simp] theorem State.updTeam_prefetches (s : State) (w : Word) (n : Nat) (f : Team → Team) : (s.updTeam w n f).prefetches = s.prefetches := rfl
@[simp] theorem State.updTeam_ending (s : State) (w : Word) (n : Nat) (f : Team → Team) : (s.updTeam w n f).ending = s.ending := rfl
@[simp] theorem State.updTeam_loops (s : State) (w : Word) (n : Nat) (f : Team → Team) : (s.updTeam w n f).loops = s.loops := rfl
@[simp] theorem State.updTeam_feProp (s : State) (w : Word) (n : Nat) (f : Team → Team) : (s.updTeam w n f).feProp = s.feProp := rfl
@[simp] theorem State.updTeam_classRequests (s : State) (w : Word) (n : Nat) (f : Team → Team) : (s.updTeam w n f).classRequests = s.classRequests := rfl
@[simp] theorem State.updTeam_launchSeq (s : State) (w : Word) (n : Nat) (f : Team → Team) : (s.updTeam w n f).launchSeq = s.launchSeq := rfl
@[simp] theorem State.updTeam_scratchGen (s : State) (w : Word) (n : Nat) (f : Team → Team) : (s.updTeam w n f).scratchGen = s.scratchGen := rfl
@[simp] theorem State.updTeam_form (s : State) (w : Word) (n : Nat) (f : Team → Team) : (s.updTeam w n f).form = s.form := rfl
@[simp] theorem State.updTeam_step (s : State) (w : Word) (n : Nat) (f : Team → Team) : (s.updTeam w n f).step = s.step := rfl
@[simp] theorem State.updTeam_dev (s : State) (w : Word) (n : Nat) (f : Team → Team) : (s.updTeam w n f).dev = s.dev := rfl
@[simp] theorem State.updTeam_members (s : State) (w : Word) (n : Nat) (f : Team → Team) : (s.updTeam w n f).members = s.members := rfl
@[simp] theorem State.updTeam_ptime (s : State) (w : Word) (n : Nat) (f : Team → Team) : (s.updTeam w n f).ptime = s.ptime := rfl
@[simp] theorem State.updTeam_offs (s : State) (w : Word) (n : Nat) (f : Team → Team) : (s.updTeam w n f).offs = s.offs := rfl
@[simp] theorem State.updTeam_late (s : State) (w : Word) (n : Nat) (f : Team → Team) : (s.updTeam w n f).late = s.late := rfl
@[simp] theorem State.updTeam_lock (s : State) (w : Word) (n : Nat) (f : Team → Team) : (s.updTeam w n f).lock = s.lock := rfl
@[simp] theorem State.updTeam_root (s : State) (w : Word) (n : Nat) (f : Team → Team) : (s.updTeam w n f).root = s.root := rfl
@[simp] theorem State.updTeam_syncs (s : State) (w : Word) (n : Nat) (f : Team → Team) : (s.updTeam w n f).syncs = s.syncs := rfl
@[simp] theorem State.updTeam_podHeld (s : State) (w : Word) (n : Nat) (f : Team → Team) : (s.updTeam w n f).podHeld = s.podHeld := rfl
@[simp] theorem State.updTeam_podReleased (s : State) (w : Word) (n : Nat) (f : Team → Team) : (s.updTeam w n f).podReleased = s.podReleased := rfl
@[simp] theorem State.updTeam_podStarts (s : State) (w : Word) (n : Nat) (f : Team → Team) : (s.updTeam w n f).podStarts = s.podStarts := rfl
@[simp] theorem State.updTeam_podOut (s : State) (w : Word) (n : Nat) (f : Team → Team) : (s.updTeam w n f).podOut = s.podOut := rfl
@[simp] theorem State.updTeam_cap (s : State) (w : Word) (n : Nat) (f : Team → Team) : (s.updTeam w n f).cap = s.cap := rfl
@[simp] theorem State.updTeam_draww (s : State) (w : Word) (n : Nat) (f : Team → Team) : (s.updTeam w n f).draww = s.draww := rfl
@[simp] theorem State.updTeam_overPeriods (s : State) (w : Word) (n : Nat) (f : Team → Team) : (s.updTeam w n f).overPeriods = s.overPeriods := rfl
@[simp] theorem State.updTeam_overRun (s : State) (w : Word) (n : Nat) (f : Team → Team) : (s.updTeam w n f).overRun = s.overRun := rfl
@[simp] theorem State.updTeam_therm (s : State) (w : Word) (n : Nat) (f : Team → Team) : (s.updTeam w n f).therm = s.therm := rfl
@[simp] theorem State.updTeam_hold (s : State) (w : Word) (n : Nat) (f : Team → Team) : (s.updTeam w n f).hold = s.hold := rfl
@[simp] theorem State.updTeam_admitted (s : State) (w : Word) (n : Nat) (f : Team → Team) : (s.updTeam w n f).admitted = s.admitted := rfl
@[simp] theorem State.updTeam_window (s : State) (w : Word) (n : Nat) (f : Team → Team) : (s.updTeam w n f).window = s.window := rfl
@[simp] theorem State.updTeam_windowed (s : State) (w : Word) (n : Nat) (f : Team → Team) : (s.updTeam w n f).windowed = s.windowed := rfl
@[simp] theorem State.updTeam_sliceOwner (s : State) (w : Word) (n : Nat) (f : Team → Team) : (s.updTeam w n f).sliceOwner = s.sliceOwner := rfl
@[simp] theorem State.updTeam_slicePos (s : State) (w : Word) (n : Nat) (f : Team → Team) : (s.updTeam w n f).slicePos = s.slicePos := rfl
@[simp] theorem State.updTeam_units (s : State) (w : Word) (n : Nat) (f : Team → Team) : (s.updTeam w n f).units = s.units := rfl
@[simp] theorem State.updTeam_access (s : State) (w : Word) (n : Nat) (f : Team → Team) : (s.updTeam w n f).access = s.access := rfl
@[simp] theorem State.updTeam_frozen (s : State) (w : Word) (n : Nat) (f : Team → Team) : (s.updTeam w n f).frozen = s.frozen := rfl
@[simp] theorem State.updTeam_frozenHeld (s : State) (w : Word) (n : Nat) (f : Team → Team) : (s.updTeam w n f).frozenHeld = s.frozenHeld := rfl
@[simp] theorem State.updTeam_merrlast (s : State) (w : Word) (n : Nat) (f : Team → Team) : (s.updTeam w n f).merrlast = s.merrlast := rfl
@[simp] theorem State.updTeam_ports (s : State) (w : Word) (n : Nat) (f : Team → Team) : (s.updTeam w n f).ports = s.ports := rfl
@[simp] theorem State.updTeam_lostPeers (s : State) (w : Word) (n : Nat) (f : Team → Team) : (s.updTeam w n f).lostPeers = s.lostPeers := rfl
@[simp] theorem State.updTeam_fwState (s : State) (w : Word) (n : Nat) (f : Team → Team) : (s.updTeam w n f).fwState = s.fwState := rfl
@[simp] theorem State.updTeam_fwErr (s : State) (w : Word) (n : Nat) (f : Team → Team) : (s.updTeam w n f).fwErr = s.fwErr := rfl
@[simp] theorem State.updTeam_fwVersion (s : State) (w : Word) (n : Nat) (f : Team → Team) : (s.updTeam w n f).fwVersion = s.fwVersion := rfl
@[simp] theorem State.updTeam_fwstg (s : State) (w : Word) (n : Nat) (f : Team → Team) : (s.updTeam w n f).fwstg = s.fwstg := rfl
@[simp] theorem State.updTeam_flash (s : State) (w : Word) (n : Nat) (f : Team → Team) : (s.updTeam w n f).flash = s.flash := rfl
@[simp] theorem State.updTeam_fatal (s : State) (w : Word) (n : Nat) (f : Team → Team) : (s.updTeam w n f).fatal = s.fatal := rfl

/-! Group.updLane changes only `lanes` -/

@[simp] theorem Group.updLane_core (g : Group) (l : Nat) (f : Lane → Lane) : (g.updLane l f).core = g.core := rfl
@[simp] theorem Group.updLane_slot (g : Group) (l : Nat) (f : Lane → Lane) : (g.updLane l f).slot = g.slot := rfl
@[simp] theorem Group.updLane_grid (g : Group) (l : Nat) (f : Lane → Lane) : (g.updLane l f).grid = g.grid := rfl
@[simp] theorem Group.updLane_team (g : Group) (l : Nat) (f : Lane → Lane) : (g.updLane l f).team = g.team := rfl
@[simp] theorem Group.updLane_die (g : Group) (l : Nat) (f : Lane → Lane) : (g.updLane l f).die = g.die := rfl
@[simp] theorem Group.updLane_gix (g : Group) (l : Nat) (f : Lane → Lane) : (g.updLane l f).gix = g.gix := rfl
@[simp] theorem Group.updLane_w (g : Group) (l : Nat) (f : Lane → Lane) : (g.updLane l f).w = g.w := rfl
@[simp] theorem Group.updLane_frames (g : Group) (l : Nat) (f : Lane → Lane) : (g.updLane l f).frames = g.frames := rfl
@[simp] theorem Group.updLane_sets (g : Group) (l : Nat) (f : Lane → Lane) : (g.updLane l f).sets = g.sets := rfl
@[simp] theorem Group.updLane_fmode (g : Group) (l : Nat) (f : Lane → Lane) : (g.updLane l f).fmode = g.fmode := rfl
@[simp] theorem Group.updLane_fflags (g : Group) (l : Nat) (f : Lane → Lane) : (g.updLane l f).fflags = g.fflags := rfl
@[simp] theorem Group.updLane_rank (g : Group) (l : Nat) (f : Lane → Lane) : (g.updLane l f).rank = g.rank := rfl
@[simp] theorem Group.updLane_gp (g : Group) (l : Nat) (f : Lane → Lane) : (g.updLane l f).gp = g.gp := rfl
@[simp] theorem Group.updLane_arrivedAt (g : Group) (l : Nat) (f : Lane → Lane) : (g.updLane l f).arrivedAt = g.arrivedAt := rfl
@[simp] theorem Group.updLane_exitAt (g : Group) (l : Nat) (f : Lane → Lane) : (g.updLane l f).exitAt = g.exitAt := rfl
@[simp] theorem Group.updLane_twinCopies (g : Group) (l : Nat) (f : Lane → Lane) : (g.updLane l f).twinCopies = g.twinCopies := rfl
@[simp] theorem Group.updLane_ld (g : Group) (l : Nat) (f : Lane → Lane) : (g.updLane l f).ld = g.ld := rfl
@[simp] theorem Group.updLane_st (g : Group) (l : Nat) (f : Lane → Lane) : (g.updLane l f).st = g.st := rfl
@[simp] theorem Group.updLane_cp (g : Group) (l : Nat) (f : Lane → Lane) : (g.updLane l f).cp = g.cp := rfl
@[simp] theorem Group.updLane_tl (g : Group) (l : Nat) (f : Lane → Lane) : (g.updLane l f).tl = g.tl := rfl
@[simp] theorem Group.updLane_ops (g : Group) (l : Nat) (f : Lane → Lane) : (g.updLane l f).ops = g.ops := rfl
@[simp] theorem Group.updLane_sf (g : Group) (l : Nat) (f : Lane → Lane) : (g.updLane l f).sf = g.sf := rfl
@[simp] theorem Group.updLane_holds (g : Group) (l : Nat) (f : Lane → Lane) : (g.updLane l f).holds = g.holds := rfl
@[simp] theorem Group.updLane_arrivals (g : Group) (l : Nat) (f : Lane → Lane) : (g.updLane l f).arrivals = g.arrivals := rfl
@[simp] theorem Group.updLane_heldFault (g : Group) (l : Nat) (f : Lane → Lane) : (g.updLane l f).heldFault = g.heldFault := rfl
@[simp] theorem Group.updLane_traps (g : Group) (l : Nat) (f : Lane → Lane) : (g.updLane l f).traps = g.traps := rfl
@[simp] theorem Group.updLane_tiles (g : Group) (l : Nat) (f : Lane → Lane) : (g.updLane l f).tiles = g.tiles := rfl
@[simp] theorem Group.updLane_accs (g : Group) (l : Nat) (f : Lane → Lane) : (g.updLane l f).accs = g.accs := rfl
@[simp] theorem Group.updLane_chains (g : Group) (l : Nat) (f : Lane → Lane) : (g.updLane l f).chains = g.chains := rfl
@[simp] theorem Group.updLane_delay (g : Group) (l : Nat) (f : Lane → Lane) : (g.updLane l f).delay = g.delay := rfl
@[simp] theorem Group.updLane_stalls (g : Group) (l : Nat) (f : Lane → Lane) : (g.updLane l f).stalls = g.stalls := rfl
@[simp] theorem Group.updLane_evicting (g : Group) (l : Nat) (f : Lane → Lane) : (g.updLane l f).evicting = g.evicting := rfl
@[simp] theorem Group.updLane_moved (g : Group) (l : Nat) (f : Lane → Lane) : (g.updLane l f).moved = g.moved := rfl
@[simp] theorem Group.updLane_bad (g : Group) (l : Nat) (f : Lane → Lane) : (g.updLane l f).bad = g.bad := rfl
@[simp] theorem Group.updLane_badState (g : Group) (l : Nat) (f : Lane → Lane) : (g.updLane l f).badState = g.badState := rfl
@[simp] theorem Group.updLane_lost (g : Group) (l : Nat) (f : Lane → Lane) : (g.updLane l f).lost = g.lost := rfl
@[simp] theorem Group.updLane_nextId (g : Group) (l : Nat) (f : Lane → Lane) : (g.updLane l f).nextId = g.nextId := rfl

/-! Group.updLanes changes only `lanes` -/

@[simp] theorem Group.updLanes_core (g : Group) (m : LaneSet) (f : Nat → Lane → Lane) : (g.updLanes m f).core = g.core := rfl
@[simp] theorem Group.updLanes_slot (g : Group) (m : LaneSet) (f : Nat → Lane → Lane) : (g.updLanes m f).slot = g.slot := rfl
@[simp] theorem Group.updLanes_grid (g : Group) (m : LaneSet) (f : Nat → Lane → Lane) : (g.updLanes m f).grid = g.grid := rfl
@[simp] theorem Group.updLanes_team (g : Group) (m : LaneSet) (f : Nat → Lane → Lane) : (g.updLanes m f).team = g.team := rfl
@[simp] theorem Group.updLanes_die (g : Group) (m : LaneSet) (f : Nat → Lane → Lane) : (g.updLanes m f).die = g.die := rfl
@[simp] theorem Group.updLanes_gix (g : Group) (m : LaneSet) (f : Nat → Lane → Lane) : (g.updLanes m f).gix = g.gix := rfl
@[simp] theorem Group.updLanes_w (g : Group) (m : LaneSet) (f : Nat → Lane → Lane) : (g.updLanes m f).w = g.w := rfl
@[simp] theorem Group.updLanes_frames (g : Group) (m : LaneSet) (f : Nat → Lane → Lane) : (g.updLanes m f).frames = g.frames := rfl
@[simp] theorem Group.updLanes_sets (g : Group) (m : LaneSet) (f : Nat → Lane → Lane) : (g.updLanes m f).sets = g.sets := rfl
@[simp] theorem Group.updLanes_fmode (g : Group) (m : LaneSet) (f : Nat → Lane → Lane) : (g.updLanes m f).fmode = g.fmode := rfl
@[simp] theorem Group.updLanes_fflags (g : Group) (m : LaneSet) (f : Nat → Lane → Lane) : (g.updLanes m f).fflags = g.fflags := rfl
@[simp] theorem Group.updLanes_rank (g : Group) (m : LaneSet) (f : Nat → Lane → Lane) : (g.updLanes m f).rank = g.rank := rfl
@[simp] theorem Group.updLanes_gp (g : Group) (m : LaneSet) (f : Nat → Lane → Lane) : (g.updLanes m f).gp = g.gp := rfl
@[simp] theorem Group.updLanes_arrivedAt (g : Group) (m : LaneSet) (f : Nat → Lane → Lane) : (g.updLanes m f).arrivedAt = g.arrivedAt := rfl
@[simp] theorem Group.updLanes_exitAt (g : Group) (m : LaneSet) (f : Nat → Lane → Lane) : (g.updLanes m f).exitAt = g.exitAt := rfl
@[simp] theorem Group.updLanes_twinCopies (g : Group) (m : LaneSet) (f : Nat → Lane → Lane) : (g.updLanes m f).twinCopies = g.twinCopies := rfl
@[simp] theorem Group.updLanes_ld (g : Group) (m : LaneSet) (f : Nat → Lane → Lane) : (g.updLanes m f).ld = g.ld := rfl
@[simp] theorem Group.updLanes_st (g : Group) (m : LaneSet) (f : Nat → Lane → Lane) : (g.updLanes m f).st = g.st := rfl
@[simp] theorem Group.updLanes_cp (g : Group) (m : LaneSet) (f : Nat → Lane → Lane) : (g.updLanes m f).cp = g.cp := rfl
@[simp] theorem Group.updLanes_tl (g : Group) (m : LaneSet) (f : Nat → Lane → Lane) : (g.updLanes m f).tl = g.tl := rfl
@[simp] theorem Group.updLanes_ops (g : Group) (m : LaneSet) (f : Nat → Lane → Lane) : (g.updLanes m f).ops = g.ops := rfl
@[simp] theorem Group.updLanes_sf (g : Group) (m : LaneSet) (f : Nat → Lane → Lane) : (g.updLanes m f).sf = g.sf := rfl
@[simp] theorem Group.updLanes_holds (g : Group) (m : LaneSet) (f : Nat → Lane → Lane) : (g.updLanes m f).holds = g.holds := rfl
@[simp] theorem Group.updLanes_arrivals (g : Group) (m : LaneSet) (f : Nat → Lane → Lane) : (g.updLanes m f).arrivals = g.arrivals := rfl
@[simp] theorem Group.updLanes_heldFault (g : Group) (m : LaneSet) (f : Nat → Lane → Lane) : (g.updLanes m f).heldFault = g.heldFault := rfl
@[simp] theorem Group.updLanes_traps (g : Group) (m : LaneSet) (f : Nat → Lane → Lane) : (g.updLanes m f).traps = g.traps := rfl
@[simp] theorem Group.updLanes_tiles (g : Group) (m : LaneSet) (f : Nat → Lane → Lane) : (g.updLanes m f).tiles = g.tiles := rfl
@[simp] theorem Group.updLanes_accs (g : Group) (m : LaneSet) (f : Nat → Lane → Lane) : (g.updLanes m f).accs = g.accs := rfl
@[simp] theorem Group.updLanes_chains (g : Group) (m : LaneSet) (f : Nat → Lane → Lane) : (g.updLanes m f).chains = g.chains := rfl
@[simp] theorem Group.updLanes_delay (g : Group) (m : LaneSet) (f : Nat → Lane → Lane) : (g.updLanes m f).delay = g.delay := rfl
@[simp] theorem Group.updLanes_stalls (g : Group) (m : LaneSet) (f : Nat → Lane → Lane) : (g.updLanes m f).stalls = g.stalls := rfl
@[simp] theorem Group.updLanes_evicting (g : Group) (m : LaneSet) (f : Nat → Lane → Lane) : (g.updLanes m f).evicting = g.evicting := rfl
@[simp] theorem Group.updLanes_moved (g : Group) (m : LaneSet) (f : Nat → Lane → Lane) : (g.updLanes m f).moved = g.moved := rfl
@[simp] theorem Group.updLanes_bad (g : Group) (m : LaneSet) (f : Nat → Lane → Lane) : (g.updLanes m f).bad = g.bad := rfl
@[simp] theorem Group.updLanes_badState (g : Group) (m : LaneSet) (f : Nat → Lane → Lane) : (g.updLanes m f).badState = g.badState := rfl
@[simp] theorem Group.updLanes_lost (g : Group) (m : LaneSet) (f : Nat → Lane → Lane) : (g.updLanes m f).lost = g.lost := rfl
@[simp] theorem Group.updLanes_nextId (g : Group) (m : LaneSet) (f : Nat → Lane → Lane) : (g.updLanes m f).nextId = g.nextId := rfl

/-! Group.updFrame changes only `frames` -/

@[simp] theorem Group.updFrame_core (g : Group) (n : Nat) (f : Frame → Frame) : (g.updFrame n f).core = g.core := rfl
@[simp] theorem Group.updFrame_slot (g : Group) (n : Nat) (f : Frame → Frame) : (g.updFrame n f).slot = g.slot := rfl
@[simp] theorem Group.updFrame_grid (g : Group) (n : Nat) (f : Frame → Frame) : (g.updFrame n f).grid = g.grid := rfl
@[simp] theorem Group.updFrame_team (g : Group) (n : Nat) (f : Frame → Frame) : (g.updFrame n f).team = g.team := rfl
@[simp] theorem Group.updFrame_die (g : Group) (n : Nat) (f : Frame → Frame) : (g.updFrame n f).die = g.die := rfl
@[simp] theorem Group.updFrame_gix (g : Group) (n : Nat) (f : Frame → Frame) : (g.updFrame n f).gix = g.gix := rfl
@[simp] theorem Group.updFrame_w (g : Group) (n : Nat) (f : Frame → Frame) : (g.updFrame n f).w = g.w := rfl
@[simp] theorem Group.updFrame_lanes (g : Group) (n : Nat) (f : Frame → Frame) : (g.updFrame n f).lanes = g.lanes := rfl
@[simp] theorem Group.updFrame_sets (g : Group) (n : Nat) (f : Frame → Frame) : (g.updFrame n f).sets = g.sets := rfl
@[simp] theorem Group.updFrame_fmode (g : Group) (n : Nat) (f : Frame → Frame) : (g.updFrame n f).fmode = g.fmode := rfl
@[simp] theorem Group.updFrame_fflags (g : Group) (n : Nat) (f : Frame → Frame) : (g.updFrame n f).fflags = g.fflags := rfl
@[simp] theorem Group.updFrame_rank (g : Group) (n : Nat) (f : Frame → Frame) : (g.updFrame n f).rank = g.rank := rfl
@[simp] theorem Group.updFrame_gp (g : Group) (n : Nat) (f : Frame → Frame) : (g.updFrame n f).gp = g.gp := rfl
@[simp] theorem Group.updFrame_arrivedAt (g : Group) (n : Nat) (f : Frame → Frame) : (g.updFrame n f).arrivedAt = g.arrivedAt := rfl
@[simp] theorem Group.updFrame_exitAt (g : Group) (n : Nat) (f : Frame → Frame) : (g.updFrame n f).exitAt = g.exitAt := rfl
@[simp] theorem Group.updFrame_twinCopies (g : Group) (n : Nat) (f : Frame → Frame) : (g.updFrame n f).twinCopies = g.twinCopies := rfl
@[simp] theorem Group.updFrame_ld (g : Group) (n : Nat) (f : Frame → Frame) : (g.updFrame n f).ld = g.ld := rfl
@[simp] theorem Group.updFrame_st (g : Group) (n : Nat) (f : Frame → Frame) : (g.updFrame n f).st = g.st := rfl
@[simp] theorem Group.updFrame_cp (g : Group) (n : Nat) (f : Frame → Frame) : (g.updFrame n f).cp = g.cp := rfl
@[simp] theorem Group.updFrame_tl (g : Group) (n : Nat) (f : Frame → Frame) : (g.updFrame n f).tl = g.tl := rfl
@[simp] theorem Group.updFrame_ops (g : Group) (n : Nat) (f : Frame → Frame) : (g.updFrame n f).ops = g.ops := rfl
@[simp] theorem Group.updFrame_sf (g : Group) (n : Nat) (f : Frame → Frame) : (g.updFrame n f).sf = g.sf := rfl
@[simp] theorem Group.updFrame_holds (g : Group) (n : Nat) (f : Frame → Frame) : (g.updFrame n f).holds = g.holds := rfl
@[simp] theorem Group.updFrame_arrivals (g : Group) (n : Nat) (f : Frame → Frame) : (g.updFrame n f).arrivals = g.arrivals := rfl
@[simp] theorem Group.updFrame_heldFault (g : Group) (n : Nat) (f : Frame → Frame) : (g.updFrame n f).heldFault = g.heldFault := rfl
@[simp] theorem Group.updFrame_traps (g : Group) (n : Nat) (f : Frame → Frame) : (g.updFrame n f).traps = g.traps := rfl
@[simp] theorem Group.updFrame_tiles (g : Group) (n : Nat) (f : Frame → Frame) : (g.updFrame n f).tiles = g.tiles := rfl
@[simp] theorem Group.updFrame_accs (g : Group) (n : Nat) (f : Frame → Frame) : (g.updFrame n f).accs = g.accs := rfl
@[simp] theorem Group.updFrame_chains (g : Group) (n : Nat) (f : Frame → Frame) : (g.updFrame n f).chains = g.chains := rfl
@[simp] theorem Group.updFrame_delay (g : Group) (n : Nat) (f : Frame → Frame) : (g.updFrame n f).delay = g.delay := rfl
@[simp] theorem Group.updFrame_stalls (g : Group) (n : Nat) (f : Frame → Frame) : (g.updFrame n f).stalls = g.stalls := rfl
@[simp] theorem Group.updFrame_evicting (g : Group) (n : Nat) (f : Frame → Frame) : (g.updFrame n f).evicting = g.evicting := rfl
@[simp] theorem Group.updFrame_moved (g : Group) (n : Nat) (f : Frame → Frame) : (g.updFrame n f).moved = g.moved := rfl
@[simp] theorem Group.updFrame_bad (g : Group) (n : Nat) (f : Frame → Frame) : (g.updFrame n f).bad = g.bad := rfl
@[simp] theorem Group.updFrame_badState (g : Group) (n : Nat) (f : Frame → Frame) : (g.updFrame n f).badState = g.badState := rfl
@[simp] theorem Group.updFrame_lost (g : Group) (n : Nat) (f : Frame → Frame) : (g.updFrame n f).lost = g.lost := rfl
@[simp] theorem Group.updFrame_nextId (g : Group) (n : Nat) (f : Frame → Frame) : (g.updFrame n f).nextId = g.nextId := rfl

/-! Group.setTag changes only `frames` -/

@[simp] theorem Group.setTag_core (g : Group) (n r : Nat) (t : Tag) : (g.setTag n r t).core = g.core := rfl
@[simp] theorem Group.setTag_slot (g : Group) (n r : Nat) (t : Tag) : (g.setTag n r t).slot = g.slot := rfl
@[simp] theorem Group.setTag_grid (g : Group) (n r : Nat) (t : Tag) : (g.setTag n r t).grid = g.grid := rfl
@[simp] theorem Group.setTag_team (g : Group) (n r : Nat) (t : Tag) : (g.setTag n r t).team = g.team := rfl
@[simp] theorem Group.setTag_die (g : Group) (n r : Nat) (t : Tag) : (g.setTag n r t).die = g.die := rfl
@[simp] theorem Group.setTag_gix (g : Group) (n r : Nat) (t : Tag) : (g.setTag n r t).gix = g.gix := rfl
@[simp] theorem Group.setTag_w (g : Group) (n r : Nat) (t : Tag) : (g.setTag n r t).w = g.w := rfl
@[simp] theorem Group.setTag_lanes (g : Group) (n r : Nat) (t : Tag) : (g.setTag n r t).lanes = g.lanes := rfl
@[simp] theorem Group.setTag_sets (g : Group) (n r : Nat) (t : Tag) : (g.setTag n r t).sets = g.sets := rfl
@[simp] theorem Group.setTag_fmode (g : Group) (n r : Nat) (t : Tag) : (g.setTag n r t).fmode = g.fmode := rfl
@[simp] theorem Group.setTag_fflags (g : Group) (n r : Nat) (t : Tag) : (g.setTag n r t).fflags = g.fflags := rfl
@[simp] theorem Group.setTag_rank (g : Group) (n r : Nat) (t : Tag) : (g.setTag n r t).rank = g.rank := rfl
@[simp] theorem Group.setTag_gp (g : Group) (n r : Nat) (t : Tag) : (g.setTag n r t).gp = g.gp := rfl
@[simp] theorem Group.setTag_arrivedAt (g : Group) (n r : Nat) (t : Tag) : (g.setTag n r t).arrivedAt = g.arrivedAt := rfl
@[simp] theorem Group.setTag_exitAt (g : Group) (n r : Nat) (t : Tag) : (g.setTag n r t).exitAt = g.exitAt := rfl
@[simp] theorem Group.setTag_twinCopies (g : Group) (n r : Nat) (t : Tag) : (g.setTag n r t).twinCopies = g.twinCopies := rfl
@[simp] theorem Group.setTag_ld (g : Group) (n r : Nat) (t : Tag) : (g.setTag n r t).ld = g.ld := rfl
@[simp] theorem Group.setTag_st (g : Group) (n r : Nat) (t : Tag) : (g.setTag n r t).st = g.st := rfl
@[simp] theorem Group.setTag_cp (g : Group) (n r : Nat) (t : Tag) : (g.setTag n r t).cp = g.cp := rfl
@[simp] theorem Group.setTag_tl (g : Group) (n r : Nat) (t : Tag) : (g.setTag n r t).tl = g.tl := rfl
@[simp] theorem Group.setTag_ops (g : Group) (n r : Nat) (t : Tag) : (g.setTag n r t).ops = g.ops := rfl
@[simp] theorem Group.setTag_sf (g : Group) (n r : Nat) (t : Tag) : (g.setTag n r t).sf = g.sf := rfl
@[simp] theorem Group.setTag_holds (g : Group) (n r : Nat) (t : Tag) : (g.setTag n r t).holds = g.holds := rfl
@[simp] theorem Group.setTag_arrivals (g : Group) (n r : Nat) (t : Tag) : (g.setTag n r t).arrivals = g.arrivals := rfl
@[simp] theorem Group.setTag_heldFault (g : Group) (n r : Nat) (t : Tag) : (g.setTag n r t).heldFault = g.heldFault := rfl
@[simp] theorem Group.setTag_traps (g : Group) (n r : Nat) (t : Tag) : (g.setTag n r t).traps = g.traps := rfl
@[simp] theorem Group.setTag_tiles (g : Group) (n r : Nat) (t : Tag) : (g.setTag n r t).tiles = g.tiles := rfl
@[simp] theorem Group.setTag_accs (g : Group) (n r : Nat) (t : Tag) : (g.setTag n r t).accs = g.accs := rfl
@[simp] theorem Group.setTag_chains (g : Group) (n r : Nat) (t : Tag) : (g.setTag n r t).chains = g.chains := rfl
@[simp] theorem Group.setTag_delay (g : Group) (n r : Nat) (t : Tag) : (g.setTag n r t).delay = g.delay := rfl
@[simp] theorem Group.setTag_stalls (g : Group) (n r : Nat) (t : Tag) : (g.setTag n r t).stalls = g.stalls := rfl
@[simp] theorem Group.setTag_evicting (g : Group) (n r : Nat) (t : Tag) : (g.setTag n r t).evicting = g.evicting := rfl
@[simp] theorem Group.setTag_moved (g : Group) (n r : Nat) (t : Tag) : (g.setTag n r t).moved = g.moved := rfl
@[simp] theorem Group.setTag_bad (g : Group) (n r : Nat) (t : Tag) : (g.setTag n r t).bad = g.bad := rfl
@[simp] theorem Group.setTag_badState (g : Group) (n r : Nat) (t : Tag) : (g.setTag n r t).badState = g.badState := rfl
@[simp] theorem Group.setTag_lost (g : Group) (n r : Nat) (t : Tag) : (g.setTag n r t).lost = g.lost := rfl
@[simp] theorem Group.setTag_nextId (g : Group) (n r : Nat) (t : Tag) : (g.setTag n r t).nextId = g.nextId := rfl

/-! Group.setU changes only `frames` -/

@[simp] theorem Group.setU_core (g : Group) (n r : Nat) (x : Word) : (g.setU n r x).core = g.core := rfl
@[simp] theorem Group.setU_slot (g : Group) (n r : Nat) (x : Word) : (g.setU n r x).slot = g.slot := rfl
@[simp] theorem Group.setU_grid (g : Group) (n r : Nat) (x : Word) : (g.setU n r x).grid = g.grid := rfl
@[simp] theorem Group.setU_team (g : Group) (n r : Nat) (x : Word) : (g.setU n r x).team = g.team := rfl
@[simp] theorem Group.setU_die (g : Group) (n r : Nat) (x : Word) : (g.setU n r x).die = g.die := rfl
@[simp] theorem Group.setU_gix (g : Group) (n r : Nat) (x : Word) : (g.setU n r x).gix = g.gix := rfl
@[simp] theorem Group.setU_w (g : Group) (n r : Nat) (x : Word) : (g.setU n r x).w = g.w := rfl
@[simp] theorem Group.setU_lanes (g : Group) (n r : Nat) (x : Word) : (g.setU n r x).lanes = g.lanes := rfl
@[simp] theorem Group.setU_sets (g : Group) (n r : Nat) (x : Word) : (g.setU n r x).sets = g.sets := rfl
@[simp] theorem Group.setU_fmode (g : Group) (n r : Nat) (x : Word) : (g.setU n r x).fmode = g.fmode := rfl
@[simp] theorem Group.setU_fflags (g : Group) (n r : Nat) (x : Word) : (g.setU n r x).fflags = g.fflags := rfl
@[simp] theorem Group.setU_rank (g : Group) (n r : Nat) (x : Word) : (g.setU n r x).rank = g.rank := rfl
@[simp] theorem Group.setU_gp (g : Group) (n r : Nat) (x : Word) : (g.setU n r x).gp = g.gp := rfl
@[simp] theorem Group.setU_arrivedAt (g : Group) (n r : Nat) (x : Word) : (g.setU n r x).arrivedAt = g.arrivedAt := rfl
@[simp] theorem Group.setU_exitAt (g : Group) (n r : Nat) (x : Word) : (g.setU n r x).exitAt = g.exitAt := rfl
@[simp] theorem Group.setU_twinCopies (g : Group) (n r : Nat) (x : Word) : (g.setU n r x).twinCopies = g.twinCopies := rfl
@[simp] theorem Group.setU_ld (g : Group) (n r : Nat) (x : Word) : (g.setU n r x).ld = g.ld := rfl
@[simp] theorem Group.setU_st (g : Group) (n r : Nat) (x : Word) : (g.setU n r x).st = g.st := rfl
@[simp] theorem Group.setU_cp (g : Group) (n r : Nat) (x : Word) : (g.setU n r x).cp = g.cp := rfl
@[simp] theorem Group.setU_tl (g : Group) (n r : Nat) (x : Word) : (g.setU n r x).tl = g.tl := rfl
@[simp] theorem Group.setU_ops (g : Group) (n r : Nat) (x : Word) : (g.setU n r x).ops = g.ops := rfl
@[simp] theorem Group.setU_sf (g : Group) (n r : Nat) (x : Word) : (g.setU n r x).sf = g.sf := rfl
@[simp] theorem Group.setU_holds (g : Group) (n r : Nat) (x : Word) : (g.setU n r x).holds = g.holds := rfl
@[simp] theorem Group.setU_arrivals (g : Group) (n r : Nat) (x : Word) : (g.setU n r x).arrivals = g.arrivals := rfl
@[simp] theorem Group.setU_heldFault (g : Group) (n r : Nat) (x : Word) : (g.setU n r x).heldFault = g.heldFault := rfl
@[simp] theorem Group.setU_traps (g : Group) (n r : Nat) (x : Word) : (g.setU n r x).traps = g.traps := rfl
@[simp] theorem Group.setU_tiles (g : Group) (n r : Nat) (x : Word) : (g.setU n r x).tiles = g.tiles := rfl
@[simp] theorem Group.setU_accs (g : Group) (n r : Nat) (x : Word) : (g.setU n r x).accs = g.accs := rfl
@[simp] theorem Group.setU_chains (g : Group) (n r : Nat) (x : Word) : (g.setU n r x).chains = g.chains := rfl
@[simp] theorem Group.setU_delay (g : Group) (n r : Nat) (x : Word) : (g.setU n r x).delay = g.delay := rfl
@[simp] theorem Group.setU_stalls (g : Group) (n r : Nat) (x : Word) : (g.setU n r x).stalls = g.stalls := rfl
@[simp] theorem Group.setU_evicting (g : Group) (n r : Nat) (x : Word) : (g.setU n r x).evicting = g.evicting := rfl
@[simp] theorem Group.setU_moved (g : Group) (n r : Nat) (x : Word) : (g.setU n r x).moved = g.moved := rfl
@[simp] theorem Group.setU_bad (g : Group) (n r : Nat) (x : Word) : (g.setU n r x).bad = g.bad := rfl
@[simp] theorem Group.setU_badState (g : Group) (n r : Nat) (x : Word) : (g.setU n r x).badState = g.badState := rfl
@[simp] theorem Group.setU_lost (g : Group) (n r : Nat) (x : Word) : (g.setU n r x).lost = g.lost := rfl
@[simp] theorem Group.setU_nextId (g : Group) (n r : Nat) (x : Word) : (g.setU n r x).nextId = g.nextId := rfl

/-! Group.setUP changes only `frames` -/

@[simp] theorem Group.setUP_core (g : Group) (n r : Nat) (x : DWord) : (g.setUP n r x).core = g.core := rfl
@[simp] theorem Group.setUP_slot (g : Group) (n r : Nat) (x : DWord) : (g.setUP n r x).slot = g.slot := rfl
@[simp] theorem Group.setUP_grid (g : Group) (n r : Nat) (x : DWord) : (g.setUP n r x).grid = g.grid := rfl
@[simp] theorem Group.setUP_team (g : Group) (n r : Nat) (x : DWord) : (g.setUP n r x).team = g.team := rfl
@[simp] theorem Group.setUP_die (g : Group) (n r : Nat) (x : DWord) : (g.setUP n r x).die = g.die := rfl
@[simp] theorem Group.setUP_gix (g : Group) (n r : Nat) (x : DWord) : (g.setUP n r x).gix = g.gix := rfl
@[simp] theorem Group.setUP_w (g : Group) (n r : Nat) (x : DWord) : (g.setUP n r x).w = g.w := rfl
@[simp] theorem Group.setUP_lanes (g : Group) (n r : Nat) (x : DWord) : (g.setUP n r x).lanes = g.lanes := rfl
@[simp] theorem Group.setUP_sets (g : Group) (n r : Nat) (x : DWord) : (g.setUP n r x).sets = g.sets := rfl
@[simp] theorem Group.setUP_fmode (g : Group) (n r : Nat) (x : DWord) : (g.setUP n r x).fmode = g.fmode := rfl
@[simp] theorem Group.setUP_fflags (g : Group) (n r : Nat) (x : DWord) : (g.setUP n r x).fflags = g.fflags := rfl
@[simp] theorem Group.setUP_rank (g : Group) (n r : Nat) (x : DWord) : (g.setUP n r x).rank = g.rank := rfl
@[simp] theorem Group.setUP_gp (g : Group) (n r : Nat) (x : DWord) : (g.setUP n r x).gp = g.gp := rfl
@[simp] theorem Group.setUP_arrivedAt (g : Group) (n r : Nat) (x : DWord) : (g.setUP n r x).arrivedAt = g.arrivedAt := rfl
@[simp] theorem Group.setUP_exitAt (g : Group) (n r : Nat) (x : DWord) : (g.setUP n r x).exitAt = g.exitAt := rfl
@[simp] theorem Group.setUP_twinCopies (g : Group) (n r : Nat) (x : DWord) : (g.setUP n r x).twinCopies = g.twinCopies := rfl
@[simp] theorem Group.setUP_ld (g : Group) (n r : Nat) (x : DWord) : (g.setUP n r x).ld = g.ld := rfl
@[simp] theorem Group.setUP_st (g : Group) (n r : Nat) (x : DWord) : (g.setUP n r x).st = g.st := rfl
@[simp] theorem Group.setUP_cp (g : Group) (n r : Nat) (x : DWord) : (g.setUP n r x).cp = g.cp := rfl
@[simp] theorem Group.setUP_tl (g : Group) (n r : Nat) (x : DWord) : (g.setUP n r x).tl = g.tl := rfl
@[simp] theorem Group.setUP_ops (g : Group) (n r : Nat) (x : DWord) : (g.setUP n r x).ops = g.ops := rfl
@[simp] theorem Group.setUP_sf (g : Group) (n r : Nat) (x : DWord) : (g.setUP n r x).sf = g.sf := rfl
@[simp] theorem Group.setUP_holds (g : Group) (n r : Nat) (x : DWord) : (g.setUP n r x).holds = g.holds := rfl
@[simp] theorem Group.setUP_arrivals (g : Group) (n r : Nat) (x : DWord) : (g.setUP n r x).arrivals = g.arrivals := rfl
@[simp] theorem Group.setUP_heldFault (g : Group) (n r : Nat) (x : DWord) : (g.setUP n r x).heldFault = g.heldFault := rfl
@[simp] theorem Group.setUP_traps (g : Group) (n r : Nat) (x : DWord) : (g.setUP n r x).traps = g.traps := rfl
@[simp] theorem Group.setUP_tiles (g : Group) (n r : Nat) (x : DWord) : (g.setUP n r x).tiles = g.tiles := rfl
@[simp] theorem Group.setUP_accs (g : Group) (n r : Nat) (x : DWord) : (g.setUP n r x).accs = g.accs := rfl
@[simp] theorem Group.setUP_chains (g : Group) (n r : Nat) (x : DWord) : (g.setUP n r x).chains = g.chains := rfl
@[simp] theorem Group.setUP_delay (g : Group) (n r : Nat) (x : DWord) : (g.setUP n r x).delay = g.delay := rfl
@[simp] theorem Group.setUP_stalls (g : Group) (n r : Nat) (x : DWord) : (g.setUP n r x).stalls = g.stalls := rfl
@[simp] theorem Group.setUP_evicting (g : Group) (n r : Nat) (x : DWord) : (g.setUP n r x).evicting = g.evicting := rfl
@[simp] theorem Group.setUP_moved (g : Group) (n r : Nat) (x : DWord) : (g.setUP n r x).moved = g.moved := rfl
@[simp] theorem Group.setUP_bad (g : Group) (n r : Nat) (x : DWord) : (g.setUP n r x).bad = g.bad := rfl
@[simp] theorem Group.setUP_badState (g : Group) (n r : Nat) (x : DWord) : (g.setUP n r x).badState = g.badState := rfl
@[simp] theorem Group.setUP_lost (g : Group) (n r : Nat) (x : DWord) : (g.setUP n r x).lost = g.lost := rfl
@[simp] theorem Group.setUP_nextId (g : Group) (n r : Nat) (x : DWord) : (g.setUP n r x).nextId = g.nextId := rfl

/-! Group.setPd changes only `lanes` -/

@[simp] theorem Group.setPd_core (g : Group) (n : Nat) (m : LaneSet) (f : Nat → Bool) : (g.setPd n m f).core = g.core := rfl
@[simp] theorem Group.setPd_slot (g : Group) (n : Nat) (m : LaneSet) (f : Nat → Bool) : (g.setPd n m f).slot = g.slot := rfl
@[simp] theorem Group.setPd_grid (g : Group) (n : Nat) (m : LaneSet) (f : Nat → Bool) : (g.setPd n m f).grid = g.grid := rfl
@[simp] theorem Group.setPd_team (g : Group) (n : Nat) (m : LaneSet) (f : Nat → Bool) : (g.setPd n m f).team = g.team := rfl
@[simp] theorem Group.setPd_die (g : Group) (n : Nat) (m : LaneSet) (f : Nat → Bool) : (g.setPd n m f).die = g.die := rfl
@[simp] theorem Group.setPd_gix (g : Group) (n : Nat) (m : LaneSet) (f : Nat → Bool) : (g.setPd n m f).gix = g.gix := rfl
@[simp] theorem Group.setPd_w (g : Group) (n : Nat) (m : LaneSet) (f : Nat → Bool) : (g.setPd n m f).w = g.w := rfl
@[simp] theorem Group.setPd_frames (g : Group) (n : Nat) (m : LaneSet) (f : Nat → Bool) : (g.setPd n m f).frames = g.frames := rfl
@[simp] theorem Group.setPd_sets (g : Group) (n : Nat) (m : LaneSet) (f : Nat → Bool) : (g.setPd n m f).sets = g.sets := rfl
@[simp] theorem Group.setPd_fmode (g : Group) (n : Nat) (m : LaneSet) (f : Nat → Bool) : (g.setPd n m f).fmode = g.fmode := rfl
@[simp] theorem Group.setPd_fflags (g : Group) (n : Nat) (m : LaneSet) (f : Nat → Bool) : (g.setPd n m f).fflags = g.fflags := rfl
@[simp] theorem Group.setPd_rank (g : Group) (n : Nat) (m : LaneSet) (f : Nat → Bool) : (g.setPd n m f).rank = g.rank := rfl
@[simp] theorem Group.setPd_gp (g : Group) (n : Nat) (m : LaneSet) (f : Nat → Bool) : (g.setPd n m f).gp = g.gp := rfl
@[simp] theorem Group.setPd_arrivedAt (g : Group) (n : Nat) (m : LaneSet) (f : Nat → Bool) : (g.setPd n m f).arrivedAt = g.arrivedAt := rfl
@[simp] theorem Group.setPd_exitAt (g : Group) (n : Nat) (m : LaneSet) (f : Nat → Bool) : (g.setPd n m f).exitAt = g.exitAt := rfl
@[simp] theorem Group.setPd_twinCopies (g : Group) (n : Nat) (m : LaneSet) (f : Nat → Bool) : (g.setPd n m f).twinCopies = g.twinCopies := rfl
@[simp] theorem Group.setPd_ld (g : Group) (n : Nat) (m : LaneSet) (f : Nat → Bool) : (g.setPd n m f).ld = g.ld := rfl
@[simp] theorem Group.setPd_st (g : Group) (n : Nat) (m : LaneSet) (f : Nat → Bool) : (g.setPd n m f).st = g.st := rfl
@[simp] theorem Group.setPd_cp (g : Group) (n : Nat) (m : LaneSet) (f : Nat → Bool) : (g.setPd n m f).cp = g.cp := rfl
@[simp] theorem Group.setPd_tl (g : Group) (n : Nat) (m : LaneSet) (f : Nat → Bool) : (g.setPd n m f).tl = g.tl := rfl
@[simp] theorem Group.setPd_ops (g : Group) (n : Nat) (m : LaneSet) (f : Nat → Bool) : (g.setPd n m f).ops = g.ops := rfl
@[simp] theorem Group.setPd_sf (g : Group) (n : Nat) (m : LaneSet) (f : Nat → Bool) : (g.setPd n m f).sf = g.sf := rfl
@[simp] theorem Group.setPd_holds (g : Group) (n : Nat) (m : LaneSet) (f : Nat → Bool) : (g.setPd n m f).holds = g.holds := rfl
@[simp] theorem Group.setPd_arrivals (g : Group) (n : Nat) (m : LaneSet) (f : Nat → Bool) : (g.setPd n m f).arrivals = g.arrivals := rfl
@[simp] theorem Group.setPd_heldFault (g : Group) (n : Nat) (m : LaneSet) (f : Nat → Bool) : (g.setPd n m f).heldFault = g.heldFault := rfl
@[simp] theorem Group.setPd_traps (g : Group) (n : Nat) (m : LaneSet) (f : Nat → Bool) : (g.setPd n m f).traps = g.traps := rfl
@[simp] theorem Group.setPd_tiles (g : Group) (n : Nat) (m : LaneSet) (f : Nat → Bool) : (g.setPd n m f).tiles = g.tiles := rfl
@[simp] theorem Group.setPd_accs (g : Group) (n : Nat) (m : LaneSet) (f : Nat → Bool) : (g.setPd n m f).accs = g.accs := rfl
@[simp] theorem Group.setPd_chains (g : Group) (n : Nat) (m : LaneSet) (f : Nat → Bool) : (g.setPd n m f).chains = g.chains := rfl
@[simp] theorem Group.setPd_delay (g : Group) (n : Nat) (m : LaneSet) (f : Nat → Bool) : (g.setPd n m f).delay = g.delay := rfl
@[simp] theorem Group.setPd_stalls (g : Group) (n : Nat) (m : LaneSet) (f : Nat → Bool) : (g.setPd n m f).stalls = g.stalls := rfl
@[simp] theorem Group.setPd_evicting (g : Group) (n : Nat) (m : LaneSet) (f : Nat → Bool) : (g.setPd n m f).evicting = g.evicting := rfl
@[simp] theorem Group.setPd_moved (g : Group) (n : Nat) (m : LaneSet) (f : Nat → Bool) : (g.setPd n m f).moved = g.moved := rfl
@[simp] theorem Group.setPd_bad (g : Group) (n : Nat) (m : LaneSet) (f : Nat → Bool) : (g.setPd n m f).bad = g.bad := rfl
@[simp] theorem Group.setPd_badState (g : Group) (n : Nat) (m : LaneSet) (f : Nat → Bool) : (g.setPd n m f).badState = g.badState := rfl
@[simp] theorem Group.setPd_lost (g : Group) (n : Nat) (m : LaneSet) (f : Nat → Bool) : (g.setPd n m f).lost = g.lost := rfl
@[simp] theorem Group.setPd_nextId (g : Group) (n : Nat) (m : LaneSet) (f : Nat → Bool) : (g.setPd n m f).nextId = g.nextId := rfl

/-! Group.collect changes only `sets` -/

@[simp] theorem Group.collect_core (g : Group) : (g.collect).core = g.core := rfl
@[simp] theorem Group.collect_slot (g : Group) : (g.collect).slot = g.slot := rfl
@[simp] theorem Group.collect_grid (g : Group) : (g.collect).grid = g.grid := rfl
@[simp] theorem Group.collect_team (g : Group) : (g.collect).team = g.team := rfl
@[simp] theorem Group.collect_die (g : Group) : (g.collect).die = g.die := rfl
@[simp] theorem Group.collect_gix (g : Group) : (g.collect).gix = g.gix := rfl
@[simp] theorem Group.collect_w (g : Group) : (g.collect).w = g.w := rfl
@[simp] theorem Group.collect_lanes (g : Group) : (g.collect).lanes = g.lanes := rfl
@[simp] theorem Group.collect_frames (g : Group) : (g.collect).frames = g.frames := rfl
@[simp] theorem Group.collect_fmode (g : Group) : (g.collect).fmode = g.fmode := rfl
@[simp] theorem Group.collect_fflags (g : Group) : (g.collect).fflags = g.fflags := rfl
@[simp] theorem Group.collect_rank (g : Group) : (g.collect).rank = g.rank := rfl
@[simp] theorem Group.collect_gp (g : Group) : (g.collect).gp = g.gp := rfl
@[simp] theorem Group.collect_arrivedAt (g : Group) : (g.collect).arrivedAt = g.arrivedAt := rfl
@[simp] theorem Group.collect_exitAt (g : Group) : (g.collect).exitAt = g.exitAt := rfl
@[simp] theorem Group.collect_twinCopies (g : Group) : (g.collect).twinCopies = g.twinCopies := rfl
@[simp] theorem Group.collect_ld (g : Group) : (g.collect).ld = g.ld := rfl
@[simp] theorem Group.collect_st (g : Group) : (g.collect).st = g.st := rfl
@[simp] theorem Group.collect_cp (g : Group) : (g.collect).cp = g.cp := rfl
@[simp] theorem Group.collect_tl (g : Group) : (g.collect).tl = g.tl := rfl
@[simp] theorem Group.collect_ops (g : Group) : (g.collect).ops = g.ops := rfl
@[simp] theorem Group.collect_sf (g : Group) : (g.collect).sf = g.sf := rfl
@[simp] theorem Group.collect_holds (g : Group) : (g.collect).holds = g.holds := rfl
@[simp] theorem Group.collect_arrivals (g : Group) : (g.collect).arrivals = g.arrivals := rfl
@[simp] theorem Group.collect_heldFault (g : Group) : (g.collect).heldFault = g.heldFault := rfl
@[simp] theorem Group.collect_traps (g : Group) : (g.collect).traps = g.traps := rfl
@[simp] theorem Group.collect_tiles (g : Group) : (g.collect).tiles = g.tiles := rfl
@[simp] theorem Group.collect_accs (g : Group) : (g.collect).accs = g.accs := rfl
@[simp] theorem Group.collect_chains (g : Group) : (g.collect).chains = g.chains := rfl
@[simp] theorem Group.collect_delay (g : Group) : (g.collect).delay = g.delay := rfl
@[simp] theorem Group.collect_stalls (g : Group) : (g.collect).stalls = g.stalls := rfl
@[simp] theorem Group.collect_evicting (g : Group) : (g.collect).evicting = g.evicting := rfl
@[simp] theorem Group.collect_moved (g : Group) : (g.collect).moved = g.moved := rfl
@[simp] theorem Group.collect_bad (g : Group) : (g.collect).bad = g.bad := rfl
@[simp] theorem Group.collect_badState (g : Group) : (g.collect).badState = g.badState := rfl
@[simp] theorem Group.collect_lost (g : Group) : (g.collect).lost = g.lost := rfl
@[simp] theorem Group.collect_nextId (g : Group) : (g.collect).nextId = g.nextId := rfl

/-! ## A part read after it is changed -/

theorem State.updCore_core (s : State) (c k : Nat) (f : Core → Core) : (s.updCore c f).core k = if k = c ∧ c < s.cores.length then f (s.core k) else s.core k := by
  simp only [State.updCore, State.core, List.getD_eq_getElem?_getD, List.getElem?_modify]
  by_cases h : c = k
  · subst h
    by_cases hl : c < s.cores.length <;> simp [hl]
  · simp [h, Ne.symm h]

theorem State.updCluster_cluster (s : State) (c k : Nat) (f : Cluster → Cluster) :
    (s.updCluster c f).clusters[k]? = if k = c then (s.clusters[k]?).map f else s.clusters[k]? := by
  simp only [State.updCluster, List.getElem?_modify]
  by_cases h : c = k
  · simp [h]
  · simp [h, Ne.symm h]

theorem State.updFn_fn (s : State) (n k : Nat) (f : Fn → Fn) : (s.updFn n f).fn k = if k = n ∧ n < s.fns.length then f (s.fn k) else s.fn k := by
  simp only [State.updFn, State.fn, List.getD_eq_getElem?_getD, List.getElem?_modify]
  by_cases h : n = k
  · subst h
    by_cases hl : n < s.fns.length <;> simp [hl]
  · simp [h, Ne.symm h]

theorem find_upd {α : Type} (l : List α) (p q : α → Bool) (f : α → α) (hp : ∀ x, q x = true → p (f x) = p x) :
    (l.map (fun x => if q x then f x else x)).find? p = (l.find? p).map (fun x => if q x then f x else x) := by
  induction l with
  | nil => rfl
  | cons x r ih =>
    have e : p (if q x then f x else x) = p x := by
      by_cases h : q x = true
      · simp [h, hp x h]
      · simp [h]
    by_cases h : p x = true
    · simp [e, h]
    · simp only [List.map_cons, List.find?_cons, e, h]
      exact ih

theorem State.updGrid_grid? (s : State) (n k : Word) (f : Grid → Grid) (hf : ∀ g, (f g).num = g.num) :
    (s.updGrid n f).grid? k = if k = n then (s.grid? k).map f else s.grid? k := by
  simp only [State.updGrid, State.grid?]
  rw [find_upd _ _ (fun g => g.num == n) f (fun x _ => by simp only [hf])]
  rcases hg : s.grids.find? (fun g => g.num == k) with _ | x
  · rw [hg]; simp only [Option.map_none, ite_self]
  · have : x.num = k := by simpa using List.find?_some hg
    rw [hg]
    by_cases h : k = n <;> simp [this, h]

theorem State.updTeam_team? (s : State) (w v : Word) (n k : Nat) (f : Team → Team) (hf : ∀ t, (f t).grid = t.grid ∧ (f t).num = t.num) :
    (s.updTeam w n f).team? v k = if v = w ∧ k = n then (s.team? v k).map f else s.team? v k := by
  simp only [State.updTeam, State.team?]
  rw [find_upd _ _ (fun t => t.grid == w && t.num == n) f (fun x _ => by simp only [hf])]
  rcases hg : s.teams.find? (fun t => t.grid == v && t.num == k) with _ | x
  · rw [hg]; simp only [Option.map_none, ite_self]
  · have : x.grid = v ∧ x.num = k := by simpa using List.find?_some hg
    rw [hg]
    by_cases h : v = w ∧ k = n <;> simp [this.1, this.2, h]

end Sys2Proof.Machine
end

