-- ==== Sys2Proof/Laws/Ops.lean ====
section
/-! SUPPORT. Sys2Proof/Laws/Ops.lean: what the shared operations can do to memory, scratch and the writes: an operation that only adds writes
to coherence order keeps every property that each new write keeps. Said once for each operation, from a table entry read to a word that
executes. -/

namespace Sys2Proof.Machine

/-- A property of the storage alone that every new write keeps. -/
structure StoreSafe (P : State → Prop) : Prop where
  same : ∀ s t : State, t.mem = s.mem → t.scratch = s.scratch → t.writes = s.writes → t.co = s.co → P s → P t
  write : ∀ (s : State) (k : Nat) (bs : List Byte) (o : Option Nat) (cs : List Nat) (r : Nat), P s → P (s.addWrite k bs o cs r)

/-- The canonical forms with coherence order are such a property. -/
theorem storeSafe_memOk : StoreSafe (fun s => s.MemOk ∧ s.InCoherenceOrder) where
  same s t hm hs hw hc h := by
    refine ⟨?_, ?_⟩
    · unfold State.MemOk; rw [hm, hs]; exact h.1
    · unfold State.InCoherenceOrder; rw [hw, hc]; exact h.2
  write s k bs o cs r h := ⟨h.1, addWrite_order h.2 k bs o cs r⟩

section
variable {P : State → Prop} (hP : StoreSafe P)
include hP

omit hP in
/-- A fold of steps that keep a property keeps it. -/
theorem StoreSafe.foldl {α : Type} (f : State → α → State) (hf : ∀ s x, P s → P (f s x)) (l : List α) (s : State) (h : P s) : P (l.foldl f s) := by
  induction l generalizing s with
  | nil => exact h
  | cons x r ih => exact ih _ (hf s x h)

theorem StoreSafe.setGroup {s : State} (h : P s) (g : Group) : P (s.setGroup g) := hP.same s _ rfl rfl rfl rfl h
theorem StoreSafe.updGroup {s : State} (h : P s) (c n : Nat) (f : Group → Group) : P (s.updGroup c n f) := hP.same s _ rfl rfl rfl rfl h
theorem StoreSafe.updCore {s : State} (h : P s) (c : Nat) (f : Core → Core) : P (s.updCore c f) := hP.same s _ rfl rfl rfl rfl h
theorem StoreSafe.updFn {s : State} (h : P s) (n : Nat) (f : Fn → Fn) : P (s.updFn n f) := hP.same s _ rfl rfl rfl rfl h
theorem StoreSafe.updGrid {s : State} (h : P s) (n : Word) (f : Grid → Grid) : P (s.updGrid n f) := hP.same s _ rfl rfl rfl rfl h
theorem StoreSafe.updTeam {s : State} (h : P s) (w : Word) (n : Nat) (f : Team → Team) : P (s.updTeam w n f) := hP.same s _ rfl rfl rfl rfl h
theorem StoreSafe.updCluster {s : State} (h : P s) (n : Nat) (f : Cluster → Cluster) : P (s.updCluster n f) := hP.same s _ rfl rfl rfl rfl h
theorem StoreSafe.updQueue {s : State} (h : P s) (n q : Nat) (f : Queue → Queue) : P (s.updQueue n q f) := hP.same s _ rfl rfl rfl rfl h
theorem StoreSafe.keepEntries {s : State} (h : P s) (es : List (Nat × Nat × DWord)) : P (s.keepEntries es) := hP.same s _ rfl rfl rfl rfl h

theorem StoreSafe.addBytes {s : State} (h : P s) (k : Nat) (bs : List Byte) (o : Option Nat) (cs : List Nat) (r : Nat) : P (s.addBytes k bs o cs r) :=
  StoreSafe.foldl (P := P) _ (fun s _ h => hP.write s _ _ _ _ _ h) _ s h

theorem StoreSafe.noteErrors {s : State} (h : P s) (fn k n : Nat) : P (s.noteErrors fn k n) := by
  unfold State.noteErrors
  dsimp only
  split
  · exact h
  · split <;> refine hP.same s _ ?_ ?_ ?_ ?_ h <;> split <;> rfl

theorem StoreSafe.noteLocal {s : State} (h : P s) (fn core src : Nat) : P (s.noteLocal fn core src) := by
  unfold State.noteLocal
  refine hP.same s _ ?_ ?_ ?_ ?_ h <;> dsimp only <;> split <;> rfl

omit hP in
/-- A translation keeps the storage. -/
theorem StoreSafe.locateBy {s : State} (h : P s) (walk : State → DWord → Option (State × Xlat)) (hw : ∀ s a t x, P s → walk s a = some (t, x) → P t)
    (master : Nat) (k : Want) (va : DWord) (n : Nat) : P (s.locateBy walk master k va n).1 := by
  unfold State.locateBy
  generalize pageRuns (n / 65536 + 3) va.toNat 0 n = rs
  have : ∀ (rs : List (Nat × Nat)) (x : State × Except (Access × DWord) (List (Nat × Nat × Nat))), P x.1 → P (rs.foldl (fun (s, r) (off, len) =>
      match r with
      | .error e => (s, .error e)
      | .ok ks =>
        let a := va + BitVec.ofNat 64 off
        match walk s a with
        | none => (s, .error (.frozen, a))
        | some (s, x) =>
          match s.judge master k len x with
          | .ok key => (s, .ok (ks ++ [(key, off, len)]))
          | e => (s, .error (e, a))) x).1 := by
    intro rs
    induction rs with
    | nil => exact fun x h => h
    | cons r rs ih =>
      intro x h
      refine ih _ ?_
      obtain ⟨s, e⟩ := x
      cases e with
      | error e => exact h
      | ok ks =>
        dsimp only
        split
        · exact h
        · rename_i e
          have := hw _ _ _ _ h e
          split <;> exact this
  exact this rs _ h

theorem StoreSafe.locate {s : State} (h : P s) (core : Option Nat) (fn master : Nat) (k : Want) (va : DWord) (n : Nat) :
    P (s.locate core fn master k va n).1 := by
  refine StoreSafe.locateBy h _ (fun s a t x h e => ?_) master k va n
  simp only [State.unitWalk, Option.map_eq_some_iff, Prod.mk.injEq] at e
  obtain ⟨y, -, rfl, -⟩ := e
  exact hP.keepEntries h _

/-- The test of a record's store notes at most an error. -/
theorem StoreSafe.storeBad {s : State} (h : P s) (fn master : Nat) (va : DWord) (n : Nat) : P (s.storeBad fn master va n).1 := by
  have := hP.locate h none fn master ⟨true, false, false⟩ va n
  unfold State.storeBad
  split <;> rename_i e <;> rw [e] at this
  · split
    · exact StoreSafe.foldl (P := P) _ (fun s x h => hP.noteErrors h _ _ _) _ _ this
    · exact this
  · exact this

theorem StoreSafe.freeze {s : State} (h : P s) (m : Nat) : P (s.freeze m) := hP.same s _ rfl rfl rfl rfl h
theorem StoreSafe.holdRequest {s : State} (h : P s) (m : Nat) (w : Word) : P (s.holdRequest m w) := by
  unfold State.holdRequest
  split
  · exact h
  · exact hP.same s _ rfl rfl rfl rfl h

theorem StoreSafe.readVa {s : State} (h : P s) (core : Option Nat) (scope fn master : Nat) (va : DWord) (n : Nat) :
    P (s.readVa core scope fn master va n).1 := by
  have := hP.locate h core fn master ⟨false, false, false⟩ va n
  unfold State.readVa
  split <;> rename_i e <;> rw [e] at this <;> exact this

theorem StoreSafe.writeVa {s : State} (h : P s) (core : Option Nat) (fn master : Nat) (va : DWord) (bs : List Byte) :
    P (s.writeVa core fn master va bs).1 := by
  have := hP.locate h core fn master ⟨true, false, false⟩ va bs.length
  unfold State.writeVa
  split <;> rename_i e <;> rw [e] at this
  · exact StoreSafe.foldl (P := P) _ (fun s x h => hP.addBytes h _ _ _ _ _) _ _ this
  · exact this

/-- A record of the fault ring is a write, or is dropped. -/
theorem StoreSafe.ring {s : State} (h : P s) (fn : Nat) (r : RingRecord) : P (s.ring fn r) := by
  unfold State.ring
  dsimp only
  split
  · exact hP.updFn h _ _
  · generalize ((s.fn fn).fltbase &&& ~~~(63#64)) + BitVec.ofNat 64 (64 * ((s.fn fn).flttail.toNat % 2 ^ ((s.fn fn).fltctl.toNat % 32))) = va
    have hb := hP.storeBad h fn (0x40 + fn) va 64
    split
    · rename_i e
      rw [e] at hb
      exact hP.updFn hb _ _
    · rename_i t e
      rw [e] at hb
      have := hP.writeVa hb none fn (0x40 + fn) va (r.bytes t.ptime)
      split <;> rename_i e <;> rw [e] at this
      · exact hP.updGrid (hP.updFn this _ _) _ _
      · exact hP.updFn (hP.freeze this _) _ _
      · exact hP.updFn this _ _

theorem StoreSafe.violate {s : State} (h : P s) (d : Denial) (grid : Word) (core slot lane : Nat) (fpc : DWord) :
    P (s.violate d grid core slot lane fpc) := by
  unfold State.violate
  apply hP.ring
  exact hP.same s _ rfl rfl rfl rfl h

theorem StoreSafe.cancelGrid {s : State} (h : P s) (n : Word) (cause : Nat) : P (s.cancelGrid n cause) := hP.updGrid h _ _

theorem StoreSafe.setFaulted {s : State} (h : P s) (n : Word) : P (s.setFaulted n) := by
  unfold State.setFaulted
  split
  · split
    · exact h
    · exact hP.updQueue h _ _ _
  · exact h

theorem StoreSafe.request {s : State} (h : P s) (core slot : Nat) (pc : DWord) (m : LaneSet) (rows quads : Nat) : P (s.request core slot pc m rows quads) :=
  hP.updCore h _ _
theorem StoreSafe.dropRequest {s : State} (h : P s) (core slot : Nat) (pc : DWord) (m : LaneSet) : P (s.dropRequest core slot pc m) := hP.updCore h _ _

theorem StoreSafe.trapEntry {s : State} (h : P s) (fn core code : Nat) : P (s.trapEntry fn core code).1 := by
  unfold State.trapEntry
  dsimp only
  split
  · exact h
  · split
    · exact h
    · split
      · split
        · exact hP.noteErrors (hP.keepEntries h _) _ _ _
        · split <;> exact hP.noteErrors (hP.keepEntries h _) _ _ _
      · exact hP.keepEntries h _
      · exact hP.keepEntries h _
      · exact hP.keepEntries h _

theorem StoreSafe.unhandled {s : State} (h : P s) (core slot : Nat) (t : Trap) (b : Bool) : P (s.unhandled core slot t b) := by
  unfold State.unhandled
  split
  · exact h
  · dsimp only
    split
    · exact hP.setGroup h _
    · exact hP.cancelGrid (hP.setFaulted (hP.ring (hP.setGroup h _) _ _) _) _ _

theorem StoreSafe.enterTrap {s : State} (h : P s) (core slot : Nat) (t : Trap) (e : TrapEntry) : P (s.enterTrap core slot t e) := by
  unfold State.enterTrap
  split
  · exact h
  · dsimp only
    split
    · exact hP.updGroup (hP.dropRequest h _ _ _ _) _ _ _
    · exact hP.updGroup (hP.request h _ _ _ _ _ _) _ _ _

theorem StoreSafe.refuseEntry {s : State} (h : P s) (core slot : Nat) (t : Trap) : P (s.refuseEntry core slot t) := by
  unfold State.refuseEntry
  split
  · exact h
  · exact hP.unhandled (hP.trapEntry h _ _ _) _ _ _ _

theorem StoreSafe.entryHeld {s : State} (h : P s) (g : Group) (t : Trap) (d : Option Denial) : P (s.entryHeld g t d) := by
  unfold State.entryHeld
  split
  · exact hP.violate h _ _ _ _ _ _
  · exact hP.holdRequest h _ _

/-- Taking a fault writes at most a record. -/
theorem StoreSafe.takeTrap {s : State} (h : P s) (core slot : Nat) (t : Trap) : P (s.takeTrap core slot t) := by
  unfold State.takeTrap
  split
  · exact h
  · rename_i g _
    have := hP.trapEntry h (s.fnOf g.grid) core t.code
    split
    rename_i s' e he
    rw [he] at this
    dsimp only
    split
    · exact hP.unhandled this _ _ _ _
    · exact hP.updGroup (hP.entryHeld this _ _ _) _ _ _
    · split
      · exact hP.unhandled this _ _ _ _
      · split
        · exact hP.refuseEntry this _ _ _
        · exact hP.enterTrap this _ _ _ _

theorem StoreSafe.raiseEach {s : State} (h : P s) (core slot : Nat) (fs : List (Nat × TrapLane)) : P (s.raiseEach core slot fs) := by
  unfold State.raiseEach
  split
  · exact h
  · exact StoreSafe.foldl (P := P) _ (fun s _ h => hP.takeTrap h _ _ _) _ s h

theorem StoreSafe.raisePrecise {s : State} (h : P s) (core slot : Nat) (fpc resume : DWord) (fs : List (Nat × Nat × DWord × Word)) :
    P (s.raisePrecise core slot fpc resume fs) := hP.raiseEach h _ _ _

theorem StoreSafe.ctx {s : State} (h : P s) {hd : Head} {c : Ctx} (e : s.ctx? hd = some c) : P c.s ∧ P c.s0 := by
  unfold State.ctx? at e
  split at e
  · cases e
  · split at e
    · cases e
    · cases e; exact ⟨hP.setGroup h _, h⟩

theorem StoreSafe.raiseBad {c : Ctx} (hs : P c.s) (h0 : P c.s0) {body : Ctx → State} (hb : ∀ c, P c.s → P c.s0 → P (body c)) (us : List Use)
    (bs : List (Nat × Nat × DWord × Word)) : P (c.raiseBad us body bs) := by
  have ho (m : LaneSet) : P (body (c.only m)) := hb _ (hP.setGroup hs _) h0
  have hu (m : LaneSet) : P (if m == 0 then c.s0 else body (c.only m)) := by
    split
    · exact h0
    · exact ho m
  have key (m : LaneSet) (r : List (Nat × Nat × DWord × Word)) (n : Nat) : P (match r with
      | [] => if m == 0 then c.s0 else body (c.only m)
      | r => ((if m == 0 then c.s0 else body (c.only m)).raisePrecise c.core c.slot c.pc c.pc r).noteLocal (c.s.fnOf c.g.grid) c.core n) := by
    split
    · exact hu m
    · exact hP.noteLocal (hP.raisePrecise (hu m) _ _ _ _ _) _ _ _
  exact key _ _ _

omit hP in
/-- Lanes without an effect leave the states of the word as they are. -/
theorem inBounds_states (c : Ctx) (bs : List (Nat × Nat × DWord × Word)) : (c.inBounds bs).s = c.s ∧ (c.inBounds bs).s0 = c.s0 := by
  unfold Ctx.inBounds
  split <;> exact ⟨rfl, rfl⟩

/-- A word keeps a property of the storage that its body keeps. -/
theorem StoreSafe.runWordB {s : State} (h : P s) (hd : Head) (us : List Use) (extra : Ctx → List (Nat × Nat × DWord × Word)) (cls : OrdClass)
    (wait : Ctx → Bool) (body : Ctx → State) (hb : ∀ c, P c.s → P c.s0 → P (body c)) : NextWith P (Machine.runWordB hd us extra cls wait body s) := by
  unfold Machine.runWordB
  split
  · exact h
  · rename_i c e
    have hc := hP.ctx h e
    obtain ⟨e1, e0⟩ := inBounds_states c (c.bounds us ++ extra c)
    rw [← e1, ← e0] at hc
    generalize c.inBounds (c.bounds us ++ extra c) = c at hc
    dsimp only
    split
    · exact hc.1
    · split
      · exact hP.raisePrecise h _ _ _ _ _
      · split
        · exact h
        · split
          · exact hP.raiseBad hc.1 hc.2 hb us _
          · exact hb c hc.1 hc.2

theorem StoreSafe.runWord {s : State} (h : P s) (hd : Head) (us : List Use) (cls : OrdClass) (wait : Ctx → Bool) (body : Ctx → State)
    (hb : ∀ c, P c.s → P c.s0 → P (body c)) : NextWith P (Machine.runWord hd us cls wait body s) :=
  hP.runWordB h hd us _ cls wait body hb

/-- Rows taken or asked for keep what the effect keeps. -/
theorem StoreSafe.withRows {c : Ctx} (hs : P c.s) (h0 : P c.s0) (rows quads : Nat) (k : State → State) (hk : ∀ s, P s → P (k s)) : P (c.withRows rows quads k) := by
  unfold Ctx.withRows
  split
  · exact hk _ hs
  · split
    · exact hk _ (hP.dropRequest hs _ _ _ _)
    · exact hP.request h0 _ _ _ _ _ _
end

end Sys2Proof.Machine
end

