-- ==== Sys2Proof/Laws/PerInstr.lean ====
section
/-! SUPPORT. Sys2Proof/Laws/PerInstr.lean: the fields of a word and of each payload format read back as they were packed, and for every
constructor the decoder's reading of its encoded word, before the checks of register classes and modifiers (R196, R197, R202). -/

namespace Sys2Proof

/-! ## Fields of packed words -/

/-- The low part of two bit vectors set side by side. -/
theorem extract_low {m n : Nat} (x : BitVec m) (y : BitVec n) : (x ++ y).extractLsb' 0 n = y := by
  ext i hi
  simp [BitVec.getLsbD_append, hi]

/-- A part of the upper one of two bit vectors set side by side. -/
theorem extract_high {m n : Nat} (x : BitVec m) (y : BitVec n) (s l : Nat) : (x ++ y).extractLsb' (n + s) l = x.extractLsb' s l := by
  ext i hi
  simp only [BitVec.getElem_extractLsb', BitVec.getLsbD_append]
  rw [if_neg (by omega), show n + s + i - n = s + i by omega]

/-- All of a bit vector. -/
theorem extract_all {m : Nat} (x : BitVec m) : x.extractLsb' 0 m = x := by
  ext i
  simp

/-- The fields of a word read back (R196). -/
theorem RawWord.ofWord_toWord (r : RawWord) : RawWord.ofWord r.toWord = r := by
  obtain ⟨c, e, g, s, op, pay⟩ := r
  simp only [RawWord.ofWord, RawWord.mk.injEq]
  exact ⟨((extract_high _ pay 12 1).trans ((extract_high _ op 6 1).trans ((extract_high _ s 5 1).trans ((extract_high _ g 1 1).trans ((extract_high c e 0 1).trans (extract_all c)))))), ((extract_high _ pay 11 1).trans ((extract_high _ op 5 1).trans ((extract_high _ s 4 1).trans ((extract_high _ g 0 1).trans (extract_low c e))))), ((extract_high _ pay 7 4).trans ((extract_high _ op 1 4).trans ((extract_high _ s 0 4).trans (extract_low _ g)))), ((extract_high _ pay 6 1).trans ((extract_high _ op 0 1).trans (extract_low _ s))), ((extract_high _ pay 0 6).trans (extract_low _ op)), (extract_low _ pay)⟩

/-- The fields of a Rrr payload read back (R202). -/
theorem Rrr.ofPay_toPay (p : Rrr) : Rrr.ofPay p.toPay = p := by
  obtain ⟨d, a, b, f⟩ := p
  simp only [Rrr.ofPay, Rrr.mk.injEq]
  exact ⟨((extract_high _ f 10 5).trans ((extract_high _ b 5 5).trans ((extract_high d a 0 5).trans (extract_all d)))),
    ((extract_high _ f 5 5).trans ((extract_high _ b 0 5).trans (extract_low d a))),
    ((extract_high _ f 0 5).trans (extract_low _ b)),
    (extract_low _ f)⟩

/-- The fields of a Rri payload read back (R202). -/
theorem Rri.ofPay_toPay (p : Rri) : Rri.ofPay p.toPay = p := by
  obtain ⟨d, a, f, i⟩ := p
  simp only [Rri.ofPay, Rri.mk.injEq]
  exact ⟨((extract_high _ i 8 5).trans ((extract_high _ f 5 5).trans ((extract_high d a 0 5).trans (extract_all d)))),
    ((extract_high _ i 3 5).trans ((extract_high _ f 0 5).trans (extract_low d a))),
    ((extract_high _ i 0 3).trans (extract_low _ f)),
    (extract_low _ i)⟩

/-- The fields of a Ri payload read back (R202). -/
theorem Ri.ofPay_toPay (p : Ri) : Ri.ofPay p.toPay = p := by
  obtain ⟨d, f, i⟩ := p
  simp only [Ri.ofPay, Ri.mk.injEq]
  exact ⟨((extract_high _ i 2 5).trans ((extract_high d f 0 5).trans (extract_all d))),
    ((extract_high _ i 0 2).trans (extract_low d f)),
    (extract_low _ i)⟩

/-- The fields of a Mem payload read back (R202). -/
theorem Mem.ofPay_toPay (p : Mem) : Mem.ofPay p.toPay = p := by
  obtain ⟨d, j, k, o, z, q⟩ := p
  simp only [Mem.ofPay, Mem.mk.injEq]
  exact ⟨((extract_high _ q 12 5).trans ((extract_high _ z 10 5).trans ((extract_high _ o 5 5).trans ((extract_high _ k 4 5).trans ((extract_high d j 0 5).trans (extract_all d)))))),
    ((extract_high _ q 8 4).trans ((extract_high _ z 6 4).trans ((extract_high _ o 1 4).trans ((extract_high _ k 0 4).trans (extract_low d j))))),
    ((extract_high _ q 7 1).trans ((extract_high _ z 5 1).trans ((extract_high _ o 0 1).trans (extract_low _ k)))),
    ((extract_high _ q 2 5).trans ((extract_high _ z 0 5).trans (extract_low _ o))),
    ((extract_high _ q 0 2).trans (extract_low _ z)),
    (extract_low _ q)⟩

/-- The fields of a Br payload read back (R202). -/
theorem Br.ofPay_toPay (p : Br) : Br.ofPay p.toPay = p := by
  obtain ⟨f, o⟩ := p
  simp only [Br.ofPay, Br.mk.injEq]
  exact ⟨((extract_high f o 0 2).trans (extract_all f)),
    (extract_low f o)⟩

/-- The fields of a Wait payload read back (R202). -/
theorem Wait.ofPay_toPay (p : Wait) : Wait.ofPay p.toPay = p := by
  obtain ⟨l, t, p, k, r⟩ := p
  simp only [Wait.ofPay, Wait.mk.injEq]
  exact ⟨((extract_high _ r 12 4).trans ((extract_high _ k 8 4).trans ((extract_high _ p 4 4).trans ((extract_high l t 0 4).trans (extract_all l))))),
    ((extract_high _ r 8 4).trans ((extract_high _ k 4 4).trans ((extract_high _ p 0 4).trans (extract_low l t)))),
    ((extract_high _ r 4 4).trans ((extract_high _ k 0 4).trans (extract_low _ p))),
    ((extract_high _ r 0 4).trans (extract_low _ k)),
    (extract_low _ r)⟩

/-- The fields of a CallR payload read back (R202). -/
theorem CallR.ofPay_toPay (p : CallR) : CallR.ofPay p.toPay = p := by
  obtain ⟨a, v, n, x, r⟩ := p
  simp only [CallR.ofPay, CallR.mk.injEq]
  exact ⟨((extract_high _ r 12 5).trans ((extract_high _ x 9 5).trans ((extract_high _ n 5 5).trans ((extract_high a v 0 5).trans (extract_all a))))),
    ((extract_high _ r 7 5).trans ((extract_high _ x 4 5).trans ((extract_high _ n 0 5).trans (extract_low a v)))),
    ((extract_high _ r 3 4).trans ((extract_high _ x 0 4).trans (extract_low _ n))),
    ((extract_high _ r 0 3).trans (extract_low _ x)),
    (extract_low _ r)⟩

/-- The fields of a Li payload read back (R202). -/
theorem Li.ofPay_toPay (p : Li) : Li.ofPay p.toPay = p := by
  obtain ⟨d, f, i⟩ := p
  simp only [Li.ofPay, Li.mk.injEq]
  exact ⟨((extract_high _ i 3 5).trans ((extract_high d f 0 5).trans (extract_all d))),
    ((extract_high _ i 0 3).trans (extract_low d f)),
    (extract_low _ i)⟩

/-- The fields of a Jmp payload read back (R202). -/
theorem Jmp.ofPay_toPay (p : Jmp) : Jmp.ofPay p.toPay = p := by
  obtain ⟨o⟩ := p
  simp only [Jmp.ofPay, Jmp.toPay, Jmp.mk.injEq]
  exact extract_all o

/-- The fields of a CallP payload read back (R202). -/
theorem CallP.ofPay_toPay (p : CallP) : CallP.ofPay p.toPay = p := by
  obtain ⟨v, n, x, o⟩ := p
  simp only [CallP.ofPay, CallP.mk.injEq]
  exact ⟨((extract_high _ o 7 5).trans ((extract_high _ x 4 5).trans ((extract_high v n 0 5).trans (extract_all v)))),
    ((extract_high _ o 3 4).trans ((extract_high _ x 0 4).trans (extract_low v n))),
    ((extract_high _ o 0 3).trans (extract_low _ x)),
    (extract_low _ o)⟩

/-- The fields of a At payload read back (R202). -/
theorem At.ofPay_toPay (p : At) : At.ofPay p.toPay = p := by
  obtain ⟨d, a, f, y, q, r⟩ := p
  simp only [At.ofPay, At.mk.injEq]
  exact ⟨((extract_high _ r 15 5).trans ((extract_high _ q 11 5).trans ((extract_high _ y 8 5).trans ((extract_high _ f 5 5).trans ((extract_high d a 0 5).trans (extract_all d)))))),
    ((extract_high _ r 10 5).trans ((extract_high _ q 6 5).trans ((extract_high _ y 3 5).trans ((extract_high _ f 0 5).trans (extract_low d a))))),
    ((extract_high _ r 7 3).trans ((extract_high _ q 3 3).trans ((extract_high _ y 0 3).trans (extract_low _ f)))),
    ((extract_high _ r 4 3).trans ((extract_high _ q 0 3).trans (extract_low _ y))),
    ((extract_high _ r 0 4).trans (extract_low _ q)),
    (extract_low _ r)⟩

/-! ## The major of a packed word -/

/-- The two values of a packed bit. -/
theorem bit1_eq (b : Bool) : decide (bit1 b = 1#1) = b := by cases b <;> rfl
/-- Two parts of a bit vector that meet, joined. -/
theorem extract_join {m : Nat} (x : BitVec m) (s b a : Nat) : x.extractLsb' (s + b) a ++ x.extractLsb' s b = x.extractLsb' s (a + b) := by
  ext i hi
  simp only [BitVec.getElem_append, BitVec.getElem_extractLsb']
  split
  · rfl
  · rw [show s + b + (i - b) = s + i by omega]

/-- The head of a packed short-format word (R197). -/
theorem head_shortWord (h : Head) (op : BitVec 6) (pay : BitVec 19) : (RawWord.ofWord (shortWord h op pay)).head = .ok h := by
  obtain ⟨c, g⟩ := h
  cases g with
  | none => simp [shortWord, RawWord.ofWord_toWord, RawWord.head, bit1_eq]
  | some g =>
    obtain ⟨p, b⟩ := g
    simp [shortWord, RawWord.ofWord_toWord, RawWord.head, bit1_eq]

/-- The major of a packed short-format word. -/
theorem op_shortWord (h : Head) (op : BitVec 6) (pay : BitVec 19) : (RawWord.ofWord (shortWord h op pay)).op = op := by
  obtain ⟨c, g⟩ := h
  cases g <;> simp [shortWord, RawWord.ofWord_toWord]

/-- The payload of a packed short-format word. -/
theorem pay_shortWord (h : Head) (op : BitVec 6) (pay : BitVec 19) : (RawWord.ofWord (shortWord h op pay)).pay = pay := by
  obtain ⟨c, g⟩ := h
  cases g <;> simp [shortWord, RawWord.ofWord_toWord]

/-- The long payload of a packed long-format word (R197). -/
theorem long_longWord (c : Bool) (op : BitVec 6) (l : BitVec 24) : (RawWord.ofWord (longWord c op l)).long = l := by
  simp only [longWord, RawWord.ofWord_toWord, RawWord.long]
  exact (congrArg (fun y => y ++ l.extractLsb' 0 19) (extract_join l 19 1 4)).trans ((extract_join l 0 19 5).trans (extract_all l))

theorem candidate_00 (h : Head) (p : Rrr) : (RawWord.ofWord (shortWord h 0x00 p.toPay)).candidate = decCtl h p := by
  unfold RawWord.candidate
  rw [head_shortWord, op_shortWord, pay_shortWord, Rrr.ofPay_toPay]
  rfl

theorem candidate_01 (h : Head) (p : Wait) : (RawWord.ofWord (shortWord h 0x01 p.toPay)).candidate = decWait h p := by
  unfold RawWord.candidate
  rw [head_shortWord, op_shortWord, pay_shortWord, Wait.ofPay_toPay]
  rfl

theorem candidate_02 (h : Head) (p : Br) : (RawWord.ofWord (shortWord h 0x02 p.toPay)).candidate = decBr h p := by
  unfold RawWord.candidate
  rw [head_shortWord, op_shortWord, pay_shortWord, Br.ofPay_toPay]
  rfl

theorem candidate_03 (c : Bool) (p : Jmp) : (RawWord.ofWord (longWord c 0x03 p.toPay)).candidate = decJmp c p := by
  unfold RawWord.candidate
  rw [long_longWord, Jmp.ofPay_toPay]
  simp [longWord, RawWord.ofWord_toWord, longMajor, bit1_eq]

theorem candidate_04 (h : Head) (p : CallR) : (RawWord.ofWord (shortWord h 0x04 p.toPay)).candidate = decCall h p := by
  unfold RawWord.candidate
  rw [head_shortWord, op_shortWord, pay_shortWord, CallR.ofPay_toPay]
  rfl

theorem candidate_05 (c : Bool) (p : CallP) : (RawWord.ofWord (longWord c 0x05 p.toPay)).candidate = decCallp c p := by
  unfold RawWord.candidate
  rw [long_longWord, CallP.ofPay_toPay]
  simp [longWord, RawWord.ofWord_toWord, longMajor, bit1_eq]

theorem candidate_06 (h : Head) (p : Rri) : (RawWord.ofWord (shortWord h 0x06 p.toPay)).candidate = decRet h p := by
  unfold RawWord.candidate
  rw [head_shortWord, op_shortWord, pay_shortWord, Rri.ofPay_toPay]
  rfl

theorem candidate_07 (h : Head) (p : Rri) : (RawWord.ofWord (shortWord h 0x07 p.toPay)).candidate = decBar h p := by
  unfold RawWord.candidate
  rw [head_shortWord, op_shortWord, pay_shortWord, Rri.ofPay_toPay]
  rfl

theorem candidate_08 (h : Head) (p : Rrr) : (RawWord.ofWord (shortWord h 0x08 p.toPay)).candidate = decVote h p := by
  unfold RawWord.candidate
  rw [head_shortWord, op_shortWord, pay_shortWord, Rrr.ofPay_toPay]
  rfl

theorem candidate_09 (h : Head) (p : Rri) : (RawWord.ofWord (shortWord h 0x09 p.toPay)).candidate = decGrp h p := by
  unfold RawWord.candidate
  rw [head_shortWord, op_shortWord, pay_shortWord, Rri.ofPay_toPay]
  rfl

theorem candidate_0a (h : Head) (p : Rrr) : (RawWord.ofWord (shortWord h 0x0a p.toPay)).candidate = decVi h p := by
  unfold RawWord.candidate
  rw [head_shortWord, op_shortWord, pay_shortWord, Rrr.ofPay_toPay]
  rfl

theorem candidate_0b (h : Head) (p : Rri) : (RawWord.ofWord (shortWord h 0x0b p.toPay)).candidate = decVii h p := by
  unfold RawWord.candidate
  rw [head_shortWord, op_shortWord, pay_shortWord, Rri.ofPay_toPay]
  rfl

theorem candidate_0c (h : Head) (p : Rrr) : (RawWord.ofWord (shortWord h 0x0c p.toPay)).candidate = decVm h p := by
  unfold RawWord.candidate
  rw [head_shortWord, op_shortWord, pay_shortWord, Rrr.ofPay_toPay]
  rfl

theorem candidate_0d (h : Head) (p : Rrr) : (RawWord.ofWord (shortWord h 0x0d p.toPay)).candidate = decVc h p := by
  unfold RawWord.candidate
  rw [head_shortWord, op_shortWord, pay_shortWord, Rrr.ofPay_toPay]
  rfl

theorem candidate_0e (h : Head) (p : Rrr) : (RawWord.ofWord (shortWord h 0x0e p.toPay)).candidate = decVp h p := by
  unfold RawWord.candidate
  rw [head_shortWord, op_shortWord, pay_shortWord, Rrr.ofPay_toPay]
  rfl

theorem candidate_0f (h : Head) (p : Rrr) : (RawWord.ofWord (shortWord h 0x0f p.toPay)).candidate = decVx h p := by
  unfold RawWord.candidate
  rw [head_shortWord, op_shortWord, pay_shortWord, Rrr.ofPay_toPay]
  rfl

theorem candidate_10 (h : Head) (p : Rrr) : (RawWord.ofWord (shortWord h 0x10 p.toPay)).candidate = decSi h p := by
  unfold RawWord.candidate
  rw [head_shortWord, op_shortWord, pay_shortWord, Rrr.ofPay_toPay]
  rfl

theorem candidate_11 (h : Head) (p : Rri) : (RawWord.ofWord (shortWord h 0x11 p.toPay)).candidate = decSii h p := by
  unfold RawWord.candidate
  rw [head_shortWord, op_shortWord, pay_shortWord, Rri.ofPay_toPay]
  rfl

theorem candidate_12 (c : Bool) (p : Li) : (RawWord.ofWord (longWord c 0x12 p.toPay)).candidate = decSli c p := by
  unfold RawWord.candidate
  rw [long_longWord, Li.ofPay_toPay]
  simp [longWord, RawWord.ofWord_toWord, longMajor, bit1_eq]

theorem candidate_13 (h : Head) (p : Rrr) : (RawWord.ofWord (shortWord h 0x13 p.toPay)).candidate = decSc h p := by
  unfold RawWord.candidate
  rw [head_shortWord, op_shortWord, pay_shortWord, Rrr.ofPay_toPay]
  rfl

theorem candidate_14 (h : Head) (p : Ri) : (RawWord.ofWord (shortWord h 0x14 p.toPay)).candidate = decSr h p := by
  unfold RawWord.candidate
  rw [head_shortWord, op_shortWord, pay_shortWord, Ri.ofPay_toPay]
  rfl

theorem candidate_15 (h : Head) (p : Rrr) : (RawWord.ofWord (shortWord h 0x15 p.toPay)).candidate = decAd h p := by
  unfold RawWord.candidate
  rw [head_shortWord, op_shortWord, pay_shortWord, Rrr.ofPay_toPay]
  rfl

theorem candidate_16 (h : Head) (p : Rrr) : (RawWord.ofWord (shortWord h 0x16 p.toPay)).candidate = decVf32 h p := by
  unfold RawWord.candidate
  rw [head_shortWord, op_shortWord, pay_shortWord, Rrr.ofPay_toPay]
  rfl

theorem candidate_17 (h : Head) (p : Rrr) : (RawWord.ofWord (shortWord h 0x17 p.toPay)).candidate = decVf16 h p := by
  unfold RawWord.candidate
  rw [head_shortWord, op_shortWord, pay_shortWord, Rrr.ofPay_toPay]
  rfl

theorem candidate_18 (h : Head) (p : Rrr) : (RawWord.ofWord (shortWord h 0x18 p.toPay)).candidate = decVfx h p := by
  unfold RawWord.candidate
  rw [head_shortWord, op_shortWord, pay_shortWord, Rrr.ofPay_toPay]
  rfl

theorem candidate_19 (h : Head) (p : Rrr) : (RawWord.ofWord (shortWord h 0x19 p.toPay)).candidate = decVcv h p := by
  unfold RawWord.candidate
  rw [head_shortWord, op_shortWord, pay_shortWord, Rrr.ofPay_toPay]
  rfl

theorem candidate_1a (h : Head) (p : Rrr) : (RawWord.ofWord (shortWord h 0x1a p.toPay)).candidate = decVfc h p := by
  unfold RawWord.candidate
  rw [head_shortWord, op_shortWord, pay_shortWord, Rrr.ofPay_toPay]
  rfl

theorem candidate_1b (h : Head) (p : Rrr) : (RawWord.ofWord (shortWord h 0x1b p.toPay)).candidate = decVq h p := by
  unfold RawWord.candidate
  rw [head_shortWord, op_shortWord, pay_shortWord, Rrr.ofPay_toPay]
  rfl

theorem candidate_1c (h : Head) (p : Rrr) : (RawWord.ofWord (shortWord h 0x1c p.toPay)).candidate = decShp h p := by
  unfold RawWord.candidate
  rw [head_shortWord, op_shortWord, pay_shortWord, Rrr.ofPay_toPay]
  rfl

theorem candidate_1d (h : Head) (p : Mem) : (RawWord.ofWord (shortWord h 0x1d p.toPay)).candidate = decLd h p := by
  unfold RawWord.candidate
  rw [head_shortWord, op_shortWord, pay_shortWord, Mem.ofPay_toPay]
  rfl

theorem candidate_1e (h : Head) (p : Mem) : (RawWord.ofWord (shortWord h 0x1e p.toPay)).candidate = decSt h p := by
  unfold RawWord.candidate
  rw [head_shortWord, op_shortWord, pay_shortWord, Mem.ofPay_toPay]
  rfl

theorem candidate_1f (h : Head) (p : Mem) : (RawWord.ofWord (shortWord h 0x1f p.toPay)).candidate = decLdu h p := by
  unfold RawWord.candidate
  rw [head_shortWord, op_shortWord, pay_shortWord, Mem.ofPay_toPay]
  rfl

theorem candidate_20 (h : Head) (p : Mem) : (RawWord.ofWord (shortWord h 0x20 p.toPay)).candidate = decStu h p := by
  unfold RawWord.candidate
  rw [head_shortWord, op_shortWord, pay_shortWord, Mem.ofPay_toPay]
  rfl

theorem candidate_21 (c : Bool) (p : At) : (RawWord.ofWord (longWord c 0x21 p.toPay)).candidate = decAtm c p := by
  unfold RawWord.candidate
  rw [long_longWord, At.ofPay_toPay]
  simp [longWord, RawWord.ofWord_toWord, longMajor, bit1_eq]

theorem candidate_22 (h : Head) (p : Ri) : (RawWord.ofWord (shortWord h 0x22 p.toPay)).candidate = decFence h p := by
  unfold RawWord.candidate
  rw [head_shortWord, op_shortWord, pay_shortWord, Ri.ofPay_toPay]
  rfl

theorem candidate_23 (h : Head) (p : Rri) : (RawWord.ofWord (shortWord h 0x23 p.toPay)).candidate = decLds h p := by
  unfold RawWord.candidate
  rw [head_shortWord, op_shortWord, pay_shortWord, Rri.ofPay_toPay]
  rfl

theorem candidate_24 (h : Head) (p : Rri) : (RawWord.ofWord (shortWord h 0x24 p.toPay)).candidate = decSts h p := by
  unfold RawWord.candidate
  rw [head_shortWord, op_shortWord, pay_shortWord, Rri.ofPay_toPay]
  rfl

theorem candidate_25 (h : Head) (p : Rrr) : (RawWord.ofWord (shortWord h 0x25 p.toPay)).candidate = decStag h p := by
  unfold RawWord.candidate
  rw [head_shortWord, op_shortWord, pay_shortWord, Rrr.ofPay_toPay]
  rfl

theorem candidate_26 (h : Head) (p : Rri) : (RawWord.ofWord (shortWord h 0x26 p.toPay)).candidate = decCb h p := by
  unfold RawWord.candidate
  rw [head_shortWord, op_shortWord, pay_shortWord, Rri.ofPay_toPay]
  rfl

theorem candidate_27 (h : Head) (p : Rrr) : (RawWord.ofWord (shortWord h 0x27 p.toPay)).candidate = decCp h p := by
  unfold RawWord.candidate
  rw [head_shortWord, op_shortWord, pay_shortWord, Rrr.ofPay_toPay]
  rfl

theorem candidate_28 (h : Head) (p : Rrr) : (RawWord.ofWord (shortWord h 0x28 p.toPay)).candidate = decWta h p := by
  unfold RawWord.candidate
  rw [head_shortWord, op_shortWord, pay_shortWord, Rrr.ofPay_toPay]
  rfl

theorem candidate_29 (h : Head) (p : Rrr) : (RawWord.ofWord (shortWord h 0x29 p.toPay)).candidate = decTcfg h p := by
  unfold RawWord.candidate
  rw [head_shortWord, op_shortWord, pay_shortWord, Rrr.ofPay_toPay]
  rfl

theorem candidate_2a (h : Head) (p : Mem) : (RawWord.ofWord (shortWord h 0x2a p.toPay)).candidate = decTld h p := by
  unfold RawWord.candidate
  rw [head_shortWord, op_shortWord, pay_shortWord, Mem.ofPay_toPay]
  rfl

theorem candidate_2b (h : Head) (p : Mem) : (RawWord.ofWord (shortWord h 0x2b p.toPay)).candidate = decTst h p := by
  unfold RawWord.candidate
  rw [head_shortWord, op_shortWord, pay_shortWord, Mem.ofPay_toPay]
  rfl

theorem candidate_2c (h : Head) (p : Rrr) : (RawWord.ofWord (shortWord h 0x2c p.toPay)).candidate = decMma h p := by
  unfold RawWord.candidate
  rw [head_shortWord, op_shortWord, pay_shortWord, Rrr.ofPay_toPay]
  rfl

theorem candidate_2d (h : Head) (p : Rrr) : (RawWord.ofWord (shortWord h 0x2d p.toPay)).candidate = decMx h p := by
  unfold RawWord.candidate
  rw [head_shortWord, op_shortWord, pay_shortWord, Rrr.ofPay_toPay]
  rfl

theorem candidate_2e (h : Head) (p : Rrr) : (RawWord.ofWord (shortWord h 0x2e p.toPay)).candidate = decAcc h p := by
  unfold RawWord.candidate
  rw [head_shortWord, op_shortWord, pay_shortWord, Rrr.ofPay_toPay]
  rfl

theorem candidate_2f (h : Head) (p : Rrr) : (RawWord.ofWord (shortWord h 0x2f p.toPay)).candidate = decLnch h p := by
  unfold RawWord.candidate
  rw [head_shortWord, op_shortWord, pay_shortWord, Rrr.ofPay_toPay]
  rfl

theorem candidate_30 (h : Head) (p : Ri) : (RawWord.ofWord (shortWord h 0x30 p.toPay)).candidate = decPwr h p := by
  unfold RawWord.candidate
  rw [head_shortWord, op_shortWord, pay_shortWord, Ri.ofPay_toPay]
  rfl

theorem candidate_31 (h : Head) (p : Rrr) : (RawWord.ofWord (shortWord h 0x31 p.toPay)).candidate = decTm h p := by
  unfold RawWord.candidate
  rw [head_shortWord, op_shortWord, pay_shortWord, Rrr.ofPay_toPay]
  rfl

theorem candidate_32 (h : Head) (p : Ri) : (RawWord.ofWord (shortWord h 0x32 p.toPay)).candidate = decDbg h p := by
  unfold RawWord.candidate
  rw [head_shortWord, op_shortWord, pay_shortWord, Ri.ofPay_toPay]
  rfl

theorem candidate_33 (h : Head) (p : Rrr) : (RawWord.ofWord (shortWord h 0x33 p.toPay)).candidate = decSys h p := by
  unfold RawWord.candidate
  rw [head_shortWord, op_shortWord, pay_shortWord, Rrr.ofPay_toPay]
  rfl

/-! ## One lemma for each constructor -/

/-- An instruction's encoded word spells it. -/
def Laws.RoundTrip.Statement (i : Instr) : Prop := ∀ w, encode i = some w → (RawWord.ofWord w).candidate = .ok i

namespace Laws.RoundTrip

theorem illegalPacket (addr : DWord) (slot : Nat) (kind : Nat) : Statement (.illegalPacket addr slot kind) := by
  intro w hw
  cases hw
theorem breakpointStop : Statement (.breakpointStop) := by
  intro w hw
  cases hw
theorem sfDrain (core : Nat) (slot : Nat) : Statement (.sfDrain core slot) := by
  intro w hw
  cases hw
theorem propagate (core : Nat) (idx : Nat) : Statement (.propagate core idx) := by
  intro w hw
  cases hw
theorem loadPresent (core : Nat) (slot : Nat) (op : Nat) (elem : Nat) : Statement (.loadPresent core slot op elem) := by
  intro w hw
  cases hw
theorem loadBind (core : Nat) (slot : Nat) (op : Nat) (elem : Nat) : Statement (.loadBind core slot op elem) := by
  intro w hw
  cases hw
theorem atomicPerform (core : Nat) (slot : Nat) : Statement (.atomicPerform core slot) := by
  intro w hw
  cases hw
theorem tileStoreRowEnter (core : Nat) (slot : Nat × Nat) : Statement (.tileStoreRowEnter core slot) := by
  intro w hw
  cases hw
theorem copyTake (core : Nat) : Statement (.copyTake core) := by
  intro w hw
  cases hw
theorem copyComplete (core : Nat) (idx : Nat) (units : Nat) : Statement (.copyComplete core idx units) := by
  intro w hw
  cases hw
theorem matrixOpComplete (core : Nat) : Statement (.matrixOpComplete core) := by
  intro w hw
  cases hw
theorem barrierArrival (core : Nat) (slot : Nat) (bar : Nat × Option (Word × Nat × Half)) : Statement (.barrierArrival core slot bar) := by
  intro w hw
  cases hw
theorem regroup (grid : Word) (team : Nat) : Statement (.regroup grid team) := by
  intro w hw
  cases hw
theorem granuleGrant (core : Nat) : Statement (.granuleGrant core) := by
  intro w hw
  cases hw
theorem tagQuadGrant (core : Nat) : Statement (.tagQuadGrant core) := by
  intro w hw
  cases hw
theorem escapeSpill (core : Nat × BitVec 64) : Statement (.escapeSpill core) := by
  intro w hw
  cases hw
theorem refillComplete (core : Nat) (slot : Nat) (frame : Nat) (reg : Nat × BitVec 64 × BitVec 64) : Statement (.refillComplete core slot frame reg) := by
  intro w hw
  cases hw
theorem wtaWake (core : Nat) (slot : Nat) (lane : Nat) : Statement (.wtaWake core slot lane) := by
  intro w hw
  cases hw
theorem wtaPoll (core : Nat) (slot : Nat) (lane : Nat) : Statement (.wtaPoll core slot lane) := by
  intro w hw
  cases hw
theorem wtaTimeout (core : Nat) (slot : Nat) (lane : Nat) : Statement (.wtaTimeout core slot lane) := by
  intro w hw
  cases hw
theorem timeWaitExpiry (core : Nat) (slot : Nat) (lane : Nat) : Statement (.timeWaitExpiry core slot lane) := by
  intro w hw
  cases hw
theorem trialDelayEnd (core : Nat) (slot : Nat) : Statement (.trialDelayEnd core slot) := by
  intro w hw
  cases hw
theorem deferredFaultRaise (core : Nat) (slot : Nat) (lane : Nat) : Statement (.deferredFaultRaise core slot lane) := by
  intro w hw
  cases hw
theorem trapHandlerEntry (core : Nat) (slot : Nat) : Statement (.trapHandlerEntry core slot) := by
  intro w hw
  cases hw
theorem accessViolation (master : Nat) (pa : Nat) (kind : BitVec 3) (grid : Word) : Statement (.accessViolation master pa kind grid) := by
  intro w hw
  cases hw
theorem scrubRead (pa : Nat) : Statement (.scrubRead pa) := by
  intro w hw
  cases hw
theorem watchdogExpiry (grid : Word) (team : Nat) : Statement (.watchdogExpiry grid team) := by
  intro w hw
  cases hw
theorem launchAccept : Statement (.launchAccept) := by
  intro w hw
  cases hw
theorem teamDispatch (die : Nat) (grid : Word) : Statement (.teamDispatch die grid) := by
  intro w hw
  cases hw
theorem allotmentGrant (die : Nat) (grid : Word) : Statement (.allotmentGrant die grid) := by
  intro w hw
  cases hw
theorem allotmentArrival (die : Nat) (grid : Word) (lo : Nat) (len : Nat) : Statement (.allotmentArrival die grid lo len) := by
  intro w hw
  cases hw
theorem gridComplete (grid : Word) : Statement (.gridComplete grid) := by
  intro w hw
  cases hw
theorem classRequestArrival (die : Nat × Option (Word × Nat)) : Statement (.classRequestArrival die) := by
  intro w hw
  cases hw
theorem nodeSignal : Statement (.nodeSignal) := by
  intro w hw
  cases hw
theorem waitTimeExpiry (idx : Nat) : Statement (.waitTimeExpiry idx) := by
  intro w hw
  cases hw
theorem prefetchCopyComplete (idx : Nat) (copy : Nat) : Statement (.prefetchCopyComplete idx copy) := by
  intro w hw
  cases hw
theorem podLaunchKey (issuer : Nat) (seq : Nat) (fn : Nat) (queue : Nat) (rec : List Byte) : Statement (.podLaunchKey issuer seq fn queue rec) := by
  intro w hw
  cases hw
theorem podLaunchReceive (start : DWord) (issuer : Nat) (seq : Nat) (fn : Nat) (queue : Nat) (rec : List Byte) : Statement (.podLaunchReceive start issuer seq fn queue rec) := by
  intro w hw
  cases hw
theorem podLaunchRelease : Statement (.podLaunchRelease) := by
  intro w hw
  cases hw
theorem podPartReport (grid : Word × Option Nat) : Statement (.podPartReport grid) := by
  intro w hw
  cases hw
theorem podCompletion (grid : Word) : Statement (.podCompletion grid) := by
  intro w hw
  cases hw
theorem cancelRequest (grid : Word) (cause : BitVec 8) : Statement (.cancelRequest grid cause) := by
  intro w hw
  cases hw
theorem cancelReceive (grid : Word) (cause : BitVec 8) : Statement (.cancelReceive grid cause) := by
  intro w hw
  cases hw
theorem cancelReport (grid : Word × Option (Nat × Nat)) : Statement (.cancelReport grid) := by
  intro w hw
  cases hw
theorem cancelSummary (grid : Word) : Statement (.cancelSummary grid) := by
  intro w hw
  cases hw
theorem sliceBoundary : Statement (.sliceBoundary) := by
  intro w hw
  cases hw
theorem budgetPeriod : Statement (.budgetPeriod) := by
  intro w hw
  cases hw
theorem queueDeschedule (fn : Nat) (q : Nat) (charge : Word) : Statement (.queueDeschedule fn q charge) := by
  intro w hw
  cases hw
theorem eviction (grid : Word) (team : Nat) (blk : DWord) : Statement (.eviction grid team blk) := by
  intro w hw
  cases hw
theorem wakeCheck (idx : Nat) : Statement (.wakeCheck idx) := by
  intro w hw
  cases hw
theorem restore (idx : Nat) (core : Nat) : Statement (.restore idx core) := by
  intro w hw
  cases hw
theorem powerPeriod (draw : BitVec 16) : Statement (.powerPeriod draw) := by
  intro w hw
  cases hw
theorem poolMoveComplete (cluster : Nat) : Statement (.poolMoveComplete cluster) := by
  intro w hw
  cases hw
theorem byteBudgetInterval (grants : List (BitVec 24)) : Statement (.byteBudgetInterval grants) := by
  intro w hw
  cases hw
theorem clusterIdle (cluster : Nat) : Statement (.clusterIdle cluster) := by
  intro w hw
  cases hw
theorem slewAdmissionWindow : Statement (.slewAdmissionWindow) := by
  intro w hw
  cases hw
theorem thermalTrip : Statement (.thermalTrip) := by
  intro w hw
  cases hw
theorem syncMessage (offs : Int) : Statement (.syncMessage offs) := by
  intro w hw
  cases hw
theorem syncTimeout : Statement (.syncTimeout) := by
  intro w hw
  cases hw
theorem podFormation (dev : Nat) (members : BitVec 128) (rootTime : DWord) : Statement (.podFormation dev members rootTime) := by
  intro w hw
  cases hw
theorem flitReplay (port : Nat) : Statement (.flitReplay port) := by
  intro w hw
  cases hw
theorem portDown (port : Nat) (lost : List Nat) : Statement (.portDown port lost) := by
  intro w hw
  cases hw
theorem bridgeReplayFail : Statement (.bridgeReplayFail) := by
  intro w hw
  cases hw
theorem firmwareBoot (err : BitVec 8) (version : Word) : Statement (.firmwareBoot err version) := by
  intro w hw
  cases hw
theorem functionReady (fn : Nat × List (Nat × Nat)) : Statement (.functionReady fn) := by
  intro w hw
  cases hw
theorem firmwareCoreFail (fn : Nat) : Statement (.firmwareCoreFail fn) := by
  intro w hw
  cases hw
theorem ctxset (fn : Nat) (q : Nat) : Statement (.ctxset fn q) := by
  intro w hw
  cases hw
theorem launch (fn : Nat) (q : Nat) : Statement (.launch fn q) := by
  intro w hw
  cases hw
theorem trigger (fn : Nat) (q : Nat) : Statement (.trigger fn q) := by
  intro w hw
  cases hw
theorem cancel (fn : Nat) (q : Nat) : Statement (.cancel fn q) := by
  intro w hw
  cases hw
theorem waitev (fn : Nat) (q : Nat) : Statement (.waitev fn q) := by
  intro w hw
  cases hw
theorem waitevSatisfied (fn : Nat) (q : Nat) : Statement (.waitevSatisfied fn q) := by
  intro w hw
  cases hw
theorem signal (fn : Nat) (q : Nat) : Statement (.signal fn q) := by
  intro w hw
  cases hw
theorem signalStore (fn : Nat) (q : Nat) : Statement (.signalStore fn q) := by
  intro w hw
  cases hw
theorem tvtset (fn : Nat) (q : Nat) : Statement (.tvtset fn q) := by
  intro w hw
  cases hw
theorem cinv (fn : Nat) (q : Nat) : Statement (.cinv fn q) := by
  intro w hw
  cases hw
theorem qtailWrite (fn : Nat) (q : Nat) (v : Word) : Statement (.qtailWrite fn q v) := by
  intro w hw
  cases hw
theorem qclrClearFault (fn : Nat) (q : Nat) : Statement (.qclrClearFault fn q) := by
  intro w hw
  cases hw
theorem qclrRestart (fn : Nat) (q : Nat) : Statement (.qclrRestart fn q) := by
  intro w hw
  cases hw
theorem censctlClearDiff (fn : Nat) : Statement (.censctlClearDiff fn) := by
  intro w hw
  cases hw
theorem censctlChk (fn : Nat) : Statement (.censctlChk fn) := by
  intro w hw
  cases hw
theorem trialctlWrite (fn : Nat) (v : DWord) : Statement (.trialctlWrite fn v) := by
  intro w hw
  cases hw
theorem dstopStop (core : Nat) (parts : BitVec 8) : Statement (.dstopStop core parts) := by
  intro w hw
  cases hw
theorem dstopResume (core : Nat) (parts : BitVec 8) : Statement (.dstopResume core parts) := by
  intro w hw
  cases hw
theorem dumpaWrite (core : Nat) (v : DWord) : Statement (.dumpaWrite core v) := by
  intro w hw
  cases hw
theorem dumpComplete (core : Nat) : Statement (.dumpComplete core) := by
  intro w hw
  cases hw
theorem merrcntWrite (fn : Nat) : Statement (.merrcntWrite fn) := by
  intro w hw
  cases hw
theorem accctlWrite (id : BitVec 8) : Statement (.accctlWrite id) := by
  intro w hw
  cases hw
theorem fwcmdRun (len : Word) (err : BitVec 8) (version : Word) : Statement (.fwcmdRun len err version) := by
  intro w hw
  cases hw
theorem fwcmdFlash (len : Word) (err : BitVec 8) (version : Word) : Statement (.fwcmdFlash len err version) := by
  intro w hw
  cases hw
theorem registerWrite (fn : Nat) (off : Nat) (v : DWord) : Statement (.registerWrite fn off v) := by
  intro w hw
  cases hw
theorem illegalWord (addr : DWord) (w : Word) : Statement (.illegalWord addr w) := by
  intro w hw
  cases hw
theorem fetchFault (code : BitVec 8) (addr : DWord) (detail : Word) : Statement (.fetchFault code addr detail) := by
  intro w hw
  cases hw
theorem translationComplete (core : Nat) (slot : Nat) (entry : Nat) (lanes : BitVec 64) : Statement (.translationComplete core slot entry lanes) := by
  intro w hw
  cases hw
theorem hostWrite (addr : Nat) (bytes : List Byte) : Statement (.hostWrite addr bytes) := by
  intro w hw
  cases hw
theorem launchStartRelease (grid : Word) : Statement (.launchStartRelease grid) := by
  intro w hw
  cases hw
theorem reservedCommandEntry (fn : Nat) (q : Nat) : Statement (.reservedCommandEntry fn q) := by
  intro w hw
  cases hw
theorem portRetraining (port : Nat) (up : Bool) (peer : BitVec 8) (pport : BitVec 8) : Statement (.portRetraining port up peer pport) := by
  intro w hw
  cases hw
theorem nop (h : Head) : Statement (.nop h) := by
  intro w hw
  cases hw
  rw [candidate_00]
  rfl
theorem ctlExit (h : Head) : Statement (.ctlExit h) := by
  intro w hw
  cases hw
  rw [candidate_00]
  rfl
theorem ctlJr (h : Head) (a : BitVec 5) : Statement (.ctlJr h a) := by
  intro w hw
  cases hw
  rw [candidate_00]
  rfl
theorem ctlPc (h : Head) (d : BitVec 5) : Statement (.ctlPc h d) := by
  intro w hw
  cases hw
  rw [candidate_00]
  rfl
theorem wait (h : Head) (l : BitVec 4) (t : BitVec 4) (p : BitVec 4) (k : BitVec 4) : Statement (.wait h l t p k) := by
  intro w hw
  cases hw
  rw [candidate_01]
  rfl
theorem brLane (h : Head) (o : BitVec 17) : Statement (.brLane h o) := by
  intro w hw
  cases hw
  rw [candidate_02]
  rfl
theorem brAll (h : Head) (o : BitVec 17) : Statement (.brAll h o) := by
  intro w hw
  cases hw
  rw [candidate_02]
  rfl
theorem brAny (h : Head) (o : BitVec 17) : Statement (.brAny h o) := by
  intro w hw
  cases hw
  rw [candidate_02]
  rfl
theorem jmp (c : Bool) (o : BitVec 24) : Statement (.jmp c o) := by
  intro w hw
  cases hw
  rw [candidate_03]
  rfl
theorem call (h : Head) (a : BitVec 5) (v : BitVec 5) (n : BitVec 4) (x : BitVec 3) : Statement (.call h a v n x) := by
  intro w hw
  cases hw
  rw [candidate_04]
  rfl
theorem callp (c : Bool) (v : BitVec 5) (n : BitVec 4) (x : BitVec 3) (o : BitVec 12) : Statement (.callp c v n x o) := by
  intro w hw
  cases hw
  rw [candidate_05]
  rfl
theorem retPop (h : Head) (i : BitVec 6) : Statement (.retPop h i) := by
  intro w hw
  cases hw
  rw [candidate_06]
  rfl
theorem retUnwind (h : Head) (d : BitVec 5) (i : BitVec 6) : Statement (.retUnwind h d i) := by
  intro w hw
  cases hw
  rw [candidate_06]
  rfl
theorem retUnwindr (h : Head) (a : BitVec 5) (i : BitVec 6) : Statement (.retUnwindr h a i) := by
  intro w hw
  cases hw
  rw [candidate_06]
  rfl
theorem barTeam (h : Head) : Statement (.barTeam h) := by
  intro w hw
  cases hw
  rw [candidate_07]
  rfl
theorem barTwin (h : Head) : Statement (.barTwin h) := by
  intro w hw
  cases hw
  rw [candidate_07]
  rfl
theorem barNwait (h : Head) (a : BitVec 5) (n : BitVec 4) : Statement (.barNwait h a n) := by
  intro w hw
  cases hw
  rw [candidate_07]
  have h1 : BitVec.extractLsb' (n := 6) 4 2 (0#2 ++ n) = 0#2 := (extract_high 0#2 n 0 2).trans (extract_all 0#2)
  have h2 : BitVec.extractLsb' (n := 6) 0 4 (0#2 ++ n) = n := extract_low 0#2 n
  simp [decBar, named, h1, h2]
theorem barNarrive (h : Head) (a : BitVec 5) (n : BitVec 4) : Statement (.barNarrive h a n) := by
  intro w hw
  cases hw
  rw [candidate_07]
  have h1 : BitVec.extractLsb' (n := 6) 4 2 (0#2 ++ n) = 0#2 := (extract_high 0#2 n 0 2).trans (extract_all 0#2)
  have h2 : BitVec.extractLsb' (n := 6) 0 4 (0#2 ++ n) = n := extract_low 0#2 n
  simp [decBar, named, h1, h2]
theorem barGrid (h : Head) : Statement (.barGrid h) := by
  intro w hw
  cases hw
  rw [candidate_07]
  rfl
theorem voteBallot (h : Head) (d : BitVec 5) (a : BitVec 5) : Statement (.voteBallot h d a) := by
  intro w hw
  cases hw
  rw [candidate_08]
  rfl
theorem voteAny (h : Head) (d : BitVec 5) (a : BitVec 5) : Statement (.voteAny h d a) := by
  intro w hw
  cases hw
  rw [candidate_08]
  rfl
theorem voteAll (h : Head) (d : BitVec 5) (a : BitVec 5) : Statement (.voteAll h d a) := by
  intro w hw
  cases hw
  rw [candidate_08]
  rfl
theorem votePopc (h : Head) (d : BitVec 5) (a : BitVec 5) : Statement (.votePopc h d a) := by
  intro w hw
  cases hw
  rw [candidate_08]
  rfl
theorem voteFirst (h : Head) (d : BitVec 5) (a : BitVec 5) : Statement (.voteFirst h d a) := by
  intro w hw
  cases hw
  rw [candidate_08]
  rfl
theorem votePeers (h : Head) (d : BitVec 5) (a : BitVec 5) : Statement (.votePeers h d a) := by
  intro w hw
  cases hw
  rw [candidate_08]
  rfl
theorem voteRank (h : Head) (d : BitVec 5) (a : BitVec 5) : Statement (.voteRank h d a) := by
  intro w hw
  cases hw
  rw [candidate_08]
  rfl
theorem voteAct (h : Head) (d : BitVec 5) : Statement (.voteAct h d) := by
  intro w hw
  cases hw
  rw [candidate_08]
  rfl
theorem grpSort (h : Head) (d : BitVec 5) (i : BitVec 6) : Statement (.grpSort h d i) := by
  intro w hw
  cases hw
  rw [candidate_09]
  rfl
theorem viAdd (h : Head) (d : BitVec 5) (a : BitVec 5) (b : BitVec 5) : Statement (.viAdd h d a b) := by
  intro w hw
  cases hw
  rw [candidate_0a]
  rfl
theorem viSub (h : Head) (d : BitVec 5) (a : BitVec 5) (b : BitVec 5) : Statement (.viSub h d a b) := by
  intro w hw
  cases hw
  rw [candidate_0a]
  rfl
theorem viMul (h : Head) (d : BitVec 5) (a : BitVec 5) (b : BitVec 5) : Statement (.viMul h d a b) := by
  intro w hw
  cases hw
  rw [candidate_0a]
  rfl
theorem viMulhs (h : Head) (d : BitVec 5) (a : BitVec 5) (b : BitVec 5) : Statement (.viMulhs h d a b) := by
  intro w hw
  cases hw
  rw [candidate_0a]
  rfl
theorem viMulhu (h : Head) (d : BitVec 5) (a : BitVec 5) (b : BitVec 5) : Statement (.viMulhu h d a b) := by
  intro w hw
  cases hw
  rw [candidate_0a]
  rfl
theorem viAnd (h : Head) (d : BitVec 5) (a : BitVec 5) (b : BitVec 5) : Statement (.viAnd h d a b) := by
  intro w hw
  cases hw
  rw [candidate_0a]
  rfl
theorem viOr (h : Head) (d : BitVec 5) (a : BitVec 5) (b : BitVec 5) : Statement (.viOr h d a b) := by
  intro w hw
  cases hw
  rw [candidate_0a]
  rfl
theorem viXor (h : Head) (d : BitVec 5) (a : BitVec 5) (b : BitVec 5) : Statement (.viXor h d a b) := by
  intro w hw
  cases hw
  rw [candidate_0a]
  rfl
theorem viShl (h : Head) (d : BitVec 5) (a : BitVec 5) (b : BitVec 5) : Statement (.viShl h d a b) := by
  intro w hw
  cases hw
  rw [candidate_0a]
  rfl
theorem viShr (h : Head) (d : BitVec 5) (a : BitVec 5) (b : BitVec 5) : Statement (.viShr h d a b) := by
  intro w hw
  cases hw
  rw [candidate_0a]
  rfl
theorem viSra (h : Head) (d : BitVec 5) (a : BitVec 5) (b : BitVec 5) : Statement (.viSra h d a b) := by
  intro w hw
  cases hw
  rw [candidate_0a]
  rfl
theorem viMin (h : Head) (d : BitVec 5) (a : BitVec 5) (b : BitVec 5) : Statement (.viMin h d a b) := by
  intro w hw
  cases hw
  rw [candidate_0a]
  rfl
theorem viMax (h : Head) (d : BitVec 5) (a : BitVec 5) (b : BitVec 5) : Statement (.viMax h d a b) := by
  intro w hw
  cases hw
  rw [candidate_0a]
  rfl
theorem viMinu (h : Head) (d : BitVec 5) (a : BitVec 5) (b : BitVec 5) : Statement (.viMinu h d a b) := by
  intro w hw
  cases hw
  rw [candidate_0a]
  rfl
theorem viMaxu (h : Head) (d : BitVec 5) (a : BitVec 5) (b : BitVec 5) : Statement (.viMaxu h d a b) := by
  intro w hw
  cases hw
  rw [candidate_0a]
  rfl
theorem viAndn (h : Head) (d : BitVec 5) (a : BitVec 5) (b : BitVec 5) : Statement (.viAndn h d a b) := by
  intro w hw
  cases hw
  rw [candidate_0a]
  rfl
theorem siAdd (h : Head) (d : BitVec 5) (a : BitVec 5) (b : BitVec 5) : Statement (.siAdd h d a b) := by
  intro w hw
  cases hw
  rw [candidate_10]
  rfl
theorem siSub (h : Head) (d : BitVec 5) (a : BitVec 5) (b : BitVec 5) : Statement (.siSub h d a b) := by
  intro w hw
  cases hw
  rw [candidate_10]
  rfl
theorem siMul (h : Head) (d : BitVec 5) (a : BitVec 5) (b : BitVec 5) : Statement (.siMul h d a b) := by
  intro w hw
  cases hw
  rw [candidate_10]
  rfl
theorem siMulhs (h : Head) (d : BitVec 5) (a : BitVec 5) (b : BitVec 5) : Statement (.siMulhs h d a b) := by
  intro w hw
  cases hw
  rw [candidate_10]
  rfl
theorem siMulhu (h : Head) (d : BitVec 5) (a : BitVec 5) (b : BitVec 5) : Statement (.siMulhu h d a b) := by
  intro w hw
  cases hw
  rw [candidate_10]
  rfl
theorem siAnd (h : Head) (d : BitVec 5) (a : BitVec 5) (b : BitVec 5) : Statement (.siAnd h d a b) := by
  intro w hw
  cases hw
  rw [candidate_10]
  rfl
theorem siOr (h : Head) (d : BitVec 5) (a : BitVec 5) (b : BitVec 5) : Statement (.siOr h d a b) := by
  intro w hw
  cases hw
  rw [candidate_10]
  rfl
theorem siXor (h : Head) (d : BitVec 5) (a : BitVec 5) (b : BitVec 5) : Statement (.siXor h d a b) := by
  intro w hw
  cases hw
  rw [candidate_10]
  rfl
theorem siShl (h : Head) (d : BitVec 5) (a : BitVec 5) (b : BitVec 5) : Statement (.siShl h d a b) := by
  intro w hw
  cases hw
  rw [candidate_10]
  rfl
theorem siShr (h : Head) (d : BitVec 5) (a : BitVec 5) (b : BitVec 5) : Statement (.siShr h d a b) := by
  intro w hw
  cases hw
  rw [candidate_10]
  rfl
theorem siSra (h : Head) (d : BitVec 5) (a : BitVec 5) (b : BitVec 5) : Statement (.siSra h d a b) := by
  intro w hw
  cases hw
  rw [candidate_10]
  rfl
theorem siMin (h : Head) (d : BitVec 5) (a : BitVec 5) (b : BitVec 5) : Statement (.siMin h d a b) := by
  intro w hw
  cases hw
  rw [candidate_10]
  rfl
theorem siMax (h : Head) (d : BitVec 5) (a : BitVec 5) (b : BitVec 5) : Statement (.siMax h d a b) := by
  intro w hw
  cases hw
  rw [candidate_10]
  rfl
theorem siMinu (h : Head) (d : BitVec 5) (a : BitVec 5) (b : BitVec 5) : Statement (.siMinu h d a b) := by
  intro w hw
  cases hw
  rw [candidate_10]
  rfl
theorem siMaxu (h : Head) (d : BitVec 5) (a : BitVec 5) (b : BitVec 5) : Statement (.siMaxu h d a b) := by
  intro w hw
  cases hw
  rw [candidate_10]
  rfl
theorem siAndn (h : Head) (d : BitVec 5) (a : BitVec 5) (b : BitVec 5) : Statement (.siAndn h d a b) := by
  intro w hw
  cases hw
  rw [candidate_10]
  rfl
theorem viiAdd (h : Head) (d : BitVec 5) (a : BitVec 5) (i : BitVec 6) : Statement (.viiAdd h d a i) := by
  intro w hw
  cases hw
  rw [candidate_0b]
  rfl
theorem viiMul (h : Head) (d : BitVec 5) (a : BitVec 5) (i : BitVec 6) : Statement (.viiMul h d a i) := by
  intro w hw
  cases hw
  rw [candidate_0b]
  rfl
theorem viiAnd (h : Head) (d : BitVec 5) (a : BitVec 5) (i : BitVec 6) : Statement (.viiAnd h d a i) := by
  intro w hw
  cases hw
  rw [candidate_0b]
  rfl
theorem viiOr (h : Head) (d : BitVec 5) (a : BitVec 5) (i : BitVec 6) : Statement (.viiOr h d a i) := by
  intro w hw
  cases hw
  rw [candidate_0b]
  rfl
theorem viiXor (h : Head) (d : BitVec 5) (a : BitVec 5) (i : BitVec 6) : Statement (.viiXor h d a i) := by
  intro w hw
  cases hw
  rw [candidate_0b]
  rfl
theorem viiShl (h : Head) (d : BitVec 5) (a : BitVec 5) (i : BitVec 5) : Statement (.viiShl h d a i) := by
  intro w hw
  cases hw
  rw [candidate_0b]
  have h1 : BitVec.extractLsb' (n := 6) 5 1 (0#1 ++ i) = 0#1 := (extract_high 0#1 i 0 1).trans (extract_all 0#1)
  have h2 : BitVec.extractLsb' (n := 6) 0 5 (0#1 ++ i) = i := extract_low 0#1 i
  simp [decVii, named, h1, h2]
theorem viiShr (h : Head) (d : BitVec 5) (a : BitVec 5) (i : BitVec 5) : Statement (.viiShr h d a i) := by
  intro w hw
  cases hw
  rw [candidate_0b]
  have h1 : BitVec.extractLsb' (n := 6) 5 1 (0#1 ++ i) = 0#1 := (extract_high 0#1 i 0 1).trans (extract_all 0#1)
  have h2 : BitVec.extractLsb' (n := 6) 0 5 (0#1 ++ i) = i := extract_low 0#1 i
  simp [decVii, named, h1, h2]
theorem viiSra (h : Head) (d : BitVec 5) (a : BitVec 5) (i : BitVec 5) : Statement (.viiSra h d a i) := by
  intro w hw
  cases hw
  rw [candidate_0b]
  have h1 : BitVec.extractLsb' (n := 6) 5 1 (0#1 ++ i) = 0#1 := (extract_high 0#1 i 0 1).trans (extract_all 0#1)
  have h2 : BitVec.extractLsb' (n := 6) 0 5 (0#1 ++ i) = i := extract_low 0#1 i
  simp [decVii, named, h1, h2]
theorem siiAdd (h : Head) (d : BitVec 5) (a : BitVec 5) (i : BitVec 6) : Statement (.siiAdd h d a i) := by
  intro w hw
  cases hw
  rw [candidate_11]
  rfl
theorem siiMul (h : Head) (d : BitVec 5) (a : BitVec 5) (i : BitVec 6) : Statement (.siiMul h d a i) := by
  intro w hw
  cases hw
  rw [candidate_11]
  rfl
theorem siiAnd (h : Head) (d : BitVec 5) (a : BitVec 5) (i : BitVec 6) : Statement (.siiAnd h d a i) := by
  intro w hw
  cases hw
  rw [candidate_11]
  rfl
theorem siiOr (h : Head) (d : BitVec 5) (a : BitVec 5) (i : BitVec 6) : Statement (.siiOr h d a i) := by
  intro w hw
  cases hw
  rw [candidate_11]
  rfl
theorem siiXor (h : Head) (d : BitVec 5) (a : BitVec 5) (i : BitVec 6) : Statement (.siiXor h d a i) := by
  intro w hw
  cases hw
  rw [candidate_11]
  rfl
theorem siiShl (h : Head) (d : BitVec 5) (a : BitVec 5) (i : BitVec 5) : Statement (.siiShl h d a i) := by
  intro w hw
  cases hw
  rw [candidate_11]
  have h1 : BitVec.extractLsb' (n := 6) 5 1 (0#1 ++ i) = 0#1 := (extract_high 0#1 i 0 1).trans (extract_all 0#1)
  have h2 : BitVec.extractLsb' (n := 6) 0 5 (0#1 ++ i) = i := extract_low 0#1 i
  simp [decSii, named, h1, h2]
theorem siiShr (h : Head) (d : BitVec 5) (a : BitVec 5) (i : BitVec 5) : Statement (.siiShr h d a i) := by
  intro w hw
  cases hw
  rw [candidate_11]
  have h1 : BitVec.extractLsb' (n := 6) 5 1 (0#1 ++ i) = 0#1 := (extract_high 0#1 i 0 1).trans (extract_all 0#1)
  have h2 : BitVec.extractLsb' (n := 6) 0 5 (0#1 ++ i) = i := extract_low 0#1 i
  simp [decSii, named, h1, h2]
theorem siiSra (h : Head) (d : BitVec 5) (a : BitVec 5) (i : BitVec 5) : Statement (.siiSra h d a i) := by
  intro w hw
  cases hw
  rw [candidate_11]
  have h1 : BitVec.extractLsb' (n := 6) 5 1 (0#1 ++ i) = 0#1 := (extract_high 0#1 i 0 1).trans (extract_all 0#1)
  have h2 : BitVec.extractLsb' (n := 6) 0 5 (0#1 ++ i) = i := extract_low 0#1 i
  simp [decSii, named, h1, h2]
theorem vmNeg (h : Head) (d : BitVec 5) (a : BitVec 5) : Statement (.vmNeg h d a) := by
  intro w hw
  cases hw
  rw [candidate_0c]
  rfl
theorem vmAbs (h : Head) (d : BitVec 5) (a : BitVec 5) : Statement (.vmAbs h d a) := by
  intro w hw
  cases hw
  rw [candidate_0c]
  rfl
theorem vmAdds (h : Head) (d : BitVec 5) (a : BitVec 5) (b : BitVec 5) : Statement (.vmAdds h d a b) := by
  intro w hw
  cases hw
  rw [candidate_0c]
  rfl
theorem vmAddu (h : Head) (d : BitVec 5) (a : BitVec 5) (b : BitVec 5) : Statement (.vmAddu h d a b) := by
  intro w hw
  cases hw
  rw [candidate_0c]
  rfl
theorem vmSubs (h : Head) (d : BitVec 5) (a : BitVec 5) (b : BitVec 5) : Statement (.vmSubs h d a b) := by
  intro w hw
  cases hw
  rw [candidate_0c]
  rfl
theorem vmSubu (h : Head) (d : BitVec 5) (a : BitVec 5) (b : BitVec 5) : Statement (.vmSubu h d a b) := by
  intro w hw
  cases hw
  rw [candidate_0c]
  rfl
theorem vmMov (h : Head) (d : BitVec 5) (a : BitVec 5) : Statement (.vmMov h d a) := by
  intro w hw
  cases hw
  rw [candidate_0c]
  rfl
theorem vmClz (h : Head) (d : BitVec 5) (a : BitVec 5) : Statement (.vmClz h d a) := by
  intro w hw
  cases hw
  rw [candidate_0c]
  rfl
theorem vmPopc (h : Head) (d : BitVec 5) (a : BitVec 5) : Statement (.vmPopc h d a) := by
  intro w hw
  cases hw
  rw [candidate_0c]
  rfl
theorem vmBrev (h : Head) (d : BitVec 5) (a : BitVec 5) : Statement (.vmBrev h d a) := by
  intro w hw
  cases hw
  rw [candidate_0c]
  rfl
theorem vmSext8 (h : Head) (d : BitVec 5) (a : BitVec 5) : Statement (.vmSext8 h d a) := by
  intro w hw
  cases hw
  rw [candidate_0c]
  rfl
theorem vmSext16 (h : Head) (d : BitVec 5) (a : BitVec 5) : Statement (.vmSext16 h d a) := by
  intro w hw
  cases hw
  rw [candidate_0c]
  rfl
theorem vmSati8 (h : Head) (d : BitVec 5) (a : BitVec 5) : Statement (.vmSati8 h d a) := by
  intro w hw
  cases hw
  rw [candidate_0c]
  rfl
theorem vmSati16 (h : Head) (d : BitVec 5) (a : BitVec 5) : Statement (.vmSati16 h d a) := by
  intro w hw
  cases hw
  rw [candidate_0c]
  rfl
theorem vmSatn8 (h : Head) (d : BitVec 5) (a : BitVec 5) : Statement (.vmSatn8 h d a) := by
  intro w hw
  cases hw
  rw [candidate_0c]
  rfl
theorem vmSatn16 (h : Head) (d : BitVec 5) (a : BitVec 5) : Statement (.vmSatn16 h d a) := by
  intro w hw
  cases hw
  rw [candidate_0c]
  rfl
theorem vcEq (h : Head) (d : BitVec 5) (a : BitVec 5) (b : BitVec 5) : Statement (.vcEq h d a b) := by
  intro w hw
  cases hw
  rw [candidate_0d]
  rfl
theorem vcNe (h : Head) (d : BitVec 5) (a : BitVec 5) (b : BitVec 5) : Statement (.vcNe h d a b) := by
  intro w hw
  cases hw
  rw [candidate_0d]
  rfl
theorem vcLt (h : Head) (d : BitVec 5) (a : BitVec 5) (b : BitVec 5) : Statement (.vcLt h d a b) := by
  intro w hw
  cases hw
  rw [candidate_0d]
  rfl
theorem vcLe (h : Head) (d : BitVec 5) (a : BitVec 5) (b : BitVec 5) : Statement (.vcLe h d a b) := by
  intro w hw
  cases hw
  rw [candidate_0d]
  rfl
theorem vcLtu (h : Head) (d : BitVec 5) (a : BitVec 5) (b : BitVec 5) : Statement (.vcLtu h d a b) := by
  intro w hw
  cases hw
  rw [candidate_0d]
  rfl
theorem vcLeu (h : Head) (d : BitVec 5) (a : BitVec 5) (b : BitVec 5) : Statement (.vcLeu h d a b) := by
  intro w hw
  cases hw
  rw [candidate_0d]
  rfl
theorem scEq (h : Head) (d : BitVec 5) (a : BitVec 5) (b : BitVec 5) : Statement (.scEq h d a b) := by
  intro w hw
  cases hw
  rw [candidate_13]
  rfl
theorem scNe (h : Head) (d : BitVec 5) (a : BitVec 5) (b : BitVec 5) : Statement (.scNe h d a b) := by
  intro w hw
  cases hw
  rw [candidate_13]
  rfl
theorem scLt (h : Head) (d : BitVec 5) (a : BitVec 5) (b : BitVec 5) : Statement (.scLt h d a b) := by
  intro w hw
  cases hw
  rw [candidate_13]
  rfl
theorem scLe (h : Head) (d : BitVec 5) (a : BitVec 5) (b : BitVec 5) : Statement (.scLe h d a b) := by
  intro w hw
  cases hw
  rw [candidate_13]
  rfl
theorem scLtu (h : Head) (d : BitVec 5) (a : BitVec 5) (b : BitVec 5) : Statement (.scLtu h d a b) := by
  intro w hw
  cases hw
  rw [candidate_13]
  rfl
theorem scLeu (h : Head) (d : BitVec 5) (a : BitVec 5) (b : BitVec 5) : Statement (.scLeu h d a b) := by
  intro w hw
  cases hw
  rw [candidate_13]
  rfl
theorem scBlen (h : Head) (d : BitVec 5) (a : BitVec 5) : Statement (.scBlen h d a) := by
  intro w hw
  cases hw
  rw [candidate_13]
  rfl
theorem scSeq (h : Head) (d : BitVec 5) (a : BitVec 5) (b : BitVec 5) : Statement (.scSeq h d a b) := by
  intro w hw
  cases hw
  rw [candidate_13]
  rfl
theorem scSne (h : Head) (d : BitVec 5) (a : BitVec 5) (b : BitVec 5) : Statement (.scSne h d a b) := by
  intro w hw
  cases hw
  rw [candidate_13]
  rfl
theorem scSlt (h : Head) (d : BitVec 5) (a : BitVec 5) (b : BitVec 5) : Statement (.scSlt h d a b) := by
  intro w hw
  cases hw
  rw [candidate_13]
  rfl
theorem scSle (h : Head) (d : BitVec 5) (a : BitVec 5) (b : BitVec 5) : Statement (.scSle h d a b) := by
  intro w hw
  cases hw
  rw [candidate_13]
  rfl
theorem scSltu (h : Head) (d : BitVec 5) (a : BitVec 5) (b : BitVec 5) : Statement (.scSltu h d a b) := by
  intro w hw
  cases hw
  rw [candidate_13]
  rfl
theorem scSleu (h : Head) (d : BitVec 5) (a : BitVec 5) (b : BitVec 5) : Statement (.scSleu h d a b) := by
  intro w hw
  cases hw
  rw [candidate_13]
  rfl
theorem vpSel (h : Head) (d : BitVec 5) (a : BitVec 5) (b : BitVec 5) : Statement (.vpSel h d a b) := by
  intro w hw
  cases hw
  rw [candidate_0e]
  rfl
theorem vpAnd (h : Head) (d : BitVec 5) (a : BitVec 5) (b : BitVec 5) : Statement (.vpAnd h d a b) := by
  intro w hw
  cases hw
  rw [candidate_0e]
  rfl
theorem vpOr (h : Head) (d : BitVec 5) (a : BitVec 5) (b : BitVec 5) : Statement (.vpOr h d a b) := by
  intro w hw
  cases hw
  rw [candidate_0e]
  rfl
theorem vpXor (h : Head) (d : BitVec 5) (a : BitVec 5) (b : BitVec 5) : Statement (.vpXor h d a b) := by
  intro w hw
  cases hw
  rw [candidate_0e]
  rfl
theorem vpAndn (h : Head) (d : BitVec 5) (a : BitVec 5) (b : BitVec 5) : Statement (.vpAndn h d a b) := by
  intro w hw
  cases hw
  rw [candidate_0e]
  rfl
theorem vpNot (h : Head) (d : BitVec 5) (a : BitVec 5) : Statement (.vpNot h d a) := by
  intro w hw
  cases hw
  rw [candidate_0e]
  rfl
theorem vpGet (h : Head) (d : BitVec 5) (a : BitVec 5) : Statement (.vpGet h d a) := by
  intro w hw
  cases hw
  rw [candidate_0e]
  rfl
theorem vpSet (h : Head) (d : BitVec 5) (a : BitVec 5) : Statement (.vpSet h d a) := by
  intro w hw
  cases hw
  rw [candidate_0e]
  rfl
theorem vpMvu (h : Head) (d : BitVec 5) (a : BitVec 5) : Statement (.vpMvu h d a) := by
  intro w hw
  cases hw
  rw [candidate_0e]
  rfl
theorem vxIdx (h : Head) (d : BitVec 5) (a : BitVec 5) (b : BitVec 5) : Statement (.vxIdx h d a b) := by
  intro w hw
  cases hw
  rw [candidate_0f]
  rfl
theorem vxUp (h : Head) (d : BitVec 5) (a : BitVec 5) (b : BitVec 5) : Statement (.vxUp h d a b) := by
  intro w hw
  cases hw
  rw [candidate_0f]
  rfl
theorem vxDown (h : Head) (d : BitVec 5) (a : BitVec 5) (b : BitVec 5) : Statement (.vxDown h d a b) := by
  intro w hw
  cases hw
  rw [candidate_0f]
  rfl
theorem vxXor (h : Head) (d : BitVec 5) (a : BitVec 5) (b : BitVec 5) : Statement (.vxXor h d a b) := by
  intro w hw
  cases hw
  rw [candidate_0f]
  rfl
theorem vxBcast (h : Head) (d : BitVec 5) (a : BitVec 5) (b : BitVec 5) : Statement (.vxBcast h d a b) := by
  intro w hw
  cases hw
  rw [candidate_0f]
  rfl
theorem sliLo (c : Bool) (d : BitVec 5) (i : BitVec 16) : Statement (.sliLo c d i) := by
  intro w hw
  cases hw
  rw [candidate_12]
  rfl
theorem sliHi (c : Bool) (d : BitVec 5) (i : BitVec 16) : Statement (.sliHi c d i) := by
  intro w hw
  cases hw
  rw [candidate_12]
  rfl
theorem sliSx (c : Bool) (d : BitVec 5) (i : BitVec 16) : Statement (.sliSx c d i) := by
  intro w hw
  cases hw
  rw [candidate_12]
  rfl
theorem sliVsx (c : Bool) (d : BitVec 5) (i : BitVec 16) : Statement (.sliVsx c d i) := by
  intro w hw
  cases hw
  rw [candidate_12]
  rfl
theorem srRdv (h : Head) (d : BitVec 5) (i : BitVec 12) : Statement (.srRdv h d i) := by
  intro w hw
  cases hw
  rw [candidate_14]
  rfl
theorem srRds (h : Head) (d : BitVec 5) (i : BitVec 12) : Statement (.srRds h d i) := by
  intro w hw
  cases hw
  rw [candidate_14]
  rfl
theorem srWrs (h : Head) (d : BitVec 5) (i : BitVec 12) : Statement (.srWrs h d i) := by
  intro w hw
  cases hw
  rw [candidate_14]
  rfl
theorem srRdp (h : Head) (d : BitVec 5) (i : BitVec 12) : Statement (.srRdp h d i) := by
  intro w hw
  cases hw
  rw [candidate_14]
  rfl
theorem adAdd (h : Head) (d : BitVec 5) (a : BitVec 5) (b : BitVec 5) : Statement (.adAdd h d a b) := by
  intro w hw
  cases hw
  rw [candidate_15]
  rfl
theorem adSub (h : Head) (d : BitVec 5) (a : BitVec 5) (b : BitVec 5) : Statement (.adSub h d a b) := by
  intro w hw
  cases hw
  rw [candidate_15]
  rfl
theorem adAddx (h : Head) (d : BitVec 5) (a : BitVec 5) (b : BitVec 5) : Statement (.adAddx h d a b) := by
  intro w hw
  cases hw
  rw [candidate_15]
  rfl
theorem adAddz (h : Head) (d : BitVec 5) (a : BitVec 5) (b : BitVec 5) : Statement (.adAddz h d a b) := by
  intro w hw
  cases hw
  rw [candidate_15]
  rfl
theorem adShl (h : Head) (d : BitVec 5) (a : BitVec 5) (b : BitVec 5) : Statement (.adShl h d a b) := by
  intro w hw
  cases hw
  rw [candidate_15]
  rfl
theorem adShr (h : Head) (d : BitVec 5) (a : BitVec 5) (b : BitVec 5) : Statement (.adShr h d a b) := by
  intro w hw
  cases hw
  rw [candidate_15]
  rfl
theorem adMulw (h : Head) (d : BitVec 5) (a : BitVec 5) (b : BitVec 5) : Statement (.adMulw h d a b) := by
  intro w hw
  cases hw
  rw [candidate_15]
  rfl
theorem adMov (h : Head) (d : BitVec 5) (a : BitVec 5) : Statement (.adMov h d a) := by
  intro w hw
  cases hw
  rw [candidate_15]
  rfl
theorem adAnd (h : Head) (d : BitVec 5) (a : BitVec 5) (b : BitVec 5) : Statement (.adAnd h d a b) := by
  intro w hw
  cases hw
  rw [candidate_15]
  rfl
theorem adMul (h : Head) (d : BitVec 5) (a : BitVec 5) (b : BitVec 5) : Statement (.adMul h d a b) := by
  intro w hw
  cases hw
  rw [candidate_15]
  rfl
theorem adEq (h : Head) (d : BitVec 5) (a : BitVec 5) (b : BitVec 5) : Statement (.adEq h d a b) := by
  intro w hw
  cases hw
  rw [candidate_15]
  rfl
theorem adLtu (h : Head) (d : BitVec 5) (a : BitVec 5) (b : BitVec 5) : Statement (.adLtu h d a b) := by
  intro w hw
  cases hw
  rw [candidate_15]
  rfl
theorem adLt (h : Head) (d : BitVec 5) (a : BitVec 5) (b : BitVec 5) : Statement (.adLt h d a b) := by
  intro w hw
  cases hw
  rw [candidate_15]
  rfl
theorem shpSq (h : Head) (d : BitVec 5) : Statement (.shpSq h d) := by
  intro w hw
  cases hw
  rw [candidate_1c]
  rfl
theorem shpExp (h : Head) (d : BitVec 5) : Statement (.shpExp h d) := by
  intro w hw
  cases hw
  rw [candidate_1c]
  rfl
theorem shpShape (h : Head) (d : BitVec 5) (a : BitVec 5) : Statement (.shpShape h d a) := by
  intro w hw
  cases hw
  rw [candidate_1c]
  rfl
theorem shpRdx (h : Head) (d : BitVec 5) (a : BitVec 5) : Statement (.shpRdx h d a) := by
  intro w hw
  cases hw
  rw [candidate_1c]
  rfl
theorem shpWrx (h : Head) (d : BitVec 5) (a : BitVec 5) : Statement (.shpWrx h d a) := by
  intro w hw
  cases hw
  rw [candidate_1c]
  rfl
theorem vf32Add (h : Head) (d : BitVec 5) (a : BitVec 5) (b : BitVec 5) : Statement (.vf32Add h d a b) := by
  intro w hw
  cases hw
  rw [candidate_16]
  rfl
theorem vf32Sub (h : Head) (d : BitVec 5) (a : BitVec 5) (b : BitVec 5) : Statement (.vf32Sub h d a b) := by
  intro w hw
  cases hw
  rw [candidate_16]
  rfl
theorem vf32Mul (h : Head) (d : BitVec 5) (a : BitVec 5) (b : BitVec 5) : Statement (.vf32Mul h d a b) := by
  intro w hw
  cases hw
  rw [candidate_16]
  rfl
theorem vf32Fma (h : Head) (d : BitVec 5) (a : BitVec 5) (b : BitVec 5) : Statement (.vf32Fma h d a b) := by
  intro w hw
  cases hw
  rw [candidate_16]
  rfl
theorem vf32Fms (h : Head) (d : BitVec 5) (a : BitVec 5) (b : BitVec 5) : Statement (.vf32Fms h d a b) := by
  intro w hw
  cases hw
  rw [candidate_16]
  rfl
theorem vf32Min (h : Head) (d : BitVec 5) (a : BitVec 5) (b : BitVec 5) : Statement (.vf32Min h d a b) := by
  intro w hw
  cases hw
  rw [candidate_16]
  rfl
theorem vf32Max (h : Head) (d : BitVec 5) (a : BitVec 5) (b : BitVec 5) : Statement (.vf32Max h d a b) := by
  intro w hw
  cases hw
  rw [candidate_16]
  rfl
theorem vf32Abs (h : Head) (d : BitVec 5) (a : BitVec 5) : Statement (.vf32Abs h d a) := by
  intro w hw
  cases hw
  rw [candidate_16]
  rfl
theorem vf32Neg (h : Head) (d : BitVec 5) (a : BitVec 5) : Statement (.vf32Neg h d a) := by
  intro w hw
  cases hw
  rw [candidate_16]
  rfl
theorem vf32Cpsgn (h : Head) (d : BitVec 5) (a : BitVec 5) (b : BitVec 5) : Statement (.vf32Cpsgn h d a b) := by
  intro w hw
  cases hw
  rw [candidate_16]
  rfl
theorem vf32Rint (h : Head) (d : BitVec 5) (a : BitVec 5) : Statement (.vf32Rint h d a) := by
  intro w hw
  cases hw
  rw [candidate_16]
  rfl
theorem vf16Add (h : Head) (d : BitVec 5) (a : BitVec 5) (b : BitVec 5) : Statement (.vf16Add h d a b) := by
  intro w hw
  cases hw
  rw [candidate_17]
  rfl
theorem vf16Sub (h : Head) (d : BitVec 5) (a : BitVec 5) (b : BitVec 5) : Statement (.vf16Sub h d a b) := by
  intro w hw
  cases hw
  rw [candidate_17]
  rfl
theorem vf16Mul (h : Head) (d : BitVec 5) (a : BitVec 5) (b : BitVec 5) : Statement (.vf16Mul h d a b) := by
  intro w hw
  cases hw
  rw [candidate_17]
  rfl
theorem vf16Fma (h : Head) (d : BitVec 5) (a : BitVec 5) (b : BitVec 5) : Statement (.vf16Fma h d a b) := by
  intro w hw
  cases hw
  rw [candidate_17]
  rfl
theorem vf16Min (h : Head) (d : BitVec 5) (a : BitVec 5) (b : BitVec 5) : Statement (.vf16Min h d a b) := by
  intro w hw
  cases hw
  rw [candidate_17]
  rfl
theorem vf16Max (h : Head) (d : BitVec 5) (a : BitVec 5) (b : BitVec 5) : Statement (.vf16Max h d a b) := by
  intro w hw
  cases hw
  rw [candidate_17]
  rfl
theorem vf16Neg (h : Head) (d : BitVec 5) (a : BitVec 5) : Statement (.vf16Neg h d a) := by
  intro w hw
  cases hw
  rw [candidate_17]
  rfl
theorem vf16Abs (h : Head) (d : BitVec 5) (a : BitVec 5) : Statement (.vf16Abs h d a) := by
  intro w hw
  cases hw
  rw [candidate_17]
  rfl
theorem vf16Badd (h : Head) (d : BitVec 5) (a : BitVec 5) (b : BitVec 5) : Statement (.vf16Badd h d a b) := by
  intro w hw
  cases hw
  rw [candidate_17]
  rfl
theorem vf16Bsub (h : Head) (d : BitVec 5) (a : BitVec 5) (b : BitVec 5) : Statement (.vf16Bsub h d a b) := by
  intro w hw
  cases hw
  rw [candidate_17]
  rfl
theorem vf16Bmul (h : Head) (d : BitVec 5) (a : BitVec 5) (b : BitVec 5) : Statement (.vf16Bmul h d a b) := by
  intro w hw
  cases hw
  rw [candidate_17]
  rfl
theorem vf16Bfma (h : Head) (d : BitVec 5) (a : BitVec 5) (b : BitVec 5) : Statement (.vf16Bfma h d a b) := by
  intro w hw
  cases hw
  rw [candidate_17]
  rfl
theorem vf16Bmin (h : Head) (d : BitVec 5) (a : BitVec 5) (b : BitVec 5) : Statement (.vf16Bmin h d a b) := by
  intro w hw
  cases hw
  rw [candidate_17]
  rfl
theorem vf16Bmax (h : Head) (d : BitVec 5) (a : BitVec 5) (b : BitVec 5) : Statement (.vf16Bmax h d a b) := by
  intro w hw
  cases hw
  rw [candidate_17]
  rfl
theorem vf16Bneg (h : Head) (d : BitVec 5) (a : BitVec 5) : Statement (.vf16Bneg h d a) := by
  intro w hw
  cases hw
  rw [candidate_17]
  rfl
theorem vf16Babs (h : Head) (d : BitVec 5) (a : BitVec 5) : Statement (.vf16Babs h d a) := by
  intro w hw
  cases hw
  rw [candidate_17]
  rfl
theorem vfxDiv (h : Head) (d : BitVec 5) (a : BitVec 5) (b : BitVec 5) : Statement (.vfxDiv h d a b) := by
  intro w hw
  cases hw
  rw [candidate_18]
  rfl
theorem vfxSqrt (h : Head) (d : BitVec 5) (a : BitVec 5) : Statement (.vfxSqrt h d a) := by
  intro w hw
  cases hw
  rw [candidate_18]
  rfl
theorem vfxRcp (h : Head) (d : BitVec 5) (a : BitVec 5) : Statement (.vfxRcp h d a) := by
  intro w hw
  cases hw
  rw [candidate_18]
  rfl
theorem vfxRsq (h : Head) (d : BitVec 5) (a : BitVec 5) : Statement (.vfxRsq h d a) := by
  intro w hw
  cases hw
  rw [candidate_18]
  rfl
theorem vfxExp2 (h : Head) (d : BitVec 5) (a : BitVec 5) : Statement (.vfxExp2 h d a) := by
  intro w hw
  cases hw
  rw [candidate_18]
  rfl
theorem vfxLog2 (h : Head) (d : BitVec 5) (a : BitVec 5) : Statement (.vfxLog2 h d a) := by
  intro w hw
  cases hw
  rw [candidate_18]
  rfl
theorem vfxSinpi (h : Head) (d : BitVec 5) (a : BitVec 5) : Statement (.vfxSinpi h d a) := by
  intro w hw
  cases hw
  rw [candidate_18]
  rfl
theorem vfxCospi (h : Head) (d : BitVec 5) (a : BitVec 5) : Statement (.vfxCospi h d a) := by
  intro w hw
  cases hw
  rw [candidate_18]
  rfl
theorem vcvF32i (h : Head) (d : BitVec 5) (a : BitVec 5) : Statement (.vcvF32i h d a) := by
  intro w hw
  cases hw
  rw [candidate_19]
  rfl
theorem vcvF32n (h : Head) (d : BitVec 5) (a : BitVec 5) : Statement (.vcvF32n h d a) := by
  intro w hw
  cases hw
  rw [candidate_19]
  rfl
theorem vcvI32f (h : Head) (d : BitVec 5) (a : BitVec 5) : Statement (.vcvI32f h d a) := by
  intro w hw
  cases hw
  rw [candidate_19]
  rfl
theorem vcvN32f (h : Head) (d : BitVec 5) (a : BitVec 5) : Statement (.vcvN32f h d a) := by
  intro w hw
  cases hw
  rw [candidate_19]
  rfl
theorem vcvPkh (h : Head) (d : BitVec 5) (a : BitVec 5) (b : BitVec 5) : Statement (.vcvPkh h d a b) := by
  intro w hw
  cases hw
  rw [candidate_19]
  rfl
theorem vcvPkb (h : Head) (d : BitVec 5) (a : BitVec 5) (b : BitVec 5) : Statement (.vcvPkb h d a b) := by
  intro w hw
  cases hw
  rw [candidate_19]
  rfl
theorem vcvUhl (h : Head) (d : BitVec 5) (a : BitVec 5) : Statement (.vcvUhl h d a) := by
  intro w hw
  cases hw
  rw [candidate_19]
  rfl
theorem vcvUhh (h : Head) (d : BitVec 5) (a : BitVec 5) : Statement (.vcvUhh h d a) := by
  intro w hw
  cases hw
  rw [candidate_19]
  rfl
theorem vcvUbl (h : Head) (d : BitVec 5) (a : BitVec 5) : Statement (.vcvUbl h d a) := by
  intro w hw
  cases hw
  rw [candidate_19]
  rfl
theorem vcvUbh (h : Head) (d : BitVec 5) (a : BitVec 5) : Statement (.vcvUbh h d a) := by
  intro w hw
  cases hw
  rw [candidate_19]
  rfl
theorem vcvIe4 (h : Head) (d : BitVec 5) (a : BitVec 5) (b : BitVec 5) : Statement (.vcvIe4 h d a b) := by
  intro w hw
  cases hw
  rw [candidate_19]
  rfl
theorem vcvIe5 (h : Head) (d : BitVec 5) (a : BitVec 5) (b : BitVec 5) : Statement (.vcvIe5 h d a b) := by
  intro w hw
  cases hw
  rw [candidate_19]
  rfl
theorem vcvXe4 (h : Head) (d : BitVec 5) (a : BitVec 5) (b : BitVec 5) : Statement (.vcvXe4 h d a b) := by
  intro w hw
  cases hw
  rw [candidate_19]
  rfl
theorem vcvXe5 (h : Head) (d : BitVec 5) (a : BitVec 5) (b : BitVec 5) : Statement (.vcvXe5 h d a b) := by
  intro w hw
  cases hw
  rw [candidate_19]
  rfl
theorem vfcEq (h : Head) (d : BitVec 5) (a : BitVec 5) (b : BitVec 5) : Statement (.vfcEq h d a b) := by
  intro w hw
  cases hw
  rw [candidate_1a]
  rfl
theorem vfcNe (h : Head) (d : BitVec 5) (a : BitVec 5) (b : BitVec 5) : Statement (.vfcNe h d a b) := by
  intro w hw
  cases hw
  rw [candidate_1a]
  rfl
theorem vfcLt (h : Head) (d : BitVec 5) (a : BitVec 5) (b : BitVec 5) : Statement (.vfcLt h d a b) := by
  intro w hw
  cases hw
  rw [candidate_1a]
  rfl
theorem vfcLe (h : Head) (d : BitVec 5) (a : BitVec 5) (b : BitVec 5) : Statement (.vfcLe h d a b) := by
  intro w hw
  cases hw
  rw [candidate_1a]
  rfl
theorem vfcUn (h : Head) (d : BitVec 5) (a : BitVec 5) (b : BitVec 5) : Statement (.vfcUn h d a b) := by
  intro w hw
  cases hw
  rw [candidate_1a]
  rfl
theorem vfcClass (h : Head) (d : BitVec 5) (a : BitVec 5) : Statement (.vfcClass h d a) := by
  intro w hw
  cases hw
  rw [candidate_1a]
  rfl
theorem vqQ16 (h : Head) (d : BitVec 5) (a : BitVec 5) (b : BitVec 5) : Statement (.vqQ16 h d a b) := by
  intro w hw
  cases hw
  rw [candidate_1b]
  rfl
theorem vqQ32 (h : Head) (d : BitVec 5) (a : BitVec 5) (b : BitVec 5) : Statement (.vqQ32 h d a b) := by
  intro w hw
  cases hw
  rw [candidate_1b]
  rfl
theorem vqPk4 (h : Head) (d : BitVec 5) (a : BitVec 5) : Statement (.vqPk4 h d a) := by
  intro w hw
  cases hw
  rw [candidate_1b]
  rfl
theorem vqDq4 (h : Head) (d : BitVec 5) (a : BitVec 5) (b : BitVec 5) : Statement (.vqDq4 h d a b) := by
  intro w hw
  cases hw
  rw [candidate_1b]
  rfl
theorem vqQe16 (h : Head) (d : BitVec 5) (a : BitVec 5) (b : BitVec 5) : Statement (.vqQe16 h d a b) := by
  intro w hw
  cases hw
  rw [candidate_1b]
  rfl
theorem vqQe32 (h : Head) (d : BitVec 5) (a : BitVec 5) (b : BitVec 5) : Statement (.vqQe32 h d a b) := by
  intro w hw
  cases hw
  rw [candidate_1b]
  rfl
theorem vqPk8 (h : Head) (d : BitVec 5) (a : BitVec 5) : Statement (.vqPk8 h d a) := by
  intro w hw
  cases hw
  rw [candidate_1b]
  rfl
theorem vqDq8 (h : Head) (d : BitVec 5) (a : BitVec 5) (b : BitVec 5) : Statement (.vqDq8 h d a b) := by
  intro w hw
  cases hw
  rw [candidate_1b]
  rfl
theorem ld (h : Head) (d : BitVec 5) (a : BitVec 4) (o : BitVec 5) (z : BitVec 2) (q : BitVec 2) : Statement (.ld h d a o z q) := by
  intro w hw
  cases hw
  rw [candidate_1d]
  rfl
theorem ldImm (h : Head) (d : BitVec 5) (a : BitVec 4) (i : BitVec 5) (z : BitVec 2) (q : BitVec 2) : Statement (.ldImm h d a i z q) := by
  intro w hw
  cases hw
  rw [candidate_1d]
  rfl
theorem st (h : Head) (d : BitVec 5) (a : BitVec 4) (o : BitVec 5) (z : BitVec 2) (q : BitVec 2) : Statement (.st h d a o z q) := by
  intro w hw
  cases hw
  rw [candidate_1e]
  rfl
theorem stImm (h : Head) (d : BitVec 5) (a : BitVec 4) (i : BitVec 5) (z : BitVec 2) (q : BitVec 2) : Statement (.stImm h d a i z q) := by
  intro w hw
  cases hw
  rw [candidate_1e]
  rfl
theorem ldu (h : Head) (d : BitVec 5) (a : BitVec 4) (o : BitVec 5) (z : BitVec 2) (q : BitVec 2) : Statement (.ldu h d a o z q) := by
  intro w hw
  cases hw
  rw [candidate_1f]
  rfl
theorem lduImm (h : Head) (d : BitVec 5) (a : BitVec 4) (i : BitVec 5) (z : BitVec 2) (q : BitVec 2) : Statement (.lduImm h d a i z q) := by
  intro w hw
  cases hw
  rw [candidate_1f]
  rfl
theorem stu (h : Head) (d : BitVec 5) (a : BitVec 4) (o : BitVec 5) (z : BitVec 2) (q : BitVec 2) : Statement (.stu h d a o z q) := by
  intro w hw
  cases hw
  rw [candidate_20]
  rfl
theorem stuImm (h : Head) (d : BitVec 5) (a : BitVec 4) (i : BitVec 5) (z : BitVec 2) (q : BitVec 2) : Statement (.stuImm h d a i z q) := by
  intro w hw
  cases hw
  rw [candidate_20]
  rfl
theorem atmAdd (c : Bool) (d : BitVec 5) (a : BitVec 5) (y : BitVec 3) (q : BitVec 4) : Statement (.atmAdd c d a y q) := by
  intro w hw
  cases hw
  rw [candidate_21]
  rfl
theorem atmMin (c : Bool) (d : BitVec 5) (a : BitVec 5) (y : BitVec 3) (q : BitVec 4) : Statement (.atmMin c d a y q) := by
  intro w hw
  cases hw
  rw [candidate_21]
  rfl
theorem atmMax (c : Bool) (d : BitVec 5) (a : BitVec 5) (y : BitVec 3) (q : BitVec 4) : Statement (.atmMax c d a y q) := by
  intro w hw
  cases hw
  rw [candidate_21]
  rfl
theorem atmAnd (c : Bool) (d : BitVec 5) (a : BitVec 5) (y : BitVec 3) (q : BitVec 4) : Statement (.atmAnd c d a y q) := by
  intro w hw
  cases hw
  rw [candidate_21]
  rfl
theorem atmOr (c : Bool) (d : BitVec 5) (a : BitVec 5) (y : BitVec 3) (q : BitVec 4) : Statement (.atmOr c d a y q) := by
  intro w hw
  cases hw
  rw [candidate_21]
  rfl
theorem atmXor (c : Bool) (d : BitVec 5) (a : BitVec 5) (y : BitVec 3) (q : BitVec 4) : Statement (.atmXor c d a y q) := by
  intro w hw
  cases hw
  rw [candidate_21]
  rfl
theorem atmExch (c : Bool) (d : BitVec 5) (a : BitVec 5) (y : BitVec 3) (q : BitVec 4) : Statement (.atmExch c d a y q) := by
  intro w hw
  cases hw
  rw [candidate_21]
  rfl
theorem atmCas (c : Bool) (d : BitVec 5) (a : BitVec 5) (y : BitVec 3) (q : BitVec 4) : Statement (.atmCas c d a y q) := by
  intro w hw
  cases hw
  rw [candidate_21]
  rfl
theorem fenceRel (h : Head) (k : BitVec 3) : Statement (.fenceRel h k) := by
  intro w hw
  cases hw
  rw [candidate_22]
  have h1 : BitVec.extractLsb' (n := 12) 3 9 (0#9 ++ k) = 0#9 := (extract_high 0#9 k 0 9).trans (extract_all 0#9)
  have h2 : BitVec.extractLsb' (n := 12) 0 3 (0#9 ++ k) = k := extract_low 0#9 k
  simp [decFence, named, h1, h2]
theorem fenceAcq (h : Head) (k : BitVec 3) : Statement (.fenceAcq h k) := by
  intro w hw
  cases hw
  rw [candidate_22]
  have h1 : BitVec.extractLsb' (n := 12) 3 9 (0#9 ++ k) = 0#9 := (extract_high 0#9 k 0 9).trans (extract_all 0#9)
  have h2 : BitVec.extractLsb' (n := 12) 0 3 (0#9 ++ k) = k := extract_low 0#9 k
  simp [decFence, named, h1, h2]
theorem fenceFull (h : Head) (k : BitVec 3) : Statement (.fenceFull h k) := by
  intro w hw
  cases hw
  rw [candidate_22]
  have h1 : BitVec.extractLsb' (n := 12) 3 9 (0#9 ++ k) = 0#9 := (extract_high 0#9 k 0 9).trans (extract_all 0#9)
  have h2 : BitVec.extractLsb' (n := 12) 0 3 (0#9 ++ k) = k := extract_low 0#9 k
  simp [decFence, named, h1, h2]
theorem fenceOprRel (h : Head) : Statement (.fenceOprRel h) := by
  intro w hw
  cases hw
  rw [candidate_22]
  rfl
theorem fenceOprAcq (h : Head) : Statement (.fenceOprAcq h) := by
  intro w hw
  cases hw
  rw [candidate_22]
  rfl
theorem lds (h : Head) (d : BitVec 5) (a : BitVec 5) (f : BitVec 3) (i : BitVec 6) : Statement (.lds h d a f i) := by
  intro w hw
  cases hw
  rw [candidate_23]
  rfl
theorem sts (h : Head) (d : BitVec 5) (a : BitVec 5) (f : BitVec 3) (i : BitVec 6) : Statement (.sts h d a f i) := by
  intro w hw
  cases hw
  rw [candidate_24]
  rfl
theorem stagLook (h : Head) (d : BitVec 5) (a : BitVec 5) : Statement (.stagLook h d a) := by
  intro w hw
  cases hw
  rw [candidate_25]
  rfl
theorem stagSet (h : Head) (d : BitVec 5) (a : BitVec 5) (b : BitVec 5) : Statement (.stagSet h d a b) := by
  intro w hw
  cases hw
  rw [candidate_25]
  rfl
theorem stagInv (h : Head) (d : BitVec 5) : Statement (.stagInv h d) := by
  intro w hw
  cases hw
  rw [candidate_25]
  rfl
theorem stagClr (h : Head) : Statement (.stagClr h) := by
  intro w hw
  cases hw
  rw [candidate_25]
  rfl
theorem cbRes (h : Head) (d : BitVec 5) (n : BitVec 4) : Statement (.cbRes h d n) := by
  intro w hw
  cases hw
  rw [candidate_26]
  have h1 : BitVec.extractLsb' (n := 6) 4 2 (0#2 ++ n) = 0#2 := (extract_high 0#2 n 0 2).trans (extract_all 0#2)
  have h2 : BitVec.extractLsb' (n := 6) 0 4 (0#2 ++ n) = n := extract_low 0#2 n
  simp [decCb, named, h1, h2]
theorem cbCom (h : Head) (a : BitVec 5) (n : BitVec 4) : Statement (.cbCom h a n) := by
  intro w hw
  cases hw
  rw [candidate_26]
  have h1 : BitVec.extractLsb' (n := 6) 4 2 (0#2 ++ n) = 0#2 := (extract_high 0#2 n 0 2).trans (extract_all 0#2)
  have h2 : BitVec.extractLsb' (n := 6) 0 4 (0#2 ++ n) = n := extract_low 0#2 n
  simp [decCb, named, h1, h2]
theorem cbWait (h : Head) (d : BitVec 5) (n : BitVec 4) : Statement (.cbWait h d n) := by
  intro w hw
  cases hw
  rw [candidate_26]
  have h1 : BitVec.extractLsb' (n := 6) 4 2 (0#2 ++ n) = 0#2 := (extract_high 0#2 n 0 2).trans (extract_all 0#2)
  have h2 : BitVec.extractLsb' (n := 6) 0 4 (0#2 ++ n) = n := extract_low 0#2 n
  simp [decCb, named, h1, h2]
theorem cbPop (h : Head) (n : BitVec 4) : Statement (.cbPop h n) := by
  intro w hw
  cases hw
  rw [candidate_26]
  have h1 : BitVec.extractLsb' (n := 6) 4 2 (0#2 ++ n) = 0#2 := (extract_high 0#2 n 0 2).trans (extract_all 0#2)
  have h2 : BitVec.extractLsb' (n := 6) 0 4 (0#2 ++ n) = n := extract_low 0#2 n
  simp [decCb, named, h1, h2]
theorem cbSa (h : Head) (d : BitVec 5) (a : BitVec 5) (n : BitVec 4) : Statement (.cbSa h d a n) := by
  intro w hw
  cases hw
  rw [candidate_26]
  have h1 : BitVec.extractLsb' (n := 6) 4 2 (0#2 ++ n) = 0#2 := (extract_high 0#2 n 0 2).trans (extract_all 0#2)
  have h2 : BitVec.extractLsb' (n := 6) 0 4 (0#2 ++ n) = n := extract_low 0#2 n
  simp [decCb, named, h1, h2]
theorem cpG2s (h : Head) (d : BitVec 5) (a : BitVec 5) (b : BitVec 5) : Statement (.cpG2s h d a b) := by
  intro w hw
  cases hw
  rw [candidate_27]
  rfl
theorem cpS2g (h : Head) (d : BitVec 5) (a : BitVec 5) (b : BitVec 5) : Statement (.cpS2g h d a b) := by
  intro w hw
  cases hw
  rw [candidate_27]
  rfl
theorem cpS2s (h : Head) (d : BitVec 5) (a : BitVec 5) (b : BitVec 5) : Statement (.cpS2s h d a b) := by
  intro w hw
  cases hw
  rw [candidate_27]
  rfl
theorem cpGat (h : Head) (d : BitVec 5) (a : BitVec 5) (b : BitVec 5) : Statement (.cpGat h d a b) := by
  intro w hw
  cases hw
  rw [candidate_27]
  rfl
theorem cpT2h (h : Head) (d : BitVec 5) (a : BitVec 5) (b : BitVec 5) : Statement (.cpT2h h d a b) := by
  intro w hw
  cases hw
  rw [candidate_27]
  rfl
theorem wta (h : Head) (d : BitVec 5) (a : BitVec 5) (b : BitVec 5) (r : BitVec 1) (z : BitVec 1) (w : BitVec 2) : Statement (.wta h d a b r z w) := by
  intro w hw
  cases hw
  rw [candidate_28]
  have h1 : BitVec.extractLsb' (n := 4) 3 1 (r ++ z ++ w) = r := (extract_high _ w 1 1).trans ((extract_high r z 0 1).trans (extract_all r))
  have h2 : BitVec.extractLsb' (n := 4) 2 1 (r ++ z ++ w) = z := (extract_high _ w 0 1).trans (extract_low r z)
  have h3 : BitVec.extractLsb' (n := 4) 0 2 (r ++ z ++ w) = w := extract_low _ w
  simp [decWta, h1, h2, h3]
theorem tcfgSet (h : Head) (d : BitVec 5) (a : BitVec 5) : Statement (.tcfgSet h d a) := by
  intro w hw
  cases hw
  rw [candidate_29]
  rfl
theorem tcfgRows (h : Head) (d : BitVec 5) (a : BitVec 5) : Statement (.tcfgRows h d a) := by
  intro w hw
  cases hw
  rw [candidate_29]
  rfl
theorem tcfgCols (h : Head) (d : BitVec 5) (a : BitVec 5) : Statement (.tcfgCols h d a) := by
  intro w hw
  cases hw
  rw [candidate_29]
  rfl
theorem tcfgKext (h : Head) (d : BitVec 5) (a : BitVec 5) : Statement (.tcfgKext h d a) := by
  intro w hw
  cases hw
  rw [candidate_29]
  rfl
theorem tcfgStg (h : Head) (d : BitVec 5) (a : BitVec 5) : Statement (.tcfgStg h d a) := by
  intro w hw
  cases hw
  rw [candidate_29]
  rfl
theorem tcfgFl (h : Head) (d : BitVec 5) (a : BitVec 5) : Statement (.tcfgFl h d a) := by
  intro w hw
  cases hw
  rw [candidate_29]
  rfl
theorem tld (h : Head) (d : BitVec 5) (a : BitVec 4) (o : BitVec 5) (z : BitVec 2) (q : BitVec 2) : Statement (.tld h d a o z q) := by
  intro w hw
  cases hw
  rw [candidate_2a]
  rfl
theorem tldImm (h : Head) (d : BitVec 5) (a : BitVec 4) (i : BitVec 5) (z : BitVec 2) (q : BitVec 2) : Statement (.tldImm h d a i z q) := by
  intro w hw
  cases hw
  rw [candidate_2a]
  rfl
theorem tst (h : Head) (d : BitVec 5) (a : BitVec 4) (o : BitVec 5) (z : BitVec 2) (q : BitVec 2) : Statement (.tst h d a o z q) := by
  intro w hw
  cases hw
  rw [candidate_2b]
  rfl
theorem tstImm (h : Head) (d : BitVec 5) (a : BitVec 4) (i : BitVec 5) (z : BitVec 2) (q : BitVec 2) : Statement (.tstImm h d a i z q) := by
  intro w hw
  cases hw
  rw [candidate_2b]
  rfl
theorem mmaAcc (h : Head) (d : BitVec 5) (a : BitVec 5) (b : BitVec 5) (k : BitVec 3) : Statement (.mmaAcc h d a b k) := by
  intro w hw
  cases hw
  rw [candidate_2c]
  have h1 : BitVec.extractLsb' (n := 4) 3 1 (0#1 ++ k) = 0#1 := (extract_high 0#1 k 0 1).trans (extract_all 0#1)
  have h2 : BitVec.extractLsb' (n := 4) 0 3 (0#1 ++ k) = k := extract_low 0#1 k
  simp [decMma, h1, h2]
theorem mmaSet (h : Head) (d : BitVec 5) (a : BitVec 5) (b : BitVec 5) (k : BitVec 3) : Statement (.mmaSet h d a b k) := by
  intro w hw
  cases hw
  rw [candidate_2c]
  have h1 : BitVec.extractLsb' (n := 4) 3 1 (1#1 ++ k) = 1#1 := (extract_high 1#1 k 0 1).trans (extract_all 1#1)
  have h2 : BitVec.extractLsb' (n := 4) 0 3 (1#1 ++ k) = k := extract_low 1#1 k
  simp [decMma, h1, h2]
theorem mxHad (h : Head) (d : BitVec 5) (a : BitVec 5) (b : BitVec 5) : Statement (.mxHad h d a b) := by
  intro w hw
  cases hw
  rw [candidate_2d]
  rfl
theorem mxPerm (h : Head) (d : BitVec 5) (a : BitVec 5) (b : BitVec 5) : Statement (.mxPerm h d a b) := by
  intro w hw
  cases hw
  rw [candidate_2d]
  rfl
theorem accZero (h : Head) (d : BitVec 5) : Statement (.accZero h d) := by
  intro w hw
  cases hw
  rw [candidate_2e]
  rfl
theorem accRd (h : Head) (d : BitVec 5) (a : BitVec 5) (b : BitVec 5) : Statement (.accRd h d a b) := by
  intro w hw
  cases hw
  rw [candidate_2e]
  rfl
theorem accWr (h : Head) (d : BitVec 5) (a : BitVec 5) (b : BitVec 5) : Statement (.accWr h d a b) := by
  intro w hw
  cases hw
  rw [candidate_2e]
  rfl
theorem accWid (h : Head) (d : BitVec 5) (a : BitVec 5) (b : BitVec 5) : Statement (.accWid h d a b) := by
  intro w hw
  cases hw
  rw [candidate_2e]
  rfl
theorem accNar (h : Head) (d : BitVec 5) (a : BitVec 5) (b : BitVec 5) : Statement (.accNar h d a b) := by
  intro w hw
  cases hw
  rw [candidate_2e]
  rfl
theorem accQ2 (h : Head) (d : BitVec 5) (a : BitVec 5) (b : BitVec 5) : Statement (.accQ2 h d a b) := by
  intro w hw
  cases hw
  rw [candidate_2e]
  rfl
theorem accQe (h : Head) (d : BitVec 5) (a : BitVec 5) (b : BitVec 5) : Statement (.accQe h d a b) := by
  intro w hw
  cases hw
  rw [candidate_2e]
  rfl
theorem lnchRec (h : Head) (d : BitVec 5) (a : BitVec 5) : Statement (.lnchRec h d a) := by
  intro w hw
  cases hw
  rw [candidate_2f]
  rfl
theorem lnchTrig (h : Head) (a : BitVec 5) : Statement (.lnchTrig h a) := by
  intro w hw
  cases hw
  rw [candidate_2f]
  rfl
theorem lnchCncl (h : Head) (a : BitVec 5) : Statement (.lnchCncl h a) := by
  intro w hw
  cases hw
  rw [candidate_2f]
  rfl
theorem pwrReq (h : Head) (d : BitVec 5) : Statement (.pwrReq h d) := by
  intro w hw
  cases hw
  rw [candidate_30]
  rfl
theorem pwrCls (h : Head) (d : BitVec 5) : Statement (.pwrCls h d) := by
  intro w hw
  cases hw
  rw [candidate_30]
  rfl
theorem pwrPool (h : Head) (d : BitVec 5) : Statement (.pwrPool h d) := by
  intro w hw
  cases hw
  rw [candidate_30]
  rfl
theorem tmWtill (h : Head) (a : BitVec 5) : Statement (.tmWtill h a) := by
  intro w hw
  cases hw
  rw [candidate_31]
  rfl
theorem tmWrel (h : Head) (a : BitVec 5) : Statement (.tmWrel h a) := by
  intro w hw
  cases hw
  rw [candidate_31]
  rfl
theorem tmRd (h : Head) (d : BitVec 5) : Statement (.tmRd h d) := by
  intro w hw
  cases hw
  rw [candidate_31]
  rfl
theorem dbgBrk (h : Head) : Statement (.dbgBrk h) := by
  intro w hw
  cases hw
  rw [candidate_32]
  rfl
theorem dbgProg (h : Head) (d : BitVec 5) (n : BitVec 4) : Statement (.dbgProg h d n) := by
  intro w hw
  cases hw
  rw [candidate_32]
  have h1 : BitVec.extractLsb' (n := 12) 4 8 (0#8 ++ n) = 0#8 := (extract_high 0#8 n 0 8).trans (extract_all 0#8)
  have h2 : BitVec.extractLsb' (n := 12) 0 4 (0#8 ++ n) = n := extract_low 0#8 n
  simp [decDbg, named, h1, h2]
theorem sysRdid (h : Head) (d : BitVec 5) (a : BitVec 5) : Statement (.sysRdid h d a) := by
  intro w hw
  cases hw
  rw [candidate_33]
  rfl
theorem sysTret (h : Head) : Statement (.sysTret h) := by
  intro w hw
  cases hw
  rw [candidate_33]
  rfl
theorem sysCinv (h : Head) : Statement (.sysCinv h) := by
  intro w hw
  cases hw
  rw [candidate_33]
  rfl
theorem sysTvt (h : Head) (a : BitVec 5) : Statement (.sysTvt h a) := by
  intro w hw
  cases hw
  rw [candidate_33]
  rfl

end Laws.RoundTrip

end Sys2Proof
end

