-- ==== Sys2Proof/Laws/Registers.lean ====
section
/-! SUPPORT. Sys2Proof/Laws/Registers.lean: everything a write of a vector register can do to a group (R71), for one frame and
for the frames of a path. -/

open Sys2Proof Sys2Proof.Machine

namespace Sys2Proof.Laws

/-! ## writeV -/

theorem tag_set (v : List Tag) (r q : Nat) (t : Tag) : (v.set r t).getD q (.u 0) = if q = r ∧ r < v.length then t else v.getD q (.u 0) := by
  simp only [List.getD_eq_getElem?_getD, List.getElem?_set]
  by_cases h : r = q
  · subst h
    by_cases h2 : r < v.length
    · simp [h2]
    · simp [h2]
  · have : ¬ q = r := fun e => h e.symm
    simp [h, this]

/-- A group whose frames keep all but their tags. -/
structure SameFrames (g g' : Group) : Prop where
  rest : g' = { g with frames := g'.frames, sets := g'.sets }
  frames : ∃ ph : Frame → List Tag, g'.frames = g.frames.map (fun x => { x with v := ph x })

theorem SameFrames.refl (g : Group) : SameFrames g g := ⟨rfl, fun x => x.v, by simp⟩

theorem SameFrames.trans {a b c : Group} (h : SameFrames a b) (k : SameFrames b c) : SameFrames a c := by
  obtain ⟨hr, ph, hf⟩ := h
  obtain ⟨kr, pk, kf⟩ := k
  refine ⟨?_, fun x => pk { x with v := ph x }, ?_⟩
  · rw [kr, hr]
  · rw [kf, hf, List.map_map]; rfl

theorem SameFrames.frame? {g g' : Group} (h : SameFrames g g') (id : Nat) :
    ∃ ph : Frame → List Tag, g'.frame? id = (g.frame? id).map (fun x => { x with v := ph x }) := by
  obtain ⟨_, ph, hf⟩ := h
  refine ⟨ph, ?_⟩
  unfold Group.frame?
  rw [hf, List.find?_map]
  rfl

theorem SameFrames.w {g g' : Group} (h : SameFrames g g') : g'.w = g.w := by rw [h.rest]
theorem SameFrames.lanes {g g' : Group} (h : SameFrames g g') : g'.lanes = g.lanes := by rw [h.rest]

/-- Reading a set by its name. -/
theorem setWords_of_mem {g : Group} (hw : (g.sets.map GSet.id).Nodup) {x : GSet} (hx : x ∈ g.sets) : g.setWords x.id = x.words := by
  have : g.sets.find? (fun y => y.id == x.id) = some x := by
    revert hw hx
    generalize g.sets = L
    induction L with
    | nil => intro _ h; cases h
    | cons a r ih =>
      intro hn hx
      simp only [List.map_cons, List.nodup_cons] at hn
      simp only [List.find?_cons]
      rcases List.mem_cons.1 hx with rfl | h
      · simp
      · have : (a.id == x.id) = false := by simpa using fun e : a.id = x.id => hn.1 (e ▸ List.mem_map_of_mem h)
        simp [this, ih hn.2 h]
  simp [Group.setWords, this]

/-- Register q of a frame and register r of another hold one granule set, as an argument of a call and its caller's register may (R74). -/
def Shares (k : Frame) (q : Nat) (f : Frame) (r : Nat) : Prop := ∃ n, k.tag q = .g n ∧ f.tag r = .g n

/-- What a write of one vector register does. -/
structure Wrote (g g' : Group) (fid r : Nat) (m : LaneSet) (v : Val) : Prop where
  wf : g'.Wf
  same : SameFrames g g'
  new : ∀ f ∈ g.frames, f.id = fid → ∀ f', g'.frame? fid = some f' → ∀ l, l < g.w → m.has l = true → (g'.readV f' r).lane l = v.lane l
  old : ∀ f ∈ g.frames, ∀ f', g'.frame? f.id = some f' → ∀ q l, l < g.w → (f.id = fid → q = r → m.has l = false ∧ f.owners.has l = true) →
    (f.id ≠ fid → m.has l = true → ∀ x ∈ g.frames, x.id = fid → ¬Shares f q x r) → (g'.readV f' q).lane l = (g.readV f q).lane l
  kept : ∀ f ∈ g.frames, f.id ≠ fid → g'.frame? f.id = some f
  tags : ∀ f ∈ g.frames, ∀ f', g'.frame? f.id = some f' → ∀ q n, f'.tag q = .g n → f.tag q = .g n ∨ n ∉ g.sets.map GSet.id

/-- The group with one register's tag replaced and other sets. -/
def retag (g : Group) (fid r : Nat) (t : Tag) (sets : List GSet) : Group := { g.setTag fid r t with sets := sets }

theorem retag_frame? (g : Group) (fid r : Nat) (t : Tag) (sets : List GSet) (id : Nat) :
    (retag g fid r t sets).frame? id = (g.frame? id).map (fun x => if x.id = fid then { x with v := x.v.set r t } else x) := by
  unfold retag Group.setTag Group.updFrame Group.frame?
  simp only [List.find?_map]
  have : (fun f : Frame => (f.id == id)) ∘ (fun x : Frame => if (x.id == fid) = true then { x with v := x.v.set r t } else x) = fun f => f.id == id := by
    funext x; simp only [Function.comp]; split <;> rfl
  rw [this]
  cases g.frames.find? (fun f => f.id == id) <;> simp

theorem retag_same (g : Group) (fid r : Nat) (t : Tag) (sets : List GSet) : SameFrames g (retag g fid r t sets) := by
  refine ⟨rfl, fun x => if x.id = fid then x.v.set r t else x.v, ?_⟩
  unfold retag Group.setTag Group.updFrame
  simp only
  apply List.map_congr_left
  intro x _
  by_cases h : x.id = fid <;> simp [h]

theorem mem_retag {g : Group} {fid r : Nat} {t : Tag} {sets : List GSet} {f : Frame} (h : f ∈ (retag g fid r t sets).frames) :
    ∃ x ∈ g.frames, f = if x.id = fid then { x with v := x.v.set r t } else x := by
  unfold retag Group.setTag Group.updFrame at h
  simp only [List.mem_map] at h
  obtain ⟨x, hx, rfl⟩ := h
  exact ⟨x, hx, by simp⟩

/-- Register tags after a retag. -/
theorem retag_tag (x : Frame) (fid r : Nat) (t : Tag) (hl : r < x.nv) (hv : x.v.length = x.nv) (q : Nat) :
    (if x.id = fid then { x with v := x.v.set r t } else x : Frame).tag q = if x.id = fid ∧ q = r then t else x.tag q := by
  unfold Frame.tag
  by_cases h : x.id = fid
  · simp only [h, if_true, true_and]; rw [tag_set]; simp [hv, hl]
  · simp [h]

theorem retag_id (x : Frame) (fid r : Nat) (t : Tag) : (if x.id = fid then { x with v := x.v.set r t } else x : Frame).id = x.id := by split <;> rfl
theorem retag_nv (x : Frame) (fid r : Nat) (t : Tag) : (if x.id = fid then { x with v := x.v.set r t } else x : Frame).nv = x.nv := by split <;> rfl

/-- Retagging keeps the registers well formed when the new tag is held by a set of its own, or by none. -/
theorem retag_wf {g : Group} (hw : g.Wf) {fid r : Nat} {t : Tag} {sets : List GSet} (hr : ∀ f ∈ g.frames, f.id = fid → r < f.nv)
    (h1 : (sets.map GSet.id).Nodup) (h2 : ∀ x ∈ sets, x.words.length = g.w)
    (h3 : ∀ f ∈ g.frames, ∀ q ∈ List.range f.nv, ¬(f.id = fid ∧ q = r) → ∀ n ∈ (f.tag q).set?.toList, n ∈ sets.map GSet.id)
    (h4 : ∀ n, t.set? = some n → n ∈ sets.map GSet.id ∧ ∀ f ∈ g.frames, ∀ q ∈ List.range f.nv, ¬(f.id = fid ∧ q = r) → (f.tag q).set? ≠ some n) :
    (retag g fid r t sets).Wf := by
  refine ⟨hw.width, hw.lanes, ?_, ?_, h1, h2, ?_, ?_, hw.tiles, hw.accs⟩
  · have : (retag g fid r t sets).frames.map Frame.id = g.frames.map Frame.id := by
      obtain ⟨_, ph, hf⟩ := retag_same g fid r t sets
      rw [hf, List.map_map]; rfl
    rw [this]; exact hw.ids
  · intro f hf
    obtain ⟨x, hx, rfl⟩ := mem_retag hf
    have := hw.regs x hx
    split <;> simp [this]
  · intro f hf q hq n hn
    obtain ⟨x, hx, rfl⟩ := mem_retag hf
    rw [retag_nv] at hq
    by_cases hc : x.id = fid ∧ q = r
    · rw [retag_tag x fid r t (by by_cases e : x.id = fid; exact hr x hx e; exact absurd hc.1 e) (hw.regs x hx).1, if_pos hc] at hn
      exact (h4 n (by simpa using hn)).1
    · by_cases e : x.id = fid
      · rw [retag_tag x fid r t (hr x hx e) (hw.regs x hx).1, if_neg hc] at hn
        exact h3 x hx q hq hc n hn
      · rw [if_neg e] at hn; exact h3 x hx q hq hc n hn
  · intro f hf k hk q hq p hp he hs
    obtain ⟨x, hx, rfl⟩ := mem_retag hf
    obtain ⟨y, hy, rfl⟩ := mem_retag hk
    rw [retag_nv] at hq hp
    have tx : ∀ x ∈ g.frames, ∀ q, (if x.id = fid then { x with v := x.v.set r t } else x : Frame).tag q = if x.id = fid ∧ q = r then t else x.tag q := by
      intro x hx q
      by_cases e : x.id = fid
      · exact retag_tag x fid r t (hr x hx e) (hw.regs x hx).1 q
      · simp [e]
    rw [tx x hx, tx y hy] at he
    rw [tx x hx] at hs
    by_cases cx : x.id = fid ∧ q = r
    · by_cases cy : y.id = fid ∧ p = r
      · exact cx.2.trans cy.2.symm
      · rw [if_pos cx, if_neg cy] at he
        rw [if_pos cx] at hs
        obtain ⟨n, hn⟩ := Option.isSome_iff_exists.1 hs
        exact absurd (he ▸ hn) ((h4 n hn).2 y hy p hp cy)
    · by_cases cy : y.id = fid ∧ p = r
      · rw [if_neg cx, if_pos cy] at he
        rw [if_neg cx] at hs
        obtain ⟨n, hn⟩ := Option.isSome_iff_exists.1 hs
        exact absurd hn ((h4 n (he ▸ hn)).2 x hx q hq cx)
      · rw [if_neg cx, if_neg cy] at he
        rw [if_neg cx] at hs
        exact hw.once x hx y hy q hq p hp he hs

theorem tag_mem {f : Frame} {q n : Nat} (h : f.tag q = .g n) : Tag.g n ∈ f.v ∧ q < f.v.length := by
  unfold Frame.tag at h
  by_cases hq : q < f.v.length
  · simp [List.getD_eq_getElem?_getD, hq] at h
    exact ⟨h ▸ List.getElem_mem hq, hq⟩
  · simp [List.getD_eq_getElem?_getD, hq] at h

theorem collect_setWords {g : Group} {f : Frame} (hf : f ∈ g.frames) {n : Nat} (h : Tag.g n ∈ f.v) : g.collect.setWords n = g.setWords n := by
  unfold Group.setWords Group.collect
  simp only [List.find?_filter]
  have : (fun x : GSet => decide ((g.frames.any fun f => f.v.contains (Tag.g x.id)) = true ∧ (x.id == n) = true)) = fun x => x.id == n := by
    funext x
    by_cases e : x.id = n
    · subst e
      have : (g.frames.any fun f => f.v.contains (Tag.g x.id)) = true := List.any_eq_true.2 ⟨f, hf, by simpa using h⟩
      simp only [this, beq_self_eq_true, and_self, decide_true]
    · simp [e]
  rw [this]

theorem collect_readV {g : Group} {f : Frame} (hf : f ∈ g.frames) (q : Nat) : g.collect.readV f q = g.readV f q := by
  unfold Group.readV
  cases h : f.tag q with
  | g n => simp only [Group.tagVal]; rw [collect_setWords hf (tag_mem h).1]
  | _ => rfl

theorem collect_same (g : Group) : SameFrames g g.collect := ⟨rfl, fun x => x.v, by simp [Group.collect]⟩

theorem collect_wf {g : Group} (hw : g.Wf) : g.collect.Wf := by
  refine ⟨hw.width, hw.lanes, hw.ids, hw.regs, ?_, ?_, ?_, hw.once, hw.tiles, hw.accs⟩
  · exact (List.filter_sublist.map _).nodup hw.sets
  · intro x hx; exact hw.words x (List.mem_filter.1 hx).1
  · intro f hf r hr n hn
    obtain ⟨x, hx, rfl⟩ := List.mem_map.1 (hw.held f hf r hr n hn)
    refine List.mem_map.2 ⟨x, List.mem_filter.2 ⟨hx, ?_⟩, rfl⟩
    refine List.any_eq_true.2 ⟨f, hf, ?_⟩
    have : f.tag r = .g x.id := by
      cases ht : f.tag r with
      | g k => rw [ht] at hn; simp [Tag.set?] at hn; rw [hn]
      | _ => rw [ht] at hn; simp [Tag.set?] at hn
    simpa using (tag_mem this).1

theorem Wf.setWords_length {g : Group} (hw : g.Wf) {f : Frame} (hf : f ∈ g.frames) {q n : Nat} (h : f.tag q = .g n) :
    ∃ x ∈ g.sets, x.id = n ∧ g.setWords n = x.words ∧ x.words.length = g.w := by
  have hq : q < f.nv := by rw [← (hw.regs f hf).1]; exact (tag_mem h).2
  obtain ⟨x, hx, e⟩ := List.mem_map.1 (hw.held f hf q (List.mem_range.2 hq) n (by simp [h, Tag.set?]))
  subst e
  exact ⟨x, hx, rfl, setWords_of_mem hw.sets hx, hw.words x hx⟩

theorem writeLanes_getD (m : LaneSet) (v : Val) (ws : List Word) (l : Nat) (h : l < ws.length) :
    (writeLanes m v ws).getD l 0 = if m.has l then v.lane l else ws.getD l 0 := by
  unfold writeLanes
  simp [List.getD_eq_getElem?_getD, h]

theorem writeLanes_length (m : LaneSet) (v : Val) (ws : List Word) : (writeLanes m v ws).length = ws.length := by simp [writeLanes]

theorem spread_getD (g : Group) (t : Tag) (l : Nat) (h : l < g.w) : (g.spread t).getD l 0 = (g.tagVal t).lane l := by
  unfold Group.spread
  simp [List.getD_eq_getElem?_getD, h]

theorem lt_freshSet {g : Group} {x : GSet} (h : x ∈ g.sets) : x.id < g.freshSet := by
  unfold Group.freshSet
  have key : ∀ (L : List GSet) (n : Nat), n ≤ L.foldl (fun n x => max n (x.id + 1)) n ∧
      ∀ x ∈ L, x.id < L.foldl (fun n x => max n (x.id + 1)) n := by
    intro L
    induction L with
    | nil => simp
    | cons a r ih =>
      intro n
      simp only [List.foldl_cons]
      obtain ⟨h1, h2⟩ := ih (max n (a.id + 1))
      refine ⟨by omega, ?_⟩
      intro x hx
      rcases List.mem_cons.1 hx with rfl | hx
      · omega
      · exact h2 x hx
  exact (key g.sets 0).2 x h

/-- A write that gives the whole register one shaped tag. -/
theorem wrote_full {g : Group} (hw : g.Wf) {f : Frame} (hf : f ∈ g.frames) {r : Nat} (hr : r < f.nv) {m : LaneSet} {t : Tag}
    (ht : t.set? = none) (hfull : ∀ l, f.owners.has l = true → m.has l = true) : Wrote g (g.setTag f.id r t).collect f.id r m (g.tagVal t) := by
  have e : g.setTag f.id r t = retag g f.id r t g.sets := rfl
  have hid : ∀ k ∈ g.frames, k.id = f.id → k = f := fun k hk h => by
    have a := frame?_of_mem hw hk; have b := frame?_of_mem hw hf; rw [h, b] at a; exact (Option.some.inj a).symm
  have hwf : (retag g f.id r t g.sets).Wf := retag_wf hw (fun k hk h => by rw [hid k hk h]; exact hr) hw.sets hw.words
    (fun k hk q hq _ n hn => hw.held k hk q hq n hn) (fun n hn => by rw [ht] at hn; cases hn)
  have tv : ∀ (s : Group), s.tagVal t = g.tagVal t := by intro s; cases t <;> first | rfl | (simp [Tag.set?] at ht)
  rw [e]
  have rd : ∀ k ∈ g.frames, ∀ k', (retag g f.id r t g.sets).collect.frame? k.id = some k' → ∀ q,
      (retag g f.id r t g.sets).collect.readV k' q = if k.id = f.id ∧ q = r then g.tagVal t else g.readV k q := by
    intro k hk k' hk' q
    have hk2 : (retag g f.id r t g.sets).frame? k.id = some k' := hk'
    rw [collect_readV (mem_of_frame? hk2).1]
    rw [retag_frame?, frame?_of_mem hw hk, Option.map_some, Option.some.injEq] at hk2
    subst hk2
    have tg : (if k.id = f.id then { k with v := k.v.set r t } else k : Frame).tag q = if k.id = f.id ∧ q = r then t else k.tag q := by
      by_cases e : k.id = f.id
      · exact retag_tag k f.id r t (by rw [hid k hk e]; exact hr) (hw.regs k hk).1 q
      · simp [e]
    unfold Group.readV
    rw [tg]
    split
    · exact tv _
    · cases k.tag q <;> rfl
  have kept : ∀ k ∈ g.frames, ∀ k', (retag g f.id r t g.sets).collect.frame? k.id = some k' → k' = if k.id = f.id then { k with v := k.v.set r t } else k := by
    intro k hk k' hk'
    have hk2 : (retag g f.id r t g.sets).frame? k.id = some k' := hk'
    rw [retag_frame?, frame?_of_mem hw hk, Option.map_some, Option.some.injEq] at hk2
    exact hk2.symm
  refine ⟨collect_wf hwf, (retag_same _ _ _ _ _).trans (collect_same _), ?_, ?_, ?_, ?_⟩
  rotate_left 2
  · intro k hk hne
    show (retag g f.id r t g.sets).frame? k.id = some k
    rw [retag_frame?, frame?_of_mem hw hk, Option.map_some, if_neg hne]
  · intro k hk k' hk' q n hn
    rw [kept k hk k' hk'] at hn
    by_cases e : k.id = f.id
    · rw [retag_tag k f.id r t (by rw [hid k hk e]; exact hr) (hw.regs k hk).1 q] at hn
      split at hn
      · rw [hn] at ht; simp [Tag.set?] at ht
      · exact .inl hn
    · rw [if_neg e] at hn; exact .inl hn
  · intro k hk hkid f' hf' l _ _
    have := rd k hk f' (hkid ▸ hf') r
    rw [this, if_pos ⟨hkid, rfl⟩]
  · intro k hk k' hk' q l _ hc _
    rw [rd k hk k' hk' q]
    by_cases c : k.id = f.id ∧ q = r
    · obtain ⟨a, b⟩ := hc c.1 c.2
      rw [hid k hk c.1] at b
      rw [hfull l b] at a; cases a
    · rw [if_neg c]

theorem wrote_expand {g : Group} (hw : g.Wf) {f : Frame} (hf : f ∈ g.frames) {r : Nat} (hr : r < f.nv) {m : LaneSet} {v : Val} :
    Wrote g (({ g with sets := g.sets ++ [GSet.mk g.freshSet (writeLanes m v (g.spread (f.tag r)))] } : Group).setTag f.id r (.g g.freshSet)) f.id r m v := by
  have hid : ∀ k ∈ g.frames, k.id = f.id → k = f := fun k hk h => by
    have a := frame?_of_mem hw hk; have b := frame?_of_mem hw hf; rw [h, b] at a; exact (Option.some.inj a).symm
  let S := g.sets ++ [GSet.mk g.freshSet (writeLanes m v (g.spread (f.tag r)))]
  have e : ({ g with sets := S } : Group).setTag f.id r (.g g.freshSet) = retag g f.id r (.g g.freshSet) S := rfl
  have hfresh : g.freshSet ∉ g.sets.map GSet.id := by
    intro h; obtain ⟨x, hx, e⟩ := List.mem_map.1 h; have := lt_freshSet hx; omega
  have hS : S.map GSet.id = g.sets.map GSet.id ++ [g.freshSet] := by simp [S]
  have hSn : (S.map GSet.id).Nodup := by
    rw [hS]; refine List.nodup_append.2 ⟨hw.sets, by simp, ?_⟩
    intro a ha b hb; simp only [List.mem_singleton] at hb; subst hb; intro h; exact hfresh (h ▸ ha)
  have named : ∀ k ∈ g.frames, ∀ q n, k.tag q = .g n → n ∈ g.sets.map GSet.id := by
    intro k hk q n h
    obtain ⟨x, hx, e, _⟩ := Wf.setWords_length hw hk h
    exact e ▸ List.mem_map_of_mem hx
  have hwf : (retag g f.id r (.g g.freshSet) S).Wf := by
    refine retag_wf hw (fun k hk h => by rw [hid k hk h]; exact hr) hSn ?_ ?_ ?_
    · intro x hx
      rcases List.mem_append.1 hx with hx | hx
      · exact hw.words x hx
      · simp only [List.mem_singleton] at hx; subst hx; simp [writeLanes_length, Group.spread]
    · intro k hk q hq _ n hn
      rw [hS]; exact List.mem_append_left _ (hw.held k hk q hq n hn)
    · intro n hn
      simp only [Tag.set?, Option.some.injEq] at hn; subst hn
      refine ⟨by rw [hS]; simp, ?_⟩
      intro k hk q _ _ h
      cases ht : k.tag q <;> rw [ht] at h <;> simp [Tag.set?] at h
      exact hfresh (h ▸ named k hk q _ ht)
  have wordsNew : (retag g f.id r (.g g.freshSet) S).setWords g.freshSet = writeLanes m v (g.spread (f.tag r)) := by
    exact setWords_of_mem (g := retag g f.id r (.g g.freshSet) S) hSn (x := GSet.mk g.freshSet _) (List.mem_append_right _ (List.mem_singleton.2 rfl))
  have wordsOld : ∀ n ∈ g.sets.map GSet.id, (retag g f.id r (.g g.freshSet) S).setWords n = g.setWords n := by
    intro n hn
    obtain ⟨x, hx, rfl⟩ := List.mem_map.1 hn
    rw [setWords_of_mem hw.sets hx]
    exact setWords_of_mem (g := retag g f.id r (.g g.freshSet) S) hSn (List.mem_append_left _ hx)
  have hS' : ({ g with sets := g.sets ++ [GSet.mk g.freshSet (writeLanes m v (g.spread (f.tag r)))] } : Group).setTag f.id r (.g g.freshSet) =
    retag g f.id r (.g g.freshSet) S := rfl
  rw [hS']
  have rd : ∀ k ∈ g.frames, ∀ k', (retag g f.id r (.g g.freshSet) S).frame? k.id = some k' → ∀ q l, l < g.w →
      ((retag g f.id r (.g g.freshSet) S).readV k' q).lane l = if k.id = f.id ∧ q = r then (if m.has l then v.lane l else (g.readV k q).lane l) else (g.readV k q).lane l := by
    intro k hk k' hk' q l hl
    rw [retag_frame?, frame?_of_mem hw hk, Option.map_some, Option.some.injEq] at hk'
    subst hk'
    have tg : (if k.id = f.id then { k with v := k.v.set r (.g g.freshSet) } else k : Frame).tag q = if k.id = f.id ∧ q = r then (.g g.freshSet) else k.tag q := by
      by_cases e : k.id = f.id
      · exact retag_tag k f.id r _ (by rw [hid k hk e]; exact hr) (hw.regs k hk).1 q
      · simp [e]
    unfold Group.readV
    rw [tg]
    by_cases c : k.id = f.id ∧ q = r
    · rw [if_pos c, if_pos c]
      simp only [Group.tagVal, Val.lane]
      rw [wordsNew, writeLanes_getD _ _ _ _ (by simpa [Group.spread] using hl), spread_getD _ _ _ hl]
      rw [hid k hk c.1, c.2]
      rfl
    · rw [if_neg c, if_neg c]
      cases ht : k.tag q with
      | g n => simp only [Group.tagVal, Val.lane]; rw [wordsOld n (named k hk q n ht)]
      | _ => rfl
  refine ⟨hwf, retag_same _ _ _ _ _, ?_, ?_, ?_, ?_⟩
  rotate_left 2
  · intro k hk hne
    rw [retag_frame?, frame?_of_mem hw hk, Option.map_some, if_neg hne]
  · intro k hk k' hk' q n hn
    rw [retag_frame?, frame?_of_mem hw hk, Option.map_some, Option.some.injEq] at hk'
    subst hk'
    by_cases e : k.id = f.id
    · rw [retag_tag k f.id r _ (by rw [hid k hk e]; exact hr) (hw.regs k hk).1 q] at hn
      split at hn
      · cases hn; exact .inr hfresh
      · exact .inl hn
    · rw [if_neg e] at hn; exact .inl hn
  · intro k hk hkid f' hf' l hl hm
    rw [rd k hk f' (hkid ▸ hf') r l hl, if_pos ⟨hkid, rfl⟩, if_pos hm]
  · intro k hk k' hk' q l hl hc hd
    rw [rd k hk k' hk' q l hl]
    by_cases c : k.id = f.id ∧ q = r
    · rw [if_pos c, (hc c.1 c.2).1]; simp
    · rw [if_neg c]

theorem wrote_inPlace {g : Group} (hw : g.Wf) {f : Frame} (hf : f ∈ g.frames) {r n : Nat} (ht : f.tag r = .g n) {m : LaneSet} {v : Val} :
    Wrote g { g with sets := g.sets.map (fun x => if x.id == n then { x with words := writeLanes m v x.words } else x) } f.id r m v := by
  have hid : ∀ k ∈ g.frames, k.id = f.id → k = f := fun k hk h => by
    have a := frame?_of_mem hw hk; have b := frame?_of_mem hw hf; rw [h, b] at a; exact (Option.some.inj a).symm
  have hr : r < f.nv := by rw [← (hw.regs f hf).1]; exact (tag_mem ht).2
  let F : GSet → GSet := fun x => if x.id == n then { x with words := writeLanes m v x.words } else x
  have hF : ∀ x, (F x).id = x.id := by intro x; simp only [F]; split <;> rfl
  have hmap : (g.sets.map F).map GSet.id = g.sets.map GSet.id := by rw [List.map_map]; apply List.map_congr_left; intro x _; exact hF x
  have hwf : ({ g with sets := g.sets.map F } : Group).Wf := by
    refine ⟨hw.width, hw.lanes, hw.ids, hw.regs, ?_, ?_, ?_, hw.once, hw.tiles, hw.accs⟩
    · show ((g.sets.map F).map GSet.id).Nodup
      rw [hmap]; exact hw.sets
    · intro x hx
      obtain ⟨y, hy, rfl⟩ := List.mem_map.1 hx
      simp only [F]; split
      · simpa [writeLanes_length] using hw.words y hy
      · exact hw.words y hy
    · intro k hk q hq j hj
      show j ∈ (g.sets.map F).map GSet.id
      rw [hmap]; exact hw.held k hk q hq j hj
  have words : ∀ x ∈ g.sets, ({ g with sets := g.sets.map F } : Group).setWords x.id = if x.id = n then writeLanes m v x.words else x.words := by
    intro x hx
    have := setWords_of_mem (g := { g with sets := g.sets.map F }) (by show ((g.sets.map F).map GSet.id).Nodup; rw [hmap]; exact hw.sets) (List.mem_map_of_mem (f := F) hx)
    rw [hF] at this
    rw [this]
    by_cases e : x.id = n <;> simp [F, e]
  have rd : ∀ k ∈ g.frames, ∀ q l, l < g.w → (k.id ≠ f.id → m.has l = true → ¬Shares k q f r) → (({ g with sets := g.sets.map F } : Group).readV k q).lane l =
      if k.id = f.id ∧ q = r then (if m.has l then v.lane l else (g.readV k q).lane l) else (g.readV k q).lane l := by
    intro k hk q l hl hd
    unfold Group.readV
    cases htk : k.tag q with
    | g j =>
      obtain ⟨x, hx, rfl, hxw, hlen⟩ := Wf.setWords_length hw hk htk
      simp only [Group.tagVal, Val.lane]
      rw [words x hx, hxw]
      by_cases e : x.id = n
      · rw [if_pos e, writeLanes_getD _ _ _ _ (by omega)]
        by_cases ek : k.id = f.id
        · have hkf := hid k hk ek
          subst hkf
          have := hw.once k hk k hk q (List.mem_range.2 (by rw [← (hw.regs k hk).1]; exact (tag_mem htk).2)) r (List.mem_range.2 hr) (by rw [htk, ht, e]) (by simp [htk, Tag.set?])
          rw [if_pos (And.intro rfl this)]; rfl
        · have : m.has l = false := by
            rw [Bool.eq_false_iff]; intro hm
            exact hd ek hm ⟨n, by rw [htk, e], ht⟩
          rw [this, if_neg (fun h : k.id = f.id ∧ q = r => ek h.1)]; rfl
      · have : ¬(k.id = f.id ∧ q = r) := by
          rintro ⟨a, rfl⟩; rw [hid k hk a, ht] at htk; cases htk; exact e rfl
        rw [if_neg e, if_neg this]
    | _ =>
      have : ¬(k.id = f.id ∧ q = r) := by
        rintro ⟨a, rfl⟩; rw [hid k hk a, ht] at htk; cases htk
      rw [if_neg this]; rfl
  have hS : SameFrames g { g with sets := g.sets.map F } := ⟨rfl, fun x => x.v, by simp⟩
  refine ⟨hwf, hS, ?_, ?_, fun k hk _ => frame?_of_mem hw hk, fun k hk k' hk' q j hj => ?_⟩
  rotate_right 1
  · have h2 : g.frame? k.id = some k' := hk'
    rw [frame?_of_mem hw hk] at h2; cases h2; exact .inl hj
  · intro k hk hkid f' hf' l hl hm
    have h2 : g.frame? f.id = some f' := hf'
    rw [frame?_of_mem hw hf] at h2; cases h2
    exact (rd f hf r l hl (fun h => absurd rfl h)).trans (by simp [hm])
  · intro k hk k' hk' q l hl hc hd
    have h2 : g.frame? k.id = some k' := hk'
    rw [frame?_of_mem hw hk] at h2; cases h2
    refine (rd k hk q l hl (fun a b => hd a b f hf rfl)).trans ?_
    by_cases c : k.id = f.id ∧ q = r
    · rw [if_pos c, (hc c.1 c.2).1]; simp
    · rw [if_neg c]

theorem writeV_wrote {g : Group} (hw : g.Wf) {f : Frame} (hf : f ∈ g.frames) {r : Nat} (hr : r < f.nv) (m : LaneSet) (v : Val) :
    Wrote g (g.writeV f r m v) f.id r m v := by
  have key : (LaneSet.subset f.owners m = true ∧ ((∃ b, v = .u b ∧ g.writeV f r m v = (g.setTag f.id r (.u b)).collect) ∨
      (∃ b d, v = .a b d ∧ g.writeV f r m v = (g.setTag f.id r (.a b d)).collect))) ∨
      (∃ n, f.tag r = .g n ∧ g.writeV f r m v = { g with sets := g.sets.map (fun x => if x.id == n then { x with words := writeLanes m v x.words } else x) }) ∨
      (∃ b, f.tag r = .u b ∧ v = .u b ∧ g.writeV f r m v = g) ∨
      g.writeV f r m v = ({ g with sets := g.sets ++ [GSet.mk g.freshSet (writeLanes m v (g.spread (f.tag r)))] } : Group).setTag f.id r (.g g.freshSet) := by
    unfold Group.writeV
    cases hfull : LaneSet.subset f.owners m <;> cases v <;> cases ht : f.tag r
    case false.u.u c b =>
      by_cases e : b = c
      · subst e; exact .inr (.inr (.inl ⟨b, rfl, rfl, by simp⟩))
      · exact .inr (.inr (.inr (by simp [e])))
    all_goals first
      | exact .inl ⟨rfl, .inl ⟨_, rfl, rfl⟩⟩
      | exact .inl ⟨rfl, .inr ⟨_, _, rfl, rfl⟩⟩
      | exact .inr (.inl ⟨_, rfl, rfl⟩)
      | exact .inr (.inr (.inr rfl))
  rcases key with ⟨hfull, ⟨b, rfl, e⟩ | ⟨b, d, rfl, e⟩⟩ | ⟨n, ht, e⟩ | ⟨b, ht, rfl, e⟩ | e
  · rw [e]; exact wrote_full hw hf hr rfl ((subset_iff _ _).1 hfull)
  · rw [e]; exact wrote_full hw hf hr rfl ((subset_iff _ _).1 hfull)
  · rw [e]; exact wrote_inPlace hw hf ht
  · rw [e]
    refine ⟨hw, SameFrames.refl g, ?_, ?_, fun k hk _ => frame?_of_mem hw hk, fun k hk k' hk' q j hj => ?_⟩
    rotate_right 1
    · rw [frame?_of_mem hw hk] at hk'; cases hk'; exact .inl hj
    · intro k hk hkid f' hf' l hl hm
      rw [frame?_of_mem hw hf] at hf'; cases hf'
      simp [Group.readV, ht, Group.tagVal]
    · intro k hk k' hk' q l hl hc hd
      rw [frame?_of_mem hw hk] at hk'; cases hk'; rfl
  · rw [e]; exact wrote_expand hw hf hr

/-- The effect of writing one register in several frames. -/
def writeFrames (g : Group) (fs : List (Frame × LaneSet)) (r : Frame → Nat) (val : Frame → LaneSet → Val) : Group :=
  fs.foldl (fun g (f, m) => match g.frame? f.id with | some f' => g.writeV f' (r f) m (val f m) | none => g) g

structure WroteAll (g g' : Group) (fs : List (Frame × LaneSet)) (r : Frame → Nat) (val : Frame → LaneSet → Val) : Prop where
  wf : g'.Wf
  same : SameFrames g g'
  new : ∀ x ∈ fs, ∀ f', g'.frame? x.1.id = some f' → ∀ l, l < g.w → x.2.has l = true → (g'.readV f' (r x.1)).lane l = (val x.1 x.2).lane l
  old : ∀ f ∈ g.frames, ∀ f', g'.frame? f.id = some f' → ∀ q l, l < g.w →
    (∀ x ∈ fs, (x.1.id = f.id → q = r x.1 → x.2.has l = false ∧ f.owners.has l = true) ∧
      (x.1.id ≠ f.id → x.2.has l = true → ¬Shares f q x.1 (r x.1))) → (g'.readV f' q).lane l = (g.readV f q).lane l
  kept : ∀ f ∈ g.frames, (∀ x ∈ fs, x.1.id ≠ f.id) → g'.frame? f.id = some f
  tags : ∀ f ∈ g.frames, ∀ f', g'.frame? f.id = some f' → ∀ q n, f'.tag q = .g n →
    f.tag q = .g n ∨ ∀ k ∈ g.frames, (∀ x ∈ fs, x.1.id ≠ k.id) → ∀ p, k.tag p ≠ .g n

theorem SameFrames.mem {g g' : Group} (h : SameFrames g g') {f : Frame} (hf : f ∈ g'.frames) :
    ∃ k ∈ g.frames, ∃ v, f = { k with v := v } := by
  obtain ⟨_, ph, e⟩ := h
  rw [e] at hf
  obtain ⟨k, hk, rfl⟩ := List.mem_map.1 hf
  exact ⟨k, hk, _, rfl⟩

/-- The frame of the same reference after tags changed. -/
theorem SameFrames.find {g g' : Group} (h : SameFrames g g') {id : Nat} {f : Frame} (hf : g.frame? id = some f) :
    ∃ v, g'.frame? id = some { f with v := v } := by
  obtain ⟨ph, e⟩ := h.frame? id
  exact ⟨ph f, by rw [e, hf]; rfl⟩

theorem writeFrames_wrote {g : Group} (hw : g.Wf) (fs : List (Frame × LaneSet)) (r : Frame → Nat) (val : Frame → LaneSet → Val)
    (h1 : ∀ x ∈ fs, g.frame? x.1.id = some x.1 ∧ r x.1 < x.1.nv) (h2 : (fs.map (fun x => x.1.id)).Nodup)
    (h3 : ∀ x ∈ fs, ∀ y ∈ fs, x.1.id ≠ y.1.id → ∀ l, x.2.has l = true → y.2.has l = false) :
    WroteAll g (writeFrames g fs r val) fs r val := by
  have key : ∀ (R L : List (Frame × LaneSet)) (h : Group), (∀ x ∈ L ++ R, g.frame? x.1.id = some x.1 ∧ r x.1 < x.1.nv) →
      ((L ++ R).map (fun x => x.1.id)).Nodup → (∀ x ∈ L ++ R, ∀ y ∈ L ++ R, x.1.id ≠ y.1.id → ∀ l, x.2.has l = true → y.2.has l = false) → WroteAll g h L r val → WroteAll g (writeFrames h R r val) (L ++ R) r val := by
    intro R
    induction R with
    | nil => intro L h _ _ _ hh; simpa [writeFrames] using hh
    | cons a t ih =>
      intro L h ha hn hd hh
      obtain ⟨ha1, ha2⟩ := ha a (List.mem_append_right _ List.mem_cons_self)
      obtain ⟨v, hv⟩ := hh.same.find ha1
      have hmem := (mem_of_frame? hv).1
      have w := writeV_wrote hh.wf hmem (r := r a.1) ha2 a.2 (val a.1 a.2)
      have step : writeFrames h (a :: t) r val = writeFrames (h.writeV { a.1 with v := v } (r a.1) a.2 (val a.1 a.2)) t r val := by
        simp only [writeFrames, List.foldl_cons, hv]
      have e : L ++ a :: t = (L ++ [a]) ++ t := by simp
      have hnot : ∀ x ∈ L, x.1.id ≠ a.1.id := by
        intro x hx he
        rw [List.map_append, List.map_cons] at hn
        exact (List.nodup_append.1 hn).2.2 x.1.id (List.mem_map_of_mem hx) a.1.id List.mem_cons_self he
      rw [step, e]
      refine ih (L ++ [a]) _ (by rw [← e]; exact ha) (by rw [← e]; exact hn) (by rw [← e]; exact hd) ⟨w.wf, hh.same.trans w.same, ?_, ?_, ?_, ?_⟩
      rotate_left 2
      · intro f hf hne
        have hk := hh.kept f hf (fun x hx => hne x (List.mem_append_left _ hx))
        exact w.kept f (mem_of_frame? hk).1 (fun h => hne a (List.mem_append_right _ (List.mem_singleton.2 rfl)) h.symm)
      · intro f hf f' hf' q n hq
        obtain ⟨u, hu⟩ := hh.same.find (frame?_of_mem hw hf)
        rcases w.tags _ (mem_of_frame? hu).1 f' hf' q n hq with hq | hq
        · refine (hh.tags f hf _ hu q n hq).imp_right (fun ht k hk hne => ht k hk (fun x hx => hne x (List.mem_append_left _ hx)))
        · refine .inr (fun k hk hne p hp => hq ?_)
          have hkk := hh.kept k hk (fun x hx => hne x (List.mem_append_left _ hx))
          obtain ⟨x, hx, he, _⟩ := Wf.setWords_length hh.wf (mem_of_frame? hkk).1 hp
          exact he ▸ List.mem_map_of_mem hx
      · intro x hx f' hf' l hl hm
        rcases List.mem_append.1 hx with hx | hx
        · obtain ⟨hx1, _⟩ := ha x (List.mem_append_left _ hx)
          obtain ⟨u, hu⟩ := hh.same.find hx1
          have ho := w.old { x.1 with v := u } (mem_of_frame? hu).1 f' hf' (r x.1) l (by rw [hh.same.w]; exact hl) (fun hid => absurd hid (hnot x hx))
            (fun _ h2 => by rw [hd x (List.mem_append_left _ hx) a (List.mem_append_right _ List.mem_cons_self) (hnot x hx) l hm] at h2; cases h2)
          rw [ho]; exact hh.new x hx _ hu l hl hm
        · simp only [List.mem_singleton] at hx; subst hx
          exact w.new _ hmem rfl f' hf' l (by rw [hh.same.w]; exact hl) hm
      · intro f hf f' hf' q l hl hc
        have hff := frame?_of_mem hw hf
        obtain ⟨u, hu⟩ := hh.same.find hff
        have hc1 := hc
        have ho := w.old { f with v := u } (mem_of_frame? hu).1 f' hf' q l (by rw [hh.same.w]; exact hl)
          (fun hid hq => (hc a (List.mem_append_right _ (List.mem_singleton.2 rfl))).1 hid.symm hq)
          (fun hne hm x hx hxid => by
            have hak := hh.kept a.1 (mem_of_frame? ha1).1 hnot
            have hxa : x = a.1 := by
              have e1 := frame?_of_mem hh.wf hx
              rw [hxid] at e1
              have e2 : h.frame? a.1.id = some x := e1
              rw [hak] at e2; exact (Option.some.inj e2).symm
            subst hxa
            rintro ⟨n, h1, h2⟩
            rcases hh.tags f hf _ hu q n h1 with h3 | h3
            · exact (hc a (List.mem_append_right _ (List.mem_singleton.2 rfl))).2 (fun h => hne h.symm) hm ⟨n, h3, h2⟩
            · exact h3 a.1 (mem_of_frame? ha1).1 hnot _ h2)
        rw [ho]
        exact hh.old f hf _ hu q l hl (fun x hx => hc x (List.mem_append_left _ hx))
  have := key fs [] g (by simpa using h1) (by simpa using h2) (by simpa using h3)
    ⟨hw, SameFrames.refl g, by simp, fun f hf f' hf' q l _ _ => by rw [frame?_of_mem hw hf] at hf'; cases hf'; rfl,
      fun f hf _ => frame?_of_mem hw hf, fun f hf f' hf' q n hn => by rw [frame?_of_mem hw hf] at hf'; cases hf'; exact .inl hn⟩
  simpa using this

end Sys2Proof.Laws
end

