-- ==== Sys2Proof/Laws/Words.lean ====
section
/-! SUPPORT. Sys2Proof/Laws/Words.lean: everything that a word of one shape does when it executes (R50, R51, R71, R201): the frame
of every word, and the words whose effect is one write of vector registers, uniform registers or a predicate. -/

open Sys2Proof Sys2Proof.Machine

namespace Sys2Proof.Laws

/-! ## States -/

theorem ctx_spec {s : State} {h : Head} {c : Ctx} (e : s.ctx? h = some c) :
    ∃ cu g, s.cur = some cu ∧ s.group? cu.core cu.slot = some g ∧ c.s0 = s ∧ c.core = cu.core ∧ c.slot = cu.slot ∧ c.path = cu.path ∧ c.pc = cu.pc ∧
      c.act = g.active cu.path h ∧ c.g = g.updLanes cu.path (fun _ x => { x with pc := cu.pc + 4 }) ∧ c.s = s.setGroup c.g := by
  unfold State.ctx? at e
  split at e
  · cases e
  · rename_i cu hcu
    split at e
    · cases e
    · rename_i g hg
      simp only [Option.some.injEq] at e
      subst e
      exact ⟨cu, g, hcu, hg, rfl, rfl, rfl, rfl, rfl, rfl, rfl, rfl⟩

theorem group?_core {s : State} {j k : Nat} {g : Group} (h : s.group? j k = some g) : g.core = j ∧ g.slot = k := by
  have := List.find?_some h
  simpa using this

theorem updGroup_group? (s : State) (j k : Nat) (f : Group → Group) (hf : ∀ g, (f g).core = g.core ∧ (f g).slot = g.slot) (a b : Nat) :
    (s.updGroup j k f).group? a b = (s.group? a b).map (fun g => if a = j ∧ b = k then f g else g) := by
  unfold State.updGroup State.group?
  simp only [List.find?_map]
  have : (fun g : Group => g.core == a && g.slot == b) ∘ (fun x : Group => if (x.core == j && x.slot == k) = true then f x else x) =
      fun g => g.core == a && g.slot == b := by
    funext x; simp only [Function.comp]; split <;> simp [hf]
  rw [this]
  cases h : s.groups.find? (fun g => g.core == a && g.slot == b) with
  | none => rfl
  | some g =>
    have := List.find?_some h
    simp only [Bool.and_eq_true, beq_iff_eq] at this
    simp [this.1, this.2]

theorem setGroup_eq (s : State) (g : Group) : s.setGroup g = s.updGroup g.core g.slot (fun _ => g) := rfl

theorem setGroup_group? (s : State) (g : Group) (a b : Nat) :
    (s.setGroup g).group? a b = if a = g.core ∧ b = g.slot then (s.group? a b).map (fun _ => g) else s.group? a b := by
  unfold State.setGroup State.group?
  simp only [List.find?_map]
  have : (fun g : Group => g.core == a && g.slot == b) ∘ (fun x : Group => if (x.core == g.core && x.slot == g.slot) = true then g else x) =
      fun g => g.core == a && g.slot == b := by
    funext x; simp only [Function.comp]
    split
    · rename_i h; simp only [Bool.and_eq_true, beq_iff_eq] at h; rw [h.1, h.2]
    · rfl
  rw [this]
  cases h : s.groups.find? (fun g => g.core == a && g.slot == b) with
  | none => simp
  | some x =>
    have hx := List.find?_some h
    simp only [Bool.and_eq_true, beq_iff_eq] at hx
    simp only [Option.map_some, hx.1, hx.2, Bool.and_eq_true, beq_iff_eq]
    split <;> simp

theorem ctx_group? {s : State} {h : Head} {c : Ctx} (e : s.ctx? h = some c) : c.s.group? c.core c.slot = some c.g := by
  obtain ⟨cu, g, _, hg, _, h1, h2, _, _, _, h3, h4⟩ := ctx_spec e
  have hc := group?_core hg
  have : c.g.core = g.core ∧ c.g.slot = g.slot := by rw [h3]; exact ⟨rfl, rfl⟩
  rw [h4, setGroup_group?, h1, h2, hg, this.1, this.2, hc.1, hc.2]; simp

theorem ctx_ids {s : State} {h : Head} {c : Ctx} (e : s.ctx? h = some c) : c.g.core = c.core ∧ c.g.slot = c.slot := group?_core (ctx_group? e)

theorem onlyGroup_ctx {s : State} {h : Head} {c : Ctx} (e : s.ctx? h = some c) : OnlyGroup c.s0 c.s c.core c.slot := by
  obtain ⟨cu, g, _, hg, h0, h1, h2, _, _, _, h3, h4⟩ := ctx_spec e
  have hi := ctx_ids e
  refine ⟨?_, ?_, ?_⟩
  · rw [h4, h0]; rfl
  · intro k; rw [h4, h0]; rfl
  · intro j k hn
    rw [h4, h0, setGroup_group?, hi.1, hi.2, if_neg hn]

theorem onlyGroup_trans {a b c : State} {j k : Nat} (h : OnlyGroup a b j k) (h' : OnlyGroup b c j k) : OnlyGroup a c j k := by
  refine ⟨?_, ?_, ?_⟩
  · rw [h'.rest, h.rest]
  · intro n; rw [h'.cores n, h.cores n]
  · intro x y hn; rw [h'.others x y hn, h.others x y hn]

theorem onlyGroup_updGroup (s : State) (j k : Nat) (f : Group → Group) (hf : ∀ g, (f g).core = g.core ∧ (f g).slot = g.slot) :
    OnlyGroup s (s.updGroup j k f) j k := by
  refine ⟨rfl, fun n => rfl, ?_⟩
  intro a b hn
  rw [updGroup_group? s j k f hf]; cases s.group? a b <;> simp [hn]

theorem onlyGroup_dropRequest (s : State) (j k : Nat) (pc : DWord) (m : LaneSet) : OnlyGroup s (s.dropRequest j k pc m) j k := by
  refine ⟨rfl, ?_, fun a b _ => rfl⟩
  intro n
  unfold State.dropRequest State.updCore State.core
  simp only [List.getD_eq_getElem?_getD, List.getElem?_modify]
  cases h : s.cores[n]? with
  | none => simp
  | some c => by_cases e : j = n <;> simp [e]

/-- What is left of a word's effect when it needs no more granules than are free. -/
theorem withRows_room {c : Ctx} {rows : Nat} {k : State → State} (h : c.Free rows 0) :
    c.withRows rows 0 k = k c.s ∨ c.withRows rows 0 k = k (c.s.dropRequest c.core c.slot c.pc c.act) := by
  unfold Ctx.withRows
  split
  · exact .inl rfl
  · rename_i hn
    have : c.s.roomFor c.core c.slot c.pc c.act rows 0 = true := by
      unfold State.roomFor
      simp [h.first (by omega), Nat.le_trans h.rows (Nat.le_add_right _ _)]
    rw [if_pos this]; exact .inr rfl

/-- A word that breaks no bound is as it is. -/
@[simp] theorem inBounds_nil (c : Ctx) : c.inBounds [] = c := by simp [Ctx.inBounds]

theorem runWordB_ready {h : Head} {us : List Use} {extra : Ctx → List (Nat × Nat × DWord × Word)} {cls : OrdClass} {wait : Ctx → Bool}
    {body : Ctx → State} {s : State} {c : Ctx} (e : s.ctx? h = some c) (r : c.Ready us cls) (hx : extra c = []) (hw : wait c = false) :
    runWordB h us extra cls wait body s = .next (body c) := by
  unfold runWordB
  have ha : (c.act == 0) = false := by
    rw [beq_eq_false_iff_ne]; intro h; exact r.active (by rw [h]; simp [LaneSet.list])
  simp only [e, r.bounds, hx, List.append_nil, inBounds_nil, ha, r.free, r.held, hw, r.good, Bool.or_false, Bool.false_eq_true, if_false]

theorem runWord_ready {h : Head} {us : List Use} {cls : OrdClass} {wait : Ctx → Bool} {body : Ctx → State} {s : State} {c : Ctx}
    (e : s.ctx? h = some c) (r : c.Ready us cls) (hw : wait c = false) : runWord h us cls wait body s = .next (body c) :=
  runWordB_ready e r rfl hw

/-- A frame of a lane's stack is the group's, by its reference. -/
theorem stackFrom_frame? (g : Group) (n id : Nat) {f : Frame} (h : f ∈ g.stackFrom n id) : g.frame? f.id = some f := by
  induction n generalizing id with
  | zero => simp [Group.stackFrom] at h
  | succ n ih =>
    unfold Group.stackFrom at h
    split at h
    · cases h
    · rename_i k hk
      have here : g.frame? k.id = some k := by rw [(mem_of_frame? hk).2]; exact hk
      split at h
      · rw [List.mem_singleton.1 h]; exact here
      · rcases List.mem_cons.1 h with rfl | h
        · exact here
        · exact ih _ h

/-- A frame beneath a lane's current one: the group's, by its reference, and on the lane's stack. -/
theorem below_frame? {g : Group} {l : Nat} {f : Frame} (h : f ∈ (g.stack l).drop 1) : g.frame? f.id = some f ∧ f ∈ g.stack l :=
  have hs : f ∈ g.stack l := List.mem_of_mem_drop h
  ⟨stackFrom_frame? g _ _ hs, hs⟩

/-- A register block that the fields of a ready word name lies within the frames of its active lanes. -/
theorem ready_bound {c : Ctx} {us : List Use} {cls : OrdClass} (r : c.Ready us cls) {u : Use} (hu : u ∈ us) {l : Nat} (hl : l ∈ c.act.list c.g.w) :
    (u.cls = .v → u.reg + u.count ≤ (c.g.frm l).nv) ∧ (u.cls = .s → u.reg + u.count ≤ (c.g.frm l).ns) := by
  have hb := r.bounds
  unfold Ctx.bounds at hb
  simp only [List.filterMap_eq_nil_iff] at hb
  have := hb l hl
  simp only [Option.map_eq_none_iff, List.findSome?_eq_none_iff] at this
  have := this u hu
  constructor <;> intro hc <;> unfold useBeyond at this <;> simp only [hc] at this <;> split at this <;> first | assumption | (cases this)

theorem frm_of_bound {g : Group} {l n : Nat} (h : n < (g.frm l).nv ∨ n < (g.frm l).ns) : g.frame? (g.lane l).frame = some (g.frm l) := by
  unfold Group.frm at h ⊢
  cases hf : g.frame? (g.lane l).frame with
  | some f => rfl
  | none => rw [hf] at h; simp [Frame.none] at h

theorem writeV_same (g : Group) (f : Frame) (r : Nat) (m : LaneSet) (v : Val) : SameFrames g (g.writeV f r m v) := by
  have t : ∀ (g : Group) (id : Nat) (t : Tag), SameFrames g (g.setTag id r t) := fun g id t => retag_same g id r t g.sets
  have st : ∀ S, SameFrames g { g with sets := S } := fun S => ⟨rfl, fun x => x.v, by simp⟩
  unfold Group.writeV
  cases LaneSet.subset f.owners m <;> cases v <;> cases f.tag r <;> simp only <;>
    first
    | exact (t _ _ _).trans (collect_same _)
    | exact st _
    | exact (st _).trans (t _ _ _)
    | (split <;> first | exact SameFrames.refl g | exact (st _).trans (t _ _ _))

theorem writeFrames_same (g : Group) (fs : List (Frame × LaneSet)) (r : Frame → Nat) (val : Frame → LaneSet → Val) : SameFrames g (writeFrames g fs r val) := by
  unfold writeFrames
  induction fs generalizing g with
  | nil => exact SameFrames.refl g
  | cons a t ih =>
    simp only [List.foldl_cons]
    refine SameFrames.trans ?_ (ih _)
    split
    · exact writeV_same _ _ _ _ _
    · exact SameFrames.refl g

theorem flag_rest {g g' : Group} (h : SameFrames g g') (fl : FFlags) :
    g'.flag fl = { g with lanes := (g'.flag fl).lanes, frames := (g'.flag fl).frames, sets := (g'.flag fl).sets, fflags := (g'.flag fl).fflags } := by
  obtain ⟨hr, _⟩ := h
  rw [hr]; rfl

theorem mates_has (c : Ctx) (hw : c.g.w ≤ 64) (l j : Nat) : (c.mates l).has j = true ↔ j ∈ c.act.list c.g.w ∧ (c.g.lane j).frame = (c.g.lane l).frame := by
  unfold Ctx.mates
  rw [and_has, ofPred_has _ _ _ hw, mem_list]
  simp [and_left_comm, and_assoc]

theorem laneSet_ext {a b : LaneSet} (h : ∀ l, a.has l = b.has l) : a = b := BitVec.eq_of_getLsbD_eq (fun i _ => h i)

/-- The entry of an active lane's frame. -/
theorem frames_entry {c : Ctx} (hw : c.g.w ≤ 64) {l : Nat} (hl : l ∈ c.act.list c.g.w) (hf : c.g.frame? (c.g.lane l).frame = some (c.g.frm l)) :
    (c.g.frm l, c.mates l) ∈ c.frames := by
  have G := framesOf_grouped c.g c.act hw
  obtain ⟨m, hm⟩ := G.all l hl _ hf
  have : m = c.mates l := by
    apply laneSet_ext; intro j
    have a := G.lanes _ hm j
    have b := mates_has c hw l j
    have : (c.g.frm l).id = (c.g.lane l).frame := (mem_of_frame? hf).2
    rw [Bool.eq_iff_iff, a, b, this]
  rw [← this]; exact hm

theorem foldl_add_le (fs : List (Frame × LaneSet)) (k : Nat) (p : Frame × LaneSet → Bool) :
    fs.foldl (fun n x => n + if p x then k else 0) 0 ≤ k * fs.length := by
  have : ∀ (fs : List (Frame × LaneSet)) n, fs.foldl (fun n x => n + if p x then k else 0) n ≤ n + k * fs.length := by
    intro fs
    induction fs with
    | nil => simp
    | cons a t ih =>
      intro n
      simp only [List.foldl_cons, List.length_cons]
      have := ih (n + if p a then k else 0)
      have h2 : (if p a then k else 0) ≤ k := by split <;> omega
      rw [Nat.mul_add]; omega
  simpa using this fs 0

/-- The granules that writing a register in each frame of the active lanes takes. -/
def needOf (c : Ctx) (d : Frame → Nat) (val : Frame → LaneSet → Val) : Nat :=
  c.frames.foldl (fun n (x : Frame × LaneSet) => n + if x.1.takesSet (d x.1) x.2 (val x.1 x.2) then c.g.perReg else 0) 0

/-- WRITING A VECTOR REGISTER of each frame of the active lanes: with room, every active lane's register holds its value, and nothing else
changes. -/
theorem writeRows_wrote {s : State} {h : Head} {c : Ctx} (e : s.ctx? h = some c) (hw : c.g.Wf) (ho : c.g.Owned) (hr : c.Room 1)
    {d : Frame → Nat} (hd : ∀ l ∈ c.act.list c.g.w, d (c.g.frm l) < (c.g.frm l).nv) (val : Frame → LaneSet → Val) (fl : FFlags)
    {t : State} (ht : t = c.withRows (needOf c d val) 0 (fun s => c.updG s (fun g => (writeFrames g c.frames d val).flag fl))) :
    c.WroteV (fun l => d (c.g.frm l)) (fun l => (val (c.g.frm l) (c.mates l)).lane l) fl t := by
  subst ht
  have G := framesOf_grouped c.g c.act hw.width
  have need : c.Free (needOf c d val) 0 := by
    have hr := hr.resolve_left Nat.one_ne_zero
    have hle : needOf c d val ≤ 1 * c.g.perReg * c.frames.length := by
      rw [Nat.one_mul]
      exact foldl_add_le c.frames c.g.perReg (fun x => x.1.takesSet (d x.1) x.2 (val x.1 x.2))
    exact ⟨Nat.le_trans hle hr.rows, hr.quads, fun hn => hr.first (by omega)⟩
  let F : Group → Group := fun g => (writeFrames g c.frames d val).flag fl
  let F0 : State → State := fun s => c.updG s F
  have hF : ∀ g, (F g).core = g.core ∧ (F g).slot = g.slot := by
    intro g
    have := (writeFrames_same g c.frames d val).rest
    show (writeFrames g c.frames d val).core = _ ∧ (writeFrames g c.frames d val).slot = _
    rw [this]; exact ⟨rfl, rfl⟩
  have hset : c.withRows (needOf c d val) 0 F0 = c.updG c.s F ∨ c.withRows (needOf c d val) 0 F0 = c.updG (c.s.dropRequest c.core c.slot c.pc c.act) F :=
    withRows_room (k := fun s => c.updG s F) need
  have hgrp : (c.withRows (needOf c d val) 0 F0).group? c.core c.slot = some (F c.g) ∧ OnlyGroup c.s0 (c.withRows (needOf c d val) 0 F0) c.core c.slot := by
    have hg := ctx_group? e
    rcases hset with hset | hset <;> rw [hset] <;> refine ⟨?_, ?_⟩
    · unfold Ctx.updG; rw [updGroup_group? _ _ _ _ hF, hg]; simp
    · exact onlyGroup_trans (onlyGroup_ctx e) (onlyGroup_updGroup _ _ _ _ hF)
    · unfold Ctx.updG; rw [updGroup_group? _ _ _ _ hF]
      show Option.map _ (c.s.group? c.core c.slot) = _
      rw [hg]; simp
    · exact onlyGroup_trans (onlyGroup_trans (onlyGroup_ctx e) (onlyGroup_dropRequest _ _ _ _ _)) (onlyGroup_updGroup _ _ _ _ hF)
  have W := writeFrames_wrote hw c.frames d val
    (fun x hx => ⟨G.frames x hx, by
      have hx1 := G.frames x hx
      by_cases hne : ∃ j, x.2.has j = true
      · obtain ⟨j, hj⟩ := hne
        have := (G.lanes x hx j).1 hj
        have hb := hd j this.1
        unfold Group.frm at hb
        rw [this.2, hx1] at hb; exact hb
      · -- an entry always has a lane
        exfalso
        exact hne (G.nonempty x hx)⟩) G.ids
    (fun x hx y hy hne l hl => by
      rw [Bool.eq_false_iff]; intro h2
      exact hne ((((G.lanes x hx l).1 hl).2).symm.trans ((G.lanes y hy l).1 h2).2))
  have hs := W.same
  have lane_eq : ∀ l, (F c.g).lane l = c.g.lane l := by
    intro l
    show (writeFrames c.g c.frames d val).lane l = _
    unfold Group.lane; rw [hs.lanes]
  have frame_eq : ∀ id, (F c.g).frame? id = (writeFrames c.g c.frames d val).frame? id := fun id => rfl
  have readV_eq : ∀ f q, (F c.g).readV f q = (writeFrames c.g c.frames d val).readV f q := by
    intro f q; unfold Group.readV; cases f.tag q <;> rfl
  refine ⟨hgrp.2, F c.g, hgrp.1, ⟨?_, ?_⟩, ?_, ?_, ?_, ?_, ?_, ?_⟩
  · show (writeFrames c.g c.frames d val).flag fl = _
    exact flag_rest hs fl
  · intro l; rw [lane_eq]
  · intro l hl
    have hf := frm_of_bound (g := c.g) (l := l) (.inl (hd l hl))
    have hent := frames_entry hw.width hl hf
    have hid : (c.g.frm l).id = (c.g.lane l).frame := (mem_of_frame? hf).2
    obtain ⟨v, hv⟩ := hs.find hf
    have hn := W.new _ hent _ (by rw [hid]; exact hv) l ((mem_list _ _ _).1 hl).1 (by rw [mates_has c hw.width]; exact ⟨hl, rfl⟩)
    unfold Group.laneV
    rw [readV_eq]
    have : (F c.g).frm l = { c.g.frm l with v := v } := by
      unfold Group.frm; rw [lane_eq, frame_eq, hv]; rfl
    rw [this]; exact hn
  · intro l hl hlive q hq
    obtain ⟨⟨f, hf, hid, hown⟩, _⟩ := ho l hl hlive
    have hff : c.g.frame? (c.g.lane l).frame = some f := hid ▸ frame?_of_mem hw hf
    have hfrm : c.g.frm l = f := by unfold Group.frm; rw [hff]; rfl
    obtain ⟨v, hv⟩ := hs.find hff
    have := W.old f hf _ (by rw [hid]; exact hv) q l (List.mem_range.1 hl) (by
      intro x hx
      refine ⟨fun hxid hqd => ⟨?_, hown⟩, fun hne h2 =>
        absurd ((((G.lanes x hx l).1 h2).2).symm.trans hid.symm) hne⟩
      rw [Bool.eq_false_iff]
      intro hc
      have := ((G.lanes x hx l).1 hc).1
      have hx1 : x.1 = c.g.frm l := by
        have a := G.frames x hx
        rw [hxid, frame?_of_mem hw hf] at a
        rw [hfrm]; exact (Option.some.inj a).symm
      exact hq ⟨by rw [hqd, hx1], ((mem_list _ _ _).1 this).2⟩)
    unfold Group.laneV
    rw [readV_eq, hfrm]
    have : (F c.g).frm l = { f with v := v } := by
      unfold Group.frm; rw [lane_eq, frame_eq, hv]; rfl
    rw [this]; assumption
  · intro l q
    obtain ⟨ph, hp⟩ := hs.frame? (c.g.lane l).frame
    unfold Group.frm
    rw [lane_eq, frame_eq, hp]
    cases c.g.frame? (c.g.lane l).frame <;> rfl
  · show (writeFrames c.g c.frames d val).lanes = _
    exact hs.lanes
  · show (writeFrames c.g c.frames d val).fflags ||| _ = _
    rw [hs.rest]
  · intro l hl hlive f hf hne
    obtain ⟨hff, hst⟩ := below_frame? hf
    have hmem := (mem_of_frame? hff).1
    obtain ⟨v, hv⟩ := hs.find hff
    refine ⟨{ f with v := v }, hv, rfl, fun _ => rfl, fun q hq => ?_⟩
    rw [readV_eq]
    refine W.old f hmem _ hv q l (List.mem_range.1 hl) (fun x hx => ⟨fun hxid _ => ⟨?_, (ho l hl hlive).2 f hst⟩, fun _ hxl => ?_⟩)
    · rw [Bool.eq_false_iff]; intro h2
      exact hne (hxid.symm.trans ((G.lanes x hx l).1 h2).2.symm)
    · rintro ⟨n, h1, h2⟩
      obtain ⟨ha, hfr⟩ := (G.lanes x hx l).1 hxl
      have hx1 := G.frames x hx
      have hxe : c.g.frm l = x.1 := by unfold Group.frm; rw [hfr, hx1]; rfl
      have hxm := (mem_of_frame? hx1).1
      have hqd := hw.once f hmem x.1 hxm q (List.mem_range.2 (by rw [← (hw.regs f hmem).1]; exact (tag_mem h1).2)) (d x.1)
        (List.mem_range.2 (by rw [← (hw.regs x.1 hxm).1]; exact (tag_mem h2).2)) (h1.trans h2.symm) (by simp [h1, Tag.set?])
      exact hq ⟨⟨by show q = d (c.g.frm l); rw [hxe]; exact hqd, ((mem_list _ _ _).1 ha).2⟩, by simp [h1, Tag.set?], by rw [hxe, h1, hqd, h2]⟩

/-- SETTING A VECTOR REGISTER (setV of R213). -/
theorem setV_wrote {s : State} {h : Head} {c : Ctx} (e : s.ctx? h = some c) (hw : c.g.Wf) (ho : c.g.Owned) (hr : c.Room 1)
    {d : Nat} (hd : ∀ l ∈ c.act.list c.g.w, d < (c.g.frm l).nv) (val : Frame → LaneSet → Val) (fl : FFlags) :
    c.WroteV (fun _ => d) (fun l => (val (c.g.frm l) (c.mates l)).lane l) fl (c.setV d val fl) :=
  writeRows_wrote e hw ho hr (d := fun _ => d) hd val fl rfl

/-! ## Uniform registers -/

/-- A group whose frames keep all but their uniform registers. -/
structure SameTags (g g' : Group) : Prop where
  rest : g' = { g with frames := g'.frames }
  frames : ∃ ph : Frame → List Word, g'.frames = g.frames.map (fun x => { x with s := ph x })

theorem SameTags.refl (g : Group) : SameTags g g := ⟨rfl, fun x => x.s, by simp⟩

theorem SameTags.trans {a b c : Group} (h : SameTags a b) (k : SameTags b c) : SameTags a c := by
  obtain ⟨hr, ph, hf⟩ := h
  obtain ⟨kr, pk, kf⟩ := k
  refine ⟨?_, fun x => pk { x with s := ph x }, ?_⟩
  · rw [kr, hr]
  · rw [kf, hf, List.map_map]; rfl

theorem SameTags.lanes {g g' : Group} (h : SameTags g g') : g'.lanes = g.lanes := by rw [h.rest]
theorem SameTags.sets {g g' : Group} (h : SameTags g g') : g'.sets = g.sets := by rw [h.rest]
theorem SameTags.fflags {g g' : Group} (h : SameTags g g') : g'.fflags = g.fflags := by rw [h.rest]
theorem SameTags.ids {g g' : Group} (h : SameTags g g') : g'.core = g.core ∧ g'.slot = g.slot := by rw [h.rest]; exact ⟨rfl, rfl⟩
theorem SameTags.only {g g' : Group} (h : SameTags g g') :
    g' = { g with lanes := g'.lanes, frames := g'.frames, sets := g'.sets, fflags := g'.fflags } := by
  obtain ⟨hr, _⟩ := h
  rw [hr]

theorem setU_same (g : Group) (id r : Nat) (x : Word) : SameTags g (g.setU id r x) := by
  refine ⟨rfl, fun f => if f.id = id then f.s.set r x else f.s, ?_⟩
  unfold Group.setU Group.updFrame
  apply List.map_congr_left
  intro f _
  by_cases h : f.id = id <;> simp [h]

theorem setU_frame? (g : Group) (id r : Nat) (x : Word) (k : Nat) :
    (g.setU id r x).frame? k = (g.frame? k).map (fun f => if k = id then { f with s := f.s.set r x } else f) := by
  unfold Group.setU Group.updFrame Group.frame?
  simp only [List.find?_map]
  have : (fun f : Frame => (f.id == k)) ∘ (fun f : Frame => if (f.id == id) = true then { f with s := f.s.set r x } else f) = fun f => f.id == k := by
    funext f; simp only [Function.comp]; split <;> rfl
  rw [this]
  cases h : g.frames.find? (fun f => f.id == k) with
  | none => rfl
  | some f =>
    have := List.find?_some h
    simp only [beq_iff_eq] at this
    simp [this]

/-- Several words written to registers d onwards of one frame. -/
def putU (g : Group) (id d : Nat) (ws : List Word) : Group := (ws.zipIdx).foldl (fun g (w, i) => g.setU id (d + i) w) g

theorem U_set (f : Frame) (r q : Nat) (x : Word) : ({ f with s := f.s.set r x } : Frame).U q = if q = r ∧ r < f.s.length then x else f.U q := by
  unfold Frame.U
  simp only [List.getD_eq_getElem?_getD, List.getElem?_set]
  by_cases h : r = q
  · subst h; by_cases h2 : r < f.s.length <;> simp [h2]
  · have : ¬ q = r := fun e => h e.symm
    simp [h, this]

/-- What a write of uniform registers of one frame does, read by reference: `n` words from d on. -/
structure PutU (g g' : Group) (id d : Nat) (ws : List Word) : Prop where
  same : SameTags g g'
  others : ∀ k, k ≠ id → g'.frame? k = g.frame? k
  old : ∀ f f', g.frame? id = some f → g'.frame? id = some f' → ∀ q, ¬(d ≤ q ∧ q < d + ws.length) → f'.U q = f.U q
  new : ∀ f f', g.frame? id = some f → g'.frame? id = some f' → d + ws.length ≤ f.s.length → ∀ i w, ws[i]? = some w → f'.U (d + i) = w
  some : ∀ f, g.frame? id = some f → ∃ f', g'.frame? id = some f' ∧ f'.s.length = f.s.length ∧ f'.v = f.v

theorem putU_one (g : Group) (id d : Nat) (x : Word) : PutU g (g.setU id d x) id d [x] := by
  refine ⟨setU_same g id d x, ?_, ?_, ?_, ?_⟩
  · intro k hk; rw [setU_frame?]; cases g.frame? k <;> simp [hk]
  · intro f f' hf hf' q hq
    rw [setU_frame?, hf] at hf'
    simp only [Option.map_some, if_true, Option.some.injEq] at hf'
    subst hf'
    rw [U_set, if_neg]; rintro ⟨rfl, _⟩; exact hq ⟨Nat.le_refl _, by simp⟩
  · intro f f' hf hf' hl i w hw
    rw [setU_frame?, hf] at hf'
    simp only [Option.map_some, if_true, Option.some.injEq] at hf'
    subst hf'
    cases i with
    | zero => simp only [List.getElem?_cons_zero, Option.some.injEq] at hw; subst hw; rw [U_set, if_pos ⟨rfl, Nat.lt_of_succ_le hl⟩]
    | succ n => simp at hw
  · intro f hf
    exact ⟨{ f with s := f.s.set d x }, by rw [setU_frame?, hf]; simp, by simp, rfl⟩

theorem putU_pair (g : Group) (id d : Nat) (x : DWord) : PutU g (g.setUP id d x) id d [x.extractLsb' 0 32, x.extractLsb' 32 32] := by
  have a := putU_one g id d (x.extractLsb' 0 32)
  have b := putU_one (g.setU id d (x.extractLsb' 0 32)) id (d + 1) (x.extractLsb' 32 32)
  refine ⟨a.same.trans b.same, ?_, ?_, ?_, ?_⟩
  · intro k hk; exact (b.others k hk).trans (a.others k hk)
  · intro f f' hf hf' q hq
    obtain ⟨m, hm, _⟩ := a.some f hf
    simp only [List.length_cons, List.length_nil] at hq
    rw [b.old m f' hm hf' q (by simp; omega), a.old f m hf hm q (by simp; omega)]
  · intro f f' hf hf' hl i w hw
    obtain ⟨m, hm, hml, _⟩ := a.some f hf
    simp only [List.length_cons, List.length_nil] at hl
    match i, hw with
    | 0, hw =>
      simp only [List.getElem?_cons_zero, Option.some.injEq] at hw; subst hw
      rw [b.old m f' hm hf' (d + 0) (by simp <;> omega)]
      exact a.new f m hf hm (by simp; omega) 0 _ rfl
    | 1, hw =>
      simp only [List.getElem?_cons_succ, List.getElem?_cons_zero, Option.some.injEq] at hw; subst hw
      exact b.new m f' hm hf' (by simp; omega) 0 _ rfl
    | n + 2, hw => simp at hw
  · intro f hf
    obtain ⟨m, hm, hml, hmv⟩ := a.some f hf
    obtain ⟨k, hk, hkl, hkv⟩ := b.some m hm
    exact ⟨k, hk, hkl.trans hml, hkv.trans hmv⟩

/-- SETTING UNIFORM REGISTERS: `put` writes the words of each frame of the active lanes; nothing else changes. -/
theorem setU_wrote {s : State} {h : Head} {c : Ctx} (e : s.ctx? h = some c) (hw : c.g.Wf) {d n : Nat}
    (hd : ∀ l ∈ c.act.list c.g.w, d + n ≤ (c.g.frm l).ns) (hn : 0 < n) (val : Frame → LaneSet → List Word) (hv : ∀ f m, (val f m).length = n)
    (put : Group → Frame → LaneSet → Group) (hp : ∀ g f m, PutU g (put g f m) f.id d (val f m)) :
    c.WroteU d (fun l => val (c.g.frm l) (c.mates l)) (c.updG c.s (fun g => c.frames.foldl (fun g x => put g x.1 x.2) g)) := by
  have G := framesOf_grouped c.g c.act hw.width
  have same : ∀ (fs : List (Frame × LaneSet)) (g : Group), SameTags g (fs.foldl (fun g x => put g x.1 x.2) g) := by
    intro fs
    induction fs with
    | nil => exact fun g => SameTags.refl g
    | cons a t ih => intro g; exact (hp g a.1 a.2).same.trans (ih _)
  -- frames by reference after the fold
  have fold : ∀ (fs : List (Frame × LaneSet)) (g : Group), (fs.map (fun x => x.1.id)).Nodup →
      (∀ k, k ∉ fs.map (fun x => x.1.id) → (fs.foldl (fun g x => put g x.1 x.2) g).frame? k = g.frame? k) ∧
      (∀ x ∈ fs, ∀ f, g.frame? x.1.id = some f → ∃ f', (fs.foldl (fun g x => put g x.1 x.2) g).frame? x.1.id = some f' ∧ f'.v = f.v ∧
        (∀ q, ¬(d ≤ q ∧ q < d + n) → f'.U q = f.U q) ∧ (d + n ≤ f.s.length → ∀ i w, (val x.1 x.2)[i]? = some w → f'.U (d + i) = w)) := by
    intro fs
    induction fs with
    | nil => intro g _; exact ⟨fun _ _ => rfl, by simp⟩
    | cons a t ih =>
      intro g hnd
      simp only [List.map_cons, List.nodup_cons] at hnd
      obtain ⟨i1, i2⟩ := ih (put g a.1 a.2) hnd.2
      have P := hp g a.1 a.2
      refine ⟨?_, ?_⟩
      · intro k hk
        simp only [List.map_cons, List.mem_cons, not_or] at hk
        rw [List.foldl_cons, i1 k hk.2, P.others k hk.1]
      · intro x hx f hf
        rcases List.mem_cons.1 hx with rfl | hx
        · obtain ⟨f', hf', hl, hvv⟩ := P.some f hf
          refine ⟨f', by rw [List.foldl_cons, i1 _ hnd.1, hf'], hvv, ?_, ?_⟩
          · intro q hq; exact P.old f f' hf hf' q (by rw [hv]; exact hq)
          · intro hlen i w hw'; exact P.new f f' hf hf' (by rw [hv]; exact hlen) i w hw'
        · have hne : x.1.id ≠ a.1.id := fun e => hnd.1 (e ▸ List.mem_map_of_mem (f := fun x : Frame × LaneSet => x.1.id) hx)
          exact i2 x hx f ((P.others _ hne).trans hf)
  let F : Group → Group := fun g => c.frames.foldl (fun g x => put g x.1 x.2) g
  have hF : ∀ g, (F g).core = g.core ∧ (F g).slot = g.slot := fun g => (same c.frames g).ids
  have hgrp : (c.updG c.s F).group? c.core c.slot = some (F c.g) := by
    unfold Ctx.updG; rw [updGroup_group? _ _ _ _ hF, ctx_group? e]; simp
  have S := same c.frames c.g
  obtain ⟨fo, fi⟩ := fold c.frames c.g G.ids
  have lane_eq : ∀ l, (F c.g).lane l = c.g.lane l := by
    intro l; unfold Group.lane; rw [show (F c.g).lanes = c.g.lanes from S.lanes]
  have frm_v : ∀ l, ((F c.g).frm l).v = (c.g.frm l).v := by
    intro l
    unfold Group.frm; rw [lane_eq]
    obtain ⟨_, ph, hph⟩ := S
    show (Option.getD (List.find? _ (List.foldl _ c.g c.frames).frames) _).v = _
    rw [hph, List.find?_map]
    unfold Group.frame?
    have : (fun f : Frame => f.id == (c.g.lane l).frame) ∘ (fun x : Frame => { x with s := ph x }) = fun f => f.id == (c.g.lane l).frame := rfl
    rw [this]
    cases c.g.frames.find? (fun f => f.id == (c.g.lane l).frame) <;> rfl
  refine ⟨onlyGroup_trans (onlyGroup_ctx e) (onlyGroup_updGroup _ _ _ _ hF), F c.g, hgrp, ⟨?_, fun l => by rw [lane_eq]⟩, ?_, ?_, ?_, ?_, ?_, ?_⟩
  · exact S.only
  · intro l hl i w hi
    have hb := hd l hl
    have hf := frm_of_bound (g := c.g) (l := l) (.inr (show d < (c.g.frm l).ns by omega))
    have hid : (c.g.frm l).id = (c.g.lane l).frame := (mem_of_frame? hf).2
    have hmem := (mem_of_frame? hf).1
    obtain ⟨f', hf', _, _, hnew⟩ := fi _ (frames_entry hw.width hl hf) (c.g.frm l) (by rw [hid]; exact hf)
    have : (F c.g).frm l = f' := by
      unfold Group.frm; rw [lane_eq, ← hid]; show ((List.foldl _ c.g c.frames).frame? _).getD _ = _; rw [hf']; rfl
    rw [this]
    exact hnew (by rw [(hw.regs _ hmem).2]; exact hb) i w hi
  · intro l r hno
    by_cases hin : ∃ x ∈ c.frames, x.1.id = (c.g.lane l).frame
    · obtain ⟨x, hx, hxid⟩ := hin
      obtain ⟨j, hj⟩ := G.nonempty x hx
      have hj2 := (G.lanes x hx j).1 hj
      have hxf := G.frames x hx
      obtain ⟨f', hf', _, hold, _⟩ := fi x hx _ hxf
      have e1 : (F c.g).frm l = f' := by
        unfold Group.frm; rw [lane_eq, ← hxid]; show ((List.foldl _ c.g c.frames).frame? _).getD _ = _; rw [hf']; rfl
      have e2 : c.g.frm l = x.1 := by unfold Group.frm; rw [← hxid, hxf]; rfl
      rw [e1, e2]
      have := hno j hj2.1 (hj2.2.trans hxid)
      rw [hv] at this
      exact hold r this
    · have : (c.g.lane l).frame ∉ c.frames.map (fun x => x.1.id) := by
        intro hm; obtain ⟨x, hx, hh⟩ := List.mem_map.1 hm; exact hin ⟨x, hx, hh⟩
      have h2 := fo _ this
      unfold Group.frm; rw [lane_eq]
      show (((List.foldl _ c.g c.frames).frame? _).getD _).U r = _
      rw [h2]
  · intro l r
    unfold Group.laneV Group.readV Frame.tag
    rw [frm_v]
    have hsets : (F c.g).sets = c.g.sets := S.sets
    cases (c.g.frm l).v.getD r (Tag.u 0) <;> simp only [Group.tagVal, Group.setWords, hsets]
  · exact S.lanes
  · exact S.fflags
  · intro l hl hlive f hf hne
    obtain ⟨hff, _⟩ := below_frame? hf
    have hsets : (F c.g).sets = c.g.sets := S.sets
    have rd : ∀ f' : Frame, f'.v = f.v → ∀ r, ((F c.g).readV f' r).lane l = (c.g.readV f r).lane l := by
      intro f' h r
      unfold Group.readV Frame.tag
      rw [h]
      cases f.v.getD r (Tag.u 0) <;> simp only [Group.tagVal, Group.setWords, hsets]
    by_cases hin : ∃ k ∈ c.act.list c.g.w, (c.g.lane k).frame = f.id
    · obtain ⟨_, ph, hph⟩ := S
      have hf' : (F c.g).frame? f.id = some { f with s := ph f } := by
        show List.find? _ (List.foldl _ c.g c.frames).frames = _
        rw [hph, List.find?_map]
        have : (fun x : Frame => x.id == f.id) ∘ (fun x : Frame => { x with s := ph x }) = fun x => x.id == f.id := rfl
        rw [this]
        have : List.find? (fun x : Frame => x.id == f.id) c.g.frames = some f := hff
        rw [this]; rfl
      exact ⟨_, hf', rfl, fun hn => (by obtain ⟨k, hk, he⟩ := hin; exact absurd he (hn k hk)), fun r _ => rd _ rfl r⟩
    · have hno : f.id ∉ c.frames.map (fun x => x.1.id) := by
        intro hm
        obtain ⟨x, hx, hxid⟩ := List.mem_map.1 hm
        obtain ⟨j, hj⟩ := G.nonempty x hx
        have hj2 := (G.lanes x hx j).1 hj
        exact hin ⟨j, hj2.1, hj2.2.trans hxid⟩
      exact ⟨f, (fo _ hno).trans hff, rfl, fun _ => rfl, fun r _ => rd f rfl r⟩

/-! ## Predicates -/

theorem updLanes_lane (g : Group) (m : LaneSet) (f : Nat → Lane → Lane) (l : Nat) :
    (g.updLanes m f).lane l = if m.has l = true ∧ l < g.lanes.length then f l (g.lane l) else g.lane l := by
  unfold Group.updLanes Group.lane
  simp only [List.getD_eq_getElem?_getD, List.getElem?_mapIdx]
  by_cases h : l < g.lanes.length
  · simp [h]
  · simp [h]

theorem setBit_get (w : Half) (n k : Nat) (b : Bool) (hn : n < 16) (hk : k < 16) : (setBit w n b).getLsbD k = if k = n then b else w.getLsbD k := by
  unfold setBit
  cases b
  · simp only [Bool.false_eq_true, if_false, BitVec.getLsbD_and, BitVec.getLsbD_not, BitVec.getLsbD_ofNat, Nat.testBit_two_pow]
    by_cases h : k = n
    · subst h; simp [hk]
    · have : ¬ n = k := fun e => h e.symm
      simp [h, this, hk]
  · simp only [if_true, BitVec.getLsbD_or, BitVec.getLsbD_ofNat, Nat.testBit_two_pow]
    by_cases h : k = n
    · subst h; simp [hk]
    · have : ¬ n = k := fun e => h e.symm
      simp [h, this]

theorem setPd_pd {g : Group} (n : Nat) (m : LaneSet) (f : Nat → Bool) (k l : Nat) (hn : n < 16) (hk : k < 16) :
    (g.setPd n m f).pd k l = if k = n ∧ m.has l = true ∧ l < g.lanes.length then f l else g.pd k l := by
  unfold Group.setPd Group.pd
  rw [updLanes_lane]
  by_cases h : m.has l = true ∧ l < g.lanes.length
  · rw [if_pos h]; simp only [setBit_get _ _ _ _ hn hk]
    by_cases e : k = n <;> simp [e, h]
  · rw [if_neg h, if_neg (fun x => h x.2)]

/-- SETTING A PREDICATE: the active lanes' bits take their values; nothing else changes. -/
theorem setPd_wrote {s : State} {h : Head} {c : Ctx} (e : s.ctx? h = some c) (hw : c.g.Wf) {d : Nat} (hd : d < 16) (val : Nat → Bool) (fl : FFlags)
    {t : State} (ht : t = c.updG c.s (fun g => (g.setPd d c.act val).flag fl)) : c.WroteP d val fl t := by
  subst ht
  let F : Group → Group := fun g => (g.setPd d c.act val).flag fl
  have hF : ∀ g, (F g).core = g.core ∧ (F g).slot = g.slot := fun g => ⟨rfl, rfl⟩
  have hgrp : (c.updG c.s F).group? c.core c.slot = some (F c.g) := by
    unfold Ctx.updG; rw [updGroup_group? _ _ _ _ hF, ctx_group? e]; simp
  have lane_eq : ∀ l, (F c.g).lane l = if c.act.has l = true ∧ l < c.g.lanes.length then { c.g.lane l with preds := setBit (c.g.lane l).preds d (val l) } else c.g.lane l :=
    fun l => updLanes_lane c.g c.act _ l
  have frm_eq : ∀ l, (F c.g).frm l = c.g.frm l := by
    intro l; unfold Group.frm; rw [lane_eq]
    have : ∀ id, (F c.g).frame? id = c.g.frame? id := fun _ => rfl
    split <;> rw [this]
  refine ⟨onlyGroup_trans (onlyGroup_ctx e) (onlyGroup_updGroup _ _ _ _ hF), F c.g, hgrp, ⟨rfl, ?_⟩, ?_, ?_, ?_, ?_, rfl, ?_⟩
  · intro l; rw [lane_eq]; split <;> rfl
  · intro l hl
    have := (mem_list _ _ _).1 hl
    show (c.g.setPd d c.act val).pd d l = _
    rw [setPd_pd d c.act val d l hd hd, if_pos ⟨rfl, this.2, by rw [hw.lanes]; exact this.1⟩]
  · intro l n hn hn16
    show (c.g.setPd d c.act val).pd n l = _
    rw [setPd_pd d c.act val n l hd hn16, if_neg (fun x => hn ⟨x.1, x.2.1⟩)]
  · intro l r
    unfold Group.laneV; rw [frm_eq]
    unfold Group.readV
    cases (c.g.frm l).tag r <;> rfl
  · intro l r; rw [frm_eq]
  · intro l hl hlive f hf hne
    refine ⟨f, (below_frame? hf).1, rfl, fun _ => rfl, fun r _ => ?_⟩
    unfold Group.readV
    cases f.tag r <;> rfl

/-! ## Values -/

theorem affine_lane (b d : Word) (l : Nat) : (Val.affine b d).lane l = b + d * BitVec.ofNat 32 l := by
  unfold Val.affine
  by_cases h : d = 0
  · subst h; simp [Val.lane]
  · rw [if_neg h]; rfl

theorem shape2_lane {f : Word → Word → Word} {aff : Val → Val → Option Val} {x y : Val}
    (h : ∀ v, aff x y = some v → ∀ l, v.lane l = f (x.lane l) (y.lane l)) (l : Nat) : (shape2 f aff x y).lane l = f (x.lane l) (y.lane l) := by
  unfold shape2
  split
  · rfl
  · split
    · rename_i v hv; exact h v hv l
    · rfl

theorem shape1_lane {f : Word → Word} {aff : Val → Option Val} {x : Val} (h : ∀ v, aff x = some v → ∀ l, v.lane l = f (x.lane l)) (l : Nat) :
    (shape1 f aff x).lane l = f (x.lane l) := by
  unfold shape1
  split
  · rfl
  · split
    · rename_i v hv; exact h v hv l
    · rfl

theorem shl_mul (a b : Word) (n : Nat) : (a * b) <<< n = (a <<< n) * b := by
  rw [BitVec.shiftLeft_eq_mul_twoPow, BitVec.shiftLeft_eq_mul_twoPow, BitVec.mul_assoc, BitVec.mul_comm b, ← BitVec.mul_assoc]

theorem shl_add (a b : Word) (n : Nat) : (a + b) <<< n = (a <<< n) + (b <<< n) := by
  simp only [BitVec.shiftLeft_eq_mul_twoPow, BitVec.add_mul]

/-- The affine rows of R70 give, lane by lane, what the operation gives (R70, R236). -/
theorem intOp_affine (o : IntOp) (x y v : Val) (h : o.affine x y = some v) (l : Nat) : v.lane l = o.eval (x.lane l) (y.lane l) := by
  unfold IntOp.affine at h
  split at h <;> first | (cases h; done) | skip
  all_goals
    simp only [Option.some.injEq] at h
    subst h
    rw [affine_lane]
    simp only [Val.lane, IntOp.eval]
  all_goals first
    | (rw [shl_add, shl_mul]; done)
    | grind

theorem misc1_affine (o : Misc1) (x v : Val) (h : o.affine x = some v) (l : Nat) : v.lane l = o.eval (x.lane l) := by
  unfold Misc1.affine at h
  split at h <;> first | (cases h; done) | skip
  all_goals
    simp only [Option.some.injEq] at h
    subst h
  · rw [affine_lane]; simp only [Val.lane, Misc1.eval]; grind
  · rfl

/-! ## Words of one shape -/

theorem has_use {c : Ctx} {i : Instr} {h : Head} {cls : OrdClass} {n : Nat} {s : State} (x : Executes i h cls n s c) {u : Use} (hu : u ∈ i.uses) {l : Nat}
    (hl : l ∈ c.act.list c.g.w) : (u.cls = .v → u.reg + u.count ≤ (c.g.frm l).nv) ∧ (u.cls = .s → u.reg + u.count ≤ (c.g.frm l).ns) :=
  ready_bound x.ready hu hl

/-- A word whose effect is one write of a vector register (setV). -/
theorem setV_word {i : Instr} {h : Head} {n : Nat} {s : State} {c : Ctx} {d : BitVec 5} (x : Executes i h .none n s c) (hn : n = 1)
    (hu : Use.vw d 1 ∈ i.uses) {val : Ctx → Frame → LaneSet → Val} {fl : Ctx → FFlags} {wait : Ctx → Bool} (hw : wait c = false)
    (he : exec i s = runWord h i.uses .none wait (fun c => c.setV d.toNat (val c) (fl c)) s) {out : Nat → Word} {f : FFlags} (hf : fl c = f)
    (ho : ∀ l ∈ c.act.list c.g.w, (val c (c.g.frm l) (c.mates l)).lane l = out l) :
    ∃ t, exec i s = .next t ∧ c.WroteV (fun _ => d.toNat) out f t := by
  refine ⟨_, he.trans (runWord_ready x.ctx x.ready hw), ?_⟩
  subst hn hf
  have := setV_wrote x.ctx x.wf x.owned x.room (d := d.toNat) (fun l hl => Nat.lt_of_succ_le ((has_use x hu hl).1 rfl)) (val c) (fl c)
  obtain ⟨h1, g', h2, h3, h4, h5⟩ := this
  exact ⟨h1, g', h2, h3, fun l hl => (h4 l hl).trans (ho l hl), h5⟩

/-- A word whose effect is one write of uniform registers for each frame. -/
theorem setU_word {i : Instr} {h : Head} {n : Nat} {s : State} {c : Ctx} {d : BitVec 5} (x : Executes i h .none n s c)
    (hu : Use.sw d 1 ∈ i.uses) {val : Ctx → Frame → LaneSet → Word}
    (he : exec i s = runWord h i.uses .none noWait (fun c => c.updG c.s (fun g => c.frames.foldl (fun g x => g.setU x.1.id d.toNat (val c x.1 x.2)) g)) s)
    {out : Nat → Word} (ho : ∀ l ∈ c.act.list c.g.w, val c (c.g.frm l) (c.mates l) = out l) :
    ∃ t, exec i s = .next t ∧ c.WroteU d.toNat (fun l => [out l]) t := by
  refine ⟨_, he.trans (runWord_ready x.ctx x.ready rfl), ?_⟩
  have := setU_wrote x.ctx x.wf (d := d.toNat) (n := 1) (fun l hl => (has_use x hu hl).2 rfl) (by omega) (fun f m => [val c f m]) (fun _ _ => rfl)
    (fun g f m => g.setU f.id d.toNat (val c f m)) (fun g f m => putU_one g f.id d.toNat _)
  obtain ⟨h1, g', h2, h3, h4, h5, h6⟩ := this
  refine ⟨h1, g', h2, h3, fun l hl i w hi => h4 l hl i w (by simpa only [ho l hl] using hi), ?_, h6⟩
  intro l r hr
  exact h5 l r (fun k hk e => by simpa using hr k hk e)

/-- A word whose effect is one write of a uniform pair for each frame. -/
theorem setUP_word {i : Instr} {h : Head} {n : Nat} {s : State} {c : Ctx} {d : BitVec 5} (x : Executes i h .none n s c)
    (hu : Use.pairw d ∈ i.uses) {val : Ctx → Frame → LaneSet → DWord}
    (he : exec i s = runWord h i.uses .none noWait (fun c => c.updG c.s (fun g => c.frames.foldl (fun g x => g.setUP x.1.id d.toNat (val c x.1 x.2)) g)) s)
    {out : Nat → DWord} (ho : ∀ l ∈ c.act.list c.g.w, val c (c.g.frm l) (c.mates l) = out l) :
    ∃ t, exec i s = .next t ∧ c.WroteU d.toNat (fun l => halves (out l)) t := by
  refine ⟨_, he.trans (runWord_ready x.ctx x.ready rfl), ?_⟩
  have := setU_wrote x.ctx x.wf (d := d.toNat) (n := 2) (fun l hl => (has_use x hu hl).2 rfl) (by omega) (fun f m => halves (val c f m)) (fun _ _ => rfl)
    (fun g f m => g.setUP f.id d.toNat (val c f m)) (fun g f m => putU_pair g f.id d.toNat _)
  obtain ⟨h1, g', h2, h3, h4, h5, h6⟩ := this
  refine ⟨h1, g', h2, h3, fun l hl i w hi => h4 l hl i w (by simpa only [ho l hl] using hi), ?_, h6⟩
  intro l r hr
  exact h5 l r (fun k hk e => by simpa [halves] using hr k hk e)

/-- A word whose effect is one write of a predicate. -/
theorem setPd_word {i : Instr} {h : Head} {n : Nat} {s : State} {c : Ctx} {d : BitVec 5} (x : Executes i h .none n s c) (hd : d.toNat < 16)
    {val : Ctx → Nat → Bool} (he : exec i s = runWord h i.uses .none noWait (fun c => c.updG c.s (fun g => g.setPd d.toNat c.act (val c))) s)
    {out : Nat → Bool} (ho : ∀ l ∈ c.act.list c.g.w, val c l = out l) :
    ∃ t, exec i s = .next t ∧ c.WroteP d.toNat out 0 t := by
  refine ⟨_, he.trans (runWord_ready x.ctx x.ready rfl), ?_⟩
  have hfl : ∀ g : Group, g.flag 0 = g := by intro g; unfold Group.flag; simp
  obtain ⟨h1, g', h2, h3, h4, h5⟩ := setPd_wrote x.ctx x.wf hd (val c) 0 (t := c.updG c.s (fun g => g.setPd d.toNat c.act (val c)))
    (by simp only [hfl])
  exact ⟨h1, g', h2, h3, fun l hl => (h4 l hl).trans (ho l hl), h5⟩

theorem vecInt_word {i : Instr} {h : Head} {d a b : BitVec 5} {s : State} {c : Ctx} {o : IntOp} {f : Word → Word → Word} (x : Executes i h .none 1 s c)
    (hu : i.uses = [.vw d 1, .v a 1, .v b 1]) (he : exec i s = vecInt h d a b o s) (hf : ∀ p q, o.eval p q = f p q) :
    ∃ t, exec i s = .next t ∧ c.WroteV (fun _ => d.toNat) (fun l => f (c.v a l) (c.v b l)) 0 t :=
  setV_word x rfl (by rw [hu]; simp) (val := fun c fr _ => shape2 o.eval o.affine (c.g.readV fr a.toNat) (c.g.readV fr b.toNat)) (fl := fun _ => 0) (wait := noWait) rfl
    (by rw [hu]; exact he) rfl (fun l _ => by rw [shape2_lane (fun v hv l => intOp_affine o _ _ v hv l)]; exact hf _ _)

theorem vecIntImm_word {i : Instr} {h : Head} {d a : BitVec 5} {s : State} {c : Ctx} {o : IntOp} {b : Word} {f : Word → Word} (x : Executes i h .none 1 s c)
    (hu : i.uses = [.vw d 1, .v a 1]) (he : exec i s = vecIntImm h d a o b s) (hf : ∀ p, o.eval p b = f p) :
    ∃ t, exec i s = .next t ∧ c.WroteV (fun _ => d.toNat) (fun l => f (c.v a l)) 0 t :=
  setV_word x rfl (by rw [hu]; simp) (val := fun c fr _ => shape2 o.eval o.affine (c.g.readV fr a.toNat) (.u b)) (fl := fun _ => 0) (wait := noWait) rfl
    (by rw [hu]; exact he) rfl (fun l _ => by rw [shape2_lane (fun v hv l => intOp_affine o _ _ v hv l)]; exact hf _)

end Sys2Proof.Laws
end

