-- ==== Sys2Proof/Machine/Assembly.lean ====
section
/-! DEFINITION. Sys2Proof/Machine/Assembly.lean: the assembly language of instruction lines (R173 to R176, R203, R426): tokens,
expressions and their values, the written form of every major, and the word of an instruction line. An error is the number of R426. -/

namespace Sys2Proof.Onas

/-! ## Tokens (R173, R174) -/

/-- A token of a line. -/
inductive Token where
  | name (s : String)
  | num (n : Nat)
  | op (s : String)
  deriving DecidableEq, Repr

/-- A character that begins an identifier. -/
def startsName (c : Char) : Bool := c.isAlpha || c == '_' || c == '.'
/-- A character of an identifier. -/
def inName (c : Char) : Bool := startsName c || c.isDigit
/-- The value of a hexadecimal digit. -/
def hexDigit (c : Char) : Option Nat :=
  if c.isDigit then some (c.toNat - 48)
  else if 'a' ≤ c ∧ c ≤ 'f' then some (c.toNat - 87)
  else if 'A' ≤ c ∧ c ≤ 'F' then some (c.toNat - 55)
  else none

/-- Digits of a base from the head of a text, with underscores where `gap` admits them, and the rest. -/
def digits (base : Nat) (gap : Bool) : Nat → List Char → Nat × List Char
  | n, c :: cs =>
    if gap && c == '_' then digits base gap n cs
    else
      match hexDigit c with
      | some d => if d < base then digits base gap (base * n + d) cs else (n, c :: cs)
      | none => (n, c :: cs)
  | n, [] => (n, [])

/-- Punctuation of two characters. -/
def doubleOps : List (Char × Char × String) := [('<', '<', "<<"), ('>', '>', ">>")]
/-- Punctuation of one character. -/
def singleOps : List Char := [',', ':', '&', '?', '!', '%', '$', '(', ')', '+', '-', '*', '/', '~', '^', '|', '=']

/-- The tokens of a line; a comment ends it. -/
def lex : Nat → List Char → Except Nat (List Token)
  | 0, _ => .ok []
  | _ + 1, [] => .ok []
  | fuel + 1, c :: cs =>
    if c == ';' || (c == '/' && cs.head? == some '/') then .ok []
    else if c == ' ' || c == '\t' || c == '\r' then lex fuel cs
    else if startsName c then do
      let rest ← lex fuel (cs.dropWhile inName)
      pure (.name (String.ofList (c :: cs.takeWhile inName)) :: rest)
    else if c.isDigit then do
      let (n, cs) :=
        match c, cs with
        | '0', 'x' :: r => digits 16 true 0 r
        | '0', 'b' :: r => digits 2 false 0 r
        | _, _ => digits 10 false 0 (c :: cs)
      let rest ← lex fuel cs
      pure (.num n :: rest)
    else
      match doubleOps.find? (fun (a, b, _) => a == c && cs.head? == some b) with
      | some (_, _, s) => do
        let rest ← lex fuel (cs.drop 1)
        pure (.op s :: rest)
      | none =>
        if singleOps.contains c then do
          let rest ← lex fuel cs
          pure (.op (String.ofList [c]) :: rest)
        else .error 103

/-- The tokens of a line of source. -/
def tokens (s : String) : Except Nat (List Token) := lex (s.toList.length + 1) s.toList

/-- Letters in lower case: mnemonics and directive names are case-insensitive. -/
def lower (s : String) : String := String.ofList (s.toList.map Char.toLower)

/-- Tokens between top-level commas; none for an empty list. -/
def splitCommas (ts : List Token) : List (List Token) :=
  let step (acc : List (List Token) × List Token × Nat) (t : Token) : List (List Token) × List Token × Nat :=
    let (done, cur, depth) := acc
    if t == .op "," && depth == 0 then (done ++ [cur], [], 0)
    else (done, cur ++ [t], if t == .op "(" then depth + 1 else if t == .op ")" then depth - 1 else depth)
  if ts.isEmpty then [] else let (done, cur, _) := ts.foldl step ([], [], 0); done ++ [cur]

/-- The class letter and number of a name that is spelled as a register of any number. -/
def registerOf (s : String) : Option (Char × Nat) :=
  match s.toList with
  | c :: d :: ds =>
    if (d :: ds).all Char.isDigit && ['v', 's', 'p', 't', 'a'].contains c && (d != '0' || ds.isEmpty) then some (c, (digits 10 false 0 (d :: ds)).1) else none
  | _ => none
/-- How many registers a class has (R173). -/
def registers (c : Char) : Nat :=
  match c with | 'v' => 32 | 's' => 32 | 'p' => 16 | 't' => 8 | _ => 4
/-- A register name, which is no identifier. -/
def isRegister (s : String) : Bool := match registerOf s with | some (c, n) => decide (n < registers c) | none => false

/-! ## Expressions (R174) -/

/-- An assembly-time expression. -/
inductive Expr where
  | num (n : Nat)
  | sym (s : String)
  | here
  | neg (e : Expr)
  | inv (e : Expr)
  | quarter (i : Nat) (e : Expr)
  | bin (o : String) (a b : Expr)
  deriving DecidableEq, Repr

/-- The binary operators of a level, tightest first. -/
def opsOf (level : Nat) : List String :=
  match level with | 2 => ["*", "/", "%"] | 3 => ["+", "-"] | 4 => ["<<", ">>"] | 5 => ["&"] | 6 => ["^"] | _ => ["|"]

/-- The quarter functions. -/
def quarterOf (s : String) : Option Nat := match s with | "q0" => some 0 | "q1" => some 1 | "q2" => some 2 | "q3" => some 3 | _ => none

/-- An expression of a level from the head of a text, and the rest; `left` is what has been read of it. -/
def parseExpr : Nat → Nat → Option Expr → List Token → Except Nat (Expr × List Token)
  | 0, _, _, _ => .error 103
  | fuel + 1, 0, _, ts =>
    match ts with
    | .op "-" :: r => do let (e, r) ← parseExpr fuel 0 none r; pure (.neg e, r)
    | .op "~" :: r => do let (e, r) ← parseExpr fuel 0 none r; pure (.inv e, r)
    | .op "(" :: r => do
      let (e, r) ← parseExpr fuel 7 none r
      match r with
      | .op ")" :: r => pure (e, r)
      | _ => .error 103
    | .op "$" :: r => pure (.here, r)
    | .op "%" :: _ => .error 109
    | .num n :: r => pure (.num n, r)
    | .name s :: r =>
      match quarterOf s, r with
      | some i, .op "(" :: r => do
        let (e, r) ← parseExpr fuel 7 none r
        match r with
        | .op ")" :: r => pure (.quarter i e, r)
        | _ => .error 103
      | _, _ => if isRegister s then .error 103 else pure (.sym s, r)
    | _ => .error 103
  | fuel + 1, level + 1, none, ts => do
    let (e, r) ← parseExpr fuel (if level = 1 then 0 else level) none ts
    parseExpr fuel (level + 1) (some e) r
  | fuel + 1, level + 1, some e, ts =>
    match ts with
    | .op o :: r =>
      if (opsOf (level + 1)).contains o then do
        let (x, r) ← parseExpr fuel (if level = 1 then 0 else level) none r
        parseExpr fuel (level + 1) (some (.bin o e x)) r
      else pure (e, ts)
    | _ => pure (e, ts)

/-- The expression that a list of tokens is. -/
def exprOf (ts : List Token) : Except Nat Expr := do
  let (e, r) ← parseExpr (16 * ts.length + 16) 7 none ts
  if r.isEmpty then pure e else .error 103

/-- What an address is counted from: a symbol, or the start of a section of this object. -/
inductive Base where
  | symbol (s : String)
  | section_ (k : Nat)
  deriving DecidableEq, Repr

/-- The value of an expression: a number, an address, a quarter of an address, or a sum of multiples of addresses and a number that is
neither, as it can stand within an expression. -/
inductive Amount where
  | abs (n : Int)
  | addr (b : Base) (n : Int)
  | quarter (i : Nat) (b : Base) (n : Int)
  | sum (ts : List (Base × Int)) (n : Int)
  deriving DecidableEq, Repr

/-- Where a symbol of this object stands: its section and offset; none for an extern. -/
abbrev Places := String → Option (Option (Nat × Nat))

/-- The section and offset of an address, when they are known. -/
def Base.place (env : Places) (b : Base) (n : Int) : Option (Nat × Int) :=
  match b with
  | .section_ k => some (k, n)
  | .symbol s => match env s with | some (some (k, o)) => some (k, o + n) | _ => none

/-- A value as a sum of multiples of addresses and a number; none for a quarter of an address. -/
def Amount.terms : Amount → Option (List (Base × Int) × Int)
  | .abs n => some ([], n)
  | .addr b n => some ([(b, 1)], n)
  | .sum ts n => some (ts, n)
  | .quarter .. => none

/-- What the multiples of one section's or one extern's addresses come to: how often its start is counted, and the rest. -/
def originOf (env : Places) (b : Base) : Base × Int := match b.place env 0 with | some (k, o) => (.section_ k, o) | none => (b, 0)

/-- A sum in its simplest form: the addresses of each section cancel where they can (R174). One address that is left is counted from the first of the
bases given with it. -/
def sumOf (env : Places) (ts : List (Base × Int)) (n : Int) : Amount :=
  let counts := ts.foldl (fun (acc : List (Base × Int)) (b, c) =>
    let k := (originOf env b).1
    if acc.any (fun x => x.1 == k) then acc.map (fun x => if x.1 == k then (k, x.2 + c) else x) else acc ++ [(k, c)]) []
  let total := ts.foldl (fun m (b, c) => m + c * (originOf env b).2) n
  match counts.filter (fun x => x.2 != 0) with
  | [] => .abs total
  | [(k, 1)] =>
    (match ts.find? (fun x => decide (0 < x.2) && (originOf env x.1).1 == k) with
     | some (b, _) => .addr b (total - (originOf env b).2)
     | none => .sum ts n)
  | _ => .sum ts n

/-- A value times a number. -/
def Amount.times (env : Places) (k : Int) (x : Amount) : Except Nat Amount :=
  match x.terms with
  | some (ts, n) => .ok (sumOf env (ts.map (fun (b, c) => (b, k * c))) (k * n))
  | none => .error 105

/-- The sum of two values. -/
def Amount.plus (env : Places) (x y : Amount) : Except Nat Amount :=
  match x.terms, y.terms with
  | some (ts, n), some (us, m) => .ok (sumOf env (ts ++ us) (n + m))
  | _, _ => .error 105

/-- Bitwise operations on signed integers. -/
def bitwise (f : (n : Nat) → BitVec n → BitVec n → BitVec n) (a b : Int) : Int :=
  let n := Nat.log2 (max a.natAbs b.natAbs) + 2
  (f n (BitVec.ofInt n a) (BitVec.ofInt n b)).toInt

/-- An operator on two numbers. -/
def applyOp (o : String) (a b : Int) : Except Nat Int :=
  match o with
  | "+" => .ok (a + b)
  | "-" => .ok (a - b)
  | "*" => .ok (a * b)
  | "/" => if b = 0 then .error 105 else .ok (Int.fdiv a b)
  | "%" => if b ≤ 0 then .error 105 else .ok (Int.emod a b)
  | "<<" => if b < 0 then .error 105 else .ok (a * 2 ^ b.toNat)
  | ">>" => if b < 0 then .error 105 else .ok (Int.fdiv a (2 ^ min b.toNat (Nat.log2 a.natAbs + 1)))
  | "&" => .ok (bitwise (fun _ x y => x &&& y) a b)
  | "^" => .ok (bitwise (fun _ x y => x ^^^ y) a b)
  | _ => .ok (bitwise (fun _ x y => x ||| y) a b)

/-- The value of an expression at a place of a section: sums, differences and multiples of addresses are exact, and what takes a number needs the
addresses in it to cancel. -/
def Expr.eval (env : Places) (at_ : Nat × Nat) : Expr → Except Nat Amount
  | .num n => .ok (.abs n)
  | .sym s => if (env s).isSome then .ok (.addr (.symbol s) 0) else .error 105
  | .here => .ok (.addr (.section_ at_.1) at_.2)
  | .neg e => do (← e.eval env at_).times env (-1)
  | .inv e => do (← (← e.eval env at_).times env (-1)).plus env (.abs (-1))
  | .quarter i e => do
    match ← e.eval env at_ with
    | .abs n => pure (.abs (Int.emod (Int.fdiv n (2 ^ (16 * i))) 65536))
    | .addr b n => pure (.quarter i b n)
    | _ => .error 105
  | .bin o a b => do
    let x ← a.eval env at_
    let y ← b.eval env at_
    match o, x, y with
    | "+", _, _ => x.plus env y
    | "-", _, _ => do x.plus env (← y.times env (-1))
    | _, .abs n, .abs m => do let z ← applyOp o n m; pure (.abs z)
    | "*", _, .abs m => x.times env m
    | "*", .abs n, _ => y.times env n
    | "<<", _, .abs m => if m < 0 then .error 105 else x.times env (2 ^ m.toNat)
    | _, _, _ => .error 105

/-! ## The written form of every major (R175, R176, R203, R211) -/

/-- What an operand field is (R176). -/
inductive Kind where
  /-- A register of class v, s, p, t or a. -/
  | reg (c : Char)
  /-- A uniform pair. -/
  | pair
  /-- The data of ldu and stu: a uniform register, a pair for b64. -/
  | data
  /-- The base pair of MEM and MEMI, whose next operand decides the variant; it is an offset register of class `c`, or a signed count. -/
  | base
  | third (c : Char)
  | sreg
  | signed (n : Nat)
  | upTo (m : Nat)
  /-- A signed or unsigned half that a relocation can write. -/
  | half (signed : Bool)
  /-- A count of 1 to 32 held less one. -/
  | nv
  /-- A target of n bits, with the relocation's kind. -/
  | target (n reloc : Nat)
  deriving DecidableEq, Repr

/-- An operand field: its kind, and its lowest bit in the payload (in L for a long format). -/
structure Slot where
  kind : Kind
  lo : Nat
  deriving DecidableEq, Repr

/-- The written form of one F value of a major: the parts of its mnemonic, its major, the payload bits it fixes, whether it is long, its
modifier fields (lowest bit, value names by code) and its operand fields, the most significant first. -/
structure Form where
  parts : List String
  op : Nat
  fixed : Nat
  long : Bool
  mods : List (Nat × List String)
  slots : List Slot
  deriving DecidableEq, Repr

/-- Field D, A or B of RRR, of a class. -/
def vD : Slot := ⟨.reg 'v', 14⟩
/-- A vector A. -/
def vA : Slot := ⟨.reg 'v', 9⟩
/-- A vector B. -/
def vB : Slot := ⟨.reg 'v', 4⟩
/-- A uniform D. -/
def sD : Slot := ⟨.reg 's', 14⟩
/-- A uniform A. -/
def sA : Slot := ⟨.reg 's', 9⟩
/-- A uniform B. -/
def sB : Slot := ⟨.reg 's', 4⟩
/-- A pair D. -/
def prD : Slot := ⟨.pair, 14⟩
/-- A pair A. -/
def prA : Slot := ⟨.pair, 9⟩
/-- A pair B. -/
def prB : Slot := ⟨.pair, 4⟩
/-- A predicate D. -/
def pD : Slot := ⟨.reg 'p', 14⟩
/-- A predicate A. -/
def pA : Slot := ⟨.reg 'p', 9⟩
/-- A predicate B. -/
def pB : Slot := ⟨.reg 'p', 4⟩
/-- A tile D. -/
def tD : Slot := ⟨.reg 't', 14⟩
/-- An accumulator D. -/
def aD : Slot := ⟨.reg 'a', 14⟩
/-- An accumulator A. -/
def aA : Slot := ⟨.reg 'a', 9⟩

/-- Forms of a short major whose F field has its lowest bit at `f`. -/
def family (op : Nat) (major : String) (f : Nat) (rows : List (Nat × String × List Slot)) : List Form :=
  rows.map (fun (n, s, slots) => ⟨[major, s], op, n * 2 ^ f, false, [], slots⟩)
/-- Forms with one list of operands, numbered from `n`. -/
def alike (n : Nat) (slots : List Slot) (names : List String) : List (Nat × String × List Slot) :=
  names.zipIdx.map (fun (s, i) => (n + i, s, slots))

/-- The control, call and synchronisation majors (chapter 13). -/
def controlForms : List Form :=
  [⟨["nop"], 0x00, 0, false, [], []⟩] ++ family 0x00 "ctl" 0 [(1, "exit", []), (2, "jr", [prA]), (3, "pc", [prD])] ++
  [⟨["wait"], 0x01, 0, false, [], [⟨.upTo 15, 15⟩, ⟨.upTo 15, 11⟩, ⟨.upTo 15, 7⟩, ⟨.upTo 15, 3⟩]⟩] ++
  family 0x02 "br" 17 (alike 0 [⟨.target 17 3, 0⟩] ["lane", "all", "any"]) ++
  [⟨["jmp"], 0x03, 0, true, [], [⟨.target 24 4, 0⟩]⟩, ⟨["call"], 0x04, 0, false, [], [prD, ⟨.nv, 9⟩, ⟨.upTo 15, 5⟩, ⟨.upTo 7, 2⟩]⟩,
    ⟨["callp"], 0x05, 0, true, [], [⟨.nv, 19⟩, ⟨.upTo 15, 15⟩, ⟨.upTo 7, 12⟩, ⟨.target 12 5, 0⟩]⟩] ++
  family 0x06 "ret" 6 [(0, "pop", [⟨.upTo 32, 0⟩]), (1, "unwind", [⟨.upTo 31, 14⟩, ⟨.upTo 32, 0⟩]), (2, "unwindr", [sA, ⟨.upTo 32, 0⟩])] ++
  family 0x07 "bar" 6 [(0, "team", []), (1, "twin", []), (2, "nwait", [sA, ⟨.upTo 15, 0⟩]), (3, "narrive", [sA, ⟨.upTo 15, 0⟩]), (4, "grid", [])] ++
  family 0x08 "vote" 0 [(0, "ballot", [prD, pA]), (1, "any", [pD, pA]), (2, "all", [pD, pA]), (3, "popc", [sD, pA]), (4, "first", [sD, pA]),
    (5, "peers", [vD, vA]), (6, "rank", [vD, vA]), (7, "act", [prD])] ++
  family 0x09 "grp" 6 [(0, "sort", [vD, ⟨.upTo 32, 0⟩])]

/-- The names of R236. -/
def intNames : List String :=
  ["add", "sub", "mul", "mulhs", "mulhu", "and", "or", "xor", "shl", "shr", "sra", "min", "max", "minu", "maxu", "andn"]
/-- The forms of R237 on registers of a class. -/
def immRows (d a : Slot) : List (Nat × String × List Slot) :=
  alike 0 [d, a, ⟨.signed 6, 0⟩] ["add", "mul", "and", "or", "xor"] ++ alike 5 [d, a, ⟨.upTo 31, 0⟩] ["shl", "shr", "sra"]

/-- The integer, uniform, address and shape majors (chapter 14). -/
def integerForms : List Form :=
  family 0x0A "vi" 0 (alike 0 [vD, vA, vB] intNames) ++ family 0x0B "vii" 6 (immRows vD vA) ++
  family 0x0C "vm" 0 (alike 0 [vD, vA] ["neg", "abs"] ++ alike 2 [vD, vA, vB] ["adds", "addu", "subs", "subu"] ++
    alike 6 [vD, vA] ["mov", "clz", "popc", "brev", "sext8", "sext16", "sati8", "sati16", "satn8", "satn16"]) ++
  family 0x0D "vc" 0 (alike 0 [pD, vA, vB] ["eq", "ne", "lt", "le", "ltu", "leu"]) ++
  family 0x0E "vp" 0 ([(0, "sel", [vD, vA, pB])] ++ alike 1 [pD, pA, pB] ["and", "or", "xor", "andn"] ++
    [(5, "not", [pD, pA]), (6, "get", [vD, pA]), (7, "set", [pD, vA]), (8, "mvu", [vD, sA])]) ++
  family 0x0F "vx" 0 ([(0, "idx", [vD, vA, vB])] ++ alike 1 [vD, vA, sB] ["up", "down", "xor", "bcast"]) ++
  family 0x10 "si" 0 (alike 0 [sD, sA, sB] intNames) ++ family 0x11 "sii" 6 (immRows sD sA) ++
  [⟨["sli", "lo"], 0x12, 0, true, [], [⟨.reg 's', 19⟩, ⟨.half false, 0⟩]⟩, ⟨["sli", "hi"], 0x12, 2 ^ 16, true, [], [⟨.reg 's', 19⟩, ⟨.half false, 0⟩]⟩,
    ⟨["sli", "sx"], 0x12, 2 * 2 ^ 16, true, [], [⟨.reg 's', 19⟩, ⟨.half true, 0⟩]⟩, ⟨["sli", "vsx"], 0x12, 3 * 2 ^ 16, true, [], [⟨.reg 'v', 19⟩, ⟨.half true, 0⟩]⟩] ++
  family 0x13 "sc" 0 (alike 0 [pD, sA, sB] ["eq", "ne", "lt", "le", "ltu", "leu"] ++ [(6, "blen", [sD, sA])] ++
    alike 8 [sD, sA, sB] ["seq", "sne", "slt", "sle", "sltu", "sleu"]) ++
  family 0x14 "sr" 12 [(0, "rdv", [vD, ⟨.sreg, 0⟩]), (1, "rds", [sD, ⟨.sreg, 0⟩]), (2, "wrs", [sD, ⟨.sreg, 0⟩]), (3, "rdp", [prD, ⟨.sreg, 0⟩])] ++
  family 0x15 "ad" 0 (alike 0 [prD, prA, prB] ["add", "sub"] ++ alike 2 [prD, prA, sB] ["addx", "addz", "shl", "shr"] ++
    [(6, "mulw", [prD, sA, sB]), (7, "mov", [prD, prA]), (8, "and", [prD, prA, prB]), (9, "mul", [prD, prA, prB])] ++
    alike 10 [pD, prA, prB] ["eq", "ltu", "lt"]) ++
  family 0x1C "shp" 0 [(0, "sq", [vD]), (1, "exp", [vD]), (2, "shape", [sD, vA]), (3, "rdx", [vD, sA]), (4, "wrx", [sD, vA])]

/-- The floating-point majors (chapter 15). -/
def floatForms : List Form :=
  family 0x16 "vf32" 0 (alike 0 [vD, vA, vB] ["add", "sub", "mul", "fma", "fms", "min", "max"] ++ alike 7 [vD, vA] ["abs", "neg"] ++
    [(9, "cpsgn", [vD, vA, vB]), (10, "rint", [vD, vA])]) ++
  family 0x17 "vf16" 0 (alike 0 [vD, vA, vB] ["add", "sub", "mul", "fma", "min", "max"] ++ alike 6 [vD, vA] ["neg", "abs"] ++
    alike 8 [vD, vA, vB] ["badd", "bsub", "bmul", "bfma", "bmin", "bmax"] ++ alike 14 [vD, vA] ["bneg", "babs"]) ++
  family 0x18 "vfx" 0 ([(0, "div", [vD, vA, vB])] ++ alike 1 [vD, vA] ["sqrt", "rcp", "rsq", "exp2", "log2", "sinpi", "cospi"]) ++
  family 0x19 "vcv" 0 (alike 0 [vD, vA] ["f32i", "f32n", "i32f", "n32f"] ++ alike 4 [vD, vA, vB] ["pkh", "pkb"] ++
    alike 6 [vD, vA] ["uhl", "uhh", "ubl", "ubh"] ++ alike 10 [vD, vA, sB] ["ie4", "ie5", "xe4", "xe5"]) ++
  family 0x1A "vfc" 0 (alike 0 [pD, vA, vB] ["eq", "ne", "lt", "le", "un"] ++ [(5, "class", [vD, vA])]) ++
  family 0x1B "vq" 0 [(0, "q16", [vD, vA, sB]), (1, "q32", [vD, vA, sB]), (2, "pk4", [vD, vA]), (3, "dq4", [vD, vA, sB]), (4, "qe16", [vD, vA, sB]),
    (5, "qe32", [vD, vA, sB]), (6, "pk8", [vD, vA]), (7, "dq8", [vD, vA, sB])]

/-- SZ of R268. -/
def szNames : List String := ["n8", "n16", "b32", "b64"]
/-- SC of loads. -/
def acqNames : List String := ["rlx", "acqdev", "acqpod", "acqsys"]
/-- SC of stores. -/
def relNames : List String := ["rlx", "reldev", "relpod", "relsys"]
/-- SC of R274. -/
def atmNames : List String :=
  ["core", "twin", "die", "dev", "pod", "sys", "scr", "", "arcore", "artwin", "ardie", "ardev", "arpod", "arsys", "arscr", ""]
/-- TY by F (R272, R273). -/
def atmTypes (f : Nat) : List String :=
  if f = 0 then ["i32", "n32", "i64", "n64", "f32", "bf16", "", ""] else if f ≤ 2 then ["i32", "n32", "i64", "n64", "", "", "", ""]
  else if f ≤ 6 then ["", "b32", "", "n64", "", "", "", ""] else ["", "b32", "", "n64", "", "", "b128", "b256"]
/-- The scopes of R208. -/
def scopeNames : List String := ["grp", "core", "twin", "die", "dev", "pod", "sys", ""]
/-- A MEM and MEMI major. -/
def memForm (op : Nat) (major : String) (d : Kind) (c : Char) (sz sc : List String) : Form :=
  ⟨[major], op, 0, false, [(2, sz), (0, sc)], [⟨d, 14⟩, ⟨.base, 9⟩, ⟨.third c, 4⟩]⟩

/-- The memory, atomic, scratch and engine majors (chapter 16). -/
def memoryForms : List Form :=
  [memForm 0x1D "ld" (.reg 'v') 'v' szNames acqNames, memForm 0x1E "st" (.reg 'v') 'v' szNames relNames,
    memForm 0x1F "ldu" .data 's' szNames acqNames, memForm 0x20 "stu" .data 's' szNames relNames] ++
  ["add", "min", "max", "and", "or", "xor", "exch", "cas"].zipIdx.map (fun (s, f) =>
    ⟨["atm", s], 0x21, f * 2 ^ 11, true, [(8, atmTypes f), (4, atmNames)], [⟨.reg 'v', 19⟩, ⟨.reg 'v', 14⟩]⟩) ++
  ["rel", "acq", "full"].zipIdx.map (fun (s, f) => ⟨["fence", s], 0x22, f * 2 ^ 12, false, [(0, scopeNames)], []⟩) ++
  [⟨["fence", "opr"], 0x22, 3 * 2 ^ 12, false, [(0, ["rel", "acq"])], []⟩] ++
  family 0x23 "lds" 6 (alike 0 [vD, vA, ⟨.signed 6, 0⟩] ["n8", "n16", "b32", "b64", "b128"]) ++
  family 0x24 "sts" 6 (alike 0 [vD, vA, ⟨.signed 6, 0⟩] ["n8", "n16", "b32", "b64", "b128"]) ++
  family 0x25 "stag" 0 [(0, "look", [vD, vA]), (1, "set", [sD, prA, sB]), (2, "inv", [sD]), (3, "clr", [])] ++
  family 0x26 "cb" 6 [(0, "res", [sD, ⟨.upTo 15, 0⟩]), (1, "com", [sA, ⟨.upTo 15, 0⟩]), (2, "wait", [sD, ⟨.upTo 15, 0⟩]), (3, "pop", [⟨.upTo 15, 0⟩]),
    (4, "sa", [sD, sA, ⟨.upTo 15, 0⟩])] ++
  family 0x27 "cp" 0 (alike 0 [prD, prA, sB] ["g2s", "s2g", "s2s", "gat", "t2h"]) ++
  [⟨["wta"], 0x28, 0, false, [(3, ["rlx", "acq"]), (2, ["w4", "w8"]), (0, ["scr", "dev", "pod", "sys"])], [vD, vA, vB]⟩]

/-- The matrix and tile majors (chapter 17). -/
def matrixForms : List Form :=
  family 0x29 "tcfg" 0 ([(0, "set", [tD, prA])] ++ alike 1 [tD, sA] ["rows", "cols", "kext", "stg", "fl"]) ++
  [memForm 0x2A "tld" (.reg 't') 's' ["t", "ha", "hb"] ["g", "s"], memForm 0x2B "tst" (.reg 't') 's' ["t", "ha", "hb"] ["g", "s"],
    ⟨["mma"], 0x2C, 0, false, [(3, ["acc", "set"])], [aD, ⟨.reg 't', 9⟩, ⟨.reg 't', 4⟩, ⟨.reg 't', 0⟩]⟩] ++
  family 0x2D "mx" 0 [(0, "had", [aD, aA, sB]), (1, "perm", [aD, aA, ⟨.reg 't', 4⟩])] ++
  family 0x2E "acc" 0 [(0, "zero", [aD]), (1, "rd", [vD, aA, vB]), (2, "wr", [aD, vA, vB]), (3, "wid", [aD, ⟨.reg 't', 9⟩, sB]), (4, "nar", [tD, aA, sB]),
    (5, "q2", [tD, aA, ⟨.reg 't', 4⟩]), (6, "qe", [tD, aA, ⟨.reg 't', 4⟩])]

/-- The launch, power, time, measurement and system majors (chapter 18). -/
def systemForms : List Form :=
  family 0x2F "lnch" 0 [(0, "rec", [sD, prA]), (1, "trig", [prA]), (2, "cncl", [sA])] ++ family 0x30 "pwr" 12 (alike 0 [sD] ["req", "cls", "pool"]) ++
  family 0x31 "tm" 0 [(0, "wtill", [prA]), (1, "wrel", [sA]), (2, "rd", [prD])] ++
  family 0x32 "dbg" 12 [(0, "brk", []), (1, "prog", [sD, ⟨.upTo 15, 0⟩])] ++
  family 0x33 "sys" 0 [(0, "rdid", [prD, sA]), (1, "tret", []), (2, "cinv", []), (3, "tvt", [prA])]

/-- Every form. -/
def forms : List Form := controlForms ++ integerForms ++ floatForms ++ memoryForms ++ matrixForms ++ systemForms

/-- The codes of the special registers by name (R245). -/
def sregNames : List (String × Nat) :=
  [("ix", 0x000), ("iy", 0x001), ("iz", 0x002), ("tix", 0x003), ("lane", 0x004), ("ox", 0x008), ("oy", 0x009), ("oz", 0x00A), ("ex", 0x00C), ("ey", 0x00D),
    ("ez", 0x00E), ("sx", 0x010), ("sy", 0x011), ("sz", 0x012), ("tn", 0x014), ("gix", 0x015), ("gcnt", 0x016), ("sb", 0x018), ("ss", 0x019), ("team", 0x01C),
    ("grid", 0x01D), ("core", 0x020), ("die", 0x021), ("dev", 0x022), ("ptime", 0x030), ("cyc", 0x031), ("fmode", 0x038), ("fflags", 0x039)]

/-! ## An instruction line (R175, R176) -/

/-- An instruction line: its guard, its form, the codes of its modifiers, its operands, and whether it is marked &. -/
structure Line where
  guard : Option Guard
  form : Form
  mods : List Nat
  operands : List (List Token)
  chain : Bool
  deriving DecidableEq, Repr

/-- The parts of a mnemonic. -/
def partsOf (s : String) : List String :=
  let step (acc : List (List Char) × List Char) (c : Char) : List (List Char) × List Char := if c == '.' then (acc.1 ++ [acc.2], []) else (acc.1, acc.2 ++ [c])
  let (done, cur) := (lower s).toList.foldl step ([], [])
  (done ++ [cur]).map String.ofList

/-- The form and modifier codes of a mnemonic. -/
def mnemonic (s : String) : Except Nat (Form × List Nat) :=
  let ps := partsOf s
  let fits := forms.filter (fun f => f.parts == ps.take f.parts.length)
  match fits.find? (fun f => fits.all (fun g => decide (g.parts.length ≤ f.parts.length))) with
  | none => .error 101
  | some f => do
    let values := ps.drop f.parts.length
    let ms ← (values.zip f.mods).mapM (fun (v, (_, names)) => match names.findIdx? (fun n => n == v && !v.isEmpty) with | some i => .ok i | none => .error 101)
    if values.length < f.mods.length then .error 102
    else if f.mods.length < values.length then .error 101
    else pure (f, ms)

/-- A predicate's number after the question mark. -/
def guardOf (s : String) (sense : Bool) : Except Nat (Option Guard) :=
  match registerOf s with
  | some ('p', n) => if n < 16 then .ok (some ⟨BitVec.ofNat 4 n, sense⟩) else .error 104
  | _ => .error 103

/-- An instruction line's parts. -/
def lineOf (ts : List Token) : Except Nat Line := do
  let (guard, ts) ←
    match ts with
    | .op "?" :: .op "!" :: .name p :: r => do let g ← guardOf p true; pure (g, r)
    | .op "?" :: .name p :: r => do let g ← guardOf p false; pure (g, r)
    | _ => pure (none, ts)
  match ts with
  | .name m :: r => do
    let (f, ms) ← mnemonic m
    let chain := r.getLast? == some (.op "&")
    if f.long && guard.isSome then .error 106
    else pure ⟨guard, f, ms, splitCommas (if chain then r.dropLast else r), chain⟩
  | _ => .error 101

/-- A register operand. -/
def regOperand (c : Char) (ts : List Token) : Except Nat Nat :=
  match ts with
  | [.name s] =>
    match registerOf s with
    | some (d, n) => if d != c then .error 103 else if n < registers c then .ok n else .error 104
    | none => .error 103
  | _ => .error 103

/-- A pair operand. -/
def pairOperand (ts : List Token) : Except Nat Nat :=
  match ts with
  | [.name x, .op ":", .name y] => do
    let i ← regOperand 's' [.name x]
    let j ← regOperand 's' [.name y]
    if i % 2 = 0 ∧ j = i + 1 then pure i else .error 104
  | _ => .error 103

/-- A number operand. -/
def numOperand (env : Places) (at_ : Nat × Nat) (lo hi : Int) (ts : List Token) : Except Nat Int := do
  match ← (← exprOf ts).eval env at_ with
  | .abs n => if lo ≤ n ∧ n ≤ hi then pure n else .error 105
  | _ => .error 105

/-- A relocation: its place in its section, its kind, its symbol and its addend (R192). -/
structure Reloc where
  offset : Nat
  kind : Nat
  base : Option Base
  addend : Int
  deriving DecidableEq, Repr

/-- The value of an operand's field and the relocation it leaves, in a word at a place; the packet begins at `pkt`. -/
def fieldOf (env : Places) (at_ : Nat × Nat) (mods : List Nat) (k : Kind) (ts : List Token) : Except Nat (Int × Option Reloc) :=
  let plain (r : Except Nat Nat) : Except Nat (Int × Option Reloc) := do let n ← r; pure ((n : Int), none)
  match k with
  | .reg c => plain (regOperand c ts)
  | .pair => plain (pairOperand ts)
  | .data => plain (if mods.head? = some 3 then pairOperand ts else regOperand 's' ts)
  | .base => plain (pairOperand ts)
  | .third c =>
    match ts with
    | [.name s] => if (registerOf s).isSome then plain (regOperand c ts) else do let n ← numOperand env at_ (-16) 15 ts; pure (n, none)
    | _ => do let n ← numOperand env at_ (-16) 15 ts; pure (n, none)
  | .sreg =>
    match ts with
    | [.op "%", .name s] => match sregNames.find? (fun x => x.1 == lower s) with | some (_, n) => .ok (n, none) | none => .error 109
    | _ => .error 103
  | .signed n => do let x ← numOperand env at_ (-(2 ^ (n - 1))) (2 ^ (n - 1) - 1) ts; pure (x, none)
  | .upTo m => do let x ← numOperand env at_ 0 m ts; pure (x, none)
  | .nv => do let x ← numOperand env at_ 1 32 ts; pure (x - 1, none)
  | .half sg => do
    match ← (← exprOf ts).eval env at_ with
    | .abs n => if (if sg then -32768 ≤ n ∧ n ≤ 32767 else 0 ≤ n ∧ n ≤ 65535) then pure (n, none) else .error 105
    | .quarter i b n => pure (0, some ⟨at_.2, 6 + i, some b, n⟩)
    | _ => .error 105
  | .target n kind => do
    let p : Int := at_.2 - at_.2 % 12
    match ← (← exprOf ts).eval env at_ with
    | .addr b x =>
      match b.place env x with
      | some (k, o) =>
        if k ≠ at_.1 then pure (0, some ⟨at_.2, kind, some b, x⟩)
        else if kind = 3 ∧ Int.emod o 4 ≠ 0 then .error 105
        else
          let d := Int.fdiv (o - p) 4
          if -(2 ^ (n - 1)) ≤ d ∧ d < 2 ^ (n - 1) then pure (d, none) else .error 108
      | none => pure (0, some ⟨at_.2, kind, some b, x⟩)
    | .abs x => pure (0, some ⟨at_.2, kind, none, x⟩)
    | _ => .error 105

/-- Bits of a field's kind. -/
def Kind.width (k : Kind) : Nat :=
  match k with
  | .reg 't' => 5 | .signed n => n | .upTo m => Nat.log2 m + 1 | .half _ => 16 | .target n _ => n | .sreg => 12 | _ => 5

/-- The word of an instruction line, and the relocation it leaves. A third operand that is an expression makes BA odd (R203). -/
def Line.word (l : Line) (env : Places) (at_ : Nat × Nat) : Except Nat (Word × Option Reloc) := do
  if l.operands.length ≠ l.form.slots.length then throw 103
  let fields ← (l.form.slots.zip l.operands).mapM (fun (s, ts) => do let (v, r) ← fieldOf env at_ l.mods s.kind ts; pure (s, ts, v, r))
  let part (x : Slot × List Token × Int × Option Reloc) : Nat :=
    let (s, ts, v, _) := x
    let w := match s.kind with | .reg 't' => (if s.lo = 0 then 3 else 5) | k => k.width
    let odd := match s.kind, ts with
      | .third _, [.name r] => if (registerOf r).isSome then 0 else 2 ^ 9
      | .third _, _ => 2 ^ 9
      | _, _ => 0
    (Int.emod v (2 ^ w)).toNat * 2 ^ s.lo + odd
  let pay := l.form.fixed + (fields.map part).sum + ((l.mods.zip l.form.mods).map (fun (v, (lo, _)) => v * 2 ^ lo)).sum
  let w := if l.form.long then longWord l.chain (BitVec.ofNat 6 l.form.op) (BitVec.ofNat 24 pay)
    else shortWord ⟨l.chain, l.guard⟩ (BitVec.ofNat 6 l.form.op) (BitVec.ofNat 19 pay)
  pure (w, fields.findSome? (fun (_, _, _, r) => r))

/-- What is wrong with a word by its fields: a block past v31 or s31 (104), or an immediate (105). -/
noncomputable def wordError (w : Word) : Option Nat :=
  match decode w with
  | .ok _ => none
  | .error (.badImmediate ..) => some 105
  | .error (.specialRegister _) => some 109
  | .error _ => some 104

end Sys2Proof.Onas
end

