-- ==== Sys2Proof/Machine/Object.lean ====
section
/-! DEFINITION. Sys2Proof/Machine/Object.lean: the MBX object format (R188 to R192), the bytes of an object, and the loader (R193 to
R195, R428, R429). -/

namespace Sys2Proof.Onas

open Sys2Proof.Machine (field natLe leNat State)

/-! ## An object and its bytes (R188 to R192) -/

/-- A section of an object: its contents, its size (that of .bss without contents) and its relocations. -/
structure Section where
  name : String
  kind : Nat
  flags : Nat
  align : Nat
  entsz : Nat
  data : List Byte
  size : Nat
  relocs : List Reloc
  deriving DecidableEq, Repr

/-- A symbol: its section, none for an extern; BIND and TYPE of R191. -/
structure Symbol where
  name : String
  sect : Option Nat
  bind : Nat
  type : Nat
  value : Nat
  size : Nat
  deriving DecidableEq, Repr

/-- An object. -/
structure Object where
  sections : List Section
  symbols : List Symbol
  deriving DecidableEq, Repr

/-- The standard section of a kind: name, KIND, FLAGS, ALIGN, ENTSZ (R190). -/
def standard : List (String × Nat × Nat × Nat × Nat) :=
  [(".text", 1, 5, 192, 12), (".rodata", 2, 1, 64, 0), (".data", 3, 3, 64, 0), (".bss", 4, 3, 64, 0), (".launch", 5, 1, 128, 0),
    (".pricking", 6, 3, 64, 64), (".census", 7, 0, 8, 16), (".frames", 8, 0, 8, 32), (".reloc", 9, 0, 8, 24), (".symtab", 10, 0, 8, 24),
    (".strtab", 11, 0, 1, 0)]

/-- The bytes of a name in .strtab. -/
def nameBytes (s : String) : List Byte := s.toList.map (fun c => BitVec.ofNat 8 c.toNat) ++ [0]
/-- A string table, and where each of its names begins; a zero byte comes first. -/
def strtab (names : List String) : List Byte × (String → Nat) :=
  let (t, at_) := names.foldl (fun (t, at_) s => if at_.any (fun (x : String × Nat) => x.1 == s) then (t, at_) else (t ++ nameBytes s, at_ ++ [(s, t.length)])) ([0], [("", 0)])
  (t, fun s => ((at_.find? (fun x => x.1 == s)).map Prod.snd).getD 0)

/-- The symbols of an object with those its relocations need besides: the start of each section, and the absolute 0. -/
def Object.allSymbols (o : Object) : List Symbol :=
  o.symbols ++ (o.sections.zipIdx).map (fun (s, i) => ⟨s.name, some i, 0, 0, 0, 0⟩) ++ [⟨"", some 0xFFFF, 0, 0, 0, 0⟩]
/-- The index of a relocation's symbol. -/
def Object.symIndex (o : Object) (b : Option Base) : Nat :=
  match b with
  | none => o.symbols.length + o.sections.length
  | some (.section_ k) => o.symbols.length + k
  | some (.symbol s) => (o.symbols.findIdx? (fun y => y.name == s)).getD 0

/-- A two's-complement field of n bytes. -/
def intLe (n : Nat) (x : Int) : List Byte := natLe n (Int.emod x (2 ^ (8 * n))).toNat

/-- A .reloc entry (R192). -/
def Object.relocBytes (o : Object) (r : Reloc) : List Byte :=
  natLe 8 r.offset ++ natLe 4 (o.symIndex r.base) ++ natLe 2 r.kind ++ [0, 0] ++ intLe 8 r.addend

/-- A .symtab entry (R191). -/
def symbolBytes (at_ : String → Nat) (y : Symbol) : List Byte :=
  natLe 4 (at_ y.name) ++ natLe 2 (y.sect.getD 0) ++ natLe 1 y.bind ++ natLe 1 y.type ++ natLe 8 y.value ++ natLe 8 y.size

/-- A file: header, section headers, and the contents, each 8-aligned (R188, R189). -/
def Object.bytes (o : Object) (stepMin : Nat) : List Byte :=
  let rel := (o.sections.zipIdx).filter (fun (s, _) => !s.relocs.isEmpty)
  let n := o.sections.length
  let symAt := n + rel.length
  let all := o.allSymbols
  let (strs, at_) := strtab (o.sections.map Section.name ++ [".reloc", ".symtab", ".strtab"] ++ all.map Symbol.name)
  -- name, KIND, FLAGS, ALIGN, LINK, ENTSZ, contents, SIZE
  let rows : List (String × Nat × Nat × Nat × Nat × Nat × List Byte × Nat) :=
    o.sections.map (fun s => (s.name, s.kind, s.flags, s.align, 0, s.entsz, if s.kind = 4 then [] else s.data, s.size)) ++
      rel.map (fun (s, i) => let b := s.relocs.flatMap o.relocBytes; (".reloc", 9, 0, 8, i, 24, b, b.length)) ++
      [(let b := all.flatMap (symbolBytes at_); (".symtab", 10, 0, 8, symAt + 1, 24, b, b.length)), (".strtab", 11, 0, 1, 0, 0, strs, strs.length)]
  let base := 64 + 64 * rows.length
  let (body, heads) := rows.foldl (fun (body, heads) (name, kind, flags, align, link, entsz, b, size) =>
      let body := body ++ List.replicate ((8 - body.length % 8) % 8) (0 : Byte)
      (body ++ b, heads ++ natLe 4 (at_ name) ++ natLe 4 kind ++ natLe 4 flags ++ natLe 4 align ++ natLe 8 (if kind = 4 then 0 else base + body.length) ++ natLe 8 size ++
        natLe 8 0 ++ natLe 4 link ++ natLe 4 entsz ++ List.replicate 16 (0 : Byte))) (([] : List Byte), ([] : List Byte))
  let final := if o.symbols.any (fun y => y.bind == 2) then 0 else 1
  [0x4D, 0x42, 0x58, 0x00] ++ natLe 2 1 ++ natLe 2 final ++ natLe 2 Config.part ++ natLe 1 stepMin ++ List.replicate 5 (0 : Byte) ++ natLe 8 64 ++
    natLe 2 rows.length ++ natLe 2 (symAt + 1) ++ List.replicate 36 (0 : Byte) ++ heads ++ body

/-! ## What a loader reads (R188 to R192) -/

/-- A section header, with its contents. -/
structure Header where
  kind : Nat
  flags : Nat
  align : Nat
  offset : Nat
  size : Nat
  link : Nat
  reserved : Nat
  data : List Byte
  deriving DecidableEq, Repr

/-- The section headers of a file. -/
def headers (b : List Byte) : List Header :=
  (List.range (field b 0x18 2)).map (fun i =>
    let h := (b.drop (field b 0x10 8 + 64 * i)).take 64
    let kind := field h 4 4
    let offset := field h 0x10 8
    let size := field h 0x18 8
    { kind := kind, flags := field h 8 4, align := field h 0x0C 4, offset := offset, size := size, link := field h 0x28 4, reserved := field h 0x30 16,
      data := if kind = 4 then List.replicate size 0 else (b.drop offset).take size })

/-- A symbol as a file holds it: its name's bytes, SECT, BIND and VALUE. -/
structure FileSymbol where
  name : List Byte
  sect : Nat
  bind : Nat
  value : Nat
  deriving DecidableEq, Repr

/-- The symbols of a file. -/
def symbolsOf (b : List Byte) : List FileSymbol :=
  let hs := headers b
  match hs.find? (fun h => h.kind == 10) with
  | none => []
  | some h =>
    let strs := ((hs[h.link]?).map Header.data).getD []
    (List.range (h.size / 24)).map (fun i =>
      let e := (h.data.drop (24 * i)).take 24
      { name := (strs.drop (field e 0 4)).takeWhile (· != 0), sect := field e 4 2, bind := field e 6 1, value := field e 8 8 })

/-- A relocation as a file holds it, with the section it is for. -/
structure FileReloc where
  sect : Nat
  index : Nat
  offset : Nat
  sym : Nat
  kind : Nat
  addend : Int
  deriving DecidableEq, Repr

/-- The relocations of a file, in the order of their sections and entries. -/
def relocsOf (b : List Byte) : List FileReloc :=
  ((headers b).filter (fun h => h.kind == 9)).flatMap (fun h =>
    (List.range (h.size / 24)).map (fun i =>
      let e := (h.data.drop (24 * i)).take 24
      { sect := h.link, index := i, offset := field e 0 8, sym := field e 8 4, kind := field e 12 2, addend := (BitVec.ofNat 64 (field e 16 8)).toInt }))

/-! ## The checks (R428) -/

/-- What stands at an address of a placed set: of object and section, of a KIND. -/
structure Placed where
  object : Nat
  sect : Nat
  kind : Nat
  addr : DWord
  data : List Byte
  deriving DecidableEq, Repr

/-- What a loader reports: the status, the object, and the section or entry; with status 0 the placed sections and the census buffer with its
address and its entry count (R193, R428). -/
structure Report where
  status : Nat
  object : Nat
  entry : Nat
  image : List Placed
  census : List Byte
  buffer : DWord
  nent : Nat
  deriving DecidableEq, Repr

/-- A refusal. -/
def refuse (status object entry : Nat) : Report := ⟨status, object, entry, [], [], 0, 0⟩

/-- Statuses 1 to 3 of an object on a device of a stepping, with the extern symbol that FINAL = 1 forbids. -/
def headerStatus (step : Nat) (b : List Byte) : Nat × Nat :=
  if b.length < 64 || b.take 4 != [0x4D, 0x42, 0x58, 0x00] || field b 4 2 != 1 || field b 6 2 / 2 != 0 || field b 0x0B 5 != 0 || field b 0x1C 36 != 0 then (1, 0)
  else
    match if field b 6 2 % 2 = 1 then (symbolsOf b).findIdx? (fun y => y.bind == 2) else none with
    | some y => (1, y)
    | none => (if field b 8 2 != Config.part then 2 else if step < field b 0x0A 1 then 3 else 0, 0)

/-- A power of two. -/
def powerOfTwo (n : Nat) : Bool := decide (0 < n) && 2 ^ Nat.log2 n == n

/-- A section header that status 4 refuses. -/
def Header.bad (hs : List Header) (len : Nat) (h : Header) : Bool :=
  let std := ((standard.find? (fun x => x.2.1 == h.kind)).map (fun x => x.2.2.2.1)).getD 0
  let kindOf (i : Nat) : Nat := ((hs[i]?).map Header.kind).getD 0
  h.kind == 0 || decide (11 < h.kind) || decide (h.align < std) ||
    (if h.kind = 1 then !(h.align % 12 == 0 && powerOfTwo (h.align / 12)) else !powerOfTwo h.align) ||
    (h.kind != 4 && decide (len < h.offset + h.size)) || h.flags / 8 != 0 || h.reserved != 0 ||
    (h.kind == 9 && !(decide (h.link < hs.length) && kindOf h.link != 9)) || (h.kind == 10 && kindOf h.link != 11)

/-- Bytes that a relocation of a kind writes into. -/
def relocSize (kind : Nat) : Nat := if kind = 1 then 8 else 4

/-- The first of a list of objects, with its number, that has a status. -/
def firstFailure (files : List (List Byte)) (f : Nat → List Byte → Option Report) : Option Report :=
  files.zipIdx.findSome? (fun (b, i) => f i b)

/-- The global symbols of a set: name, object and index. -/
def globals (files : List (List Byte)) : List (List Byte × Nat × Nat) :=
  files.zipIdx.flatMap (fun (b, i) => ((symbolsOf b).zipIdx.filter (fun (y, _) => y.bind == 1)).map (fun (y, j) => (y.name, i, j)))

/-- The checks that need no placement, in the order of their statuses. -/
def checkSet (step : Nat) (files : List (List Byte)) : Option Report :=
  let gs := globals files
  (firstFailure files (fun i b => let (n, e) := headerStatus step b; if n = 0 then none else some (refuse n i e))).or
    ((firstFailure files (fun i b =>
      let hs := headers b
      if b.length < field b 0x10 8 + 64 * field b 0x18 2 then some (refuse 4 i 0)
      else (hs.findIdx? (Header.bad hs b.length)).map (refuse 4 i))).or
    ((gs.zipIdx.findSome? (fun ((name, i, j), k) => if (gs.take k).any (fun x => x.1 == name) then some (refuse 5 i j) else none)).or
    ((firstFailure files (fun i b =>
      ((symbolsOf b).findIdx? (fun y => y.bind == 2 && !gs.any (fun x => x.1 == y.name))).map (refuse 6 i))).or
    (firstFailure files (fun i b =>
      let hs := headers b
      let n := (symbolsOf b).length
      ((relocsOf b).find? (fun r =>
        r.kind == 0 || decide (9 < r.kind) || decide (n ≤ r.sym) || decide (((hs[r.sect]?).map Header.size).getD 0 < r.offset + relocSize r.kind))).map
        (fun r => refuse 7 i r.index))))))

/-! ## Loading (R193, R195) -/

/-- Where the host places the alloc sections of a set: by object and section. -/
abbrev Placing := Nat → Nat → Option DWord

/-- The address of a symbol of an object; an extern's is that of the global of its name. -/
def addressOf (files : List (List Byte)) (place : Placing) (i sym : Nat) : Nat :=
  let value (i j : Nat) : Nat :=
    match (symbolsOf (files.getD i []))[j]? with
    | none => 0
    | some y => if y.sect = 0xFFFF then y.value else ((place i y.sect).getD 0).toNat + y.value
  match (symbolsOf (files.getD i []))[sym]? with
  | some y => if y.bind = 2 then (match (globals files).find? (fun x => x.1 == y.name) with | some (_, k, j) => value k j | none => 0) else value i sym
  | none => 0

/-- Bytes put at an offset of a list. -/
def patch (b : List Byte) (off : Nat) (x : List Byte) : List Byte := b.take off ++ x ++ b.drop (off + x.length)

/-- The contents of a section after one relocation: none when its result does not fit its field (status 8). -/
def applyReloc (data : List Byte) (at_ : Nat) (s : Nat) (r : FileReloc) : Option (List Byte) :=
  let v : Int := s + r.addend
  let w : Nat := field data r.offset 4
  let p : Int := (at_ + r.offset) - (at_ + r.offset) % 12
  let q : Int := Int.fdiv (v - p) 4
  let fits (n : Nat) : Bool := decide (-(2 ^ (n - 1)) ≤ q) && decide (q < 2 ^ (n - 1))
  let low (n : Nat) : Nat := w / 2 ^ n * 2 ^ n + (Int.emod q (2 ^ n)).toNat
  match r.kind with
  | 1 => if 0 ≤ v ∧ v < 2 ^ 64 then some (patch data r.offset (intLe 8 v)) else none
  | 2 => if 0 ≤ v ∧ v < 2 ^ 32 then some (patch data r.offset (intLe 4 v)) else none
  | 3 => if Int.emod v 4 = 0 ∧ fits 17 = true then some (patch data r.offset (natLe 4 (low 17))) else none
  | 4 =>
    if fits 24 then
      let l := (Int.emod q (2 ^ 24)).toNat
      some (patch data r.offset (natLe 4 (w / 2 ^ 30 * 2 ^ 30 + l / 2 ^ 19 * 2 ^ 25 + w / 2 ^ 19 % 2 ^ 6 * 2 ^ 19 + l % 2 ^ 19)))
    else none
  | 5 => if fits 12 then some (patch data r.offset (natLe 4 (low 12))) else none
  | k => some (patch data r.offset (natLe 4 (w / 2 ^ 16 * 2 ^ 16 + (Int.emod (Int.fdiv v (2 ^ (16 * (k - 6)))) (2 ^ 16)).toNat)))

/-- A section has an address, or needs none. -/
def hasPlace (files : List (List Byte)) (place : Placing) (i k : Nat) : Bool :=
  (place i k).isSome || ((((headers (files.getD i []))[k]?).map Header.flags).getD 0) % 2 == 0

/-- A symbol has an address. -/
def hasAddress (files : List (List Byte)) (place : Placing) (i sym : Nat) : Bool :=
  let known (i j : Nat) : Bool := match (symbolsOf (files.getD i []))[j]? with | some y => y.sect == 0xFFFF || hasPlace files place i y.sect | none => false
  match (symbolsOf (files.getD i []))[sym]? with
  | some y => if y.bind = 2 then (match (globals files).find? (fun x => x.1 == y.name) with | some (_, k, j) => known k j | none => false) else known i sym
  | none => false

/-- The contents of section k of object i after its relocations, or the entry that does not fit; one that has no address to count with is left. -/
def relocated (files : List (List Byte)) (place : Placing) (i k : Nat) (h : Header) : Except Nat (List Byte) :=
  ((relocsOf (files.getD i [])).filter (fun r => r.sect == k && hasPlace files place i k && hasAddress files place i r.sym)).foldlM (fun data r =>
    match applyReloc data ((place i k).getD 0).toNat (addressOf files place i r.sym) r with
    | some d => .ok d
    | none => .error r.index) h.data

/-- The distinct pairs of a census, ascending, with the entry of sites that have none before them (R164, R193). -/
def censusBuffer (pairs : List (Nat × Nat)) : List Byte × Nat :=
  let before (a b : Nat × Nat) : Bool := decide (a.1 < b.1) || (a.1 == b.1 && decide (a.2 < b.2))
  let insert (l : List (Nat × Nat)) (x : Nat × Nat) : List (Nat × Nat) :=
    if l.contains x then l else l.filter (fun y => before y x) ++ [x] ++ l.filter (fun y => before x y)
  let l := (0, 0) :: pairs.foldl insert []
  (l.flatMap (fun (k, w) => natLe 8 k ++ natLe 8 w ++ List.replicate 16 (0 : Byte)), l.length)

/-- A set as a loader places it (R193): every check, of which the last is that of the relocations (status 8), and the census buffer at the address
chosen for it; then a section that cannot be placed is status 9 (R428, R429). -/
def loadSet (step : Nat) (files : List (List Byte)) (place : Placing) (buffer : DWord) : Report :=
  match checkSet step files with
  | some r => r
  | none =>
    let sections := files.zipIdx.flatMap (fun (b, i) => (headers b).zipIdx.map (fun (h, k) => (i, k, h)))
    let done := sections.map (fun (i, k, h) => (i, k, h, relocated files place i k h))
    match done.findSome? (fun (i, _, _, r) => match r with | .error e => some (i, e) | .ok _ => none) with
    | some (i, e) => refuse 8 i e
    | none =>
      match done.findSome? (fun (i, k, h, _) => if h.flags % 2 = 1 then (match place i k with | some a => if a.toNat % h.align = 0 then none else some (i, k) | none => some (i, k)) else none) with
      | some (i, k) => refuse 9 i k
      | none =>
        let image := done.filterMap (fun (i, k, h, r) =>
          match r with
          | .ok d => if h.flags % 2 = 1 then (place i k).map (fun a => Placed.mk i k h.kind a d) else none
          | .error _ => none)
        let pairs := done.flatMap (fun (_, _, h, r) =>
          match r with
          | .ok d => if h.kind = 7 then (List.range (h.size / 16)).map (fun j => (field d (16 * j) 8, field d (16 * j + 8) 8)) else []
          | .error _ => [])
        let (c, n) := censusBuffer pairs
        ⟨0, 0, 0, image, c, buffer, n⟩

/-- The pages that a section of a KIND may lie on, by their W and X (R193): .text on X = 1 and W = 0, data and Pricking tables on W = 1. -/
def pageSuits (kind : Nat) (w x : Bool) : Bool := if kind = 1 then x && !w else if kind = 3 ∨ kind = 6 then w else true

/-- Bytes written as the host writes memory, at the sys point; one that is dropped fails, with the request that an access table forbids, if one does
(R381). -/
def hostPut (s : State) (key : Nat) (b : List Byte) : Except (Option Machine.Denial) State :=
  if Machine.isHostKey key then .ok (s.hostWrite key b)
  else if !s.paPresent key || s.frozen.contains 0x60 then .error none
  else
    match s.forbids 0x60 key b.length true with
    | some pa => .error (some ⟨0x60, pa, ⟨true, false, false⟩⟩)
    | none => .ok (s.hostWrite key b)

/-- A section or buffer written where the function's tables map it; it fails when an address is not mapped, not present, or on a page that does not
suit, or when a write is dropped. -/
def writePlaced (fn : Nat) (s : State) (p : Placed) : Except (Option Machine.Denial) State :=
  ((Machine.pageRuns (p.data.length / 65536 + 3) p.addr.toNat 0 p.data.length).map (fun (off, n) => (p.addr + BitVec.ofNat 64 off, (p.data.drop off).take n))).foldlM
    (fun (s : State) (a, b) =>
      match s.walk fn (s.readEntry none) a with
      | some (_, .ok key w x) => if pageSuits p.kind w x then hostPut s key b else .error none
      | _ => .error none) s

/-- A set loaded into the context of a function: the translation table entries that map its placements (each at a host or device physical address),
its sections, and its census buffer, which the host is told of. A refused set changes nothing; of one whose placement or writes fail (status 9 or 10)
every placement is removed, its table entries too, so nothing of it stands, and a write that the host's access table forbids leaves the host frozen
(R193, R381, R428, R429). -/
def load (fn : Nat) (files : List (List Byte)) (place : Placing) (entries : List (Nat × DWord)) (buffer : DWord) (s : State) : State × Report :=
  let r := loadSet s.step.toNat files place buffer
  if r.status ≠ 0 then (s, r)
  else
    let failed (d : Option Machine.Denial) (i k : Nat) : State × Report :=
      ((match d with | some d => s.violate d 0xFFFFFFFF 0 0 0 0 | none => s), refuse 10 i k)
    match entries.foldlM (fun s (a, e) => hostPut s a (natLe 8 e.toNat)) s with
    | .error d => failed d 0 0
    | .ok mapped =>
      let step (acc : Except (Option Machine.Denial × Placed) State) (p : Placed) : Except (Option Machine.Denial × Placed) State :=
        match acc with
        | .ok t => (match writePlaced fn t p with | .ok u => .ok u | .error d => .error (d, p))
        | e => e
      -- the buffer's writes are named by the first .census section of the set
      let (i, k) := (files.zipIdx.findSome? (fun (b, i) => ((headers b).findIdx? (fun h => h.kind == 7)).map (fun k => (i, k)))).getD (0, 0)
      match (r.image ++ [Placed.mk i k 7 buffer r.census]).foldl step (.ok mapped) with
      | .ok t => (t, r)
      | .error (d, p) => failed d p.object p.sect

end Sys2Proof.Onas
end

