-- ==== Sys2Proof/Machine/Onas.lean ====
section
/-! DEFINITION. Sys2Proof/Machine/Onas.lean: the assembler (R177 to R187, R425 to R427): packets and chains, kernels and their launch
records, sizing directives, functions and frames, graph tables, census sites, sections and data, from the lines of a source to an object
or its errors. -/

namespace Sys2Proof.Onas

open Sys2Proof.Machine (LaunchRecord natLe)

/-! ## What a first pass keeps -/

/-- What stands at an offset of a section. -/
inductive Item where
  /-- An instruction line, with the kernel or function around it, and whether census entries are on. -/
  | word (off line : Nat) (unit : Option Nat) (census : Bool) (l : Line)
  /-- A value of .word in .text, with the same. -/
  | raw (off line : Nat) (unit : Option Nat) (census : Bool) (e : Expr)
  /-- A datum of n bytes. -/
  | datum (off line n : Nat) (e : Expr)
  /-- Bytes. -/
  | fill (off : Nat) (bs : List Byte)
  /-- The index of a node of a table. -/
  | node (off line : Nat) (table : Nat × Nat) (ts : List Token)
  deriving DecidableEq, Repr

/-- A word of a chain that is not placed yet, with the kernel or function around it and whether census entries are on: an instruction line, or
a value of .word with its C bit. -/
inductive Pending where
  | line (n : Nat) (unit : Option Nat) (census : Bool) (l : Line)
  | value (n : Nat) (unit : Option Nat) (census : Bool) (e : Expr) (c : Bool)
  deriving DecidableEq, Repr

/-- A section as it grows, with the words of a chain that is not whole yet. -/
structure Part where
  name : String
  kind : Nat
  flags : Nat
  align : Nat
  entsz : Nat
  size : Nat
  items : List Item
  chain : List Pending
  deriving DecidableEq, Repr

/-- A symbol as it is defined. -/
structure Def where
  name : String
  sect : Nat
  off : Nat
  type : Nat
  size : Nat
  deriving DecidableEq, Repr

/-- A kernel or function (R179, R183). -/
structure Body where
  name : String
  kernel : Bool
  sect : Nat
  start : Nat
  nv : Nat
  ns : Nat
  na : Nat
  nt : Option Nat
  nac : Option Nat
  deriving DecidableEq, Repr

/-- A kernel that is open: its directives, with their numbers, expressions and values. -/
structure Kernel where
  body : Nat
  line : Nat
  keys : List String
  nums : List (String × List Int)
  exprs : List (String × Nat × Expr)
  cbufs : List (Nat × Nat × Nat)
  deriving DecidableEq, Repr

/-- What a first pass has found for the next one: the symbols, and where the words of .word stand, by their lines. -/
structure Found where
  defs : List Def
  raws : List (Nat × Nat)
  deriving DecidableEq, Repr

/-- The assembler between two lines; `known` is what the pass before found. -/
structure Asm where
  known : Found
  parts : List Part
  cur : Option Nat
  defs : List Def
  bodies : List Body
  body : Option Nat
  kernel : Option Kernel
  table : Option (Nat × Nat)
  globals : List (String × Nat)
  externs : List String
  census : Bool
  errors : List (Nat × Nat)
  deriving DecidableEq, Repr

/-- Before the first line. -/
def Asm.start (known : Found) : Asm := ⟨known, [], none, [], [], none, none, none, [], [], true, []⟩

/-- An error of a line. -/
def Asm.error (a : Asm) (line n : Nat) : Asm := { a with errors := a.errors ++ [(line, n)] }
/-- A line's result, or its error. -/
def Asm.try_ (a : Asm) (line : Nat) (r : Except Nat Asm) : Asm := match r with | .ok b => b | .error n => a.error line n
/-- Where the symbols stand, those of lines to come as the pass before found them. -/
def Asm.env (a : Asm) : Places := fun s =>
  match (a.defs ++ a.known.defs).find? (fun d => d.name == s) with
  | some d => some (some (d.sect, d.off))
  | none => if a.externs.contains s then some none else none
/-- The current section. -/
def Asm.part (a : Asm) : Option Part := a.cur.bind (fun k => a.parts[k]?)
/-- The current place. -/
def Asm.here (a : Asm) : Nat × Nat := (a.cur.getD 0, ((a.part).map Part.size).getD 0)
/-- A part changed. -/
def Asm.upd (a : Asm) (k : Nat) (f : Part → Part) : Asm := { a with parts := a.parts.modify k f }
/-- Zero bytes to a multiple of n in a part. -/
def Part.pad (p : Part) (n : Nat) : Part := { p with size := (p.size + n - 1) / n * n }
/-- An item put at the end of a part. -/
def Part.push (p : Part) (n : Nat) (f : Nat → Item) : Part := { p with size := p.size + n, items := p.items ++ [f p.size] }
/-- A section of instructions. -/
def Part.text (p : Part) : Bool := p.kind == 1

/-- A symbol defined at a place. -/
def Asm.define (a : Asm) (line : Nat) (s : String) (k off type size : Nat) : Asm :=
  if isRegister s || a.defs.any (fun d => d.name == s) || a.externs.contains s then a.error line 114
  else { a with defs := a.defs ++ [⟨s, k, off, type, size⟩] }

/-! ## Packets (R177, R178) -/

/-- The mark of a pending word. -/
def Pending.chained : Pending → Bool | .line _ _ _ l => l.chain | .value _ _ _ _ c => c
/-- Its line. -/
def Pending.at_ : Pending → Nat | .line n _ _ _ => n | .value n .. => n
/-- Its pipe class; the class of a value of .word is not looked at. -/
def Pending.pipe : Pending → Option Pipe
  | .line _ _ _ l => wordClass (shortWord Head.plain (BitVec.ofNat 6 l.form.op) 0)
  | .value .. => none
/-- It stands at an offset. -/
def Pending.item (off : Nat) : Pending → Item
  | .line n u c l => .word off n u c l
  | .value n u c e _ => .raw off n u c e

/-- The first word of a chain that breaks R177, if any. -/
def chainError : List (Option Pipe) → List Pending → Option Nat
  | _, [] => none
  | seen, p :: ps =>
    if p.pipe.isSome && (seen.contains p.pipe || (p.pipe == some .C && !ps.isEmpty)) then some p.at_ else chainError (p.pipe :: seen) ps

/-- A chain placed in one packet of section k. -/
def Asm.placeIn (a : Asm) (k : Nat) (ps : List Pending) : Asm :=
  let a := if 3 < ps.length then a.error ((ps.getLast?.map Pending.at_).getD 0) 107 else match chainError [] ps with | some n => a.error n 107 | none => a
  a.upd k (fun p =>
    let p := { p with chain := [] }
    let p := if 3 < p.size % 12 / 4 + ps.length then p.pad 12 else p
    ps.foldl (fun p x => p.push 4 (fun off => x.item off)) p)

/-- A chain left open in section k: its words are placed and the line is in error. -/
def Asm.closeIn (a : Asm) (k : Nat) : Asm :=
  match (a.parts[k]?).map Part.chain with
  | some (x :: xs) => (a.placeIn k (x :: xs)).error (((x :: xs).getLast?.map Pending.at_).getD 0) 107
  | _ => a

/-- A new packet in a section of instructions. -/
def Asm.newPacket (a : Asm) : Asm :=
  match a.cur, a.part with
  | some k, some p => if p.text then (a.closeIn k).upd k (fun p => p.pad 12) else a
  | _, _ => a

/-- A word of .text: words of one chain follow one another in the section, whatever stands between their lines. -/
def Asm.word (a : Asm) (p : Pending) : Asm :=
  match a.cur, a.part with
  | some k, some x =>
    let ps := x.chain ++ [p]
    if p.chained && decide (ps.length < 4) then a.upd k (fun x => { x with chain := ps }) else a.placeIn k ps
  | _, _ => a

/-- An instruction line as a word of the current section. -/
def Asm.wordLine (a : Asm) (line : Nat) (l : Line) : Asm := a.word (.line line a.body a.census l)

/-- An instruction line built of a mnemonic and operands. -/
def Asm.emit (a : Asm) (line : Nat) (m : String) (operands : List (List Token)) : Except Nat Asm := do
  let (f, ms) ← mnemonic m
  pure (a.wordLine line ⟨none, f, ms, operands, false⟩)

/-! ## Sections and bodies (R183, R186) -/

/-- A section is selected, and created on first use; a function ends there, a kernel does not. -/
def Asm.select (a : Asm) (name : String) (kind flags align entsz : Nat) : Asm :=
  let a := { a with table := none, body := if a.kernel.isSome then a.body else none }
  match a.parts.findIdx? (fun p => p.name == name) with
  | some k => { a with cur := some k }
  | none => { a with cur := some a.parts.length, parts := a.parts ++ [⟨name, kind, flags, align, entsz, 0, [], []⟩] }

/-- .section (R186): the standard names select the standard sections, another name with rodata, data or bss creates a further one. -/
def Asm.section_ (a : Asm) (ops : List (List Token)) : Except Nat Asm :=
  match ops with
  | [[.name s]] =>
    match standard.find? (fun x => x.1 == s), a.parts.find? (fun p => p.name == s) with
    | some (_, kind, flags, align, entsz), _ => .ok (a.select s kind flags align entsz)
    | none, some p => .ok (a.select s p.kind p.flags p.align p.entsz)
    | none, none => .error 103
  | [[.name s], [.name k]] =>
    match standard.find? (fun x => x.1 == "." ++ lower k), a.parts.find? (fun p => p.name == s) with
    | some (_, kind, flags, align, entsz), old =>
      if 2 ≤ kind ∧ kind ≤ 4 ∧ !standard.any (fun x => x.1 == s) ∧ (old.all (fun p => p.kind == kind)) then .ok (a.select s kind flags align entsz) else .error 103
    | none, _ => .error 103
  | _ => .error 103

/-- .func (R183). -/
def Asm.func (a : Asm) (line : Nat) (ops : List (List Token)) : Except Nat Asm :=
  match ops, (a.part).map Part.text with
  | [[.name s], v, n, x], some true => do
    if a.kernel.isSome then throw 110
    let nv ← numOperand a.env a.here 1 32 v
    let ns ← numOperand a.env a.here 0 15 n
    let na ← numOperand a.env a.here 0 7 x
    if nv < na then throw 112
    let a := a.newPacket
    let (k, off) := a.here
    let a := a.define line s k off 2 0
    pure { a with body := some a.bodies.length, bodies := a.bodies ++ [⟨s, false, k, off, nv.toNat, ns.toNat, na.toNat, none, none⟩] }
  | [_, _, _, _], _ => .error 110
  | _, _ => .error 103

/-- .kernel (R179). -/
def Asm.openKernel (a : Asm) (line : Nat) (ops : List (List Token)) : Except Nat Asm :=
  match ops, (a.part).map Part.text with
  | [[.name s], v, n], some true => do
    if a.kernel.isSome then throw 110
    let nv ← numOperand a.env a.here 0 255 v
    let ns ← numOperand a.env a.here 0 255 n
    let a := a.newPacket
    let (k, off) := a.here
    let a := a.define line s k off 3 0
    let u := a.bodies.length
    pure { a with body := some u, bodies := a.bodies ++ [⟨s, true, k, off, nv.toNat, ns.toNat, 0, some 0, some 0⟩], kernel := some ⟨u, line, [], [], [], []⟩ }
  | [_, _, _], _ => .error 110
  | _, _ => .error 103

/-! ## The launch record (R179 to R181) -/

/-- The numbers of a directive, or its default. -/
def Kernel.get (x : Kernel) (key : String) (d : List Int) : List Int := ((x.nums.find? (fun y => y.1 == key)).map Prod.snd).getD d
/-- The first of them. -/
def Kernel.one (x : Kernel) (key : String) (d : Int) : Int := (x.get key [d]).headD d

/-- The numeric fields of the record: offset, size, value. -/
def Kernel.fields (x : Kernel) (b : Body) : List (Nat × Nat × Int) :=
  let w := x.one "width" 32
  let thr := x.one "thr" (64 * w)
  let three (o : Nat) (l : List Int) : List (Nat × Nat × Int) := l.zipIdx.map (fun (v, i) => (o + 4 * i, 4, v))
  let bits (key : String) (d : Int) : Int := x.one key d
  three 0x08 (x.get "space" [1, 1, 1]) ++ three 0x14 (x.get "min" [1, 1, 1]) ++ three 0x20 (x.get "max" [thr, thr, thr]) ++ three 0x2C (x.get "pref" [w, 1, 1]) ++
    [(0x38, 2, thr), (0x3A, 1, w), (0x3B, 1, x.one "probe" 4), (0x3C, 1, x.one "recut" 0), (0x3D, 1, x.one "order" 0), (0x3E, 1, x.one "tiles" 0),
      (0x3F, 1, x.one "accs" 0)] ++ three 0x40 (x.get "scratch" [0, 0]) ++
    [(0x48, 1, (b.nv : Int)), (0x49, 1, (b.ns : Int)), (0x4A, 1, x.one "opclass" 6), (0x4B, 1, x.one "reach" 1), (0x58, 8, x.one "stride" 0), (0x60, 8, x.one "start" 0),
      (0x80, 8, x.one "evval" 0), (0x88, 1, x.one "evop" 0), (0x89, 1, x.one "evscope" 4), (0x90, 24, bits "place" (2 ^ 192 - 1)),
      (0xA8, 4, bits "barrier" 0 + 2 * bits "resident" 0 + 4 * bits "twin" 0), (0xB0, 16, bits "devices" 0)]

/-- Bytes with fields put into them; none when one does not fit. -/
def putFields (n : Nat) (fs : List (Nat × Nat × Int)) : Option (List Byte) :=
  fs.foldlM (fun b (o, m, v) => if 0 ≤ v ∧ v < 2 ^ (8 * m) then some (patch b o (intLe m v)) else none) (List.replicate n (0 : Byte))

/-- The scratch layout record, when a directive asks for one (R180). -/
def Kernel.layout (x : Kernel) : Option (List (Nat × Nat × Int)) :=
  if x.cbufs.isEmpty && !x.keys.contains "swcache" && !x.keys.contains "stage" then none
  else
    some (x.cbufs.map (fun (n, slots, bytes) => (4 * n, 4, ((2 ^ 31 + (slots - 1) * 2 ^ 23 + bytes / 64 : Nat) : Int))) ++
      [(0x40, 2, (x.get "swcache" [0, 0]).headD 0), (0x42, 2, ((x.get "swcache" [0, 0]).drop 1).headD 0), (0x44, 1, x.one "stage" 0)])

/-- The tiles and accumulators of the kernel that is open stand for the words of its body. -/
def Asm.closeKernel (a : Asm) : Asm :=
  match a.kernel with
  | none => a
  | some x =>
    { a with kernel := none, body := none,
             bodies := a.bodies.modify x.body (fun b => { b with nt := some (x.one "tiles" 0).toNat, nac := some (x.one "accs" 0).toNat }) }

/-- .endkernel: the limits, the record and the scratch layout record in .launch. -/
def Asm.endKernel (a : Asm) (line : Nat) : Except Nat Asm :=
  match a.kernel with
  | none => .error 110
  | some x => do
    let back := a.cur
    let table := a.table
    let a := a.closeKernel
    match a.bodies[x.body]? with
    | none => .error 110
    | some b =>
      let known (o : Nat) (key : String) : List (Nat × Nat × Int) :=
        (x.exprs.filter (fun y => y.1 == key)).filterMap (fun (_, _, e) =>
          match e.eval a.env a.here with | .ok (.abs n) => some (o, 8, Int.emod n (2 ^ 64)) | _ => none)
      let addrs := known 0x50 "spill" ++ known 0x68 "args" ++ known 0x78 "event" ++ known 0xC0 "done"
      match putFields 256 (x.fields b ++ addrs), (x.layout.getD []) |> putFields 128 with
      | some bytes, some scr =>
        let r := { LaunchRecord.parse 0 bytes scr with scrl := if x.layout.isSome then 128 else 0 }
        if !r.withinLimits || !r.layoutOk || r.evaddr.toNat % 8 != 0 then throw 111
        let a := a.select ".launch" 5 1 128 0
        let k := a.cur.getD 0
        let expr (o : Nat) (key : String) (off : Nat) : List Item :=
          ((x.exprs.filter (fun y => y.1 == key)).map (fun (_, n, e) => Item.datum (off + o) n 8 e))
        let a := a.upd k (fun p => p.pad 64)
        let at_ := a.here.2
        let items : List Item := [.fill at_ bytes, .datum at_ x.line 8 (.sym b.name)] ++ expr 0x50 "spill" at_ ++ expr 0x68 "args" at_ ++
          expr 0x78 "event" at_ ++ expr 0xC0 "done" at_ ++ (if x.layout.isSome then [.datum (at_ + 0x70) x.line 8 (.sym (b.name ++ ".scrl"))] else [])
        let a := a.upd k (fun p => { p with size := at_ + 256, items := p.items ++ items })
        let a := a.define line (b.name ++ ".rec") k at_ 4 256
        let a :=
          if x.layout.isSome then
            let a := a.upd k (fun p => p.pad 128)
            let o := a.here.2
            (a.upd k (fun p => p.push 128 (fun off => .fill off scr))).define line (b.name ++ ".scrl") k o 6 128
          else a
        pure { a with cur := back, table := table }
      | _, _ => .error 111

/-- The code of a name in a list. -/
def codeOf (names : List String) (ts : List Token) : Except Nat Int :=
  match ts with
  | [.name s] => match names.findIdx? (· == lower s) with | some i => .ok i | none => .error 103
  | _ => .error 103

/-- The bits of a list of numbers and ranges below n. -/
def listBits (n : Nat) (ops : List (List Token)) : Except Nat Int := do
  let ranges ← ops.mapM (fun ts =>
    match ts with
    | [.num x] => if x < n then .ok (x, x) else .error 111
    | [.num x, .op "-", .num y] => if x ≤ y ∧ y < n then .ok (x, y) else .error 111
    | _ => .error 103)
  pure (((List.range n).filter (fun i => ranges.any (fun (x, y) => decide (x ≤ i) && decide (i ≤ y)))).map (fun i => (2 ^ i : Int))).sum

/-- Numbers of any size. -/
def Asm.numbers (a : Asm) (ops : List (List Token)) : Except Nat (List Int) := ops.mapM (numOperand a.env a.here (-(2 ^ 63)) (2 ^ 64 - 1))

/-- A directive between .kernel and .endkernel; none for another's name. -/
def Asm.kernelLine (a : Asm) (x : Kernel) (line : Nat) (d : String) (ops : List (List Token)) : Option (Except Nat Kernel) :=
  let set (key : String) (r : Except Nat (List Int)) : Except Nat Kernel :=
    if x.keys.contains key then .error 110 else do let v ← r; pure { x with keys := x.keys ++ [key], nums := x.nums ++ [(key, v)] }
  let count (n : Nat) (r : Except Nat (List Int)) : Except Nat (List Int) := if ops.length = n then r else .error 103
  let addr (key : String) (ts : List Token) (y : Kernel) : Except Nat Kernel := do let e ← exprOf ts; pure { y with exprs := y.exprs ++ [(key, line, e)] }
  let nums (n : Nat) : Except Nat (List Int) := count n (a.numbers ops)
  match d with
  | ".space" => some (set "space" (nums 3))
  | ".team" =>
    match ops with
    | [.name k] :: rest =>
      let key := lower k
      let want := if key = "thr" then 1 else 3
      some (if ["min", "max", "pref", "thr"].contains key && rest.length == want then set key (a.numbers rest) else .error 103)
    | _ => some (.error 103)
  | ".width" => some (set "width" (nums 1))
  | ".probe" => some (set "probe" (do let v ← nums 1; if v.headD 0 < 1 ∨ 64 < v.headD 0 then .error 111 else pure v))
  | ".recut" => some (set "recut" (do let v ← nums 1; if v.headD 0 < 0 ∨ 7 < v.headD 0 then .error 111 else pure v))
  | ".order" => some (set "order" (count 1 (do let i ← codeOf ["row", "col", "morton"] (ops.headD []); pure [i])))
  | ".scratch" => some (set "scratch" (nums 2))
  | ".barrier" => some (set "barrier" (count 0 (.ok [1])))
  | ".resident" => some (set "resident" (count 0 (.ok [1])))
  | ".twin" => some (set "twin" (count 0 (.ok [1])))
  | ".tiles" => some (set "tiles" (nums 1))
  | ".accs" => some (set "accs" (nums 1))
  | ".opclass" => some (set "opclass" (nums 1))
  | ".spill" =>
    match ops with
    | [b, t] => some (do let y ← set "stride" (a.numbers [t]); addr "spill" b y)
    | _ => some (.error 103)
  | ".reach" => some (set "reach" (count 1 (do let i ← codeOf ["die", "dev", "pod"] (ops.headD []); pure [i])))
  | ".place" => some (set "place" (do let v ← listBits 192 ops; pure [v]))
  | ".devices" => some (set "devices" (do let v ← listBits 128 ops; pure [v]))
  | ".start" => some (set "start" (nums 1))
  | ".args" => some (do let y ← set "args" (count 1 (.ok [])); addr "args" (ops.headD []) y)
  | ".event" =>
    match ops with
    | [e, op, v, sc] =>
      some (do
        let o ← codeOf ["store", "add"] op
        let i ← codeOf ["die", "dev", "pod", "sys"] sc
        let n ← numOperand a.env a.here (-(2 ^ 63)) (2 ^ 64 - 1) v
        let y ← set "evop" (.ok [o + 1])
        addr "event" e { y with nums := y.nums ++ [("evval", [Int.emod n (2 ^ 64)]), ("evscope", [i + 3])] })
    | _ => some (.error 103)
  | ".done" => some (do let y ← set "done" (count 1 (.ok [])); addr "done" (ops.headD []) y)
  | ".cbuf" =>
    some (do
      let v ← nums 3
      match v with
      | [n, slots, bytes] =>
        if n < 0 ∨ 15 < n ∨ slots < 1 ∨ 256 < slots ∨ bytes < 64 ∨ 65536 < bytes ∨ bytes % 64 ≠ 0 then .error 116
        else if x.cbufs.any (fun y => y.1 == n.toNat) then .error 110
        else pure { x with cbufs := x.cbufs ++ [(n.toNat, slots.toNat, bytes.toNat)] }
      | _ => .error 103)
  | ".swcache" => some (set "swcache" (do let v ← nums 2; if v.headD 0 < 0 ∨ 2048 < v.headD 0 ∨ (v.drop 1).headD 0 < 0 ∨ 512 < (v.drop 1).headD 0 then .error 116 else pure v))
  | ".stage" => some (set "stage" (do let v ← nums 1; if v.headD 0 < 0 ∨ 128 < v.headD 0 then .error 116 else pure v))
  | _ => none

/-- The directives that stand between .kernel and .endkernel only. -/
def kernelDirectives : List String :=
  [".space", ".team", ".width", ".probe", ".recut", ".order", ".scratch", ".barrier", ".resident", ".twin", ".tiles", ".accs", ".opclass", ".spill", ".reach",
    ".place", ".devices", ".start", ".args", ".event", ".done", ".cbuf", ".swcache", ".stage"]

/-! ## Sizing directives (R182) -/

/-- The registers that a sizing directive may name. -/
def sizeRegisters : List String := ["ex", "ey", "ez", "tn", "gcnt", "ss", "sx", "sy", "sz"]

/-- A number as tokens. -/
def litToks (n : Int) : List Token := if n < 0 then [.op "-", .num n.natAbs] else [.num n.toNat]

/-- The words of a sizing directive. -/
def Asm.sizing (a : Asm) (line : Nat) (d : String) (ops : List (List Token)) : Except Nat Asm :=
  match ops with
  | dst :: tmp :: reg :: rest => do
    let i ← regOperand 's' dst
    let j ← regOperand 's' tmp
    match reg with
    | [.op "%", .name r] => if sizeRegisters.contains (lower r) then pure () else throw 117
    | _ => throw 103
    if i = j then throw 117
    let a ← a.emit line "sr.rds" [dst, reg]
    -- a constant in the temporary, then an operation with it; a small constant stands in the word itself
    let useConst (a : Asm) (op : String) (n : Int) : Except Nat Asm :=
      if n ≤ 31 then a.emit line ("sii." ++ op) [dst, dst, litToks n]
      else do
        let a ← a.emit line "sli.lo" [tmp, litToks (n % 65536)]
        let a ← a.emit line "sli.hi" [tmp, litToks (n / 65536)]
        a.emit line ("si." ++ op) [dst, dst, tmp]
    match d, rest with
    | ".rsize", [x, y] => do
      let x ← numOperand a.env a.here 0 (2 ^ 32 - 1) x
      let y ← numOperand a.env a.here 0 (2 ^ 32 - 1) y
      let a ← useConst a "mul" y
      useConst a "add" x
    | ".rcdiv", [k] => do
      let k ← numOperand a.env a.here (-(2 ^ 63)) (2 ^ 64 - 1) k
      if k < 1 ∨ 65536 < k ∨ !powerOfTwo k.toNat then throw 117
      let a ← a.emit line "sli.lo" [tmp, litToks (k - 1)]
      let a ← a.emit line "si.add" [dst, dst, tmp]
      a.emit line "sii.shr" [dst, dst, litToks (Nat.log2 k.toNat)]
    | ".rlog2", [] => do
      let a ← a.emit line "sii.add" [tmp, dst, litToks (-1)]
      let a ← a.emit line "si.minu" [dst, dst, tmp]
      a.emit line "sc.blen" [dst, dst]
    | _, _ => .error 103
  | _ => .error 103

/-! ## Graph tables (R184) -/

/-- A keyword operand of a node: a list, a value, or a bare word. -/
def keyword (k : String) (ops : List (List Token)) : Option (List Token) :=
  ops.findSome? (fun ts => match ts with | .name s :: .op "=" :: r => if lower s == k then some r else none | _ => none)
/-- The successors of a list keyword. -/
def successorsOf (k : String) (ops : List (List Token)) : Option (List (List Token)) :=
  ops.findSome? (fun ts => match ts with | .name s :: .op "(" :: r => if lower s == k then some (splitCommas r.dropLast) else none | _ => none)

/-- .pricking opens a table. -/
def Asm.pricking (a : Asm) (line : Nat) (ops : List (List Token)) : Except Nat Asm :=
  match ops, a.cur, (a.part).map Part.kind with
  | [[.name s]], some k, some 6 =>
    let a := a.upd k (fun p => p.pad 64)
    let o := a.here.2
    .ok { a.define line s k o 5 0 with table := some (k, o) }
  | [[.name _]], _, _ => .error 110
  | _, _, _ => .error 103

/-- The keywords of each kind of node (R184); a list's ends in a parenthesis. -/
def nodeKeys : List (List String) :=
  [["a(", "rec"], ["a(", "b(", "addr", "cmp", "val", "size"], ["a(", "count", "body"], ["a(", "time"], ["a(", "rec", "extab", "exn", "minc"], ["ev", "val"]]

/-- .node emits one. -/
def Asm.node (a : Asm) (line : Nat) (label : Option String) (ops : List (List Token)) : Except Nat Asm :=
  match a.table, ops with
  | some (k, t), [.name kind] :: pred :: rest => do
    let n ← codeOf ["kernel", "cond", "loop", "waittime", "prefetch", "end"] [.name kind]
    let pred0 ← numOperand a.env a.here 1 65535 pred
    let keys := (nodeKeys.drop n.toNat).headD []
    let list (k : String) : Except Nat (List (List Token)) :=
      match successorsOf k rest with
      | some l => if 6 < l.length then .error 115 else .ok l
      | none => if keys.contains (k ++ "(") then .error 115 else .ok []
    let sa ← list "a"
    let sb ← list "b"
    if !rest.all (fun ts => match ts with
      | .name s :: .op "=" :: _ :: _ => keys.contains (lower s)
      | .name s :: .op "(" :: r => keys.contains (lower s ++ "(") && r.getLast? == some (.op ")")
      | [.name s] => s == "rel" && n == 3
      | _ => false) then throw 103
    let o := a.here.2
    let req (key : String) : Except Nat (List Token) := match keyword key rest with | some ts => .ok ts | none => .error 115
    let num (key : String) (lo hi : Int) : Except Nat Int := do let ts ← req key; numOperand a.env a.here lo hi ts
    let expr (key : String) (off n : Nat) : Except Nat Item := do let ts ← req key; let e ← exprOf ts; pure (.datum (o + off) line n e)
    let (fs, items) ←
      match n with
      | 0 => do let x ← expr "rec" 0x20 8; pure (([] : List (Nat × Nat × Int)), [x])
      | 1 => do
        let x ← expr "addr" 0x20 8
        let v ← expr "val" 0x28 8
        let ts ← req "cmp"
        let c ← codeOf ["eq", "ne", "ltn", "gen", "lti", "gei"] ts
        let z ← num "size" 4 8
        if z ≠ 4 ∧ z ≠ 8 then throw 105
        pure ([(0x30, 1, c), (0x31, 1, if z = 8 then 1 else 0)], [x, v])
      | 2 => do
        let x ← expr "count" 0x20 8
        let ts ← req "body"
        pure ([], [x, .node (o + 0x28) line (k, t) ts])
      | 3 => do
        let x ← expr "time" 0x20 8
        pure ([(0x01, 1, if rest.contains [.name "rel"] then 1 else 0)], [x])
      | 4 => do
        let x ← expr "rec" 0x20 8
        let y ← expr "extab" 0x28 8
        let e ← num "exn" 0 65535
        let m ← num "minc" 0 65535
        pure ([(0x30, 2, e), (0x32, 2, m)], [x, y])
      | _ => do
        let x ← expr "ev" 0x20 8
        let v ← expr "val" 0x28 8
        pure ([], [x, v])
    match putFields 64 ([(0, 1, n), (2, 2, pred0), (4, 2, pred0), (6, 1, sa.length + 16 * sb.length)] ++ fs) with
    | none => .error 105
    | some bs =>
      let refs := sa.zipIdx.map (fun (ts, i) => Item.node (o + 8 + 2 * i) line (k, t) ts) ++ sb.zipIdx.map (fun (ts, i) => Item.node (o + 0x14 + 2 * i) line (k, t) ts)
      let a := a.upd k (fun p => { p with size := o + 64, items := p.items ++ [.fill o bs] ++ refs ++ items })
      pure (match label with | some s => a.define line s k o 7 64 | none => a)
  | none, _ => .error 110
  | _, _ => .error 103

/-! ## Lines (R173, R186, R187) -/

/-- The size of a data directive. -/
def datumSize (d : String) : Option Nat := match d with | ".byte" => some 1 | ".half" => some 2 | ".word" => some 4 | ".dword" => some 8 | _ => none

/-- .byte, .half, .word and .dword (R178, R187); `label` names the first datum. -/
def Asm.data (a : Asm) (line n : Nat) (label : Option String) (ops : List (List Token)) : Except Nat Asm :=
  match a.cur, a.part with
  | some k, some p => do
    let es ← ops.mapM exprOf
    if es.isEmpty then throw 103
    if p.text then
      if n ≠ 4 then throw 113
      let a := match label with | some s => let a := a.newPacket; a.define line s k a.here.2 1 0 | none => a
      let places := (a.known.raws.filter (fun x => x.1 == line)).map Prod.snd
      pure (es.zipIdx.foldl (fun a (e, i) =>
        let c := match e.eval a.env (k, (places[i]?).getD a.here.2) with | .ok (.abs x) => decide (Int.emod x (2 ^ 32) ≥ 2 ^ 31) | _ => false
        a.word (.value line a.body a.census e c)) a)
    else if p.kind = 4 then .error 113
    else
      let a := a.upd k (fun p => p.pad n)
      let a := match label with | some s => a.define line s k a.here.2 6 0 | none => a
      pure (a.upd k (fun p => es.foldl (fun p e => p.push n (fun off => .datum off line n e)) p))
  | _, _ => .error 110

/-- A label that is no part of a datum's or a node's line. -/
def Asm.label (a : Asm) (line : Nat) (s : String) : Asm :=
  let a := a.newPacket
  match a.cur, a.part with
  | some k, some p => a.define line s k a.here.2 (if p.text then 1 else 6) 0
  | _, _ => a.error line 110

/-- A directive. -/
def Asm.directive (a : Asm) (line : Nat) (label : Option String) (d : String) (ops : List (List Token)) : Asm :=
  let inText := ((a.part).map Part.text).getD false
  let labelled (a : Asm) : Asm := match label with | some s => a.label line s | none => a
  match datumSize d with
  | some n => a.try_ line (a.data line n label ops)
  | none =>
    if d == ".node" then a.try_ line (a.node line label ops)
    else
      let a := labelled a
      if kernelDirectives.contains d then
        match a.kernel with
        | none => a.error line 110
        | some x => match a.kernelLine x line d ops with | some (.ok y) => { a with kernel := some y } | some (.error n) => a.error line n | none => a
      else
        match d with
        | ".section" => a.try_ line (a.section_ ops)
        | ".kernel" => a.try_ line (a.openKernel line ops)
        | ".endkernel" => (match (if ops.isEmpty then a.endKernel line else .error 103) with | .ok b => b | .error n => a.closeKernel.error line n)
        | ".func" => a.try_ line (a.func line ops)
        | ".pricking" => a.try_ line (a.pricking line ops)
        | ".rsize" | ".rcdiv" | ".rlog2" => a.try_ line (if inText then a.sizing line d ops else .error 110)
        | ".packet" => if inText then a.newPacket else a.error line 110
        | ".global" => match ops with | [[.name s]] => { a with globals := (s, line) :: a.globals } | _ => a.error line 103
        | ".extern" =>
          match ops with
          | [[.name s]] => if isRegister s || a.defs.any (fun x => x.name == s) then a.error line 114 else { a with externs := if a.externs.contains s then a.externs else a.externs ++ [s] }
          | _ => a.error line 103
        | ".census" => match ops with | [[.name s]] => if lower s == "on" then { a with census := true } else if lower s == "off" then { a with census := false } else a.error line 103 | _ => a.error line 103
        | ".align" =>
          match ops, a.cur with
          | [ts], some k =>
            a.try_ line (do
              let n ← numOperand a.env a.here (-(2 ^ 63)) (2 ^ 64 - 1) ts
              if inText then
                if [12, 24, 48, 96, 192].contains n then pure (a.newPacket.upd k (fun p => p.pad n.toNat)) else .error 113
              else if decide (0 < n) && powerOfTwo n.toNat && decide (n ≤ 4096) then pure (a.upd k (fun p => p.pad n.toNat)) else .error 113)
          | _, none => a.error line 110
          | _, _ => a.error line 103
        | ".zero" =>
          match ops, a.cur with
          | [ts], some k => a.try_ line (if inText then .error 113 else do let n ← numOperand a.env a.here 0 (2 ^ 40) ts; pure (a.upd k (fun p => { p with size := p.size + n.toNat })))
          | _, none => a.error line 110
          | _, _ => a.error line 103
        | _ => a.error line 101

/-- A line of source. -/
def Asm.line (a : Asm) (line : Nat) (src : String) : Asm :=
  match tokens src with
  | .error n => a.error line n
  | .ok ts =>
    let (label, ts) := match ts with | .name s :: .op ":" :: r => (some s, r) | _ => (none, ts)
    match ts with
    | [] => match label with | some s => a.label line s | none => a
    | .name d :: r =>
      if d.toList.head? == some '.' then a.directive line label (lower d) (splitCommas r)
      else
        let a := match label with | some s => a.label line s | none => a
        if ((a.part).map Part.text).getD false then a.try_ line (do let l ← lineOf ts; pure (a.wordLine line l)) else a.error line 110
    | _ =>
      let a := match label with | some s => a.label line s | none => a
      if ((a.part).map Part.text).getD false then a.try_ line (do let l ← lineOf ts; pure (a.wordLine line l)) else a.error line 110

/-- A first pass over a source, with what the pass before found; the last packet of each section of instructions is filled, as display
(11.1) shows. -/
def onePass (known : Found) (src : List String) : Asm :=
  let a := src.zipIdx.foldl (fun a (s, i) => a.line (i + 1) s) (Asm.start known)
  let a := (List.range a.parts.length).foldl (fun a k => (a.closeIn k).upd k (fun p => if p.text then p.pad 12 else p)) a
  match a.kernel with | some x => a.error x.line 110 | none => a

/-- What a pass finds. -/
def Asm.found (a : Asm) : Found :=
  ⟨a.defs, a.parts.flatMap (fun p => p.items.filterMap (fun i => match i with | .raw off line _ _ _ => some (line, off) | _ => none))⟩

/-- The first pass: symbols of lines to come are looked for in the pass before, until a pass finds what that one had found (R174). Where none does, the
places of the source have no exact value: the first line that stands elsewhere than before is in error (log 28). -/
def firstPass (src : List String) : Nat → Found → Asm
  | 0, known =>
    let a := onePass known src
    if a.found = known then a else a.error (((a.found.raws.find? (fun x => !known.raws.contains x)).map Prod.fst).getD src.length) 105
  | n + 1, known =>
    let a := onePass known src
    if a.found = known then a else firstPass src n a.found

/-! ## The second pass -/

/-- Bytes, relocations and errors of one item of section k. -/
noncomputable def Asm.item (a : Asm) (k : Nat) (i : Item) : List (Nat × List Byte) × List Reloc × List (Nat × Nat) :=
  let amount (off : Nat) (e : Expr) : Except Nat Amount := e.eval a.env (k, off)
  let fail (line n : Nat) : List (Nat × List Byte) × List Reloc × List (Nat × Nat) := ([], [], [(line, n)])
  let dat (off line n : Nat) (e : Expr) : List (Nat × List Byte) × List Reloc × List (Nat × Nat) :=
    match amount off e with
    | .error x => fail line x
    | .ok (.abs x) => if -(2 ^ (8 * n - 1)) ≤ x ∧ x < 2 ^ (8 * n) then ([(off, intLe n x)], [], []) else fail line 105
    | .ok (.addr b x) => if n = 8 then ([], [⟨off, 1, some b, x⟩], []) else if n = 4 then ([], [⟨off, 2, some b, x⟩], []) else fail line 105
    | .ok _ => fail line 105
  match i with
  | .fill off bs => ([(off, bs)], [], [])
  | .datum off line n e => dat off line n e
  | .raw off line _ _ e => dat off line 4 e
  | .node off line (k', t) ts =>
    match exprOf ts with
    | .error x => fail line x
    | .ok e =>
      match amount off e with
      | .ok (.abs x) => if 0 ≤ x ∧ x < 4096 then ([(off, intLe 2 x)], [], []) else fail line 115
      | .ok (.addr (.symbol s) 0) =>
        match a.defs.find? (fun d => d.name == s) with
        | some d => if d.type = 7 ∧ d.sect = k' ∧ t ≤ d.off ∧ !a.defs.any (fun x => x.type == 5 && x.sect == k' && decide (t < x.off) && decide (x.off ≤ d.off)) then ([(off, intLe 2 (((d.off - t) / 64 : Nat) : Int))], [], []) else fail line 115
        | none => fail line 115
      | _ => fail line 115
  | .word off line unit _ l =>
    match l.word a.env (k, off) with
    | .error x => fail line x
    | .ok (w, r) =>
      let b := unit.bind (fun u => a.bodies[u]?)
      let beyond : Bool :=
        match decode w, b with
        | .ok i, some b =>
          i.uses.any (fun u =>
            match u.cls with
            | .v => decide (b.nv < u.reg + u.count)
            | .s => decide (b.ns < u.reg + u.count)
            | .t => (match b.nt with | some n => decide (n < u.reg + u.count) | none => false)
            | .a => (match b.nac with | some n => decide (n < u.reg + u.count) | none => false)
            | .p => false)
        | _, _ => false
      let demand : Bool :=
        match decode w with
        | .ok (.callp _ v n x _) =>
          decide (v.toNat + 1 < x.toNat) ||
            (match l.operands.getLast?.map exprOf with
             | some (.ok (.sym s)) => a.bodies.any (fun f => !f.kernel && f.name == s && !(f.nv == v.toNat + 1 && f.ns == n.toNat && f.na == x.toNat))
             | _ => false)
        | .ok (.call _ _ v _ x) => decide (v.toNat + 1 < x.toNat)
        | _ => false
      match wordError w with
      | some n => fail line n
      | none => if beyond then fail line 104 else if demand then fail line 112 else ([(off, bytesOfWord w)], r.toList, [])

/-- A word that is a census site (R164). -/
def siteWord (w : Word) : Bool :=
  let r := RawWord.ofWord w
  r.op == 0x2C || r.op == 0x2D || r.op == 0x2E || (r.op == 0x1B && decide ((Rrr.ofPay r.pay).f.toNat ≤ 1))

/-- The word that stands at an item of section k, with the kernel or function around it and whether census entries are on for it. -/
noncomputable def Asm.wordAt (a : Asm) (k : Nat) (i : Item) : Option (Nat × Word × Option Nat × Bool) :=
  match i with
  | .word off _ u c l => (l.word a.env (k, off)).toOption.map (fun x => (off, x.1, u, c))
  | .raw off _ u c e =>
    match e.eval a.env (k, off) with
    | .ok (.abs n) => some (off, BitVec.ofInt 32 n, u, c)
    | _ => none
  | _ => none

/-- The words of section k. -/
noncomputable def Asm.wordsOf (a : Asm) (k : Nat) : List (Nat × Word × Option Nat × Bool) :=
  ((a.parts[k]?).map (fun p => p.items.filterMap (a.wordAt k))).getD []

/-- The kernels a body counts for: itself, or the kernels that call the function directly (R185). -/
noncomputable def Asm.kernelsOf (a : Asm) (u : Nat) : List Nat :=
  match a.bodies[u]? with
  | none => []
  | some f =>
    if f.kernel then [u]
    else
      let callers := (a.wordsOf f.sect).filterMap (fun (off, w, c, _) =>
        match decode w with
        | .ok (.callp _ _ _ _ o) => if (off : Int) - off % 12 + 4 * o.toInt = f.start then c else none
        | _ => none)
      (List.range a.bodies.length).filter (fun c => callers.contains c && ((a.bodies[c]?).map Body.kernel).getD false)

/-- The .census section's pairs: kernel and site. -/
noncomputable def Asm.sites (a : Asm) : List (Nat × Nat × Nat) :=
  (List.range a.parts.length).flatMap (fun k => (a.wordsOf k).flatMap (fun (off, w, u, c) =>
    match u with
    | some u => if c && siteWord w then (a.kernelsOf u).map (fun x => (x, k, off)) else []
    | none => []))

/-- The bytes of code of a kernel or function: whole packets from its first word to its last (R183). -/
def Asm.codeLen (a : Asm) (u : Nat) : Nat :=
  match a.bodies[u]? with
  | none => 0
  | some b =>
    let last := ((a.parts[b.sect]?).map (fun p => p.items.foldl (fun n i =>
      match i with
      | .word off _ (some x) _ _ | .raw off _ (some x) _ _ => if x = u then max n (off + 4) else n
      | _ => n) b.start)).getD b.start
    (last - b.start + 11) / 12 * 12

/-- A section as it stands with what the assembler puts into it; another one of that name if the source has none. -/
def addSection (ss : List Section) (x : Section) : List Section :=
  if x.size = 0 then ss
  else
    match ss.findIdx? (fun s => s.name == x.name) with
    | none => ss ++ [x]
    | some i => ss.modify i (fun s =>
        { s with data := s.data ++ x.data, size := s.size + x.size, relocs := s.relocs ++ x.relocs.map (fun r => { r with offset := s.size + r.offset }) })

/-- The object of a first pass, or its errors (R425): the sections with their contents and relocations, .census and .frames, and the
symbols. -/
noncomputable def Asm.object (a : Asm) : Except (List (Nat × Nat)) Object :=
  let done := a.parts.zipIdx.map (fun (p, k) => (p, p.items.map (a.item k)))
  let late := done.flatMap (fun (_, rs) => rs.flatMap (fun r => r.2.2))
  let undefined := (a.globals.filter (fun s => !a.defs.any (fun d => d.name == s.1))).map (fun s => (s.2, 105))
  let errors := a.errors ++ late ++ undefined
  if !errors.isEmpty then .error errors
  else
    let sections := done.map (fun (p, rs) =>
      let data := if p.kind = 4 then [] else (rs.flatMap (fun r => r.1)).foldl (fun b (o, x) => patch b o x) (List.replicate p.size (0 : Byte))
      (⟨p.name, p.kind, p.flags, p.align, p.entsz, data, p.size, rs.flatMap (fun r => r.2.1)⟩ : Section))
    -- the tables of the file itself are made when it is written: one that the source selects and leaves empty is no section of its own
    let kept (s : Section) : Bool := decide (s.kind < 9) || s.size != 0
    let place (k : Nat) : Nat := ((sections.take k).filter kept).length
    let moved (r : Reloc) : Reloc := { r with base := r.base.map (fun b => match b with | .section_ k => .section_ (place k) | b => b) }
    let sections := (sections.filter kept).map (fun s => { s with relocs := s.relocs.map moved })
    let bodyBase (u : Nat) : Option Base := (a.bodies[u]?).map (fun b => Base.symbol b.name)
    let sites := a.sites
    let census : Section :=
      ⟨".census", 7, 0, 8, 16, List.replicate (16 * sites.length) 0, 16 * sites.length,
        sites.zipIdx.flatMap (fun ((c, k, off), i) => [⟨16 * i, 1, bodyBase c, 0⟩, ⟨16 * i + 8, 1, some (.section_ (place k)), off⟩])⟩
    let sections := addSection sections census
    let names := (strtab ((addSection sections ⟨".frames", 8, 0, 8, 32, [], 1, []⟩).map Section.name ++ [".reloc", ".symtab", ".strtab"] ++ a.defs.map Def.name)).2
    let frames : Section :=
      ⟨".frames", 8, 0, 8, 32,
        a.bodies.zipIdx.flatMap (fun (b, u) => natLe 8 0 ++ natLe 4 (a.codeLen u) ++ natLe 1 b.nv ++ natLe 1 b.ns ++ natLe 1 b.na ++ natLe 1 (if b.kernel then 0 else 1) ++
          natLe 4 (names b.name) ++ List.replicate 12 (0 : Byte)), 32 * a.bodies.length,
        (List.range a.bodies.length).map (fun u => ⟨32 * u, 1, bodyBase u, 0⟩)⟩
    let sizeOf (d : Def) : Nat := match a.bodies.findIdx? (fun b => b.name == d.name) with | some u => a.codeLen u | none => d.size
    .ok { sections := addSection sections frames
          symbols := a.defs.map (fun d => ⟨d.name, some (place d.sect), if a.globals.any (fun s => s.1 == d.name) then 1 else 0, d.type, d.off, sizeOf d⟩) ++
            a.externs.map (fun s => ⟨s, none, 2, 0, 0, 0⟩) }

/-- The text of an error (R426). -/
def errorText (n : Nat) : String :=
  match n with
  | 101 => "unknown mnemonic or value name" | 102 => "modifier not written" | 103 => "wrong operands" | 104 => "register out of range"
  | 105 => "value does not fit" | 106 => "guard on a long-format word" | 107 => "illegal chain" | 108 => "target out of reach"
  | 109 => "special register" | 110 => "directive or instruction out of place" | 111 => "launch record out of limits" | 112 => "demand differs"
  | 113 => "datum or alignment not allowed" | 114 => "symbol defined twice" | 115 => "node" | 116 => "scratch layout" | _ => "sizing directive"

/-- The lines of a report (R425): the file, the line, the number and a text. -/
def report (file : String) (errors : List (Nat × Nat)) : List String :=
  errors.map (fun (line, n) => file ++ ":" ++ toString line ++ ": " ++ toString n ++ " " ++ errorText n)

/-- A source assembled: its object, or its errors in the order of their lines. -/
noncomputable def assemble (src : List String) : Except (List (Nat × Nat)) Object :=
  match (firstPass src (src.foldl (fun n s => n + s.length + 1) 2) ⟨[], []⟩).object with
  | .ok o => .ok o
  | .error es => .error ((List.range (src.length + 1)).flatMap (fun n => es.filter (fun e => e.1 == n)))

end Sys2Proof.Onas
end

