-- ==== Sys2Proof/Tests/Slice0.lean ====
section
/-! SUPPORT. Sys2Proof/Tests/Slice0.lean: ill-formed terms, words written out from the spec's encodings, its worked values, one-step checks, and a
witness for the hypotheses of each statement. -/

namespace Sys2Proof.Tests

open Sys2Proof Sys2Proof.Machine

set_option Elab.async false

/-! ## Ill-formed terms, one for each check (R197, R202, R204, R210, R417) -/

/-- Why the decoder rejects a word. -/
noncomputable def rejected (w : Word) : Option Reject :=
  match decode w with
  | .ok _ => none
  | .error r => some r

/-- A pair that starts at an odd register, a predicate above p15, a tile above t7, an accumulator above a3 (R204). -/
theorem test_ill_formed_registers :
    (Instr.adMov .plain 5 2).reject = some (.oddPair 5) ∧ (Instr.vpNot .plain 16 0).reject = some (.badPredicate 16) ∧
    (Instr.tcfgRows .plain 8 0).reject = some (.badTile 8) ∧ (Instr.accZero .plain 4).reject = some (.badAccumulator 4) := by decide
/-- A block that would pass v31 or s31 (R417): a 64-bit load into v31, and cas on eight registers from v20. -/
theorem test_ill_formed_blocks :
    (Instr.ldImm .plain 31 0 0 3 0).reject = some (.blockOverflow 31 2) ∧ (Instr.atmCas false 24 0 7 3).reject = some (.blockOverflow 24 16) ∧
    (Instr.cpGat .plain 0 2 29).reject = some (.blockOverflow 29 4) := by decide
/-- Modifiers and immediates without a meaning (R417). -/
theorem test_ill_formed_modifiers :
    (Instr.retPop .plain 33).reject = some (.badImmediate "ret" 33) ∧ (Instr.atmAdd false 0 0 6 3).reject = some (.badModifier "atm" 6) ∧
    (Instr.atmAdd false 0 0 0 7).reject = some (.badModifier "atm" 7) ∧ (Instr.fenceRel .plain 7).reject = some (.badModifier "fence" 7) ∧
    (Instr.tld .plain 0 0 0 3 0).reject = some (.badModifier "tld" 3) ∧ (Instr.tstImm .plain 0 0 0 0 2).reject = some (.badModifier "tst" 2) ∧
    (Instr.lds .plain 0 0 5 0).reject = some (.unassignedF "lds" 5) := by decide
/-- Special registers: an unassigned code, a 64-bit register for sr.rdv, a read-only one for sr.wrs (R245). -/
theorem test_ill_formed_special :
    (Instr.srRds .plain 0 5).reject = some (.specialRegister 5) ∧ (Instr.srRdv .plain 0 0x30).reject = some (.specialRegister 0x30) ∧
    (Instr.srWrs .plain 0 0).reject = some (.specialRegister 0) := by decide
/-- A step that no word encodes is no well-formed instruction word. -/
theorem test_events_are_no_words : Instr.thermalTrip.wellFormed = false ∧ Instr.launchAccept.wellFormed = false := by decide +kernel
/-- The rejections of the decoder alone: too few bytes, the reserved major 0x34, a guard on jmp, X without a guard, F 6 of vc, and an
unnamed B of nop (the table of chapter 29). -/
theorem test_rejected_words :
    (match decodeBytes [0x10, 0xC4, 0x50] with | .error r => r == Reject.short 3 | .ok _ => false) = true ∧
    rejected 0x01A00000 = some (.reservedMajor 0x34) ∧ rejected 0x40180018 = some .guardOnLong ∧ rejected 0x0250C410 = some .strayX ∧
    rejected 0x00688236 = some (.unassignedF "vc" 6) ∧ rejected 0x44688236 = some (.unassignedF "vc" 6) ∧ rejected 0x00000010 = some (.unnamedField "ctl") ∧
    rejected 0x00300021 = some (.badImmediate "ret" 33) := by decide +kernel

/-! ## Words written out from the encodings of the spec -/

/-- The worked call site of chapter 12 and the waits of chapter 11: each decodes to its instruction, and the encoder gives it back. -/
theorem test_worked_call : ∀ r ∈ ([(0x44211648, .call ⟨false, some ⟨1, false⟩⟩ 4 11 2 2), (0x16292030, .callp false 11 2 2 48), (0x3E1FFFE8, .jmp false (-24)),
    (0x00087FF8, .wait .plain 0 15 15 15), (0x00097878, .wait .plain 2 15 0 15), (0x4C087FF8, .wait ⟨false, some ⟨3, false⟩⟩ 0 15 15 15),
    (0x4E087FF8, .wait ⟨false, some ⟨3, true⟩⟩ 0 15 15 15)] : List (Word × Instr)),
    (decode r.1).toOption = some r.2 ∧ encode r.2 = some r.1 := by decide +kernel
/-- The worked words of chapter 13: each decodes to its instruction, and the encoder gives it back. -/
theorem test_worked_control : ∀ r ∈ ([(0x00000000, .nop .plain), (0x00000001, .ctlExit .plain), (0x00000C02, .ctlJr .plain 6), (0x00080000, .wait .plain 0 0 0 0),
    (0x48100018, .brLane ⟨false, some ⟨2, false⟩⟩ 24), (0x00180018, .jmp false 24), (0x00300001, .retPop .plain 1),
    (0x00308041, .retUnwind .plain 2 1), (0x00380685, .barNwait .plain 3 5), (0x00420400, .voteBallot .plain 8 2),
    (0x0049C003, .grpSort .plain 7 3)] : List (Word × Instr)),
    (decode r.1).toOption = some r.2 ∧ encode r.2 = some r.1 := by decide +kernel
/-- The worked words of chapter 14: each decodes to its instruction, and the encoder gives it back. -/
theorem test_worked_integer : ∀ r ∈ ([(0x08903000, .sliLo false 4 0x3000), (0x08910000, .sliHi false 4 0), (0x0A900080, .sliLo false 5 0x80), (0x0A910000, .sliHi false 5 0),
    (0x0050C410, .viAdd .plain 3 2 1), (0x00594942, .viiShl .plain 5 4 2), (0x00608492, .vmAdds .plain 2 2 9),
    (0x00688232, .vcLt .plain 2 1 3), (0x00710A30, .vpSel .plain 4 5 3), (0x44798A70, .vxIdx ⟨false, some ⟨1, false⟩⟩ 6 5 7),
    (0x00818C70, .siAdd .plain 6 6 7), (0x00898C3F, .siiAdd .plain 6 6 (-1)), (0x00984432, .scLt .plain 1 2 3),
    (0x00A04000, .srRdv .plain 1 0), (0x00A0900C, .srRds .plain 2 0xC), (0x00A06038, .srWrs .plain 1 0x38),
    (0x00A90823, .adAddz .plain 4 4 2), (0x00E00000, .shpSq .plain 0), (0x00E0C203, .shpRdx .plain 3 1)] : List (Word × Instr)),
    (decode r.1).toOption = some r.2 ∧ encode r.2 = some r.1 := by decide +kernel
/-- The worked words of chapter 15: each decodes to its instruction, and the encoder gives it back. -/
theorem test_worked_float : ∀ r ∈ ([(0x00B0C650, .vf32Add .plain 3 3 5), (0x00B10223, .vf32Fma .plain 4 1 2), (0x00B98E8B, .vf16Bfma .plain 6 7 8),
    (0x00C08010, .vfxDiv .plain 2 0 1), (0x48C0C601, .vfxSqrt ⟨false, some ⟨2, false⟩⟩ 3 3), (0x00C84200, .vcvF32i .plain 1 1),
    (0x00CA4434, .vcvPkh .plain 9 2 3), (0x00D04432, .vfcLt .plain 1 2 3), (0x00DA8810, .vqQ16 .plain 10 4 1),
    (0x00DAD402, .vqPk4 .plain 11 10)] : List (Word × Instr)),
    (decode r.1).toOption = some r.2 ∧ encode r.2 = some r.1 := by decide +kernel
/-- The worked words of chapter 16: each decodes to its instruction, and the encoder gives it back. -/
theorem test_worked_memory : ∀ r ∈ ([(0x00E88818, .ld .plain 2 2 1 2 0), (0x00E80A0B, .ldImm .plain 0 2 0 2 3), (0x00F0CE1B, .stImm .plain 3 3 1 2 3),
    (0x44F14460, .st ⟨false, some ⟨1, false⟩⟩ 5 1 6 0 0), (0x00FA082C, .ldu .plain 8 2 2 3 0), (0x09080030, .atmAdd false 4 0 0 3),
    (0x1108BBB0, .atmCas false 8 2 3 11), (0x01100004, .fenceRel .plain 4), (0x01102006, .fenceFull .plain 6),
    (0x01103001, .fenceOprAcq .plain), (0x0118C481, .lds .plain 3 2 2 1), (0x0120C4BF, .sts .plain 3 2 2 (-1)),
    (0x01298400, .stagLook .plain 6 2), (0x0130C082, .cbWait .plain 3 2), (0x013A0820, .cpG2s .plain 8 4 2),
    (0x0140444B, .wta .plain 1 2 4 1 0 3)] : List (Word × Instr)),
    (decode r.1).toOption = some r.2 ∧ encode r.2 = some r.1 := by decide +kernel
/-- The worked words of chapter 17: each decodes to its instruction, and the encoder gives it back. -/
theorem test_worked_matrix : ∀ r ∈ ([(0x01488800, .tcfgSet .plain 2 4), (0x01488C01, .tcfgRows .plain 2 6), (0x01501020, .tld .plain 0 4 2 0 0),
    (0x01505600, .tldImm .plain 1 5 0 0 0), (0x01509A04, .tldImm .plain 2 6 0 1 0), (0x01595E01, .tstImm .plain 5 7 0 0 1),
    (0x0160001A, .mmaSet .plain 0 0 1 2), (0x01604642, .mmaAcc .plain 1 3 4 2), (0x01680030, .mxHad .plain 0 0 3),
    (0x01710021, .accRd .plain 4 0 2), (0x01714074, .accNar .plain 5 0 7), (0x0170C265, .accQ2 .plain 3 1 6)] : List (Word × Instr)),
    (decode r.1).toOption = some r.2 ∧ encode r.2 = some r.1 := by decide +kernel
/-- The worked words of chapter 18: each decodes to its instruction, and the encoder gives it back. -/
theorem test_worked_system : ∀ r ∈ ([(0x01788800, .lnchRec .plain 2 4), (0x4D788800, .lnchRec ⟨false, some ⟨3, false⟩⟩ 2 4), (0x01780C01, .lnchTrig .plain 6),
    (0x01780602, .lnchCncl .plain 3), (0x01804000, .pwrReq .plain 1), (0x01809000, .pwrCls .plain 2), (0x01880800, .tmWtill .plain 4),
    (0x01880601, .tmWrel .plain 3), (0x018A0002, .tmRd .plain 8), (0x01900000, .dbgBrk .plain), (0x01915003, .dbgProg .plain 5 3),
    (0x019A8400, .sysRdid .plain 10 2), (0x01980001, .sysTret .plain), (0x01980002, .sysCinv .plain), (0x01980803, .sysTvt .plain 4)] : List (Word × Instr)),
    (decode r.1).toOption = some r.2 ∧ encode r.2 = some r.1 := by decide +kernel

/-! ## One word of each instruction, from the encoding tables of chapter 12 and the form tables -/

theorem test_decode_ctl : ∀ r ∈ ([(0x00000000, .nop ⟨false, none⟩),
    (0x66000001, .ctlExit ⟨false, some ⟨9, true⟩⟩),
    (0xD8000802, .ctlJr ⟨true, some ⟨6, false⟩⟩ 4),
    (0x00008003, .ctlPc ⟨false, none⟩ 2)] : List (Word × Instr)),
    (decode r.1).toOption = some r.2 := by decide +kernel

theorem test_decode_wait : ∀ r ∈ ([(0x660F0B98, .wait ⟨false, some ⟨9, true⟩⟩ 0xe 1 7 3)] : List (Word × Instr)),
    (decode r.1).toOption = some r.2 := by decide +kernel

theorem test_decode_br : ∀ r ∈ ([(0xD811FFF7, .brLane ⟨true, some ⟨6, false⟩⟩ 0x1fff7),
    (0x0013FFF7, .brAll ⟨false, none⟩ 0x1fff7),
    (0x6615FFF7, .brAny ⟨false, some ⟨9, true⟩⟩ 0x1fff7)] : List (Word × Instr)),
    (decode r.1).toOption = some r.2 := by decide +kernel

theorem test_decode_jmp : ∀ r ∈ ([(0xAA1BCDEF, .jmp true 0xabcdef)] : List (Word × Instr)),
    (decode r.1).toOption = some r.2 := by decide +kernel

theorem test_decode_call : ∀ r ∈ ([(0x00211674, .call ⟨false, none⟩ 4 0xb 3 5)] : List (Word × Instr)),
    (decode r.1).toOption = some r.2 := by decide +kernel

theorem test_decode_callp : ∀ r ∈ ([(0x9629DF0F, .callp true 0xb 3 5 0xf0f)] : List (Word × Instr)),
    (decode r.1).toOption = some r.2 := by decide +kernel

theorem test_decode_ret : ∀ r ∈ ([(0xD8300005, .retPop ⟨true, some ⟨6, false⟩⟩ 5),
    (0x00308045, .retUnwind ⟨false, none⟩ 2 5),
    (0x66300885, .retUnwindr ⟨false, some ⟨9, true⟩⟩ 4 5)] : List (Word × Instr)),
    (decode r.1).toOption = some r.2 := by decide +kernel

theorem test_decode_bar : ∀ r ∈ ([(0xD8380000, .barTeam ⟨true, some ⟨6, false⟩⟩),
    (0x00380040, .barTwin ⟨false, none⟩),
    (0x66380883, .barNwait ⟨false, some ⟨9, true⟩⟩ 4 3),
    (0xD83808C3, .barNarrive ⟨true, some ⟨6, false⟩⟩ 4 3),
    (0x00380100, .barGrid ⟨false, none⟩)] : List (Word × Instr)),
    (decode r.1).toOption = some r.2 := by decide +kernel

theorem test_decode_vote : ∀ r ∈ ([(0x66408800, .voteBallot ⟨false, some ⟨9, true⟩⟩ 2 4),
    (0xD8408801, .voteAny ⟨true, some ⟨6, false⟩⟩ 2 4),
    (0x00408802, .voteAll ⟨false, none⟩ 2 4),
    (0x66408803, .votePopc ⟨false, some ⟨9, true⟩⟩ 2 4),
    (0xD8408804, .voteFirst ⟨true, some ⟨6, false⟩⟩ 2 4),
    (0x00408805, .votePeers ⟨false, none⟩ 2 4),
    (0x66408806, .voteRank ⟨false, some ⟨9, true⟩⟩ 2 4),
    (0xD8408007, .voteAct ⟨true, some ⟨6, false⟩⟩ 2)] : List (Word × Instr)),
    (decode r.1).toOption = some r.2 := by decide +kernel

theorem test_decode_grp : ∀ r ∈ ([(0x00488005, .grpSort ⟨false, none⟩ 2 5)] : List (Word × Instr)),
    (decode r.1).toOption = some r.2 := by decide +kernel

theorem test_decode_vi : ∀ r ∈ ([(0x66508860, .viAdd ⟨false, some ⟨9, true⟩⟩ 2 4 6),
    (0xD8508861, .viSub ⟨true, some ⟨6, false⟩⟩ 2 4 6),
    (0x00508862, .viMul ⟨false, none⟩ 2 4 6),
    (0x66508863, .viMulhs ⟨false, some ⟨9, true⟩⟩ 2 4 6),
    (0xD8508864, .viMulhu ⟨true, some ⟨6, false⟩⟩ 2 4 6),
    (0x00508865, .viAnd ⟨false, none⟩ 2 4 6),
    (0x66508866, .viOr ⟨false, some ⟨9, true⟩⟩ 2 4 6),
    (0xD8508867, .viXor ⟨true, some ⟨6, false⟩⟩ 2 4 6),
    (0x00508868, .viShl ⟨false, none⟩ 2 4 6),
    (0x66508869, .viShr ⟨false, some ⟨9, true⟩⟩ 2 4 6),
    (0xD850886A, .viSra ⟨true, some ⟨6, false⟩⟩ 2 4 6),
    (0x0050886B, .viMin ⟨false, none⟩ 2 4 6),
    (0x6650886C, .viMax ⟨false, some ⟨9, true⟩⟩ 2 4 6),
    (0xD850886D, .viMinu ⟨true, some ⟨6, false⟩⟩ 2 4 6),
    (0x0050886E, .viMaxu ⟨false, none⟩ 2 4 6),
    (0x6650886F, .viAndn ⟨false, some ⟨9, true⟩⟩ 2 4 6)] : List (Word × Instr)),
    (decode r.1).toOption = some r.2 := by decide +kernel

theorem test_decode_vii : ∀ r ∈ ([(0x00588805, .viiAdd ⟨false, none⟩ 2 4 5),
    (0x66588845, .viiMul ⟨false, some ⟨9, true⟩⟩ 2 4 5),
    (0xD8588885, .viiAnd ⟨true, some ⟨6, false⟩⟩ 2 4 5),
    (0x005888C5, .viiOr ⟨false, none⟩ 2 4 5),
    (0x66588905, .viiXor ⟨false, some ⟨9, true⟩⟩ 2 4 5),
    (0xD8588945, .viiShl ⟨true, some ⟨6, false⟩⟩ 2 4 5),
    (0x00588985, .viiShr ⟨false, none⟩ 2 4 5),
    (0x665889C5, .viiSra ⟨false, some ⟨9, true⟩⟩ 2 4 5)] : List (Word × Instr)),
    (decode r.1).toOption = some r.2 := by decide +kernel

theorem test_decode_vm : ∀ r ∈ ([(0x66608800, .vmNeg ⟨false, some ⟨9, true⟩⟩ 2 4),
    (0xD8608801, .vmAbs ⟨true, some ⟨6, false⟩⟩ 2 4),
    (0x00608862, .vmAdds ⟨false, none⟩ 2 4 6),
    (0x66608863, .vmAddu ⟨false, some ⟨9, true⟩⟩ 2 4 6),
    (0xD8608864, .vmSubs ⟨true, some ⟨6, false⟩⟩ 2 4 6),
    (0x00608865, .vmSubu ⟨false, none⟩ 2 4 6),
    (0x66608806, .vmMov ⟨false, some ⟨9, true⟩⟩ 2 4),
    (0xD8608807, .vmClz ⟨true, some ⟨6, false⟩⟩ 2 4),
    (0x00608808, .vmPopc ⟨false, none⟩ 2 4),
    (0x66608809, .vmBrev ⟨false, some ⟨9, true⟩⟩ 2 4),
    (0xD860880A, .vmSext8 ⟨true, some ⟨6, false⟩⟩ 2 4),
    (0x0060880B, .vmSext16 ⟨false, none⟩ 2 4),
    (0x6660880C, .vmSati8 ⟨false, some ⟨9, true⟩⟩ 2 4),
    (0xD860880D, .vmSati16 ⟨true, some ⟨6, false⟩⟩ 2 4),
    (0x0060880E, .vmSatn8 ⟨false, none⟩ 2 4),
    (0x6660880F, .vmSatn16 ⟨false, some ⟨9, true⟩⟩ 2 4)] : List (Word × Instr)),
    (decode r.1).toOption = some r.2 := by decide +kernel

theorem test_decode_vc : ∀ r ∈ ([(0xD8688860, .vcEq ⟨true, some ⟨6, false⟩⟩ 2 4 6),
    (0x00688861, .vcNe ⟨false, none⟩ 2 4 6),
    (0x66688862, .vcLt ⟨false, some ⟨9, true⟩⟩ 2 4 6),
    (0xD8688863, .vcLe ⟨true, some ⟨6, false⟩⟩ 2 4 6),
    (0x00688864, .vcLtu ⟨false, none⟩ 2 4 6),
    (0x66688865, .vcLeu ⟨false, some ⟨9, true⟩⟩ 2 4 6)] : List (Word × Instr)),
    (decode r.1).toOption = some r.2 := by decide +kernel

theorem test_decode_vp : ∀ r ∈ ([(0x00708860, .vpSel ⟨false, none⟩ 2 4 6),
    (0x66708861, .vpAnd ⟨false, some ⟨9, true⟩⟩ 2 4 6),
    (0xD8708862, .vpOr ⟨true, some ⟨6, false⟩⟩ 2 4 6),
    (0x00708863, .vpXor ⟨false, none⟩ 2 4 6),
    (0x66708864, .vpAndn ⟨false, some ⟨9, true⟩⟩ 2 4 6),
    (0xD8708805, .vpNot ⟨true, some ⟨6, false⟩⟩ 2 4),
    (0x00708806, .vpGet ⟨false, none⟩ 2 4),
    (0x66708807, .vpSet ⟨false, some ⟨9, true⟩⟩ 2 4),
    (0xD8708808, .vpMvu ⟨true, some ⟨6, false⟩⟩ 2 4)] : List (Word × Instr)),
    (decode r.1).toOption = some r.2 := by decide +kernel

theorem test_decode_vx : ∀ r ∈ ([(0x00788860, .vxIdx ⟨false, none⟩ 2 4 6),
    (0x66788861, .vxUp ⟨false, some ⟨9, true⟩⟩ 2 4 6),
    (0xD8788862, .vxDown ⟨true, some ⟨6, false⟩⟩ 2 4 6),
    (0x00788863, .vxXor ⟨false, none⟩ 2 4 6),
    (0x66788864, .vxBcast ⟨false, some ⟨9, true⟩⟩ 2 4 6)] : List (Word × Instr)),
    (decode r.1).toOption = some r.2 := by decide +kernel

theorem test_decode_si : ∀ r ∈ ([(0xD8808860, .siAdd ⟨true, some ⟨6, false⟩⟩ 2 4 6),
    (0x00808861, .siSub ⟨false, none⟩ 2 4 6),
    (0x66808862, .siMul ⟨false, some ⟨9, true⟩⟩ 2 4 6),
    (0xD8808863, .siMulhs ⟨true, some ⟨6, false⟩⟩ 2 4 6),
    (0x00808864, .siMulhu ⟨false, none⟩ 2 4 6),
    (0x66808865, .siAnd ⟨false, some ⟨9, true⟩⟩ 2 4 6),
    (0xD8808866, .siOr ⟨true, some ⟨6, false⟩⟩ 2 4 6),
    (0x00808867, .siXor ⟨false, none⟩ 2 4 6),
    (0x66808868, .siShl ⟨false, some ⟨9, true⟩⟩ 2 4 6),
    (0xD8808869, .siShr ⟨true, some ⟨6, false⟩⟩ 2 4 6),
    (0x0080886A, .siSra ⟨false, none⟩ 2 4 6),
    (0x6680886B, .siMin ⟨false, some ⟨9, true⟩⟩ 2 4 6),
    (0xD880886C, .siMax ⟨true, some ⟨6, false⟩⟩ 2 4 6),
    (0x0080886D, .siMinu ⟨false, none⟩ 2 4 6),
    (0x6680886E, .siMaxu ⟨false, some ⟨9, true⟩⟩ 2 4 6),
    (0xD880886F, .siAndn ⟨true, some ⟨6, false⟩⟩ 2 4 6)] : List (Word × Instr)),
    (decode r.1).toOption = some r.2 := by decide +kernel

theorem test_decode_sii : ∀ r ∈ ([(0xD8888805, .siiAdd ⟨true, some ⟨6, false⟩⟩ 2 4 5),
    (0x00888845, .siiMul ⟨false, none⟩ 2 4 5),
    (0x66888885, .siiAnd ⟨false, some ⟨9, true⟩⟩ 2 4 5),
    (0xD88888C5, .siiOr ⟨true, some ⟨6, false⟩⟩ 2 4 5),
    (0x00888905, .siiXor ⟨false, none⟩ 2 4 5),
    (0x66888945, .siiShl ⟨false, some ⟨9, true⟩⟩ 2 4 5),
    (0xD8888985, .siiShr ⟨true, some ⟨6, false⟩⟩ 2 4 5),
    (0x008889C5, .siiSra ⟨false, none⟩ 2 4 5)] : List (Word × Instr)),
    (decode r.1).toOption = some r.2 := by decide +kernel

theorem test_decode_sli : ∀ r ∈ ([(0x8490BEEF, .sliLo true 2 0xbeef),
    (0x8491BEEF, .sliHi true 2 0xbeef),
    (0x8492BEEF, .sliSx true 2 0xbeef),
    (0x8493BEEF, .sliVsx true 2 0xbeef)] : List (Word × Instr)),
    (decode r.1).toOption = some r.2 := by decide +kernel

theorem test_decode_sc : ∀ r ∈ ([(0xD8988860, .scEq ⟨true, some ⟨6, false⟩⟩ 2 4 6),
    (0x00988861, .scNe ⟨false, none⟩ 2 4 6),
    (0x66988862, .scLt ⟨false, some ⟨9, true⟩⟩ 2 4 6),
    (0xD8988863, .scLe ⟨true, some ⟨6, false⟩⟩ 2 4 6),
    (0x00988864, .scLtu ⟨false, none⟩ 2 4 6),
    (0x66988865, .scLeu ⟨false, some ⟨9, true⟩⟩ 2 4 6),
    (0xD8988806, .scBlen ⟨true, some ⟨6, false⟩⟩ 2 4),
    (0x00988868, .scSeq ⟨false, none⟩ 2 4 6),
    (0x66988869, .scSne ⟨false, some ⟨9, true⟩⟩ 2 4 6),
    (0xD898886A, .scSlt ⟨true, some ⟨6, false⟩⟩ 2 4 6),
    (0x0098886B, .scSle ⟨false, none⟩ 2 4 6),
    (0x6698886C, .scSltu ⟨false, some ⟨9, true⟩⟩ 2 4 6),
    (0xD898886D, .scSleu ⟨true, some ⟨6, false⟩⟩ 2 4 6)] : List (Word × Instr)),
    (decode r.1).toOption = some r.2 := by decide +kernel

theorem test_decode_sr : ∀ r ∈ ([(0x00A0800E, .srRdv ⟨false, none⟩ 2 0xe),
    (0x66A09018, .srRds ⟨false, some ⟨9, true⟩⟩ 2 0x18),
    (0xD8A0E039, .srWrs ⟨true, some ⟨6, false⟩⟩ 3 0x39),
    (0x00A0B031, .srRdp ⟨false, none⟩ 2 0x31)] : List (Word × Instr)),
    (decode r.1).toOption = some r.2 := by decide +kernel

theorem test_decode_ad : ∀ r ∈ ([(0x66A88860, .adAdd ⟨false, some ⟨9, true⟩⟩ 2 4 6),
    (0xD8A88861, .adSub ⟨true, some ⟨6, false⟩⟩ 2 4 6),
    (0x00A88862, .adAddx ⟨false, none⟩ 2 4 6),
    (0x66A88863, .adAddz ⟨false, some ⟨9, true⟩⟩ 2 4 6),
    (0xD8A88864, .adShl ⟨true, some ⟨6, false⟩⟩ 2 4 6),
    (0x00A88865, .adShr ⟨false, none⟩ 2 4 6),
    (0x66A88866, .adMulw ⟨false, some ⟨9, true⟩⟩ 2 4 6),
    (0xD8A88807, .adMov ⟨true, some ⟨6, false⟩⟩ 2 4),
    (0x00A88868, .adAnd ⟨false, none⟩ 2 4 6),
    (0x66A88869, .adMul ⟨false, some ⟨9, true⟩⟩ 2 4 6),
    (0xD8A8886A, .adEq ⟨true, some ⟨6, false⟩⟩ 2 4 6),
    (0x00A8886B, .adLtu ⟨false, none⟩ 2 4 6),
    (0x66A8886C, .adLt ⟨false, some ⟨9, true⟩⟩ 2 4 6)] : List (Word × Instr)),
    (decode r.1).toOption = some r.2 := by decide +kernel

theorem test_decode_vf32 : ∀ r ∈ ([(0x66B08860, .vf32Add ⟨false, some ⟨9, true⟩⟩ 2 4 6),
    (0xD8B08861, .vf32Sub ⟨true, some ⟨6, false⟩⟩ 2 4 6),
    (0x00B08862, .vf32Mul ⟨false, none⟩ 2 4 6),
    (0x66B08863, .vf32Fma ⟨false, some ⟨9, true⟩⟩ 2 4 6),
    (0xD8B08864, .vf32Fms ⟨true, some ⟨6, false⟩⟩ 2 4 6),
    (0x00B08865, .vf32Min ⟨false, none⟩ 2 4 6),
    (0x66B08866, .vf32Max ⟨false, some ⟨9, true⟩⟩ 2 4 6),
    (0xD8B08807, .vf32Abs ⟨true, some ⟨6, false⟩⟩ 2 4),
    (0x00B08808, .vf32Neg ⟨false, none⟩ 2 4),
    (0x66B08869, .vf32Cpsgn ⟨false, some ⟨9, true⟩⟩ 2 4 6),
    (0xD8B0880A, .vf32Rint ⟨true, some ⟨6, false⟩⟩ 2 4)] : List (Word × Instr)),
    (decode r.1).toOption = some r.2 := by decide +kernel

theorem test_decode_vf16 : ∀ r ∈ ([(0x00B88860, .vf16Add ⟨false, none⟩ 2 4 6),
    (0x66B88861, .vf16Sub ⟨false, some ⟨9, true⟩⟩ 2 4 6),
    (0xD8B88862, .vf16Mul ⟨true, some ⟨6, false⟩⟩ 2 4 6),
    (0x00B88863, .vf16Fma ⟨false, none⟩ 2 4 6),
    (0x66B88864, .vf16Min ⟨false, some ⟨9, true⟩⟩ 2 4 6),
    (0xD8B88865, .vf16Max ⟨true, some ⟨6, false⟩⟩ 2 4 6),
    (0x00B88806, .vf16Neg ⟨false, none⟩ 2 4),
    (0x66B88807, .vf16Abs ⟨false, some ⟨9, true⟩⟩ 2 4),
    (0xD8B88868, .vf16Badd ⟨true, some ⟨6, false⟩⟩ 2 4 6),
    (0x00B88869, .vf16Bsub ⟨false, none⟩ 2 4 6),
    (0x66B8886A, .vf16Bmul ⟨false, some ⟨9, true⟩⟩ 2 4 6),
    (0xD8B8886B, .vf16Bfma ⟨true, some ⟨6, false⟩⟩ 2 4 6),
    (0x00B8886C, .vf16Bmin ⟨false, none⟩ 2 4 6),
    (0x66B8886D, .vf16Bmax ⟨false, some ⟨9, true⟩⟩ 2 4 6),
    (0xD8B8880E, .vf16Bneg ⟨true, some ⟨6, false⟩⟩ 2 4),
    (0x00B8880F, .vf16Babs ⟨false, none⟩ 2 4)] : List (Word × Instr)),
    (decode r.1).toOption = some r.2 := by decide +kernel

theorem test_decode_vfx : ∀ r ∈ ([(0x66C08860, .vfxDiv ⟨false, some ⟨9, true⟩⟩ 2 4 6),
    (0xD8C08801, .vfxSqrt ⟨true, some ⟨6, false⟩⟩ 2 4),
    (0x00C08802, .vfxRcp ⟨false, none⟩ 2 4),
    (0x66C08803, .vfxRsq ⟨false, some ⟨9, true⟩⟩ 2 4),
    (0xD8C08804, .vfxExp2 ⟨true, some ⟨6, false⟩⟩ 2 4),
    (0x00C08805, .vfxLog2 ⟨false, none⟩ 2 4),
    (0x66C08806, .vfxSinpi ⟨false, some ⟨9, true⟩⟩ 2 4),
    (0xD8C08807, .vfxCospi ⟨true, some ⟨6, false⟩⟩ 2 4)] : List (Word × Instr)),
    (decode r.1).toOption = some r.2 := by decide +kernel

theorem test_decode_vcv : ∀ r ∈ ([(0x00C88800, .vcvF32i ⟨false, none⟩ 2 4),
    (0x66C88801, .vcvF32n ⟨false, some ⟨9, true⟩⟩ 2 4),
    (0xD8C88802, .vcvI32f ⟨true, some ⟨6, false⟩⟩ 2 4),
    (0x00C88803, .vcvN32f ⟨false, none⟩ 2 4),
    (0x66C88864, .vcvPkh ⟨false, some ⟨9, true⟩⟩ 2 4 6),
    (0xD8C88865, .vcvPkb ⟨true, some ⟨6, false⟩⟩ 2 4 6),
    (0x00C88806, .vcvUhl ⟨false, none⟩ 2 4),
    (0x66C88807, .vcvUhh ⟨false, some ⟨9, true⟩⟩ 2 4),
    (0xD8C88808, .vcvUbl ⟨true, some ⟨6, false⟩⟩ 2 4),
    (0x00C88809, .vcvUbh ⟨false, none⟩ 2 4),
    (0x66C8886A, .vcvIe4 ⟨false, some ⟨9, true⟩⟩ 2 4 6),
    (0xD8C8886B, .vcvIe5 ⟨true, some ⟨6, false⟩⟩ 2 4 6),
    (0x00C8886C, .vcvXe4 ⟨false, none⟩ 2 4 6),
    (0x66C8886D, .vcvXe5 ⟨false, some ⟨9, true⟩⟩ 2 4 6)] : List (Word × Instr)),
    (decode r.1).toOption = some r.2 := by decide +kernel

theorem test_decode_vfc : ∀ r ∈ ([(0xD8D08860, .vfcEq ⟨true, some ⟨6, false⟩⟩ 2 4 6),
    (0x00D08861, .vfcNe ⟨false, none⟩ 2 4 6),
    (0x66D08862, .vfcLt ⟨false, some ⟨9, true⟩⟩ 2 4 6),
    (0xD8D08863, .vfcLe ⟨true, some ⟨6, false⟩⟩ 2 4 6),
    (0x00D08864, .vfcUn ⟨false, none⟩ 2 4 6),
    (0x66D08805, .vfcClass ⟨false, some ⟨9, true⟩⟩ 2 4)] : List (Word × Instr)),
    (decode r.1).toOption = some r.2 := by decide +kernel

theorem test_decode_vq : ∀ r ∈ ([(0xD8D88860, .vqQ16 ⟨true, some ⟨6, false⟩⟩ 2 4 6),
    (0x00D88861, .vqQ32 ⟨false, none⟩ 2 4 6),
    (0x66D88802, .vqPk4 ⟨false, some ⟨9, true⟩⟩ 2 4),
    (0xD8D88863, .vqDq4 ⟨true, some ⟨6, false⟩⟩ 2 4 6),
    (0x00D88864, .vqQe16 ⟨false, none⟩ 2 4 6),
    (0x66D88865, .vqQe32 ⟨false, some ⟨9, true⟩⟩ 2 4 6),
    (0xD8D88806, .vqPk8 ⟨true, some ⟨6, false⟩⟩ 2 4),
    (0x00D88867, .vqDq8 ⟨false, none⟩ 2 4 6)] : List (Word × Instr)),
    (decode r.1).toOption = some r.2 := by decide +kernel

theorem test_decode_shp : ∀ r ∈ ([(0xD8E08000, .shpSq ⟨true, some ⟨6, false⟩⟩ 2),
    (0x00E08001, .shpExp ⟨false, none⟩ 2),
    (0x66E08802, .shpShape ⟨false, some ⟨9, true⟩⟩ 2 4),
    (0xD8E08803, .shpRdx ⟨true, some ⟨6, false⟩⟩ 2 4),
    (0x00E08804, .shpWrx ⟨false, none⟩ 2 4)] : List (Word × Instr)),
    (decode r.1).toOption = some r.2 := by decide +kernel

theorem test_decode_ld : ∀ r ∈ ([(0x66E8B495, .ld ⟨false, some ⟨9, true⟩⟩ 2 0xd 9 1 1),
    (0xD8E89255, .ldImm ⟨true, some ⟨6, false⟩⟩ 2 4 5 1 1)] : List (Word × Instr)),
    (decode r.1).toOption = some r.2 := by decide +kernel

theorem test_decode_st : ∀ r ∈ ([(0x00F0B495, .st ⟨false, none⟩ 2 0xd 9 1 1),
    (0x66F09255, .stImm ⟨false, some ⟨9, true⟩⟩ 2 4 5 1 1)] : List (Word × Instr)),
    (decode r.1).toOption = some r.2 := by decide +kernel

theorem test_decode_ldu : ∀ r ∈ ([(0xD8F8B495, .ldu ⟨true, some ⟨6, false⟩⟩ 2 0xd 9 1 1),
    (0x00F89255, .lduImm ⟨false, none⟩ 2 4 5 1 1)] : List (Word × Instr)),
    (decode r.1).toOption = some r.2 := by decide +kernel

theorem test_decode_stu : ∀ r ∈ ([(0x6700B495, .stu ⟨false, some ⟨9, true⟩⟩ 2 0xd 9 1 1),
    (0xD9009255, .stuImm ⟨true, some ⟨6, false⟩⟩ 2 4 5 1 1)] : List (Word × Instr)),
    (decode r.1).toOption = some r.2 := by decide +kernel

theorem test_decode_atm : ∀ r ∈ ([(0x850901B0, .atmAdd true 2 4 1 0xb),
    (0x850909B0, .atmMin true 2 4 1 0xb),
    (0x850911B0, .atmMax true 2 4 1 0xb),
    (0x850919B0, .atmAnd true 2 4 1 0xb),
    (0x850921B0, .atmOr true 2 4 1 0xb),
    (0x850929B0, .atmXor true 2 4 1 0xb),
    (0x850931B0, .atmExch true 2 4 1 0xb),
    (0x85093FB0, .atmCas true 2 4 7 0xb)] : List (Word × Instr)),
    (decode r.1).toOption = some r.2 := by decide +kernel

theorem test_decode_fence : ∀ r ∈ ([(0xD9100003, .fenceRel ⟨true, some ⟨6, false⟩⟩ 3),
    (0x01101003, .fenceAcq ⟨false, none⟩ 3),
    (0x67102003, .fenceFull ⟨false, some ⟨9, true⟩⟩ 3),
    (0xD9103000, .fenceOprRel ⟨true, some ⟨6, false⟩⟩),
    (0x01103001, .fenceOprAcq ⟨false, none⟩)] : List (Word × Instr)),
    (decode r.1).toOption = some r.2 := by decide +kernel

theorem test_decode_lds : ∀ r ∈ ([(0x67188885, .lds ⟨false, some ⟨9, true⟩⟩ 2 4 2 5)] : List (Word × Instr)),
    (decode r.1).toOption = some r.2 := by decide +kernel

theorem test_decode_sts : ∀ r ∈ ([(0xD9208885, .sts ⟨true, some ⟨6, false⟩⟩ 2 4 2 5)] : List (Word × Instr)),
    (decode r.1).toOption = some r.2 := by decide +kernel

theorem test_decode_stag : ∀ r ∈ ([(0x01288800, .stagLook ⟨false, none⟩ 2 4),
    (0x67288861, .stagSet ⟨false, some ⟨9, true⟩⟩ 2 4 6),
    (0xD9288002, .stagInv ⟨true, some ⟨6, false⟩⟩ 2),
    (0x01280003, .stagClr ⟨false, none⟩)] : List (Word × Instr)),
    (decode r.1).toOption = some r.2 := by decide +kernel

theorem test_decode_cb : ∀ r ∈ ([(0x67308003, .cbRes ⟨false, some ⟨9, true⟩⟩ 2 3),
    (0xD9300843, .cbCom ⟨true, some ⟨6, false⟩⟩ 4 3),
    (0x01308083, .cbWait ⟨false, none⟩ 2 3),
    (0x673000C3, .cbPop ⟨false, some ⟨9, true⟩⟩ 3),
    (0xD9308903, .cbSa ⟨true, some ⟨6, false⟩⟩ 2 4 3)] : List (Word × Instr)),
    (decode r.1).toOption = some r.2 := by decide +kernel

theorem test_decode_cp : ∀ r ∈ ([(0x01388860, .cpG2s ⟨false, none⟩ 2 4 6),
    (0x67388861, .cpS2g ⟨false, some ⟨9, true⟩⟩ 2 4 6),
    (0xD9388862, .cpS2s ⟨true, some ⟨6, false⟩⟩ 2 4 6),
    (0x01388863, .cpGat ⟨false, none⟩ 2 4 6),
    (0x67388864, .cpT2h ⟨false, some ⟨9, true⟩⟩ 2 4 6)] : List (Word × Instr)),
    (decode r.1).toOption = some r.2 := by decide +kernel

theorem test_decode_wta : ∀ r ∈ ([(0xD940886E, .wta ⟨true, some ⟨6, false⟩⟩ 2 4 6 1 1 2)] : List (Word × Instr)),
    (decode r.1).toOption = some r.2 := by decide +kernel

theorem test_decode_tcfg : ∀ r ∈ ([(0x01488800, .tcfgSet ⟨false, none⟩ 2 4),
    (0x67488801, .tcfgRows ⟨false, some ⟨9, true⟩⟩ 2 4),
    (0xD9488802, .tcfgCols ⟨true, some ⟨6, false⟩⟩ 2 4),
    (0x01488803, .tcfgKext ⟨false, none⟩ 2 4),
    (0x67488804, .tcfgStg ⟨false, some ⟨9, true⟩⟩ 2 4),
    (0xD9488805, .tcfgFl ⟨true, some ⟨6, false⟩⟩ 2 4)] : List (Word × Instr)),
    (decode r.1).toOption = some r.2 := by decide +kernel

theorem test_decode_tld : ∀ r ∈ ([(0x0150B495, .tld ⟨false, none⟩ 2 0xd 9 1 1),
    (0x67509255, .tldImm ⟨false, some ⟨9, true⟩⟩ 2 4 5 1 1)] : List (Word × Instr)),
    (decode r.1).toOption = some r.2 := by decide +kernel

theorem test_decode_tst : ∀ r ∈ ([(0xD958B495, .tst ⟨true, some ⟨6, false⟩⟩ 2 0xd 9 1 1),
    (0x01589255, .tstImm ⟨false, none⟩ 2 4 5 1 1)] : List (Word × Instr)),
    (decode r.1).toOption = some r.2 := by decide +kernel

theorem test_decode_mma : ∀ r ∈ ([(0x67608667, .mmaAcc ⟨false, some ⟨9, true⟩⟩ 2 3 6 7),
    (0xD960866F, .mmaSet ⟨true, some ⟨6, false⟩⟩ 2 3 6 7)] : List (Word × Instr)),
    (decode r.1).toOption = some r.2 := by decide +kernel

theorem test_decode_mx : ∀ r ∈ ([(0x01688660, .mxHad ⟨false, none⟩ 2 3 6),
    (0x67688661, .mxPerm ⟨false, some ⟨9, true⟩⟩ 2 3 6)] : List (Word × Instr)),
    (decode r.1).toOption = some r.2 := by decide +kernel

theorem test_decode_acc : ∀ r ∈ ([(0xD9708000, .accZero ⟨true, some ⟨6, false⟩⟩ 2),
    (0x01708661, .accRd ⟨false, none⟩ 2 3 6),
    (0x67708A62, .accWr ⟨false, some ⟨9, true⟩⟩ 2 5 6),
    (0xD9708A63, .accWid ⟨true, some ⟨6, false⟩⟩ 2 5 6),
    (0x01708664, .accNar ⟨false, none⟩ 2 3 6),
    (0x67708675, .accQ2 ⟨false, some ⟨9, true⟩⟩ 2 3 7),
    (0xD9708676, .accQe ⟨true, some ⟨6, false⟩⟩ 2 3 7)] : List (Word × Instr)),
    (decode r.1).toOption = some r.2 := by decide +kernel

theorem test_decode_lnch : ∀ r ∈ ([(0x01788800, .lnchRec ⟨false, none⟩ 2 4),
    (0x67780801, .lnchTrig ⟨false, some ⟨9, true⟩⟩ 4),
    (0xD9780802, .lnchCncl ⟨true, some ⟨6, false⟩⟩ 4)] : List (Word × Instr)),
    (decode r.1).toOption = some r.2 := by decide +kernel

theorem test_decode_pwr : ∀ r ∈ ([(0x01808000, .pwrReq ⟨false, none⟩ 2),
    (0x67809000, .pwrCls ⟨false, some ⟨9, true⟩⟩ 2),
    (0xD980A000, .pwrPool ⟨true, some ⟨6, false⟩⟩ 2)] : List (Word × Instr)),
    (decode r.1).toOption = some r.2 := by decide +kernel

theorem test_decode_tm : ∀ r ∈ ([(0x01880800, .tmWtill ⟨false, none⟩ 4),
    (0x67880801, .tmWrel ⟨false, some ⟨9, true⟩⟩ 4),
    (0xD9888002, .tmRd ⟨true, some ⟨6, false⟩⟩ 2)] : List (Word × Instr)),
    (decode r.1).toOption = some r.2 := by decide +kernel

theorem test_decode_dbg : ∀ r ∈ ([(0x01900000, .dbgBrk ⟨false, none⟩),
    (0x67909003, .dbgProg ⟨false, some ⟨9, true⟩⟩ 2 3)] : List (Word × Instr)),
    (decode r.1).toOption = some r.2 := by decide +kernel

theorem test_decode_sys : ∀ r ∈ ([(0xD9988800, .sysRdid ⟨true, some ⟨6, false⟩⟩ 2 4),
    (0x01980001, .sysTret ⟨false, none⟩),
    (0x67980002, .sysCinv ⟨false, some ⟨9, true⟩⟩),
    (0xD9980803, .sysTvt ⟨true, some ⟨6, false⟩⟩ 4)] : List (Word × Instr)),
    (decode r.1).toOption = some r.2 := by decide +kernel

/-! ## Worked values of the spec -/

/-- The conversions worked in chapter 5 (R89): result code and flags. -/
theorem test_conversions :
    cvtFloat .f32 .e4m3 .rne true 0x447A0000 = (0x7E, .of ||| .nx) ∧ cvtFloat .f32 .f16 .rne true 0x7F800000 = (0x7BFF, .of ||| .nx) ∧
    cvtFloat .f32 .e5m2 .rne true 0xFF800000 = (0xFB, .of ||| .nx) ∧ cvtFloat .f32 .e4m3 .rne true 0x7FC00000 = (0x7F, 0) ∧
    cvtFloat .f32 .bf16 .rne true 1 = (0, .uf ||| .nx) ∧ cvtOfInt 0x01000001 = (0x4B800000, .nx) := by decide +kernel
/-- The conversions to integers worked in chapter 5 (R89). -/
theorem test_conversions_to_integers :
    cvtInt .f32 .rne (-128) 127 0x7FC00000 = (0, .nv) ∧ cvtInt .f32 .rne (-128) 127 0xC06CCCCD = (-4, .nx) ∧ cvtInt .f32 .rne (-128) 127 0x43960000 = (127, .nv) ∧
    cvtInt .f32 .rne 0 (2 ^ 32 - 1) 0xBECCCCCD = (0, .nx) ∧ cvtInt .f32 .rd 0 (2 ^ 32 - 1) 0xBECCCCCD = (0, .nv) := by decide +kernel
/-- The block quantised in chapters 5 and 15 (R85): its header 0x4A7F, its codes, and one count, of UNF. -/
theorem test_quantised_block :
    (fun b : Block => (b.header, b.codes, b.nans.any id, b.sats.any id, b.unfs)) (quantQB ([0x3F000000, 0x3F800000, 0xBFC00000, 0x40000000, 0x40400000, 0x40200000, 0xC0800000, 0x40B00000, 0x00000000, 0x3E800000, 0x3FA00000, 0x40980000, 0xBF400000, 0x3F800000, 0x40C00000, 0xC0000000]) 0) =
    (0x4A7F, [1, 2, 11, 4, 5, 4, 14, 7, 0, 0, 2, 8, 10, 2, 7, 12], false, false, (List.range 16).map (· == 9)) := by decide +kernel

/-! ## One step of a placed word -/

/-- The state with a word at the program counter steps to a state in which its lanes have passed it. -/
noncomputable def stepped (w : Nat) : Option State :=
  match step (State.reset.withFetchWord 32 w) with
  | .next s => some s
  | _ => none
/-- What a step leaves of the placed group: the addresses of its lanes, s4 and v3 of its frame; none when the group is gone. -/
def sees (t : Option State) : Option (List Nat × Word × Tag) :=
  match t with
  | some s =>
    (match s.groups, (s.groups.getD 0 (newGroup 0 placedRecord placedBox 0 0 16 0 0 0)).frames with
     | [g], [f] => some (((List.range g.w).map (fun l => (g.lane l).pc.toNat)).eraseDups, f.s.getD 4 0, f.v.getD 3 (.u 0))
     | _, _ => none)
  | none => none

/-- sli.lo s4, 0x3000 (chapter 14) as the first word: s4 holds its immediate, and every lane is at the next word. -/
theorem test_step_sli : sees (stepped 0x08903000) = some ([0x10000084], 0x3000, .u 0) := by decide +kernel
/-- jmp by 24 words (chapter 13) as the first word. -/
theorem test_step_jmp : sees (stepped 0x00180018) = some ([0x100000E0], 0, .u 0) := by decide +kernel
/-- A word of the reserved major 0x34 as the first word with no trap vector table: the step takes ILLEGAL_WORD, and no lane has passed it. -/
theorem test_step_reserved : (stepped 0x01A00000).isSome = true ∧ sees (stepped 0x01A00000) ≠ some ([0x10000084], 0, .u 0) := by decide +kernel
/-- The table word of vi.add decodes as the table numbers its bits. -/
theorem test_table_word : decodeTableWord 32 0x0050C410 = some (.viAdd .plain 3 2 1) ∧ decodeTableWord 32 0x01A00000 = none := by decide +kernel

/-- An uncorrectable error in a group's own state (R377): one record is due, dropped as the ring is not in use (R346), and the grid is cancelled. -/
theorem test_bad_group_state :
    (match step { State.reset.withFetchWord 32 0 with groups := [{ newGroup 0 placedRecord placedBox 0 0 16 0 0 0 with badState := some false }] } with
     | .next s => some ((s.fn 0).fltlost, s.grids.map Grid.cancelled, s.groups.map Group.badState)
     | _ => none) = some (1, [some 0x11], [none]) := by decide +kernel

/-! ## Witnesses: concrete states and operands that meet the hypotheses of each statement -/

/-- A group of 16 lanes, 32 vector and 32 uniform registers, 8 tiles and 4 accumulators; lane 3 has p0 set. -/
def wg : Group :=
  let g := newGroup 0 placedRecord placedBox 0 0 16 0 0 0
  { g with lanes := g.lanes.modify 3 (fun x => { x with preds := 1 }) }
/-- The same with other words in its uniform registers. -/
def wu (s : List Word) : Group := { wg with frames := wg.frames.map (fun f => { f with s := s ++ List.replicate (32 - s.length) 0 }) }
/-- The same with other vector registers. -/
def wv (g : Group) (v : List Tag) : Group := { g with frames := g.frames.map (fun f => { f with v := v ++ List.replicate (32 - v.length) (.u 0) }) }
/-- The word at the placed address that lanes of a group execute. -/
def curOf (g : Group) (path : LaneSet) : Cur :=
  { since := g.nextId, ptime := 0, cyc := 0, tvt := 0, mid := false, late := false, core := 0, slot := 0, path := path, pc := placedPc, first := placedPc }
/-- A word placed at the program counter of the only path of the only group. -/
def sta (g : Group) : State := { State.reset.withFetchWord 32 0 with groups := [g], cur := some (curOf g 0xFFFF) }
/-- The plain case. -/
def stw : State := sta wg
/-- The context of a word with a head. -/
def cx (s : State) (h : Head) : Ctx :=
  (s.ctx? h).getD { s0 := s, s := s, g := newGroup 0 placedRecord placedBox 0 0 16 0 0 0, core := 0, slot := 0, path := 0, act := 0, pc := 0, first := 0, since := 0, ptime := 0, cyc := 0, now := 0, mid := false }

def wfB (g : Group) : Bool :=
  decide (g.w ≤ 64) && g.lanes.length == g.w && decide (g.frames.map Frame.id).Nodup && g.frames.all (fun f => f.v.length == f.nv && f.s.length == f.ns) &&
    decide (g.sets.map GSet.id).Nodup && g.sets.all (fun x => x.words.length == g.w) &&
    g.frames.all (fun f => (List.range f.nv).all (fun r => (f.tag r).set?.toList.all (fun n => (g.sets.map GSet.id).contains n))) &&
    g.frames.all (fun f => g.frames.all (fun k => (List.range f.nv).all (fun r => (List.range k.nv).all (fun q => !(f.tag r == k.tag q && (f.tag r).set?.isSome) || r == q)))) &&
    decide ((g.tiles.map Prod.fst).Pairwise (· < ·)) && decide ((g.accs.map Prod.fst).Pairwise (· < ·))
def ownB (g : Group) : Bool :=
  (List.range g.w).all (fun l => !(g.lane l).run.live || (g.frames.any (fun f => f.id == (g.lane l).frame && f.owners.has l) && (g.stack l).all (fun f => f.owners.has l)))
theorem wf_of {g : Group} (h : wfB g = true) : g.Wf := by
  simp only [wfB, Bool.and_eq_true, decide_eq_true_eq, beq_iff_eq, List.all_eq_true, List.mem_range, Option.mem_toList, List.contains_iff_mem,
    Bool.or_eq_true, Bool.not_eq_true', Bool.and_eq_false_iff] at h
  obtain ⟨⟨⟨⟨⟨⟨⟨⟨⟨h1, h2⟩, h3⟩, h4⟩, h5⟩, h6⟩, h7⟩, h8⟩, h9⟩, h10⟩ := h
  refine ⟨h1, h2, h3, h4, h5, h6, ?_, ?_, h9, h10⟩
  · intro f hf r hr n hn; exact h7 f hf r (List.mem_range.1 hr) n (by simpa using hn)
  · intro f hf k hk r hr q hq e s
    rcases h8 f hf k hk r (List.mem_range.1 hr) q (List.mem_range.1 hq) with h | h
    · rcases h with h | h <;> simp_all
    · exact h
theorem owned_of {g : Group} (h : ownB g = true) : g.Owned := by
  simp only [ownB, List.all_eq_true, Bool.or_eq_true, Bool.not_eq_true', Bool.and_eq_true, List.any_eq_true, beq_iff_eq] at h
  intro l hl hv
  rcases h l hl with h | h
  · simp_all
  · exact ⟨by obtain ⟨⟨f, hf, e⟩, _⟩ := h; exact ⟨f, hf, e⟩, h.2⟩

/-- A word has its context. -/
theorem ctx_of {s : State} {h : Head} (e : (s.ctx? h).isSome = true) : s.ctx? h = some (cx s h) := by
  unfold cx; cases x : s.ctx? h with
  | none => simp [x] at e
  | some c => rfl
/-- A state lets words execute. -/
def baseB (s : State) (h : Head) : Bool :=
  let c := cx s h
  (s.ctx? h).isSome && !(c.act.list c.g.w).isEmpty && (c.act.list c.g.w).all (fun l => (c.g.lane l).run.live) && wfB c.g && ownB c.g
/-- Rows and quads are free to the word. -/
def freeB (c : Ctx) (rows quads : Nat) : Bool :=
  decide (rows ≤ c.s.freeRows c.core) && decide (quads ≤ c.s.freeQuads c.core) && ((c.s.core c.core).earlier c.slot c.pc c.act).isEmpty
theorem free_of {c : Ctx} {rows quads : Nat} (e : freeB c rows quads = true) : c.Free rows quads := by
  simp only [freeB, Bool.and_eq_true, decide_eq_true_eq, List.isEmpty_iff] at e
  exact ⟨e.1.1, e.1.2, fun _ => e.2⟩
/-- And this word. -/
def usesB (i : Instr) (h : Head) (cls : OrdClass) (n : Nat) (s : State) : Bool :=
  let c := cx s h
  (c.bounds i.uses).isEmpty && !i.uses.any (c.s.useBusy c.blockers c.act) && !(c.act.list c.g.w).any (fun l => c.g.held337 c.since l cls) &&
    (c.badSource i.uses).isEmpty && (n == 0 || freeB c (n * c.g.perReg * c.frames.length) 0)
theorem executes_on {i : Instr} {h : Head} {cls : OrdClass} {n : Nat} {s : State} (b : baseB s h = true) (e : usesB i h cls n s = true) :
    Executes i h cls n s (cx s h) := by
  simp only [baseB, usesB, Bool.and_eq_true, Bool.not_eq_true', List.isEmpty_iff, List.all_eq_true, List.isEmpty_eq_false_iff, Bool.or_eq_true] at b e
  obtain ⟨⟨⟨⟨b1, b2⟩, b3⟩, b4⟩, b5⟩ := b
  obtain ⟨⟨⟨⟨e1, e2⟩, e3⟩, e4⟩, e5⟩ := e
  exact ⟨ctx_of b1, ⟨b2, b3, e1, e2, e3, e4⟩, wf_of b4, owned_of b5, e5.imp eq_of_beq free_of⟩
theorem executes_of {i : Instr} {h : Head} {cls : OrdClass} {n : Nat} {s : State} (e : (baseB s h && usesB i h cls n s) = true) : Executes i h cls n s (cx s h) := by
  rw [Bool.and_eq_true] at e; exact executes_on e.1 e.2
/-- Several words execute. -/
theorem executes_all {α : Type} {L : List α} {i : α → Instr} {h : Head} {cls : OrdClass} {n : Nat} {s : State} (b : baseB s h = true)
    (e : L.all (fun x => usesB (i x) h cls n s) = true) : ∀ x ∈ L, Executes (i x) h cls n s (cx s h) :=
  fun x hx => executes_on b (List.all_eq_true.1 e x hx)

/-- Without a guard. -/
def ng : Head := ⟨false, none⟩
/-- A guard that leaves lane 3 out: ?!p0. -/
def gd : Head := ⟨false, some ⟨0, true⟩⟩
theorem base_gd : baseB stw gd = true := by decide +kernel
theorem witness_VectorIntegerAndMiscResults :
    (∀ r ∈ viRows, Executes (r.1 gd 31 0 1) gd .none 1 stw (cx stw gd)) ∧ (∀ r ∈ viiRows, Executes (r.1 gd 31 0 (-32)) gd .none 1 stw (cx stw gd)) ∧
    (∀ r ∈ viiShifts, Executes (r.1 gd 0 31 31) gd .none 1 stw (cx stw gd)) ∧ (∀ r ∈ vm2Rows, Executes (r.1 gd 31 0 1) gd .none 1 stw (cx stw gd)) ∧
    ∀ r ∈ vm1Rows, Executes (r.1 gd 31 0) gd .none 1 stw (cx stw gd) :=
  ⟨executes_all base_gd (by decide +kernel), executes_all base_gd (by decide +kernel), executes_all base_gd (by decide +kernel), executes_all base_gd (by decide +kernel),
   executes_all base_gd (by decide +kernel)⟩
theorem witness_UniformIntegerResults :
    (∀ r ∈ siRows, Executes (r.1 gd 31 0 1) gd .none 0 stw (cx stw gd)) ∧ (∀ r ∈ siiRows, Executes (r.1 gd 31 0 (-32)) gd .none 0 stw (cx stw gd)) ∧
    (∀ r ∈ siiShifts, Executes (r.1 gd 0 31 31) gd .none 0 stw (cx stw gd)) ∧ (∀ r ∈ scSetRows, Executes (r.1 gd 31 0 1) gd .none 0 stw (cx stw gd)) ∧
    Executes (.scBlen gd 31 0) gd .none 0 stw (cx stw gd) :=
  ⟨executes_all base_gd (by decide +kernel), executes_all base_gd (by decide +kernel), executes_all base_gd (by decide +kernel), executes_all base_gd (by decide +kernel),
   executes_on base_gd (by decide +kernel)⟩
theorem witness_PredicateResults :
    (∀ r ∈ vcRows, Executes (r.1 gd 15 0 1) gd .none 0 stw (cx stw gd)) ∧ (∀ r ∈ scRows, Executes (r.1 gd 15 0 1) gd .none 0 stw (cx stw gd)) ∧
    (∀ r ∈ vpRows, Executes (r.1 gd 15 0 1) gd .none 0 stw (cx stw gd)) ∧ Executes (.vpNot gd 15 0) gd .none 0 stw (cx stw gd) ∧
    Executes (.vpSet gd 15 31) gd .none 0 stw (cx stw gd) ∧ ∀ r ∈ adCmpRows, Executes (r.1 gd 15 0 30) gd .none 0 stw (cx stw gd) :=
  ⟨executes_all base_gd (by decide +kernel), executes_all base_gd (by decide +kernel), executes_all base_gd (by decide +kernel), executes_on base_gd (by decide +kernel),
   executes_on base_gd (by decide +kernel), executes_all base_gd (by decide +kernel)⟩
theorem witness_SelectAndExchangeResults :
    Executes (.vpSel gd 31 0 15) gd .none 1 stw (cx stw gd) ∧ Executes (.vpGet gd 31 15) gd .none 1 stw (cx stw gd) ∧
    Executes (.vpMvu gd 31 31) gd .none 1 stw (cx stw gd) ∧ Executes (.vxIdx gd 31 0 1) gd .none 1 stw (cx stw gd) ∧
    (∀ r ∈ vxRows, Executes (r.1 gd 31 0 1) gd .none 1 stw (cx stw gd)) ∧ Executes (.sliVsx true 31 (-32768)) ⟨true, none⟩ .none 1 stw (cx stw ⟨true, none⟩) :=
  ⟨executes_on base_gd (by decide +kernel), executes_on base_gd (by decide +kernel), executes_on base_gd (by decide +kernel), executes_on base_gd (by decide +kernel),
   executes_all base_gd (by decide +kernel), executes_of (by decide +kernel)⟩
theorem witness_UniformAndAddressResults :
    Executes (.sliLo false 31 65535) ⟨false, none⟩ .none 0 stw (cx stw ⟨false, none⟩) ∧ Executes (.sliHi false 31 65535) ⟨false, none⟩ .none 0 stw (cx stw ⟨false, none⟩) ∧
    Executes (.sliSx false 31 (-1)) ⟨false, none⟩ .none 0 stw (cx stw ⟨false, none⟩) ∧ (∀ r ∈ adPairRows, Executes (r.1 gd 30 0 2) gd .none 0 stw (cx stw gd)) ∧
    (∀ r ∈ adWordRows, Executes (r.1 gd 30 0 31) gd .none 0 stw (cx stw gd)) ∧ Executes (.adMulw gd 30 31 0) gd .none 0 stw (cx stw gd) ∧
    Executes (.adMov gd 30 0) gd .none 0 stw (cx stw gd) :=
  ⟨executes_of (by decide +kernel), executes_of (by decide +kernel), executes_of (by decide +kernel), executes_all base_gd (by decide +kernel),
   executes_all base_gd (by decide +kernel), executes_on base_gd (by decide +kernel), executes_on base_gd (by decide +kernel)⟩
theorem witness_SpecialRegisterResults :
    SReg.ofCode 0 = some .ix ∧ Executes (.srRdv gd 31 0) gd .none 1 stw (cx stw gd) ∧ Executes (.srRds gd 31 0) gd .none 0 stw (cx stw gd) ∧
    Executes (.srRdp gd 30 0) gd .none 0 stw (cx stw gd) ∧ Executes (.srWrs gd 31 0x038) gd .none 0 stw (cx stw gd) ∧
    Executes (.srWrs gd 31 0x039) gd .none 0 stw (cx stw gd) :=
  ⟨by decide, executes_on base_gd (by decide +kernel), executes_on base_gd (by decide +kernel), executes_on base_gd (by decide +kernel), executes_on base_gd (by decide +kernel),
   executes_on base_gd (by decide +kernel)⟩
theorem witness_ShapeResults :
    (Executes (.shpSq gd 31) gd .none 0 stw (cx stw gd) ∧ (cx stw gd).s.useBusy (cx stw gd).g (cx stw gd).act (.v 31 1) = false ∧
      (cx stw gd).s.useBusy (cx stw gd).g (cx stw gd).path (.v 31 1) = false) ∧
    (Executes (.shpExp gd 31) gd .none 0 stw (cx stw gd) ∧
      (cx stw gd).s.useBusy (cx stw gd).g (cx stw gd).act (.v 31 1) = false ∧ (cx stw gd).s.useBusy (cx stw gd).g (cx stw gd).path (.v 31 1) = false ∧
      (cx stw gd).Free (((cx stw gd).g.framesOf (cx stw gd).path).length * (cx stw gd).g.perReg) 0) ∧
    (stw.ctx? gd = some (cx stw gd) ∧ (cx stw gd).Ready [.sw 31 1] .none ∧ (cx stw gd).bounds [.sw 31 1, .v 0 1] = [] ∧ (cx stw gd).g.Wf ∧
      (cx stw gd).frames.any (fun x => (cx stw gd).g.scoreboarded .v x.1.id 0 1 x.2) = false) ∧
    (Executes (.shpRdx gd 31 0) gd .none 1 stw (cx stw gd) ∧ (cx stw gd).indexBusy 0 = false ∧
      ∀ l ∈ (cx stw gd).act.list (cx stw gd).g.w, ((cx stw gd).u 0 l).toNat < ((cx stw gd).g.frm l).nv) ∧
    (Executes (.shpWrx gd 0 31) gd .none 1 stw (cx stw gd) ∧ (cx stw gd).indexBusy 0 = false) :=
  ⟨⟨executes_on base_gd (by decide +kernel), by decide +kernel, by decide +kernel⟩, ⟨executes_on base_gd (by decide +kernel), by decide +kernel, by decide +kernel, free_of (by decide +kernel)⟩,
   ⟨ctx_of (by decide +kernel), ⟨by decide +kernel, by decide +kernel, by decide +kernel, by decide +kernel, by decide +kernel, by decide +kernel⟩, by decide +kernel,
    wf_of (by decide +kernel), by decide +kernel⟩, ⟨executes_on base_gd (by decide +kernel), by decide +kernel, by decide +kernel⟩, ⟨executes_on base_gd (by decide +kernel), by decide +kernel⟩⟩
theorem witness_FloatAndFloatCompareResults :
    (∀ r ∈ float2Rows, Executes (r.1 gd 31 0 1) gd .none 1 stw (cx stw gd)) ∧ (∀ r ∈ float3Rows, Executes (r.1 gd 31 0 1) gd .none 1 stw (cx stw gd)) ∧
    (∀ r ∈ float1Rows, Executes (r.1 gd 31 0) gd .none 1 stw (cx stw gd)) ∧ (∀ r ∈ floatURows, Executes (r.1 gd 31 0 1) gd .none 1 stw (cx stw gd)) ∧
    (∀ r ∈ floatByteRows, Executes (r.1 gd 31 0 1) gd .none 1 stw (cx stw gd)) ∧ ∀ r ∈ floatCmpRows, Executes (r.1 gd 15 0 1) gd .none 0 stw (cx stw gd) :=
  ⟨executes_all base_gd (by decide +kernel), executes_all base_gd (by decide +kernel), executes_all base_gd (by decide +kernel), executes_all base_gd (by decide +kernel),
   executes_all base_gd (by decide +kernel), executes_all base_gd (by decide +kernel)⟩
theorem witness_QuantisationResults :
    ((.vqQ16, 16, false) ∈ quantRows ∧ Executes (.vqQ16 gd 31 0 1) gd .none 1 stw (cx stw gd) ∧ (cx stw gd).blockBusy 0 ((cx stw gd).blockLanes 16) = false ∧ 16 ≤ (cx stw gd).g.w) ∧
    ((.vqQ32, 32, false) ∈ quantRows ∧ Executes (.vqQ32 gd 31 0 1) gd .none 1 stw (cx stw gd) ∧ (cx stw gd).g.w < 32) ∧
    ∀ r ∈ packRows, Executes (r.1 gd 31 0) gd .none 1 stw (cx stw gd) :=
  ⟨⟨by simp [quantRows], executes_on base_gd (by decide +kernel), by decide +kernel, by decide +kernel⟩, ⟨by simp [quantRows], executes_on base_gd (by decide +kernel), by decide +kernel⟩,
   executes_all base_gd (by decide +kernel)⟩
theorem witness_RoundingAndScalesAreCorrect :
    (∀ f ∈ Fmt.all, Dy.le ⟨1, 0⟩ (f.num f.maxCode) = true ∧ f.Finite 0 ∧ f.Finite f.maxCode) ∧
    (∃ c < 2 ^ (Fmt.f16.magBits + 1), (Fmt.f16.dec c).isNan = true) ∧ (∃ c < 2 ^ (Fmt.e5m2.magBits + 1), Fmt.e5m2.dec c = .inf true) ∧
    ((0 < 6 ∧ 0 < 1) ∧ (Q.scale 6 (Q.ofDy ⟨1, 127⟩)).lt ⟨1, 1⟩ = false) := by
  refine ⟨?_, ⟨0x7E00, by decide +kernel, by decide +kernel⟩, ⟨0xFC, by decide +kernel, by decide +kernel⟩, ⟨by decide, by decide⟩, by decide +kernel⟩
  intro f hf
  simp only [Fmt.all, List.mem_cons, List.not_mem_nil, or_false] at hf
  rcases hf with rfl | rfl | rfl | rfl | rfl <;>
    exact ⟨by decide +kernel, ⟨by decide +kernel, _, _, _, rfl⟩, ⟨by decide +kernel, _, _, _, rfl⟩⟩
theorem witness_WordContext : (∃ cu g, stw.cur = some cu ∧ stw.group? cu.core cu.slot = some g ∧ g.lanes.length = g.w ∧ g.w ≤ 64) ∧
    (let h : Head := ⟨false, some ⟨1, false⟩⟩
     ∀ i ∈ [(.wait h 0 0 0 0 : Instr), .ctlExit h, .lnchRec h 2 4], i.head = h ∧ (encode i).isSome = true ∧ stw.ctx? h = some (cx stw h) ∧ (cx stw h).act = 0) := by
  refine ⟨⟨_, _, rfl, rfl, by decide +kernel, by decide +kernel⟩, ?_⟩
  intro h i hi
  have e : (cx stw h).act = 0 := by decide +kernel
  simp only [List.mem_cons, List.not_mem_nil, or_false] at hi
  rcases hi with rfl | rfl | rfl <;> exact ⟨rfl, by decide +kernel, ctx_of (by decide +kernel), e⟩
/-- A group whose sixteen waiting lanes count accesses up to the limits of a wait. -/
def stn : State := sta { wg with ld := 15, st := 1, cp := 0, tl := 2 }
theorem witness_BranchResults :
    Executes (.nop gd) gd .none 0 stw (cx stw gd) ∧
    (Executes (.wait gd 15 1 15 2) gd .none 0 stn (cx stn gd) ∧ (cx stn gd).g.ld = 15 ∧ (cx stn gd).g.st ≤ 1 ∧ (cx stn gd).g.tl ≤ 2) ∧
    (Executes (.wait gd 0 0 0 0) gd .none 0 stw (cx stw gd) ∧ (cx stw gd).g.ld = 0 ∧ (cx stw gd).g.st = 0 ∧ (cx stw gd).g.cp = 0 ∧ (cx stw gd).g.tl = 0 ∧
      (cx stw gd).g.heldFault = none) ∧
    Executes (.brLane gd (-1)) gd .none 0 stw (cx stw gd) ∧ Executes (.brAll ng 1) ng .none 0 stw (cx stw ng) ∧ (cx stw ng).act = (cx stw ng).path ∧
    Executes (.brAll gd 1) gd .none 0 stw (cx stw gd) ∧ (cx stw gd).act ≠ (cx stw gd).path ∧ Executes (.brAny gd 1) gd .none 0 stw (cx stw gd) ∧
    Executes (.jmp false (-1)) ⟨false, none⟩ .none 0 stw (cx stw ⟨false, none⟩) ∧
    (Executes (.ctlJr gd 0) gd .none 0 (sta (wu [0x10000084])) (cx (sta (wu [0x10000084])) gd) ∧
      ∀ l ∈ (cx (sta (wu [0x10000084])) gd).act.list (cx (sta (wu [0x10000084])) gd).g.w, GoodTarget ((cx (sta (wu [0x10000084])) gd).up 0 l)) ∧
    Executes (.ctlPc gd 30) gd .none 0 stw (cx stw gd) :=
  ⟨executes_on base_gd (by decide +kernel), ⟨executes_of (by decide +kernel), by decide +kernel, by decide +kernel, by decide +kernel⟩,
   ⟨executes_on base_gd (by decide +kernel), by decide +kernel, by decide +kernel, by decide +kernel, by decide +kernel, by decide +kernel⟩,
   executes_on base_gd (by decide +kernel), executes_of (by decide +kernel), by decide +kernel, executes_on base_gd (by decide +kernel), by decide +kernel,
   executes_on base_gd (by decide +kernel), executes_of (by decide +kernel), ⟨executes_of (by decide +kernel), by unfold GoodTarget; decide +kernel⟩,
   executes_on base_gd (by decide +kernel)⟩
/-- A group that holds a fault of the matrix array. -/
def sth : State := sta { wg with heldFault := some { code := 0x0F, fpc := placedPc, faddr := 0, detail := 5, more := false } }
theorem witness_ExitAndExceptionFence :
    (Executes (.ctlExit gd) gd .none 0 stw (cx stw gd) ∧ (cx stw gd).g.ld = 0 ∧ (cx stw gd).g.st = 0 ∧ (cx stw gd).g.cp = 0 ∧ (cx stw gd).g.tl = 0 ∧
      (cx stw gd).g.heldFault = none ∧ (cx stw gd).retBusy Frame.depth 0 = false ∧ (cx stw gd).Free ((cx stw gd).frames.foldl (fun n x => n + if x.1.depth = 0 then 0
        else (cx stw gd).g.unwindNeed (lowest x.2 (cx stw gd).g.w) x.2 x.1.depth 0) 0) 0) ∧
    (Executes (.ctlExit gd) gd .none 0 sth (cx sth gd) ∧ Executes (.wait gd 0 0 0 0) gd .none 0 sth (cx sth gd) ∧ (cx sth gd).g.ld = 0 ∧ (cx sth gd).g.st = 0 ∧
      (cx sth gd).g.cp = 0 ∧ (cx sth gd).g.tl = 0 ∧ (cx sth gd).g.heldFault.isSome = true ∧
      (cx sth gd).retBusy Frame.depth 0 = false) ∧
    (Executes (.ctlExit gd) gd .none 0 stn (cx stn gd) ∧ (cx stn gd).g.ld ≠ 0) ∧
    Executes (.wait gd 14 1 0 2) gd .none 0 stn (cx stn gd) ∧ (14 : BitVec 4).toNat ≠ 15 ∧ (14 : BitVec 4).toNat < (cx stn gd).g.ld :=
  ⟨⟨executes_on base_gd (by decide +kernel), by decide +kernel, by decide +kernel, by decide +kernel, by decide +kernel, by decide +kernel, by decide +kernel,
    free_of (by decide +kernel)⟩,
   ⟨executes_of (by decide +kernel), executes_of (by decide +kernel), by decide +kernel, by decide +kernel, by decide +kernel, by decide +kernel, by decide +kernel,
    by decide +kernel⟩,
   ⟨executes_of (by decide +kernel), by decide +kernel⟩, executes_of (by decide +kernel), by decide, by decide +kernel⟩
/-- A called frame of lanes 0 to 7. -/
def fcall (na : Nat) (hd : Option Handler) : Frame :=
  { id := 1, owners := 0x00FF, depth := 1, rpc := placedPc + 4, caller := some 0, na := na, nv := 8, ns := 8, recSpilled := false, handler := hd,
    v := [.u 0x400, .a 1 2, .u 0, .u 0, .u 0, .u 0, .u 0x10000084, .u 0], s := [1, 1, 0, 0, 0, 0, 0, 0] }
/-- The group that has it. -/
def wcall (na : Nat) (hd : Option Handler) : Group :=
  { wg with
    lanes := wg.lanes.mapIdx (fun l x => if l < 8 then { x with fd := 1, frame := 1 } else x)
    frames := wg.frames ++ [fcall na hd] }
theorem witness_CallResults :
    (let s := sta (wu [0x10000084])
     Executes (.call gd 0 31 31 31) gd .none 0 s (cx s gd) ∧ (cx s gd).callBounds ((31 : BitVec 5).toNat + 1) 31 = [] ∧ (cx s gd).argsBusy 31 = false ∧
      (∀ l ∈ (cx s gd).act.list (cx s gd).g.w, ((cx s gd).g.lane l).fd < 255 ∧ GoodTarget ((cx s gd).up 0 l)) ∧ (cx s gd).frames.length ≤ (cx s gd).s.freeRows (cx s gd).core ∧
      (cx s gd).frames.length * (((31 : BitVec 5).toNat + 4) / 4) ≤ (cx s gd).s.freeQuads (cx s gd).core ∧ ∀ r ∈ ((cx s gd).s.core (cx s gd).core).requests, r.granted = true) ∧
    (let s := sta (wcall 1 none)
     Executes (.callp false 3 3 1 (-1)) ng .none 0 s (cx s ng) ∧ (cx s ng).callBounds ((3 : BitVec 5).toNat + 1) 1 = [] ∧ (cx s ng).argsBusy 1 = false ∧ (cx s ng).frames.length = 2 ∧
      (∀ l ∈ (cx s ng).act.list (cx s ng).g.w, ((cx s ng).g.lane l).fd < 255 ∧ ((cx s ng).g.frame? ((cx s ng).g.lane l).frame).isSome = true) ∧
      GoodTarget (packetOf (cx s ng).pc + BitVec.ofInt 64 (4 * (-1 : BitVec 19).toInt)) ∧ (cx s ng).frames.length ≤ (cx s ng).s.freeRows (cx s ng).core ∧
      (cx s ng).frames.length * (((3 : BitVec 5).toNat + 4) / 4) ≤ (cx s ng).s.freeQuads (cx s ng).core ∧ ∀ r ∈ ((cx s ng).s.core (cx s ng).core).requests, r.granted = true) :=
  ⟨⟨executes_of (by decide +kernel), by decide +kernel, by decide +kernel, by unfold GoodTarget; decide +kernel, by decide +kernel, by decide +kernel, by decide +kernel⟩,
   ⟨executes_of (by decide +kernel), by decide +kernel, by decide +kernel, by decide +kernel, by decide +kernel, by unfold GoodTarget; decide +kernel, by decide +kernel, by decide +kernel,
    by decide +kernel⟩⟩

/-- The lanes of the called frame alone execute. -/
def str : State := { sta (wcall 1 none) with cur := some (curOf (wcall 1 none) 0x00FF) }
theorem returns_of {c : Ctx} {k nb l : Nat} (e : (decide (0 < k) && decide (k ≤ (c.g.lane l).fd) && (match (c.g.popped l k).1.getLast?, (c.g.popped l k).2 with
    | some low, some below => decide (max nb low.na ≤ below.nv) | _, _ => false)) = true) : c.Returns k nb l := by
  simp only [Bool.and_eq_true, decide_eq_true_eq] at e
  refine ⟨e.1.1, e.1.2, ?_⟩
  split at e
  · rename_i low below h1 h2; exact ⟨low, below, h1, h2, by simpa using e.2⟩
  · simp at e
theorem all_returns {c : Ctx} {k : Nat → Nat} {nb : Nat} (e : (c.act.list c.g.w).all (fun l => decide (0 < k l) && decide (k l ≤ (c.g.lane l).fd) && (match (c.g.popped l (k l)).1.getLast?, (c.g.popped l (k l)).2 with
    | some low, some below => decide (max nb low.na ≤ below.nv) | _, _ => false)) = true) : ∀ l ∈ c.act.list c.g.w, c.Returns (k l) nb l :=
  fun l hl => returns_of (List.all_eq_true.1 e l hl)
theorem witness_ReturnResults :
    ∀ x ∈ [((.retPop gd 1 : Instr), (fun _ => 1 : Frame → Nat), true), (.retUnwind gd 1 2, fun _ => 1, false), (.retUnwindr gd 0 2, fun f => (f.U 0).toNat, false)],
      let nb := if x.2.2 then 1 else 2
      Executes x.1 gd .none 0 str (cx str gd) ∧ (cx str gd).countBounds x.2.2 nb = [] ∧ (cx str gd).retBusy x.2.1 nb = false ∧
      (∀ l ∈ (cx str gd).act.list (cx str gd).g.w, (cx str gd).Returns (x.2.1 ((cx str gd).g.frm l)) nb l) ∧
      (∀ l ∈ (cx str gd).act.list (cx str gd).g.w, (cx str gd).retFault x.2.1 nb x.2.2 l = none) ∧
      (cx str gd).Free ((cx str gd).frames.foldl (fun n y => n + (cx str gd).g.unwindNeed (lowest y.2 (cx str gd).g.w) y.2 (x.2.1 y.1) nb) 0) 0 ∧
      ∀ l ∈ (cx str gd).act.list (cx str gd).g.w, ∀ f ∈ ((cx str gd).g.popped l (x.2.1 ((cx str gd).g.frm l))).1, f.handler = none := by
  intro x hx
  simp only [List.mem_cons, List.not_mem_nil, or_false] at hx
  rcases hx with rfl | rfl | rfl <;>
    exact ⟨executes_of (by decide +kernel), by decide +kernel, by decide +kernel, all_returns (by decide +kernel), by decide +kernel, free_of (by decide +kernel), by decide +kernel⟩

/-- The grid of a launch without barriers, and of one whose teams are all resident. -/
def stl (barrier resident : Bool) : State :=
  { stw with grids := stw.grids.map (fun g => { g with record := { g.record with barrier := barrier, resident := resident } }) }
theorem witness_BarrierResultsAndTraps :
    (∀ x ∈ [((.barTeam gd : Instr), 0), (.barTwin gd, 1), (.barNwait gd 31 0, 2), (.barNwait gd 31 15, 17), (.barNarrive gd 31 15, 17)],
      Executes x.1 gd .sync 0 stw (cx stw gd) ∧ (cx stw gd).barFaults x.2 = []) ∧
    (Executes (.barGrid gd) gd .sync 0 (stl true true) (cx (stl true true) gd) ∧ (cx (stl true true) gd).barFaults 18 = []) ∧
    ∀ x ∈ [((.barTeam gd : Instr), 0), (.barTwin gd, 1), (.barNwait gd 31 15, 17), (.barNarrive gd 31 15, 17), (.barGrid gd, 18)],
      Executes x.1 gd .sync 0 (stl false false) (cx (stl false false) gd) ∧ ∃ gr, (stl false false).grid? (cx (stl false false) gd).g.grid = some gr ∧
        (if x.2 = 18 then gr.record.resident else gr.record.barrier) = false := by
  refine ⟨fun x hx => ⟨executes_all (L := [_, _, _, _, _]) base_gd (by decide +kernel) x hx, ?_⟩, ⟨executes_of (by decide +kernel), by decide +kernel⟩,
    fun x hx => ⟨executes_all (L := [_, _, _, _, _]) (by decide +kernel) (by decide +kernel) x hx, _, rfl, ?_⟩⟩
  · revert x hx; decide +kernel
  · revert x hx; decide +kernel
/-- Lanes 0 and 1 are held at barrier 0, with an arrival whose release has completed. -/
def wb : Group :=
  { wg with
    lanes := wg.lanes.mapIdx (fun l x => if l < 2 then { x with run := .held, phases := x.phases.set 0 1 } else x)
    arrivals := [{ bar := 0, lanes := 3, mark := 1, count := 0, waits := true }] }
theorem witness_BarrierArrivalResults :
    (let s := sta wb
     s.group? 0 0 = some wb ∧ wb.lanes.length = wb.w ∧
      wb.arrivals.find? (fun a => a.bar == 0 && !s.markPending a.mark) =
        some { bar := 0, lanes := 3, mark := 1, count := 0, waits := true }) ∧
    (stw.group? 0 0 = some wg ∧ ∀ a ∈ wg.arrivals, a.bar = 17 → stw.markPending a.mark = true) ∧
    (let s := sta { wb with arrivals := [], lanes := wb.lanes.map (fun x => if x.run = .held then { x with run := .barrier 0 1 } else x) }
     ∃ gr tm g, s.grid? 0 = some gr ∧ s.team? 0 0 = some tm ∧ 0 < tm.tp.length ∧ s.group? 0 0 = some g ∧ g.grid = 0 ∧ g.team = 0 ∧ g.lanes.length = g.w ∧ g.w ≤ 64 ∧
      (s.groups.map (fun x => (x.core, x.slot))).Nodup ∧ (g.lane 0).run = .barrier 0 (s.barTP 0 0 0 + 1) ∧ (g.lane 15).run = .running) :=
  ⟨⟨rfl, by decide +kernel, by decide +kernel⟩, ⟨rfl, by decide +kernel⟩,
   _, _, _, rfl, rfl, by decide +kernel, rfl, by decide +kernel, by decide +kernel, by decide +kernel, by decide +kernel, by decide +kernel, by decide +kernel, by decide +kernel⟩
theorem witness_VoteResults :
    (∀ i ∈ [(.voteBallot gd 30 0 : Instr), .voteAny gd 15 0, .voteAll gd 15 0, .votePopc gd 31 0, .voteFirst gd 31 15, .voteAct gd 30], Executes i gd .none 0 stw (cx stw gd)) ∧
    ∀ i ∈ [(.votePeers gd 31 0 : Instr), .voteRank gd 31 0], Executes i gd .none 1 stw (cx stw gd) :=
  ⟨executes_all (i := id) base_gd (by decide +kernel), executes_all (i := id) base_gd (by decide +kernel)⟩
/-- Two groups of a team of 18 threads wait at one grp.sort. -/
def wsort (slot gix : Nat) : Group :=
  let g := newGroup 0 placedRecord placedBox 0 0 18 0 slot gix
  { g with
    lanes := g.lanes.map (fun x => if x.run.live then { x with run := .regroup placedPc 1 2 } else x)
    sets := [{ id := 0, words := (List.range 16).map (fun l => BitVec.ofNat 32 (7 * l % 5)) }]
    frames := g.frames.map (fun f => { f with v := f.v.set 1 (.g 0) }) }
/-- Their machine. -/
def stsort : State := { stw with groups := [wsort 0 0, wsort 8 1] }
theorem witness_RegroupResults :
    (Executes (.grpSort gd 31 32) gd .sync 0 stw (cx stw gd) ∧ (cx stw gd).sortBounds 31 32 = [] ∧ (cx stw gd).sortFaults = [] ∧ (cx stw gd).g.ld = 0 ∧ (cx stw gd).g.st = 0 ∧
      (cx stw gd).g.cp = 0 ∧ (cx stw gd).g.tl = 0) ∧
    ((stsort.groups.map (fun x => (x.core, x.slot))).Nodup ∧ (∀ g ∈ stsort.groups, g.Wf ∧ g.Owned ∧ g.gix < 256) ∧
      (∀ g ∈ stsort.groups, ∀ k ∈ stsort.groups, g.grid = 0 → k.grid = 0 → g.team = 0 → k.team = 0 → g.gix = k.gix → g = k) ∧
      (∃ w, ∀ g ∈ stsort.groupsInTeam 0 0, g.w = w ∧ (∃ f ∈ g.frames, f.depth = 0 ∧ 1 < f.nv ∧ 2 ≤ f.nv ∧ ∀ l ∈ g.live.list g.w, (g.lane l).frame = f.id) ∧
        (g.frames.filter (fun f => f.depth == 0)).length = 1) ∧
      (∀ g ∈ stsort.groupsInTeam 0 0, (∀ f ∈ g.frames, Tag.spilled ∉ f.v) ∧ (stsort.core g.core).earlier g.slot placedPc g.live = []) ∧
      stsort.groupsInTeam 0 0 ≠ [] ∧
      (∀ g ∈ stsort.groupsInTeam 0 0, (∀ l ∈ g.live.list g.w, (g.lane l).run = .regroup placedPc 1 2) ∧ ∀ a ∈ g.arrivals, a.bar = 19 → stsort.markPending a.mark = false) ∧
      ∀ g ∈ stsort.groupsInTeam 0 0, (stsort.groupsInTeam 0 0).length * 2 * g.perReg ≤ stsort.freeRows g.core) := by
  refine ⟨⟨executes_on base_gd (by decide +kernel), by decide +kernel, by decide +kernel, by decide +kernel, by decide +kernel, by decide +kernel, by decide +kernel⟩,
    by decide +kernel, ?_, by decide +kernel, ⟨16, by decide +kernel⟩, by decide +kernel, by decide +kernel, by decide +kernel, by decide +kernel⟩
  intro g hg
  simp only [stsort, List.mem_cons, List.not_mem_nil, or_false] at hg
  rcases hg with rfl | rfl <;> exact ⟨wf_of (by decide +kernel), owned_of (by decide +kernel), by decide +kernel⟩
/-- A base address in s0 and s1, and scratch addresses in s2 and s3. -/
def stm : State := sta (wu [0x20000000, 0, 0x40000000, 0, 64, 0, 0, 0])
theorem base_m : baseB stm gd = true := by decide +kernel
theorem base_mn : baseB stm ⟨false, none⟩ = true := by decide +kernel
theorem witness_LoadAndStoreIssue :
    (∀ q ∈ [(0 : BitVec 2), 3], Executes (.ld gd 30 0 31 3 q) gd (if q = 0 then .load else .acquire) (blk64 3) stm (cx stm gd) ∧
      (cx stm gd).Aligned ((cx stm gd).memAddr 0 (fun l => ((cx stm gd).v 31 l).toNat)) 8 ∧
      (cx stm gd).memStall ((cx stm gd).loadAccess 30 3 q ((cx stm gd).memAddr 0 (fun l => ((cx stm gd).v 31 l).toNat)) (fun f => ((cx stm gd).g.readV f 31).isU)) = false) ∧
    (∀ q ∈ [(0 : BitVec 2), 3], Executes (.ldImm gd 30 0 (-16) 3 q) gd (if q = 0 then .load else .acquire) (blk64 3) stm (cx stm gd) ∧
      (cx stm gd).Aligned ((cx stm gd).memAddr 0 (fun _ => immOff (-16) 8)) 8 ∧
      (cx stm gd).memStall ((cx stm gd).loadAccess 30 3 q ((cx stm gd).memAddr 0 (fun _ => immOff (-16) 8)) (fun _ => true)) = false) ∧
    (∀ q ∈ [(0 : BitVec 2), 3], Executes (.st gd 30 0 31 3 q) gd (if q = 0 then .store else .release) 0 stm (cx stm gd) ∧
      (cx stm gd).memStall ((cx stm gd).storeAccess 30 3 q ((cx stm gd).memAddr 0 (fun l => ((cx stm gd).v 31 l).toNat))) = false) ∧
    (∀ q ∈ [(0 : BitVec 2), 3], Executes (.stImm gd 30 0 15 3 q) gd (if q = 0 then .store else .release) 0 stm (cx stm gd) ∧
      (cx stm gd).Aligned ((cx stm gd).memAddr 0 (fun _ => immOff 15 8)) 8 ∧
      (cx stm gd).memStall ((cx stm gd).storeAccess 30 3 q ((cx stm gd).memAddr 0 (fun _ => immOff 15 8))) = false) ∧
    (∀ q ∈ [(0 : BitVec 2), 3], Executes (.stu gd 30 0 4 3 q) gd (if q = 0 then .store else .release) 0 stm (cx stm gd) ∧
      Executes (.ldu gd 30 0 4 3 q) gd (if q = 0 then .load else .acquire) 0 stm (cx stm gd) ∧
      (∀ x ∈ (cx stm gd).frames, (BitVec.ofNat 64 ((x.1.UP (2 * (0 : BitVec 4).toNat)).toNat + (x.1.U 4).toNat)).toNat % 8 = 0) ∧
      (cx stm gd).memStall ((cx stm gd).uniStoreAccess 30 3 q (fun f => BitVec.ofNat 64 ((f.UP (2 * (0 : BitVec 4).toNat)).toNat + (f.U 4).toNat))) = false ∧
      (cx stm gd).memStall ((cx stm gd).uniLoadAccess 30 3 q (fun f => BitVec.ofNat 64 ((f.UP (2 * (0 : BitVec 4).toNat)).toNat + (f.U 4).toNat))) = false) ∧
    ∀ q ∈ [(0 : BitVec 2), 3], Executes (.stuImm gd 30 0 (-16) 3 q) gd (if q = 0 then .store else .release) 0 stm (cx stm gd) ∧
      Executes (.lduImm gd 30 0 (-16) 3 q) gd (if q = 0 then .load else .acquire) 0 stm (cx stm gd) ∧
      (cx stm gd).memStall ((cx stm gd).uniStoreAccess 30 3 q (fun f => BitVec.ofNat 64 ((f.UP (2 * (0 : BitVec 4).toNat)).toNat + immOff (-16) 8))) = false ∧
      (cx stm gd).memStall ((cx stm gd).uniLoadAccess 30 3 q (fun f => BitVec.ofNat 64 ((f.UP (2 * (0 : BitVec 4).toNat)).toNat + immOff (-16) 8))) = false := by
  refine ⟨?_, ?_, ?_, ?_, ?_, ?_⟩ <;> intro q hq <;> simp only [List.mem_cons, List.not_mem_nil, or_false] at hq <;> rcases hq with rfl | rfl
  · exact ⟨executes_on base_m (by decide +kernel), by unfold Ctx.Aligned; decide +kernel, by decide +kernel⟩
  · exact ⟨executes_on base_m (by decide +kernel), by unfold Ctx.Aligned; decide +kernel, by decide +kernel⟩
  · exact ⟨executes_on base_m (by decide +kernel), by unfold Ctx.Aligned; decide +kernel, by decide +kernel⟩
  · exact ⟨executes_on base_m (by decide +kernel), by unfold Ctx.Aligned; decide +kernel, by decide +kernel⟩
  · exact ⟨executes_on base_m (by decide +kernel), by decide +kernel⟩
  · exact ⟨executes_on base_m (by decide +kernel), by decide +kernel⟩
  · exact ⟨executes_on base_m (by decide +kernel), by unfold Ctx.Aligned; decide +kernel, by decide +kernel⟩
  · exact ⟨executes_on base_m (by decide +kernel), by unfold Ctx.Aligned; decide +kernel, by decide +kernel⟩
  · exact ⟨executes_on base_m (by decide +kernel), executes_on base_m (by decide +kernel), by decide +kernel, by decide +kernel, by decide +kernel⟩
  · exact ⟨executes_on base_m (by decide +kernel), executes_on base_m (by decide +kernel), by decide +kernel, by decide +kernel, by decide +kernel⟩
  · exact ⟨executes_on base_m (by decide +kernel), executes_on base_m (by decide +kernel), by decide +kernel, by decide +kernel⟩
  · exact ⟨executes_on base_m (by decide +kernel), executes_on base_m (by decide +kernel), by decide +kernel, by decide +kernel⟩
/-- Buffer 15: slot 0 reserved, slot 1 filled, slot 2 claimed. -/
def buf15 : CBuf :=
  { num := 15, base := 4096, slots := 4, size := 1024, pi := 3, ci := 1, ri := 2, free := 1, filled := 1, state := [1, 2, 3, 0], committing := [], popping := 0 }
/-- The grid's regions on core 0: buffer 15, four cache lines, one staging unit. -/
def reg0 : Region :=
  { grid := 0, base := 4096, size := 13312, bufs := [buf15], cacheBase := 8192, cachel := 4, stageBase := 12288, stage := 1, tags := [⟨false, 0, 0⟩, ⟨true, 0x10, 3⟩] }
/-- A machine whose team has a window of 256 bytes and whose grid has those regions. -/
def scr (g : Group) : State :=
  let s := sta g
  { s with teams := [{ placedTeam with ss := 256 }], cores := s.cores.set 0 { Core.reset with regions := [reg0] } }
/-- Addresses 16 bytes apart in v0 and v1, and in v2 addresses in the team's window. -/
def sta2 : State := scr (wv (wu [0x1000, 0]) [.a 0x1000 16, .u 0x40, .a 0 16])
theorem base_a : baseB sta2 ⟨false, none⟩ = true := by decide +kernel
theorem witness_AtomicIssue : ∀ r ∈ atmRows,
    (Executes (r.1 false 4 0 4 11) ⟨false, none⟩ .atomic (atmRegs 4) sta2 (cx sta2 ⟨false, none⟩) ∧
      (cx sta2 ng).Aligned (fun l => (cx sta2 ng).g.laneV 1 l ++ (cx sta2 ng).g.laneV 0 l) (4 * atmRegs 4) ∧
      (cx sta2 ng).memStall ((cx sta2 ng).atomicAccess 4 0 4 11 r.2) = false) ∧
    (Executes (r.1 false 4 2 0 14) ⟨false, none⟩ .atomic (atmRegs 0) sta2 (cx sta2 ⟨false, none⟩) ∧
      (cx sta2 ng).InScratch (fun l => (cx sta2 ng).g.laneV 2 l) 4 ∧ (∀ l ∈ (cx sta2 ng).act.list (cx sta2 ng).g.w, ((cx sta2 ng).g.laneV 2 l).toNat / 2 ^ 30 % 2 = 0) ∧
      (cx sta2 ng).memStall ((cx sta2 ng).atomicAccess 4 2 0 14 r.2) = false) := by
  intro r hr
  simp only [atmRows, List.mem_cons, List.not_mem_nil, or_false] at hr
  rcases hr with rfl | rfl | rfl | rfl | rfl | rfl | rfl | rfl <;>
    exact ⟨⟨executes_on base_a (by decide +kernel), by unfold Ctx.Aligned; decide +kernel, by decide +kernel⟩,
      ⟨executes_on base_a (by decide +kernel), by unfold Ctx.InScratch; decide +kernel, by decide +kernel, by decide +kernel⟩⟩
theorem base_ag : baseB sta2 gd = true := by decide +kernel
theorem witness_FenceResults :
    ∀ i ∈ [(.fenceRel gd 0 : Instr), .fenceRel gd 7, .fenceAcq gd 7, .fenceFull gd 0, .fenceFull gd 7, .fenceOprRel gd, .fenceOprAcq gd],
      Executes i gd .fence 0 stw (cx stw gd) := executes_all (i := id) base_gd (by decide +kernel)
theorem witness_ScratchWordIssue :
    (∀ f ∈ [(0 : BitVec 3), 4], Executes (.lds gd 28 2 f 0) gd .load (ldsRegs f) sta2 (cx sta2 gd) ∧
      (cx sta2 gd).InScratch (fun l => (cx sta2 gd).v 2 l + BitVec.ofInt 32 ((0 : BitVec 6).toInt * (2 ^ f.toNat : Nat))) (2 ^ f.toNat) ∧
      (cx sta2 gd).memStall ((cx sta2 gd).scratchLoadAccess 28 2 f 0) = false) ∧
    ∀ f ∈ [(0 : BitVec 3), 4], Executes (.sts gd 28 2 f 0) gd .store 0 sta2 (cx sta2 gd) ∧ (cx sta2 gd).memStall ((cx sta2 gd).scratchStoreAccess 28 2 f 0) = false := by
  refine ⟨?_, ?_⟩ <;> intro q hq <;> simp only [List.mem_cons, List.not_mem_nil, or_false] at hq <;> rcases hq with rfl | rfl
  · exact ⟨executes_on base_ag (by decide +kernel), by unfold Ctx.InScratch; decide +kernel, by decide +kernel⟩
  · exact ⟨executes_on base_ag (by decide +kernel), by unfold Ctx.InScratch; decide +kernel, by decide +kernel⟩
  · exact ⟨executes_on base_ag (by decide +kernel), by decide +kernel⟩
  · exact ⟨executes_on base_ag (by decide +kernel), by decide +kernel⟩
theorem witness_WaitAddressIssue :
    (∀ w ∈ [(1 : BitVec 2), 3], Executes (.wta gd 30 0 4 1 1 w) gd .acquire (blk64w 1) sta2 (cx sta2 gd) ∧
      (cx sta2 gd).Aligned (fun l => (cx sta2 gd).g.laneV 1 l ++ (cx sta2 gd).g.laneV 0 l) 8 ∧ (cx sta2 gd).memStall ((cx sta2 gd).waitAccess 30 0 4 1 1 w) = false) ∧
    (Executes (.wta gd 30 2 4 0 0 0) gd .load (blk64w 0) sta2 (cx sta2 gd) ∧ (cx sta2 gd).InScratch (fun l => (cx sta2 gd).g.laneV 2 l) 4 ∧
      (∀ l ∈ (cx sta2 gd).act.list (cx sta2 gd).g.w, ((cx sta2 gd).g.laneV 2 l).toNat / 2 ^ 30 = 0) ∧ (cx sta2 gd).memStall ((cx sta2 gd).waitAccess 30 2 4 0 0 0) = false) := by
  refine ⟨?_, ⟨executes_on base_ag (by decide +kernel), by unfold Ctx.InScratch; decide +kernel, by decide +kernel, by decide +kernel⟩⟩
  intro q hq; simp only [List.mem_cons, List.not_mem_nil, or_false] at hq; rcases hq with rfl | rfl <;>
    exact ⟨executes_on base_ag (by decide +kernel), by unfold Ctx.Aligned; decide +kernel, by decide +kernel⟩
theorem witness_TagTableAndCircularBufferResults_tags :
    Executes (.stagLook gd 31 0) gd .none 1 sta2 (cx sta2 gd) ∧
    ((cx sta2 gd).s.region? (cx sta2 gd).core (cx sta2 gd).g.grid = some reg0 ∧ (cx sta2 gd).core < (cx sta2 gd).s.cores.length ∧
      (Executes (.stagSet gd 31 0 30) gd .none 0 sta2 (cx sta2 gd) ∧ ((cx sta2 gd).u 30 (lowest (cx sta2 gd).act (cx sta2 gd).g.w)).toNat < reg0.cachel ∧
        ((cx sta2 gd).u 31 (lowest (cx sta2 gd).act (cx sta2 gd).g.w)).toNat < reg0.tags.length) ∧
      (Executes (.stagInv gd 0) gd .none 0 sta2 (cx sta2 gd) ∧ reg0.tags.length ≤ ((cx sta2 gd).u 0 (lowest (cx sta2 gd).act (cx sta2 gd).g.w)).toNat) ∧
      Executes (.stagClr gd) gd .none 0 sta2 (cx sta2 gd)) ∧
    (∀ x ∈ [(3 : Word), 4, 5], let s := scr (wu [1, x])
      Executes (.stagSet gd 0 0 1) gd .none 0 s (cx s gd) ∧ ((cx s gd).u 0 (lowest (cx s gd).act (cx s gd).g.w)).toNat < reg0.tags.length ∧
        (((cx s gd).u 1 (lowest (cx s gd).act (cx s gd).g.w)).toNat < reg0.cachel ↔ x = 3)) ∧
    (Executes (.stagSet gd 0 0 31) gd .none 0 stw (cx stw gd) ∧ Executes (.stagInv gd 0) gd .none 0 stw (cx stw gd) ∧ (cx stw gd).s.region? (cx stw gd).core (cx stw gd).g.grid = none) := by
  refine ⟨executes_on base_ag (by decide +kernel), ⟨by decide +kernel, by decide +kernel, ⟨executes_on base_ag (by decide +kernel), by decide +kernel, by decide +kernel⟩,
   ⟨executes_on base_ag (by decide +kernel), by decide +kernel⟩, executes_on base_ag (by decide +kernel)⟩, ?_, executes_on base_gd (by decide +kernel), executes_on base_gd (by decide +kernel), by decide +kernel⟩
  intro x hx
  simp only [List.mem_cons, List.not_mem_nil, or_false] at hx
  rcases hx with rfl | rfl | rfl <;> exact ⟨executes_of (by decide +kernel), by decide +kernel, by decide +kernel⟩
theorem witness_TagTableAndCircularBufferResults_buffers :
    (cx sta2 gd).buf? 15 = some buf15 ∧ 0 < buf15.free ∧ 0 < buf15.filled ∧ (cx sta2 gd).core < (cx sta2 gd).s.cores.length ∧
    Executes (.cbRes gd 31 15) gd .none 0 sta2 (cx sta2 gd) ∧ Executes (.cbWait gd 31 15) gd .acquire 0 sta2 (cx sta2 gd) ∧
    (Executes (.cbCom gd 31 15) gd .release 0 sta2 (cx sta2 gd) ∧ ((cx sta2 gd).u 31 (lowest (cx sta2 gd).act (cx sta2 gd).g.w)).toNat = 0 ∧ buf15.state.getD 0 0 = 1 ∧ 0 ∉ buf15.committing) ∧
    (Executes (.cbPop gd 15) gd .release 0 sta2 (cx sta2 gd) ∧ buf15.popping < buf15.slots ∧ buf15.state.getD ((buf15.ri + buf15.popping) % buf15.slots) 0 = 3) ∧
    ((cx sta2 gd).buf? 0 = none ∧ Executes (.cbRes gd 31 0) gd .none 0 sta2 (cx sta2 gd) ∧ Executes (.cbWait gd 31 0) gd .acquire 0 sta2 (cx sta2 gd) ∧
      Executes (.cbCom gd 31 0) gd .release 0 sta2 (cx sta2 gd) ∧ Executes (.cbPop gd 0) gd .release 0 sta2 (cx sta2 gd)) ∧
    (∀ m ∈ [(1 : Word), 2, 3, 4], let s := scr (wu [m])
      (Executes (.cbCom gd 0 15) gd .release 0 s (cx s gd) ∧ (cx s gd).buf? 15 = some buf15 ∧ ((cx s gd).u 0 (lowest (cx s gd).act (cx s gd).g.w)).toNat = m.toNat) ∧
        (buf15.slots ≤ m.toNat ∨ buf15.state.getD m.toNat 0 ≠ 1 ∨ m.toNat ∈ buf15.committing)) ∧
    (let b := { buf15 with popping := 1 }
     let s := { sta2 with cores := sta2.cores.set 0 { Core.reset with regions := [{ reg0 with bufs := [b] }] } }
     Executes (.cbPop gd 15) gd .release 0 s (cx s gd) ∧ (cx s gd).buf? 15 = some b ∧ b.state.getD ((b.ri + b.popping) % b.slots) 0 ≠ 3) ∧
    Executes (.cbSa gd 31 0 15) gd .none 0 sta2 (cx sta2 gd) := by
  refine ⟨by decide +kernel, by decide, by decide, by decide +kernel, executes_on base_ag (by decide +kernel), executes_on base_ag (by decide +kernel),
   ⟨executes_on base_ag (by decide +kernel), by decide +kernel, by decide, by decide⟩, ⟨executes_on base_ag (by decide +kernel), by decide, by decide⟩,
   ⟨by decide +kernel, executes_on base_ag (by decide +kernel), executes_on base_ag (by decide +kernel), executes_on base_ag (by decide +kernel), executes_on base_ag (by decide +kernel)⟩,
   ?_, ⟨executes_of (by decide +kernel), by decide +kernel, by decide⟩, executes_on base_ag (by decide +kernel)⟩
  intro m hm
  simp only [List.mem_cons, List.not_mem_nil, or_false] at hm
  rcases hm with rfl | rfl | rfl | rfl <;> exact ⟨⟨executes_of (by decide +kernel), by decide +kernel, by decide +kernel⟩, by decide⟩
/-- A copy whose destination is a slot of buffer 15, and the same copy counter full. -/
def stcp : State := scr { wu [0, 0, 0x4F000000, 0] with cp := 255 }
theorem witness_CopyIssue :
    (∀ r ∈ cpRows, Executes (r.1 gd 28 0 4) gd .copy 0 sta2 (cx sta2 gd)) ∧ (cx sta2 gd).s.copiesHeld (cx sta2 gd).core < 64 ∧ (cx sta2 gd).g.cp < 255 ∧
    (Executes (.cpG2s gd 2 0 4) gd .copy 0 stcp (cx stcp gd) ∧ (cx stcp gd).s.copiesHeld (cx stcp gd).core < 64 ∧ (cx stcp gd).g.cp = 255 ∧
      (((cx stcp gd).g.frm (lowest (cx stcp gd).act (cx stcp gd).g.w)).U 2).toNat / 2 ^ 30 = 1) :=
  ⟨executes_all base_ag (by decide +kernel), by decide +kernel, by decide +kernel, executes_of (by decide +kernel), by decide +kernel, by decide +kernel, by decide +kernel⟩
/-- A base address that no access of two bytes and more is aligned to. -/
def stod : State := scr (wv (wu [0x20000001, 0]) [.a 0xF0 16])
/-- Offsets of which every second is a multiple of four. -/
def stmx : State := scr (wv (wu [0x20000000, 0]) [.a 0 2])
theorem witness_AlignmentScopeAndConvergenceTraps :
    (let c := cx stmx gd
     let f := c.loadForm 30 2 0 (c.memAddr 0 (fun l => (c.v (0 : BitVec 5) l).toNat)) (fun f => (c.g.readV f (0 : BitVec 5).toNat).isU)
     c.HasForm gd (.ld gd 30 0 0 2 0) f ∧ Executes (.ld gd 30 0 0 2 0) gd f.cls f.sets stmx c ∧ (∃ l ∈ c.act.list c.g.w, f.fault l ≠ none) ∧
      (∀ l, LaneSet.has 0x5555 l = true ↔ l ∈ c.act.list c.g.w ∧ f.fault l = none) ∧ c.memStall f.word = false ∧ c.destGone f.word = []) ∧
    (∀ z ∈ [(1 : BitVec 2), 3], (Executes (.stImm gd 30 0 15 z 0) gd .store 0 stod (cx stod gd) ∧ Executes (.ldImm gd 30 0 15 z 3) gd .acquire (blk64 z) stod (cx stod gd)) ∧
      ∀ l ∈ (cx stod gd).act.list (cx stod gd).g.w, ((cx stod gd).memAddr 0 (fun _ => immOff 15 (2 ^ z.toNat)) l).toNat % 2 ^ z.toNat ≠ 0) ∧
    (Executes (.sts gd 28 0 4 1) gd .store 0 stod (cx stod gd) ∧ Executes (.lds gd 28 0 4 1) gd .load (ldsRegs 4) stod (cx stod gd) ∧
      ∀ l ∈ (cx stod gd).act.list (cx stod gd).g.w, (cx stod gd).s.scratchOff (cx stod gd).g ((cx stod gd).v 0 l + BitVec.ofInt 32 ((1 : BitVec 6).toInt * (2 ^ (4 : BitVec 3).toNat : Nat))) (2 ^ (4 : BitVec 3).toNat) = none) ∧
    (cx stw gd).act ≠ (cx stw gd).g.live ∧ (∀ r ∈ tcfgRows, Executes (r.1 gd 7 0) gd .none 0 stw (cx stw gd)) ∧ Executes (.accZero gd 3) gd .none 0 stw (cx stw gd) ∧
    ((cx stw gd).g.tl < 255 ∧ ((cx stw gd).s.core (cx stw gd).core).array.length < 16 ∧
      ∀ i ∈ [(.mxHad gd 3 2 31 : Instr), .mxPerm gd 3 2 7, .accWid gd 3 7 31, .accNar gd 7 3 31, .accQ2 gd 7 3 6, .accQe gd 7 3 6, .mmaAcc gd 3 5 6 7, .mmaSet gd 3 5 6 7],
        Executes i gd .matrix 0 stw (cx stw gd)) ∧ ((cx stw gd).g.tile 7).getD 4 0 &&& 4 = 0 := by
  have low : ∀ l < 64, LaneSet.has 0x5555 l = true ↔ l ∈ (cx stmx gd).act.list (cx stmx gd).g.w ∧
      ((cx stmx gd).loadForm 30 2 0 ((cx stmx gd).memAddr 0 (fun l => ((cx stmx gd).v (0 : BitVec 5) l).toNat)) (fun f => ((cx stmx gd).g.readV f (0 : BitVec 5).toNat).isU)).fault l = none := by decide +kernel
  have w : (cx stmx gd).g.w = 16 := by decide +kernel
  refine ⟨⟨.ld .., executes_of (by decide +kernel), by decide +kernel, fun l => ?_, by decide +kernel, by decide +kernel⟩, ?_,
    ⟨executes_of (by decide +kernel), executes_of (by decide +kernel), by decide +kernel⟩, by decide +kernel, executes_all base_gd (by decide +kernel), executes_on base_gd (by decide +kernel),
    ⟨by decide +kernel, by decide +kernel, executes_all (i := id) base_gd (by decide +kernel)⟩, by decide +kernel⟩
  · by_cases hl : l < 64
    · exact low l hl
    · exact ⟨fun h => absurd h (by simp [LaneSet.has, BitVec.getLsbD_of_ge _ _ (Nat.not_lt.1 hl)]),
        fun h => absurd (List.mem_range.1 (List.mem_filter.1 h.1).1) (by rw [w]; omega)⟩
  intro q hq; simp only [List.mem_cons, List.not_mem_nil, or_false] at hq; rcases hq with rfl | rfl <;>
    exact ⟨⟨executes_of (by decide +kernel), executes_of (by decide +kernel)⟩, by decide +kernel⟩
/-- A configuration of e2m1 rows in blocks of 16, 64 by 64 by 16, gathered by its table. -/
def cfgE2 : List Byte := [0, 0, 1, 0, 3, 64, 64, 16, 0, 0] ++ List.replicate 54 0 ++ (List.range 16).map (fun i => BitVec.ofNat 8 (15 - i))
/-- A configuration with B from staging unit 0, one product of one term. -/
def cfgStg : List Byte := [5, 5, 0, 1, 4, 1, 1, 1]
/-- A code of 6 for the lane words, and tiles 6 and 7 as configurations. -/
def stx : State := scr (((wu [0x20000000, 0, 0xC0000000, 64, 6]).putTile 6 0 cfgStg).putTile 7 0 cfgE2)
theorem base_x : baseB stx ng = true := by decide +kernel
/-- A configuration is valid. -/
theorem valid_of {cfg : List Byte} (r : (List.range 64).all (fun o => decide (o < 10) || cfg.getD o 0 == 0) = true) (h : (cfg.getD 0 0).toNat ≤ 6 ∧
    (cfg.getD 0 0 = cfg.getD 1 0 ∨ (cfg.getD 0 0).toNat ∈ [1, 2] ∧ (cfg.getD 1 0).toNat ∈ [1, 2]) ∧
    ((cfg.getD 0 0).toNat = 0 ∧ (cfg.getD 2 0).toNat ∈ [1, 2] ∨ (cfg.getD 0 0).toNat ∈ [1, 2] ∧ (cfg.getD 2 0).toNat ≤ 2 ∨ (cfg.getD 2 0).toNat = 0 ∧ 2 < (cfg.getD 0 0).toNat) ∧
    (cfg.getD 3 0).toNat ≤ 1 ∧ (cfg.getD 4 0).toNat < 8 ∧ (1 ≤ (cfg.getD 5 0).toNat ∧ (cfg.getD 5 0).toNat ≤ 64) ∧ (1 ≤ (cfg.getD 6 0).toNat ∧ (cfg.getD 6 0).toNat ≤ 64) ∧
    (1 ≤ (cfg.getD 7 0).toNat ∧ (cfg.getD 7 0).toNat ≤ (if (cfg.getD 0 0).toNat < 5 then 64 else 32)) ∧
    ((cfg.getD 2 0).toNat = 1 ∧ (cfg.getD 7 0).toNat % 16 = 0 ∨ (cfg.getD 2 0).toNat = 2 ∧ (cfg.getD 7 0).toNat % 32 = 0 ∨ (cfg.getD 2 0).toNat = 0) ∧
    ((cfg.getD 4 0).toNat % 4 ≠ 0 → (∀ i < 64, (cfg.getD (0x40 + i) 0).toNat < 64) ∧ (∀ i < (cfg.getD 7 0).toNat, (cfg.getD (0x40 + i) 0).toNat < (cfg.getD 7 0).toNat) ∧
      ∀ i < (cfg.getD 7 0).toNat, ∀ j < (cfg.getD 7 0).toNat, cfg.getD (0x40 + i) 0 = cfg.getD (0x40 + j) 0 → i = j)) : ValidConfig cfg false := by
  obtain ⟨h1, h2, h3, h4, h5, h6, h7, h8, h9, h10⟩ := h
  refine ⟨rfl, h1, h2, h3, h4, h5, h6, h7, h8, h9, fun o a b => ?_, h10⟩
  have := List.all_eq_true.1 r o (List.mem_range.2 b)
  simp only [Bool.or_eq_true, decide_eq_true_eq, beq_iff_eq] at this
  rcases this with h | h
  · omega
  · exact h
theorem valid_e2 : ValidConfig cfgE2 false := valid_of (by decide +kernel) (by decide +kernel)
theorem valid_7 : ValidConfig ((cx stx ng).g.tile 7) false := valid_of (by decide +kernel) (by decide +kernel)
theorem valid_6 : ValidConfig ((cx stx ng).g.tile 6) false := valid_of (by decide +kernel) (by decide +kernel)
theorem witness_TileAndAccumulatorWordResults :
    (cx stx ng).act = (cx stx ng).g.live ∧ (∀ r ∈ tcfgRows, Executes (r.1 ng 7 31) ng .none 0 stx (cx stx ng)) ∧ Executes (.accZero ng 3) ng .none 0 stx (cx stx ng) ∧
    Executes (.accRd gd 31 3 0) gd .none 1 stw (cx stw gd) ∧ Executes (.accWr gd 3 31 0) gd .none 0 stw (cx stw gd) :=
  ⟨by decide +kernel, executes_all base_x (by decide +kernel), executes_on base_x (by decide +kernel), executes_on base_gd (by decide +kernel), executes_on base_gd (by decide +kernel)⟩
theorem witness_TileTransferIssue :
    (cx stx ng).act = (cx stx ng).g.live ∧
    (Executes (.tcfgSet ng 7 0) ng .load 0 stx (cx stx ng) ∧ ((cx stx ng).low.UP 0).toNat % 64 = 0 ∧ (cx stx ng).memStall ((cx stx ng).cfgLoad 7 0) = false) ∧
    (Executes (.tst ng 7 0 3 1 0) ng .store 0 stx (cx stx ng) ∧ Executes (.tld ng 7 0 3 1 0) ng .load 0 stx (cx stx ng) ∧
      (∀ r ∈ tileRowsOf ((cx stx ng).low.UP 0 + 0) (((cx stx ng).low.U 3).setWidth 64) false 0x200 8, r.1.toNat % 8 = 0) ∧
      (cx stx ng).memStall ((cx stx ng).tileRows 7 0 1 0 true (((cx stx ng).low.U 3).setWidth 64, 0)) = false ∧
      (cx stx ng).memStall ((cx stx ng).tileRows 7 0 1 0 false (((cx stx ng).low.U 3).setWidth 64, 0)) = false) ∧
    (Executes (.tstImm ng 7 1 0 0 1) ng .store 0 stx (cx stx ng) ∧ Executes (.tldImm ng 7 1 0 0 1) ng .load 0 stx (cx stx ng) ∧
      (∀ r ∈ tileRowsOf (((cx stx ng).low.U 2).setWidth 64 + BitVec.ofInt 64 ((0 : BitVec 5).toInt * (64 * 64))) 64 true 0 64,
        r.1.toNat % 64 = 0 ∧ ((cx stx ng).s.scratchOff (cx stx ng).g (r.1.setWidth 32) 64).isSome = true) ∧
      (cx stx ng).memStall ((cx stx ng).tileRows 7 1 0 1 true (64, BitVec.ofInt 64 ((0 : BitVec 5).toInt * (64 * 64)))) = false ∧
      (cx stx ng).memStall ((cx stx ng).tileRows 7 1 0 1 false (64, BitVec.ofInt 64 ((0 : BitVec 5).toInt * (64 * 64)))) = false) :=
  ⟨by decide +kernel, ⟨executes_on base_x (by decide +kernel), by decide +kernel, by decide +kernel⟩,
   ⟨executes_on base_x (by decide +kernel), executes_on base_x (by decide +kernel), by decide +kernel, by decide +kernel, by decide +kernel⟩,
   ⟨executes_on base_x (by decide +kernel), executes_on base_x (by decide +kernel), by decide +kernel, by decide +kernel, by decide +kernel⟩⟩
theorem witness_MatrixIssueAndConfigurations :
    ((cx stx ng).act = (cx stx ng).g.live ∧ (cx stx ng).g.tl < 255 ∧ ((cx stx ng).s.core (cx stx ng).core).array.length < 16 ∧ (cx stx ng).core < (cx stx ng).s.cores.length) ∧
    (∀ i ∈ [(.mmaAcc ng 3 0 1 7 : Instr), .mmaSet ng 3 0 1 7, .mxHad ng 3 2 4, .mxPerm ng 3 2 7, .accWid ng 3 0 4, .accNar ng 0 3 4, .accQ2 ng 0 3 7, .accQe ng 0 3 7,
        .mmaAcc ng 3 0 0 6, .mmaSet ng 3 0 0 6], Executes i ng .matrix 0 stx (cx stx ng)) ∧
    (∃ k cfg a b acc code, Ctx.ArrayForm (cx stx ng) ng (.mmaAcc ng 3 0 1 7) k cfg a b acc code) ∧ (∃ k cfg a b acc code, Ctx.ArrayForm (cx stx ng) ng (.mxHad ng 3 2 4) k cfg a b acc code) ∧
    (∃ k cfg a b acc code, Ctx.ArrayForm (cx stx ng) ng (.mxPerm ng 3 2 7) k cfg a b acc code) ∧ (∃ k cfg a b acc code, Ctx.ArrayForm (cx stx ng) ng (.accWid ng 3 0 4) k cfg a b acc code) ∧
    (∃ k cfg a b acc code, Ctx.ArrayForm (cx stx ng) ng (.accNar ng 0 3 4) k cfg a b acc code) ∧ (∃ k cfg a b acc code, Ctx.ArrayForm (cx stx ng) ng (.accQ2 ng 0 3 7) k cfg a b acc code) ∧
    (∃ k cfg a b acc code, Ctx.ArrayForm (cx stx ng) ng (.accQe ng 0 3 7) k cfg a b acc code) ∧
    (((cx stx ng).g.tile 6).getD 4 0 &&& 4 ≠ 0 ∧ ValidConfig ((cx stx ng).g.tile 6) (decide ((6 : BitVec 3).toNat = (0 : BitVec 5).toNat)) ∧
      (cx stx ng).s.region? (cx stx ng).core (cx stx ng).g.grid = some reg0 ∧ tileHalf ((cx stx ng).g.tile 6) 8 < reg0.stage ∧
      ((cx stx ng).stagingRead (scratchKey (cx stx ng).core (reg0.stageBase + 4096 * tileHalf ((cx stx ng).g.tile 6) 8)) 4096).isSome = true) := by
  refine ⟨⟨by decide +kernel, by decide +kernel, by decide +kernel, by decide +kernel⟩, executes_all (i := id) base_x (by decide +kernel),
    ⟨_, _, _, _, _, _, .mma false 3 0 1 7 valid_7 (by decide +kernel)⟩, ⟨_, _, _, _, _, _, .had 3 2 4 (by decide +kernel)⟩,
    ⟨_, _, _, _, _, _, .perm 3 2 7 (by decide +kernel)⟩, ⟨_, _, _, _, _, _, .wid 3 0 4 (by decide +kernel)⟩, ⟨_, _, _, _, _, _, .nar 0 3 4 (by decide +kernel)⟩,
    ⟨_, _, _, _, _, _, .quant true 0 3 7 (by decide) (by decide +kernel) (by decide +kernel)⟩, ⟨_, _, _, _, _, _, .quant false 0 3 7 (by decide) (by decide +kernel) (by decide +kernel)⟩,
    by decide +kernel, valid_6, by decide +kernel, by decide +kernel, by decide +kernel⟩
/-- An operation in core 0's array. -/
def matOp (k : MatKind) (bad : Bool) : MatOp :=
  { slot := 0, op := 1, pc := placedPc, kind := k, cfg := cfgE2, a := List.replicate 4096 0, b := List.replicate 4096 0, acc := List.replicate 4096 0, code := 2, bad := bad }
/-- A machine with it at the head. -/
def sto (k : MatKind) (bad : Bool) : State := { stx with cores := stx.cores.set 0 { Core.reset with array := [matOp k bad, matOp k bad] }, groups := [{ wg with tl := 2 }] }
/-- One of its rows. -/
def rowPart (va : DWord) (e : PartProgress) : Part :=
  { issue := 1, off := 0, lanes := 0xFFFF, lead := 0, frame := 0, va := va, scratch := false, size := 64, data := List.replicate 64 1, cmp := [], prog := e,
    units := [{ off := 0, len := 32, key := va.toNat, prog := .issued }, { off := 32, len := 32, key := va.toNat + 32, prog := .issued }], leftRestart := 0, leftAbandon := false }
/-- A store of two rows. -/
def rowOp : Op :=
  { id := 1, pc := placedPc, major := 0x1F, kind := .tileStore, lanes := 0xFFFF, scope := 1, acq := false, rel := none, log := none, once := true,
    parts := [rowPart 0x1000 .entered, rowPart 0x1040 .ready], dest := .none, ldc := false, stc := false, tlc := true, marked := [] }
/-- The first row is in the store order already. -/
def wrow : Group := { wg with tl := 1, ops := [rowOp], nextId := 2 }
theorem witness_MatrixAndTileStoreSteps :
    (∀ k ∈ [MatKind.mma true 3, .had 3, .wid 3, .nar 5, .q2 5 6, .qe 5 6], (matOp k false).Sound) ∧
    (∀ k ∈ [MatKind.mma true 3, .had 3, .wid 3, .nar 5, .q2 5 6, .qe 5 6], ∀ bad : Bool, ((sto k bad).core 0).array = [matOp k bad, matOp k bad] ∧ 0 < (sto k bad).cores.length ∧
      (sto k bad).stopped 0 0 = false ∧ (sto k bad).group? 0 0 = some { wg with tl := 2 } ∧ (matOp k bad).bad = bad) ∧ ({ wg with tl := 2 } : Group).Wf ∧ wg.heldFault = none ∧
    ((sta wrow).group? 0 0 = some wrow ∧ (wrow.ops.map Op.id).Nodup ∧ (sta wrow).nextRow wrow rowOp = some (1, rowPart 0x1040 .ready) ∧ rowOp ∈ wrow.ops) := by
  refine ⟨?_, ?_, wf_of (by decide +kernel), rfl, ⟨rfl, by decide +kernel, by decide +kernel, by decide +kernel⟩⟩
  · intro k hk
    simp only [List.mem_cons, List.not_mem_nil, or_false] at hk
    rcases hk with rfl | rfl | rfl | rfl | rfl | rfl
    · exact valid_e2
    · exact ⟨List.length_replicate, by decide⟩
    · exact Or.inl (by decide)
    · exact ⟨List.length_replicate, Or.inl (by decide)⟩
    · exact ⟨List.length_replicate, by decide, by decide, by decide⟩
    · exact ⟨List.length_replicate, by decide, by decide, by decide⟩
  · intro k hk bad
    simp only [List.mem_cons, List.not_mem_nil, or_false] at hk
    rcases hk with rfl | rfl | rfl | rfl | rfl | rfl <;> cases bad <;> exact ⟨rfl, by decide +kernel, by decide +kernel, rfl, rfl⟩
theorem witness_LaunchRequestIssue :
    (stw.lnchWords (cx stw gd).core).length < 16 ∧ Executes (.lnchTrig gd 30) gd .launch 0 stw (cx stw gd) ∧ Executes (.lnchCncl gd 31) gd .launch 0 stw (cx stw gd) ∧
    (let s := sta (wu [0x10001000, 0])
     ∃ f m b key seq s1, Executes (.lnchRec gd 31 0) gd .launch 0 s (cx s gd) ∧ (s.lnchWords (cx s gd).core).length < 16 ∧ (cx s gd).frames = [(f, m)] ∧
       (cx s gd).reach (cx s gd).s m (f.UP 0) = (s1, .reach b key seq false)) :=
  ⟨by decide +kernel, executes_on base_gd (by decide +kernel), executes_on base_gd (by decide +kernel),
   (wu [0x10001000, 0]).frm 0, 0xFFF7, 0, 0x1000104B, 0, _, executes_of (by decide +kernel), by decide +kernel, by decide +kernel, Prod.ext rfl (by decide +kernel)⟩
theorem witness_SystemWordResults :
    (∀ i ∈ [(.pwrReq gd 31 : Instr), .pwrCls gd 31, .pwrPool gd 31, .tmRd gd 30, .tmWtill gd 30, .tmWrel gd 31, .dbgBrk gd, .dbgProg gd 31 15, .sysRdid gd 30 0], Executes i gd .none 0 stw (cx stw gd)) ∧
    (∃ x, stw.team? (cx stw gd).g.grid (cx stw gd).g.team = some x) ∧ (∃ x, stw.clusters[(cx stw gd).core / 8]? = some x) ∧
    ((cx stw gd).g.ld = 0 ∧ (cx stw gd).g.st = 0 ∧ (cx stw gd).g.cp = 0 ∧ (cx stw gd).g.tl = 0) ∧ (cx stw gd).core < stw.cores.length ∧ (cx stw gd).slot < 64 ∧
    stw.fnOf (cx stw gd).g.grid < stw.fns.length ∧ (stw.form = 1 ∨ stw.form = 2) ∧ stw.cap < 8 :=
  ⟨executes_all (i := id) base_gd (by decide +kernel), ⟨_, rfl⟩, ⟨_, rfl⟩, ⟨by decide +kernel, by decide +kernel, by decide +kernel, by decide +kernel⟩, by decide +kernel, by decide +kernel,
   by decide +kernel, by decide +kernel, by decide +kernel⟩
/-- A grid of function 1. -/
def stf : State := { stw with grids := stw.grids.map (fun g => { g with fn := 1 }) }
theorem witness_PrivilegedWords :
    (stw.fnOf (cx stw gd).g.grid = 0 ∧ 0 < stw.fns.length ∧ Executes (.sysCinv gd) gd .fence 0 stw (cx stw gd) ∧ Executes (.sysTvt gd 0) gd .none 0 stw (cx stw gd) ∧
      ((cx stw gd).up 0 (lowest (cx stw gd).act (cx stw gd).g.w)).toNat % 64 = 0) ∧
    (let g := { wb with arrivals := [{ bar := 20, lanes := 3, mark := 1, count := 0, waits := false }] }
     let s := sta g
     s.group? 0 0 = some g ∧ g.arrivals.find? (fun a => a.bar == 20 && !s.markPending a.mark) =
       some { bar := 20, lanes := 3, mark := 1, count := 0, waits := false }) ∧
    (let s := sta (wu [63, 0])
     Executes (.sysTvt gd 0) gd .none 0 s (cx s gd) ∧ s.fnOf (cx s gd).g.grid = 0 ∧ ((cx s gd).up 0 (lowest (cx s gd).act (cx s gd).g.w)).toNat % 64 ≠ 0) ∧
    (Executes (.sysCinv gd) gd .fence 0 stf (cx stf gd) ∧ Executes (.sysTvt gd 0) gd .none 0 stf (cx stf gd) ∧ stf.fnOf (cx stf gd).g.grid ≠ 0) :=
  ⟨⟨by decide +kernel, by decide +kernel, executes_on base_gd (by decide +kernel), executes_on base_gd (by decide +kernel), by decide +kernel⟩,
   ⟨rfl, by decide +kernel⟩,
   ⟨executes_of (by decide +kernel), by decide +kernel, by decide +kernel⟩, executes_of (by decide +kernel), executes_of (by decide +kernel), by decide +kernel⟩
/-- A handler's frame: what v0 holds, and the access that lane 0 entered it for. -/
def whand (path : LaneSet) (v0 : Word) (ops : List (Nat × Nat)) (os : List Op) : State :=
  let g := wcall 0 (some { ops := ops, since := 0, deferred := false, entering := false })
  { sta { g with frames := g.frames.map (fun f => if f.id = 1 then { f with v := f.v.set 0 (.u v0), owners := path } else f), ops := os,
                 lanes := g.lanes.mapIdx (fun l x => if l < 8 && !path.has l then { x with fd := 0, frame := 0 } else x) } with
    cur := some (curOf wg path) }
/-- A load of lane 0 whose translation faulted. -/
def faultedLoad : Op :=
  { id := 1, pc := placedPc, major := 0x1D, kind := .load, lanes := 1, scope := 4, acq := false, rel := none, log := some 0, once := false, dest := .vec 2 1 false, ldc := true, stc := false, tlc := false, marked := [],
    parts := [{ issue := 1, off := 0, lanes := 1, lead := 0, frame := 0, va := 0x40000000, scratch := false, size := 4, data := [], cmp := [], prog := .faulted 0x09 1 0x40000000, units := [],
                leftRestart := 0, leftAbandon := false }] }
/-- The machine with it. -/
def stret (v0 : Word) : State := whand 1 v0 [(0, 1)] [faultedLoad]
theorem inHandlers_of {c : Ctx} (e : (c.act.list c.g.w).all (fun l => match (c.g.frm l).handler, (c.g.stack l)[1]? with
    | some hd, some _ => decide (hd.ops.find? (fun x => x.1 == l) = none ∧ (c.g.frm l).na = 0 ∧ (c.g.laneV 0 l).getLsbD 10 = false ∧
        (c.g.laneV 7 l ++ c.g.laneV 6 l).toNat % 4 = 0 ∧ (c.g.laneV 7 l ++ c.g.laneV 6 l).toNat < 2 ^ 56)
    | _, _ => false) = true) : c.InHandlers := by
  intro l hl
  have h := List.all_eq_true.1 e l hl
  split at h
  · rename_i hd below h1 h2
    obtain ⟨a, b, d, f⟩ := of_decide_eq_true h
    exact ⟨hd, below, h1, a, b, h2, d, f⟩
  · simp at h
theorem witness_TrapReturnResults :
    (let s := whand 0x00FF 0 [] []
     Executes (.sysTret gd) gd .none 0 s (cx s gd) ∧ (cx s gd).tretBusy = false ∧ (cx s gd).InHandlers) ∧
    (∀ v ∈ [(0x400 : Word), 0], Executes (.sysTret ng) ng .none 0 (stret v) (cx (stret v) ng) ∧ (cx (stret v) ng).tretBusy = false ∧ (cx (stret v) ng).act.list (cx (stret v) ng).g.w = [0] ∧
      (cx (stret v) ng).act = LaneSet.one 0 ∧ ((cx (stret v) ng).g.frm 0).handler = some { ops := [(0, 1)], since := 0, deferred := false, entering := false } ∧ ((cx (stret v) ng).g.frm 0).na = 0 ∧
      ((cx (stret v) ng).g.stack 0)[1]? = some ((cx (stret v) ng).g.frm 15) ∧ GoodTarget ((cx (stret v) ng).g.laneV 7 0 ++ (cx (stret v) ng).g.laneV 6 0) ∧ ((cx (stret v) ng).g.ops.map Op.id).Nodup ∧ faultedLoad ∈ (cx (stret v) ng).g.ops ∧
      faultedLoad.id = 1 ∧ (∃ p, faultedLoad.parts = [p] ∧ p.lanes = LaneSet.one 0 ∧ p.isFaulted = true ∧ p.leftRestart = 0 ∧ p.leftAbandon = false) ∧ faultedLoad.whole = false ∧
      (∀ d, faultedLoad.dest ≠ .wait d) ∧ ∀ x ∈ (cx (stret v) ng).g.ops, x.finished = false) ∧
    (Executes (.sysTret gd) gd .none 0 stw (cx stw gd) ∧ (cx stw gd).tretBusy = false ∧ ∀ l ∈ (cx stw gd).act.list (cx stw gd).g.w, ((cx stw gd).g.frm l).handler = none) := by
  refine ⟨⟨executes_of (by decide +kernel), by decide +kernel, inHandlers_of (by decide +kernel)⟩, ?_, executes_on base_gd (by decide +kernel), by decide +kernel, by decide +kernel⟩
  intro v hv
  simp only [List.mem_cons, List.not_mem_nil, or_false] at hv
  rcases hv with rfl | rfl <;>
    exact ⟨executes_of (by decide +kernel), by decide +kernel, by decide +kernel, by decide +kernel, by decide +kernel, by decide +kernel, by decide +kernel, by unfold GoodTarget; decide +kernel,
      by decide +kernel, by decide +kernel, rfl, ⟨_, rfl, rfl, rfl, rfl, rfl⟩, rfl, by simp [faultedLoad], by decide +kernel⟩
/-- A machine whose trap vector table names a handler for some codes. -/
def stt (g : Group) (path : LaneSet) : State :=
  let s := sta g
  { s with
    fns := s.fns.modify 0 (fun f => { f with tvt := 0x10002000 })
    mem := [1, 2, 9, 19].foldl (fun m i => Memory.writes m (0x10002000 + 16 * i) (natLe 8 0x10000100 ++ [8, 4, 1])) s.mem
    cur := some { curOf wg path with tvt := 0x10002000 } }
/-- The entry. -/
def ent : TrapEntry := ⟨0x10000100, 8, 4⟩
theorem handles_of {s : State} {core slot : Nat} {g : Group} {m : LaneSet} {e : TrapEntry} {pc : DWord} (h1 : s.group? core slot = some g)
    (h : (wfB g && ownB g && !(m.list g.w).isEmpty && decide (m.toNat < 2 ^ g.w) && (m.list g.w).all (fun l => (g.lane l).run.live && decide ((g.lane l).fd < 255) && (g.frm l).handler.isNone) &&
      (m.list g.w).all (fun l => (m.list g.w).all (fun k => (g.lane l).frame == (g.lane k).frame)) && decide (8 ≤ e.nv) && decide (1 + 8 * g.perReg ≤ s.freeRows core) &&
      decide ((e.nv + 3) / 4 ≤ s.freeQuads core) && ((s.core core).earlier slot pc m).isEmpty) = true) : s.Handles core slot g m e pc := by
  simp only [Bool.and_eq_true, decide_eq_true_eq, Bool.not_eq_true', List.isEmpty_eq_false_iff, List.isEmpty_iff, List.all_eq_true, beq_iff_eq, Option.isNone_iff_eq_none] at h
  obtain ⟨⟨⟨⟨⟨⟨⟨⟨⟨a, b⟩, c⟩, d⟩, f⟩, k⟩, n⟩, q⟩, r⟩, o⟩ := h
  refine ⟨h1, wf_of a, owned_of b, c, ?_, fun l hl => (f l hl).1.1, k, fun l hl => (f l hl).1.2, fun l hl x hx => ?_, n, ⟨q, r⟩, o⟩
  · intro l hl
    rcases Nat.lt_or_ge l g.w with h | h
    · exact h
    · simp only [LaneSet.has] at hl
      have := Nat.testBit_lt_two_pow (Nat.lt_of_lt_of_le d (Nat.pow_le_pow_right (by decide) h))
      rw [BitVec.getLsbD] at hl
      simp [this] at hl
  · rw [(f l hl).2] at hx; exact absurd hx (by simp)
/-- Lane 0 has a deferred fault to take. -/
def wdef : Group := { wg with lanes := wg.lanes.modify 0 (fun x => { x with deferred := [{ op := none, id := 0, code := 0x13, fpc := placedPc, faddr := 64, detail := 1, rs := false }] }) }
/-- Lanes 0 and 1 have a fault whose entry waits for rows. -/
def wtrap : Group := { wg with
  lanes := wg.lanes.mapIdx (fun l x => if l < 2 then { x with run := .trapping } else x)
  traps := [{ code := 0x0B, kind := 0, more := false, frame := 0, nested := false, entry := some ent,
              lanes := [⟨0, 0x0B, placedPc, 1, 2, placedPc, none⟩, ⟨1, 0x0B, placedPc, 17, 2, placedPc, none⟩] }] }
theorem fst_of {α β : Type} {x : α × β} {b : β} (h : x.2 = b) : x = (x.1, b) := Prod.ext rfl h
theorem snd_of {α β : Type} {x : α × β} {b : β} (h : x.2 = b) : ∃ a, x = (a, b) := ⟨x.1, fst_of h⟩
theorem witness_HandledAndUnhandledFaults_handled :
    (let s := stt wg 0xFFFF
     (s.cur = some { curOf wg 0xFFFF with tvt := 0x10002000 } ∧ s.Handles 0 0 wg 0xFFFF ent placedPc) ∧ (3 < 4 ∧ 3 < 4) ∧ wordGuard 0x01A00000 = none ∧
      (if (s.pageStart (s.fnOf wg.grid) placedPc).toNat ≤ placedPc.toNat then placedPc else s.pageStart (s.fnOf wg.grid) placedPc) = placedPc ∧
      ∀ code ∈ [0x01, 0x02, 0x09, 0x13], ∃ s1, s.trapEntry (s.fnOf wg.grid) 0 code = (s1, .valid ent)) ∧
    (let s := stt wdef 0xFFFF
     s.Handles 0 0 wdef (LaneSet.one 0) ent placedPc ∧ (∃ s1, s.trapEntry (s.fnOf wdef.grid) 0 0x13 = (s1, .valid ent)) ∧ (wdef.lane 0).run = .running ∧ wdef.atBoundary 0 = true ∧
      wdef.wideHeld (LaneSet.one 0) = false ∧ s.stopped 0 0 = false ∧ (∃ d, wdef.dueFault 0 = some d ∧ d.code = 0x13 ∧ d.fpc = placedPc ∧ d.rs = false) ∧ ∀ k ∈ List.range wdef.w, k ≠ 0 → wdef.dueFault k = none) ∧
    (let s := stt wtrap 0xFFFF
     s.group? 0 0 = some wtrap ∧ ∃ tr, wtrap.traps = [tr] ∧ tr.entry = some ent ∧ s.Handles 0 0 wtrap tr.laneSet ent ((tr.lanes.head?.map TrapLane.fpc).getD 0) ∧ ∀ l ∈ tr.laneSet.list wtrap.w, (wtrap.lane l).frame = tr.frame) := by
  refine ⟨⟨⟨by decide +kernel, handles_of (by decide +kernel) (by decide +kernel)⟩, by decide, by decide +kernel, by decide +kernel, ?_⟩,
    ⟨handles_of (by decide +kernel) (by decide +kernel), snd_of (by decide +kernel), by decide +kernel, by decide +kernel, by decide +kernel, by decide +kernel, ⟨_, rfl, rfl, rfl, rfl⟩, by decide +kernel⟩,
    rfl, _, rfl, rfl, handles_of (by decide +kernel) (by decide +kernel), by decide +kernel⟩
  intro code hc
  simp only [List.mem_cons, List.not_mem_nil, or_false] at hc
  rcases hc with rfl | rfl | rfl | rfl <;> exact snd_of (by decide +kernel)
theorem witness_HandledAndUnhandledFaults_unhandled :
    let s : State := { stw with cur := some (curOf wg 1) }
    ∃ cu gr s1, s.cur = some cu ∧ s.group? cu.core cu.slot = some wg ∧ s.grid? wg.grid = some gr ∧ s.trapEntry gr.fn cu.core 0x01 = (s1, .invalid) ∧ wordGuard 0x01A00000 = none ∧ cu.mid = false ∧ wg.Wf ∧
      wg.Owned ∧ wg.traps = [] ∧ cu.path.list wg.w = [0] ∧ cu.path = LaneSet.one 0 ∧ (wg.lane 0).run = .running ∧ ∀ h, (wg.frm 0).handler = some h → h.entering = false :=
  ⟨_, _, _, rfl, rfl, rfl, fst_of (by decide +kernel), by decide +kernel, rfl, wf_of (by decide +kernel), owned_of (by decide +kernel), rfl, by decide +kernel, by decide +kernel, by decide +kernel,
   fun h e => by have : (wg.frm 0).handler = none := by decide +kernel
                 rw [this] at e; exact absurd e (by simp)⟩
/-- An entry of the store order. -/
def sfi (k : SfKind) (scope : Nat) (rel : Option Nat) : SfItem :=
  { op := 1, part := 0, issue := 1, kind := k, lanes := 1, key := 0x201C, bytes := [1, 2, 3, 4], scope := scope, rel := rel, enter := 1, readers := [], pc := placedPc }
/-- A part of an access of lane 0. -/
def lp (e : PartProgress) (us : List AccUnit) : Part :=
  { issue := 1, off := 0, lanes := 1, lead := 0, frame := 0, va := 0x1000201C, scratch := false, size := 4, data := [], cmp := [], prog := e, units := us, leftRestart := 0, leftAbandon := false }
/-- A unit of it: the last word of a single-copy atomic unit. -/
def lu (e : UnitProgress) : AccUnit := { off := 0, len := 4, key := 0x201C, prog := e }
/-- An access of it. -/
def lop (k : OpKind) (log : Option Nat) (p : Part) : Op :=
  { id := 1, pc := placedPc, major := 0x1D, kind := k, lanes := 1, scope := 4, acq := false, rel := none, log := log, once := false, parts := [p], dest := .vec 31 1 false, ldc := true, stc := false, tlc := false, marked := [] }
/-- Groups with them. -/
def wsf (k : SfKind) (scope : Nat) (rel : Option Nat) (os : List Op) : Group := { wg with sf := [sfi k scope rel, sfi .marker 4 (some 8)], ops := os, nextId := 2 }
def wld (o : Op) : Group := { wg with ops := [o], ld := 1, nextId := 2 }
/-- Machines with a write of 32 bytes in flight, and one in a core's queue. -/
def stwr (g : Group) : State :=
  let s := sta g
  { s with
    writes := [{ seq := 1, unit := 0x2000, bytes := List.replicate 32 7, origin := some 1, cmps := [1], reach := 3 }], co := 1
    cores := s.cores.modify 1 (fun c => { c with prop := [{ mark := none, seq := 1, unit := 0x2000, reach := 3, last := 6, slot := 0, shown := none }, { mark := some 5, seq := 0, unit := 0, reach := 1, last := 4, slot := 0, shown := none }] }) }
theorem has_one {l : Nat} (e : (1 : LaneSet).has l = true) : l = 0 := by
  rcases l with _ | l
  · rfl
  · rw [LaneSet.has, BitVec.getLsbD, Nat.testBit_lt_two_pow (Nat.lt_of_lt_of_le (by decide) (Nat.pow_le_pow_right (by decide) (Nat.le_add_left 1 l)))] at e
    simp at e
theorem targets_of {g : Group} {p : Part} {d n : Nat} {uni : Bool} {f : Frame} (h : wfB g = true) (hf : g.frame? p.frame = some f) (hr : if uni then d + n ≤ f.ns else d + n ≤ f.nv)
    (hl : p.lanes = 1) (h0 : 0 < g.w ∧ (g.lane 0).frame = p.frame) : g.Targets p d n uni := by
  refine ⟨wf_of h, ⟨f, hf, hr⟩, fun l e => ?_⟩
  rw [hl] at e
  rw [has_one e]; exact h0
theorem witness_StoreSteps :
    (let g := wsf .store 4 none []
     let s := stwr g
     s.group? 0 0 = some g ∧ (∃ h rest, g.sf = h :: rest ∧ h.kind = .store ∧ h.rel = none ∧ g.drainHeld h h.enter = false) ∧ s.stopped 0 0 = false ∧ s.bitErrors = [] ∧ 0 < s.cores.length) ∧
    (let g := wsf .marker 6 (some 7) []
     let s := stwr g
     s.group? 0 0 = some g ∧ (∃ h rest, g.sf = h :: rest ∧ h.kind = .marker ∧ h.rel = some 7 ∧ 1 < h.scope) ∧ s.stopped 0 0 = false ∧ 0 < s.cores.length) ∧
    (∀ i ∈ [0, 1], ∃ x, ((stwr wg).core 1).prop[i]? = some x ∧ mayPropagate ((stwr wg).core 1).prop i x = true) ∧
    (let s := { stwr wg with feProp := [{ mark := some 5, seq := 0, unit := 0, reach := 3, last := 4, slot := 0, shown := none }] }
     s.cores.length ≤ 192 ∧ ∃ x, s.feProp[0]? = some x ∧ mayPropagate s.feProp 0 x = true) ∧
    (let p := lp .entered []
     let o := lop (.atomic 0 0) none p
     let g := wsf (.atomic 0 0 [(0, [1, 0, 0, 0], [])]) 3 none [o]
     let s := stwr g
     s.group? 0 0 = some g ∧ (∃ h rest, g.sf = h :: rest ∧ h.kind = .atomic 0 0 [(0, [1, 0, 0, 0], [])] ∧ h.rel = none ∧ g.drainHeld h h.issue = false ∧ s.mayPerform 0 h.scope (unitOf h.key) = true ∧
        g.ops.find? (fun y => y.id == h.op) = some o ∧ h.bytes.length ≤ 4 ∧ h.key + h.bytes.length ≤ unitOf h.key + unitSize h.key) ∧ s.stopped 0 0 = false ∧ s.bitErrors = [] ∧
      o.parts = [p] ∧ p.lead = 0 ∧ p.issue = 1 ∧ 0 < g.w ∧ p.lanes = LaneSet.one 0 ∧ p.prog = .entered ∧ o.dest = .vec 31 1 false ∧ g.Targets p 31 1 false ∧ ∀ w ∈ s.writes, w.bytes.length = unitSize w.unit) := by
  refine ⟨⟨by decide +kernel, ⟨_, _, rfl, rfl, rfl, by decide +kernel⟩, by decide +kernel, by decide +kernel, by decide +kernel⟩,
    ⟨by decide +kernel, ⟨_, _, rfl, rfl, rfl, by decide +kernel⟩, by decide +kernel, by decide +kernel⟩, ?_, ⟨by decide +kernel, _, rfl, by decide +kernel⟩,
    by decide +kernel, ⟨_, _, rfl, rfl, rfl, by decide +kernel, by decide +kernel, rfl, by decide +kernel, by decide +kernel⟩, by decide +kernel, by decide +kernel, rfl, rfl, rfl, by decide +kernel, by decide +kernel, rfl, rfl,
    targets_of (by decide +kernel) (f := wg.frm 0) (by decide +kernel) (by decide +kernel) rfl (by decide +kernel), by decide +kernel⟩
  intro i hi
  simp only [List.mem_cons, List.not_mem_nil, or_false] at hi
  rcases hi with rfl | rfl <;> exact ⟨_, rfl, by decide +kernel⟩
theorem witness_LoadSteps :
    (let o := lop .load none (lp .ready [lu .issued])
     let g := wld o
     (stwr g).group? 0 0 = some g ∧ g.ops.find? (fun x => x.id == o.id) = some o ∧ o.elems[0]? = some (0, 0) ∧ (lu .issued).prog = .issued ∧ (stwr g).mayPresent g o (lp .ready [lu .issued]) (lu .issued) = true ∧ g.destSpilled o (lp .ready [lu .issued]) = false ∧
      g.forwardFrom (lp .ready [lu .issued]) (lu .issued) = none) ∧
    (let p := lp .ready [lu (.presented 0 1)]
     let o := lop .load none p
     let g := wld o
     let s := stwr g
     s.group? 0 0 = some g ∧ g.ops.find? (fun x => x.id == o.id) = some o ∧ (g.ops.map Op.id).Nodup ∧ g.Targets p 31 1 false ∧ p.lanes ≠ 0 ∧ p.size = 4 ∧ s.stopped 0 0 = false ∧ s.bitErrors = [] ∧
      (lu (.presented 0 1)).key + (lu (.presented 0 1)).len = unitOf (lu (.presented 0 1)).key + unitSize (lu (.presented 0 1)).key ∧ ∀ w ∈ s.writes, w.bytes.length = unitSize w.unit) ∧
    (let p := lp .untranslated []
     let o := lop .load (some 3) p
     let g := wld o
     let s := stwr g
     s.group? 0 0 = some g ∧ (g.ops.map Op.id).Nodup ∧ g.ops.find? (fun x => x.log == some 3) = some o ∧ o.whole = false ∧ p.lanes ≠ 0 ∧
      (∃ s1, s.translatePart g o p = (s1, .units [{ off := 0, len := 4, key := 0x1000201C, prog := .issued }]))) ∧
    (let p := { lp .untranslated [] with va := 0x00FFFFFFFFFFFF00 }
     let o := lop .load (some 3) p
     let g := wld o
     let s := stwr g
     s.group? 0 0 = some g ∧ g.ops.find? (fun x => x.log == some 3) = some o ∧ (∀ l, p.lanes.has l = true → l < g.lanes.length) ∧ ∃ s1, s.translatePart g o p = (s1, .fault 9 0 0x00FFFFFFFFFFFF00)) := by
  refine ⟨⟨by decide +kernel, by decide +kernel, by decide +kernel, rfl, by decide +kernel, by decide +kernel, by decide +kernel⟩,
    ⟨by decide +kernel, by decide +kernel, by decide +kernel, targets_of (by decide +kernel) (f := wg.frm 0) (by decide +kernel) (by decide +kernel) rfl (by decide +kernel), by decide +kernel, rfl, by decide +kernel,
      by decide +kernel, by decide +kernel, by decide +kernel⟩,
    ⟨by decide +kernel, by decide +kernel, by decide +kernel, rfl, by decide +kernel, snd_of (by decide +kernel)⟩, by decide +kernel, by decide +kernel, ?_, snd_of (by decide +kernel)⟩
  intro l e
  rw [has_one e]; decide +kernel
/-- A copy of four bytes from memory to the team's window. -/
def ccmd (taken : Bool) (cbuf : Option Nat) : CopyCmd :=
  { id := 7, issue := 0, core := 0, slot := 0, fn := 0, grid := 0, team := 0, pc := placedPc, kind := 0, dst := (match cbuf with | some _ => 0x4F000000 | none => 60), dstHi := 0, src := 0x10001000, srcHi := 0, len := 4,
    esize := 0, count := 0, stride := 0, index := 0, cbuf := cbuf, taken := taken, stamp := 0, cbSlot := 0, indices := [], got := [], put := [], done := false, fault := none }
/-- Core 0's engine holds it. -/
def sten (c : CopyCmd) (bufs : List CBuf) : State :=
  let s := scr { wg with cp := 1 }
  { s with cores := s.cores.modify 0 (fun k => { k with engine := [c], regions := [{ reg0 with bufs := bufs }] }) }
/-- A group of one thread whose v1 is general, or spilled. -/
def wone (t : Tag) : Group :=
  let g := newGroup 0 placedRecord placedBox 0 0 1 0 0 0
  { g with frames := g.frames.map (fun f => { f with v := f.v.set 1 t }), sets := (match t with | .g n => [{ id := n, words := (List.range 16).map (BitVec.ofNat 32) }] | _ => []) }
/-- Its launch has spill areas, and its core has a request. -/
def stsp (t : Tag) (rows quads : Nat) : State :=
  let s := sta (wone t)
  { s with
    grids := s.grids.map (fun g => { g with record := { g.record with spillb := 0x10004000, spillt := 256 } })
    cores := s.cores.modify 0 (fun k => { k with requests := if rows = 0 then [] else [{ slot := 0, pc := placedPc, lanes := 1, rows := rows, quads := quads, granted := false, since := 0, need := none }] }) }
def spillAt (gr : Grid) (v : Group) (f : Frame) (reg : Nat) : DWord :=
  gr.record.spillb + BitVec.ofNat 64 (((v.lane 0).ix.toNat + gr.record.sx * ((v.lane 0).iy.toNat + gr.record.sy * (v.lane 0).iz.toNat)) * gr.record.spillt.toNat + 256 * f.depth) + BitVec.ofNat 64 (4 * reg)
theorem witness_CoreEngineSteps :
    (let c := ccmd false none
     let s := sten c []
     (s.core 0).engine.find? (fun x => !x.taken) = some c ∧ c.cbuf = none ∧ c.kind ≠ 3 ∧ c.len ≠ 0) ∧
    (let c := ccmd false (some 15)
     let b := { buf15 with free := 0 }
     let s := sten c [b]
     ∃ r, (s.core 0).engine.find? (fun x => !x.taken) = some c ∧ c.cbuf = some 15 ∧ c.sideCore c.dstHi = some 0 ∧ s.region? 0 c.grid = some r ∧ r.bufs.find? (fun x => x.num == 15) = some b ∧ b.free = 0) ∧
    (let c := ccmd true none
     let s := sten c []
     (s.core 0).engine[0]? = some c ∧ c.taken = true ∧ c.done = false ∧ c.cbuf = none ∧ c.kind = 0 ∧ c.fault = none ∧ c.got = [] ∧ c.put = [] ∧ s.stopped 0 c.slot = false ∧ s.bitErrors = [] ∧
      (∃ s1, s.copySource c = (s1, ⟨[(0x10001000, 0, 4)], []⟩) ∧ ∃ s2, s1.copyDest c = (s2, ⟨[(scratchKey 0 60, 0, 4)], []⟩)) ∧ isScratchKey (scratchKey 0 60) = true ∧
      scratchKey 0 60 + 4 = unitOf (scratchKey 0 60) + unitSize (scratchKey 0 60) ∧ ∃ g, s.group? 0 c.slot = some g ∧ g.grid = c.grid ∧ g.team = c.team) ∧
    (let s := stsp (.g 0) 3 2
     ∃ r, (s.core 0).requests.find? (fun x => !x.granted) = some r ∧ r.rows ≤ s.freeRows 0 ∧ r.quads ≤ s.freeQuads 0 ∧ 0 < r.rows ∧ 0 < r.quads) ∧
    (let c := { ccmd true none with len := 64 }
     let s := sten c []
     (s.core 0).engine[0]? = some c ∧ c.taken = true ∧ c.done = false ∧ s.bitErrors = [] ∧
      (∃ s1, s.copySource c = (s1, ⟨[(0x10001000, 0, 64)], []⟩) ∧ ∃ s2, s1.copyDest c = (s2, ⟨[(scratchKey 0 60, 0, 64)], []⟩)) ∧
      (∀ x ∈ (⟨[(0x10001000, 0, 64)], []⟩ : CopySide).units, x.2.1 + x.2.2 ≤ c.len) ∧ (⟨[(0x10001000, 0, 64)], []⟩ : CopySide).units[1]? = some (0x10001020, 32, 32) ∧ ∀ x ∈ c.got, x.1 ≠ 32) ∧
    (let s := stsp (.g 0) Config.granules 0
     let v := wone (.g 0)
     ∃ r f gr, (s.core 0).requests.find? (fun x => !x.granted) = some r ∧ s.group? 0 r.slot = some v ∧ s.freeRows 0 < r.rows ∧ (s.coreIdle 0 = true ∨ s.longWait 0 = true) ∧ s.victim 0 0 v.grid v.team = some v ∧ s.spillable v = (f.id, some 1) :: [] ∧
      v.frame? f.id = some f ∧ s.grid? v.grid = some gr ∧ f.owners.list v.w = [0] ∧
      v.bad = [] ∧ s.bitErrors = [] ∧ ∃ s1 ks, ({ s with freeCtr := s.freeCtr + 1 } : State).locateBy (State.laneWalk v.core v.slot (LaneSet.one 0) v.nextId) gr.fn ⟨true, false, false⟩ (spillAt gr v f 1) 4 = (s1, .ok ks) ∧
        r.rows ≤ ((s1.putRuns ks (wordLe ((v.readV f 1).lane 0))).updGroup v.core v.slot (fun x => (x.setTag f.id 1 .spilled).collect)).freeRows 0) ∧
    (let s := stsp .spilled 0 0
     let g := wone .spilled
     ∃ f gr, s.group? 0 0 = some g ∧ g.Wf ∧ g.frame? f.id = some f ∧ s.grid? g.grid = some gr ∧ f.tag 1 = .spilled ∧ 1 < f.nv ∧ g.perReg ≤ s.freeRows 0 ∧ (s.core 0).earlier 0 (refillKey f.id 1) 0 = [] ∧ f.owners.list g.w = [0] ∧ s.bitErrors = [] ∧
      ∃ s1, s.locateBy (State.laneWalk 0 0 (LaneSet.one 0) g.nextId) gr.fn ⟨false, false, false⟩ ((g.lane 0).spillBase gr.record f.depth + BitVec.ofNat 64 (4 * 1)) 4 = (s1, .ok [(0x10004004, 0, 4)])) := by
  refine ⟨⟨by decide +kernel, rfl, by decide, by decide⟩, ⟨{ reg0 with bufs := [{ buf15 with free := 0 }] }, by decide +kernel, rfl, rfl, by decide +kernel, by decide +kernel, rfl⟩,
    ⟨by decide +kernel, rfl, rfl, rfl, rfl, rfl, rfl, rfl, by decide +kernel, by decide +kernel, ⟨_, fst_of (by decide +kernel), snd_of (by decide +kernel)⟩, by decide +kernel, by decide +kernel,
      { wg with cp := 1 }, by decide +kernel, rfl, rfl⟩,
    ⟨{ slot := 0, pc := placedPc, lanes := 1, rows := 3, quads := 2, granted := false, since := 0, need := none }, by decide +kernel, by decide +kernel, by decide +kernel, by decide, by decide⟩,
    ⟨by decide +kernel, rfl, rfl, by decide +kernel, ⟨_, fst_of (by decide +kernel), snd_of (by decide +kernel)⟩, by decide +kernel, by decide +kernel, by decide⟩,
    ⟨{ slot := 0, pc := placedPc, lanes := 1, rows := Config.granules, quads := 0, granted := false, since := 0, need := none }, (wone (.g 0)).frm 0, (stsp (.g 0) 0 0).grids.headD placedGrid, by decide +kernel, by decide +kernel,
      by decide +kernel, Or.inl (by decide +kernel), by decide +kernel, by decide +kernel, by decide +kernel, by decide +kernel, by decide +kernel, rfl, rfl, _, [(0x10004004, 0, 4)], fst_of (by rfl), by decide +kernel⟩,
    (wone .spilled).frm 0, (stsp .spilled 0 0).grids.headD placedGrid, by decide +kernel, wf_of (by decide +kernel), by decide +kernel, by decide +kernel, rfl, by decide +kernel, by decide +kernel,
    by decide +kernel, by decide +kernel, by decide +kernel, snd_of (by rfl)⟩
/-- Lane 0 waits on an address of memory. -/
def wwait (watched : Bool) (deadline : Option Nat) : WtaWait :=
  { va := 0x1000101C, scratch := false, key := some 0x1000101C, size := 4, cmp := 1, acq := true, scope := 4, dst := 31, frame := 0, deadline := deadline, watched := watched, reading := false }
def wwg (w : WtaWait) : Group := { wg with lanes := wg.lanes.modify 0 (fun x => { x with run := .address w }) }
/-- A core stopped with a copy's completion held. -/
def stheld : State :=
  let s := sten { ccmd true none with done := true } []
  { s with cores := s.cores.modify 0 (fun k => { k with dstop := 1, completions := [.copy 0 7] }) }
/-- A team that stands at its barrier, its time up. -/
def stwd : State :=
  let s := sta { wg with lanes := wg.lanes.map (fun x => { x with run := .barrier 0 1 }) }
  { s with ptime := 1000000, fns := s.fns.modify 0 (fun f => { f with wdctl := 1000 }), teams := [{ placedTeam with timer := some 0 }] }
theorem witness_WaitAndStopSteps :
    (∀ x ∈ [(true, none), (false, none), (false, some 0)], let w := wwait x.1 x.2
      let g := wwg w
      let s := sta g
      s.group? 0 0 = some g ∧ g.Wf ∧ 0 < g.w ∧ (g.lane 0).run = .address w ∧ w.key = some 0x1000101C ∧ w.reading = false ∧ s.stopped 0 0 = false ∧ s.bitErrors = [] ∧
      g.waitSpilled w.frame w.dst w.size = false ∧ s.readUnit g (LaneSet.one 0) g.nextId w.scope 0x1000101C w.size = some ([0, 0, 0, 0], 0) ∧ g.frame? w.frame = some (g.frm 0) ∧ (g.lane 0).frame = w.frame ∧
      w.dst + (regWords [0, 0, 0, 0]).length ≤ (g.frm 0).nv ∧ w.watched = x.1 ∧ leDWord ([0, 0, 0, 0] ++ List.replicate 4 0) ≠ w.cmp ∧ ∀ d, w.deadline = some d → d ≤ s.ptime.toNat) ∧
    (let g := { wg with lanes := wg.lanes.modify 0 (fun x => { x with run := .time 0 }) }
     (sta g).group? 0 0 = some g ∧ (g.lane 0).run = .time 0 ∧ 0 ≤ (sta g).ptime.toNat) ∧
    ((sta wg).group? 0 0 = some wg ∧ ∃ cu, (sta wg).cur = some cu) ∧
    (stw.fwState ≠ 2 ∧ 7 < 8 ∧ (0x80 : BitVec 8).getLsbD 7 = true ∧ ∀ q, 7 < q → (0x80 : BitVec 8).getLsbD q = false) ∧
    (stw.fwState ≠ 2 ∧ (∀ g ∈ stw.groups, g.evicting = none) ∧ (stw.core 0).completions = []) ∧
    (stheld.fwState ≠ 2 ∧ (∀ x ∈ stheld.groups, x.evicting = none) ∧ 0 < stheld.cores.length ∧ (stheld.core 0).completions = [.copy 0 7] ∧ (stheld.core 0).engine = [{ ccmd true none with done := true }] ∧
      (1 : BitVec 8).getLsbD 0 = true ∧ ∃ g, stheld.group? 0 0 = some g ∧ g.grid = 0 ∧ g.team = 0) ∧
    ∃ gr tm y, stwd.grid? gr.num = some gr ∧ stwd.team? gr.num tm.num = some tm ∧ stwd.watchdogDue tm = true ∧ y ∈ stwd.groups ∧ y.grid = gr.num ∧ y.team = tm.num ∧ tm.grid = gr.num ∧ 15 < y.w ∧
      (stwd.laneStall y 15).isSome = true := by
  refine ⟨?_, ⟨by decide +kernel, by decide +kernel, by decide +kernel⟩, ⟨by decide +kernel, _, rfl⟩, ⟨by decide +kernel, by decide, by decide, fun q h => ?_⟩, ⟨by decide +kernel, by decide +kernel, by decide +kernel⟩,
    ⟨by decide +kernel, by decide +kernel, by decide +kernel, by decide +kernel, by decide +kernel, by decide, { wg with cp := 1 }, by decide +kernel, rfl, rfl⟩,
    stwd.grids.headD placedGrid, stwd.teams.headD placedTeam, stwd.groups.headD wg, by decide +kernel⟩
  · intro x hx
    simp only [List.mem_cons, List.not_mem_nil, or_false] at hx
    rcases hx with rfl | rfl | rfl <;> refine ⟨by decide +kernel, wf_of (by decide +kernel), ?_⟩ <;> repeat' apply And.intro
    all_goals first | decide +kernel | (intro d e; cases e; exact Nat.zero_le _)
  · rw [BitVec.getLsbD]
    exact Nat.testBit_lt_two_pow (Nat.lt_of_lt_of_le (by decide : (0x80 : BitVec 8).toNat < 2 ^ 8) (Nat.pow_le_pow_right (by decide) h))
/-- One side of a state's dispatch. -/
def cut (todo : List TeamBox) : DieCut :=
  { placedRecord.newCut true with begun := true, todo := todo, requested := true }
/-- A grid whose die 0 has a team to place, and its machine, empty else. -/
def grd (todo : List TeamBox) : Grid := { placedGrid with pool := [(4, 4)], askers := [0], cuts := [cut todo, { placedRecord.newCut false with ended := true }] }
def std (todo : List TeamBox) : State := { stw with groups := [], teams := [], cur := none, grids := [grd todo], classRequests := [⟨1, 0, 7⟩] }
theorem witness_DispatchSteps :
    (let s := std [placedBox]
     ∃ g1, s.NextTeam 0 (grd [placedBox]) (cut [placedBox]) placedBox ∧ (s.updCut 0 0 (DieCut.choose placedRecord)).grid? 0 = some g1 ∧
      (s.updCut 0 0 (DieCut.choose placedRecord)).placing g1 0 (cut [placedBox]).last 16 (ceilDiv 16 16) 0 (min (cut [placedBox]).cls s.cap) = .cores [(0, [0])]) ∧
    ((std []).grid? (grd []).num = some (grd []) ∧ 0 < 2 ∧ (grd []).cuts[0]? = some (cut []) ∧ (grd []).record.reach ≠ 2 ∧ (grd []).cancelSeen = false ∧ (cut []).requested = true ∧
      (grd []).askers.head? = some 0) ∧
    ((std []).grid? (grd []).num = some (grd []) ∧ 1 < 2 ∧ (∃ c, (grd []).cuts[1]? = some c ∧ (c.requested = false ∨ (grd []).askers.head? ≠ some 1)) ∧ (grd []).record.reach ≠ 2) ∧
    (let g := { grd [] with record := { placedRecord with reach := 2 } }
     let s := { std [] with grids := [g] }
     s.grid? g.num = some g ∧ g.cuts[0]? = some (cut []) ∧ g.record.reach = 2 ∧ g.cancelSeen = false ∧ (cut []).requested = true ∧ g.askers.head? = some 0) ∧
    ∃ r, (std []).classRequests.find? (fun x => x.die == 1) = some r := by
  refine ⟨⟨((std [placedBox]).updCut 0 0 (DieCut.choose placedRecord)).grids.headD placedGrid, ?_, by decide +kernel, by decide +kernel⟩, ⟨by decide +kernel, by decide, by decide +kernel, by decide, rfl, rfl, rfl⟩,
    ⟨by decide +kernel, by decide, ⟨{ placedRecord.newCut false with ended := true }, rfl, Or.inl rfl⟩, by decide⟩, ⟨by decide +kernel, by decide +kernel, rfl, rfl, rfl, rfl⟩, ⟨1, 0, 7⟩, by decide +kernel⟩
  exact ⟨by decide +kernel, by decide +kernel, rfl, rfl, rfl, rfl, by decide +kernel, by decide +kernel, by decide +kernel, by decide, rfl, rfl, ⟨[], rfl⟩, by decide⟩
/-- A launch record: 16 threads, one group. -/
def recBytes : List Byte :=
  natLe 8 0x10000080 ++ [16, 1, 1, 1, 1, 1, 16, 1, 1, 16, 1, 1].flatMap (natLe 4) ++ natLe 2 16 ++ [16, 1, 0, 0, 8, 4] ++ natLe 8 0 ++ [32, 32, 6, 0] ++ List.replicate 0x3D 0 ++ [3] ++ List.replicate 6 0 ++
    [1] ++ List.replicate 23 0 ++ [1]
/-- A LOOP node with three signals to come, a WAIT-TIME node with one, and one armed with a successor. -/
def nodes : List (Nat × List Byte) :=
  [(0x10005000, [2, 0, 3, 0, 3, 0, 0]), (0x10005040, [3, 1, 2, 0, 1, 0, 1, 0, 2, 0]), (0x10005080, [0]), (0x100050C0, [1, 0, 1, 0, 0, 0, 0, 0] ++ List.replicate 24 0 ++ natLe 8 0x10003008 ++ natLe 8 9)]
/-- Device memory that holds them, and a context that maps a second range to the second tier. -/
def stfe (g : Grid) : State :=
  let s := std []
  { s with
    form := 2, grids := [g], classRequests := []
    mem := nodes.foldl (fun m x => Memory.writes m x.1 x.2) (Memory.writes (Memory.writes s.mem 0x200008 (natLe 8 (2 ^ 40 + 15))) 0x10001000 recBytes) }
/-- A launch request of a command queue. -/
def lreq (addr : DWord) : LaunchRequest := { addr := addr, fn := 0, queue := 7, issuer := .command 0 7 0, word := none, mark := none }
def snd (addr : DWord) (table : Option DWord) : Signal := { addr := addr, table := table, fn := 0, queue := 0, marks := [], word := none, entry := none, pc := 0 }
theorem witness_LaunchSteps :
    (let s := { stfe placedGrid with grids := [], requests := [lreq 0x10001000] }
     (∃ s1 rec, s.checkLaunch none 0 0x10001000 = (s1, .ok rec) ∧ rec.reach ≠ 2) ∧ s.grids = []) ∧
    (∃ s1, (stfe placedGrid).checkLaunch none 0 0x10001001 = (s1, .refused 5 0x10001001)) ∧
    (let g := { grd [] with released := false }
     let s := stfe g
     s.grid? g.num = some g ∧ g.record.reach = 0 ∧ g.cancelSeen = false ∧ g.record.start.toNat ≤ s.ptime.toNat ∧ (∀ m ∈ g.fenceMarks, s.markPending m = false) ∧ ∃ c0 c1, g.cuts = [c0, c1] ∧ c0.takes = true ∧ c1.takes = false) ∧
    (let s := stfe placedGrid
     s.grid? placedGrid.num = some placedGrid ∧ placedGrid.cancelled = none ∧ placedGrid.record.reach ≠ 2 ∧ s.gridOver placedGrid = true ∧ placedGrid.fenced = false) ∧
    (let g := { placedGrid with completing := true, fenced := true, fenceMarks := [4], record := { placedRecord with evop := 1, evaddr := 0x10003000, evval := 5 } }
     let s := stfe g
     s.grid? g.num = some g ∧ g.cancelled = none ∧ g.record.reach ≠ 2 ∧ g.completing = true ∧ g.fenced = true ∧ (∀ m ∈ g.fenceMarks, s.markPending m = false) ∧ g.record.evop = 1 ∧ g.record.evaddr ≠ 0 ∧ g.record.evaddr.toNat % 8 = 0 ∧ g.record.node = 0 ∧ g.issuer = .command 0 0 0 ∧ s.frozen.contains (0x40 + g.fn) = false ∧
      ∃ s0, s.storeBad g.fn (0x40 + g.fn) g.record.evaddr 8 = (s0, false) ∧ ∃ s1, s0.feStore (if g.record.evscope = 3 then some (96 * ((g.cuts.findIdx? DieCut.takes).getD 0)) else none) g.record.evscope g.fn g.record.evaddr (natLe 8 g.record.evval.toNat) = (s1, none)) ∧
    (let s := { stfe placedGrid with signals := [snd 0x10005000 none] }
     ∃ s1 raw s2, s.ending = none ∧ s.frozen.contains (0x40 + 0) = false ∧ s.feRead none 4 0 0x10005000 64 = (s1, .ok raw) ∧ ¬(field raw 0 1 = 2 ∧ 0 < field raw 0x2C 4) ∧ 2 ≤ field raw 4 2 ∧
      ({ s1 with signals := [] } : State).feWrite 0 (0x10005000 + 4) (natLe 2 (field raw 4 2 - 1)) = (s2, none)) ∧
    (let s := { stfe placedGrid with signals := [snd 0x10005040 (some 0x10005000)] }
     ∃ s1 raw s2, s.ending = none ∧ s.frozen.contains (0x40 + 0) = false ∧ s.feRead none 4 0 0x10005040 64 = (s1, .ok raw) ∧ field raw 0 1 = 3 ∧ field raw 4 2 = 1 ∧ (⟨0x10005040, 0x10005000, raw, 0, 0, none⟩ : Node).bad = none ∧
      ({ s1 with signals := [] } : State).feWrite 0 (0x10005040 + 4) (natLe 2 (field raw 2 2)) = (s2, none)) ∧
    (let s := { stfe placedGrid with armed := [{ addr := 0x10005040, table := 0x10005000, fn := 0, queue := 0, time := 0, entry := none, raw := nodes[1].2 }] }
     ∃ s1 raw, s.armed[0]? = some { addr := 0x10005040, table := 0x10005000, fn := 0, queue := 0, time := 0, entry := none, raw := nodes[1].2 } ∧ 0 ≤ s.ptime.toNat ∧ s.frozen.contains (0x40 + 0) = false ∧
      s.feRead none 4 0 0x10005040 64 = (s1, .ok raw) ∧ field raw 6 1 % 16 ≤ 6) ∧
    (let e : Ending := { node := 0x100050C0, table := 0x10005000, fn := 0, queue := 0, mark := 3, entry := none, raw := nodes[3].2 }
     let s := { stfe placedGrid with ending := some e }
     s.ending = some e ∧ s.markPending e.mark = false ∧ s.frozen.contains (0x40 + e.fn) = false ∧ (BitVec.ofNat 64 (field e.raw 0x20 8)).toNat % 8 = 0 ∧
      ∃ s1, ({ s with ending := none } : State).storeBad e.fn (0x40 + e.fn) (BitVec.ofNat 64 (field e.raw 0x20 8)) 8 = (s1, false) ∧ ∃ s2, s1.feStore none 4 e.fn (BitVec.ofNat 64 (field e.raw 0x20 8)) (natLe 8 (field e.raw 0x28 8)) = (s2, none)) ∧
    (let c : PrefetchCopy := { entry := 0x10006000, src := 0x40000000, dst := 0x10007000, len := 4, lost := false }
     let s := stfe placedGrid
     c.lost = false ∧ s.frozen.contains (0x40 + 0) = false ∧ ∃ s1, s.prefetchMove 0 c = (s1, none) ∧ ∃ s2, s1.feWrite 0 (c.entry + 0x14) (natLe 4 1) = (s2, none)) := by
  refine ⟨⟨⟨_, LaunchRecord.parse 0x10001000 (recBytes ++ List.replicate 87 0) [], fst_of (by decide +kernel), by decide +kernel⟩, rfl⟩, snd_of (by decide +kernel), ⟨by decide +kernel, rfl, rfl, by decide +kernel, by decide +kernel, _, _, rfl, rfl, rfl⟩,
    ⟨by decide +kernel, rfl, by decide, by decide +kernel, rfl⟩, ⟨by decide +kernel, rfl, by decide, rfl, rfl, by decide +kernel, rfl, by decide, by decide, rfl, rfl, by decide +kernel, _, fst_of (by decide +kernel), snd_of (by decide +kernel)⟩,
    ⟨_, nodes[0].2 ++ List.replicate 57 0, _, rfl, by decide +kernel, fst_of (by decide +kernel), by decide, by decide, fst_of (by decide +kernel)⟩,
    ⟨_, nodes[1].2 ++ List.replicate 54 0, _, rfl, by decide +kernel, fst_of (by decide +kernel), by decide, by decide, by decide +kernel, fst_of (by decide +kernel)⟩,
    ⟨_, nodes[1].2 ++ List.replicate 54 0, by decide +kernel, by decide, by decide +kernel, fst_of (by decide +kernel), by decide⟩,
    ⟨rfl, by decide +kernel, by decide +kernel, by decide, _, fst_of (by decide +kernel), snd_of (by decide +kernel)⟩, rfl, by decide +kernel, _, fst_of (by decide +kernel), snd_of (by decide +kernel)⟩
/-- A queue whose last ring entry holds these bytes. -/
def ring15 : Queue := { Queue.reset with base := 0x10008001, weight := 1, head := 15, tail := 16 }
def stq (bytes : List Byte) (f : Queue → Queue) (gs : List Grid) : State :=
  let s := std []
  { s with
    grids := gs
    mem := Memory.writes s.mem (0x10008000 + 960) bytes
    fns := s.fns.modify 0 (fun x => { x with queues := x.queues.set 7 (f ring15) }) }
/-- An entry of an op. -/
def ebytes (op : Nat) (a b : Nat) : List Byte := natLe 8 op ++ natLe 8 a ++ natLe 8 b
def ste (op a b : Nat) : State := stq (ebytes op a b) id []
theorem err_of {α β : Type} {x : Except α β} (h : (match x with | .ok _ => false | .error _ => true) = true) : ∃ a, x = .error a := by
  cases x with | ok _ => simp at h | error a => exact ⟨a, rfl⟩
/-- The entry at the head of a queue reads as this one. -/
def readIs (s : State) (fn q : Nat) (e : Entry) : Bool := match s.readCommand fn q with | .ok x => decide (x = e) | .error _ => false
theorem read_of {s : State} {fn q : Nat} {e : Entry} (h : readIs s fn q e = true) : s.readCommand fn q = .ok e := by
  unfold readIs at h
  split at h <;> simp_all
theorem takes_of {s : State} {fn q op : Nat} {e : Entry} (h : (s.queueOpen fn q && readIs s fn q e && decide (e.op = op) && e.legal) = true) : s.Takes fn q op e := by
  simp only [Bool.and_eq_true, decide_eq_true_eq] at h
  exact ⟨h.1.1.1, read_of h.1.1.2, h.1.2, h.2⟩
theorem witness_CommandSteps :
    ((ste 1 0x300000 1).Takes 0 7 1 ⟨1, 0x300000, 1, 0⟩ ∧ ((ste 1 0x300000 1).queue 0 7).block = .none ∧
      (((ste 1 0x300000 1).headMoved 0 7)).earlierRuns 0 7 (((ste 1 0x300000 1).headMoved 0 7).queue 0 7).head.toNat = false) ∧
    (ste 2 0x10001000 0).Takes 0 7 2 ⟨2, 0x10001000, 0, 0⟩ ∧ (ste 3 0x10005000 0).Takes 0 7 3 ⟨3, 0x10005000, 0, 0⟩ ∧
    (∃ g, (stq (ebytes 4 0 0) id [placedGrid]).Takes 0 7 4 ⟨4, 0, 0, 0⟩ ∧ (stq (ebytes 4 0 0) id [placedGrid]).grid? 0 = some g) ∧
    ((ste 5 0x10003000 0).Takes 0 7 5 ⟨5, 0x10003000, 0, 0⟩ ∧ ∃ s1, ((ste 5 0x10003000 0).headMoved 0 7).feRead none 6 0 0x10003000 8 = (s1, .ok (natLe 8 0))) ∧
    (let s := stq [] (fun x => { x with block := .waitev 0x10003000 0 }) []
     (s.queue 0 7).block = .waitev 0x10003000 0 ∧ ∃ s1, s.feRead none 6 0 0x10003000 8 = (s1, .ok (natLe 8 0))) ∧
    (ste 6 0x10003000 5).Takes 0 7 6 ⟨6, 0x10003000, 5, 0⟩ ∧
    (let s := stq [] (fun x => { x with signals := [{ entry := 0, addr := 0x10003000, value := 5, mark := some 3 }] }) []
     (∃ p, (s.queue 0 7).signals = [p] ∧ s.earlierRuns 0 7 p.entry = false ∧ p.mark = some 3) ∧ s.markPending 3 = false ∧ s.frozen.contains (0x40 + 0) = false ∧ ∃ s0, s.storeBad 0 (0x40 + 0) 0x10003000 8 = (s0, false) ∧ ∃ s1, s0.feStore none 6 0 0x10003000 (natLe 8 5) = (s1, none)) ∧
    (ste 7 0x10002000 0).Takes 0 7 7 ⟨7, 0x10002000, 0, 0⟩ ∧ ((ste 8 0 0).Takes 0 7 8 ⟨8, 0, 0, 0⟩ ∧ ((ste 8 0 0).queue 0 7).block = .none) ∧
    (let s := stq [] (fun x => { x with block := .cinv 3 }) []
     (s.queue 0 7).block = .cinv 3 ∧ s.markPending 3 = false) ∧
    ((ste 9 0 0).queueOpen 0 7 = true ∧ (ste 9 0 0).readCommand 0 7 = .ok ⟨9, 0, 0, 0⟩ ∧ (ste 0 0 0).queueOpen 0 7 = true ∧ (ste 0 0 0).readCommand 0 7 = .ok ⟨0, 0, 0, 0⟩) ∧
    (let s := stq [] (fun x => { x with base := 0x00FFFFFFFFFFFFC1 }) []
     s.queueOpen 0 7 = true ∧ ∃ a, s.readCommand 0 7 = .error a) ∧
    ({ ste 1 0 0 with access := [⟨0x40, 0, 0xFFF, true, true⟩] }.queueReady 0 7 = true ∧ { ste 1 0 0 with access := [⟨0x40, 0, 0xFFF, true, true⟩] }.ringForbidden 0 7 = true) ∧
    ((ste 2 0x10001000 1).queueOpen 0 7 = true ∧ (ste 2 0x10001000 1).readCommand 0 7 = .ok ⟨2, 0x10001000, 1, 0⟩) ∧
    (let s := ste 0 0 0
     0 < s.fns.length ∧ 7 < (s.fn 0).queues.length ∧ (s.fn 0).ready = true ∧ (s.queue 0 7).halted = false ∧ ¬2 ^ (s.queue 0 7).size.toNat < ((31 : Word) - (s.queue 0 7).head).toNat ∧
      2 ^ (s.queue 0 7).size.toNat < ((32 : Word) - (s.queue 0 7).head).toNat) ∧
    (let s := stq [] (fun x => { x with halted := true, tail := 31 }) []
     (s.fn 0).ready = true ∧ (s.queue 0 7).halted = true ∧ ((s.queue 0 7).tail - (s.queue 0 7).head).toNat ≤ 2 ^ (s.queue 0 7).size.toNat) :=
  ⟨⟨takes_of (by decide +kernel), by decide +kernel, by decide +kernel⟩, takes_of (by decide +kernel), takes_of (by decide +kernel), ⟨placedGrid, takes_of (by decide +kernel), by decide +kernel⟩,
   ⟨takes_of (by decide +kernel), snd_of (by decide +kernel)⟩, ⟨by decide +kernel, snd_of (by decide +kernel)⟩, takes_of (by decide +kernel),
   ⟨⟨{ entry := 0, addr := 0x10003000, value := 5, mark := some 3 }, by decide +kernel, by decide +kernel, rfl⟩, by decide +kernel, by decide +kernel, _, fst_of (by decide +kernel), snd_of (by decide +kernel)⟩,
   takes_of (by decide +kernel), ⟨takes_of (by decide +kernel), by decide +kernel⟩, ⟨by decide +kernel, by decide +kernel⟩, ⟨by decide +kernel, read_of (by decide +kernel), by decide +kernel, read_of (by decide +kernel)⟩, ⟨by decide +kernel, err_of (by decide +kernel)⟩, ⟨by decide +kernel, by decide +kernel⟩, ⟨by decide +kernel, read_of (by decide +kernel)⟩,
   ⟨by decide +kernel, by decide +kernel, by decide +kernel, by decide +kernel, by decide +kernel, by decide +kernel⟩, by decide +kernel, by decide +kernel, by decide +kernel⟩
/-- A grid of pod reach, and a pod of two devices of which this is the root. -/
def gpod : Grid := { grd [] with released := false, record := { placedRecord with reach := 2, start := 100 } }
def stp (g : Grid) : State := { std [] with members := 3, grids := [g], podOut := [⟨100, 0, 0⟩] }
theorem reported_of {s : State} {g : Grid} (h : (g.record.reach = 2 ∧ s.root = true) ∧ ∀ d ∈ g.record.devices s.members, d ∈ g.reporters ∨ d ∈ s.lostPeers) : s.Reported g :=
  ⟨fun _ => h.2, fun n => absurd h.1 n⟩
theorem witness_PodSteps :
    ((stp gpod).root = true ∧ (stp gpod).inPod = true ∧ (stp gpod).grid? (PodLaunch.mk 0 (stp gpod).dev 0).grid = some gpod ∧ (stp gpod).reachOk gpod.record = true ∧
      (stp gpod).keyReady 0 = true ∧ (stp gpod).residentOk gpod.record (gpod.record.dies none) = true ∧ gpod.released = false ∧ gpod.cancelSeen = false ∧ gpod.cuts.any DieCut.takes = true ∧ (stp gpod).podReleased = none ∧
      (∀ x ∈ (stp gpod).podHeld, x.grid ≠ (PodLaunch.mk 0 (stp gpod).dev 0).grid) ∧ ∀ x ∈ (stp gpod).podOut, x.issuer = (stp gpod).dev) ∧
    ((stp gpod).grid? (⟨100, 0, 0⟩ : PodLaunch).grid = some gpod ∧ ⟨100, 0, 0⟩ ∉ (stp gpod).podHeld ∧ (∀ p, (stp gpod).podReleased = some p → ¬(⟨100, 0, 0⟩ : PodLaunch).Precedes p)) ∧
    (let s := { stp gpod with podReleased := some ⟨100, 0, 1⟩ }
     s.grid? (⟨100, 0, 0⟩ : PodLaunch).grid = some gpod ∧ ⟨100, 0, 0⟩ ∉ s.podHeld ∧ s.podReleased = some ⟨100, 0, 1⟩ ∧ (⟨100, 0, 0⟩ : PodLaunch).Precedes ⟨100, 0, 1⟩) ∧
    (let s := { stp gpod with podHeld := [⟨0, 0, 0⟩, ⟨0, 0, 1⟩] }
     s.podHeld = [⟨0, 0, 0⟩, ⟨0, 0, 1⟩] ∧ (s.lock = true ∨ s.root = true) ∧ 0 ≤ s.ptime.toNat ∧ s.grid? (⟨0, 0, 0⟩ : PodLaunch).grid = some gpod) ∧
    (∀ f : Bool, let g := { gpod with released := true, fenced := f, fenceMarks := [9], cuts := gpod.cuts.map (fun c => { c with ended := true, todo := [], requested := false }) }
      (stp g).grid? g.num = some g ∧ g.record.reach = 2 ∧ g.cancelled = none ∧ (∃ d, (stp g).root = true ∧ d ≠ (stp g).dev) ∧ g.partDone = false ∧ g.cuts.any DieCut.takes = true ∧ g.fenced = f ∧ (stp g).gridOver g = true ∧ ∀ m ∈ g.fenceMarks, (stp g).markPending m = false) ∧
    (∀ i ∈ [Issuer.remote 1, .command 0 0 0], let g := { gpod with partDone := true, issuer := i, reporters := [0, 1] }
      (stp g).grid? g.num = some g ∧ g.record.reach = 2 ∧ (stp g).Reported g ∧ g.cancelled = none) ∧
    (∀ b : Bool, let g := { gpod with partDone := true, cancelled := some 0x10, reporters := [0, 1] }
      let s := { stp g with root := b }
      s.grid? g.num = some g ∧ g.record.reach = 2 ∧ s.Reported g ∧ (∀ d, g.issuer ≠ .remote d) ∧ g.cancelled ≠ none ∧ s.root = b) ∧
    ((∃ d, Issuer.remote 1 = .remote d) ∧ ∀ d, Issuer.command 0 0 0 ≠ .remote d) ∧
    (∀ r ∈ [0, 2], let g := { gpod with cancelled := some 0x10, record := { gpod.record with reach := r } }
      (stp g).grid? g.num = some g ∧ (g.record.reach ≠ 2 ∨ (stp g).root = true) ∧ g.cancelled = some (0x10 : BitVec 8).toNat ∧ g.cancelSeen = false ∧ g.completing = false ∧ g.partDone = false) ∧
    (let g := gpod
     let s := { stp g with root := false, dev := 1 }
     s.grid? g.num = some g ∧ (g.record.reach = 2 ∧ s.root = false ∧ 0 ∉ s.lostPeers) ∧ g.cancelSeen = false ∧ g.completing = false ∧ (∀ d, g.issuer ≠ .remote d) ∧ g.fn < s.fns.length ∧ g.queue < (s.fn g.fn).queues.length) ∧
    (∀ f : Bool, let g := { gpod with cancelSeen := true, cancelled := some 0x10, fenced := f, fenceMarks := [9] }
      (stp g).grid? g.num = some g ∧ g.cancelSeen = true ∧ (∃ d, g.record.reach = 2 ∧ d ≠ (stp g).dev ∧ d ∉ g.reporters) ∧ g.partDone = false ∧ (∀ t ∈ (stp g).teams, t.grid ≠ g.num) ∧ (∀ u ∈ (stp g).units, u.grid ≠ g.num) ∧ g.fenced = f ∧
        ∀ m ∈ g.fenceMarks, (stp g).markPending m = false) ∧
    (let g := { gpod with cancelled := some 0x10, partDone := true, passed := true }
     let s := { stp g with root := false, dev := 1 }
     s.grid? g.num = some g ∧ (∀ d, g.issuer ≠ .remote d) ∧ s.Reported g ∧ s.root = false ∧ g.passed = true ∧ g.completing = false) ∧
    ∀ f : Bool, let g := { gpod with cancelled := some 0x10, partDone := true, reporters := [0, 1], completing := f, fenceMarks := [9] }
      (stp g).grid? g.num = some g ∧ g.cancelled = some 0x10 ∧ (∀ d, g.issuer ≠ .remote d) ∧ (stp g).Reported g ∧ g.completing = f ∧ g.record.evop = 0 ∧ ∀ m ∈ g.fenceMarks, (stp g).markPending m = false := by
  refine ⟨⟨by decide +kernel, by decide +kernel, by decide +kernel, by decide +kernel, by decide +kernel, by decide +kernel, rfl, rfl, by decide +kernel, rfl, by decide +kernel, by decide +kernel⟩,
    ⟨by decide +kernel, by decide +kernel, fun p e => (by cases e)⟩, ⟨by decide +kernel, by decide +kernel, rfl, Or.inr ⟨rfl, Or.inr ⟨rfl, by decide⟩⟩⟩,
    ⟨rfl, by decide +kernel, by decide +kernel, by decide +kernel⟩, ?_, ?_, ?_, ⟨⟨_, rfl⟩, by simp⟩, ?_, ⟨by decide +kernel, by decide +kernel, rfl, rfl, fun d e => (by cases e), by decide +kernel, by decide +kernel⟩, ?_,
    ⟨by decide +kernel, fun d e => (by cases e), ⟨fun h => absurd h.2 (by decide), fun _ => Or.inl rfl⟩, rfl, rfl, rfl⟩, ?_⟩
  · intro f; cases f <;> exact ⟨by decide +kernel, rfl, rfl, ⟨1, by decide +kernel, by decide⟩, rfl, by decide +kernel, rfl, by decide +kernel, by decide +kernel⟩
  · intro i hi
    simp only [List.mem_cons, List.not_mem_nil, or_false] at hi
    rcases hi with rfl | rfl <;> exact ⟨by decide +kernel, rfl, reported_of (by decide +kernel), rfl⟩
  · intro b
    cases b <;> exact ⟨by decide +kernel, rfl, ⟨fun _ => by decide +kernel, fun _ => Or.inl rfl⟩, fun d e => (by cases e), by decide, rfl⟩
  · intro i hi
    simp only [List.mem_cons, List.not_mem_nil, or_false] at hi
    rcases hi with rfl | rfl <;> exact ⟨by decide +kernel, by decide +kernel, rfl, rfl, rfl, rfl⟩
  · intro f; cases f <;> exact ⟨by decide +kernel, rfl, ⟨1, rfl, by decide, by decide +kernel⟩, rfl, by decide +kernel, by decide +kernel, rfl, by decide +kernel⟩
  · intro f; cases f <;> exact ⟨by decide +kernel, rfl, fun d e => (by cases e), reported_of (by decide +kernel), rfl, rfl, by decide +kernel⟩
/-- Cluster 0 moves to pool 5 with a team of class 6 on it. -/
def stmv (cls : Nat) : State := { stw with clusters := stw.clusters.set 0 { Cluster.reset with move := some 5 }, teams := [{ placedTeam with cls := cls }] }
theorem highest_of {s : State} {n m : Nat} {x : Team} {g : Group} (h : s.teams = [x] ∧ g ∈ s.groups ∧ g.grid = x.grid ∧ g.team = x.num ∧ g.core / 8 = n ∧ x.cls = m) : s.Highest n m := by
  obtain ⟨h1, h2, h3, h4, h5, h6⟩ := h
  refine ⟨⟨x, by simp [h1], ⟨g, h2, h3, h4, h5⟩, h6⟩, fun y hy _ => ?_⟩
  rw [h1] at hy; simp only [List.mem_cons, List.not_mem_nil, or_false] at hy; subst hy; exact Nat.le_of_eq h6
/-- Cluster 0 is idle, and its group has a word to issue. -/
def stas : State := { stw with clusters := stw.clusters.set 0 { Cluster.reset with idle := true }, cur := none }
theorem witness_PowerAndTimeSteps :
    (∀ m ∈ [4, 5], 0 < (stmv m).clusters.length ∧ ((stmv m).cluster 0).move = some 5 ∧ (stmv m).Highest 0 m) ∧
    (let bs := List.replicate 24 (20833 : BitVec 24)
     bs.length = 24 ∧ (∀ b ∈ bs, 64 ≤ b.toNat) ∧ 64 * ((bs.take 12).map BitVec.toNat).sum ≤ 16000000 ∧ 64 * ((bs.drop 12).map BitVec.toNat).sum ≤ 16000000) ∧
    ({ stw with hold := true }.hold = true ∧ stw.hold = false ∧ (List.map (fun i => (stas.admitted + 1 + i) % 24) (List.range 24)).filter stas.asks = [0] ∧
      (List.map (fun i => (stw.admitted + 1 + i) % 24) (List.range 24)).filter stw.asks = [] ∧ stas.clusters.length = 24) ∧ (∀ b : Bool, { stw with root := false, lock := b }.root = false ∧ { stw with root := false, lock := b }.lock = b) ∧
    (let s := { stw with lock := true, podHeld := [⟨0, 0, 0⟩, ⟨2 ^ 60, 0, 1⟩] }
     s.lock = true ∧ s.podHeld.Pairwise (fun a b => a.start ≤ b.start) ∧ (∃ k ∈ s.podHeld, k.start ≤ s.ptime.toNat)) ∧
    (127 < 128 ∧ (0x80000000000000000000000000000001 : BitVec 128).getLsbD 127 = true ∧ (0x80000000000000000000000000000001 : BitVec 128).getLsbD 0 = true) := by
  refine ⟨?_, ⟨List.length_replicate, fun b hb => by rw [List.eq_of_mem_replicate hb]; decide, by decide +kernel, by decide +kernel⟩, ⟨rfl, rfl, by decide +kernel, by decide +kernel, by decide +kernel⟩, fun b => ⟨rfl, rfl⟩, ⟨rfl, by decide +kernel, by decide +kernel⟩, by decide, by decide +kernel, by decide +kernel⟩
  intro m hm
  simp only [List.mem_cons, List.not_mem_nil, or_false] at hm
  rcases hm with rfl | rfl <;> exact ⟨by decide +kernel, by decide +kernel, highest_of (x := { placedTeam with cls := _ }) (g := wg) ⟨rfl, by decide +kernel, rfl, rfl, rfl, rfl⟩⟩
theorem witness_LinkAndFirmwareSteps :
    (let s := { stp gpod with grids := [gpod, { gpod with num := 1, record := placedRecord }] }
     (s.grids.map Grid.num).Nodup ∧ s.Lost [1, 5] 1 ∧ ¬s.Lost [1, 5] 5 ∧ gpod.record.reach = 2 ∧ 1 ∈ gpod.record.devices s.members) ∧
    (let s := { stp gpod with root := false, dev := 1 }
     s.Lost [0] 0 ∧ gpod.record.reach = 2 ∧ (s.grids.map Grid.num).Nodup) ∧
    State.reset.fwState = 0 ∧ ({ State.reset with fwState := 2 }.fwState ≠ 0 ∧ Memory.wf { State.reset with fwState := 2 }.mem = true) ∧ ({ State.reset with fwState := 1 }.fwState = 1 ∧ ({ State.reset with fwState := 1 }.fn 16).ready = false) ∧
    (1 ≤ 16 ∧ 16 < 17 ∧ ((stp gpod).grids.map Grid.num).Nodup) :=
  ⟨⟨by decide +kernel, ⟨by decide, by decide +kernel, by decide +kernel⟩, fun h => absurd h.2.2 (by decide +kernel), rfl, by decide +kernel⟩, ⟨⟨by decide, by decide, by decide +kernel⟩, rfl, by decide +kernel⟩, rfl, ⟨by decide, rfl⟩, ⟨rfl, by decide +kernel⟩, by decide, by decide, by decide +kernel⟩
/-- A launch of one register, and its group. -/
def rsmall : LaunchRecord := { placedRecord with nv := 1, ns := 0, nt := 0, nac := 0 }
def wsmall : Group := newGroup 0 rsmall placedBox 0 0 16 0 0 0
/-- Core 0's partition 0 is stopped, with something in its dev queue. -/
def stdu : State :=
  let s := sta wsmall
  { s with
    grids := [{ placedGrid with record := rsmall }]
    cores := s.cores.modify 0 (fun k => { k with dstop := 1, prop := [{ mark := none, seq := 1, unit := 0x2000, reach := 1, last := 6, slot := 0, shown := none }] })
    writes := [{ seq := 1, unit := 0x2000, bytes := List.replicate 32 7, origin := some 0, cmps := [0], reach := 1 }], co := 1
    bitErrors := [⟨0x3000, false, false⟩, ⟨0x3040, true, false⟩] }
/-- And an access table of one master. -/
def stda : State := { stdu with cur := none, access := [{ master := 0x41, lo := 0, hi := 0xFFF, read := true, write := false }] }
/-- Census entries that differ at the second, and are checked. -/
def stce : State :=
  let s := stw
  { s with
    mem := Memory.writes (Memory.writes s.mem 0x10006000 (List.replicate 64 1)) 0x10007000 (List.replicate 48 1)
    fns := s.fns.modify 0 (fun f => { f with censctl := 2 ^ 33, censbase := 0x10006000, censref := 0x10007000 }) }
theorem witness_DumpAndSaveAreas :
    ((0x10008000 : DWord).toNat % 64 = 0 ∧ stdu.fwState ≠ 2 ∧
      ∃ s1, stdu.writeVa none 0 0 0x10008000 ((stdu.stoppedGroups 0).flatMap stdu.dumpGroup ++ stdu.dumpQueue 0) = (s1, none)) ∧
    ((0x10008020 : DWord).toNat % 64 ≠ 0 ∨ stdu.fwState = 2) ∧ (wsmall.Wf ∧ (stdu.saveArea wsmall).length < 2 ^ 32) :=
  ⟨⟨by decide +kernel, by decide +kernel, snd_of (by decide +kernel)⟩, Or.inl (by decide), wf_of (by decide +kernel), by decide +kernel⟩
theorem forbids_of {s : State} {m pa : Nat} {w : Bool} (h : ((s.access.any (fun r => decide (r.master = m))) && s.access.all (fun r => decide (r.master = m → r.lo ≤ pa → pa ≤ r.hi → (if w then r.write else r.read) = false))) = true) :
    s.Forbids m pa w := by
  simp only [Bool.and_eq_true, List.any_eq_true, List.all_eq_true, decide_eq_true_eq] at h
  exact h
theorem not_forbids {s : State} {m pa : Nat} {w : Bool} (h : s.access.any (fun r => decide (r.master = m ∧ r.lo ≤ pa ∧ pa ≤ r.hi ∧ (if w then r.write else r.read) = true)) = true) : ¬s.Forbids m pa w := by
  simp only [List.any_eq_true, decide_eq_true_eq] at h
  obtain ⟨r, hr, h1, h2, h3, h4⟩ := h
  intro f
  rw [f.2 r hr h1 h2 h3] at h4
  cases h4
theorem witness_ErrorAndCensusSteps :
    (stdu.fwState ≠ 2 ∧ { stdu with fwState := 2 }.fwState = 2) ∧ stdu.errorsAt 0x3080 = [] ∧
    (stdu.paPresent 0x301F = true ∧ stdu.unitPending (Machine.unitOf 0x301F) = false ∧ stdu.fns ≠ [] ∧ stdu.errorsAt 0x301F ≠ [] ∧ ∀ e ∈ stdu.errorsAt 0x301F, e.uncorrectable = false) ∧
    (stdu.paPresent 0x3040 = true ∧ stdu.unitPending (Machine.unitOf 0x3040) = false ∧ (stdu.errorsAt 0x3040).find? BitError.uncorrectable = some ⟨0x3040, true, false⟩ ∧ stdu.fns ≠ []) ∧
    (stda.cur = none ∧ ¬stda.Forbids 0x41 0xFFF false ∧ stda.Forbids 0x41 0x1000 false ∧ stda.Forbids 0x41 0 true ∧ (stda.fn 0).fltbase.getLsbD 0 = false ∧ stda.frozen.contains 0x41 = false) ∧
    (let s := { stda with fns := stda.fns.modify 0 (fun f => { f with fltbase := 0x10008001, fltctl := 4, flttail := 15 }) }
     s.cur = none ∧ s.Forbids 0x41 0x1000 ((0 : BitVec 3).getLsbD 0 || (0 : BitVec 3).getLsbD 2) ∧ (s.fn 0).fltbase.getLsbD 0 = true ∧ s.frozen.contains 0x41 = false ∧ ((s.fn 0).flttail - (s.fn 0).flthead).toNat ≠ 2 ^ 4 ∧
      ∃ s1, ({ s with frozen := 0x41 :: s.frozen } : State).storeBad 0 0x40 0x100083C0 64 = (s1, false) ∧ ∃ s2, s1.writeVa none 0 0x40 0x100083C0 (List.replicate 64 1) = (s2, none)) ∧
    (∃ cu g, (stt wg 1).cur = some cu ∧ (stt wg 1).group? cu.core cu.slot = some g) ∧
    (let s := { stda with access := [{ master := 0x60, lo := 0, hi := 0xFFF, read := true, write := false }] }
     s.paPresent 0x2000 = true ∧ s.paPresent 0x2001 = true ∧ (∀ w ∈ s.writes, w.bytes.length = unitSize w.unit) ∧ 0x60 ∉ s.frozen ∧ s.Forbids 0x60 0x2000 true ∧ (s.fn 0).fltbase.getLsbD 0 = false ∧
      (∀ x ∈ stdu.access, x.master ≠ 0x60) ∧ 0x60 ∈ { stdu with frozen := [0x60] }.frozen) ∧
    (let s := { stdu with frozen := [0x41], frozenHeld := [(0x41, 0)] }
     s.frozen.contains (0x41 : BitVec 8).toNat = true ∧ s.fwState ≠ 2 ∧ (s.grids.map Grid.num).Nodup) ∧
    ([(1 : Byte), 2] ≠ [] ∧ isHostKey (2 ^ 60 + 7) = true ∧ isHostKey (2 ^ 60 + 7 + 2) = true ∧ ∀ w ∈ stdu.writes, w.bytes.length = unitSize w.unit) ∧
    (∃ a b, stce.fwState ≠ 2 ∧ 1 < (stce.fn 0).censctl.toNat / 2 ^ 32 ∧ stce.censEntry 0 (stce.fn 0).censbase 1 = some a ∧ stce.censEntry 0 (stce.fn 0).censref 1 = some b ∧ a ≠ b ∧
      ∀ j < 1, ∀ x y, stce.censEntry 0 (stce.fn 0).censbase j = some x → stce.censEntry 0 (stce.fn 0).censref j = some y → x = y) ∧
    ∀ i < (stdu.fn 0).censctl.toNat / 2 ^ 32, ∀ x y, stdu.censEntry 0 (stdu.fn 0).censbase i = some x → stdu.censEntry 0 (stdu.fn 0).censref i = some y → x = y := by
  refine ⟨⟨by decide +kernel, rfl⟩, by decide +kernel, ⟨by decide +kernel, by decide +kernel, by decide +kernel, by decide +kernel, by decide +kernel⟩, ⟨by decide +kernel, by decide +kernel, by decide +kernel, by decide +kernel⟩,
    ⟨rfl, not_forbids (by decide +kernel), forbids_of (by decide +kernel), forbids_of (by decide +kernel), by decide +kernel, by decide +kernel⟩,
    ⟨rfl, forbids_of (by decide +kernel), by decide +kernel, by decide +kernel, by decide +kernel, _, fst_of (by decide +kernel), snd_of (by decide +kernel)⟩, ⟨_, _, rfl, by rfl⟩,
    ⟨by decide +kernel, by decide +kernel, by decide +kernel, by decide +kernel, forbids_of (by decide +kernel), by decide +kernel, by decide +kernel, by decide⟩,
    ⟨by decide +kernel, by decide +kernel, by decide +kernel⟩, ⟨by decide, by decide +kernel, by decide +kernel, by decide +kernel⟩,
    ⟨List.replicate 32 1, List.replicate 16 1 ++ List.replicate 16 0, by decide +kernel, by decide +kernel, by decide +kernel, by decide +kernel, by decide +kernel, ?_⟩, ?_⟩
  · intro j hj x y hx hy
    obtain rfl : j = 0 := by omega
    have e1 : stce.censEntry 0 (stce.fn 0).censbase 0 = some (List.replicate 32 1) := by decide +kernel
    have e2 : stce.censEntry 0 (stce.fn 0).censref 0 = some (List.replicate 32 1) := by decide +kernel
    rw [e1] at hx; rw [e2] at hy; cases hx; cases hy; rfl
  · intro i hi
    exact absurd hi (Nat.not_lt.2 (Nat.le_trans (Nat.le_of_eq (by decide +kernel : (stdu.fn 0).censctl.toNat / 2 ^ 32 = 0)) (Nat.zero_le i)))
/-- The firmware runs, and queue 7 of the physical function is halted. -/
def stfw : State :=
  let s := stq [] (fun x => { x with halted := true }) []
  { s with fwState := 1 }
theorem witness_RegisterResults :
    stfw.fwState = 1 ∧ 0 < stfw.fns.length ∧ 7 < (stfw.fn 0).queues.length ∧ (stfw.fn 0).ready = true ∧ (stfw.queue 0 7).halted = true ∧ 15 < (stfw.fn 0).progs.length ∧
    191 < stfw.cores.length ∧ 3 < (stfw.core 191).bps.length ∧
    (∀ v ∈ [(3 : DWord), 17], v.toNat % 32 < 4 ∨ 16 < v.toNat % 32) ∧ (∀ v ∈ [(4 : DWord), 16], 4 ≤ v.toNat % 32 ∧ v.toNat % 32 ≤ 16) ∧
    (∀ v ∈ [(3 : DWord), 13], v.toNat % 32 < 4 ∨ 12 < v.toNat % 32) ∧ (∀ v ∈ [(4 : DWord), 12], 4 ≤ v.toNat % 32 ∧ v.toNat % 32 ≤ 12) ∧
    ((63 : DWord).toNat % 64 ≠ 0 ∧ (64 : DWord).toNat % 64 = 0) ∧ ((4095 : DWord).toNat % 4096 ≠ 0 ∧ (4096 : DWord).toNat % 4096 = 0) ∧
    (∀ v ∈ [(32 : DWord), 0x0100000000000000], v.toNat % 64 ≠ 0 ∨ 2 ^ 56 ≤ v.toNat) ∧ (∀ v ∈ [(64 : DWord), 0x00FFFFFFFFFFFFC0], v.toNat % 64 = 0 ∧ v.toNat < 2 ^ 56) ∧
    (State.reset.fwState ≠ 1 ∧ ¬((0 : Nat) = 0 ∧ 0x0400 = 0x04F0)) :=
  ⟨rfl, by decide +kernel, by decide +kernel, by decide +kernel, by decide +kernel, by decide +kernel, by decide +kernel, by decide +kernel, by simp, by simp, by simp, by simp, by decide, by decide, by simp, by simp,
   by decide, by decide⟩
/-- Two queues of function 0 take slices, queue 0 two in turn, and queue 7 one. -/
def stsl : State :=
  { stw with
    groups := [], teams := [], grids := [], sliceOwner := some (0, 0), slicePos := 1
    fns := stw.fns.modify 0 (fun f => { f with queues := (f.queues.set 0 { Queue.reset with weight := 2 }).set 7 { Queue.reset with weight := 1 } }) }
/-- A group marked for eviction, whose lanes wait on an address, or run. -/
def wev (r : Run) : Group := { wsmall with evicting := some 0, lanes := wsmall.lanes.map (fun x => { x with run := r }) }
def stev (r : Run) : State :=
  { sta (wev r) with
    cur := none, grids := [{ placedGrid with record := rsmall }]
    fns := stw.fns.modify 0 (fun f => { f with prepool := 0x10009001, presize := 0x4000 }) }
/-- What it is evicted as. -/
def unt (r : Run) (wake pending : Bool) : EvictedUnit :=
  { grid := 0, fn := 0, queue := 0, die := 0, block := 0x10009000, size := 4096, fl := 0, teams := [0], groups := [wev r], windows := [], regions := [], cores := [0], marks := [3], evt := 5,
    runnable := false, wake := wake, pending := pending, moving := [] }
def stun (r : Run) (wake pending : Bool) (mask : BitVec 192) : State :=
  { stev r with groups := [], units := [unt r wake pending], grids := [{ placedGrid with record := { rsmall with pmask := mask } }] }
/-- A wait on an address that is 0, for another value. -/
def awt (cmp : DWord) : Run := .address { wwait true none with key := none, cmp := cmp }
def eu (r : Run) : EvictUnit := (stev r).unitOf { placedGrid with record := rsmall } placedTeam
theorem not_mayWake {s : State} {fn : Nat} {w : WtaWait} (hd : w.deadline = none) (h : (match (s.readVa none w.scope fn (0x40 + fn) w.va w.size).2 with | .ok bs => decide (BitVec.ofNat 64 (leNat bs) = w.cmp) | _ => true) = true) :
    ¬s.MayWake fn w := by
  rintro (⟨d, e, -⟩ | ⟨-, s1, bs, e, n⟩)
  · rw [hd] at e; cases e
  · rw [e] at h; simp at h; exact n h
theorem mayWake {s : State} {fn : Nat} {w : WtaWait} (hw : w.scratch = false) (h : (match (s.readVa none w.scope fn (0x40 + fn) w.va w.size).2 with | .ok bs => decide (BitVec.ofNat 64 (leNat bs) ≠ w.cmp) | _ => false) = true) :
    s.MayWake fn w := by
  refine Or.inr ⟨hw, ?_⟩
  split at h
  · rename_i bs e; exact ⟨_, bs, Prod.ext rfl e, by simpa using h⟩
  · cases h
theorem witness_PreemptionSteps :
    (stsl.units = [] ∧ stsl.slices[1]? = some (0, 0, 1) ∧ stsl.sliceOwner = some (0, 0) ∧ stsl.slicePos = 1 ∧ stsl.slices[(1 + 1) % stsl.slices.length]? = some (0, 7, 0) ∧
      ∀ g ∈ stsl.grids, ¬(g.fn = 0 ∧ g.queue = 7)) ∧
    (stw.units = [] ∧ (stw.groups.map (fun x => (x.core, x.slot))).Nodup ∧ stw.group? 0 0 = some wg) ∧
    (let s := stev (awt 1)
     let u := eu (awt 1)
     (∃ g x, s.grid? g.num = some g ∧ s.team? g.num x.num = some x ∧ u = s.unitOf g x ∧ g.fn = 0 ∧ g.cancelSeen = false) ∧ u.groups ≠ [] ∧ (∀ y ∈ u.groups, y.evicting.isSome = true ∧ s.stopped y.core y.slot = false) ∧ u.faulted = false ∧
      s.unitDrained u = true ∧ s.hasMoved u = false ∧ s.poolRoom 0 (s.contextBlock u (s.savesRunnable u)).1.length = true ∧ s.blockPlace 0 0x10009000 (s.contextBlock u (s.savesRunnable u)).1.length = true ∧
      (∃ s1, (s.unitFence (coresOf u.groups)).1.storeBad 0 0x40 0x10009000 (s.contextBlock u (s.savesRunnable u)).1.length = (s1, false) ∧
        ∃ s2, s1.writeVa none 0 0x40 0x10009000 (s.contextBlock u (s.savesRunnable u)).1 = (s2, none) ∧ 0 < s2.fns.length) ∧ (s.contextBlock u (s.savesRunnable u)).1.length < 2 ^ 32) ∧
    (let s := stev .running
     let u := eu .running
     (∃ g x, s.grid? g.num = some g ∧ s.team? g.num x.num = some x ∧ u = s.unitOf g x) ∧ u.groups ≠ [] ∧ (∀ y ∈ u.groups, y.evicting.isSome = true ∧ s.stopped y.core y.slot = false) ∧
      s.unitDrained u = true ∧ s.hasMoved u = true) ∧
    (let s := stun (awt 1) false false 1
     s.units[0]? = some (unt (awt 1) false false) ∧ (∃ g ∈ (unt (awt 1) false false).groups, ∃ x ∈ g.lanes, ∃ w, x.run = .address w ∧ s.MayWake 0 w) ∧
      ∃ s1, s.feWrite 0 (0x10009000 + 0x0C) [BitVec.ofNat 8 (0 + 4)] = (s1, none)) ∧
    (let s := stun (awt 0) false false 1
     s.units[0]? = some (unt (awt 0) false false) ∧ (unt (awt 0) false false).runnable = false ∧ ∀ g ∈ (unt (awt 0) false false).groups, ∀ x ∈ g.lanes, ∀ w, x.run = .address w → ¬s.MayWake 0 w) ∧
    (let s := stun .running true true 1
     let u := unt .running true true
     s.units[0]? = some u ∧ u.pending = true ∧ s.grid? u.grid = some { placedGrid with record := { rsmall with pmask := 1 } } ∧ u.cores = [0] ∧ u.fl % 2 = 0 ∧
      (∀ (j : Nat) (x : EvictedUnit), s.units[j]? = some x → x.pending = true → u.evt < x.evt ∨ (u.evt = x.evt ∧ 0 ≤ j)) ∧ (∀ x ∈ s.groups, ¬(x.grid = u.grid ∧ x.team ∈ u.teams)) ∧
      (∀ x ∈ u.groups, x.core = 0 ∧ x.grid = u.grid ∧ x.team ∈ u.teams ∧ ∀ l ∈ x.lanes, ∀ w, l.run ≠ .address w) ∧
      u.moving = [] ∧ (∃ x, x ≠ RestoreTier.empty ∧ s.FirstTier u x ∧ ∃ s1, (s.windowsLeft u).restoreSet u { placedGrid with record := { rsmall with pmask := 1 } } (s.tierCore u x) 0 0 = some s1 ∧ s1.rowsFit 0 = true)) ∧
    (let s := { stun .running true true 1 with clusters := List.replicate 24 { Cluster.reset with pool := 5 } }
     let u := unt .running true true
     s.units[0]? = some u ∧ u.pending = true ∧ u.moving = [] ∧ (∀ (j : Nat) (x : EvictedUnit), s.units[j]? = some x → x.pending = true → u.evt < x.evt ∨ (u.evt = x.evt ∧ 0 ≤ j)) ∧ s.FirstTier u .empty ∧
      (∀ x ∈ s.groups, ¬(x.grid = u.grid ∧ x.team ∈ u.teams)) ∧ (s.restoreAt u (s.tierCore u .empty) 0).isSome = true) ∧
    (let s := stun .running true true 0
     let u := unt .running true true
     s.units[0]? = some u ∧ u.pending = true ∧ (∀ n ∈ u.moving, (s.cluster n).move = none) ∧ (∀ (j : Nat) (x : EvictedUnit), s.units[j]? = some x → x.pending = true → u.evt < x.evt ∨ (u.evt = x.evt ∧ 0 ≤ j)) ∧
      ∀ y ∈ restoreTiers (s.unitClass u), ∀ c, s.restoreAt u (s.tierCore u y) c = none) := by
  have one : ∀ (m : BitVec 192) (j : Nat) (x : EvictedUnit), (stun .running true true m).units[j]? = some x → x.pending = true →
      (unt .running true true).evt < x.evt ∨ ((unt .running true true).evt = x.evt ∧ 0 ≤ j) := by
    intro m j x hx _
    rcases j with _ | j
    · cases hx; exact Or.inr ⟨rfl, Nat.le_refl 0⟩
    · cases hx
  refine ⟨⟨rfl, by decide +kernel, rfl, rfl, by decide +kernel, by decide +kernel⟩, ⟨rfl, by decide +kernel, by decide +kernel⟩,
    ⟨⟨{ placedGrid with record := rsmall }, placedTeam, by decide +kernel, by decide +kernel, rfl, rfl, rfl⟩, by decide +kernel, by decide +kernel, by decide +kernel, by decide +kernel, by decide +kernel, by decide +kernel, by decide +kernel,
      ⟨_, fst_of (by decide +kernel), _, fst_of (by decide +kernel), by decide +kernel⟩, by decide +kernel⟩,
    ⟨⟨{ placedGrid with record := rsmall }, placedTeam, by decide +kernel, by decide +kernel, rfl⟩, by decide +kernel, by decide +kernel, by decide +kernel, by decide +kernel⟩,
    ⟨rfl, ⟨wev (awt 1), by simp [unt], (wev (awt 1)).lane 0, by decide +kernel, _, rfl, mayWake rfl (by decide +kernel)⟩, snd_of (by decide +kernel)⟩,
    ⟨rfl, rfl, ?_⟩, ⟨rfl, rfl, by decide +kernel, rfl, rfl, one 1, by decide +kernel, ?_, rfl, .pool 6, by decide, ⟨[.moved], [.empty, .pool 7], by decide +kernel, by decide +kernel, by decide +kernel⟩, _, Option.eq_some_of_isSome (by decide +kernel), by decide +kernel⟩,
    ⟨rfl, rfl, rfl, one 1, ⟨[.moved, .pool 6], [.pool 7], by decide +kernel, by decide +kernel, by decide +kernel⟩, by decide +kernel, by decide +kernel⟩, rfl, rfl, fun n hn => (by cases hn), one 0, ?_⟩
  · intro g hg x hx w e
    simp only [unt, List.mem_cons, List.not_mem_nil, or_false] at hg
    subst hg
    simp only [wev, List.mem_map] at hx
    obtain ⟨y, -, rfl⟩ := hx
    cases e
    exact not_mayWake rfl (by decide +kernel)
  · intro g hg
    simp only [unt, List.mem_cons, List.not_mem_nil, or_false] at hg
    subst hg
    refine ⟨rfl, rfl, by decide, fun l hl w e => ?_⟩
    simp only [wev, List.mem_map] at hl
    obtain ⟨y, -, rfl⟩ := hl
    cases e
  · intro y _ c
    have g : (stun .running true true 0).grid? 0 = some { placedGrid with record := { rsmall with pmask := 0 } } := by decide +kernel
    have r : ∀ (s : State) f c, s.restoreSet (unt .running true true) { placedGrid with record := { rsmall with pmask := 0 } } f 0 c = none := by
      intro s f c
      simp [State.restoreSet, LaunchRecord.masked]
    have q : ∀ (s : State) f c, s.restoreSets (unt .running true true) { placedGrid with record := { rsmall with pmask := 0 } } f c = none := by
      intro s f c
      unfold State.restoreSets
      simp only [show (unt .running true true).cores = [0] from rfl, show (unt .running true true).fl = 0 from rfl, show ¬(0 % 2 = 1) by decide, if_false, List.foldl_nil, r, Option.map_none]
    unfold State.restoreAt
    simp only [show (unt .running true true).grid = 0 from rfl, g, q]
theorem witness_EncodingRoundTrip : (Instr.viAdd ⟨false, some ⟨15, true⟩⟩ 31 31 31).WellFormed ∧ (Instr.adMulw ⟨true, none⟩ 30 31 31).WellFormed ∧ (Instr.jmp true (-2097152)).WellFormed :=
  ⟨⟨rfl, rfl⟩, ⟨rfl, rfl⟩, ⟨rfl, rfl⟩⟩
theorem witness_DecodingIsExact : ∃ i, decode 0x00501882 = .ok i := ⟨_, rfl⟩
/-- vi.add v3, v2, v1 at the program counter, or a word of a reserved major. -/
def stnext (w : Nat) : State := State.reset.withFetchWord 32 w
theorem word_of {c : Option Choice} {w : Word} (h : (match c with | some (.word v _) => v == w | _ => false) = true) : ∃ t, c = some (.word w t) := by
  split at h
  · rename_i v t; rw [beq_iff_eq] at h; subst h; exact ⟨t, rfl⟩
  · cases h
theorem event_of {c : Option Choice} {i : Instr} (h : (match c with | some (.event v _) => decide (v = i) | _ => false) = true) : ∃ t, c = some (.event i t) := by
  split at h
  · rename_i v t; rw [decide_eq_true_eq] at h; subst h; exact ⟨t, rfl⟩
  · cases h
/-- The group that withFetchWord places. -/
def wplain : Group := newGroup 0 placedRecord placedBox 0 0 16 0 0 0
def pplain : Path := ⟨placedPc, 0, 0xFFFF⟩
/-- The first word of a chain has executed. -/
noncomputable def stchain : State := (stepped 0x80501882).getD State.reset
/-- A word that needs rows stands behind a request that waits. -/
def stwait : State :=
  let s := stnext 0x00E08001
  { s with cores := s.cores.modify 0 (fun c => { c with requests := [{ slot := 5, pc := 0, lanes := 1, rows := Config.granules, quads := 0, granted := false, since := 0, need := none }] }) }
theorem chosen_of {s : State} {c : Option Choice} (h : s.ongoing.isNone = true ∧ s.clocked.agenda = [] ∧ s.clocked.choose = c) : s.Next c :=
  .chosen c (Option.isNone_iff_eq_none.1 h.1) h.2.1 h.2.2
theorem wait_of {c : Option Choice} (h : (match c with | some (.wait _) => true | _ => false) = true) : ∃ t, c = some (.wait t) := by
  split at h
  · exact ⟨_, rfl⟩
  · cases h
theorem issues_of {x : Tried} {m : Means} (h : (match x with | .issues _ k => decide (k.kept = m.kept ∧ k.places = m.places ∧ k.prompt = m.prompt) | _ => false) = true) : ∃ v, x = .issues v m := by
  split at h
  · rename_i v k; rw [decide_eq_true_eq] at h; obtain ⟨h1, h2, h3⟩ := h; cases k; cases m; cases h1; cases h2; cases h3; exact ⟨v, rfl⟩
  · cases h
theorem walked_of {o : Option (State × Xlat)} {x : Xlat} (h : o.map Prod.snd = some x) : o = some ((o.map Prod.fst).getD State.reset, x) := by
  cases o with
  | none => cases h
  | some v => cases h; rfl
theorem witness_StepRunsDecoded :
    ((∃ t, (stnext 0x00501882).Next (some (.word 0x00501882 t))) ∧ ∃ i, decode 0x00501882 = .ok i) ∧
    ((∃ t, (stnext 0x01A00000).Next (some (.word 0x01A00000 t))) ∧ ∃ r, decode 0x01A00000 = .error r) ∧
    (∃ t, ({ stnext 0x00501882 with agenda := [.pick 0] } : State).Next (some (.word 0x00501882 t))) ∧ (∃ c, stchain.Next (some c)) ∧
    (∃ t, ({ std [] with requests := [lreq 0x10001000] } : State).Next (some (.event .launchAccept t))) ∧ (∃ t, stwait.Next (some (.wait t))) ∧ ({ std [] with classRequests := [], grids := [] } : State).Next none ∧
    (let s := { stnext 0 with agenda := [.event .thermalTrip] }
     s.ongoing.isNone = true ∧ s.clocked.agenda = [.event .thermalTrip]) ∧
    (∀ w ∈ [0x00501882, 0x80501882], let s := stnext w
     s.bitErrors = [] ∧ s.lostPeers = [] ∧ (∃ r x k, State.laneWalk wplain.core wplain.slot 0xFFFF wplain.nextId s placedPc = some (r, x) ∧ r.judge (s.fnOf wplain.grid) ⟨false, true, false⟩ 4 x = .ok k ∧
      leWord (s.readKey (some wplain.core) 4 k 4) = BitVec.ofNat 32 w ∧ (w = 0x00501882 → wordChain (BitVec.ofNat 32 w) = false) ∧
      (w = 0x80501882 → wordChain (BitVec.ofNat 32 w) = true ∧ placedPc.toNat % 12 / 4 ≠ 2 ∧ ∃ t, r.fetchFrom wplain 0xFFFF 2 (placedPc + 4) = (t, .words [0])))) ∧
    (∃ t, (stnext 0x00501882).Issues wplain pplain 0x00501882 ⟨[], [[.requests 0]], 1⟩ t) ∧ ∃ i, decode 0x00501882 = .ok i := by
  have next (s : State) (w : Word) (h1 : s.ongoing.isNone = true) (h2 : s.clocked.agenda = []) (h3 : (match s.clocked.choose with | some (.word v _) => v == w | _ => false) = true) : ∃ t, s.Next (some (.word w t)) := by
    obtain ⟨t, e⟩ := word_of h3
    exact ⟨t, chosen_of ⟨h1, h2, e⟩⟩
  refine ⟨⟨next _ _ (by decide +kernel) (by decide +kernel) (by decide +kernel), _, rfl⟩, ⟨next _ _ (by decide +kernel) (by decide +kernel) (by decide +kernel), _, rfl⟩, ?_, ?_, ?_, ?_,
    chosen_of ⟨by decide +kernel, by decide +kernel, by decide +kernel⟩, ⟨by decide +kernel, by decide +kernel⟩, ?_, ?_, _, rfl⟩
  · obtain ⟨t, e⟩ := word_of (c := (State.choices { ({ stnext 0x00501882 with agenda := [.pick 0] } : State).clocked with agenda := [], cur := none })[0]?) (w := 0x00501882) (by decide +kernel)
    exact ⟨t, .picked _ 0 [] (Option.isNone_iff_eq_none.1 (by decide +kernel)) (by decide +kernel) e⟩
  · obtain ⟨c, e⟩ := Option.isSome_iff_exists.1 (by decide +kernel : stchain.ongoing.isSome = true)
    exact ⟨c, .goesOn c e⟩
  · obtain ⟨t, e⟩ := event_of (c := ({ std [] with requests := [lreq 0x10001000] } : State).clocked.choose) (i := .launchAccept) (by decide +kernel)
    exact ⟨t, chosen_of ⟨by decide +kernel, by decide +kernel, e⟩⟩
  · obtain ⟨t, e⟩ := wait_of (c := stwait.clocked.choose) (by decide +kernel)
    exact ⟨t, chosen_of ⟨by decide +kernel, by decide +kernel, e⟩⟩
  · intro w hw
    simp only [List.mem_cons, List.not_mem_nil, or_false] at hw
    rcases hw with rfl | rfl
    · exact ⟨rfl, rfl, _, .ok 0x10000080 true true, 0x10000080, walked_of (by decide +kernel), by decide +kernel, by decide +kernel, fun _ => by decide +kernel, fun h => absurd h (by decide)⟩
    · exact ⟨rfl, rfl, _, .ok 0x10000080 true true, 0x10000080, walked_of (by decide +kernel), by decide +kernel, by decide +kernel, fun h => absurd h (by decide),
        fun _ => ⟨by decide +kernel, by decide, snd_of (by decide +kernel)⟩⟩
  · obtain ⟨t, ht⟩ : ∃ t, State.fetchChain { stnext 0x00501882 with turn := wplain.partition + 1 } wplain 0xFFFF placedPc = (t, .words [0x00501882]) := snd_of (by decide +kernel)
    have e : t = (State.fetchChain { stnext 0x00501882 with turn := wplain.partition + 1 } wplain 0xFFFF placedPc).1 := by rw [ht]
    refine ⟨t, ⟨rfl, rfl, rfl, by decide +kernel, by decide +kernel, by decide +kernel, by decide +kernel, by decide +kernel, by decide +kernel, ht, by decide +kernel, ?_, by decide +kernel, ?_⟩⟩
    · rw [e]; decide +kernel
    · rw [e]; exact issues_of (by decide +kernel)
/-- Two writes of one unit that have reached every point. -/
def stwm : State :=
  { stw with
    writes := [{ seq := 1, unit := 0x2000, bytes := List.replicate 32 7, origin := some 1, cmps := List.range 192, reach := 6 },
               { seq := 2, unit := 0x2000, bytes := List.replicate 32 8, origin := some 0, cmps := [0], reach := 2 }], co := 2 }
theorem witness_MemoryReadsWrites :
    (Memory.wf [(5, 1), (9, 2)] = true ∧ Scratch.wfFrom 0 [(0, 0), (9, 2)] = true) ∧
    ((∀ w ∈ stwm.writes, w.Whole) ∧ [(1 : Byte), 2] ≠ [] ∧ 0x201E % unitSize 0x201E + 2 = unitSize 0x201E ∧ 0 ∈ [0, 5]) ∧
    (∀ x, 0x2020 ≤ x → x < 0x2020 + 8 → Machine.unitOf x ≠ Machine.unitOf 0x201E) ∧
    (stwm.InCoherenceOrder ∧ Memory.wf stwm.mem = true ∧ (∃ w ∈ stwm.writes, stwm.retirable w = true ∧ isScratchKey w.unit = false) ∧ 4 ≤ 6) := by
  have h : ∀ w ∈ stwm.writes, w.Whole := by
    intro w hw
    simp only [stwm, List.mem_cons, List.not_mem_nil, or_false] at hw
    rcases hw with rfl | rfl <;> exact ⟨by decide +kernel, by decide +kernel⟩
  refine ⟨⟨by decide, by decide⟩, ⟨h, by decide, by decide, by decide⟩, ?_, ⟨by unfold State.InCoherenceOrder; decide +kernel, by decide +kernel, ⟨_, List.mem_cons_self, by decide +kernel, by decide +kernel⟩, by decide⟩⟩
  intro x h1 h2
  have : ∀ i < 8, Machine.unitOf (0x2020 + i) ≠ Machine.unitOf 0x201E := by decide +kernel
  obtain ⟨i, rfl⟩ := Nat.exists_eq_add_of_le h1
  exact this i (by omega)
theorem witness_BringUpValues : (State.reset.fwState = 0 ∧ State.reset.fns ≠ []) ∧
    ({ State.reset with fwState := 1 }.fwState = 1 ∧ 1 ≤ 16 ∧ 16 < { State.reset with fwState := 1 }.fns.length ∧ ({ State.reset with fwState := 1 }.fn 16).ready = false) :=
  ⟨⟨rfl, by decide⟩, rfl, by decide, by decide +kernel, by decide +kernel⟩
theorem next_of {o : Host.Outcome State Fault Refusal} (h : (match o with | .next _ => true | _ => false) = true) : ∃ t, o = .next t := by
  split at h
  · exact ⟨_, rfl⟩
  · cases h
theorem witness_MemoryStaysCanonical : (stnext 0x00501882).MemOk ∧ (stnext 0x00501882).InCoherenceOrder ∧ ∃ t, step (stnext 0x00501882) = .next t :=
  ⟨⟨by decide +kernel, by decide +kernel⟩, by unfold State.InCoherenceOrder; decide +kernel, next_of (by decide +kernel)⟩
theorem witness_GroupsStayWellFormed : (stnext 0x00501882).GroupsWf ∧ ∃ t, step (stnext 0x00501882) = .next t := by
  refine ⟨⟨fun g hg => ?_, fun u hu => ?_, by decide +kernel⟩, next_of (by decide +kernel)⟩
  · obtain rfl : g = wplain := List.mem_singleton.1 hg
    exact wf_of (by decide +kernel)
  · exact absurd hu (by simp [stnext, State.withFetchWord, State.reset])

/-- The address 0x0080_0000_3000 lies on stack 7, and so on die 1 (R97). -/
theorem test_stack : (stackOf 0x8000003000, dieOfPa 0x8000003000) = (7, some 1) := by decide

/-! ## The assembler and the loader (R175 to R193, R426, R428) -/

/-- The words of .text of a source. -/
noncomputable def textOf (src : List String) : List Nat :=
  match Onas.assemble src with
  | .ok o => ((o.sections.find? (fun s => s.name == ".text")).map (fun s => (List.range (s.size / 4)).map (fun i => field s.data (4 * i) 4))).getD []
  | .error _ => []
/-- The word of an instruction line at the start of .text. -/
noncomputable def lineWord (src : String) : Option Word := do
  let ts ← (Onas.tokens src).toOption
  let l ← (Onas.lineOf ts).toOption
  let r ← (l.word (fun _ => none) (0, 0)).toOption
  pure r.1
/-- Display (11.1) with its words (R176, R178). -/
theorem test_assemble_packets : textOf [".section .text", "wait 0, 15, 15, 15", "vi.add v3, v2, v1", "again: vi.add v4, v3, v3 &", "jmp again"] =
    [0x00087FF8, 0x0050C410, 0, 0x80510630, 0x00180000, 0] := by decide +kernel
/-- Worked rows of chapters 11, 14, 16 and 17. -/
theorem test_assemble_lines :
    ["?!p3 wait 0, 15, 15, 15", "atm.cas.n64.ardev v8, v2", "ld.b32.acqsys v0, s4:s5, 0", "wta.acq.w4.sys v1, v2, v4", "mma.set a0, t0, t1, t2",
      "sli.lo s5, q2(0x0080_0000_3000)"].map lineWord =
    [some 0x4E087FF8, some 0x1108BBB0, some 0x00E80A0B, some 0x0140444B, some 0x0160001A, some 0x0A900080] := by decide +kernel
/-- The words of (11.2) (R182): sr.rds s1, %ex; sii.add s2, s1, -1; si.minu s1, s1, s2; sc.blen s1, s1. -/
theorem test_assemble_rlog2 : (textOf [".section .text", ".rlog2 s1, s2, %ex"]).take 4 = [0x00A0500C, 0x0088823F, 0x0080422D, 0x00984206] := by decide +kernel
/-- Errors 106 and 103 (R426). -/
theorem test_assemble_errors : (match Onas.assemble [".section .text", "?p1 jmp x", "vi.add v3, s2, v1"] with | .ok _ => [] | .error e => e) = [(2, 106), (3, 103)] := by decide +kernel
/-- The record of the worked directives (R181), bytes 0x38 to 0x3C, and its ENTRY left to the loader. -/
theorem test_assemble_record :
    (match Onas.assemble [".section .text", ".kernel clip6x4, 4, 2", ".team thr, 16", ".width 16", ".recut 1", "ctl.exit", ".endkernel"] with
     | .ok o => (o.sections.find? (fun s => s.name == ".launch")).map (fun s => ((s.data.drop 0x38).take 5, s.relocs.map Onas.Reloc.kind))
     | .error _ => none) = some ([0x10, 0x00, 0x10, 0x04, 0x01], [1]) := by decide +kernel
/-- An extern that the set does not define is status 6; with it defined, the jump reaches it (R192, R193, R428). -/
theorem test_load_extern :
    (match Onas.assemble [".extern f", ".section .text", "jmp f"], Onas.assemble [".section .text", "nop", "f: ctl.exit", ".global f"] with
     | .ok a, .ok b =>
       let at_ : Onas.Placing := fun i _ => some (BitVec.ofNat 64 (1920 * (i + 1)))
       let r := Onas.loadSet 0 [a.bytes 0, b.bytes 0] at_ 0
       ((Onas.loadSet 0 [a.bytes 0] at_ 0).status, r.status, (r.image.head?.map (fun x => field x.data 0 4)))
     | _, _ => (0, 0, none)) = (6, 0, some (0x00180000 + (1920 + 12) / 4)) := by decide +kernel

end Sys2Proof.Tests
end

/-! PROOFS. The registers of the functions' first memory BARs (R6, R166, R168, R170, R346, R354, R388, R412, R413): what a function holds at each
offset, what one write makes of it, and what the host then reads there and elsewhere. -/

namespace Sys2Proof.Machine

/-! ## What a function holds at an offset -/

/-- The value of the register that a function's own state holds at an offset; none where the register is the device's, or there is none. -/
def Fn.register (f : Fn) (off : Nat) : Option Nat :=
  match off with
  | 0x0300 => some f.censbase.toNat
  | 0x0308 => some f.censref.toNat
  | 0x0310 => some f.censctl.toNat
  | 0x0318 => some f.censdiff.toNat
  | 0x0340 => some f.trialctl.toNat
  | 0x0348 => some f.triallo.toNat
  | 0x0350 => some f.trialhi.toNat
  | 0x0358 => some f.dlycnt.toNat
  | 0x0400 => some f.fltbase.toNat
  | 0x0408 => some f.fltctl.toNat
  | 0x0410 => some f.flthead.toNat
  | 0x0414 => some f.flttail.toNat
  | 0x0418 => some f.fltlost.toNat
  | 0x0420 => some f.wdctl.toNat
  | 0x0440 => some (f.merrUnc.toNat * 2 ^ 32 + f.merrCor.toNat)
  | 0x0480 => some f.prepool.toNat
  | 0x0488 => some f.presize.toNat
  | 0x0490 => some (f.evicts.toNat * 2 ^ 32 + f.inuse.toNat)
  | 0x04E8 => some (bit f.ready + 2 * bit f.fail)
  | _ =>
    if 0x0380 ≤ off ∧ off < 0x0400 ∧ off % 8 = 0 then some (f.progs.getD ((off - 0x0380) / 8) 0).toNat
    else if 0x1000 ≤ off ∧ off < 0x1200 then some ((f.queues.getD ((off - 0x1000) / 0x40) Queue.reset).read (off % 0x40))
    else none

/-! What the device alone holds does not depend on the functions. -/

theorem State.devid_with_fns (s : State) (l : List Fn) : { s with fns := l }.devid = s.devid := rfl
theorem State.devcap_with_fns (s : State) (l : List Fn) : { s with fns := l }.devcap = s.devcap := rfl
theorem State.pwrst_with_fns (s : State) (l : List Fn) : { s with fns := l }.pwrst = s.pwrst := rfl
theorem State.clst_with_fns (s : State) (l : List Fn) (n : Nat) : { s with fns := l }.clst n = s.clst n := rfl
theorem State.readPhysical_with_fns (s : State) (l : List Fn) (off : Nat) : { s with fns := l }.readPhysical off = s.readPhysical off := rfl

/-- Outside recovery the host reads what the function holds at the offset. -/
theorem State.readRegister_of_register {s : State} {fn off n : Nat} (h : s.fwState ≠ 2) (hn : (s.fn fn).register off = some n) :
    s.readRegister fn off = n := by
  have hr : ¬(s.fwState = 2 ∧ (!(fn == 0 && [0x0000, 0x0008, 0x04E0, 0x04F0].contains off)) = true) := fun hc => h hc.1
  have hm : 0x0380 ≤ off → ¬(0x0100 ≤ off ∧ off < 0x0140 ∧ off % 8 = 0) := by omega
  have hc : 0x0380 ≤ off → ¬(0x0200 ≤ off ∧ off < 0x0200 + 8 * Config.clusters ∧ off % 8 = 0) := by simp only [Config.clusters]; omega
  unfold State.readRegister
  simp only [if_neg hr]
  split
  case h_26 =>
    simp only [Fn.register] at hn
    by_cases hp : 0x0380 ≤ off ∧ off < 0x0400 ∧ off % 8 = 0
    · rw [if_pos hp] at hn
      rw [if_neg (hm hp.1), if_neg (hc hp.1), if_pos hp]
      exact Option.some.inj hn
    by_cases hq : 0x1000 ≤ off ∧ off < 0x1200
    · have ho : 0x0380 ≤ off := by omega
      rw [if_neg hp, if_pos hq] at hn
      rw [if_neg (hm ho), if_neg (hc ho), if_neg hp, if_pos hq]
      exact Option.some.inj hn
    · rw [if_neg hp, if_neg hq] at hn
      cases hn
  case h_1 | h_2 | h_3 | h_4 | h_5 | h_24 => simp [Fn.register] at hn
  all_goals exact Option.some.inj hn

/-- What the host reads of a function at an offset depends on the functions only through what that function holds there. -/
theorem State.readRegister_congr {s : State} {l : List Fn} {fn off : Nat} (h : (l.getD fn Fn.reset).register off = (s.fn fn).register off) :
    { s with fns := l }.readRegister fn off = s.readRegister fn off := by
  unfold State.readRegister
  split
  · rfl
  split
  case h_26 =>
    simp only [Fn.register] at h
    refine ite_congr rfl (fun _ => rfl) (fun _ => ite_congr rfl (fun _ => rfl) (fun _ => ?_))
    refine ite_congr rfl (fun hp => ?_) (fun hp => ite_congr rfl (fun hq => ?_) (fun _ => rfl))
    · rw [if_pos hp, if_pos hp] at h
      exact Option.some.inj h
    · rw [if_neg hp, if_neg hp, if_pos hq, if_pos hq] at h
      exact Option.some.inj h
  case h_1 => rw [State.devid_with_fns]
  case h_2 => rw [State.devcap_with_fns]
  case h_3 => rfl
  case h_4 => rw [State.pwrst_with_fns]
  case h_5 => rfl
  case h_24 => rfl
  all_goals exact Option.some.inj h

/-! ## One register of a function changed -/

/-- A change of a function makes one register read a value, and leaves what every other register reads. -/
def Fn.Takes (f g : Fn) (a n : Nat) : Prop := ∀ off, g.register off = if off = a then some n else f.register off

/-- A change of one function leaves everything but that function as it was. -/
theorem onlyFn_updFn (s : State) (fn : Nat) (u : Fn → Fn) : OnlyFn s (s.updFn fn u) fn :=
  ⟨rfl, fun k hk => by rw [State.updFn_fn, if_neg (fun h => hk h.1)]⟩

theorem updFn_fn_self {s : State} {fn : Nat} (u : Fn → Fn) (hl : fn < s.fns.length) : (s.updFn fn u).fn fn = u (s.fn fn) := by
  rw [State.updFn_fn, if_pos ⟨rfl, hl⟩]

/-- After an answer that changes one function, the host reads what that function now holds. -/
theorem exec_of_register {s : State} {i : Instr} {fn a n : Nat} {u : Fn → Fn} (hs : s.fwState = 1) (hl : fn < s.fns.length)
    (hi : exec i s = .next (s.updFn fn u)) (hu : (u (s.fn fn)).register a = some n) :
    ∃ t, exec i s = .next t ∧ OnlyFn s t fn ∧ t.readRegister fn a = n :=
  ⟨_, hi, onlyFn_updFn s fn u, State.readRegister_of_register (by simp [hs]) (by rw [updFn_fn_self u hl, hu])⟩

/-- After an answer that changes one register of a function, that register reads its value and every other register of the function as before. -/
theorem exec_of_takes {s : State} {i : Instr} {fn a n : Nat} {u : Fn → Fn} (hs : s.fwState = 1) (hl : fn < s.fns.length)
    (hi : exec i s = .next (s.updFn fn u)) (hu : (s.fn fn).Takes (u (s.fn fn)) a n) :
    ∃ t, exec i s = .next t ∧ OnlyFn s t fn ∧ t.readRegister fn a = n ∧ ∀ off, off ≠ a → t.readRegister fn off = s.readRegister fn off := by
  refine ⟨_, hi, onlyFn_updFn s fn u, State.readRegister_of_register (by simp [hs]) ?_, fun off ho => ?_⟩
  · rw [updFn_fn_self u hl, hu, if_pos rfl]
  · refine State.readRegister_congr (l := s.fns.modify fn u) ?_
    calc ((s.updFn fn u).fn fn).register off
        = (u (s.fn fn)).register off := by rw [updFn_fn_self u hl]
      _ = (s.fn fn).register off := by rw [hu, if_neg ho]

/-! ## REGISTER_WRITE -/

theorem exec_registerWrite (s : State) (fn off : Nat) (v : DWord) : exec (.registerWrite fn off v) s = .next (s.writeRegister fn off v) := rfl

/-- While the firmware runs, every register but FWSTG is written by `writeContext`. -/
theorem exec_registerWrite_running {s : State} {fn off : Nat} {v : DWord} (hs : s.fwState = 1) (ho : off ≠ 0x04F0) :
    exec (.registerWrite fn off v) s = .next (s.writeContext fn off v) := by
  rw [exec_registerWrite, State.writeRegister, if_neg (fun h => ho h.2), if_neg (by simp [hs])]

/-- Before the firmware runs, and in recovery, no register but FWSTG is written (R412). -/
theorem exec_registerWrite_stopped {s : State} {fn off : Nat} {v : DWord} (hs : s.fwState ≠ 1) (ho : ¬(fn = 0 ∧ off = 0x04F0)) :
    exec (.registerWrite fn off v) s = .next s := by
  rw [exec_registerWrite, State.writeRegister, if_neg ho, if_pos (by simpa using hs)]

/-- FWSTG takes a page-aligned address, whatever the firmware does (R412). -/
theorem exec_registerWrite_fwstg (s : State) (v : DWord) :
    exec (.registerWrite 0 0x04F0 v) s = .next (if v.toNat % 4096 = 0 then { s with fwstg := v } else s) := rfl

/-! None of these registers is FWSTG. -/

theorem contextRegister_ne_fwstg : ∀ x ∈ contextRegisters, x.1 ≠ 0x04F0 := by decide
theorem readOnly_ne_fwstg : ∀ off ∈ readOnlyRegisters, off ≠ 0x04F0 := by decide
theorem census_ne_fwstg : ∀ off ∈ ([0x0300, 0x0308] : List Nat), off ≠ 0x04F0 := by decide

/-! ## Registers of a function -/

/-- Without reserved bits a value is taken whole. -/
theorem and_ones (v : DWord) : v &&& 0xFFFFFFFFFFFFFFFF = v := BitVec.and_allOnes
/-- The low word of a value, as a mask gives it. -/
theorem toNat_setWidth_word (v : DWord) : (v.setWidth 32).toNat = (v &&& 0x00000000FFFFFFFF).toNat := by
  rw [BitVec.toNat_setWidth, BitVec.toNat_and]
  exact (Nat.and_two_pow_sub_one_eq_mod v.toNat 32).symm

/-- The registers of `contextRegisters`, each as a change of its function. -/
theorem writeContext_contextRegister {x : Nat × DWord} (hx : x ∈ contextRegisters) (s : State) (fn : Nat) (v : DWord) :
    ∃ u, s.writeContext fn x.1 v = s.updFn fn u ∧ ∀ f : Fn, f.Takes (u f) x.1 (v &&& x.2).toNat := by
  simp only [contextRegisters, List.mem_cons, List.not_mem_nil, or_false] at hx
  rcases hx with rfl | rfl | rfl | rfl | rfl | rfl
  all_goals
    refine ⟨_, rfl, fun f off => ?_⟩
    split
    case isTrue ho =>
      subst ho
      simp only [Fn.register, ringBits, and_ones, toNat_setWidth_word]
    case isFalse ho =>
      simp only [Fn.register]
      split <;> trivial

theorem writeContext_readOnly {off : Nat} (ho : off ∈ readOnlyRegisters) (s : State) (fn : Nat) (v : DWord) : s.writeContext fn off v = s := by
  simp only [readOnlyRegisters, List.mem_cons, List.not_mem_nil, or_false] at ho
  rcases ho with rfl | rfl | rfl | rfl | rfl | rfl | rfl | rfl | rfl | rfl | rfl | rfl | rfl | rfl
  all_goals simp [State.writeContext]

/-- The addresses that CENSBASE and CENSREF take (R166). -/
theorem bufferAddr_iff (v : DWord) : bufferAddr v = true ↔ v.toNat % 64 = 0 ∧ v.toNat < 2 ^ 56 := by
  have h8 : v.extractLsb' 56 8 = 0 ↔ v.toNat < 2 ^ 56 := by
    rw [← BitVec.toNat_inj, BitVec.extractLsb'_toNat, Nat.shiftRight_eq_div_pow]
    have hv := v.isLt
    simp only [BitVec.ofNat_eq_ofNat, BitVec.toNat_ofNat]
    omega
  simp only [bufferAddr, Bool.and_eq_true, beq_iff_eq, h8]

theorem writeContext_census_outOfRange {off : Nat} (ho : off ∈ ([0x0300, 0x0308] : List Nat)) (s : State) (fn : Nat) {v : DWord}
    (hv : ¬(v.toNat % 64 = 0 ∧ v.toNat < 2 ^ 56)) : s.writeContext fn off v = s := by
  simp only [List.mem_cons, List.not_mem_nil, or_false] at ho
  rw [← bufferAddr_iff] at hv
  rcases ho with rfl | rfl <;> exact if_neg hv

/-- CENSBASE and CENSREF take an address in range whole. -/
theorem writeContext_census {off : Nat} (ho : off ∈ ([0x0300, 0x0308] : List Nat)) (s : State) (fn : Nat) {v : DWord}
    (hv : v.toNat % 64 = 0 ∧ v.toNat < 2 ^ 56) : ∃ u, s.writeContext fn off v = s.updFn fn u ∧ ∀ f, (u f).register off = some v.toNat := by
  simp only [List.mem_cons, List.not_mem_nil, or_false] at ho
  rw [← bufferAddr_iff] at hv
  rcases ho with rfl | rfl <;> exact ⟨_, if_pos hv, fun f => rfl⟩

theorem writeContext_fltctl (s : State) (fn : Nat) (v : DWord) : s.writeContext fn 0x0408 v =
    if 4 ≤ v.toNat % 32 ∧ v.toNat % 32 ≤ 12 then s.updFn fn (fun f => { f with fltctl := BitVec.ofNat 64 (v.toNat % 32) }) else s := rfl

theorem writeContext_presize (s : State) (fn : Nat) (v : DWord) : s.writeContext fn 0x0488 v =
    if v.toNat % 64 = 0 then s.updFn fn (fun f => { f with presize := v &&& 0xFFFFFFFFFF }) else s := rfl

/-- PRESIZE keeps its low 40 bits (R388). -/
theorem toNat_and_presize (v : DWord) : (v &&& 0xFFFFFFFFFF).toNat = v.toNat % 2 ^ 40 := by
  rw [BitVec.toNat_and]
  exact Nat.and_two_pow_sub_one_eq_mod v.toNat 40

/-! ## The progress registers (R168) -/

theorem Fn.register_prog (f : Fn) {n : Nat} (hn : n < 16) : f.register (0x0380 + 8 * n) = some (f.progs.getD n 0).toNat := by
  unfold Fn.register
  split
  case h_20 =>
    rw [if_pos (by omega)]
    congr 3
    omega
  all_goals omega

theorem writeContext_prog (s : State) (fn : Nat) {n : Nat} (v : DWord) (hn : n < 16) :
    s.writeContext fn (0x0380 + 8 * n) v = s.updFn fn (fun f => { f with progs := f.progs.set n v }) := by
  unfold State.writeContext
  split
  case h_12 =>
    rw [if_pos (by omega), show (0x0380 + 8 * n - 0x0380) / 8 = n by omega]
  all_goals omega

/-! ## The registers of a queue (R148) -/

theorem Fn.register_queue (f : Fn) {off : Nat} (ho : 0x1000 ≤ off ∧ off < 0x1200) :
    f.register off = some ((f.queues.getD ((off - 0x1000) / 0x40) Queue.reset).read (off % 0x40)) := by
  unfold Fn.register
  split
  case h_20 => rw [if_neg (by omega), if_pos ho]
  all_goals omega

theorem Fn.register_with_queues (f : Fn) (l : List Queue) {off : Nat} (ho : ¬(0x1000 ≤ off ∧ off < 0x1200)) :
    { f with queues := l }.register off = f.register off := by
  simp only [Fn.register, if_neg ho]

/-- An element read after one element of the list is changed. -/
theorem getD_modify_eq {α : Type} (l : List α) (q k : Nat) (u : α → α) (d : α) :
    (l.modify q u).getD k d = if k = q ∧ q < l.length then u (l.getD k d) else l.getD k d := by
  simp only [List.getD_eq_getElem?_getD, List.getElem?_modify]
  by_cases h : q = k
  · subst h
    by_cases hl : q < l.length <;> simp [hl]
  · simp [h, Ne.symm h]

/-- A queue's register changed is its function's register changed. -/
theorem takes_queue (f : Fn) {q j n : Nat} {u : Queue → Queue} (hq : q < 8) (hl : q < f.queues.length) (hj : j < 0x40)
    (hu : ∀ (x : Queue) (k : Nat), (u x).read k = if k = j then n else x.read k) :
    f.Takes { f with queues := f.queues.modify q u } (0x1000 + 0x40 * q + j) n := by
  intro off
  by_cases ho : 0x1000 ≤ off ∧ off < 0x1200
  · rw [Fn.register_queue _ ho, Fn.register_queue _ ho, getD_modify_eq]
    by_cases hk : (off - 0x1000) / 0x40 = q
    · rw [if_pos ⟨hk, hl⟩, hu]
      by_cases hr : off % 0x40 = j
      · rw [if_pos hr, if_pos (by omega)]
      · rw [if_neg hr, if_neg (by omega)]
    · rw [if_neg (fun h => hk h.1), if_neg (by omega)]
  · rw [Fn.register_with_queues _ _ ho, if_neg (by omega)]

theorem writeContext_queue (s : State) (fn : Nat) {q j : Nat} (v : DWord) (hq : q < 8) (hj : j < 0x40) :
    s.writeContext fn (0x1000 + 0x40 * q + j) v = s.writeQueue fn q j v := by
  unfold State.writeContext
  split
  case h_12 =>
    rw [if_neg (by omega), if_pos (by omega), show (0x1000 + 0x40 * q + j - 0x1000) / 0x40 = q by omega, show (0x1000 + 0x40 * q + j) % 0x40 = j by omega]
  all_goals omega

/-- The registers of `queueRegisters`, each as a change of its queue. -/
theorem writeQueue_queueRegister {x : Nat × DWord} (hx : x ∈ queueRegisters) {s : State} {fn : Nat} (q : Nat) (v : DWord) (hr : (s.fn fn).ready = true) :
    ∃ u, s.writeQueue fn q x.1 v = s.updQueue fn q u ∧ x.1 < 0x40 ∧
      ∀ (y : Queue) (k : Nat), (u y).read k = if k = x.1 then (v &&& x.2).toNat else y.read k := by
  simp only [queueRegisters, List.mem_cons, List.not_mem_nil, or_false] at hx
  rcases hx with rfl | rfl
  all_goals
    refine ⟨_, by rw [State.writeQueue, hr]; rfl, by decide, fun y k => ?_⟩
    split
    case isTrue hk =>
      subst hk
      simp only [Queue.read, ringBits, toNat_setWidth_word]
    case isFalse hk =>
      simp only [Queue.read]
      split <;> trivial

theorem updQueue_queue_self {s : State} {fn q : Nat} (u : Queue → Queue) (hl : fn < s.fns.length) (hq : q < (s.fn fn).queues.length) :
    (s.updQueue fn q u).queue fn q = u (s.queue fn q) := by
  rw [State.queue, State.updQueue, updFn_fn_self _ hl, getD_modify_eq, if_pos ⟨rfl, hq⟩]
  rfl

/-- A halted queue is not halted again (R400). -/
theorem checkTail_of_halted {s : State} {fn q : Nat} (h : (s.queue fn q).halted = true) : s.checkTail fn q = s := by
  simp [State.checkTail, h]

/-- The sizes of a queue (R148): one that is out of range changes nothing. -/
theorem writeQueue_size_outOfRange {s : State} (fn q : Nat) {v : DWord} (hv : v.toNat % 32 < 4 ∨ 16 < v.toNat % 32) : s.writeQueue fn q 0x08 v = s := by
  have hn : ¬(4 ≤ v.toNat % 32 ∧ v.toNat % 32 ≤ 16) := by omega
  simp [State.writeQueue, hn]

/-- A size in range is taken; a halted queue stays as it is otherwise. -/
theorem writeQueue_size {s : State} {fn q : Nat} {v : DWord} (hl : fn < s.fns.length) (hq : q < (s.fn fn).queues.length) (hr : (s.fn fn).ready = true)
    (hv : 4 ≤ v.toNat % 32 ∧ v.toNat % 32 ≤ 16) (hh : (s.queue fn q).halted = true) :
    s.writeQueue fn q 0x08 v = s.updQueue fn q (fun x => { x with size := BitVec.ofNat 5 (v.toNat % 32) }) := by
  have hk : ((s.updQueue fn q (fun x => { x with size := BitVec.ofNat 5 (v.toNat % 32) })).queue fn q).halted = true := by
    rw [updQueue_queue_self _ hl hq]
    exact hh
  rw [← checkTail_of_halted hk]
  simp [State.writeQueue, hr, hv]

/-! ## Breakpoints (R170) -/

theorem Core.readDebug_breakpoint (c : Core) {n : Nat} (hn : n < 4) : c.readDebug (0x10 + 8 * n) = (c.bps.getD n 0).toNat := by
  unfold Core.readDebug
  split
  case h_5 => rw [if_pos (by omega), show (0x10 + 8 * n - 0x10) / 8 = n by omega]
  all_goals omega

theorem readPhysical_debug (s : State) {core j : Nat} (hc : core < 192) (hj : j < 0x100) :
    s.readPhysical (0x8000 + 0x100 * core + j) = (s.core core).readDebug j := by
  unfold State.readPhysical
  split
  case h_6 =>
    rw [if_neg (by simp only [Config.ports]; omega), if_pos (by simp only [Config.cores]; omega),
      show (0x8000 + 0x100 * core + j - 0x8000) / 0x100 = core by omega, show (0x8000 + 0x100 * core + j) % 0x100 = j by omega]
  all_goals omega

theorem readRegister_debug {s : State} (hs : s.fwState ≠ 2) {core j : Nat} (hc : core < 192) (hj : j < 0x100) :
    s.readRegister 0 (0x8000 + 0x100 * core + j) = (s.core core).readDebug j := by
  rw [← readPhysical_debug s hc hj]
  unfold State.readRegister
  rw [if_neg (fun h => hs h.1)]
  split
  case h_26 =>
    rw [if_neg (by omega), if_neg (by simp only [Config.clusters]; omega), if_neg (by omega), if_neg (by omega), if_pos rfl]
  all_goals omega

theorem writeContext_debug (s : State) {core j : Nat} (v : DWord) (hc : core < 192) (hj : j < 0x100) :
    s.writeContext 0 (0x8000 + 0x100 * core + j) v = s.writeBreakpoint core j v := by
  unfold State.writeContext
  split
  case h_12 =>
    rw [if_neg (by omega), if_neg (by omega), if_pos ⟨rfl, by omega, by simp only [Config.cores]; omega⟩,
      show (0x8000 + 0x100 * core + j - 0x8000) / 0x100 = core by omega, show (0x8000 + 0x100 * core + j) % 0x100 = j by omega]
  all_goals omega

theorem writeBreakpoint_eq (s : State) (core : Nat) {n : Nat} (v : DWord) (hn : n < 4) :
    s.writeBreakpoint core (0x10 + 8 * n) v = s.updCore core (fun c => { c with bps := c.bps.set n (v &&& 0x00FFFFFFFFFFFFFD) }) := by
  rw [State.writeBreakpoint, if_pos (by omega), show (0x10 + 8 * n - 0x10) / 8 = n by omega]

/-- A breakpoint of a core takes its bits, and nothing else of the core or of another core changes. -/
theorem exec_breakpoint {s : State} {core n : Nat} (v : DWord) (hs : s.fwState = 1) (hn : n < 4) (hc : core < 192) (hl : core < s.cores.length)
    (hb : n < (s.core core).bps.length) :
    ∃ t, exec (.registerWrite 0 (0x8010 + 0x100 * core + 8 * n) v) s = .next t ∧ t = { s with cores := t.cores } ∧ (∀ k, k ≠ core → t.core k = s.core k) ∧
      t.readRegister 0 (0x8010 + 0x100 * core + 8 * n) = (v &&& 0x00FFFFFFFFFFFFFD).toNat := by
  rw [show 0x8010 + 0x100 * core + 8 * n = 0x8000 + 0x100 * core + (0x10 + 8 * n) by omega]
  refine ⟨_, exec_registerWrite_running hs (by omega), ?_⟩
  rw [writeContext_debug s v hc (by omega), writeBreakpoint_eq s core v hn]
  refine ⟨rfl, fun k hk => ?_, ?_⟩
  · rw [State.updCore_core, if_neg (fun h => hk h.1)]
  · rw [readRegister_debug (by simp [hs]) hc (by omega), Core.readDebug_breakpoint _ hn, State.updCore_core, if_pos ⟨rfl, hl⟩]
    simp [hb]

/-! ## The statement -/

/-- Settles O49: REGISTER_WRITE changes one register of one function, or of one core, and the host reads it back. -/
theorem registerResults : Obligations.RegisterResults := by
  unfold Obligations.RegisterResults
  refine ⟨?_, ?_, ?_, ?_, ?_, ?_, ?_, ?_, ?_⟩
  · intro s fn v x hx hs hl
    obtain ⟨u, hw, hu⟩ := writeContext_contextRegister hx s fn v
    exact exec_of_takes hs hl (hw ▸ exec_registerWrite_running hs (contextRegister_ne_fwstg x hx)) (hu _)
  · intro s fn q v x hx hs hl hq hql hr
    obtain ⟨u, hw, hj, hu⟩ := writeQueue_queueRegister hx q v hr
    refine exec_of_takes (u := fun f => { f with queues := f.queues.modify q u }) hs hl ?_ (takes_queue _ hq hql hj hu)
    rw [exec_registerWrite_running hs (by omega), writeContext_queue s fn v hq hj, hw]
    rfl
  · intro s fn q v hs hl hq hql hr
    have he : exec (.registerWrite fn (0x1008 + 0x40 * q) v) s = .next (s.writeQueue fn q 0x08 v) := by
      rw [exec_registerWrite_running hs (by omega), ← writeContext_queue s fn v hq (by omega : 0x08 < 0x40)]
      congr 2
      omega
    refine ⟨fun hv => by rw [he, writeQueue_size_outOfRange fn q hv], fun h4 h16 hh => ?_⟩
    rw [writeQueue_size hl hql hr ⟨h4, h16⟩ hh] at he
    refine exec_of_register (u := fun f => { f with queues := f.queues.modify q (fun x => { x with size := BitVec.ofNat 5 (v.toNat % 32) }) }) hs hl he ?_
    rw [Fn.register_queue _ (by omega), show (0x1008 + 0x40 * q - 0x1000) / 0x40 = q by omega, show (0x1008 + 0x40 * q) % 0x40 = 0x08 by omega,
      getD_modify_eq, if_pos ⟨rfl, hql⟩]
    simp [Queue.read]
  · intro s fn n v hn hs hl hp
    refine exec_of_register hs hl (by rw [exec_registerWrite_running hs (by omega), writeContext_prog s fn v hn]) ?_
    rw [Fn.register_prog _ hn]
    simp [hp]
  · intro s core n v hn hc hl hb hs
    exact exec_breakpoint v hs hn hc hl hb
  · intro s fn v hs
    refine ⟨fun hv => ?_, fun hv => ?_, fun off ho hv => ?_, fun off ho => ?_⟩
    · rw [exec_registerWrite_running hs (by decide), writeContext_fltctl, if_neg (by omega)]
    · rw [exec_registerWrite_running hs (by decide), writeContext_presize, if_neg hv]
    · rw [exec_registerWrite_running hs (census_ne_fwstg off ho), writeContext_census_outOfRange ho s fn (by omega)]
    · rw [exec_registerWrite_running hs (readOnly_ne_fwstg off ho), writeContext_readOnly ho]
  · intro s fn v hs hl
    refine ⟨fun h4 h12 => ?_, fun hv => ?_, fun off ho hv hv56 => ?_⟩
    · refine exec_of_register hs hl (by rw [exec_registerWrite_running hs (by decide), writeContext_fltctl, if_pos ⟨h4, h12⟩]) ?_
      simp only [Fn.register, BitVec.toNat_ofNat]
      rw [Nat.mod_eq_of_lt (by omega)]
    · refine exec_of_register hs hl (by rw [exec_registerWrite_running hs (by decide), writeContext_presize, if_pos hv]) ?_
      simp only [Fn.register, toNat_and_presize]
    · obtain ⟨u, hw, hu⟩ := writeContext_census ho s fn ⟨hv, hv56⟩
      exact exec_of_register hs hl (by rw [exec_registerWrite_running hs (census_ne_fwstg off ho), hw]) (hu _)
  · intro s v
    exact ⟨fun h => by rw [exec_registerWrite_fwstg, if_pos h], fun h => by rw [exec_registerWrite_fwstg, if_neg h]⟩
  · exact fun s fn off v hs ho => exec_registerWrite_stopped hs ho

end Sys2Proof.Machine

/-! PROOFS. Dispatch (R22, R23, R36, R37, R40, R41, R158, R161): what placing a team adds to the state, how the next team of a grid is chosen and
placed, and what an allotment or a class request changes. -/

namespace Sys2Proof.Machine

/-! ## What the taking of scratch and of pools leaves -/

/-- Memory, groups, teams and grids are as they were. -/
structure State.SameWork (s t : State) : Prop where
  mem : t.mem = s.mem
  groups : t.groups = s.groups
  teams : t.teams = s.teams
  grids : t.grids = s.grids

theorem State.SameWork.refl (s : State) : s.SameWork s := ⟨rfl, rfl, rfl, rfl⟩

theorem State.SameWork.trans {s t u : State} (h : s.SameWork t) (k : t.SameWork u) : s.SameWork u :=
  ⟨k.mem.trans h.mem, k.groups.trans h.groups, k.teams.trans h.teams, k.grids.trans h.grids⟩

theorem State.sameWork_updCore (s : State) (core : Nat) (f : Core → Core) : s.SameWork (s.updCore core f) := ⟨rfl, rfl, rfl, rfl⟩
theorem State.sameWork_updCluster (s : State) (n : Nat) (f : Cluster → Cluster) : s.SameWork (s.updCluster n f) := ⟨rfl, rfl, rfl, rfl⟩

theorem State.sameWork_takeRange (s : State) (core size : Nat) (grid : Word) (team : Option Nat) : s.SameWork (s.takeRange core size grid team).1 := by
  unfold State.takeRange
  split
  · exact .refl s
  · exact ⟨rfl, rfl, rfl, rfl⟩

theorem State.sameWork_takeRegion (s : State) (g : Grid) (core : Nat) : s.SameWork (s.takeRegion g core) := by
  have hr : s.SameWork (if g.record.regionBytes = 0 then (s, 0) else s.takeRange core g.record.regionBytes g.num none).1 := by
    split
    · exact .refl s
    · exact s.sameWork_takeRange _ _ _ _
  unfold State.takeRegion
  split
  · exact .refl s
  · exact hr.trans (State.sameWork_updCore _ _ _)

theorem State.sameWork_poolDrop (s : State) (n : Nat) : s.SameWork (s.poolDrop n) := by
  unfold State.poolDrop
  dsimp only
  split
  · exact .refl s
  · split
    · exact s.sameWork_updCluster _ _
    · exact .refl s

theorem State.sameWork_poolDrops (s : State) (cores : List Nat) : s.SameWork (s.poolDrops cores) :=
  List.foldlRecOn _ _ (motive := s.SameWork) (.refl s) (fun t h n _ => h.trans (t.sameWork_poolDrop n))

/-! ## The groups of a new team -/

theorem newGroup_lane (grid : Word) (r : LaunchRecord) (b : TeamBox) (die team tn core slot gix : Nat) {l : Nat} (hl : l < r.w) :
    (newGroup grid r b die team tn core slot gix).lane l = newLane r b tn (gix * r.w + l) := by
  simp [newGroup, Group.lane, hl]

theorem newLane_frame (r : LaunchRecord) (b : TeamBox) (tn k : Nat) : (newLane r b tn k).frame = 0 := by
  unfold newLane
  split <;> rfl

/-- Every lane of a new group, existing or not, refers to the kernel frame. -/
theorem newGroup_lane_frame (grid : Word) (r : LaunchRecord) (b : TeamBox) (die team tn core slot gix l : Nat) :
    ((newGroup grid r b die team tn core slot gix).lane l).frame = 0 := by
  by_cases hl : l < r.w
  · rw [newGroup_lane _ _ _ _ _ _ _ _ _ hl, newLane_frame]
  · simp [newGroup, Group.lane, hl, Lane.absent]

/-- Every register of a new group's frame is 0 (R68). -/
theorem newGroup_regs (grid : Word) (r : LaunchRecord) (b : TeamBox) (die team tn core slot gix l n : Nat) :
    (newGroup grid r b die team tn core slot gix).laneV n l = 0 ∧ ((newGroup grid r b die team tn core slot gix).frm l).U n = 0 := by
  have hf : (newGroup grid r b die team tn core slot gix).frm l = (newGroup grid r b die team tn core slot gix).frames.headD Frame.none := by
    rw [Group.frm, newGroup_lane_frame]
    rfl
  have ht : ((newGroup grid r b die team tn core slot gix).frm l).tag n = .u 0 := by
    rw [hf]
    simp only [newGroup, List.headD_cons, Frame.tag, List.getD_eq_getElem?_getD, List.getElem?_replicate]
    split <;> rfl
  refine ⟨?_, ?_⟩
  · rw [Group.laneV, Group.readV, ht]
    rfl
  · rw [hf]
    simp only [newGroup, List.headD_cons, Frame.U, List.getD_eq_getElem?_getD, List.getElem?_replicate]
    split <;> rfl

theorem newGroup_fresh (g : Grid) (b : TeamBox) (die team core slot gix : Nat) :
    (newGroup g.num g.record b die team (b.ex * b.ey * b.ez) core slot gix).Fresh g b die (teamKey die team) core gix where
  place := ⟨rfl, rfl, rfl, rfl, rfl, rfl⟩
  thread l hl hk := by
    have hn : ¬ b.ex * b.ey * b.ez ≤ gix * g.record.w + l := Nat.not_le.2 hk
    rw [newGroup_lane _ _ _ _ _ _ _ _ _ hl, newLane, if_neg hn]
    exact ⟨rfl, rfl, rfl, rfl, rfl, rfl, rfl, rfl⟩
  absent l hl hk := by
    have hn : b.ex * b.ey * b.ez ≤ gix * g.record.w + l := hk
    rw [newGroup_lane _ _ _ _ _ _ _ _ _ hl, newLane, if_pos hn]
    rfl
  regs l n := newGroup_regs _ _ _ _ _ _ _ _ _ l n
  modes := ⟨rfl, rfl, rfl, rfl, rfl, rfl⟩

/-! ## A team placed by a plan -/

/-- One state is another with groups added: their cores and indices in order, and what holds of each. -/
def State.Adds (s t : State) (new : Group → Prop) (places : List (Nat × Nat)) : Prop :=
  ∃ gs, t = { s with groups := s.groups ++ gs } ∧ gs.map (fun y => (y.core, y.gix)) = places ∧ ∀ y ∈ gs, new y

/-- A fold of steps that add groups adds those of every step, in order. -/
theorem State.Adds.foldl {α : Type} {new : Group → Prop} {f : State → α → State} {places : α → List (Nat × Nat)}
    (hf : ∀ (s : State) x, s.Adds (f s x) new (places x)) (l : List α) (s : State) : s.Adds (l.foldl f s) new (l.flatMap places) := by
  induction l generalizing s with
  | nil => exact ⟨[], by simp, rfl, by simp⟩
  | cons x l ih =>
    obtain ⟨gs, hs, hp, hn⟩ := hf s x
    obtain ⟨gs', ht, hp', hn'⟩ := ih (f s x)
    refine ⟨gs ++ gs', ?_, by simp [hp, hp'], fun y hy => (List.mem_append.1 hy).elim (hn y) (hn' y)⟩
    rw [List.foldl_cons, ht, hs]
    simp

/-- One group of a team started on a core, in the slot that is free there (R37, log 25). -/
def State.startGroup (s : State) (g : Grid) (die : Nat) (b : TeamBox) (team core i : Nat) : State :=
  { s with groups := s.groups ++ [newGroup g.num g.record b die team (b.ex * b.ey * b.ez) core (s.freeSlot core) i] }

/-- The groups of a team started on the cores of a plan, core by core, in ascending index (R37). -/
def State.startGroups (s : State) (g : Grid) (die : Nat) (b : TeamBox) (team : Nat) (p : Plan) : State :=
  p.foldl (fun s x => x.2.foldl (fun s i => s.startGroup g die b team x.1 i) s) s

theorem State.startGroup_adds (s : State) (g : Grid) (die : Nat) (b : TeamBox) (team core i : Nat) :
    s.Adds (s.startGroup g die b team core i) (fun y => y.Fresh g b die (teamKey die team) y.core y.gix) [(core, i)] :=
  ⟨[_], rfl, rfl, List.forall_mem_singleton.2 (newGroup_fresh g b die team core (s.freeSlot core) i)⟩

theorem State.startGroups_adds (s : State) (g : Grid) (die : Nat) (b : TeamBox) (team : Nat) (p : Plan) :
    s.Adds (s.startGroups g die b team p) (fun y => y.Fresh g b die (teamKey die team) y.core y.gix) (p.flatMap (fun y => y.2.map (fun i => (y.1, i)))) := by
  refine State.Adds.foldl (fun s x => ?_) p s
  rw [List.map_eq_flatMap]
  exact State.Adds.foldl (fun s i => s.startGroup_adds g die b team x.1 i) x.2 s

/-- The record of a new team (R22, R36). -/
def newTeam (g : Grid) (die : Nat) (b : TeamBox) (team cls age : Nat) (ws : List (Nat × Nat)) : Team :=
  { grid := g.num, num := teamKey die team, die := die, box := b, tn := b.ex * b.ey * b.ez, gcnt := ceilDiv (b.ex * b.ey * b.ez) g.record.w,
    ss := g.record.sf + g.record.si * (b.ex * b.ey * b.ez), windows := ws, tp := List.replicate 19 0, ncnt := List.replicate 16 1, eAll := 0, eSub := 0,
    sectors := [], qAll := 0, qHit := 0, cyStart := none, cyEnd := none, cls := cls, timer := none, evicted := false, age := age }

/-- Placing a team takes its scratch on each core, starts its groups and enters its record. -/
theorem State.placeTeam_eq (s : State) (g : Grid) (die : Nat) (b : TeamBox) (team cls : Nat) (p : Plan) :
    ∃ s0 ws, s.SameWork s0 ∧ s.placeTeam g die b team cls p =
      { s0.startGroups g die b team p with
        stamp := (s0.startGroups g die b team p).stamp + 1
        teams := (s0.startGroups g die b team p).teams ++ [newTeam g die b team cls ((s0.startGroups g die b team p).stamp + 1) ws] } := by
  refine ⟨_, _, ?_, rfl⟩
  refine List.foldlRecOn _ _ (motive := fun y : State × List (Nat × Nat) => s.SameWork y.1) (.refl s) (fun y hy x _ => hy.trans ?_)
  refine (y.1.sameWork_takeRegion g x.1).trans ?_
  dsimp only
  split
  · exact .refl _
  · exact State.sameWork_takeRange _ _ _ _ _

theorem State.placeTeam_result (s : State) (g : Grid) (die : Nat) (b : TeamBox) (team cls : Nat) (p : Plan) :
    ∃ age ws gs, (s.placeTeam g die b team cls p).mem = s.mem ∧ (s.placeTeam g die b team cls p).grids = s.grids ∧
      (s.placeTeam g die b team cls p).teams = s.teams ++ [newTeam g die b team cls age ws] ∧ (s.placeTeam g die b team cls p).groups = s.groups ++ gs ∧
      gs.map (fun y => (y.core, y.gix)) = p.flatMap (fun y => y.2.map (fun i => (y.1, i))) ∧ ∀ y ∈ gs, y.Fresh g b die (teamKey die team) y.core y.gix := by
  obtain ⟨s0, ws, h0, he⟩ := s.placeTeam_eq g die b team cls p
  obtain ⟨gs, hs, hp, hn⟩ := s0.startGroups_adds g die b team p
  rw [he, hs]
  exact ⟨_, ws, gs, h0.mem, h0.grids, by rw [h0.teams], by rw [h0.groups], hp, hn⟩

/-! ## A change of a grid's cut -/

@[simp] theorem State.updCut_mem (s : State) (grid : Word) (die : Nat) (f : DieCut → DieCut) : (s.updCut grid die f).mem = s.mem := rfl
@[simp] theorem State.updCut_groups (s : State) (grid : Word) (die : Nat) (f : DieCut → DieCut) : (s.updCut grid die f).groups = s.groups := rfl
@[simp] theorem State.updCut_teams (s : State) (grid : Word) (die : Nat) (f : DieCut → DieCut) : (s.updCut grid die f).teams = s.teams := rfl
@[simp] theorem State.updCut_grids_length (s : State) (grid : Word) (die : Nat) (f : DieCut → DieCut) : (s.updCut grid die f).grids.length = s.grids.length :=
  List.length_map ..

/-- The grid after a change of its cut on a die. -/
theorem State.updCut_grid? {s : State} {g : Grid} (h : s.grid? g.num = some g) (die : Nat) (f : DieCut → DieCut) :
    (s.updCut g.num die f).grid? g.num = some ({ g with cuts := g.cuts.modify die f } : Grid).noteAsks := by
  refine (State.updGrid_grid? s g.num g.num (fun x => ({ x with cuts := x.cuts.modify die f } : Grid).noteAsks) (fun _ => rfl)).trans ?_
  rw [if_pos rfl, h]
  rfl

/-- A change of a grid's cut leaves its number and its record. -/
theorem State.updCut_grid_parts {s : State} {g g1 : Grid} {die : Nat} {f : DieCut → DieCut} (h : s.grid? g.num = some g)
    (h1 : (s.updCut g.num die f).grid? g.num = some g1) : g1.num = g.num ∧ g1.record = g.record ∧ g1.cuts = g.cuts.modify die f := by
  obtain rfl := Option.some.inj (h1.symm.trans (State.updCut_grid? h die f))
  exact ⟨rfl, rfl, rfl⟩

/-! ## The next team is chosen and placed -/

/-- Where no window is held the head of the undispatched teams is chosen (R31). -/
theorem DieCut.choose_next {r : LaunchRecord} {c : DieCut} {b : TeamBox} {rest : List TeamBox} (hf : r.recutmax ≤ c.recuts) (hc : c.chosen = none)
    (ht : c.todo = b :: rest) : c.choose r = { c with todo := rest, chosen := some (b, c.cls, c.teams), teams := c.teams + 1 } := by
  have hh : c.holding r = false := decide_eq_false (Nat.not_lt.2 hf)
  have hb : c.begin r = c := by rw [DieCut.begin, ht]
  simp [DieCut.choose, hc, hh, hb, ht]

theorem ceilDiv_pos {a b : Nat} (ha : 0 < a) (hb : 0 < b) : 0 < ceilDiv a b := Nat.div_pos (by omega) hb

/-- Without a core that it may go to, a team of at least one group has no plan. -/
theorem State.plan_of_no_core (s : State) (g : Grid) (die : Nat) (last : Option Nat) (tn ss : Nat) {gcnt : Nat} {ok : Nat → Bool}
    (hg : 0 < gcnt) (hok : ∀ c, ok c = false) : s.plan g die last tn gcnt ss ok = none := by
  have hl : gcnt ≠ 0 := Nat.ne_of_gt hg
  have hf : ∀ l : List Nat, l.find? (fun _ => false) = none := fun l => List.find?_eq_none.2 (fun _ _ => Bool.false_ne_true)
  have he : ∀ l : List Nat, l.filter (fun _ => false) = [] := fun l => List.filter_eq_nil_iff.2 (fun _ _ => Bool.false_ne_true)
  by_cases hs : g.record.spansTwin tn = true
  · simp only [State.plan, hok, hs, hf, Bool.and_false, Bool.false_and, if_true, Option.map_none]
  · cases hb : g.record.barrier with
    | true => simp only [State.plan, hok, hs, hf, hb, Bool.and_false, Bool.false_and, Bool.false_eq_true, if_false, if_true]
    | false => simp only [State.plan, hok, hs, hf, hb, he, hl, Bool.and_false, Bool.false_and, Bool.false_eq_true, if_false, List.foldl_nil]

/-- A chosen team for which no cluster moves goes to the cores that are found for its class (R37, R158). -/
theorem State.placeChosen_cores {s : State} {grid : Word} {die n cls : Nat} {g : Grid} {c : DieCut} {b : TeamBox} {p : Plan} (hg : s.grid? grid = some g)
    (hc : g.cuts[die]? = some c) (hb : c.chosen = some (b, cls, n)) (hm : c.moving = []) (hn : 0 < ceilDiv (b.ex * b.ey * b.ez) g.record.w)
    (hp : s.placing g die c.last (b.ex * b.ey * b.ez) (ceilDiv (b.ex * b.ey * b.ez) g.record.w) (g.record.sf + g.record.si * (b.ex * b.ey * b.ez))
      (min cls s.cap) = .cores p) :
    s.placeChosen grid die = ((s.placeTeam g die b n (min cls s.cap) p).poolDrops (p.map Prod.fst)).updCut grid die
      (fun c => { c with chosen := none, moving := [], last := p.getLast?.map Prod.fst }) := by
  have hplan := fun k => s.plan_of_no_core g die c.last (b.ex * b.ey * b.ez) (g.record.sf + g.record.si * (b.ex * b.ey * b.ez)) hn
    (ok := fun x => c.moving.contains (clusterOf x) && (s.cluster (clusterOf x)).pool == k) (by simp [hm])
  simp only [State.placeChosen, hg, hc, hb, hplan, hp]
  simp [hm]

/-- With a team to choose, TEAM_DISPATCH chooses it and places it. -/
theorem State.teamDispatch_next {s : State} {die : Nat} {g : Grid} {c : DieCut} {b : TeamBox} (h : s.NextTeam die g c b) :
    s.teamDispatch die g.num = (s.updCut g.num die (DieCut.choose g.record)).placeChosen g.num die := by
  have hr : s.restoresFirst g.num = false := by simp [State.restoresFirst, h.grid, h.units]
  simp [State.teamDispatch, hr, h.slices, State.dispatchOne, h.grid, h.cut, h.released, h.going, h.takes, h.places, h.loose]

/-- TEAM_DISPATCH places the next team on the cores found for its class. -/
theorem State.teamDispatch_placed {s : State} {die : Nat} {g g1 : Grid} {c : DieCut} {b : TeamBox} {p : Plan} (h : s.NextTeam die g c b)
    (hg : (s.updCut g.num die (DieCut.choose g.record)).grid? g.num = some g1)
    (hp : (s.updCut g.num die (DieCut.choose g.record)).placing g1 die c.last (b.ex * b.ey * b.ez) (ceilDiv (b.ex * b.ey * b.ez) g.record.w)
      (g.record.sf + g.record.si * (b.ex * b.ey * b.ez)) (min c.cls s.cap) = .cores p) :
    g1.num = g.num ∧ g1.record = g.record ∧ s.teamDispatch die g.num =
      (((s.updCut g.num die (DieCut.choose g.record)).placeTeam g1 die b c.teams (min c.cls s.cap) p).poolDrops (p.map Prod.fst)).updCut g.num die
        (fun c => { c with chosen := none, moving := [], last := p.getLast?.map Prod.fst }) := by
  obtain ⟨rest, ht⟩ := h.next
  obtain ⟨hn, hr, hcuts⟩ := State.updCut_grid_parts h.grid hg
  have hc1 : g1.cuts[die]? = some (c.choose g.record) := by
    rw [hcuts, List.getElem?_modify_eq, h.cut]
    rfl
  rw [DieCut.choose_next h.fixed h.free ht] at hc1
  refine ⟨hn, hr, (State.teamDispatch_next h).trans ?_⟩
  exact State.placeChosen_cores hg hc1 rfl h.still (hr ▸ ceilDiv_pos h.some.1 h.some.2) (hr ▸ hp)

/-! ## Allotments and class requests -/

section
variable {s : State} {die : Nat} {g : Grid} {c : DieCut} (hg : s.grid? g.num = some g) (hc : g.cuts[die]? = some c)
include hg hc

/-- A die of this device whose request is not the first that waits is not served (R40). -/
theorem State.allotmentGrant_unserved (hd : die < 2) (hq : c.requested = false ∨ g.askers.head? ≠ some die) : s.allotmentGrant die g.num = s := by
  have hs : (!c.requested || g.askers.head? != some die) = true := by simpa using hq
  simp [State.allotmentGrant, hg, hc, Nat.mod_eq_of_lt hd, Nat.not_le.2 hd, hs]

variable (hx : g.cancelSeen = false) (hq : c.requested = true) (ha : g.askers.head? = some die)
include hx hq ha

/-- The die whose request came first receives the next allotment of the pool (R40). -/
theorem State.allotmentGrant_pool (hd : die < 2) (hr : g.record.reach ≠ 2) {a : Nat × Nat} {rest : List (Nat × Nat)} (hp : g.pool = a :: rest) :
    s.allotmentGrant die g.num =
      (s.updGrid g.num (fun x => { x with pool := rest })).updCut g.num die (fun y => { y with allots := y.allots ++ [a], requested := false }) := by
  simp [State.allotmentGrant, hg, hc, Nat.mod_eq_of_lt hd, Nat.not_le.2 hd, hr, hx, hq, ha, hp]

/-- Where no allotment is left the die whose request came first ends its dispatch (R40). -/
theorem State.allotmentGrant_empty (hd : die < 2) (hr : g.record.reach ≠ 2) (hp : g.pool = []) :
    s.allotmentGrant die g.num = s.updCut g.num die (fun y => { y with requested := false, ended := true }) := by
  simp [State.allotmentGrant, hg, hc, Nat.mod_eq_of_lt hd, Nat.not_le.2 hd, hr, hx, hq, ha, hp]

/-- What the root sends serves the die whose request came first (R40, R41). -/
theorem State.allotmentArrival_served (lo len : Nat) (hr : g.record.reach = 2) : s.allotmentArrival die g.num lo len = s.updCut g.num die (fun y =>
      if len = 0 then { y with requested := false, ended := true } else { y with requested := false, allots := y.allots ++ [(lo, len)] }) := by
  simp [State.allotmentArrival, hg, hc, hr, hx, hq, ha]

end

theorem State.classArrival_local {s : State} {die : Nat} {r : ClassRequest} (h : s.classRequests.find? (fun x => x.die == die) = some r) :
    s.classArrival die none = ({ s with classRequests := s.classRequests.erase r } : State).updCut r.grid die (fun y => { y with cls := r.cls }) := by
  rw [State.classArrival, h]

theorem State.classArrival_remote {s : State} {g : Grid} (h : s.grid? g.num = some g) (hr : g.record.reach = 2) (die k : Nat) :
    s.classArrival die (some (g.num, k)) = s.updCut g.num die (fun y => { y with cls := k % 8 }) := by
  simp [State.classArrival, h, hr]

/-! ## The steps -/

theorem exec_teamDispatch (s : State) (die : Nat) (grid : Word) : exec (.teamDispatch die grid) s = .next (s.teamDispatch die grid) := rfl
theorem exec_allotmentGrant (s : State) (die : Nat) (grid : Word) : exec (.allotmentGrant die grid) s = .next (s.allotmentGrant die grid) := rfl
theorem exec_allotmentArrival (s : State) (die : Nat) (grid : Word) (lo len : Nat) :
    exec (.allotmentArrival die grid lo len) s = .next (s.allotmentArrival die grid lo len) := rfl
theorem exec_classRequestArrival (s : State) (die : Nat) (remote : Option (Word × Nat)) :
    exec (.classRequestArrival (die, remote)) s = .next (s.classArrival die remote) := rfl

/-- Settles O41: a next team is chosen and placed by the plan found for its class; an allotment or a class request
changes the cut of its die, and an allotment granted leaves the pool. -/
theorem dispatchSteps : Obligations.DispatchSteps := by
  unfold Obligations.DispatchSteps
  refine ⟨?_, ?_, ?_, ?_, ?_, ?_⟩
  · rintro s _ die g g1 c b p h rfl hg hp
    obtain ⟨hnum, hrec, ht⟩ := State.teamDispatch_placed h hg hp
    obtain ⟨age, ws, gs, hmem, hgrids, hteams, hgroups, hplaces, hfresh⟩ :=
      (s.updCut g.num die (DieCut.choose g.record)).placeTeam_result g1 die b c.teams (min c.cls s.cap) p
    have hd := State.sameWork_poolDrops ((s.updCut g.num die (DieCut.choose g.record)).placeTeam g1 die b c.teams (min c.cls s.cap) p) (p.map Prod.fst)
    refine ⟨_, newTeam g1 die b c.teams (min c.cls s.cap) age ws, gs, by rw [exec_teamDispatch, ht], ?_, ?_, ?_, hnum, rfl, rfl, rfl, rfl, ?_, ?_, rfl, ?_, hplaces,
      fun y hy => ?_⟩
    · rw [State.updCut_mem, hd.mem, hmem, State.updCut_mem]
    · rw [State.updCut_grids_length, hd.grids, hgrids, State.updCut_grids_length]
    · rw [State.updCut_teams, hd.teams, hteams, State.updCut_teams]
    · rw [newTeam, hrec]
    · rw [newTeam, hrec]
    · rw [State.updCut_groups, hd.groups, hgroups, State.updCut_groups]
    · obtain ⟨place, thread, absent, regs, modes⟩ := hfresh y hy
      rw [hnum, hrec] at place
      rw [hrec] at thread
      exact ⟨place, thread, absent, regs, modes⟩
  · intro s die g c hg hd hc hr hx hq ha
    rw [exec_allotmentGrant]
    cases hp : g.pool with
    | nil => rw [State.allotmentGrant_empty hg hc hx hq ha hd hr hp]
    | cons a rest => rw [State.allotmentGrant_pool hg hc hx hq ha hd hr hp]
  · intro s die g c hg hd hc _ hq
    rw [exec_allotmentGrant, State.allotmentGrant_unserved hg hc hd hq]
  · intro s die lo len g c hg hc hr hx hq ha
    rw [exec_allotmentArrival, State.allotmentArrival_served hg hc hx hq ha lo len hr]
  · intro s die r h
    rw [exec_classRequestArrival, State.classArrival_local h]
  · intro s die k g hg hr
    rw [exec_classRequestArrival, State.classArrival_remote hg hr]

end Sys2Proof.Machine

/-! PROOFS. A step (R45, R47, R194, R198 to R200, R420): what is executed once it is known what comes next, the words that a fetch finds, and
the issue of the only path of an only group. -/

namespace Sys2Proof.Machine

/-! ## The instruction of a word -/

theorem instrOf_ok {w : Word} {i : Instr} (h : decode w = .ok i) (pc : DWord) : instrOf pc w = i := by
  rw [instrOf, h]

theorem instrOf_error {w : Word} {r : Reject} (h : decode w = .error r) (pc : DWord) : instrOf pc w = .illegalWord pc w := by
  rw [instrOf, h]

/-! ## What comes next is executed -/

/-- What is chosen carries the state that it is executed in. -/
theorem State.execute_some (s t : State) (c : Choice) : s.execute (some c) = t.execute (some c) := by
  cases c <;> rfl

theorem step_of_next_some {s : State} {c : Choice} (h : s.Next (some c)) : step s = s.execute (some c) := by
  cases h with
  | goesOn _ h => rw [step, h]
  | chosen _ h a k =>
    simp only [step, h, a, k]
    exact State.execute_some ..
  | picked _ n rest h a k =>
    simp only [step, h, a, k]
    exact State.execute_some ..

/-- With nothing to do a nanosecond passes; a pick that found nothing is used up. -/
theorem step_of_next_none {s : State} (h : s.Next none) : step s = .next (({ s.clocked with
    agenda := s.clocked.agenda.drop 1
    cur := if s.clocked.agenda = [] then s.clocked.cur else none }.elapse 1).settle) := by
  cases h with
  | chosen _ h a k =>
    have hs : step s = .next ((s.clocked.elapse 1).settle) := by
      simp only [step, h, a, k]
      rfl
    have hd : s.clocked.agenda.drop 1 = s.clocked.agenda := by
      rw [a]
      rfl
    rw [hs, hd, if_pos a]
  | picked _ n rest h a k =>
    simp only [step, h, a, k]
    rfl

theorem step_of_event {s : State} {e : Instr} {rest : List Move} (h : s.ongoing = none) (a : s.clocked.agenda = .event e :: rest) :
    step s = if State.clockStopped { s.clocked with agenda := rest, cur := none } e then .next (State.settle { s.clocked with agenda := rest, cur := none })
      else State.finish { s.clocked with agenda := rest, cur := none } (exec e { s.clocked with agenda := rest, cur := none }) := by
  simp only [step, h, a]

theorem step_of_word {s t : State} {w : Word} {i : Instr} (h : s.Next (some (.word w t))) (hd : decode w = .ok i) : step s = t.finish (exec i t) := by
  rw [step_of_next_some h, State.execute, instrOf_ok hd]

theorem step_of_illegal {s t : State} {w : Word} {r : Reject} (h : s.Next (some (.word w t))) (hd : decode w = .error r) :
    step s = t.finish (exec (.illegalWord ((t.cur.map Cur.pc).getD 0) w) t) := by
  rw [step_of_next_some h, State.execute, instrOf_error hd]

/-! ## Fetching (R194, R198, R420) -/

/-- One state is another with other groups and other entries in the translation caches, as a walk for lanes leaves it (R370). -/
def State.Walked (s t : State) : Prop := t = { s with groups := t.groups, tlb := t.tlb }

theorem State.laneWalk_walked {core slot issue : Nat} {m : LaneSet} {s r : State} {va : DWord} {x : Xlat}
    (h : State.laneWalk core slot m issue s va = some (r, x)) : s.Walked r := by
  obtain ⟨g, -, h⟩ := Option.bind_eq_some_iff.1 h
  obtain ⟨y, -, h⟩ := Option.map_eq_some_iff.1 h
  obtain ⟨rfl, -⟩ := Prod.mk.inj h
  refine List.foldlRecOn _ _ (motive := s.Walked) rfl (fun t ht a _ => ?_)
  unfold State.Walked at ht ⊢
  rw [ht]
  rfl

/-- Where there is no bit error and no device is lost, a read meets none and counts none (R377, R379, R408). -/
theorem State.noteErrors_clean {s : State} (h : s.bitErrors = []) (fn k n : Nat) : s.noteErrors fn k n = s := by
  simp [State.noteErrors, h]

theorem State.uncorrectable_clean {s : State} (h : s.bitErrors = []) (hl : s.lostPeers = []) (k n : Nat) : s.uncorrectable k n = false := by
  simp [State.uncorrectable, h, hl]

section
variable {s r : State} {g : Group} {m : LaneSet} {pc : DWord} {x : Xlat} {k : Nat} (hb : s.bitErrors = []) (hp : s.lostPeers = [])
  (hw : State.laneWalk g.core g.slot m g.nextId s pc = some (r, x))
include hb hp hw

/-- What follows a walk meets no error, counts none, and reads what stood in memory before the walk. -/
theorem State.laneWalk_clean (fn n : Nat) (core : Option Nat) (scope : Nat) :
    r.noteErrors fn k n = r ∧ r.uncorrectable k n = false ∧ r.readKey core scope k n = s.readKey core scope k n := by
  have hr := State.laneWalk_walked hw
  have hb' : r.bitErrors = [] := by rw [hr]; exact hb
  have hp' : r.lostPeers = [] := by rw [hr]; exact hp
  have hk : r.readKey core scope k n = s.readKey core scope k n := by rw [hr]; rfl
  exact ⟨State.noteErrors_clean hb' fn k n, State.uncorrectable_clean hb' hp' k n, hk⟩

variable (hj : r.judge (s.fnOf g.grid) ⟨false, true, false⟩ 4 x = .ok k)
include hj

/-- The word that ends its chain or stands last in its packet is fetched alone (R198). -/
theorem State.fetchFrom_last (n : Nat) (hc : wordChain (leWord (s.readKey (some g.core) 4 k 4)) = false ∨ slotOf pc = 2) :
    s.fetchFrom g m (n + 1) pc = (r, .words [leWord (s.readKey (some g.core) 4 k 4)]) := by
  obtain ⟨hn, hu, hk⟩ := State.laneWalk_clean (k := k) hb hp hw (s.fnOf g.grid) 4 (some g.core) 4
  have he : (wordChain (leWord (s.readKey (some g.core) 4 k 4)) && slotOf pc != 2) = false := by
    rcases hc with hc | hc <;> simp [hc]
  simp only [State.fetchFrom, hw, hj, hn, hu, hk, he, Bool.false_eq_true, if_false]

/-- A word with the chain bit goes in front of the words after it (R198). -/
theorem State.fetchFrom_chained {t : State} {n : Nat} {ws : List Word} (hc : wordChain (leWord (s.readKey (some g.core) 4 k 4)) = true)
    (hs : slotOf pc ≠ 2) (hf : r.fetchFrom g m n (pc + 4) = (t, .words ws)) :
    s.fetchFrom g m (n + 1) pc = (t, .words (leWord (s.readKey (some g.core) 4 k 4) :: ws)) := by
  obtain ⟨hn, hu, hk⟩ := State.laneWalk_clean (k := k) hb hp hw (s.fnOf g.grid) 4 (some g.core) 4
  have he : (wordChain (leWord (s.readKey (some g.core) 4 k 4)) && slotOf pc != 2) = true := by
    simp [hc, hs]
  simp only [State.fetchFrom, hw, hj, hn, hu, hk, he, Bool.false_eq_true, if_false, if_true, hf]

end

/-! ## The only path of an only group issues -/

/-- A word alone, without the chain bit, is a legal chain (R199, R419). -/
theorem chainFault_alone (slot : Nat) {w : Word} (h : wordChain w = false) : chainFault slot [] [w] 0 = none := by
  cases hc : wordClass w <;> simp [chainFault, h, hc]

section
variable {s t : State} {g : Group} {p : Path} {w : Word} {m : Means} (h : s.Issues g p w m t)
include h

/-- No chain has issued that could go on. -/
theorem State.Issues.ongoing : s.ongoing = none := by
  simp [State.ongoing, h.only, State.goingOn, h.boundary]

/-- No time passes. -/
theorem State.Issues.clocked : s.clocked = s := by
  rw [State.clocked, h.clock]

/-- The path, looked at, can issue its chain. -/
theorem State.Issues.look : ∃ v, State.look { s with turn := g.partition + 1 } g p id = .issues [w] m v t := by
  obtain ⟨v, hv⟩ := h.ahead
  have hf : t.firstFault g p [w] 0 = none := by
    simp [State.firstFault, h.clean]
  refine ⟨v, ?_⟩
  simp only [State.look, h.free, h.fetch, chainFault_alone (slotOf p.pc) h.last, hf, id, hv, h.unbroken, Bool.or_false, Bool.false_eq_true, if_false]

/-- The group's choice is the word of its path, in the state in which its chain stands issued. -/
theorem State.Issues.groupChoice :
    State.groupChoice { s with turn := g.partition + 1 } g = some (.word w ((t.addChain g p [w] m).enter g (t.chainOf g p [w] m))) := by
  obtain ⟨v, hv⟩ := h.look
  have hn : (List.range g.w).find? (fun l => (g.lane l).run.runnable && g.atBoundary l && !g.chains.any (fun c => c.lanes.has l) &&
      !g.wideHeld (LaneSet.one l) && (g.dueFault l).isSome) = none := by
    rw [List.find?_eq_none]
    intro l hl
    simp [h.due l hl]
  have hs : State.startChains { s with turn := g.partition + 1 } g = some ((t.addChain g p [w] m).begin g (t.chainOf g p [w] m)) := by
    simp only [State.startChains, h.path, hv]
  rw [State.groupChoice, h.may, hn]
  exact hs

/-- The machine chooses that word. -/
theorem State.Issues.next : s.Next (some (.word w ((t.addChain g p [w] m).enter g (t.chainOf g p [w] m)))) := by
  have hf : s.groups.filter (fun g => decide (s.turn ≤ g.partition)) = [g] := by
    rw [h.only]
    exact List.filter_cons_of_pos (decide_eq_true h.turn)
  have hi : s.inOrder [g] = [g] := rfl
  have ho : s.firstChoice [g] = some (.word w ((t.addChain g p [w] m).enter g (t.chainOf g p [w] m))) := by
    rw [State.firstChoice, hi, List.findSome?_cons, h.groupChoice]
  refine .chosen _ h.ongoing (by rw [h.clocked, h.agenda]) ?_
  rw [h.clocked, State.choose, hf, ho]

end

/-- Settles O54: what comes next is executed as the instruction that it is, the words of a chain are those at its addresses, and the only path of
an only group issues the word that was fetched for it. -/
theorem stepRunsDecoded : Obligations.StepRunsDecoded := by
  unfold Obligations.StepRunsDecoded
  refine ⟨fun s t w h => ⟨fun i hi => step_of_word h hi, fun r hr => step_of_illegal h hr⟩, fun s t i h => step_of_next_some h,
    fun s t h => step_of_next_some h, fun s h => step_of_next_none h, fun s e rest h a => ?_, fun s r g m n pc x k hb hp hw hj => ?_,
    fun s t g p w m i h hi => step_of_word h.next hi⟩
  · have hs := step_of_event (Option.isNone_iff_eq_none.1 h) a
    exact ⟨fun hc => hs.trans (if_neg (by simp [hc])), fun hc => hs.trans (if_pos hc)⟩
  · exact ⟨fun hc => State.fetchFrom_last hb hp hw hj n hc, fun t ws hc hs hf => State.fetchFrom_chained hb hp hw hj hc hs hf⟩

end Sys2Proof.Machine

/-! PROOFS. Barriers (R53 to R57, R350): lanes set to run behind an acquire, an arrival whose release has completed, when a phase is complete, and
a phase released. -/

namespace Sys2Proof.Machine

/-! ## Sets of lanes -/

theorem LaneSet.eq_zero_iff (m : LaneSet) : (m == 0) = true ↔ ∀ l, m.has l = false := by
  rw [beq_iff_eq]
  exact ⟨fun h l => by simp [h, LaneSet.has], fun h => Laws.laneSet_ext (fun l => (h l).trans (by simp [LaneSet.has]))⟩

/-! ## Acquires (R128) -/

/-- An acquire fence of lanes put in force for a group. -/
def Group.acquire (g : Group) (m : LaneSet) : Group :=
  { g with
    holds := g.holds ++ [{ id := g.nextId, lanes := m, mark := none, before := none }]
    nextId := g.nextId + 1 }

/-- An acquire fence of the lanes of a set, where it has any. -/
def Group.acquireSome (g : Group) (m : LaneSet) : Group := if m == 0 then g else g.acquire m

theorem State.addHold_eq (s : State) (core slot : Nat) (m : LaneSet) : s.addHold core slot m = s.updGroup core slot (fun g => g.acquire m) := rfl

theorem Group.acquireSome_rest (g : Group) (m : LaneSet) :
    g.acquireSome m = { g with holds := (g.acquireSome m).holds, nextId := (g.acquireSome m).nextId } := by
  unfold Group.acquireSome
  split <;> rfl

@[simp] theorem Group.acquireSome_lane (g : Group) (m : LaneSet) (l : Nat) : (g.acquireSome m).lane l = g.lane l := by
  rw [Group.acquireSome_rest]
  rfl

theorem Group.acquireSome_of_mem {m : LaneSet} {l : Nat} (h : m.has l = true) (g : Group) :
    ∃ x : Hold, (g.acquireSome m).holds = g.holds ++ [x] ∧ x.lanes = m := by
  have hm : ¬(m == 0) = true := fun hz => by simp [(LaneSet.eq_zero_iff m).1 hz l] at h
  rw [Group.acquireSome, if_neg hm]
  exact ⟨_, rfl, rfl⟩

theorem Group.acquireSome_of_empty {m : LaneSet} (h : ∀ l, m.has l = false) (g : Group) : g.acquireSome m = g :=
  if_pos ((LaneSet.eq_zero_iff m).2 h)

theorem State.updGroup_id (s : State) (core slot : Nat) : s.updGroup core slot (fun g => g) = s := by
  simp [State.updGroup]

theorem State.addHold_some (s : State) (core slot : Nat) (m : LaneSet) :
    (if m == 0 then s else s.addHold core slot m) = s.updGroup core slot (fun g => g.acquireSome m) := by
  cases h : m == 0
  · simp only [Group.acquireSome, h, Bool.false_eq_true, if_false]
    rfl
  · simp only [Group.acquireSome, h, if_true]
    exact (s.updGroup_id core slot).symm

/-! ## Arrivals (R54, R57) -/

theorem phaseAhead_iff (lp tp : Half) : phaseAhead lp tp = true ↔ 0 < (lp - tp).toInt := decide_eq_true_iff

section
variable (bar stamp : Nat) (copies : List Nat)

theorem Group.arriveLane_old {g : Group} {bar : Nat} {ph tp : Half} (h : phaseAhead ph tp = true → ph = g.gp.getD bar 0) :
    g.arriveLane bar ph tp stamp copies = g := by
  refine if_pos ?_
  cases hp : phaseAhead ph tp with
  | false => rfl
  | true => simpa using h hp

theorem Group.arriveLane_new {g : Group} {bar : Nat} {ph tp : Half} (h : phaseAhead ph tp = true) (hn : ph ≠ g.gp.getD bar 0) :
    g.arriveLane bar ph tp stamp copies = { g with
      gp := g.gp.set bar ph
      arrivedAt := g.arrivedAt.set bar stamp
      twinCopies := if bar = 1 then copies else g.twinCopies } :=
  if_neg (by rw [h, beq_false_of_ne hn]; exact Bool.false_ne_true)

theorem Group.arriveLane_of_not_ahead {ph tp : Half} (h : phaseAhead ph tp = false) (g : Group) : g.arriveLane bar ph tp stamp copies = g :=
  Group.arriveLane_old stamp copies (fun hp => by rw [h] at hp; cases hp)

/-- A second lane at the same phase adds nothing to its group's arrival. -/
theorem Group.arriveLane_arriveLane (g : Group) (ph tp : Half) :
    (g.arriveLane bar ph tp stamp copies).arriveLane bar ph tp stamp copies = g.arriveLane bar ph tp stamp copies := by
  by_cases h : phaseAhead ph tp = true → ph = g.gp.getD bar 0
  · rw [Group.arriveLane_old stamp copies h, Group.arriveLane_old stamp copies h]
  obtain ⟨ha, hn⟩ := Classical.not_imp.1 h
  rw [Group.arriveLane_new stamp copies ha hn]
  by_cases hs : ph = (g.gp.set bar ph).getD bar 0
  · exact Group.arriveLane_old stamp copies (fun _ => hs)
  · rw [Group.arriveLane_new stamp copies ha hs]
    simp only [List.set_set]
    split <;> rfl

theorem Group.arriveLane_rest (g : Group) (ph tp : Half) :
    g.arriveLane bar ph tp stamp copies =
      { g with
        gp := (g.arriveLane bar ph tp stamp copies).gp
        arrivedAt := (g.arriveLane bar ph tp stamp copies).arrivedAt
        twinCopies := (g.arriveLane bar ph tp stamp copies).twinCopies } := by
  unfold Group.arriveLane
  split <;> rfl

/-- A group that arrives has the phase of its lane; it is stamped, and at the twin barrier waits for its copies, when the phase is new. -/
theorem Group.arriveLane_of_ahead {ph tp : Half} (h : phaseAhead ph tp = true) (g : Group) :
    (g.arriveLane bar ph tp stamp copies).gp = g.gp.set bar ph ∧
      (ph ≠ g.gp.getD bar 0 → (g.arriveLane bar ph tp stamp copies).arrivedAt = g.arrivedAt.set bar stamp ∧
        (bar = 1 → (g.arriveLane bar ph tp stamp copies).twinCopies = copies)) := by
  by_cases hp : ph = g.gp.getD bar 0
  · rw [Group.arriveLane_old stamp copies (fun _ => hp)]
    refine ⟨?_, fun hn => absurd hp hn⟩
    by_cases hl : bar < g.gp.length
    · simp [hp, hl]
    · exact (List.set_eq_of_length_le (Nat.le_of_not_lt hl)).symm
  · rw [Group.arriveLane_new stamp copies h hp]
    exact ⟨rfl, fun _ => ⟨rfl, fun hb => if_pos hb⟩⟩

theorem Group.arriveLane_gp_other {k : Nat} (hk : k ≠ bar) (g : Group) (ph tp : Half) :
    (g.arriveLane bar ph tp stamp copies).gp.getD k 0 = g.gp.getD k 0 := by
  unfold Group.arriveLane
  split
  · rfl
  · simp [List.getD_eq_getElem?_getD, List.getElem?_set_ne hk.symm]

end

/-- The group with the arrival of lanes, each at its phase, counted. -/
def Group.arriveLanes (g : Group) (bar : Nat) (phase : Nat → Half) (tp : Half) (stamp : Nat) (copies : List Nat) (ls : List Nat) : Group :=
  ls.foldl (fun g l => g.arriveLane bar (phase l) tp stamp copies) g

section
variable (bar : Nat) (phase : Nat → Half) (tp : Half) (stamp : Nat) (copies ls : List Nat)

theorem Group.arriveLanes_rest (g : Group) :
    g.arriveLanes bar phase tp stamp copies ls =
      { g with
        gp := (g.arriveLanes bar phase tp stamp copies ls).gp
        arrivedAt := (g.arriveLanes bar phase tp stamp copies ls).arrivedAt
        twinCopies := (g.arriveLanes bar phase tp stamp copies ls).twinCopies } := by
  refine List.foldlRecOn _ _ (motive := fun x : Group => x = { g with gp := x.gp, arrivedAt := x.arrivedAt, twinCopies := x.twinCopies }) rfl (fun x hx l _ => ?_)
  rw [Group.arriveLane_rest, hx]

theorem Group.arriveLanes_gp_other {k : Nat} (hk : k ≠ bar) (g : Group) :
    (g.arriveLanes bar phase tp stamp copies ls).gp.getD k 0 = g.gp.getD k 0 :=
  List.foldlRecOn _ _ (motive := fun x : Group => x.gp.getD k 0 = g.gp.getD k 0) rfl (fun x hx _ _ => (Group.arriveLane_gp_other bar stamp copies hk x _ _).trans hx)

variable {phase tp ls}

theorem Group.arriveLanes_of_none (h : ∀ l ∈ ls, phaseAhead (phase l) tp = false) (g : Group) : g.arriveLanes bar phase tp stamp copies ls = g :=
  List.foldlRecOn _ _ (motive := (· = g)) rfl (fun _ hx l hl => hx ▸ Group.arriveLane_of_not_ahead bar stamp copies (h l hl) _)

/-- Lanes that are ahead at one phase arrive as one lane does. -/
theorem Group.arriveLanes_of_same {ph : Half} (ha : ∃ l ∈ ls, phaseAhead (phase l) tp = true)
    (h : ∀ l ∈ ls, phaseAhead (phase l) tp = true → phase l = ph) (g : Group) :
    g.arriveLanes bar phase tp stamp copies ls = g.arriveLane bar ph tp stamp copies := by
  induction ls generalizing g with
  | nil => obtain ⟨l, hl, -⟩ := ha; cases hl
  | cons x ls ih =>
    have hx := h x List.mem_cons_self
    have hls : ∀ l ∈ ls, phaseAhead (phase l) tp = true → phase l = ph := fun l hl => h l (List.mem_cons_of_mem _ hl)
    show (g.arriveLane bar (phase x) tp stamp copies).arriveLanes bar phase tp stamp copies ls = _
    by_cases hr : ∃ l ∈ ls, phaseAhead (phase l) tp = true
    · rw [ih hr hls]
      cases hp : phaseAhead (phase x) tp with
      | false => rw [Group.arriveLane_of_not_ahead bar stamp copies hp]
      | true => rw [hx hp, Group.arriveLane_arriveLane]
    · have hn : ∀ l ∈ ls, phaseAhead (phase l) tp = false := fun l hl => Bool.eq_false_iff.2 (fun hp => hr ⟨l, hl, hp⟩)
      obtain ⟨l, hl, hp⟩ := ha
      rcases List.mem_cons.1 hl with rfl | hl
      · rw [Group.arriveLanes_of_none _ _ _ hn, hx hp]
      · exact absurd ⟨l, hl, hp⟩ hr

end

/-! ## BARRIER_ARRIVAL -/

/-- The phase that a lane of a group has reached at a barrier. -/
def Group.phase (g : Group) (bar l : Nat) : Half := (g.lane l).phases.getD bar 0

/-- The held lanes that an arrival names. -/
def Group.heldLanes (g : Group) (a : Arrival) : List Nat := (a.lanes.list g.w).filter (fun l => (g.lane l).run == .held)

/-- The held lanes that an arrival names whose phase has been released meanwhile (R57). -/
def Group.passed (g : Group) (bar : Nat) (a : Arrival) (tp : Half) : LaneSet :=
  LaneSet.ofPred g.w (fun l => (g.heldLanes a).contains l && !phaseAhead (g.phase bar l) tp)

/-- The group with an arrival taken away and, for each new phase of its held lanes, come to its barrier. -/
def Group.takeArrival (g : Group) (bar : Nat) (a : Arrival) (tp : Half) (stamp : Nat) (copies : List Nat) : Group :=
  let x := g.arriveLanes bar (g.phase bar) tp stamp copies (g.heldLanes a)
  { x with arrivals := x.arrivals.erase a }

/-- The group with an arrival taken away and counted, before the acquire of the lanes that have passed. -/
def Group.counted (g : Group) (bar : Nat) (a : Arrival) (tp : Half) (stamp : Nat) (copies : List Nat) : Group :=
  (g.takeArrival bar a tp stamp copies).updLanes a.lanes (fun l x =>
    if x.run == .held then { x with run := if a.waits && phaseAhead (g.phase bar l) tp then .barrier bar (g.phase bar l) else .running } else x)

/-- The group after an arrival of it has been taken away. -/
def Group.afterArrival (g : Group) (bar : Nat) (a : Arrival) (tp : Half) (stamp : Nat) (copies : List Nat) : Group :=
  (g.counted bar a tp stamp copies).acquireSome (g.passed bar a tp)

/-- An arrival is the first of a named phase (R55): a lane of it is at a phase that its group has not arrived for, and no group has arrived. -/
def State.namesCount (s : State) (g : Group) (bar : Nat) (a : Arrival) : Bool :=
  2 ≤ bar && bar ≤ 17 && !(s.barGroups g.grid g.team bar).any (fun x => phaseAhead (x.gp.getD bar 0) (s.barTP g.grid g.team bar)) &&
    (g.heldLanes a).any (fun l => phaseAhead (g.phase bar l) (s.barTP g.grid g.team bar) && g.phase bar l != g.gp.getD bar 0)

/-- The state after an arrival of a group has been taken away, before phases are released. -/
def State.afterArrival (s : State) (core slot bar : Nat) (g : Group) (a : Arrival) : State :=
  let tp := s.barTP g.grid g.team bar
  let t := ({ s.setGroup (g.counted bar a tp s.stamp (s.copiesOf core slot)) with stamp := s.stamp + 1 } : State).updGroup core slot (fun x =>
    x.acquireSome (g.passed bar a tp))
  if s.namesCount g bar a then t.updTeam g.grid g.team (fun x => { x with ncnt := x.ncnt.set (bar - 2) a.count }) else t

theorem State.arrive_eq {s : State} {core slot bar : Nat} {g : Group} {a : Arrival} (hg : s.group? core slot = some g)
    (ha : g.arrivals.find? (fun a => a.bar == bar && !s.markPending a.mark) = some a) :
    s.arrive core slot bar = (s.afterArrival core slot bar g a).releasePhases g.grid g.team bar 64 := by
  simp only [State.arrive, hg, ha]
  rw [State.addHold_some]
  rfl

theorem State.arrive_of_none {s : State} {core slot bar : Nat} {g : Group} (hg : s.group? core slot = some g)
    (ha : g.arrivals.find? (fun a => a.bar == bar && !s.markPending a.mark) = none) : s.arrive core slot bar = s := by
  simp only [State.arrive, hg, ha]

theorem Group.counted_rest (g : Group) (bar : Nat) (a : Arrival) (tp : Half) (stamp : Nat) (copies : List Nat) :
    g.counted bar a tp stamp copies =
      { g with
        lanes := (g.counted bar a tp stamp copies).lanes
        arrivals := g.arrivals.erase a
        gp := (g.arriveLanes bar (g.phase bar) tp stamp copies (g.heldLanes a)).gp
        arrivedAt := (g.arriveLanes bar (g.phase bar) tp stamp copies (g.heldLanes a)).arrivedAt
        twinCopies := (g.arriveLanes bar (g.phase bar) tp stamp copies (g.heldLanes a)).twinCopies } := by
  have hr := g.arriveLanes_rest bar (g.phase bar) tp stamp copies (g.heldLanes a)
  unfold Group.counted Group.takeArrival
  rw [hr]
  rfl

theorem Group.afterArrival_rest (g : Group) (bar : Nat) (a : Arrival) (tp : Half) (stamp : Nat) (copies : List Nat) :
    g.afterArrival bar a tp stamp copies =
      { g with
        lanes := (g.afterArrival bar a tp stamp copies).lanes
        arrivals := g.arrivals.erase a
        gp := (g.afterArrival bar a tp stamp copies).gp
        arrivedAt := (g.afterArrival bar a tp stamp copies).arrivedAt
        twinCopies := (g.afterArrival bar a tp stamp copies).twinCopies
        holds := (g.afterArrival bar a tp stamp copies).holds
        nextId := (g.afterArrival bar a tp stamp copies).nextId } := by
  unfold Group.afterArrival
  rw [Group.acquireSome_rest, Group.counted_rest]

theorem Group.mem_heldLanes {g : Group} {a : Arrival} {l : Nat} : l ∈ g.heldLanes a ↔ l < g.w ∧ a.lanes.has l = true ∧ (g.lane l).run = .held := by
  rw [Group.heldLanes, List.mem_filter, Laws.mem_list, beq_iff_eq, and_assoc]

theorem Group.takeArrival_lanes (g : Group) (bar : Nat) (a : Arrival) (tp : Half) (stamp : Nat) (copies : List Nat) :
    (g.takeArrival bar a tp stamp copies).lanes = g.lanes := by
  rw [Group.takeArrival, Group.arriveLanes_rest]

theorem Group.counted_lane {g : Group} (hl : g.lanes.length = g.w) (bar : Nat) (a : Arrival) (tp : Half) (stamp : Nat) (copies : List Nat) {l : Nat}
    (hw : l < g.w) : (g.counted bar a tp stamp copies).lane l = if l ∈ g.heldLanes a then
      { g.lane l with run := if a.waits && phaseAhead (g.phase bar l) tp then .barrier bar (g.phase bar l) else .running } else g.lane l := by
  have hs : (g.takeArrival bar a tp stamp copies).lanes = g.lanes := g.takeArrival_lanes bar a tp stamp copies
  have hlane : (g.takeArrival bar a tp stamp copies).lane l = g.lane l := by rw [Group.lane, hs, Group.lane]
  rw [Group.counted, Laws.updLanes_lane, hlane, hs, hl]
  simp only [hw, and_true, Group.mem_heldLanes, true_and, beq_iff_eq]
  by_cases ha : a.lanes.has l = true <;> simp [ha]

theorem Group.passed_has {g : Group} (hw : g.w ≤ 64) (bar : Nat) (a : Arrival) (tp : Half) (l : Nat) :
    (g.passed bar a tp).has l = true ↔ l ∈ g.heldLanes a ∧ ¬phaseAhead (g.phase bar l) tp = true := by
  rw [Group.passed, Laws.ofPred_has _ _ _ hw]
  simp only [Bool.and_eq_true, decide_eq_true_eq, List.contains_iff_mem, Bool.not_eq_true', Bool.not_eq_true]
  exact ⟨fun h => h.2, fun h => ⟨(Group.mem_heldLanes.1 h.1).1, h⟩⟩

theorem State.afterArrival_rest (s : State) (core slot bar : Nat) (g : Group) (a : Arrival) :
    s.afterArrival core slot bar g a =
      { s with groups := (s.afterArrival core slot bar g a).groups, teams := (s.afterArrival core slot bar g a).teams, stamp := s.stamp + 1 } := by
  unfold State.afterArrival
  dsimp only
  split <;> rfl

theorem State.afterArrival_group? {s : State} {core slot : Nat} {g : Group} (hg : s.group? core slot = some g) (bar : Nat) (a : Arrival) (j k : Nat) :
    (s.afterArrival core slot bar g a).group? j k =
      if j = core ∧ k = slot then some (g.afterArrival bar a (s.barTP g.grid g.team bar) s.stamp (s.copiesOf core slot)) else s.group? j k := by
  obtain ⟨hc, hs⟩ := Laws.group?_core hg
  have hi : (g.counted bar a (s.barTP g.grid g.team bar) s.stamp (s.copiesOf core slot)).core = core ∧
      (g.counted bar a (s.barTP g.grid g.team bar) s.stamp (s.copiesOf core slot)).slot = slot := by
    rw [Group.counted_rest]
    exact ⟨hc, hs⟩
  have hq : ∀ x : Group, (x.acquireSome (g.passed bar a (s.barTP g.grid g.team bar))).core = x.core ∧
      (x.acquireSome (g.passed bar a (s.barTP g.grid g.team bar))).slot = x.slot := fun x => by
    rw [Group.acquireSome_rest]
    exact ⟨rfl, rfl⟩
  have hu : (s.afterArrival core slot bar g a).groups = ((s.setGroup (g.counted bar a (s.barTP g.grid g.team bar) s.stamp (s.copiesOf core slot))).updGroup
      core slot (fun x => x.acquireSome (g.passed bar a (s.barTP g.grid g.team bar)))).groups := by
    unfold State.afterArrival
    dsimp only
    split <;> rfl
  rw [State.group?, hu]
  refine (Laws.updGroup_group? _ core slot _ hq j k).trans ?_
  rw [Laws.setGroup_group?, hi.1, hi.2]
  by_cases hjk : j = core ∧ k = slot
  · rw [if_pos hjk, if_pos hjk, hjk.1, hjk.2, hg]
    simp [Group.afterArrival]
  · rw [if_neg hjk, if_neg hjk]
    cases s.group? j k <;> simp [hjk]

theorem State.afterArrival_team? (s : State) (core slot bar : Nat) (g : Group) (a : Arrival) (gd : Word) (k : Nat) :
    (s.afterArrival core slot bar g a).team? gd k =
      if s.namesCount g bar a = true ∧ gd = g.grid ∧ k = g.team then (s.team? gd k).map (fun t => { t with ncnt := t.ncnt.set (bar - 2) a.count })
      else s.team? gd k := by
  cases hn : s.namesCount g bar a with
  | false =>
    simp only [State.afterArrival, hn, Bool.false_eq_true, if_false, false_and]
    rfl
  | true =>
    simp only [State.afterArrival, hn, if_true, true_and]
    exact State.updTeam_team? _ _ _ _ _ _ (fun _ => ⟨rfl, rfl⟩)

/-- A named barrier's groups are those of the team (R53). -/
theorem State.namesCount_iff (s : State) (g : Group) (bar : Nat) (a : Arrival) :
    s.namesCount g bar a = true ↔ 2 ≤ bar ∧ bar ≤ 17 ∧
      (∃ l ∈ g.heldLanes a, phaseAhead (g.phase bar l) (s.barTP g.grid g.team bar) = true ∧ g.phase bar l ≠ g.gp.getD bar 0) ∧
      ∀ x ∈ s.groups, x.grid = g.grid → x.team = g.team → ¬phaseAhead (x.gp.getD bar 0) (s.barTP g.grid g.team bar) = true := by
  simp only [State.namesCount, State.barGroups, Bool.and_eq_true, decide_eq_true_eq, Bool.not_eq_true', List.any_eq_false, List.any_eq_true, List.mem_filter,
    Bool.or_eq_true, beq_iff_eq, bne_iff_ne]
  constructor
  · rintro ⟨⟨⟨h2, h17⟩, hx⟩, hl⟩
    exact ⟨h2, h17, hl, fun x hm hgd ht => hx x ⟨hm, hgd, .inr ht⟩⟩
  · rintro ⟨h2, h17, hl, hx⟩
    exact ⟨⟨⟨h2, h17⟩, fun x hm => hx x hm.1 hm.2.1 (hm.2.2.resolve_left (by omega))⟩, hl⟩

section
variable (g : Group) (bar : Nat) (a : Arrival) (tp : Half) (stamp : Nat) (copies : List Nat)

theorem Group.afterArrival_gp :
    (g.afterArrival bar a tp stamp copies).gp = (g.arriveLanes bar (g.phase bar) tp stamp copies (g.heldLanes a)).gp := by
  rw [Group.afterArrival, Group.acquireSome_rest, Group.counted_rest]

theorem Group.afterArrival_arrivedAt :
    (g.afterArrival bar a tp stamp copies).arrivedAt = (g.arriveLanes bar (g.phase bar) tp stamp copies (g.heldLanes a)).arrivedAt := by
  rw [Group.afterArrival, Group.acquireSome_rest, Group.counted_rest]

theorem Group.afterArrival_twinCopies :
    (g.afterArrival bar a tp stamp copies).twinCopies = (g.arriveLanes bar (g.phase bar) tp stamp copies (g.heldLanes a)).twinCopies := by
  rw [Group.afterArrival, Group.acquireSome_rest, Group.counted_rest]

theorem Group.afterArrival_gp_other {k : Nat} (hk : k ≠ bar) : (g.afterArrival bar a tp stamp copies).gp.getD k 0 = g.gp.getD k 0 := by
  rw [Group.afterArrival_gp, Group.arriveLanes_gp_other bar _ _ _ _ _ hk]

/-- Held lanes that are ahead at one phase bring their group to it. -/
theorem Group.afterArrival_of_same {ph : Half} (ha : ∃ l ∈ g.heldLanes a, phaseAhead (g.phase bar l) tp = true)
    (same : ∀ l ∈ g.heldLanes a, phaseAhead (g.phase bar l) tp = true → g.phase bar l = ph) :
    (g.afterArrival bar a tp stamp copies).gp = g.gp.set bar ph ∧
      (ph ≠ g.gp.getD bar 0 → (g.afterArrival bar a tp stamp copies).arrivedAt = g.arrivedAt.set bar stamp ∧
        (bar = 1 → (g.afterArrival bar a tp stamp copies).twinCopies = copies)) := by
  have hp : phaseAhead ph tp = true := by
    obtain ⟨l, hl, hp⟩ := ha
    rwa [← same l hl hp]
  rw [Group.afterArrival_gp, Group.afterArrival_arrivedAt, Group.afterArrival_twinCopies, Group.arriveLanes_of_same bar stamp copies ha same]
  exact Group.arriveLane_of_ahead bar stamp copies hp g

/-- A group none of whose held lanes is ahead does not arrive. -/
theorem Group.afterArrival_of_none (h : ∀ l ∈ g.heldLanes a, phaseAhead (g.phase bar l) tp = false) :
    (g.afterArrival bar a tp stamp copies).gp = g.gp ∧ (g.afterArrival bar a tp stamp copies).arrivedAt = g.arrivedAt ∧
      (g.afterArrival bar a tp stamp copies).twinCopies = g.twinCopies := by
  rw [Group.afterArrival_gp, Group.afterArrival_arrivedAt, Group.afterArrival_twinCopies, Group.arriveLanes_of_none bar stamp copies h]
  exact ⟨rfl, rfl, rfl⟩

theorem Group.afterArrival_lane {g : Group} (hl : g.lanes.length = g.w) {l : Nat} (hw : l < g.w) :
    (g.afterArrival bar a tp stamp copies).lane l = if l ∈ g.heldLanes a then
      { g.lane l with run := if a.waits && phaseAhead (g.phase bar l) tp then .barrier bar (g.phase bar l) else .running } else g.lane l := by
  rw [Group.afterArrival, Group.acquireSome_lane, Group.counted_lane hl bar a tp stamp copies hw]

/-- Lanes that have passed run behind an acquire. -/
theorem Group.afterArrival_holds_some (h : ∃ l, (g.passed bar a tp).has l = true) :
    ∃ x : Hold, (g.afterArrival bar a tp stamp copies).holds = g.holds ++ [x] ∧ x.lanes = g.passed bar a tp := by
  obtain ⟨l, hl⟩ := h
  obtain ⟨x, hx, hm⟩ := Group.acquireSome_of_mem hl (g.counted bar a tp stamp copies)
  refine ⟨x, hx.trans ?_, hm⟩
  rw [Group.counted_rest]

theorem Group.afterArrival_holds_none (h : ∀ l, (g.passed bar a tp).has l = false) : (g.afterArrival bar a tp stamp copies).holds = g.holds := by
  rw [Group.afterArrival, Group.acquireSome_of_empty h, Group.counted_rest]

end

/-! A report of another device (R53, R408). -/

/-- The grid with a device's report of its arrivals for a phase kept. -/
def Grid.hears (dev : Nat) (phase : Half) (g : Grid) : Grid :=
  if g.arrivedDevs.contains (dev, phase) then g else { g with arrivedDevs := g.arrivedDevs ++ [(dev, phase)] }

theorem State.arriveRemote_eq (s : State) (grid : Word) (dev : Nat) (phase : Half) :
    s.arriveRemote grid dev phase = (s.updGrid grid (Grid.hears dev phase)).releasePhases grid 0 18 64 := rfl

theorem Grid.hears_rest (dev : Nat) (phase : Half) (g : Grid) : g.hears dev phase = { g with arrivedDevs := (g.hears dev phase).arrivedDevs } := by
  unfold Grid.hears
  split <;> rfl

@[simp] theorem Grid.hears_num (dev : Nat) (phase : Half) (g : Grid) : (g.hears dev phase).num = g.num := by
  rw [Grid.hears_rest]

theorem Grid.mem_hears (dev : Nat) (phase : Half) (g : Grid) : (dev, phase) ∈ (g.hears dev phase).arrivedDevs := by
  unfold Grid.hears
  split
  case isTrue h => exact List.contains_iff_mem.1 h
  case isFalse => simp

theorem Grid.hears_keeps {g : Grid} {x : Nat × Half} (h : x ∈ g.arrivedDevs) (dev : Nat) (phase : Half) : x ∈ (g.hears dev phase).arrivedDevs := by
  unfold Grid.hears
  split
  · exact h
  · exact List.mem_append_left _ h

theorem State.updGrid_nums {f : Grid → Grid} (hf : ∀ g, (f g).num = g.num) (s : State) (grid : Word) :
    (s.updGrid grid f).grids.map Grid.num = s.grids.map Grid.num := by
  rw [State.updGrid, List.map_map]
  refine List.map_congr_left (fun g _ => ?_)
  simp only [Function.comp]
  split
  · exact hf g
  · rfl

/-! ## When a phase is complete (R53, R55, R56, R350) -/

theorem State.spans_iff (s : State) (grid : Word) (team : Nat) : s.spans grid team = true ↔
    ∃ g ∈ s.groups.filter (fun g => g.grid == grid && g.team == team), ∃ k ∈ s.groups.filter (fun g => g.grid == grid && g.team == team), g.core ≠ k.core := by
  unfold State.spans
  generalize s.groups.filter (fun g => g.grid == grid && g.team == team) = gs
  cases gs with
  | nil => simp
  | cons x xs =>
    simp only [List.map_cons, List.any_map, List.any_eq_true, Function.comp, bne_iff_ne]
    constructor
    · rintro ⟨k, hk, hne⟩
      exact ⟨k, List.mem_cons_of_mem _ hk, x, List.mem_cons_self, hne⟩
    · rintro ⟨g, hg, k, hk, hne⟩
      by_cases hx : g.core = x.core
      · exact ⟨k, (List.mem_cons.1 hk).resolve_left (fun h => hne (h ▸ hx)), fun h => hne (hx.trans h.symm)⟩
      · exact ⟨g, (List.mem_cons.1 hg).resolve_left (fun h => hx (h ▸ rfl)), hx⟩

theorem State.twinCopied_iff (s : State) (g : Group) : s.twinCopied g = true ↔ ∀ y ∈ s.copiesOf g.core g.slot, g.exited = false ∧ y ∉ g.twinCopies := by
  cases he : g.exited with
  | true => simp [State.twinCopied, he, List.eq_nil_iff_forall_not_mem]
  | false =>
    simp only [State.twinCopied, he, Bool.false_eq_true, if_false, Bool.not_eq_true', List.any_eq_false, List.contains_iff_mem, true_and]
    exact ⟨fun h y hy ht => h y ht hy, fun h y ht hy => h y hy ht⟩

theorem State.othersArrived_iff (s : State) (g : Grid) (ph : Half) : s.othersArrived g ph = true ↔
    (g.record.reach = 2 → ∀ d ∈ g.record.devices s.members, d ≠ s.dev → (d, ph) ∈ g.arrivedDevs) := by
  simp only [State.othersArrived, Bool.or_eq_true, bne_iff_ne, List.all_eq_true, beq_iff_eq, List.contains_iff_mem, ne_eq]
  by_cases hr : g.record.reach = 2
  · simp only [hr, not_true_eq_false, false_or, true_implies]
    exact forall₂_congr (fun d _ => Decidable.or_iff_not_imp_left)
  · simp [hr]

theorem State.phaseComplete_iff (s : State) (grid : Word) (team bar : Nat) : s.phaseComplete grid team bar = true ↔ s.PhaseDone grid team bar := by
  have hn : ((s.barGroups grid team bar).filter (fun g => g.arrivedFor bar (s.barTP grid team bar))).length =
      (s.barGroups grid team bar).countP (fun g => g.counts bar (s.barTP grid team bar)) := List.countP_eq_length_filter.symm
  simp only [State.phaseComplete, State.PhaseDone, Bool.and_eq_true, hn]
  refine and_congr ?_ ?_
  · simp only [List.any_eq_true, phaseAhead_iff]
    rfl
  by_cases h18 : bar = 18
  · simp only [h18, if_true, Bool.and_eq_true, beq_iff_eq, Option.any_eq_true, State.othersArrived_iff]
    rfl
  simp only [h18, if_false]
  cases s.team? grid team with
  | none => simp
  | some x =>
    simp only [Option.some.injEq, exists_eq_left']
    by_cases h0 : bar = 0
    · simp only [h0, if_true, decide_eq_true_eq]
      rfl
    by_cases h1 : bar = 1
    · subst h1
      simp only [h0, if_false, if_true, Bool.and_eq_true, decide_eq_true_eq, Bool.or_eq_true, Bool.not_eq_true', List.all_eq_true, State.twinCopied_iff]
      refine and_congr Iff.rfl ?_
      rw [← Bool.not_eq_true, State.spans_iff, ← Decidable.imp_iff_not_or]
      rfl
    · simp only [h0, h1, if_false, decide_eq_true_eq]
      rfl

theorem State.releasePhases_of_done {s : State} {grid : Word} {team bar : Nat} (h : s.PhaseDone grid team bar) (n : Nat) :
    s.releasePhases grid team bar (n + 1) = (s.releasePhase grid team bar).releasePhases grid team bar n :=
  if_pos ((s.phaseComplete_iff grid team bar).2 h)

theorem State.releasePhases_of_not_done {s : State} {grid : Word} {team bar : Nat} (h : ¬s.PhaseDone grid team bar) (n : Nat) :
    s.releasePhases grid team bar n = s := by
  cases n with
  | zero => rfl
  | succ n => exact if_neg (fun hc => h ((s.phaseComplete_iff grid team bar).1 hc))

/-! ## Every group of a list changed by its place -/

theorem eq_of_same_place {gs : List Group} (hn : (gs.map (fun x => (x.core, x.slot))).Nodup) {x y : Group} (hx : x ∈ gs) (hy : y ∈ gs)
    (h : (x.core, x.slot) = (y.core, y.slot)) : x = y := by
  induction gs with
  | nil => cases hx
  | cons z gs ih =>
    obtain ⟨hz, hn⟩ := List.nodup_cons.1 hn
    rcases List.mem_cons.1 hx with rfl | hxs <;> rcases List.mem_cons.1 hy with rfl | hys
    · rfl
    · exact absurd (List.mem_map.2 ⟨y, hys, h.symm⟩) hz
    · exact absurd (List.mem_map.2 ⟨x, hxs, h⟩) hz
    · exact ih hn hxs hys

section
variable {f : Group → Group → Group}

theorem State.foldl_updGroup_rest (gs : List Group) (s : State) :
    gs.foldl (fun s g => s.updGroup g.core g.slot (f g)) s = { s with groups := (gs.foldl (fun s g => s.updGroup g.core g.slot (f g)) s).groups } := by
  refine List.foldlRecOn _ _ (motive := fun t : State => t = { s with groups := t.groups }) rfl (fun t ht g _ => ?_)
  unfold State.updGroup
  rw [ht]

variable (hf : ∀ g x, (f g x).core = x.core ∧ (f g x).slot = x.slot)
include hf

theorem State.foldl_updGroup_other {gs : List Group} {j k : Nat} (h : ∀ g ∈ gs, ¬(g.core = j ∧ g.slot = k)) (s : State) :
    (gs.foldl (fun s g => s.updGroup g.core g.slot (f g)) s).group? j k = s.group? j k := by
  refine List.foldlRecOn _ _ (motive := fun t : State => t.group? j k = s.group? j k) rfl (fun t ht g hg => ?_)
  have hn : ¬(j = g.core ∧ k = g.slot) := fun hc => h g hg ⟨hc.1.symm, hc.2.symm⟩
  rw [Laws.updGroup_group? _ _ _ _ (hf g), ht]
  simp [hn]

/-- Where no two groups stand in one place, each is changed once, by the function that is its own. -/
theorem State.foldl_updGroup_mem {gs : List Group} (hn : (gs.map (fun x => (x.core, x.slot))).Nodup) {g : Group} (hg : g ∈ gs) (s : State) :
    (gs.foldl (fun s g => s.updGroup g.core g.slot (f g)) s).group? g.core g.slot = (s.group? g.core g.slot).map (f g) := by
  induction gs generalizing s with
  | nil => cases hg
  | cons x gs ih =>
    obtain ⟨hx, hn⟩ := List.nodup_cons.1 hn
    rw [List.foldl_cons]
    rcases List.mem_cons.1 hg with rfl | hg
    · rw [State.foldl_updGroup_other hf (fun y hy hc => hx (List.mem_map.2 ⟨y, hy, by rw [hc.1, hc.2]⟩)), Laws.updGroup_group? _ _ _ _ (hf g)]
      simp
    · have hne : ¬(g.core = x.core ∧ g.slot = x.slot) := fun hc => hx (List.mem_map.2 ⟨g, hg, by rw [hc.1, hc.2]⟩)
      rw [ih hn hg, Laws.updGroup_group? _ _ _ _ (hf x)]
      simp [hne]

end

/-! ## A phase released (R52, R54) -/

/-- The released phase of a barrier raised. -/
def State.raiseTP (s : State) (grid : Word) (team bar : Nat) : State :=
  if bar = 18 then s.updGrid grid (fun g => { g with gridTP := s.barTP grid team bar + 1 })
  else s.updTeam grid team (fun t => { t with tp := t.tp.set bar (s.barTP grid team bar + 1) })

/-- The lanes of a group that wait at a barrier for a phase. -/
def Group.waiters (g : Group) (bar : Nat) (ph : Half) : LaneSet := LaneSet.ofPred g.w (fun l => (g.lane l).run == .barrier bar ph)

/-- The group with lanes running behind an acquire. -/
def Group.runOn (m : LaneSet) (g : Group) : Group := (g.updLanes m (fun _ x => { x with run := .running })).acquireSome m

/-- The number of groups that come before a group when a release orders them (R52): those counted later, and of those counted together the higher. -/
def Group.urgency (gs : List Group) (bar : Nat) (tp : Half) (g : Group) : Nat :=
  (gs.filter (fun o => g.countedAt bar tp < o.countedAt bar tp || (o.countedAt bar tp == g.countedAt bar tp && g.gix < o.gix))).length

/-- The waiting lanes of some groups run on. -/
def State.runWaiters (s : State) (gs : List Group) (bar : Nat) (ph : Half) : State :=
  gs.foldl (fun s g => s.updGroup g.core g.slot (Group.runOn (g.waiters bar ph))) s

/-- Some groups are ordered by urgency. -/
def State.rankGroups (s : State) (gs : List Group) (bar : Nat) (tp : Half) : State :=
  gs.foldl (fun s g => s.updGroup g.core g.slot (fun x => { x with rank := g.urgency gs bar tp })) s

theorem State.updGroup_updGroup (s : State) (core slot : Nat) {f h : Group → Group} (hf : ∀ x, (f x).core = x.core ∧ (f x).slot = x.slot) :
    (s.updGroup core slot f).updGroup core slot h = s.updGroup core slot (fun x => h (f x)) := by
  simp only [State.updGroup, List.map_map]
  congr 2
  funext x
  simp only [Function.comp, Bool.and_eq_true, beq_iff_eq]
  by_cases hx : x.core = core ∧ x.slot = slot
  · simp only [if_pos hx, hf x]
  · simp only [if_neg hx]

theorem Group.updLanes_of_empty {m : LaneSet} (h : ∀ l, m.has l = false) (g : Group) (f : Nat → Lane → Lane) : g.updLanes m f = g := by
  have hm : g.lanes.mapIdx (fun l x => if m.has l then f l x else x) = g.lanes := List.ext_getElem? (by simp [h])
  rw [Group.updLanes, hm]

theorem Group.runOn_of_empty {m : LaneSet} (h : ∀ l, m.has l = false) (g : Group) : Group.runOn m g = g := by
  rw [Group.runOn, Group.updLanes_of_empty h, Group.acquireSome_of_empty h]

/-- Lanes of a group run on behind an acquire, in the form in which the model says it. -/
theorem State.updGroup_runOn (s : State) (core slot : Nat) (m : LaneSet) :
    (if m == 0 then s else (s.updGroup core slot (fun g => g.updLanes m (fun _ x => { x with run := .running }))).addHold core slot m) =
      s.updGroup core slot (Group.runOn m) := by
  cases hm : m == 0 with
  | true =>
    have hr : Group.runOn m = fun g => g := funext (Group.runOn_of_empty ((LaneSet.eq_zero_iff m).1 hm))
    rw [hr]
    exact (s.updGroup_id core slot).symm
  | false =>
    have hr : Group.runOn m = fun g => (g.updLanes m (fun _ x => { x with run := .running })).acquire m := by
      funext g
      rw [Group.runOn, Group.acquireSome, hm]
      rfl
    rw [hr]
    exact s.updGroup_updGroup core slot (fun _ => ⟨rfl, rfl⟩)

theorem State.raiseTP_barGroups (s : State) (grid : Word) (team bar : Nat) :
    (s.raiseTP grid team bar).barGroups grid team bar = s.barGroups grid team bar := by
  unfold State.raiseTP
  split <;> rfl

theorem State.releasePhase_eq (s : State) (grid : Word) (team bar : Nat) : s.releasePhase grid team bar =
    if bar ≤ 1 then
      ((s.raiseTP grid team bar).runWaiters (s.barGroups grid team bar) bar (s.barTP grid team bar + 1)).rankGroups (s.barGroups grid team bar) bar
        (s.barTP grid team bar)
    else (s.raiseTP grid team bar).runWaiters (s.barGroups grid team bar) bar (s.barTP grid team bar + 1) := by
  rw [← s.raiseTP_barGroups grid team bar]
  simp only [State.releasePhase, State.updGroup_runOn]
  rfl

/-! What a release leaves as it was, and what it makes of the released phases and of each group. -/

theorem State.runWaiters_rest (s : State) (gs : List Group) (bar : Nat) (ph : Half) :
    s.runWaiters gs bar ph = { s with groups := (s.runWaiters gs bar ph).groups } := State.foldl_updGroup_rest gs s

theorem State.rankGroups_rest (s : State) (gs : List Group) (bar : Nat) (tp : Half) :
    s.rankGroups gs bar tp = { s with groups := (s.rankGroups gs bar tp).groups } := State.foldl_updGroup_rest gs s

theorem State.releasePhase_raiseTP (s : State) (grid : Word) (team bar : Nat) :
    s.releasePhase grid team bar = { s.raiseTP grid team bar with groups := (s.releasePhase grid team bar).groups } := by
  rw [State.releasePhase_eq]
  split
  · rw [State.rankGroups_rest, State.runWaiters_rest]
  · rw [State.runWaiters_rest]

theorem State.raiseTP_rest (s : State) (grid : Word) (team bar : Nat) :
    s.raiseTP grid team bar = { s with teams := (s.raiseTP grid team bar).teams, grids := (s.raiseTP grid team bar).grids } := by
  unfold State.raiseTP
  split <;> rfl

theorem State.releasePhase_rest (s : State) (grid : Word) (team bar : Nat) :
    s.releasePhase grid team bar =
      { s with
        groups := (s.releasePhase grid team bar).groups
        teams := (s.releasePhase grid team bar).teams
        grids := (s.releasePhase grid team bar).grids } := by
  rw [State.releasePhase_raiseTP, State.raiseTP_rest]

theorem State.barTP_grid (s : State) (gd : Word) (k : Nat) : s.barTP gd k 18 = ((s.grid? gd).map Grid.gridTP).getD 0 := if_pos rfl

theorem State.barTP_team {b : Nat} (h : b ≠ 18) (s : State) (gd : Word) (k : Nat) :
    s.barTP gd k b = (((s.team? gd k).map Team.tp).getD []).getD b 0 := if_neg h

theorem State.raiseTP_grid? (s : State) (grid : Word) (team : Nat) (gd : Word) : (s.raiseTP grid team 18).grid? gd =
    if gd = grid then (s.grid? gd).map (fun g => { g with gridTP := s.barTP grid team 18 + 1 }) else s.grid? gd :=
  s.updGrid_grid? grid gd (fun g => { g with gridTP := s.barTP grid team 18 + 1 }) (fun _ => rfl)

theorem State.raiseTP_team? {bar : Nat} (h : bar ≠ 18) (s : State) (grid : Word) (team : Nat) (gd : Word) (k : Nat) : (s.raiseTP grid team bar).team? gd k =
    if gd = grid ∧ k = team then (s.team? gd k).map (fun t => { t with tp := t.tp.set bar (s.barTP grid team bar + 1) }) else s.team? gd k := by
  rw [State.raiseTP, if_neg h]
  exact s.updTeam_team? grid gd team k (fun t => { t with tp := t.tp.set bar (s.barTP grid team bar + 1) }) (fun _ => ⟨rfl, rfl⟩)

/-- The released phase of the barrier rises by one. -/
theorem State.raiseTP_self {s : State} {grid : Word} {team bar : Nat} {gr : Grid} {tm : Team} (hg : s.grid? grid = some gr)
    (ht : s.team? grid team = some tm) (hb : bar < tm.tp.length ∧ bar < 18 ∨ bar = 18) :
    (s.raiseTP grid team bar).barTP grid team bar = s.barTP grid team bar + 1 := by
  by_cases h : bar = 18
  · subst h
    rw [State.barTP_grid, State.raiseTP_grid?, if_pos rfl, hg]
    rfl
  · have hl : bar < tm.tp.length := (hb.resolve_right h).1
    rw [State.barTP_team h, State.raiseTP_team? h, if_pos ⟨rfl, rfl⟩, ht]
    simp [hl]

/-- No other released phase changes. -/
theorem State.raiseTP_other {grid gd : Word} {team k bar b : Nat} (h : ¬(gd = grid ∧ b = bar ∧ (bar = 18 ∨ k = team))) (s : State) :
    (s.raiseTP grid team bar).barTP gd k b = s.barTP gd k b := by
  by_cases hb : b = 18
  · subst hb
    rw [State.barTP_grid, State.barTP_grid]
    by_cases h18 : bar = 18
    · subst h18
      rw [State.raiseTP_grid?, if_neg (fun hgd => h ⟨hgd, rfl, .inl rfl⟩)]
    · rw [State.raiseTP, if_neg h18]
      rfl
  · rw [State.barTP_team hb, State.barTP_team hb]
    by_cases h18 : bar = 18
    · rw [State.raiseTP, if_pos h18]
      rfl
    · rw [State.raiseTP_team? h18]
      split
      case isFalse => rfl
      case isTrue hk =>
        have hne : bar ≠ b := fun hc => h ⟨hk.1, hc.symm, .inr hk.2⟩
        cases s.team? gd k <;> simp [hne]

theorem State.releasePhase_barTP (s : State) (grid : Word) (team bar : Nat) (gd : Word) (k b : Nat) :
    (s.releasePhase grid team bar).barTP gd k b = (s.raiseTP grid team bar).barTP gd k b := by
  rw [State.releasePhase_raiseTP]
  rfl

theorem Group.runOn_rest (m : LaneSet) (g : Group) :
    Group.runOn m g = { g with lanes := (Group.runOn m g).lanes, holds := (Group.runOn m g).holds, nextId := (Group.runOn m g).nextId } := by
  unfold Group.runOn
  rw [Group.acquireSome_rest]
  rfl

theorem Group.runOn_place (m : LaneSet) (g : Group) : (Group.runOn m g).core = g.core ∧ (Group.runOn m g).slot = g.slot := by
  rw [Group.runOn_rest]
  exact ⟨rfl, rfl⟩

theorem Group.runOn_lane {g : Group} (hl : g.lanes.length = g.w) (m : LaneSet) {l : Nat} (hw : l < g.w) :
    (Group.runOn m g).lane l = if m.has l = true then { g.lane l with run := .running } else g.lane l := by
  rw [Group.runOn, Group.acquireSome_lane, Laws.updLanes_lane, hl]
  simp only [hw, and_true]

theorem Group.runOn_holds_none {m : LaneSet} (h : ∀ l, m.has l = false) (g : Group) : (Group.runOn m g).holds = g.holds := by
  rw [Group.runOn_of_empty h]

theorem Group.runOn_holds_some {m : LaneSet} (h : ∃ l, m.has l = true) (g : Group) : ∃ x : Hold, (Group.runOn m g).holds = g.holds ++ [x] ∧ x.lanes = m := by
  obtain ⟨l, hl⟩ := h
  exact Group.acquireSome_of_mem hl _

theorem Group.waiters_has {g : Group} (hw : g.w ≤ 64) (bar : Nat) (ph : Half) (l : Nat) :
    (g.waiters bar ph).has l = true ↔ l < g.w ∧ (g.lane l).run = .barrier bar ph := by
  rw [Group.waiters, Laws.ofPred_has _ _ _ hw, Bool.and_eq_true, decide_eq_true_eq, beq_iff_eq]

/-- A group that the barrier is not of stays as it was. -/
theorem State.releasePhase_group?_other {s : State} {core slot : Nat} {g : Group} (hs : s.group? core slot = some g) {grid : Word} {team bar : Nat}
    (hn : (s.groups.map (fun x => (x.core, x.slot))).Nodup) (hg : g ∉ s.barGroups grid team bar) :
    (s.releasePhase grid team bar).group? core slot = some g := by
  obtain ⟨hc, hk⟩ := Laws.group?_core hs
  have hne : ∀ x ∈ s.barGroups grid team bar, ¬(x.core = core ∧ x.slot = slot) := by
    intro x hx hp
    have hxg : x = g := eq_of_same_place hn (List.mem_filter.1 hx).1 (List.mem_of_find?_eq_some hs) (by rw [hp.1, hp.2, hc, hk])
    exact hg (hxg ▸ hx)
  have hw : ((s.raiseTP grid team bar).runWaiters (s.barGroups grid team bar) bar (s.barTP grid team bar + 1)).group? core slot = some g := by
    refine (State.foldl_updGroup_other (fun g => Group.runOn_place _) hne _).trans ?_
    rw [State.raiseTP_rest]
    exact hs
  rw [State.releasePhase_eq]
  split
  · exact (State.foldl_updGroup_other (f := fun g x => { x with rank := g.urgency _ _ _ }) (fun _ _ => ⟨rfl, rfl⟩) hne _).trans hw
  · exact hw

/-- A group that the barrier is of has its waiting lanes running; after a team or twin barrier it has its place among the groups released. -/
theorem State.releasePhase_group?_mem {s : State} {core slot : Nat} {g : Group} (hs : s.group? core slot = some g) {grid : Word} {team bar : Nat}
    (hn : (s.groups.map (fun x => (x.core, x.slot))).Nodup) (hg : g ∈ s.barGroups grid team bar) :
    (s.releasePhase grid team bar).group? core slot = some { Group.runOn (g.waiters bar (s.barTP grid team bar + 1)) g with
      rank := if bar ≤ 1 then g.urgency (s.barGroups grid team bar) bar (s.barTP grid team bar) else g.rank } := by
  obtain ⟨rfl, rfl⟩ := Laws.group?_core hs
  have hn' : ((s.barGroups grid team bar).map (fun x => (x.core, x.slot))).Nodup := hn.sublist (List.filter_sublist.map _)
  have hw : ((s.raiseTP grid team bar).runWaiters (s.barGroups grid team bar) bar (s.barTP grid team bar + 1)).group? g.core g.slot =
      some (Group.runOn (g.waiters bar (s.barTP grid team bar + 1)) g) := by
    refine (State.foldl_updGroup_mem (fun g => Group.runOn_place _) hn' hg _).trans ?_
    rw [State.raiseTP_rest]
    exact congrArg (Option.map _) hs
  rw [State.releasePhase_eq]
  split
  · refine (State.foldl_updGroup_mem (f := fun g x => { x with rank := g.urgency _ _ _ }) (fun _ _ => ⟨rfl, rfl⟩) hn' hg _).trans ?_
    rw [hw]
    rfl
  · rw [hw, Group.runOn_rest]

theorem State.mem_barGroups {s : State} {g : Group} (h : g ∈ s.groups) (grid : Word) (team bar : Nat) :
    g ∈ s.barGroups grid team bar ↔ g.grid = grid ∧ (bar = 18 ∨ g.team = team) := by
  simp [State.barGroups, List.mem_filter, h]

/-! ## The steps -/

theorem exec_barrierArrival_own (s : State) (core slot bar : Nat) : exec (.barrierArrival core slot (bar, none)) s = .next (s.arrive core slot bar) := rfl
theorem exec_barrierArrival_report (s : State) (core slot bar : Nat) (grid : Word) (dev : Nat) (phase : Half) :
    exec (.barrierArrival core slot (bar, some (grid, dev, phase))) s = .next (s.arriveRemote grid dev phase) := rfl

/-- Settles O17: an arrival whose release has completed is counted for the held lanes that it names, a phase is released exactly when it is
complete, and a release raises the released phase and sets its waiting lanes running. -/
theorem barrierArrivalResults : Obligations.BarrierArrivalResults := by
  unfold Obligations.BarrierArrivalResults
  refine ⟨?_, ?_, ?_, ?_, ?_⟩
  · intro s core slot bar g a hg hl hw ha tp phase Held Ahead
    have held (l : Nat) : l ∈ g.heldLanes a ↔ Held l := Group.mem_heldLanes
    have ahead (x : Half) : phaseAhead x tp = true ↔ Ahead x := phaseAhead_iff x tp
    have passed (l : Nat) : (g.passed bar a tp).has l = true ↔ Held l ∧ ¬Ahead (phase l) :=
      (Group.passed_has hw bar a tp l).trans (and_congr (held l) (not_congr (ahead (phase l))))
    have names : s.namesCount g bar a = true ↔ 2 ≤ bar ∧ bar ≤ 17 ∧ (∃ l, Held l ∧ Ahead (phase l) ∧ phase l ≠ g.gp.getD bar 0) ∧
        ∀ x ∈ s.groups, x.grid = g.grid → x.team = g.team → ¬Ahead (x.gp.getD bar 0) := by
      rw [State.namesCount_iff]
      simp only [held, ahead, phase, Group.phase, tp]
    refine ⟨s.afterArrival core slot bar g a, g.afterArrival bar a tp s.stamp (s.copiesOf core slot), ?_, s.afterArrival_rest core slot bar g a, ?_, ?_,
      g.afterArrival_rest bar a tp s.stamp (s.copiesOf core slot), ?_, ?_, ?_, ?_, ?_, ?_, ?_⟩
    · rw [exec_barrierArrival_own, State.arrive_eq hg ha]
    · rw [State.afterArrival_group? hg, if_pos ⟨rfl, rfl⟩]
    · intro j k hjk
      rw [State.afterArrival_group? hg, if_neg hjk]
    · intro l hlw
      have hlane := Group.afterArrival_lane bar a tp s.stamp (s.copiesOf core slot) hl (List.mem_range.1 hlw)
      have waits : (a.waits && phaseAhead (g.phase bar l) tp) = true ↔ a.waits = true ∧ Ahead (phase l) := by rw [Bool.and_eq_true, ahead]; rfl
      refine ⟨fun hh => ?_, fun hh => hlane.trans (if_neg (mt (held l).1 hh))⟩
      rw [hlane, if_pos ((held l).2 hh)]
      exact ⟨rfl, fun h => if_pos (waits.2 h), fun h => if_neg (mt waits.1 h)⟩
    · exact fun k hk => g.afterArrival_gp_other bar a tp s.stamp (s.copiesOf core slot) hk
    · rintro ph ⟨l, hh, hp⟩ same
      exact g.afterArrival_of_same bar a tp s.stamp (s.copiesOf core slot) ⟨l, (held l).2 hh, (ahead (phase l)).2 hp⟩
        (fun k hk hp => same k ((held k).1 hk) ((ahead (phase k)).1 hp))
    · exact fun none => g.afterArrival_of_none bar a tp s.stamp (s.copiesOf core slot)
        (fun l hm => Bool.eq_false_iff.2 (mt (ahead (phase l)).1 (none l ((held l).1 hm))))
    · rintro ⟨l, hh⟩
      obtain ⟨x, hx, hm⟩ := g.afterArrival_holds_some bar a tp s.stamp (s.copiesOf core slot) ⟨l, (passed l).2 hh⟩
      exact ⟨x, hx, fun k => hm ▸ passed k⟩
    · intro all
      refine g.afterArrival_holds_none bar a tp s.stamp (s.copiesOf core slot) (fun l => Bool.eq_false_iff.2 (fun hp => ?_))
      obtain ⟨hh, hn⟩ := (passed l).1 hp
      exact hn (all l hh)
    · intro gd k
      rw [State.afterArrival_team?]
      exact ⟨fun ⟨hgd, hk, h⟩ => if_pos ⟨names.2 h, hgd, hk⟩, fun h => if_neg (fun ⟨hc, hgd, hk⟩ => h ⟨hgd, hk, names.1 hc⟩)⟩
  · intro s core slot bar g hg ha
    rw [exec_barrierArrival_own, State.arrive_of_none hg]
    rw [List.find?_eq_none]
    intro a hm
    simpa using ha a hm
  · intro s core slot bar dev grid phase
    refine ⟨s.updGrid grid (Grid.hears dev phase), rfl, by rw [exec_barrierArrival_report, State.arriveRemote_eq],
      State.updGrid_nums (Grid.hears_num dev phase) s grid, fun gr hg => ⟨gr.hears dev phase, ?_, gr.mem_hears dev phase, gr.hears_rest dev phase,
        fun x hx => Grid.hears_keeps hx dev phase⟩⟩
    rw [State.updGrid_grid? s grid grid _ (Grid.hears_num dev phase), if_pos rfl, hg]
    rfl
  · exact fun s grid team bar n => ⟨fun h => State.releasePhases_of_done h n, fun h => State.releasePhases_of_not_done h n⟩
  · intro s grid team gr tm bar hgr htm hb hn t
    refine ⟨?_, ?_, ?_, ?_⟩
    · exact s.releasePhase_rest grid team bar
    · exact (s.releasePhase_barTP grid team bar grid team bar).trans (State.raiseTP_self hgr htm hb)
    · exact fun gd k b h => (s.releasePhase_barTP grid team bar gd k b).trans (State.raiseTP_other h s)
    · intro core slot g hg hl hw Waits
      have waits (l : Nat) : (g.waiters bar (s.barTP grid team bar + 1)).has l = true ↔ Waits l := Group.waiters_has hw bar _ l
      have of := State.mem_barGroups (List.mem_of_find?_eq_some hg) grid team bar
      refine ⟨fun h => State.releasePhase_group?_other hg hn (mt of.1 h), fun hgd hteam =>
        ⟨_, State.releasePhase_group?_mem hg hn (of.2 ⟨hgd, hteam⟩), ?_, fun hb => if_neg (by omega), fun l hlw => ?_, ?_, ?_⟩⟩
      · rw [Group.runOn_rest]
      · have hlane := Group.runOn_lane hl (g.waiters bar (s.barTP grid team bar + 1)) (List.mem_range.1 hlw)
        exact ⟨fun h => hlane.trans (if_pos ((waits l).2 h)), fun h => hlane.trans (if_neg (mt (waits l).1 h))⟩
      · rintro ⟨l, h⟩
        obtain ⟨x, hx, hm⟩ := Group.runOn_holds_some ⟨l, (waits l).2 h⟩ g
        exact ⟨x, hx, fun k => hm ▸ waits k⟩
      · exact fun h => Group.runOn_holds_none (fun l => Bool.eq_false_iff.2 (mt (waits l).1 (h l))) g

end Sys2Proof.Machine

/-! PROOFS. Power, clusters and the time base (R151, R152, R157 to R163, R405, R410, R411): what a power period and an end of a pool move make of
the state, which clusters a window admits, and what a device does to the launches it holds when it loses lock. -/

namespace Sys2Proof.Machine

/-! ## Clusters -/

theorem State.updCluster_cluster_of_lt {s : State} {n : Nat} (h : n < s.clusters.length) (f : Cluster → Cluster) :
    (s.updCluster n f).cluster n = f (s.cluster n) := by
  simp [State.updCluster, State.cluster, h]

theorem State.updCluster_cluster_ne {n k : Nat} (h : k ≠ n) (s : State) (f : Cluster → Cluster) : (s.updCluster n f).cluster k = s.cluster k := by
  simp [State.updCluster, State.cluster, h.symm]

theorem State.updCluster_updCluster (s : State) (n : Nat) (f g : Cluster → Cluster) : (s.updCluster n f).updCluster n g = s.updCluster n (fun c => g (f c)) := by
  simp [State.updCluster, List.modify_modify_eq, Function.comp_def]

/-! ## A power period (R160, R411) -/

theorem State.powerPeriod_eq (s : State) (draw : Half) : s.powerPeriod draw =
    let d := draw.toNat
    let run := if s.limw < d ∧ s.cap = 0 then s.overRun + 1 else 0
    { s with
      draww := draw
      cap := if 97 * s.limw < 100 * d then s.cap - 1 else if 100 * d < 85 * s.limw then min 7 (s.cap + 1) else s.cap
      overPeriods := if s.limw < d ∧ s.overPeriods ≠ 0xFFFFFFFF then s.overPeriods + 1 else s.overPeriods
      overRun := run
      hold := if 100 * d < 85 * s.limw then false else s.hold || decide (10 ≤ run) } := by
  simp only [State.powerPeriod, Bool.and_eq_true, decide_eq_true_eq, beq_iff_eq, bne_iff_ne]

/-! ## Pool moves (R159) -/

/-- The classes of the teams resident on a cluster. -/
def State.classesOn (s : State) (n : Nat) : List Nat :=
  s.teams.filterMap (fun t => if s.groups.any (fun g => g.grid == t.grid && g.team == t.num && clusterOf g.core == n) then some t.cls else none)

theorem State.on_iff (s : State) (t : Team) (n : Nat) :
    s.groups.any (fun g => g.grid == t.grid && g.team == t.num && clusterOf g.core == n) = true ↔ s.On t n := by
  simp [State.On, clusterOf, Config.coresPerCluster, and_assoc]

theorem State.mem_classesOn {s : State} {n m : Nat} : m ∈ s.classesOn n ↔ ∃ t ∈ s.teams, s.On t n ∧ t.cls = m := by
  simp only [State.classesOn, List.mem_filterMap, Option.ite_none_right_eq_some, Option.some.injEq, State.on_iff]

theorem State.highest_iff {s : State} {n m : Nat} : s.Highest n m ↔ (s.classesOn n).max? = some m := by
  rw [List.max?_eq_some_iff, State.mem_classesOn]
  refine and_congr_right fun _ => ⟨fun h k hk => ?_, fun h t ht ho => h _ (State.mem_classesOn.2 ⟨t, ht, ho, rfl⟩)⟩
  obtain ⟨t, ht, ho, rfl⟩ := State.mem_classesOn.1 hk
  exact h t ht ho

theorem State.poolDrop_eq (s : State) (n : Nat) : s.poolDrop n =
    match (s.classesOn n).max? with
    | none => s
    | some m => if m < (s.cluster n).pool ∧ (s.cluster n).move.isNone then s.updCluster n (fun c => { c with pool := m, move := some m }) else s := by
  unfold State.poolDrop
  dsimp only
  rw [← State.classesOn]
  cases s.classesOn n with
  | nil => rfl
  | cons m ms => simp only [List.max?_cons', List.foldl_cons, Nat.zero_max]

theorem State.poolDrop_of_le {s : State} {n : Nat} (h : ∀ m, s.Highest n m → (s.cluster n).pool ≤ m) : s.poolDrop n = s := by
  rw [State.poolDrop_eq]
  cases hm : (s.classesOn n).max? with
  | none => rfl
  | some m => exact if_neg fun hlt => absurd (h m (State.highest_iff.2 hm)) (Nat.not_le.2 hlt.1)

theorem State.poolDrop_of_lt {s : State} {n m : Nat} (h : s.Highest n m) (hlt : m < (s.cluster n).pool) (hmove : (s.cluster n).move = none) :
    s.poolDrop n = s.updCluster n (fun c => { c with pool := m, move := some m }) := by
  rw [State.poolDrop_eq, State.highest_iff.1 h]
  exact if_pos ⟨hlt, by rw [hmove]; rfl⟩

section PoolMove
variable {s : State} {n k : Nat} (hn : n < s.clusters.length) (hk : (s.cluster n).move = some k)
include hn hk

theorem State.poolMoved_ends (h : ∀ m, s.Highest n m → k ≤ m) : s.poolMoved n = s.updCluster n (fun c => { c with pool := k, move := none }) := by
  rw [State.poolMoved, hk]
  refine State.poolDrop_of_le fun m hm => ?_
  rw [State.updCluster_cluster_of_lt hn]
  exact h m hm

theorem State.poolMoved_drops {m : Nat} (h : s.Highest n m) (hlt : m < k) : s.poolMoved n = s.updCluster n (fun c => { c with pool := m, move := some m }) := by
  have ended := State.updCluster_cluster_of_lt hn (fun c => { c with pool := k, move := none })
  rw [State.poolMoved, hk]
  refine (State.poolDrop_of_lt (s := s.updCluster n (fun c => { c with pool := k, move := none })) h ?_ ?_).trans (State.updCluster_updCluster ..)
  · rw [ended]; exact hlt
  · rw [ended]

end PoolMove

/-! ## Byte budgets (R162) -/

theorem foldl_add_toNat (l : List (BitVec 24)) : l.foldl (fun n b => n + b.toNat) 0 = (l.map BitVec.toNat).sum := by
  rw [List.sum_eq_foldl, List.foldl_map]

theorem State.budgetInterval_of_within {bs : List (BitVec 24)} (hl : bs.length = 24) (hm : ∀ b ∈ bs, 64 ≤ b.toNat)
    (h0 : 64 * ((bs.take 12).map BitVec.toNat).sum ≤ 16000000) (h1 : 64 * ((bs.drop 12).map BitVec.toNat).sum ≤ 16000000) (s : State) :
    s.budgetInterval bs = { s with clusters := s.clusters.mapIdx (fun i c => { c with byb := bs.getD i 64 }) } := by
  unfold State.budgetInterval
  simp only [foldl_add_toNat]
  refine if_pos ?_
  simp only [Bool.and_eq_true, beq_iff_eq, List.all_eq_true, decide_eq_true_eq]
  exact ⟨⟨⟨hl, hm⟩, h0⟩, h1⟩

theorem State.cluster_mapIdx {s : State} {n : Nat} (hn : n < s.clusters.length) (f : Nat → Cluster → Cluster) :
    ({ s with clusters := s.clusters.mapIdx f } : State).cluster n = f n (s.cluster n) := by
  simp [State.cluster, hn]

/-! ## Idle clusters and their admission (R163) -/

theorem State.clusterIdle_eq (s : State) (n : Nat) :
    s.clusterIdle n = s.updCluster n (fun c => if 256 ≤ c.cyc10 / 10 - c.lastIssue then { c with idle := true } else c) := by
  refine congrArg (s.updCluster n) (funext fun c => ?_)
  split
  next h => rw [decide_eq_true h, Bool.or_true]
  next h => rw [decide_eq_false h, Bool.or_false]

/-- A cluster that is admitted is no longer idle, and its 256 clocks start anew. -/
def Cluster.taken (c : Cluster) : Cluster := { c with idle := false, lastIssue := c.cyc10 / 10 }

theorem State.foldl_updCluster_rest (f : Cluster → Cluster) (l : List Nat) (s : State) :
    l.foldl (fun s n => s.updCluster n f) s = { s with clusters := (l.foldl (fun s n => s.updCluster n f) s).clusters } := by
  induction l generalizing s with
  | nil => rfl
  | cons n l ih => exact ih (s.updCluster n f)

/-- A change that does nothing the second time is made to each cluster of a list, however often it stands there. -/
theorem State.foldl_updCluster_cluster {f : Cluster → Cluster} (hf : ∀ c, f (f c) = f c) {l : List Nat} {s : State} (hl : ∀ n ∈ l, n < s.clusters.length) (k : Nat) :
    (l.foldl (fun s n => s.updCluster n f) s).cluster k = if k ∈ l then f (s.cluster k) else s.cluster k := by
  induction l generalizing s with
  | nil => simp
  | cons n l ih =>
    obtain ⟨hn, hl⟩ := List.forall_mem_cons.1 hl
    have hlen : (s.updCluster n f).clusters.length = s.clusters.length := List.length_modify ..
    rw [List.foldl_cons, ih (fun m hm => hlen ▸ hl m hm)]
    by_cases hk : k = n
    · subst hk
      simp [State.updCluster_cluster_of_lt hn, hf]
    · simp [State.updCluster_cluster_ne hk, hk]

/-- The clusters that ask for admission, cyclically after the last one admitted. -/
def State.askers (s : State) : List Nat := ((List.range 24).map (fun i => (s.admitted + 1 + i) % 24)).filter s.asks

/-- The admissions already made in the window of the present %ptime. -/
def State.used (s : State) : Nat := if s.window = s.ptime.toNat / 100 then s.windowed else 0

theorem State.lt_of_mem_askers {s : State} {n : Nat} (h : n ∈ s.askers) : n < 24 := by
  obtain ⟨i, -, rfl⟩ := List.mem_map.1 (List.mem_filter.1 h).1
  exact Nat.mod_lt _ (by decide)

theorem State.admitClusters_held {s : State} (h : s.hold = true) : s.admitClusters = s := if_pos h

theorem State.admitClusters_eq {s : State} (h : s.hold = false) : s.admitClusters =
    match (s.askers.take (3 - s.used)).getLast? with
    | none => s
    | some l =>
      { ((s.askers.take (3 - s.used)).foldl (fun s n => s.updCluster n Cluster.taken) s) with
        admitted := l
        window := s.ptime.toNat / 100
        windowed := s.used + (s.askers.take (3 - s.used)).length } := by
  rw [State.admitClusters, if_neg (by simp [h])]
  rfl

theorem State.admitClusters_none {s : State} (h : s.hold = false) (hl : s.askers.take (3 - s.used) = []) : s.admitClusters = s := by
  rw [State.admitClusters_eq h, hl]
  rfl

theorem State.admitClusters_some {s : State} (h : s.hold = false) (hl : s.askers.take (3 - s.used) ≠ []) : s.admitClusters =
    { ((s.askers.take (3 - s.used)).foldl (fun s n => s.updCluster n Cluster.taken) s) with
      admitted := (s.askers.take (3 - s.used)).getLastD s.admitted
      window := s.ptime.toNat / 100
      windowed := s.used + (s.askers.take (3 - s.used)).length } := by
  rw [State.admitClusters_eq h, List.getLastD_eq_getLast?, List.getLast?_eq_some_getLast hl]
  rfl

/-! ## Lost lock (R405, R406, R415) -/

@[simp] theorem State.deal_num (s : State) (g : Grid) : (s.deal g).num = g.num := rfl
@[simp] theorem State.deal_released (s : State) (g : Grid) : (s.deal g).released = true := rfl
@[simp] theorem State.deal_record (s : State) (g : Grid) : (s.deal g).record = g.record := rfl

/-- Every grid is still known, with its record, and a released one is released still. -/
def State.KeepsGrids (s t : State) : Prop :=
  ∀ num g, s.grid? num = some g → ∃ g', t.grid? num = some g' ∧ g'.record = g.record ∧ (g.released = true → g'.released = true)

theorem State.KeepsGrids.refl (s : State) : s.KeepsGrids s := fun _ g h => ⟨g, h, rfl, id⟩

theorem State.KeepsGrids.trans {s t u : State} (h : s.KeepsGrids t) (k : t.KeepsGrids u) : s.KeepsGrids u := by
  intro num g hg
  obtain ⟨g1, hg1, hr1, hd1⟩ := h num g hg
  obtain ⟨g2, hg2, hr2, hd2⟩ := k num g1 hg1
  exact ⟨g2, hg2, hr2.trans hr1, hd2 ∘ hd1⟩

theorem State.updGrid_deal_grid? (s : State) (n k : Word) : (s.updGrid n s.deal).grid? k = if k = n then (s.grid? k).map s.deal else s.grid? k :=
  s.updGrid_grid? n k s.deal s.deal_num

theorem State.updGrid_deal_keepsGrids (s : State) (n : Word) : s.KeepsGrids (s.updGrid n s.deal) := by
  intro k g hg
  by_cases h : k = n
  · exact ⟨s.deal g, by rw [State.updGrid_deal_grid?, if_pos h, hg]; rfl, s.deal_record g, fun _ => s.deal_released g⟩
  · exact ⟨g, by rw [State.updGrid_deal_grid?, if_neg h, hg], rfl, id⟩

/-- The lowest launch is taken from those held, and is the last released unless it is below that one. -/
def State.takeLowest (s : State) (k : PodLaunch) (rest : List PodLaunch) : State :=
  { s with podHeld := rest, podReleased := match s.podReleased with | some p => if p.before k then some k else some p | none => some k }

theorem State.releaseLowest_of_due {s : State} {k : PodLaunch} {rest : List PodLaunch} (h : s.podHeld = k :: rest) (hk : k.start ≤ s.ptime.toNat) :
    s.releaseLowest = (s.takeLowest k rest).updGrid k.grid (s.takeLowest k rest).deal := by
  rw [State.releaseLowest, h]
  exact if_neg (Nat.not_lt.2 hk)

theorem State.releaseLowest_of_not_due {s : State} (h : ∀ k ∈ s.podHeld, s.ptime.toNat < k.start) : s.releaseLowest = s := by
  unfold State.releaseLowest
  split
  · rfl
  next k rest hk => exact if_pos (h k (by simp [hk]))

theorem State.releaseLowest_rest (s : State) :
    s.releaseLowest = { s with podHeld := s.releaseLowest.podHeld, podReleased := s.releaseLowest.podReleased, grids := s.releaseLowest.grids } := by
  unfold State.releaseLowest
  split
  · rfl
  · split <;> rfl

theorem State.releaseLowest_keepsGrids (s : State) : s.KeepsGrids s.releaseLowest := by
  unfold State.releaseLowest
  split
  · exact .refl s
  next k rest _ =>
    split
    · exact .refl s
    · exact (s.takeLowest k rest).updGrid_deal_keepsGrids k.grid

/-- The lowest launch is released a number of times. -/
def State.releaseMany (s : State) : Nat → State
  | 0 => s
  | n + 1 => s.releaseLowest.releaseMany n

theorem State.foldl_releaseLowest {α : Type} (l : List α) (s : State) : l.foldl (fun s _ => s.releaseLowest) s = s.releaseMany l.length := by
  induction l generalizing s with
  | nil => rfl
  | cons _ l ih => exact ih s.releaseLowest

theorem State.releaseMany_of_not_due {s : State} (h : ∀ k ∈ s.podHeld, s.ptime.toNat < k.start) (n : Nat) : s.releaseMany n = s := by
  induction n with
  | zero => rfl
  | succ n ih => rw [State.releaseMany, State.releaseLowest_of_not_due h, ih]

theorem State.releaseMany_rest (n : Nat) (s : State) : s.releaseMany n =
    { s with podHeld := (s.releaseMany n).podHeld, podReleased := (s.releaseMany n).podReleased, grids := (s.releaseMany n).grids } := by
  induction n generalizing s with
  | zero => rfl
  | succ n ih => rw [State.releaseMany, ih, s.releaseLowest_rest]

theorem State.releaseMany_keepsGrids (n : Nat) (s : State) : s.KeepsGrids (s.releaseMany n) := by
  induction n generalizing s with
  | zero => exact .refl s
  | succ n ih => exact s.releaseLowest_keepsGrids.trans (ih _)

/-- As many releases as there are launches held in order of their starts release those whose start has come, and leave the others held. -/
theorem State.releaseMany_due {l : List PodLaunch} {s : State} (hs : s.podHeld = l) (hl : l.Pairwise (fun a b => a.start ≤ b.start)) :
    (s.releaseMany l.length).podHeld = l.filter (fun k => decide (s.ptime.toNat < k.start)) ∧
      ∀ k ∈ l, k.start ≤ s.ptime.toNat → ∀ g, s.grid? k.grid = some g →
        ∃ g', (s.releaseMany l.length).grid? k.grid = some g' ∧ g'.released = true ∧ g'.record = g.record := by
  induction l generalizing s with
  | nil => exact ⟨hs, fun k hk => absurd hk List.not_mem_nil⟩
  | cons k rest ih =>
    obtain ⟨hle, hrest⟩ := List.pairwise_cons.1 hl
    by_cases hk : k.start ≤ s.ptime.toNat
    · rw [List.length_cons, State.releaseMany, State.releaseLowest_of_due hs hk]
      obtain ⟨held, dealt⟩ := ih (s := (s.takeLowest k rest).updGrid k.grid (s.takeLowest k rest).deal) rfl hrest
      have keeps : s.KeepsGrids ((s.takeLowest k rest).updGrid k.grid (s.takeLowest k rest).deal) := (s.takeLowest k rest).updGrid_deal_keepsGrids k.grid
      refine ⟨held.trans (List.filter_cons_of_neg (a := k) (l := rest) (mt of_decide_eq_true (Nat.not_lt.2 hk))).symm, fun j hj hd g hg => ?_⟩
      rcases List.mem_cons.1 hj with rfl | hj
      · have hdeal : ((s.takeLowest j rest).updGrid j.grid (s.takeLowest j rest).deal).grid? j.grid = some ((s.takeLowest j rest).deal g) := by
          rw [State.updGrid_deal_grid?, if_pos rfl]
          exact congrArg (Option.map _) hg
        obtain ⟨g', hg', hr, hrel⟩ := State.releaseMany_keepsGrids rest.length _ _ _ hdeal
        exact ⟨g', hg', hrel (State.deal_released ..), hr⟩
      · obtain ⟨g1, hg1, hr1, -⟩ := keeps _ g hg
        obtain ⟨g', hg', hrel, hr⟩ := dealt j hj hd g1 hg1
        exact ⟨g', hg', hrel, hr.trans hr1⟩
    · have hlt : ∀ j ∈ k :: rest, s.ptime.toNat < j.start :=
        List.forall_mem_cons.2 ⟨Nat.not_le.1 hk, fun j hj => Nat.lt_of_lt_of_le (Nat.not_le.1 hk) (hle j hj)⟩
      rw [State.releaseMany_of_not_due (hs ▸ hlt), hs]
      exact ⟨(List.filter_eq_self.2 fun j hj => decide_eq_true (hlt j hj)).symm, fun j hj hd => absurd hd (Nat.not_le.2 (hlt j hj))⟩

theorem State.loseLock_of_locked {s : State} (h : s.lock = true) : s.loseLock = { s.releaseMany s.podHeld.length with lock := false, syncs := 0 } := by
  rw [State.loseLock, if_pos h, State.foldl_releaseLowest, List.length_range]

theorem State.loseLock_of_unlocked {s : State} (h : s.lock = false) : s.loseLock = { s with lock := false, syncs := 0 } := by
  rw [State.loseLock, if_neg (by simp [h])]

theorem State.loseLock_losesLock (s : State) : s.LosesLock s.loseLock := by
  cases h : s.lock with
  | false =>
    rw [State.loseLock_of_unlocked h]
    exact ⟨rfl, fun _ => ⟨rfl, rfl, rfl⟩, fun hl => absurd (h.symm.trans hl) Bool.false_ne_true⟩
  | true =>
    rw [State.loseLock_of_locked h]
    refine ⟨?_, fun hd => ?_, fun _ hp => State.releaseMany_due rfl hp⟩
    · rw [State.releaseMany_rest]
    · have hd := hd.resolve_left (by simp [h])
      rw [State.releaseMany_of_not_due hd]
      exact ⟨rfl, rfl, rfl⟩

@[simp] theorem State.loseLock_lock (s : State) : s.loseLock.lock = false := rfl
@[simp] theorem State.loseLock_offs (s : State) : s.loseLock.offs = s.offs := by rw [s.loseLock_losesLock.rest]

/-! ## Synchronisation (R405) -/

theorem toInt_satI32 (n : Int) : (satI32 n).toInt = max (-2147483648) (min 2147483647 n) := by
  unfold satI32
  rw [BitVec.toInt_ofInt_eq_self (by decide)]
  · omega
  · simp only [Nat.reduceSub]; omega
  · simp only [Nat.reduceSub]; omega

section Sync
variable {s : State} (hr : s.root = false)
include hr

theorem State.syncMessage_lost {offs : Int} (hl : s.lock = true) (h : 500 < offs.natAbs) : s.syncMessage offs = ({ s with offs := satI32 offs } : State).loseLock := by
  simp [State.syncMessage, hr, hl, h]

theorem State.syncMessage_kept {offs : Int} (hl : s.lock = true) (h : ¬500 < offs.natAbs) : s.syncMessage offs = { s with offs := satI32 offs } := by
  simp [State.syncMessage, hr, hl, h]

theorem State.syncMessage_close {offs : Int} (hl : s.lock = false) (h : offs.natAbs ≤ 100) : s.syncMessage offs =
    if 16 ≤ s.syncs + 1 then { s with offs := satI32 offs, lock := true, syncs := 0 } else { s with offs := satI32 offs, syncs := s.syncs + 1 } := by
  simp [State.syncMessage, hr, hl, h]

theorem State.syncMessage_far {offs : Int} (hl : s.lock = false) (h : ¬offs.natAbs ≤ 100) : s.syncMessage offs = { s with offs := satI32 offs, syncs := 0 } := by
  simp [State.syncMessage, hr, hl, h]

theorem State.syncTimeout_losesLock : s.LosesLock s.syncTimeout := by
  rw [State.syncTimeout, if_neg (by simp [hr])]
  exact s.loseLock_losesLock

end Sync

theorem State.syncTimeout_root {s : State} (hr : s.root = true) : s.syncTimeout = s := if_pos hr

/-! ## Pods (R151, R152) -/

theorem State.formPod_of_member {dev : Nat} {members : BitVec 128} (hd : dev < 128) (hm : members.getLsbD dev = true) (h0 : members.getLsbD 0 = true) (s : State)
    (time : DWord) : s.formPod dev members time =
      { s with
        dev := dev, members := members, root := dev == 0, lock := dev == 0, syncs := 0
        ptime := if s.ptime.toNat < time.toNat then time else s.ptime } := by
  rw [State.formPod, if_pos (by simp [hd, hm, h0])]

theorem toNat_later (a b : DWord) : (if a.toNat < b.toNat then b else a).toNat = max a.toNat b.toNat := by
  split <;> omega

/-! ## The statement -/

theorem exec_powerPeriod (s : State) (draw : BitVec 16) : exec (.powerPeriod draw) s = .next (s.powerPeriod draw) := rfl
theorem exec_poolMoveComplete (s : State) (n : Nat) : exec (.poolMoveComplete n) s = .next (s.poolMoved n) := rfl
theorem exec_byteBudgetInterval (s : State) (bs : List (BitVec 24)) : exec (.byteBudgetInterval bs) s = .next (s.budgetInterval bs) := rfl
theorem exec_clusterIdle (s : State) (n : Nat) : exec (.clusterIdle n) s = .next (s.clusterIdle n) := rfl
theorem exec_slewAdmissionWindow (s : State) : exec .slewAdmissionWindow s = .next s.admitClusters := rfl
theorem exec_thermalTrip (s : State) : exec .thermalTrip s = .next { s with therm := true } := rfl
theorem exec_syncMessage (s : State) (offs : Int) : exec (.syncMessage offs) s = .next (s.syncMessage offs) := rfl
theorem exec_syncTimeout (s : State) : exec .syncTimeout s = .next s.syncTimeout := rfl
theorem exec_podFormation (s : State) (dev : Nat) (members : BitVec 128) (time : DWord) : exec (.podFormation dev members time) s = .next (s.formPod dev members time) := rfl

/-- Settles O45: a power period and an end of a pool move by their equations, an admission window by what it makes of each cluster it admits, and a
synchronisation message by whether the device is locked and how far its clock is off; a device that loses lock releases its launches in order. -/
theorem powerAndTimeSteps : Obligations.PowerAndTimeSteps := by
  unfold Obligations.PowerAndTimeSteps
  refine ⟨?_, ?_, ?_, ?_, ?_, ?_, ?_, ?_, fun s h => by rw [exec_syncTimeout, State.syncTimeout_root h],
    fun s h => ⟨_, exec_syncTimeout s, State.syncTimeout_losesLock h⟩, ?_⟩
  · intro s draw
    rw [exec_powerPeriod, State.powerPeriod_eq]
    rfl
  · intro s n k hn hk
    rw [exec_poolMoveComplete]
    exact ⟨fun h => by rw [State.poolMoved_ends hn hk h], fun m h hlt => by rw [State.poolMoved_drops hn hk h hlt]⟩
  · intro s bs hl hm h0 h1
    rw [exec_byteBudgetInterval, State.budgetInterval_of_within hl hm h0 h1]
    exact ⟨_, rfl, rfl, fun n hn => State.cluster_mapIdx hn _⟩
  · intro s n
    rw [exec_clusterIdle, State.clusterIdle_eq]
  · intro s h
    rw [exec_slewAdmissionWindow, State.admitClusters_held h]
  · intro s h
    rw [exec_slewAdmissionWindow]
    refine ⟨fun hl => by rw [State.admitClusters_none h hl], fun hl hc => ⟨_, by rw [State.admitClusters_some h hl], ?_, fun n => ?_⟩⟩
    · rw [State.foldl_updCluster_rest]
      rfl
    · exact State.foldl_updCluster_cluster (f := Cluster.taken) (fun _ => rfl) (fun m hm => hc ▸ State.lt_of_mem_askers (List.mem_of_mem_take hm)) n
  · exact exec_thermalTrip
  · intro s offs hr
    rw [exec_syncMessage]
    refine ⟨_, rfl, ?_⟩
    rcases Bool.eq_false_or_eq_true s.lock with hl | hl
    · have locked : s.lock ≠ false := by simp [hl]
      by_cases h : 500 < offs.natAbs
      · rw [State.syncMessage_lost hr hl h]
        have hoffs := State.loseLock_offs ({ s with offs := satI32 offs } : State)
        exact ⟨fun _ _ => hoffs ▸ State.loseLock_losesLock _, fun hk => absurd hk (by simp [hl]), by rw [hoffs, toInt_satI32],
          fun _ => iff_of_true (State.loseLock_lock _) (by omega), fun hu => absurd hu locked⟩
      · rw [State.syncMessage_kept hr hl h]
        exact ⟨fun _ hu => absurd hu locked, fun _ => rfl, toInt_satI32 offs, fun _ => iff_of_false locked (by omega), fun hu => absurd hu locked⟩
    · have unlocked : s.lock ≠ true := by simp [hl]
      by_cases h : offs.natAbs ≤ 100
      · rw [State.syncMessage_close hr hl h]
        by_cases h16 : 16 ≤ s.syncs + 1
        · rw [if_pos h16]
          exact ⟨fun hu => absurd hu unlocked, fun _ => rfl, toInt_satI32 offs, fun hu => absurd hu unlocked,
            fun _ => ⟨iff_of_true rfl (by omega), fun hk => absurd hk.symm Bool.false_ne_true⟩⟩
        · rw [if_neg h16]
          exact ⟨fun hu => absurd hu unlocked, fun _ => rfl, toInt_satI32 offs, fun hu => absurd hu unlocked,
            fun _ => ⟨iff_of_false unlocked (by omega), fun _ => (if_pos (by omega)).symm⟩⟩
      · rw [State.syncMessage_far hr hl h]
        exact ⟨fun hu => absurd hu unlocked, fun _ => rfl, toInt_satI32 offs, fun hu => absurd hu unlocked,
          fun _ => ⟨iff_of_false unlocked (by omega), fun _ => (if_neg (by omega)).symm⟩⟩
  · intro s dev members time hd hm h0
    rw [exec_podFormation, State.formPod_of_member hd hm h0]
    exact ⟨_, rfl, rfl, toNat_later _ _⟩

end Sys2Proof.Machine
